-- ==== Sys2Proof/Word.lean ====
section
/-! DEFINITION. The word types of the device (R3, R4, R21, R101) and the type of sparse tables. -/

namespace Sys2Proof

/-- A 32-bit register or instruction word. -/
abbrev Word := BitVec 32

/-- One byte of memory. -/
abbrev Byte := BitVec 8

/-- A 64-bit value (R21). -/
abbrev DWord := BitVec 64

/-- A 128-bit capability, held exactly as in memory (R101). -/
abbrev Cap := BitVec 128

/-- A 7-bit operand code (R51). -/
abbrev Opc := BitVec 7

/-- A sparse table: (key, value) pairs with rising keys and no entry equal to the table's default. -/
abbrev Tbl (α : Type) := List (Nat × α)

end Sys2Proof
end

