-- ==== Sys2Proof/Syntax.lean ====
section
/-! DEFINITION. The steps of the device: one constructor of Instr for each row of spec/opcode_table.json.
Lane words (R54, R58), M-words and E-words (R59) carry the fields of their encodings; the events of the device
that have no encoding carry what says which unit moves and which of the choices the manual leaves open it takes. -/

namespace Sys2Proof

/-- Rounding modes RM (R58). -/
inductive RMode where | rne | rz | ru | rd deriving DecidableEq, Repr
/-- Signedness: `.i` or `.n` (R21). -/
inductive Sgn where | i | n deriving DecidableEq, Repr
/-- ICMP relations, MIN 8-13 of MAJ 0x01 (R77). -/
inductive ICmp where | eq | ne | ltI | leI | ltN | leN deriving DecidableEq, Repr
/-- FCMP relations (R82). -/
inductive FCmp where | eq | lt | le | un deriving DecidableEq, Repr
/-- Byte and half-word types of MAJ 0x03 (R79). -/
inductive SubTy where | i8 | n8 | i16 | n16 deriving DecidableEq, Repr
/-- Element types of MAJ 0x0A (R83). -/
inductive HTy where | f16 | bf16 deriving DecidableEq, Repr
/-- Conversion types of Table 3.3. -/
inductive CTy where | f32 | f16 | bf16 | i8 | n8 | i16 | n16 | i32 | n32 | i64 | n64 deriving DecidableEq, Repr
/-- SHFL modes (R113). -/
inductive ShMode where | idx | up | down | xor deriving DecidableEq, Repr
/-- SHFL segments (R113). -/
inductive Seg where | gw | s8 | s16 | s32 deriving DecidableEq, Repr
/-- Lane-reduction operations LOP (R58). -/
inductive Lop where | iadd | fadd | iminI | iminN | imaxI | imaxN | fmin | fmax | and | or | xor deriving DecidableEq, Repr
/-- Cache hints of Table 7.3. -/
inductive Hint where | dflt | stream | keep | nol1 deriving DecidableEq, Repr
/-- Types of the narrow loads (Table 7.2). -/
inductive NarrowTy where | n8 | i8 | n16 | i16 deriving DecidableEq, Repr
/-- Widths of the stores (Table 7.2). -/
inductive StW where | b8 | b16 | b32 | b64 deriving DecidableEq, Repr
/-- Scopes, smallest first (00). -/
inductive Scope where | grp | team | gang | dev | sys deriving DecidableEq, Repr
/-- Scope codes SCP of the atomics (R58). -/
inductive Scp where | team | gang | dev | sys deriving DecidableEq, Repr
/-- Order codes ORD (R58). -/
inductive Ord where | rlx | acq | rel | ar deriving DecidableEq, Repr
/-- Atomic operation codes AOP of Table 7.5. -/
inductive Aop where
  | addB32 | addF32 | addB64 | minI32 | minN32 | maxI32 | maxN32 | andB32 | orB32 | xorB32 | exch | cas | rst
  deriving DecidableEq, Repr
/-- Kinds of access of a walk (R302). -/
inductive AccKind where | read | write | atomic deriving DecidableEq, Repr
/-- What a remote access arriving from a peer asks for (R332). -/
inductive PeerOp where | load | store | atom (op : Aop) deriving DecidableEq, Repr

/-- One step of the device, one constructor per row of spec/opcode_table.json. `c` is the chain bit (R46). -/
inductive Instr where
  | nop (c : Bool)
  | iadd (c : Bool) (d : Opc) (a : Opc) (b : Opc)
  | isub (c : Bool) (d : Opc) (a : Opc) (b : Opc)
  | imul (c : Bool) (d : Opc) (a : Opc) (b : Opc)
  | imulh (c : Bool) (d : Opc) (a : Opc) (b : Opc) (s : Sgn)
  | ineg (c : Bool) (d : Opc) (a : Opc)
  | iabs (c : Bool) (d : Opc) (a : Opc)
  | imin (c : Bool) (d : Opc) (a : Opc) (b : Opc) (s : Sgn)
  | imax (c : Bool) (d : Opc) (a : Opc) (b : Opc) (s : Sgn)
  | and (c : Bool) (d : Opc) (a : Opc) (b : Opc)
  | or (c : Bool) (d : Opc) (a : Opc) (b : Opc)
  | xor (c : Bool) (d : Opc) (a : Opc) (b : Opc)
  | mov (c : Bool) (d : Opc) (a : Opc)
  | shl (c : Bool) (d : Opc) (a : Opc) (b : Opc)
  | shr (c : Bool) (d : Opc) (a : Opc) (b : Opc)
  | sar (c : Bool) (d : Opc) (a : Opc) (b : Opc)
  | clz (c : Bool) (d : Opc) (a : Opc)
  | popc (c : Bool) (d : Opc) (a : Opc)
  | brev (c : Bool) (d : Opc) (a : Opc)
  | iadd64 (c : Bool) (d : Opc) (a : Opc) (b : Opc)
  | shl64 (c : Bool) (d : Opc) (a : Opc) (b : Opc)
  | icmp (c : Bool) (d : Opc) (a : Opc) (b : Opc) (o : ICmp)
  | sel (c : Bool) (d : Opc) (a : Opc) (b : Opc)
  | imad (c : Bool) (d : Opc) (a : Opc) (b : Opc)
  | imadwI (c : Bool) (d : Opc) (a : Opc) (b : Opc)
  | imadwN (c : Bool) (d : Opc) (a : Opc) (b : Opc)
  | bfxN (c : Bool) (d : Opc) (a : Opc) (b : Opc)
  | bfxI (c : Bool) (d : Opc) (a : Opc) (b : Opc)
  | bfi (c : Bool) (d : Opc) (a : Opc) (b : Opc)
  | iaddBh (c : Bool) (d : Opc) (a : Opc) (b : Opc) (y : SubTy)
  | isubBh (c : Bool) (d : Opc) (a : Opc) (b : Opc) (y : SubTy)
  | iminBh (c : Bool) (d : Opc) (a : Opc) (b : Opc) (y : SubTy)
  | imaxBh (c : Bool) (d : Opc) (a : Opc) (b : Opc) (y : SubTy)
  | iaddi (c : Bool) (d : Opc) (a : Opc) (i : BitVec 11)
  | movi (c : Bool) (d : Opc) (i : BitVec 11)
  | andi (c : Bool) (d : Opc) (a : Opc) (i : BitVec 11)
  | ori (c : Bool) (d : Opc) (a : Opc) (i : BitVec 11)
  | xori (c : Bool) (d : Opc) (a : Opc) (i : BitVec 11)
  | movl (d : Opc) (lit : Word)
  | fadd (c : Bool) (d : Opc) (a : Opc) (b : Opc) (r : RMode)
  | fsub (c : Bool) (d : Opc) (a : Opc) (b : Opc) (r : RMode)
  | fmul (c : Bool) (d : Opc) (a : Opc) (b : Opc) (r : RMode)
  | ffma (c : Bool) (d : Opc) (a : Opc) (b : Opc) (r : RMode)
  | fmin (c : Bool) (d : Opc) (a : Opc) (b : Opc)
  | fmax (c : Bool) (d : Opc) (a : Opc) (b : Opc)
  | fabs (c : Bool) (d : Opc) (a : Opc)
  | fneg (c : Bool) (d : Opc) (a : Opc)
  | fcmp (c : Bool) (d : Opc) (a : Opc) (b : Opc) (o : FCmp)
  | frnd (c : Bool) (d : Opc) (a : Opc) (r : RMode)
  | fclass (c : Bool) (d : Opc) (a : Opc)
  | hadd2 (c : Bool) (d : Opc) (a : Opc) (b : Opc) (y : HTy)
  | hmul2 (c : Bool) (d : Opc) (a : Opc) (b : Opc) (y : HTy)
  | hfma2 (c : Bool) (d : Opc) (a : Opc) (b : Opc) (y : HTy)
  | hmax2 (c : Bool) (d : Opc) (a : Opc) (b : Opc) (y : HTy)
  | fdot2h (c : Bool) (d : Opc) (a : Opc) (b : Opc) (y : HTy)
  | rcp (c : Bool) (d : Opc) (a : Opc)
  | rsq (c : Bool) (d : Opc) (a : Opc)
  | sqrt (c : Bool) (d : Opc) (a : Opc)
  | div (c : Bool) (d : Opc) (a : Opc) (b : Opc)
  | exp2 (c : Bool) (d : Opc) (a : Opc)
  | log2 (c : Bool) (d : Opc) (a : Opc)
  | sin (c : Bool) (d : Opc) (a : Opc)
  | cos (c : Bool) (d : Opc) (a : Opc)
  | tanh (c : Bool) (d : Opc) (a : Opc)
  | idivI (c : Bool) (d : Opc) (a : Opc) (b : Opc)
  | idivN (c : Bool) (d : Opc) (a : Opc) (b : Opc)
  | iremI (c : Bool) (d : Opc) (a : Opc) (b : Opc)
  | iremN (c : Bool) (d : Opc) (a : Opc) (b : Opc)
  | cvt (c : Bool) (d : Opc) (a : Opc) (e : CTy) (r : RMode) (u : Bool) (y : CTy)
  | cvtn (c : Bool) (d : Opc) (a : Opc) (b : Opc) (f : BitVec 3)
  | cvtw (c : Bool) (d : Opc) (a : Opc) (b : Opc) (f : BitVec 3)
  | smxupd (c : Bool) (d : Opc) (a : Opc)
  | smxmrg (c : Bool) (d : Opc) (a : Opc)
  | smxfin (c : Bool) (d : Opc) (a : Opc)
  | rand (c : Bool) (d : Opc)
  | randn (c : Bool) (d : Opc)
  | shfl (c : Bool) (d : Opc) (a : Opc) (b : Opc) (g : Seg) (h : ShMode)
  | lred (c : Bool) (d : Opc) (a : Opc) (o : Lop)
  | lscan (c : Bool) (d : Opc) (a : Opc) (x : Bool) (o : Lop)
  | vote (c : Bool) (d : Opc) (a : Opc) (v : Bool)
  | voteBallot (c : Bool) (d : Opc) (a : Opc)
  | matcheq (c : Bool) (d : Opc) (a : Opc)
  | bppack (c : Bool) (d : Opc) (a : Opc) (b : Opc)
  | bpunpack (c : Bool) (d : Opc) (a : Opc) (b : Opc)
  | bpdot (c : Bool) (d : Opc) (a : Opc) (b : Opc)
  | bpslice (c : Bool) (d : Opc) (a : Opc) (b : Opc)
  | ld (c : Bool) (d : Opc) (a : Opc) (k : BitVec 3) (l : BitVec 4) (h : Hint) (w : Bool)
  | ldNarrow (c : Bool) (d : Opc) (a : Opc) (k : BitVec 3) (l : BitVec 4) (h : Hint) (w : NarrowTy)
  | st (c : Bool) (v : Opc) (a : Opc) (k : BitVec 3) (l : BitVec 4) (h : Hint) (w : StW)
  | ldacq (c : Bool) (d : Opc) (a : Opc) (k : BitVec 3) (l : BitVec 4) (s : Scope)
  | strel (c : Bool) (v : Opc) (a : Opc) (k : BitVec 3) (l : BitVec 4) (s : Scope)
  | atom (c : Bool) (v : Opc) (a : Opc) (k : BitVec 3) (o : Ord) (p : Scp) (u : Aop)
  | atomr (c : Bool) (d : Opc) (a : Opc) (k : BitVec 3) (l : BitVec 4) (u : Aop)
  | cas (c : Bool) (d : Opc) (a : Opc) (k : BitVec 3) (l : BitVec 4)
  | atomrst (c : Bool) (d : Opc) (a : Opc) (k : BitVec 3) (l : BitVec 4)
  | atomrOrdered (c : Bool) (d : Opc) (a : Opc) (k : BitVec 3) (o : Ord) (p : Scp) (u : Aop)
  | fence (c : Bool) (s : Scope)
  | otfence (c : Bool) (s : Bool)
  | cwb (c : Bool) (v : Opc) (a : Opc) (k : BitVec 3) (l : BitVec 4)
  | cinv (c : Bool) (v : Opc) (a : Opc) (k : BitVec 3) (l : BitVec 4)
  | pref (c : Bool) (v : Opc) (a : Opc) (k : BitVec 3) (l : BitVec 4)
  | stmc (c : Bool) (v : Opc) (a : Opc) (k : BitVec 3) (l : BitVec 4)
  | stredAddF32 (c : Bool) (v : Opc) (a : Opc) (k : BitVec 3) (l : BitVec 4)
  | stredAddB32 (c : Bool) (v : Opc) (a : Opc) (k : BitVec 3) (l : BitVec 4)
  | stredMaxF32 (c : Bool) (v : Opc) (a : Opc) (k : BitVec 3) (l : BitVec 4)
  | copy (c : Bool) (t : BitVec 6) (p : BitVec 3) (q : BitVec 3) (a : Opc)
  | copy2d (c : Bool) (t : BitVec 6) (p : BitVec 3) (q : BitVec 3) (a : Opc)
  | gather (c : Bool) (t : BitVec 6) (q : BitVec 3) (a : Opc)
  | scatter (c : Bool) (t : BitVec 6) (p : BitVec 3) (a : Opc)
  | scatadd (c : Bool) (t : BitVec 6) (p : BitVec 3) (a : Opc) (z : Bool)
  | chain (c : Bool) (t : BitVec 6) (p : BitVec 3) (q : BitVec 3) (a : Opc)
  | twait (c : Bool) (d : Opc) (a : Opc) (w : Bool)
  | tfirst (c : Bool) (d : Opc) (a : Opc)
  | ttest (c : Bool) (d : Opc) (a : Opc)
  | tclr (c : Bool) (a : Opc)
  | commit (c : Bool) (d : Opc) (a : Opc)
  | qstat (c : Bool) (d : Opc) (a : Opc)
  | launch (c : Bool) (d : Opc) (a : Opc)
  | lwait (c : Bool) (d : Opc) (a : Opc)
  | lstat (c : Bool) (d : Opc) (a : Opc)
  | fbulk (c : Bool) (t : BitVec 6) (p : BitVec 3) (q : BitVec 3) (a : Opc)
  | fred (c : Bool) (t : BitVec 6) (p : BitVec 3) (a : Opc)
  | frlease (c : Bool) (t : BitVec 6) (p : BitVec 3) (q : BitVec 3) (a : Opc)
  | arrset (c : Bool) (a : Opc) (b : Opc)
  | arrwait (c : Bool) (a : Opc)
  | pairgo (c : Bool) (t : BitVec 6) (q : BitVec 3) (a : Opc)
  | pairrelaunch (c : Bool) (q : BitVec 3) (a : Opc)
  | pairout (c : Bool) (a : Opc) (b : Bool)
  | pairstat (c : Bool) (d : Opc) (a : Opc)
  | capsub (c : Bool) (d : Opc) (a : Opc) (b : Opc)
  | caprestrict (c : Bool) (d : Opc) (a : Opc) (b : Opc)
  | caplen (c : Bool) (d : Opc) (a : Opc)
  | captype (c : Bool) (d : Opc) (a : Opc)
  | capmov (c : Bool) (d : Opc) (a : Opc)
  | ldcap (c : Bool) (d : Opc) (a : Opc) (k : BitVec 3) (l : BitVec 4)
  | stcap (c : Bool) (v : Opc) (a : Opc) (k : BitVec 3) (l : BitVec 4)
  | br (c : Bool) (x : BitVec 15)
  | brz (c : Bool) (a : Opc) (x : BitVec 15)
  | brnz (c : Bool) (a : Opc) (x : BitVec 15)
  | call (c : Bool) (x : BitVec 15)
  | brx (c : Bool) (a : Opc)
  | callx (c : Bool) (a : Opc)
  | ret (c : Bool)
  | yield (c : Bool)
  | exit (c : Bool)
  | waitc (c : Bool) (a : Opc)
  | enrol (c : Bool) (j : BitVec 3)
  | rejoin (c : Bool) (j : BitVec 3)
  | strike (c : Bool) (j : BitVec 3)
  | bar (c : Bool) (a : Opc) (n : Opc)
  | bararr (c : Bool) (d : Opc) (a : Opc) (n : Opc)
  | barwait (c : Bool) (d : Opc) (a : Opc) (n : Opc)
  | barinit (c : Bool) (d : Opc) (a : Opc) (n : Opc)
  | gangleave (c : Bool) (d : Opc) (a : Opc)
  | gangack (c : Bool) (d : Opc) (a : Opc)
  | gstat (c : Bool) (d : Opc) (a : Opc)
  | dphase (c : Bool)
  | brk (c : Bool)
  | trap (c : Bool) (n : Opc)
  | trapret (c : Bool) (n : Opc)
  | event (c : Bool) (a : Opc) (n : Opc)
  | sread (c : Bool) (d : Opc) (n : Opc)
  | swrite (c : Bool) (a : Opc) (n : Opc)
  | faultrec (c : Bool) (d : Opc) (a : Opc)
  | lresume (c : Bool) (d : Opc) (a : Opc) (n : Opc)
  | lkill (c : Bool) (d : Opc) (a : Opc)
  | ctxsave (c : Bool) (d : Opc) (a : Opc)
  | ctxload (c : Bool) (d : Opc) (a : Opc)
  -- M-words (Table 8.4)
  | tclaim (a : BitVec 4) (n : Opc)
  | trelease (a : BitVec 4) (n : Opc)
  | tload (a : BitVec 4) (b : BitVec 4) (f : BitVec 3) (k : BitVec 4)
  | tzero (c : BitVec 4)
  | tzeroSlot (a : BitVec 4)
  | tmma (a : BitVec 4) (b : BitVec 4) (c : BitVec 4) (u : Bool) (i : Bool)
  | tdrain (b : BitVec 4) (c : BitVec 4) (f : BitVec 3) (p : BitVec 5)
  | mbararr (a : BitVec 4) (i : BitVec 22)
  | mbarwait (a : BitVec 4) (i : BitVec 22)
  | mloop (a : BitVec 4) (i : BitVec 22)
  | mend
  | mset (a : BitVec 4) (i : BitVec 22)
  | madd (a : BitVec 4) (i : BitVec 22)
  | mpost (a : BitVec 4) (b : BitVec 4)
  | mexit
  -- E-words (Table 8.7)
  | eadd (d : BitVec 4) (a : BitVec 4) (b : BitVec 4)
  | esub (d : BitVec 4) (a : BitVec 4) (b : BitVec 4)
  | emul (d : BitVec 4) (a : BitVec 4) (b : BitVec 4)
  | efma (d : BitVec 4) (a : BitVec 4) (b : BitVec 4)
  | emax (d : BitVec 4) (a : BitVec 4) (b : BitVec 4)
  | emin (d : BitVec 4) (a : BitVec 4) (b : BitVec 4)
  | etanh (d : BitVec 4) (a : BitVec 4)
  | eexp (d : BitVec 4) (a : BitVec 4)
  | ercp (d : BitVec 4) (a : BitVec 4)
  | eldrow (d : BitVec 4)
  | eldcol (d : BitVec 4)
  | ecvt (d : BitVec 4) (a : BitVec 4) (f : BitVec 3)
  | eamax (a : BitVec 4)
  | esmx (d : BitVec 4) (a : BitVec 4)
  | eend
  -- events of the device (no encoding)
  | storePerform (ev : Nat)
  | coreBufferDrain (store : Nat)
  | loadPerform (ev : Nat) (pick : Nat)
  | atomicPerform (ev : Nat)
  | systemBufferDeliver (store : Nat)
  | engineAccess (th : Nat) (item : Nat)
  | viewRaise (core : Nat) (granule : Nat) (stamp : Nat)
  | extentCacheDrop (entry : Nat)
  | extentCacheFill (core : Nat) (ctx : Nat) (obj : Nat) (page : Nat) (kind : AccKind)
  | waitcExpiry (gk : Nat) (lane : Nat)
  | fairnessTimerExpiry (gk : Nat) (pc : Nat)
  | ageLimitExpiry (gk : Nat)
  | activeSetReplace (gk : Nat)
  | activeSetIdleLeave (gk : Nat)
  | faultQueueEnter (tk : Nat)
  | pairLimit (gk : Nat) (lane : Nat)
  | engineComplete (th : Nat)
  | arrayOpStart (op : Nat)
  | arrayOpFinish (op : Nat)
  | epilogueRow (op : Nat)
  | martenBinning (th : Nat)
  | pairGroupStart (th : Nat)
  | sideApply (side : Nat)
  | exactFinish (th : Nat)
  | pairLaunchComplete (th : Nat)
  | launchRecordWrite (ctx : Nat) (off : Nat) (data : DWord)
  | launchSubmit (ctx : Nat) (data : DWord)
  | teamPlace (ln : Nat) (cores : List Nat)
  | bankroleWrite (core : Nat) (ln : Nat)
  | backfillStop (ln : Nat)
  | teamEnd (tk : Nat)
  | launchComplete (ln : Nat)
  | preemptTeam (tk : Nat)
  | teamResume (tk : Nat) (core : Nat)
  | serialPhase (ln : Nat)
  | sliceWithdraw (tk : Nat)
  | correctedError (unit : Nat) (num : Nat)
  | ceThreshold (unit : Nat) (num : Nat)
  | uncorrectableError (unit : Nat) (num : Nat) (addr : Nat)
  | taskRelaunch (tk : Nat) (cores : List Nat)
  | powerOverLimit
  | powerUnderLimit
  | powerUp
  | bringUpStage (ok : Bool) (reason : Byte)
  | contextCreate (ctx : Nat) (data : DWord) (hyper : Bool)
  | contextDestroy (ctx : Nat)
  | resolveRetry (ctx : Nat) (obj : Nat) (page : Nat)
  | resolveFail (ctx : Nat) (obj : Nat) (page : Nat)
  | hostOtfenceDev (ctx : Nat) (seq : Word)
  | hostOtfenceSys (ctx : Nat) (seq : Word)
  | otfenceDone (seq : Word)
  | commandPortStage (port : Nat) (off : Nat) (data : DWord)
  | hostMemoryWrite (addr : Nat) (size : Nat) (data : BitVec 512)
  | hostMemoryRead (addr : Nat) (size : Nat)
  | tcignRead
  | dlcountRead (port : Nat)
  | lpfullClear (mask : DWord)
  | registerWrite (addr : Nat) (size : Nat) (data : DWord) (hyper : Bool)
  | eventRingWrite
  | gets (line : Nat) (die : Nat) (sector : Nat)
  | getm (line : Nat) (die : Nat) (sector : Nat)
  | puts (line : Nat) (die : Nat)
  | pute (line : Nat) (die : Nat)
  | putm (line : Nat) (die : Nat)
  | inv (line : Nat) (die : Nat)
  | downgrade (line : Nat) (die : Nat)
  | grant (line : Nat) (die : Nat)
  | invAck (line : Nat) (die : Nat)
  | putAck (line : Nat) (die : Nat)
  | l2Eviction (line : Nat) (die : Nat)
  | sectorFetch (line : Nat) (die : Nat) (sector : Nat)
  | flitReceive (port : Nat) (ctr : Nat) (good : Bool)
  | flitAck (port : Nat) (ctr : Nat)
  | laneSpare (port : Nat) (lane : Nat)
  | linkFail (port : Nat) (link : Nat)
  | portUp (port : Nat)
  | escapeMove (port : Nat) (chan : Nat)
  | keyInstall (port : Nat) (key : BitVec 256)
  | keySwitch (port : Nat)
  | flitCounterExhausted (port : Nat)
  | rekeyGraceExpiry (port : Nat)
  | peerAccessArrive (dev : Nat) (addr : Nat) (size : Nat) (op : PeerOp) (data : DWord)
  | bulkPacketArrive (dev : Nat) (addr : Nat) (bytes : List Byte) (counter : Word)
  | reduceLeaseArrive (dev : Nat) (th : Nat) (cfg : Word) (timeout : Word)
  | reduceContribArrive (dev : Nat) (th : Nat) (slot : Nat) (val : Word)
  | slotTimeout (slot : Nat)
  | resultRecordDeliver (slot : Nat)
  | owlHalt (gk : Nat) (mask : DWord)
  | owlResume (gk : Nat) (mask : DWord) (past : Bool)
  | owlStep (gk : Nat) (mask : DWord) (past : Bool)
  | owlHaltseq (tk : Nat)
  | owlResumeseq (tk : Nat) (past : Bool)
  | owlStepseq (tk : Nat) (past : Bool)
  | grantWrite (die : Nat) (data : DWord) (hyper : Bool)
  | lcclearWrite (core : Nat)
  | sampleTimer (core : Nat) (part : Nat)
  | traceLostRecord (die : Nat)
  | powerRemoved
  | signedUpdate (version : Nat) (image : Nat)
  | noIssueClock (core : Nat) (part : Nat)
  deriving DecidableEq, Repr

end Sys2Proof
end

