-- ==== Sys2Proof/Decode.lean ====
section
/-! DEFINITION. Decoding of lane words, M-words and E-words (R43, R54-R59, R62 check 1), and the encoder.
Every word is read as a natural number whose bit 0 is its least significant bit (R4). -/

namespace Sys2Proof

/-- Why a word is refused; every one is ILLEGAL_ENCODING on the word (R57, R58, R62 check 1). -/
inductive DecodeError where
  /-- MAJ or OP is not allocated (R58, R59). -/
  | unallocatedMajor
  /-- MIN, MIN6, J or OP is not allocated (R58). -/
  | unallocatedMinor
  /-- A field that must hold zero does not (R57, R59, R74). -/
  | nonzeroField
  /-- A conversion type code 11 to 15 (R90). -/
  | conversionType
  /-- CVT with SAT = 1 and a float destination (R90). -/
  | satFloat
  /-- MOVL with C = 1 (R56). -/
  | movlChained
  /-- Fewer bytes than the instruction has. -/
  | truncated
  deriving DecidableEq, Repr

/-- The fields of Table 3.2, every format's fields read at their places. -/
structure Fields where
  c : Bool
  maj : Nat
  d : Opc
  a : Opc
  b : Opc
  min : Nat
  imm : BitVec 11
  cap : BitVec 3
  look : BitVec 4
  tag : BitVec 6
  capd : BitVec 3
  caps : BitVec 3
  fa : Opc
  min6 : Nat
  j : BitVec 3
  disp : BitVec 15
  deriving DecidableEq, Repr

/-- The fields of a lane word (R54). -/
def fieldsOf (w : Nat) : Fields where
  c := w / 2 ^ 31 % 2 == 1
  maj := w / 2 ^ 25 % 64
  d := BitVec.ofNat 7 (w / 2 ^ 18)
  a := BitVec.ofNat 7 (w / 2 ^ 11)
  b := BitVec.ofNat 7 (w / 2 ^ 4)
  min := w % 16
  imm := BitVec.ofNat 11 w
  cap := BitVec.ofNat 3 (w / 2 ^ 8)
  look := BitVec.ofNat 4 (w / 2 ^ 4)
  tag := BitVec.ofNat 6 (w / 2 ^ 19)
  capd := BitVec.ofNat 3 (w / 2 ^ 16)
  caps := BitVec.ofNat 3 (w / 2 ^ 13)
  fa := BitVec.ofNat 7 (w / 2 ^ 6)
  min6 := w % 64
  j := BitVec.ofNat 3 (w / 2 ^ 15)
  disp := BitVec.ofNat 15 w

def RMode.ofCode : Nat → RMode | 0 => .rne | 1 => .rz | 2 => .ru | _ => .rd
def RMode.code : RMode → Nat | .rne => 0 | .rz => 1 | .ru => 2 | .rd => 3
def Sgn.code : Sgn → Nat | .i => 0 | .n => 1
def ICmp.code : ICmp → Nat | .eq => 0 | .ne => 1 | .ltI => 2 | .leI => 3 | .ltN => 4 | .leN => 5
def FCmp.code : FCmp → Nat | .eq => 0 | .lt => 1 | .le => 2 | .un => 3
def SubTy.code : SubTy → Nat | .i8 => 0 | .n8 => 1 | .i16 => 2 | .n16 => 3
def HTy.code : HTy → Nat | .f16 => 0 | .bf16 => 1
def ShMode.code : ShMode → Nat | .idx => 0 | .up => 1 | .down => 2 | .xor => 3
def Seg.code : Seg → Nat | .gw => 0 | .s8 => 1 | .s16 => 2 | .s32 => 3
def Hint.code : Hint → Nat | .dflt => 0 | .stream => 1 | .keep => 2 | .nol1 => 3
def NarrowTy.code : NarrowTy → Nat | .n8 => 0 | .i8 => 1 | .n16 => 2 | .i16 => 3
def StW.code : StW → Nat | .b8 => 0 | .b16 => 1 | .b32 => 2 | .b64 => 3
def Scope.code : Scope → Nat | .grp => 0 | .team => 1 | .gang => 2 | .dev => 3 | .sys => 4
def Scp.code : Scp → Nat | .team => 0 | .gang => 1 | .dev => 2 | .sys => 3
def Scp.ofCode : Nat → Scp | 0 => .team | 1 => .gang | 2 => .dev | _ => .sys
def Ord.code : Ord → Nat | .rlx => 0 | .acq => 1 | .rel => 2 | .ar => 3
def Ord.ofCode : Nat → Ord | 0 => .rlx | 1 => .acq | 2 => .rel | _ => .ar

/-- Conversion type codes (Table 3.3). -/
def CTy.code : CTy → Nat
  | .f32 => 0 | .f16 => 1 | .bf16 => 2 | .i8 => 3 | .n8 => 4 | .i16 => 5 | .n16 => 6 | .i32 => 7 | .n32 => 8
  | .i64 => 9 | .n64 => 10

def CTy.ofCode? : Nat → Option CTy
  | 0 => some .f32 | 1 => some .f16 | 2 => some .bf16 | 3 => some .i8 | 4 => some .n8 | 5 => some .i16
  | 6 => some .n16 | 7 => some .i32 | 8 => some .n32 | 9 => some .i64 | 10 => some .n64 | _ => none

def CTy.isFloat : CTy → Bool | .f32 => true | .f16 => true | .bf16 => true | _ => false

/-- LOP codes (R58). -/
def Lop.code : Lop → Nat
  | .iadd => 0 | .fadd => 1 | .iminI => 2 | .iminN => 3 | .imaxI => 4 | .imaxN => 5 | .fmin => 6 | .fmax => 7
  | .and => 8 | .or => 9 | .xor => 10

/-- AOP codes (Table 7.5). -/
def Aop.code : Aop → Nat
  | .addB32 => 0 | .addF32 => 1 | .addB64 => 2 | .minI32 => 3 | .minN32 => 4 | .maxI32 => 5 | .maxN32 => 6
  | .andB32 => 7 | .orB32 => 8 | .xorB32 => 9 | .exch => 10 | .cas => 11 | .rst => 12

/-- A required-zero check before an instruction is accepted (R57). -/
def zero (ok : Bool) (r : Except DecodeError Instr) : Except DecodeError Instr :=
  if ok then r else .error .nonzeroField

/-- MAJ 0x00 of Table 3.4. -/
def decode00 (f : Fields) : Except DecodeError Instr :=
  match f.min with
  | 0 => zero (f.d == 0 && f.a == 0 && f.b == 0) (.ok (.nop f.c))
  | 1 => .ok (.iadd f.c f.d f.a f.b)
  | 2 => .ok (.isub f.c f.d f.a f.b)
  | 3 => .ok (.imul f.c f.d f.a f.b)
  | 4 => .ok (.imulh f.c f.d f.a f.b .i)
  | 5 => .ok (.imulh f.c f.d f.a f.b .n)
  | 6 => zero (f.b == 0) (.ok (.ineg f.c f.d f.a))
  | 7 => zero (f.b == 0) (.ok (.iabs f.c f.d f.a))
  | 8 => .ok (.imin f.c f.d f.a f.b .i)
  | 9 => .ok (.imin f.c f.d f.a f.b .n)
  | 10 => .ok (.imax f.c f.d f.a f.b .i)
  | 11 => .ok (.imax f.c f.d f.a f.b .n)
  | 12 => .ok (.and f.c f.d f.a f.b)
  | 13 => .ok (.or f.c f.d f.a f.b)
  | 14 => .ok (.xor f.c f.d f.a f.b)
  | 15 => zero (f.b == 0) (.ok (.mov f.c f.d f.a))
  | _ => .error .unallocatedMinor

/-- MAJ 0x01 of Table 3.4. -/
def decode01 (f : Fields) : Except DecodeError Instr :=
  match f.min with
  | 0 => .ok (.shl f.c f.d f.a f.b)
  | 1 => .ok (.shr f.c f.d f.a f.b)
  | 2 => .ok (.sar f.c f.d f.a f.b)
  | 3 => zero (f.b == 0) (.ok (.clz f.c f.d f.a))
  | 4 => zero (f.b == 0) (.ok (.popc f.c f.d f.a))
  | 5 => zero (f.b == 0) (.ok (.brev f.c f.d f.a))
  | 6 => .ok (.iadd64 f.c f.d f.a f.b)
  | 7 => .ok (.shl64 f.c f.d f.a f.b)
  | 8 => .ok (.icmp f.c f.d f.a f.b .eq)
  | 9 => .ok (.icmp f.c f.d f.a f.b .ne)
  | 10 => .ok (.icmp f.c f.d f.a f.b .ltI)
  | 11 => .ok (.icmp f.c f.d f.a f.b .leI)
  | 12 => .ok (.icmp f.c f.d f.a f.b .ltN)
  | 13 => .ok (.icmp f.c f.d f.a f.b .leN)
  | 14 => .ok (.sel f.c f.d f.a f.b)
  | _ => .error .unallocatedMinor

/-- MAJ 0x02 of Table 3.4. -/
def decode02 (f : Fields) : Except DecodeError Instr :=
  match f.min with
  | 0 => .ok (.imad f.c f.d f.a f.b)
  | 1 => .ok (.imadwI f.c f.d f.a f.b)
  | 2 => .ok (.imadwN f.c f.d f.a f.b)
  | 3 => .ok (.bfxN f.c f.d f.a f.b)
  | 4 => .ok (.bfxI f.c f.d f.a f.b)
  | 5 => .ok (.bfi f.c f.d f.a f.b)
  | _ => .error .unallocatedMinor

/-- MAJ 0x03 of Table 3.4. -/
def decode03 (f : Fields) : Except DecodeError Instr :=
  match f.min with
  | 0 => .ok (.iaddBh f.c f.d f.a f.b .i8)
  | 1 => .ok (.iaddBh f.c f.d f.a f.b .n8)
  | 2 => .ok (.iaddBh f.c f.d f.a f.b .i16)
  | 3 => .ok (.iaddBh f.c f.d f.a f.b .n16)
  | 4 => .ok (.isubBh f.c f.d f.a f.b .i8)
  | 5 => .ok (.isubBh f.c f.d f.a f.b .n8)
  | 6 => .ok (.isubBh f.c f.d f.a f.b .i16)
  | 7 => .ok (.isubBh f.c f.d f.a f.b .n16)
  | 8 => .ok (.iminBh f.c f.d f.a f.b .i8)
  | 9 => .ok (.iminBh f.c f.d f.a f.b .n8)
  | 10 => .ok (.iminBh f.c f.d f.a f.b .i16)
  | 11 => .ok (.iminBh f.c f.d f.a f.b .n16)
  | 12 => .ok (.imaxBh f.c f.d f.a f.b .i8)
  | 13 => .ok (.imaxBh f.c f.d f.a f.b .n8)
  | 14 => .ok (.imaxBh f.c f.d f.a f.b .i16)
  | 15 => .ok (.imaxBh f.c f.d f.a f.b .n16)
  | _ => .error .unallocatedMinor

/-- MAJ 0x04 of Table 3.4. -/
def decode04 (f : Fields) : Except DecodeError Instr :=
  if f.a = 120#7 then .ok (.movi f.c f.d f.imm) else .ok (.iaddi f.c f.d f.a f.imm)

/-- MAJ 0x05 of Table 3.4. -/
def decode05 (f : Fields) : Except DecodeError Instr :=
  .ok (.andi f.c f.d f.a f.imm)

/-- MAJ 0x06 of Table 3.4. -/
def decode06 (f : Fields) : Except DecodeError Instr :=
  .ok (.ori f.c f.d f.a f.imm)

/-- MAJ 0x07 of Table 3.4. -/
def decode07 (f : Fields) : Except DecodeError Instr :=
  .ok (.xori f.c f.d f.a f.imm)

/-- MAJ 0x08 of Table 3.4. -/
def decode08 (f : Fields) : Except DecodeError Instr :=
  match f.min with
  | 0 => .ok (.fadd f.c f.d f.a f.b .rne)
  | 1 => .ok (.fadd f.c f.d f.a f.b .rz)
  | 2 => .ok (.fadd f.c f.d f.a f.b .ru)
  | 3 => .ok (.fadd f.c f.d f.a f.b .rd)
  | 4 => .ok (.fsub f.c f.d f.a f.b .rne)
  | 5 => .ok (.fsub f.c f.d f.a f.b .rz)
  | 6 => .ok (.fsub f.c f.d f.a f.b .ru)
  | 7 => .ok (.fsub f.c f.d f.a f.b .rd)
  | 8 => .ok (.fmul f.c f.d f.a f.b .rne)
  | 9 => .ok (.fmul f.c f.d f.a f.b .rz)
  | 10 => .ok (.fmul f.c f.d f.a f.b .ru)
  | 11 => .ok (.fmul f.c f.d f.a f.b .rd)
  | 12 => .ok (.ffma f.c f.d f.a f.b .rne)
  | 13 => .ok (.ffma f.c f.d f.a f.b .rz)
  | 14 => .ok (.ffma f.c f.d f.a f.b .ru)
  | 15 => .ok (.ffma f.c f.d f.a f.b .rd)
  | _ => .error .unallocatedMinor

/-- MAJ 0x09 of Table 3.4. -/
def decode09 (f : Fields) : Except DecodeError Instr :=
  match f.min with
  | 0 => .ok (.fmin f.c f.d f.a f.b)
  | 1 => .ok (.fmax f.c f.d f.a f.b)
  | 2 => zero (f.b == 0) (.ok (.fabs f.c f.d f.a))
  | 3 => zero (f.b == 0) (.ok (.fneg f.c f.d f.a))
  | 4 => .ok (.fcmp f.c f.d f.a f.b .eq)
  | 5 => .ok (.fcmp f.c f.d f.a f.b .lt)
  | 6 => .ok (.fcmp f.c f.d f.a f.b .le)
  | 7 => .ok (.fcmp f.c f.d f.a f.b .un)
  | 8 => zero (f.b == 0) (.ok (.frnd f.c f.d f.a .rne))
  | 9 => zero (f.b == 0) (.ok (.frnd f.c f.d f.a .rz))
  | 10 => zero (f.b == 0) (.ok (.frnd f.c f.d f.a .ru))
  | 11 => zero (f.b == 0) (.ok (.frnd f.c f.d f.a .rd))
  | 12 => zero (f.b == 0) (.ok (.fclass f.c f.d f.a))
  | _ => .error .unallocatedMinor

/-- MAJ 0x0A of Table 3.4. -/
def decode0A (f : Fields) : Except DecodeError Instr :=
  match f.min with
  | 0 => .ok (.hadd2 f.c f.d f.a f.b .f16)
  | 1 => .ok (.hmul2 f.c f.d f.a f.b .f16)
  | 2 => .ok (.hfma2 f.c f.d f.a f.b .f16)
  | 3 => .ok (.hmax2 f.c f.d f.a f.b .f16)
  | 4 => .ok (.fdot2h f.c f.d f.a f.b .f16)
  | 8 => .ok (.hadd2 f.c f.d f.a f.b .bf16)
  | 9 => .ok (.hmul2 f.c f.d f.a f.b .bf16)
  | 10 => .ok (.hfma2 f.c f.d f.a f.b .bf16)
  | 11 => .ok (.hmax2 f.c f.d f.a f.b .bf16)
  | 12 => .ok (.fdot2h f.c f.d f.a f.b .bf16)
  | _ => .error .unallocatedMinor

/-- MAJ 0x10 of Table 3.4. -/
def decode10 (f : Fields) : Except DecodeError Instr :=
  match f.min with
  | 0 => zero (f.b == 0) (.ok (.rcp f.c f.d f.a))
  | 1 => zero (f.b == 0) (.ok (.rsq f.c f.d f.a))
  | 2 => zero (f.b == 0) (.ok (.sqrt f.c f.d f.a))
  | 3 => .ok (.div f.c f.d f.a f.b)
  | 4 => zero (f.b == 0) (.ok (.exp2 f.c f.d f.a))
  | 5 => zero (f.b == 0) (.ok (.log2 f.c f.d f.a))
  | 6 => zero (f.b == 0) (.ok (.sin f.c f.d f.a))
  | 7 => zero (f.b == 0) (.ok (.cos f.c f.d f.a))
  | 8 => zero (f.b == 0) (.ok (.tanh f.c f.d f.a))
  | 9 => .ok (.idivI f.c f.d f.a f.b)
  | 10 => .ok (.idivN f.c f.d f.a f.b)
  | 11 => .ok (.iremI f.c f.d f.a f.b)
  | 12 => .ok (.iremN f.c f.d f.a f.b)
  | _ => .error .unallocatedMinor

/-- MAJ 0x11 of Table 3.4. -/
def decode11 (f : Fields) : Except DecodeError Instr :=
  match CTy.ofCode? f.min, CTy.ofCode? (f.b.toNat / 8) with
    | some y, some e =>
      if f.b.toNat % 2 = 1 && e.isFloat then .error .satFloat
      else .ok (.cvt f.c f.d f.a e (RMode.ofCode (f.b.toNat / 2 % 4)) (f.b.toNat % 2 == 1) y)
    | _, _ => .error .conversionType

/-- MAJ 0x12 of Table 3.4. -/
def decode12 (f : Fields) : Except DecodeError Instr :=
  if f.min < 8 then .ok (.cvtn f.c f.d f.a f.b (BitVec.ofNat 3 f.min)) else .ok (.cvtw f.c f.d f.a f.b (BitVec.ofNat 3 f.min))

/-- MAJ 0x13 of Table 3.4. -/
def decode13 (f : Fields) : Except DecodeError Instr :=
  match f.min with
  | 0 => zero (f.b == 0) (.ok (.smxupd f.c f.d f.a))
  | 1 => zero (f.b == 0) (.ok (.smxmrg f.c f.d f.a))
  | 2 => zero (f.b == 0) (.ok (.smxfin f.c f.d f.a))
  | 3 => zero (f.a == 0 && f.b == 0) (.ok (.rand f.c f.d))
  | 4 => zero (f.a == 0 && f.b == 0) (.ok (.randn f.c f.d))
  | _ => .error .unallocatedMinor

/-- MAJ 0x14 of Table 3.4. -/
def decode14 (f : Fields) : Except DecodeError Instr :=
  match f.min with
  | 0 => .ok (.shfl f.c f.d f.a f.b .gw .idx)
  | 1 => .ok (.shfl f.c f.d f.a f.b .gw .up)
  | 2 => .ok (.shfl f.c f.d f.a f.b .gw .down)
  | 3 => .ok (.shfl f.c f.d f.a f.b .gw .xor)
  | 4 => .ok (.shfl f.c f.d f.a f.b .s8 .idx)
  | 5 => .ok (.shfl f.c f.d f.a f.b .s8 .up)
  | 6 => .ok (.shfl f.c f.d f.a f.b .s8 .down)
  | 7 => .ok (.shfl f.c f.d f.a f.b .s8 .xor)
  | 8 => .ok (.shfl f.c f.d f.a f.b .s16 .idx)
  | 9 => .ok (.shfl f.c f.d f.a f.b .s16 .up)
  | 10 => .ok (.shfl f.c f.d f.a f.b .s16 .down)
  | 11 => .ok (.shfl f.c f.d f.a f.b .s16 .xor)
  | 12 => .ok (.shfl f.c f.d f.a f.b .s32 .idx)
  | 13 => .ok (.shfl f.c f.d f.a f.b .s32 .up)
  | 14 => .ok (.shfl f.c f.d f.a f.b .s32 .down)
  | 15 => .ok (.shfl f.c f.d f.a f.b .s32 .xor)
  | _ => .error .unallocatedMinor

/-- MAJ 0x15 of Table 3.4. -/
def decode15 (f : Fields) : Except DecodeError Instr :=
  match f.min with
  | 0 => zero (f.b == 0) (.ok (.lred f.c f.d f.a .iadd))
  | 1 => zero (f.b == 0) (.ok (.lred f.c f.d f.a .fadd))
  | 2 => zero (f.b == 0) (.ok (.lred f.c f.d f.a .iminI))
  | 3 => zero (f.b == 0) (.ok (.lred f.c f.d f.a .iminN))
  | 4 => zero (f.b == 0) (.ok (.lred f.c f.d f.a .imaxI))
  | 5 => zero (f.b == 0) (.ok (.lred f.c f.d f.a .imaxN))
  | 6 => zero (f.b == 0) (.ok (.lred f.c f.d f.a .fmin))
  | 7 => zero (f.b == 0) (.ok (.lred f.c f.d f.a .fmax))
  | 8 => zero (f.b == 0) (.ok (.lred f.c f.d f.a .and))
  | 9 => zero (f.b == 0) (.ok (.lred f.c f.d f.a .or))
  | 10 => zero (f.b == 0) (.ok (.lred f.c f.d f.a .xor))
  | _ => .error .unallocatedMinor

/-- MAJ 0x16 of Table 3.4. -/
def decode16 (f : Fields) : Except DecodeError Instr :=
  match f.min with
  | 0 => zero (f.b.toNat / 2 == 0) (.ok (.lscan f.c f.d f.a (f.b.toNat % 2 == 1) .iadd))
  | 1 => zero (f.b.toNat / 2 == 0) (.ok (.lscan f.c f.d f.a (f.b.toNat % 2 == 1) .fadd))
  | 2 => zero (f.b.toNat / 2 == 0) (.ok (.lscan f.c f.d f.a (f.b.toNat % 2 == 1) .iminI))
  | 3 => zero (f.b.toNat / 2 == 0) (.ok (.lscan f.c f.d f.a (f.b.toNat % 2 == 1) .iminN))
  | 4 => zero (f.b.toNat / 2 == 0) (.ok (.lscan f.c f.d f.a (f.b.toNat % 2 == 1) .imaxI))
  | 5 => zero (f.b.toNat / 2 == 0) (.ok (.lscan f.c f.d f.a (f.b.toNat % 2 == 1) .imaxN))
  | 6 => zero (f.b.toNat / 2 == 0) (.ok (.lscan f.c f.d f.a (f.b.toNat % 2 == 1) .fmin))
  | 7 => zero (f.b.toNat / 2 == 0) (.ok (.lscan f.c f.d f.a (f.b.toNat % 2 == 1) .fmax))
  | 8 => zero (f.b.toNat / 2 == 0) (.ok (.lscan f.c f.d f.a (f.b.toNat % 2 == 1) .and))
  | 9 => zero (f.b.toNat / 2 == 0) (.ok (.lscan f.c f.d f.a (f.b.toNat % 2 == 1) .or))
  | 10 => zero (f.b.toNat / 2 == 0) (.ok (.lscan f.c f.d f.a (f.b.toNat % 2 == 1) .xor))
  | _ => .error .unallocatedMinor

/-- MAJ 0x17 of Table 3.4. -/
def decode17 (f : Fields) : Except DecodeError Instr :=
  match f.min with
  | 0 => zero (f.b == 0) (.ok (.vote f.c f.d f.a false))
  | 1 => zero (f.b == 0) (.ok (.vote f.c f.d f.a true))
  | 2 => zero (f.b == 0) (.ok (.voteBallot f.c f.d f.a))
  | 3 => zero (f.b == 0) (.ok (.matcheq f.c f.d f.a))
  | 4 => .ok (.bppack f.c f.d f.a f.b)
  | 5 => .ok (.bpunpack f.c f.d f.a f.b)
  | 6 => .ok (.bpdot f.c f.d f.a f.b)
  | 7 => .ok (.bpslice f.c f.d f.a f.b)
  | _ => .error .unallocatedMinor

/-- MAJ 0x18 of Table 3.4. -/
def decode18 (f : Fields) : Except DecodeError Instr :=
  match f.min with
  | 0 => .ok (.ld f.c f.d f.a f.cap f.look .dflt false)
  | 1 => .ok (.ld f.c f.d f.a f.cap f.look .dflt true)
  | 4 => .ok (.ld f.c f.d f.a f.cap f.look .stream false)
  | 5 => .ok (.ld f.c f.d f.a f.cap f.look .stream true)
  | 8 => .ok (.ld f.c f.d f.a f.cap f.look .keep false)
  | 9 => .ok (.ld f.c f.d f.a f.cap f.look .keep true)
  | 12 => .ok (.ld f.c f.d f.a f.cap f.look .nol1 false)
  | 13 => .ok (.ld f.c f.d f.a f.cap f.look .nol1 true)
  | _ => .error .unallocatedMinor

/-- MAJ 0x19 of Table 3.4. -/
def decode19 (f : Fields) : Except DecodeError Instr :=
  match f.min with
  | 0 => .ok (.ldNarrow f.c f.d f.a f.cap f.look .dflt .n8)
  | 1 => .ok (.ldNarrow f.c f.d f.a f.cap f.look .dflt .i8)
  | 2 => .ok (.ldNarrow f.c f.d f.a f.cap f.look .dflt .n16)
  | 3 => .ok (.ldNarrow f.c f.d f.a f.cap f.look .dflt .i16)
  | 4 => .ok (.ldNarrow f.c f.d f.a f.cap f.look .stream .n8)
  | 5 => .ok (.ldNarrow f.c f.d f.a f.cap f.look .stream .i8)
  | 6 => .ok (.ldNarrow f.c f.d f.a f.cap f.look .stream .n16)
  | 7 => .ok (.ldNarrow f.c f.d f.a f.cap f.look .stream .i16)
  | 8 => .ok (.ldNarrow f.c f.d f.a f.cap f.look .keep .n8)
  | 9 => .ok (.ldNarrow f.c f.d f.a f.cap f.look .keep .i8)
  | 10 => .ok (.ldNarrow f.c f.d f.a f.cap f.look .keep .n16)
  | 11 => .ok (.ldNarrow f.c f.d f.a f.cap f.look .keep .i16)
  | 12 => .ok (.ldNarrow f.c f.d f.a f.cap f.look .nol1 .n8)
  | 13 => .ok (.ldNarrow f.c f.d f.a f.cap f.look .nol1 .i8)
  | 14 => .ok (.ldNarrow f.c f.d f.a f.cap f.look .nol1 .n16)
  | 15 => .ok (.ldNarrow f.c f.d f.a f.cap f.look .nol1 .i16)
  | _ => .error .unallocatedMinor

/-- MAJ 0x1A of Table 3.4. -/
def decode1A (f : Fields) : Except DecodeError Instr :=
  match f.min with
  | 0 => .ok (.st f.c f.d f.a f.cap f.look .dflt .b8)
  | 1 => .ok (.st f.c f.d f.a f.cap f.look .dflt .b16)
  | 2 => .ok (.st f.c f.d f.a f.cap f.look .dflt .b32)
  | 3 => .ok (.st f.c f.d f.a f.cap f.look .dflt .b64)
  | 4 => .ok (.st f.c f.d f.a f.cap f.look .stream .b8)
  | 5 => .ok (.st f.c f.d f.a f.cap f.look .stream .b16)
  | 6 => .ok (.st f.c f.d f.a f.cap f.look .stream .b32)
  | 7 => .ok (.st f.c f.d f.a f.cap f.look .stream .b64)
  | 8 => .ok (.st f.c f.d f.a f.cap f.look .keep .b8)
  | 9 => .ok (.st f.c f.d f.a f.cap f.look .keep .b16)
  | 10 => .ok (.st f.c f.d f.a f.cap f.look .keep .b32)
  | 11 => .ok (.st f.c f.d f.a f.cap f.look .keep .b64)
  | 12 => .ok (.st f.c f.d f.a f.cap f.look .nol1 .b8)
  | 13 => .ok (.st f.c f.d f.a f.cap f.look .nol1 .b16)
  | 14 => .ok (.st f.c f.d f.a f.cap f.look .nol1 .b32)
  | 15 => .ok (.st f.c f.d f.a f.cap f.look .nol1 .b64)
  | _ => .error .unallocatedMinor

/-- MAJ 0x1B of Table 3.4. -/
def decode1B (f : Fields) : Except DecodeError Instr :=
  match f.min with
  | 0 => .ok (.ldacq f.c f.d f.a f.cap f.look .grp)
  | 1 => .ok (.ldacq f.c f.d f.a f.cap f.look .team)
  | 2 => .ok (.ldacq f.c f.d f.a f.cap f.look .gang)
  | 3 => .ok (.ldacq f.c f.d f.a f.cap f.look .dev)
  | 4 => .ok (.ldacq f.c f.d f.a f.cap f.look .sys)
  | 8 => .ok (.strel f.c f.d f.a f.cap f.look .grp)
  | 9 => .ok (.strel f.c f.d f.a f.cap f.look .team)
  | 10 => .ok (.strel f.c f.d f.a f.cap f.look .gang)
  | 11 => .ok (.strel f.c f.d f.a f.cap f.look .dev)
  | 12 => .ok (.strel f.c f.d f.a f.cap f.look .sys)
  | _ => .error .unallocatedMinor

/-- MAJ 0x1C of Table 3.4. -/
def decode1C (f : Fields) : Except DecodeError Instr :=
  match f.min with
  | 0 => .ok (.atom f.c f.d f.a f.cap (Ord.ofCode (f.look.toNat / 4)) (Scp.ofCode (f.look.toNat % 4)) .addB32)
  | 1 => .ok (.atom f.c f.d f.a f.cap (Ord.ofCode (f.look.toNat / 4)) (Scp.ofCode (f.look.toNat % 4)) .addF32)
  | 2 => .ok (.atom f.c f.d f.a f.cap (Ord.ofCode (f.look.toNat / 4)) (Scp.ofCode (f.look.toNat % 4)) .addB64)
  | 3 => .ok (.atom f.c f.d f.a f.cap (Ord.ofCode (f.look.toNat / 4)) (Scp.ofCode (f.look.toNat % 4)) .minI32)
  | 4 => .ok (.atom f.c f.d f.a f.cap (Ord.ofCode (f.look.toNat / 4)) (Scp.ofCode (f.look.toNat % 4)) .minN32)
  | 5 => .ok (.atom f.c f.d f.a f.cap (Ord.ofCode (f.look.toNat / 4)) (Scp.ofCode (f.look.toNat % 4)) .maxI32)
  | 6 => .ok (.atom f.c f.d f.a f.cap (Ord.ofCode (f.look.toNat / 4)) (Scp.ofCode (f.look.toNat % 4)) .maxN32)
  | 7 => .ok (.atom f.c f.d f.a f.cap (Ord.ofCode (f.look.toNat / 4)) (Scp.ofCode (f.look.toNat % 4)) .andB32)
  | 8 => .ok (.atom f.c f.d f.a f.cap (Ord.ofCode (f.look.toNat / 4)) (Scp.ofCode (f.look.toNat % 4)) .orB32)
  | 9 => .ok (.atom f.c f.d f.a f.cap (Ord.ofCode (f.look.toNat / 4)) (Scp.ofCode (f.look.toNat % 4)) .xorB32)
  | _ => .error .unallocatedMinor

/-- MAJ 0x1D of Table 3.4. -/
def decode1D (f : Fields) : Except DecodeError Instr :=
  match f.min with
  | 0 => .ok (.atomr f.c f.d f.a f.cap f.look .addB32)
  | 1 => .ok (.atomr f.c f.d f.a f.cap f.look .addF32)
  | 2 => .ok (.atomr f.c f.d f.a f.cap f.look .addB64)
  | 3 => .ok (.atomr f.c f.d f.a f.cap f.look .minI32)
  | 4 => .ok (.atomr f.c f.d f.a f.cap f.look .minN32)
  | 5 => .ok (.atomr f.c f.d f.a f.cap f.look .maxI32)
  | 6 => .ok (.atomr f.c f.d f.a f.cap f.look .maxN32)
  | 7 => .ok (.atomr f.c f.d f.a f.cap f.look .andB32)
  | 8 => .ok (.atomr f.c f.d f.a f.cap f.look .orB32)
  | 9 => .ok (.atomr f.c f.d f.a f.cap f.look .xorB32)
  | 10 => .ok (.atomr f.c f.d f.a f.cap f.look .exch)
  | 11 => .ok (.cas f.c f.d f.a f.cap f.look)
  | 12 => .ok (.atomrst f.c f.d f.a f.cap f.look)
  | _ => .error .unallocatedMinor

/-- MAJ 0x1E of Table 3.4. -/
def decode1E (f : Fields) : Except DecodeError Instr :=
  match f.min with
  | 0 => if f.look.toNat / 4 = 0 then .error .unallocatedMinor else .ok (.atomrOrdered f.c f.d f.a f.cap (Ord.ofCode (f.look.toNat / 4)) (Scp.ofCode (f.look.toNat % 4)) .addB32)
  | 1 => if f.look.toNat / 4 = 0 then .error .unallocatedMinor else .ok (.atomrOrdered f.c f.d f.a f.cap (Ord.ofCode (f.look.toNat / 4)) (Scp.ofCode (f.look.toNat % 4)) .addF32)
  | 2 => if f.look.toNat / 4 = 0 then .error .unallocatedMinor else .ok (.atomrOrdered f.c f.d f.a f.cap (Ord.ofCode (f.look.toNat / 4)) (Scp.ofCode (f.look.toNat % 4)) .addB64)
  | 3 => if f.look.toNat / 4 = 0 then .error .unallocatedMinor else .ok (.atomrOrdered f.c f.d f.a f.cap (Ord.ofCode (f.look.toNat / 4)) (Scp.ofCode (f.look.toNat % 4)) .minI32)
  | 4 => if f.look.toNat / 4 = 0 then .error .unallocatedMinor else .ok (.atomrOrdered f.c f.d f.a f.cap (Ord.ofCode (f.look.toNat / 4)) (Scp.ofCode (f.look.toNat % 4)) .minN32)
  | 5 => if f.look.toNat / 4 = 0 then .error .unallocatedMinor else .ok (.atomrOrdered f.c f.d f.a f.cap (Ord.ofCode (f.look.toNat / 4)) (Scp.ofCode (f.look.toNat % 4)) .maxI32)
  | 6 => if f.look.toNat / 4 = 0 then .error .unallocatedMinor else .ok (.atomrOrdered f.c f.d f.a f.cap (Ord.ofCode (f.look.toNat / 4)) (Scp.ofCode (f.look.toNat % 4)) .maxN32)
  | 7 => if f.look.toNat / 4 = 0 then .error .unallocatedMinor else .ok (.atomrOrdered f.c f.d f.a f.cap (Ord.ofCode (f.look.toNat / 4)) (Scp.ofCode (f.look.toNat % 4)) .andB32)
  | 8 => if f.look.toNat / 4 = 0 then .error .unallocatedMinor else .ok (.atomrOrdered f.c f.d f.a f.cap (Ord.ofCode (f.look.toNat / 4)) (Scp.ofCode (f.look.toNat % 4)) .orB32)
  | 9 => if f.look.toNat / 4 = 0 then .error .unallocatedMinor else .ok (.atomrOrdered f.c f.d f.a f.cap (Ord.ofCode (f.look.toNat / 4)) (Scp.ofCode (f.look.toNat % 4)) .xorB32)
  | 10 => if f.look.toNat / 4 = 0 then .error .unallocatedMinor else .ok (.atomrOrdered f.c f.d f.a f.cap (Ord.ofCode (f.look.toNat / 4)) (Scp.ofCode (f.look.toNat % 4)) .exch)
  | 11 => if f.look.toNat / 4 = 0 then .error .unallocatedMinor else .ok (.atomrOrdered f.c f.d f.a f.cap (Ord.ofCode (f.look.toNat / 4)) (Scp.ofCode (f.look.toNat % 4)) .cas)
  | 12 => if f.look.toNat / 4 = 0 then .error .unallocatedMinor else .ok (.atomrOrdered f.c f.d f.a f.cap (Ord.ofCode (f.look.toNat / 4)) (Scp.ofCode (f.look.toNat % 4)) .rst)
  | _ => .error .unallocatedMinor

/-- MAJ 0x1F of Table 3.4. -/
def decode1F (f : Fields) : Except DecodeError Instr :=
  match f.min with
  | 0 => zero (f.d == 0 && f.a == 0 && f.b == 0) (.ok (.fence f.c .grp))
  | 1 => zero (f.d == 0 && f.a == 0 && f.b == 0) (.ok (.fence f.c .team))
  | 2 => zero (f.d == 0 && f.a == 0 && f.b == 0) (.ok (.fence f.c .gang))
  | 3 => zero (f.d == 0 && f.a == 0 && f.b == 0) (.ok (.fence f.c .dev))
  | 4 => zero (f.d == 0 && f.a == 0 && f.b == 0) (.ok (.fence f.c .sys))
  | 5 => zero (f.d == 0 && f.a == 0 && f.b == 0) (.ok (.otfence f.c false))
  | 6 => zero (f.d == 0 && f.a == 0 && f.b == 0) (.ok (.otfence f.c true))
  | 7 => .ok (.cwb f.c f.d f.a f.cap f.look)
  | 8 => .ok (.cinv f.c f.d f.a f.cap f.look)
  | 9 => .ok (.pref f.c f.d f.a f.cap f.look)
  | 10 => .ok (.stmc f.c f.d f.a f.cap f.look)
  | 11 => .ok (.stredAddF32 f.c f.d f.a f.cap f.look)
  | 12 => .ok (.stredAddB32 f.c f.d f.a f.cap f.look)
  | 13 => .ok (.stredMaxF32 f.c f.d f.a f.cap f.look)
  | _ => .error .unallocatedMinor

/-- MAJ 0x20 of Table 3.4. -/
def decode20 (f : Fields) : Except DecodeError Instr :=
  match f.min6 with
  | 0 => .ok (.copy f.c f.tag f.capd f.caps f.fa)
  | 1 => .ok (.copy2d f.c f.tag f.capd f.caps f.fa)
  | 2 => zero (f.capd == 0) (.ok (.gather f.c f.tag f.caps f.fa))
  | 3 => zero (f.caps == 0) (.ok (.scatter f.c f.tag f.capd f.fa))
  | 4 => zero (f.caps == 0) (.ok (.scatadd f.c f.tag f.capd f.fa false))
  | 5 => zero (f.caps == 0) (.ok (.scatadd f.c f.tag f.capd f.fa true))
  | 6 => .ok (.chain f.c f.tag f.capd f.caps f.fa)
  | _ => .error .unallocatedMinor

/-- MAJ 0x21 of Table 3.4. -/
def decode21 (f : Fields) : Except DecodeError Instr :=
  match f.min with
  | 0 => zero (f.b == 0) (.ok (.twait f.c f.d f.a false))
  | 1 => zero (f.b == 0) (.ok (.twait f.c f.d f.a true))
  | 2 => zero (f.b == 0) (.ok (.tfirst f.c f.d f.a))
  | 3 => zero (f.b == 0) (.ok (.ttest f.c f.d f.a))
  | 4 => zero (f.d == 0 && f.b == 0) (.ok (.tclr f.c f.a))
  | 5 => zero (f.b == 0) (.ok (.commit f.c f.d f.a))
  | 6 => zero (f.b == 0) (.ok (.qstat f.c f.d f.a))
  | _ => .error .unallocatedMinor

/-- MAJ 0x22 of Table 3.4. -/
def decode22 (f : Fields) : Except DecodeError Instr :=
  match f.min with
  | 0 => zero (f.b == 0) (.ok (.launch f.c f.d f.a))
  | 1 => zero (f.b == 0) (.ok (.lwait f.c f.d f.a))
  | 2 => zero (f.b == 0) (.ok (.lstat f.c f.d f.a))
  | _ => .error .unallocatedMinor

/-- MAJ 0x23 of Table 3.4. -/
def decode23 (f : Fields) : Except DecodeError Instr :=
  match f.min6 with
  | 0 => .ok (.fbulk f.c f.tag f.capd f.caps f.fa)
  | 1 => zero (f.caps == 0) (.ok (.fred f.c f.tag f.capd f.fa))
  | 2 => .ok (.frlease f.c f.tag f.capd f.caps f.fa)
  | _ => .error .unallocatedMinor

/-- MAJ 0x24 of Table 3.4. -/
def decode24 (f : Fields) : Except DecodeError Instr :=
  match f.min with
  | 0 => zero (f.d == 0) (.ok (.arrset f.c f.a f.b))
  | 1 => zero (f.d == 0 && f.b == 0) (.ok (.arrwait f.c f.a))
  | _ => .error .unallocatedMinor

/-- MAJ 0x28 of Table 3.4. -/
def decode28 (f : Fields) : Except DecodeError Instr :=
  match f.min6 with
  | 0 => zero (f.capd == 0) (.ok (.pairgo f.c f.tag f.caps f.fa))
  | 1 => zero (f.tag == 0 && f.capd == 0) (.ok (.pairrelaunch f.c f.caps f.fa))
  | _ => .error .unallocatedMinor

/-- MAJ 0x29 of Table 3.4. -/
def decode29 (f : Fields) : Except DecodeError Instr :=
  match f.min with
  | 0 => zero (f.d == 0 && f.b == 0) (.ok (.pairout f.c f.a false))
  | 1 => zero (f.d == 0 && f.b == 0) (.ok (.pairout f.c f.a true))
  | 2 => zero (f.b == 0) (.ok (.pairstat f.c f.d f.a))
  | _ => .error .unallocatedMinor

/-- MAJ 0x2C of Table 3.4. -/
def decode2C (f : Fields) : Except DecodeError Instr :=
  match f.min with
  | 0 => .ok (.capsub f.c f.d f.a f.b)
  | 1 => .ok (.caprestrict f.c f.d f.a f.b)
  | 2 => zero (f.b == 0) (.ok (.caplen f.c f.d f.a))
  | 3 => zero (f.b == 0) (.ok (.captype f.c f.d f.a))
  | 4 => zero (f.b == 0) (.ok (.capmov f.c f.d f.a))
  | _ => .error .unallocatedMinor

/-- MAJ 0x2D of Table 3.4. -/
def decode2D (f : Fields) : Except DecodeError Instr :=
  match f.min with
  | 0 => .ok (.ldcap f.c f.d f.a f.cap f.look)
  | 1 => .ok (.stcap f.c f.d f.a f.cap f.look)
  | _ => .error .unallocatedMinor

/-- MAJ 0x30 of Table 3.4. -/
def decode30 (f : Fields) : Except DecodeError Instr :=
  match f.j.toNat with
  | 0 => zero (f.d == 0) (.ok (.br f.c f.disp))
  | 1 => .ok (.brz f.c f.d f.disp)
  | 2 => .ok (.brnz f.c f.d f.disp)
  | 3 => zero (f.d == 0) (.ok (.call f.c f.disp))
  | _ => .error .unallocatedMinor

/-- MAJ 0x31 of Table 3.4. -/
def decode31 (f : Fields) : Except DecodeError Instr :=
  match f.min with
  | 0 => zero (f.d == 0 && f.b == 0) (.ok (.brx f.c f.a))
  | 1 => zero (f.d == 0 && f.b == 0) (.ok (.callx f.c f.a))
  | 2 => zero (f.d == 0 && f.a == 0 && f.b == 0) (.ok (.ret f.c))
  | 3 => zero (f.d == 0 && f.a == 0 && f.b == 0) (.ok (.yield f.c))
  | 4 => zero (f.d == 0 && f.a == 0 && f.b == 0) (.ok (.exit f.c))
  | 5 => zero (f.d == 0 && f.b == 0) (.ok (.waitc f.c f.a))
  | _ => .error .unallocatedMinor

/-- MAJ 0x32 of Table 3.4. -/
def decode32 (f : Fields) : Except DecodeError Instr :=
  match f.d.toNat with
  | 0 => zero (f.disp == 0) (.ok (.enrol f.c f.j))
  | 1 => zero (f.disp == 0) (.ok (.rejoin f.c f.j))
  | 2 => zero (f.disp == 0) (.ok (.strike f.c f.j))
  | _ => .error .unallocatedMinor

/-- MAJ 0x33 of Table 3.4. -/
def decode33 (f : Fields) : Except DecodeError Instr :=
  match f.min with
  | 0 => zero (f.d == 0) (.ok (.bar f.c f.a f.b))
  | 1 => .ok (.bararr f.c f.d f.a f.b)
  | 2 => .ok (.barwait f.c f.d f.a f.b)
  | 3 => .ok (.barinit f.c f.d f.a f.b)
  | _ => .error .unallocatedMinor

/-- MAJ 0x34 of Table 3.4. -/
def decode34 (f : Fields) : Except DecodeError Instr :=
  match f.min with
  | 0 => zero (f.b == 0) (.ok (.gangleave f.c f.d f.a))
  | 1 => zero (f.b == 0) (.ok (.gangack f.c f.d f.a))
  | 2 => zero (f.b == 0) (.ok (.gstat f.c f.d f.a))
  | 3 => zero (f.d == 0 && f.a == 0 && f.b == 0) (.ok (.dphase f.c))
  | _ => .error .unallocatedMinor

/-- MAJ 0x38 of Table 3.4. -/
def decode38 (f : Fields) : Except DecodeError Instr :=
  match f.min with
  | 0 => zero (f.d == 0 && f.a == 0 && f.b == 0) (.ok (.brk f.c))
  | 1 => zero (f.d == 0 && f.a == 0) (.ok (.trap f.c f.b))
  | 2 => zero (f.d == 0 && f.a == 0) (.ok (.trapret f.c f.b))
  | 3 => zero (f.d == 0) (.ok (.event f.c f.a f.b))
  | _ => .error .unallocatedMinor

/-- MAJ 0x39 of Table 3.4. -/
def decode39 (f : Fields) : Except DecodeError Instr :=
  match f.min with
  | 0 => zero (f.a == 0) (.ok (.sread f.c f.d f.b))
  | 1 => zero (f.d == 0) (.ok (.swrite f.c f.a f.b))
  | _ => .error .unallocatedMinor

/-- MAJ 0x3A of Table 3.4. -/
def decode3A (f : Fields) : Except DecodeError Instr :=
  match f.min with
  | 0 => zero (f.b == 0) (.ok (.faultrec f.c f.d f.a))
  | 1 => .ok (.lresume f.c f.d f.a f.b)
  | 2 => zero (f.b == 0) (.ok (.lkill f.c f.d f.a))
  | _ => .error .unallocatedMinor

/-- MAJ 0x3B of Table 3.4. -/
def decode3B (f : Fields) : Except DecodeError Instr :=
  match f.min with
  | 0 => zero (f.b == 0) (.ok (.ctxsave f.c f.d f.a))
  | 1 => zero (f.b == 0) (.ok (.ctxload f.c f.d f.a))
  | _ => .error .unallocatedMinor

/-- A lane word, by its major opcode (R58). `lit` is the word that follows it, which only MOVL reads (R56). -/
def decodeLane (w lit : Word) : Except DecodeError Instr :=
  let f := fieldsOf w.toNat
  match f.maj with
  | 0x00 => decode00 f
  | 0x01 => decode01 f
  | 0x02 => decode02 f
  | 0x03 => decode03 f
  | 0x04 => decode04 f
  | 0x05 => decode05 f
  | 0x06 => decode06 f
  | 0x07 => decode07 f
  | 0x08 => decode08 f
  | 0x09 => decode09 f
  | 0x0A => decode0A f
  | 0x10 => decode10 f
  | 0x11 => decode11 f
  | 0x12 => decode12 f
  | 0x13 => decode13 f
  | 0x14 => decode14 f
  | 0x15 => decode15 f
  | 0x16 => decode16 f
  | 0x17 => decode17 f
  | 0x18 => decode18 f
  | 0x19 => decode19 f
  | 0x1A => decode1A f
  | 0x1B => decode1B f
  | 0x1C => decode1C f
  | 0x1D => decode1D f
  | 0x1E => decode1E f
  | 0x1F => decode1F f
  | 0x20 => decode20 f
  | 0x21 => decode21 f
  | 0x22 => decode22 f
  | 0x23 => decode23 f
  | 0x24 => decode24 f
  | 0x28 => decode28 f
  | 0x29 => decode29 f
  | 0x2C => decode2C f
  | 0x2D => decode2D f
  | 0x30 => decode30 f
  | 0x31 => decode31 f
  | 0x32 => decode32 f
  | 0x33 => decode33 f
  | 0x34 => decode34 f
  | 0x38 => decode38 f
  | 0x39 => decode39 f
  | 0x3A => decode3A f
  | 0x3B => decode3B f
  | 0x3E =>
    if f.c then .error .movlChained
    else zero (f.a == 0 && f.b == 0 && f.min == 0) (.ok (.movl f.d lit))
  | _ => .error .unallocatedMajor

/-- The bit field of n bits at bit lo of a word. -/
def bitField (w lo n : Nat) : Nat := w / 2 ^ lo % 2 ^ n

/-- An M-word (R59, Tables 3.5, 3.6 and 8.4). -/
def decodeM (w : Word) : Except DecodeError Instr :=
  let n := w.toNat
  let ma : BitVec 4 := BitVec.ofNat 4 (n / 2 ^ 22)
  let mb : BitVec 4 := BitVec.ofNat 4 (n / 2 ^ 18)
  let mc : BitVec 4 := BitVec.ofNat 4 (n / 2 ^ 14)
  let slot : BitVec 3 := BitVec.ofNat 3 (n / 2 ^ 11)
  let imm : BitVec 22 := BitVec.ofNat 22 n
  let md := n % 2048
  match n / 2 ^ 26 with
  | 0x01 => zero (mb == 0 && mc == 0 && slot == 0 && md / 128 == 0) (.ok (.tclaim ma (BitVec.ofNat 7 n)))
  | 0x02 => zero (mb == 0 && mc == 0 && slot == 0 && md / 128 == 0) (.ok (.trelease ma (BitVec.ofNat 7 n)))
  | 0x03 => zero (mc == 0 && md / 16 == 0) (.ok (.tload ma mb slot (BitVec.ofNat 4 n)))
  | 0x04 =>
    zero (mb == 0 && slot == 0 && md / 2 == 0)
      (if md % 2 = 1 then zero (mc == 0) (.ok (.tzeroSlot ma)) else zero (ma == 0) (.ok (.tzero mc)))
  | 0x05 => zero (slot == 0 && md / 4 == 0) (.ok (.tmma ma mb mc (md / 2 % 2 == 1) (md % 2 == 1)))
  | 0x06 => zero (ma == 0 && md / 32 == 0) (.ok (.tdrain mb mc slot (BitVec.ofNat 5 n)))
  | 0x07 => .ok (.mbararr ma imm)
  | 0x08 => .ok (.mbarwait ma imm)
  | 0x09 => .ok (.mloop ma imm)
  | 0x0A => zero (ma == 0 && imm == 0) (.ok .mend)
  | 0x0B => .ok (.mset ma imm)
  | 0x0C => .ok (.madd ma imm)
  | 0x0D => zero (mc == 0 && slot == 0 && md == 0) (.ok (.mpost ma mb))
  | 0x0E => zero (ma == 0 && imm == 0) (.ok .mexit)
  | _ => .error .unallocatedMajor

/-- An E-word (R59, Tables 3.5, 3.6 and 8.7). -/
def decodeE (w : Word) : Except DecodeError Instr :=
  let n := w.toNat
  let ed : BitVec 4 := BitVec.ofNat 4 (n / 2 ^ 22)
  let ea : BitVec 4 := BitVec.ofNat 4 (n / 2 ^ 18)
  let eb : BitVec 4 := BitVec.ofNat 4 (n / 2 ^ 14)
  let slot : BitVec 3 := BitVec.ofNat 3 (n / 2 ^ 11)
  let x := n % 2048
  match n / 2 ^ 26 with
  | 0x01 => zero (slot == 0 && x == 0) (.ok (.eadd ed ea eb))
  | 0x02 => zero (slot == 0 && x == 0) (.ok (.esub ed ea eb))
  | 0x03 => zero (slot == 0 && x == 0) (.ok (.emul ed ea eb))
  | 0x04 => zero (slot == 0 && x == 0) (.ok (.efma ed ea eb))
  | 0x05 => zero (slot == 0 && x == 0) (.ok (.emax ed ea eb))
  | 0x06 => zero (slot == 0 && x == 0) (.ok (.emin ed ea eb))
  | 0x07 => zero (eb == 0 && slot == 0 && x == 0) (.ok (.etanh ed ea))
  | 0x08 => zero (eb == 0 && slot == 0 && x == 0) (.ok (.eexp ed ea))
  | 0x09 => zero (eb == 0 && slot == 0 && x == 0) (.ok (.ercp ed ea))
  | 0x0A => zero (ea == 0 && eb == 0 && slot == 0 && x == 0) (.ok (.eldrow ed))
  | 0x0B => zero (ea == 0 && eb == 0 && slot == 0 && x == 0) (.ok (.eldcol ed))
  | 0x0C => zero (eb == 0 && x == 0) (.ok (.ecvt ed ea slot))
  | 0x0D => zero (ed == 0 && eb == 0 && slot == 0 && x == 0) (.ok (.eamax ea))
  | 0x0E => zero (eb == 0 && slot == 0 && x == 0) (.ok (.esmx ed ea))
  | 0x0F => zero (ed == 0 && ea == 0 && eb == 0 && slot == 0 && x == 0) (.ok .eend)
  | _ => .error .unallocatedMajor

/-- The 32-bit little-endian word of four bytes (R3, R43). -/
def wordOfBytes (b0 b1 b2 b3 : Byte) : Word :=
  BitVec.ofNat 32 (b0.toNat + 2 ^ 8 * b1.toNat + 2 ^ 16 * b2.toNat + 2 ^ 24 * b3.toNat)

/-- The bytes of a code object from a word on: the lane instruction that stands there and the bytes after it. -/
def decode : List Byte → Except DecodeError (Instr × List Byte)
  | b0 :: b1 :: b2 :: b3 :: rest =>
    let w := wordOfBytes b0 b1 b2 b3
    if w.toNat / 2 ^ 25 % 64 = 0x3E then
      match rest with
      | l0 :: l1 :: l2 :: l3 :: rest' => (decodeLane w (wordOfBytes l0 l1 l2 l3)).map (fun i => (i, rest'))
      | _ => .error .truncated
    else (decodeLane w 0).map (fun i => (i, rest))
  | _ => .error .truncated

/-- The little-endian bytes of a number (R3). -/
def bytesOfNat : Nat → Nat → List Byte
  | 0, _ => []
  | n + 1, w => BitVec.ofNat 8 w :: bytesOfNat n (w / 256)

/-- The instruction of a table row's bits. A word that is both a lane word and an M-word or E-word is read as a lane
word, since only its place in a kernel image tells them apart (R59, log 6). -/
def decodeTableWord (_nbits w : Nat) : Option Instr :=
  match decode (bytesOfNat 8 w) with
  | .ok (i, _) => some i
  | .error _ =>
    match decodeM (BitVec.ofNat 32 w) with
    | .ok i => some i
    | .error _ => (decodeE (BitVec.ofNat 32 w)).toOption

/-- A word from its chain bit, its fixed bits and its fields, each at its lowest bit (R54, R59). -/
def pack (c base : Nat) : List (Nat × Nat) → Word
  | fs => BitVec.ofNat 32 (fs.foldl (fun n f => n + f.1 * 2 ^ f.2) (c * 2 ^ 31 + base))

/-- The words of an instruction (Tables 3.2, 3.4 and 3.5); none for an event of the device. -/
def encode : Instr → List Word
  | .nop c => [pack c.toNat 0x00000000 []]
  | .iadd c d a b => [pack c.toNat 0x00000001 [(d.toNat, 18), (a.toNat, 11), (b.toNat, 4)]]
  | .isub c d a b => [pack c.toNat 0x00000002 [(d.toNat, 18), (a.toNat, 11), (b.toNat, 4)]]
  | .imul c d a b => [pack c.toNat 0x00000003 [(d.toNat, 18), (a.toNat, 11), (b.toNat, 4)]]
  | .imulh c d a b s => [pack c.toNat 0x00000004 [(d.toNat, 18), (a.toNat, 11), (b.toNat, 4), (s.code, 0)]]
  | .ineg c d a => [pack c.toNat 0x00000006 [(d.toNat, 18), (a.toNat, 11)]]
  | .iabs c d a => [pack c.toNat 0x00000007 [(d.toNat, 18), (a.toNat, 11)]]
  | .imin c d a b s => [pack c.toNat 0x00000008 [(d.toNat, 18), (a.toNat, 11), (b.toNat, 4), (s.code, 0)]]
  | .imax c d a b s => [pack c.toNat 0x0000000A [(d.toNat, 18), (a.toNat, 11), (b.toNat, 4), (s.code, 0)]]
  | .and c d a b => [pack c.toNat 0x0000000C [(d.toNat, 18), (a.toNat, 11), (b.toNat, 4)]]
  | .or c d a b => [pack c.toNat 0x0000000D [(d.toNat, 18), (a.toNat, 11), (b.toNat, 4)]]
  | .xor c d a b => [pack c.toNat 0x0000000E [(d.toNat, 18), (a.toNat, 11), (b.toNat, 4)]]
  | .mov c d a => [pack c.toNat 0x0000000F [(d.toNat, 18), (a.toNat, 11)]]
  | .shl c d a b => [pack c.toNat 0x02000000 [(d.toNat, 18), (a.toNat, 11), (b.toNat, 4)]]
  | .shr c d a b => [pack c.toNat 0x02000001 [(d.toNat, 18), (a.toNat, 11), (b.toNat, 4)]]
  | .sar c d a b => [pack c.toNat 0x02000002 [(d.toNat, 18), (a.toNat, 11), (b.toNat, 4)]]
  | .clz c d a => [pack c.toNat 0x02000003 [(d.toNat, 18), (a.toNat, 11)]]
  | .popc c d a => [pack c.toNat 0x02000004 [(d.toNat, 18), (a.toNat, 11)]]
  | .brev c d a => [pack c.toNat 0x02000005 [(d.toNat, 18), (a.toNat, 11)]]
  | .iadd64 c d a b => [pack c.toNat 0x02000006 [(d.toNat, 18), (a.toNat, 11), (b.toNat, 4)]]
  | .shl64 c d a b => [pack c.toNat 0x02000007 [(d.toNat, 18), (a.toNat, 11), (b.toNat, 4)]]
  | .icmp c d a b o => [pack c.toNat 0x02000008 [(d.toNat, 18), (a.toNat, 11), (b.toNat, 4), (o.code, 0)]]
  | .sel c d a b => [pack c.toNat 0x0200000E [(d.toNat, 18), (a.toNat, 11), (b.toNat, 4)]]
  | .imad c d a b => [pack c.toNat 0x04000000 [(d.toNat, 18), (a.toNat, 11), (b.toNat, 4)]]
  | .imadwI c d a b => [pack c.toNat 0x04000001 [(d.toNat, 18), (a.toNat, 11), (b.toNat, 4)]]
  | .imadwN c d a b => [pack c.toNat 0x04000002 [(d.toNat, 18), (a.toNat, 11), (b.toNat, 4)]]
  | .bfxN c d a b => [pack c.toNat 0x04000003 [(d.toNat, 18), (a.toNat, 11), (b.toNat, 4)]]
  | .bfxI c d a b => [pack c.toNat 0x04000004 [(d.toNat, 18), (a.toNat, 11), (b.toNat, 4)]]
  | .bfi c d a b => [pack c.toNat 0x04000005 [(d.toNat, 18), (a.toNat, 11), (b.toNat, 4)]]
  | .iaddBh c d a b y => [pack c.toNat 0x06000000 [(d.toNat, 18), (a.toNat, 11), (b.toNat, 4), (y.code, 0)]]
  | .isubBh c d a b y => [pack c.toNat 0x06000004 [(d.toNat, 18), (a.toNat, 11), (b.toNat, 4), (y.code, 0)]]
  | .iminBh c d a b y => [pack c.toNat 0x06000008 [(d.toNat, 18), (a.toNat, 11), (b.toNat, 4), (y.code, 0)]]
  | .imaxBh c d a b y => [pack c.toNat 0x0600000C [(d.toNat, 18), (a.toNat, 11), (b.toNat, 4), (y.code, 0)]]
  | .iaddi c d a i => [pack c.toNat 0x08000000 [(d.toNat, 18), (a.toNat, 11), (i.toNat, 0)]]
  | .movi c d i => [pack c.toNat 0x0803C000 [(d.toNat, 18), (i.toNat, 0)]]
  | .andi c d a i => [pack c.toNat 0x0A000000 [(d.toNat, 18), (a.toNat, 11), (i.toNat, 0)]]
  | .ori c d a i => [pack c.toNat 0x0C000000 [(d.toNat, 18), (a.toNat, 11), (i.toNat, 0)]]
  | .xori c d a i => [pack c.toNat 0x0E000000 [(d.toNat, 18), (a.toNat, 11), (i.toNat, 0)]]
  | .movl d lit => [pack 0 0x7C000000 [(d.toNat, 18)], lit]
  | .fadd c d a b r => [pack c.toNat 0x10000000 [(d.toNat, 18), (a.toNat, 11), (b.toNat, 4), (r.code, 0)]]
  | .fsub c d a b r => [pack c.toNat 0x10000004 [(d.toNat, 18), (a.toNat, 11), (b.toNat, 4), (r.code, 0)]]
  | .fmul c d a b r => [pack c.toNat 0x10000008 [(d.toNat, 18), (a.toNat, 11), (b.toNat, 4), (r.code, 0)]]
  | .ffma c d a b r => [pack c.toNat 0x1000000C [(d.toNat, 18), (a.toNat, 11), (b.toNat, 4), (r.code, 0)]]
  | .fmin c d a b => [pack c.toNat 0x12000000 [(d.toNat, 18), (a.toNat, 11), (b.toNat, 4)]]
  | .fmax c d a b => [pack c.toNat 0x12000001 [(d.toNat, 18), (a.toNat, 11), (b.toNat, 4)]]
  | .fabs c d a => [pack c.toNat 0x12000002 [(d.toNat, 18), (a.toNat, 11)]]
  | .fneg c d a => [pack c.toNat 0x12000003 [(d.toNat, 18), (a.toNat, 11)]]
  | .fcmp c d a b o => [pack c.toNat 0x12000004 [(d.toNat, 18), (a.toNat, 11), (b.toNat, 4), (o.code, 0)]]
  | .frnd c d a r => [pack c.toNat 0x12000008 [(d.toNat, 18), (a.toNat, 11), (r.code, 0)]]
  | .fclass c d a => [pack c.toNat 0x1200000C [(d.toNat, 18), (a.toNat, 11)]]
  | .hadd2 c d a b y => [pack c.toNat 0x14000000 [(d.toNat, 18), (a.toNat, 11), (b.toNat, 4), (y.code, 3)]]
  | .hmul2 c d a b y => [pack c.toNat 0x14000001 [(d.toNat, 18), (a.toNat, 11), (b.toNat, 4), (y.code, 3)]]
  | .hfma2 c d a b y => [pack c.toNat 0x14000002 [(d.toNat, 18), (a.toNat, 11), (b.toNat, 4), (y.code, 3)]]
  | .hmax2 c d a b y => [pack c.toNat 0x14000003 [(d.toNat, 18), (a.toNat, 11), (b.toNat, 4), (y.code, 3)]]
  | .fdot2h c d a b y => [pack c.toNat 0x14000004 [(d.toNat, 18), (a.toNat, 11), (b.toNat, 4), (y.code, 3)]]
  | .rcp c d a => [pack c.toNat 0x20000000 [(d.toNat, 18), (a.toNat, 11)]]
  | .rsq c d a => [pack c.toNat 0x20000001 [(d.toNat, 18), (a.toNat, 11)]]
  | .sqrt c d a => [pack c.toNat 0x20000002 [(d.toNat, 18), (a.toNat, 11)]]
  | .div c d a b => [pack c.toNat 0x20000003 [(d.toNat, 18), (a.toNat, 11), (b.toNat, 4)]]
  | .exp2 c d a => [pack c.toNat 0x20000004 [(d.toNat, 18), (a.toNat, 11)]]
  | .log2 c d a => [pack c.toNat 0x20000005 [(d.toNat, 18), (a.toNat, 11)]]
  | .sin c d a => [pack c.toNat 0x20000006 [(d.toNat, 18), (a.toNat, 11)]]
  | .cos c d a => [pack c.toNat 0x20000007 [(d.toNat, 18), (a.toNat, 11)]]
  | .tanh c d a => [pack c.toNat 0x20000008 [(d.toNat, 18), (a.toNat, 11)]]
  | .idivI c d a b => [pack c.toNat 0x20000009 [(d.toNat, 18), (a.toNat, 11), (b.toNat, 4)]]
  | .idivN c d a b => [pack c.toNat 0x2000000A [(d.toNat, 18), (a.toNat, 11), (b.toNat, 4)]]
  | .iremI c d a b => [pack c.toNat 0x2000000B [(d.toNat, 18), (a.toNat, 11), (b.toNat, 4)]]
  | .iremN c d a b => [pack c.toNat 0x2000000C [(d.toNat, 18), (a.toNat, 11), (b.toNat, 4)]]
  | .cvt c d a e r u y => [pack c.toNat 0x22000000 [(d.toNat, 18), (a.toNat, 11), (e.code, 7), (r.code, 5), (u.toNat, 4), (y.code, 0)]]
  | .cvtn c d a b f => [pack c.toNat 0x24000000 [(d.toNat, 18), (a.toNat, 11), (b.toNat, 4), (f.toNat, 0)]]
  | .cvtw c d a b f => [pack c.toNat 0x24000008 [(d.toNat, 18), (a.toNat, 11), (b.toNat, 4), (f.toNat, 0)]]
  | .smxupd c d a => [pack c.toNat 0x26000000 [(d.toNat, 18), (a.toNat, 11)]]
  | .smxmrg c d a => [pack c.toNat 0x26000001 [(d.toNat, 18), (a.toNat, 11)]]
  | .smxfin c d a => [pack c.toNat 0x26000002 [(d.toNat, 18), (a.toNat, 11)]]
  | .rand c d => [pack c.toNat 0x26000003 [(d.toNat, 18)]]
  | .randn c d => [pack c.toNat 0x26000004 [(d.toNat, 18)]]
  | .shfl c d a b g h => [pack c.toNat 0x28000000 [(d.toNat, 18), (a.toNat, 11), (b.toNat, 4), (g.code, 2), (h.code, 0)]]
  | .lred c d a o => [pack c.toNat 0x2A000000 [(d.toNat, 18), (a.toNat, 11), (o.code, 0)]]
  | .lscan c d a x o => [pack c.toNat 0x2C000000 [(d.toNat, 18), (a.toNat, 11), (x.toNat, 4), (o.code, 0)]]
  | .vote c d a v => [pack c.toNat 0x2E000000 [(d.toNat, 18), (a.toNat, 11), (v.toNat, 0)]]
  | .voteBallot c d a => [pack c.toNat 0x2E000002 [(d.toNat, 18), (a.toNat, 11)]]
  | .matcheq c d a => [pack c.toNat 0x2E000003 [(d.toNat, 18), (a.toNat, 11)]]
  | .bppack c d a b => [pack c.toNat 0x2E000004 [(d.toNat, 18), (a.toNat, 11), (b.toNat, 4)]]
  | .bpunpack c d a b => [pack c.toNat 0x2E000005 [(d.toNat, 18), (a.toNat, 11), (b.toNat, 4)]]
  | .bpdot c d a b => [pack c.toNat 0x2E000006 [(d.toNat, 18), (a.toNat, 11), (b.toNat, 4)]]
  | .bpslice c d a b => [pack c.toNat 0x2E000007 [(d.toNat, 18), (a.toNat, 11), (b.toNat, 4)]]
  | .ld c d a k l h w => [pack c.toNat 0x30000000 [(d.toNat, 18), (a.toNat, 11), (k.toNat, 8), (l.toNat, 4), (h.code, 2), (w.toNat, 0)]]
  | .ldNarrow c d a k l h w => [pack c.toNat 0x32000000 [(d.toNat, 18), (a.toNat, 11), (k.toNat, 8), (l.toNat, 4), (h.code, 2), (w.code, 0)]]
  | .st c v a k l h w => [pack c.toNat 0x34000000 [(v.toNat, 18), (a.toNat, 11), (k.toNat, 8), (l.toNat, 4), (h.code, 2), (w.code, 0)]]
  | .ldacq c d a k l s => [pack c.toNat 0x36000000 [(d.toNat, 18), (a.toNat, 11), (k.toNat, 8), (l.toNat, 4), (s.code, 0)]]
  | .strel c v a k l s => [pack c.toNat 0x36000008 [(v.toNat, 18), (a.toNat, 11), (k.toNat, 8), (l.toNat, 4), (s.code, 0)]]
  | .atom c v a k o p u => [pack c.toNat 0x38000000 [(v.toNat, 18), (a.toNat, 11), (k.toNat, 8), (o.code, 6), (p.code, 4), (u.code, 0)]]
  | .atomr c d a k l u => [pack c.toNat 0x3A000000 [(d.toNat, 18), (a.toNat, 11), (k.toNat, 8), (l.toNat, 4), (u.code, 0)]]
  | .cas c d a k l => [pack c.toNat 0x3A00000B [(d.toNat, 18), (a.toNat, 11), (k.toNat, 8), (l.toNat, 4)]]
  | .atomrst c d a k l => [pack c.toNat 0x3A00000C [(d.toNat, 18), (a.toNat, 11), (k.toNat, 8), (l.toNat, 4)]]
  | .atomrOrdered c d a k o p u => [pack c.toNat 0x3C000000 [(d.toNat, 18), (a.toNat, 11), (k.toNat, 8), (o.code, 6), (p.code, 4), (u.code, 0)]]
  | .fence c s => [pack c.toNat 0x3E000000 [(s.code, 0)]]
  | .otfence c s => [pack c.toNat 0x3E000004 [((s.toNat + 1), 0)]]
  | .cwb c v a k l => [pack c.toNat 0x3E000007 [(v.toNat, 18), (a.toNat, 11), (k.toNat, 8), (l.toNat, 4)]]
  | .cinv c v a k l => [pack c.toNat 0x3E000008 [(v.toNat, 18), (a.toNat, 11), (k.toNat, 8), (l.toNat, 4)]]
  | .pref c v a k l => [pack c.toNat 0x3E000009 [(v.toNat, 18), (a.toNat, 11), (k.toNat, 8), (l.toNat, 4)]]
  | .stmc c v a k l => [pack c.toNat 0x3E00000A [(v.toNat, 18), (a.toNat, 11), (k.toNat, 8), (l.toNat, 4)]]
  | .stredAddF32 c v a k l => [pack c.toNat 0x3E00000B [(v.toNat, 18), (a.toNat, 11), (k.toNat, 8), (l.toNat, 4)]]
  | .stredAddB32 c v a k l => [pack c.toNat 0x3E00000C [(v.toNat, 18), (a.toNat, 11), (k.toNat, 8), (l.toNat, 4)]]
  | .stredMaxF32 c v a k l => [pack c.toNat 0x3E00000D [(v.toNat, 18), (a.toNat, 11), (k.toNat, 8), (l.toNat, 4)]]
  | .copy c t p q a => [pack c.toNat 0x40000000 [(t.toNat, 19), (p.toNat, 16), (q.toNat, 13), (a.toNat, 6)]]
  | .copy2d c t p q a => [pack c.toNat 0x40000001 [(t.toNat, 19), (p.toNat, 16), (q.toNat, 13), (a.toNat, 6)]]
  | .gather c t q a => [pack c.toNat 0x40000002 [(t.toNat, 19), (q.toNat, 13), (a.toNat, 6)]]
  | .scatter c t p a => [pack c.toNat 0x40000003 [(t.toNat, 19), (p.toNat, 16), (a.toNat, 6)]]
  | .scatadd c t p a z => [pack c.toNat 0x40000004 [(t.toNat, 19), (p.toNat, 16), (a.toNat, 6), (z.toNat, 0)]]
  | .chain c t p q a => [pack c.toNat 0x40000006 [(t.toNat, 19), (p.toNat, 16), (q.toNat, 13), (a.toNat, 6)]]
  | .twait c d a w => [pack c.toNat 0x42000000 [(d.toNat, 18), (a.toNat, 11), (w.toNat, 0)]]
  | .tfirst c d a => [pack c.toNat 0x42000002 [(d.toNat, 18), (a.toNat, 11)]]
  | .ttest c d a => [pack c.toNat 0x42000003 [(d.toNat, 18), (a.toNat, 11)]]
  | .tclr c a => [pack c.toNat 0x42000004 [(a.toNat, 11)]]
  | .commit c d a => [pack c.toNat 0x42000005 [(d.toNat, 18), (a.toNat, 11)]]
  | .qstat c d a => [pack c.toNat 0x42000006 [(d.toNat, 18), (a.toNat, 11)]]
  | .launch c d a => [pack c.toNat 0x44000000 [(d.toNat, 18), (a.toNat, 11)]]
  | .lwait c d a => [pack c.toNat 0x44000001 [(d.toNat, 18), (a.toNat, 11)]]
  | .lstat c d a => [pack c.toNat 0x44000002 [(d.toNat, 18), (a.toNat, 11)]]
  | .fbulk c t p q a => [pack c.toNat 0x46000000 [(t.toNat, 19), (p.toNat, 16), (q.toNat, 13), (a.toNat, 6)]]
  | .fred c t p a => [pack c.toNat 0x46000001 [(t.toNat, 19), (p.toNat, 16), (a.toNat, 6)]]
  | .frlease c t p q a => [pack c.toNat 0x46000002 [(t.toNat, 19), (p.toNat, 16), (q.toNat, 13), (a.toNat, 6)]]
  | .arrset c a b => [pack c.toNat 0x48000000 [(a.toNat, 11), (b.toNat, 4)]]
  | .arrwait c a => [pack c.toNat 0x48000001 [(a.toNat, 11)]]
  | .pairgo c t q a => [pack c.toNat 0x50000000 [(t.toNat, 19), (q.toNat, 13), (a.toNat, 6)]]
  | .pairrelaunch c q a => [pack c.toNat 0x50000001 [(q.toNat, 13), (a.toNat, 6)]]
  | .pairout c a b => [pack c.toNat 0x52000000 [(a.toNat, 11), (b.toNat, 0)]]
  | .pairstat c d a => [pack c.toNat 0x52000002 [(d.toNat, 18), (a.toNat, 11)]]
  | .capsub c d a b => [pack c.toNat 0x58000000 [(d.toNat, 18), (a.toNat, 11), (b.toNat, 4)]]
  | .caprestrict c d a b => [pack c.toNat 0x58000001 [(d.toNat, 18), (a.toNat, 11), (b.toNat, 4)]]
  | .caplen c d a => [pack c.toNat 0x58000002 [(d.toNat, 18), (a.toNat, 11)]]
  | .captype c d a => [pack c.toNat 0x58000003 [(d.toNat, 18), (a.toNat, 11)]]
  | .capmov c d a => [pack c.toNat 0x58000004 [(d.toNat, 18), (a.toNat, 11)]]
  | .ldcap c d a k l => [pack c.toNat 0x5A000000 [(d.toNat, 18), (a.toNat, 11), (k.toNat, 8), (l.toNat, 4)]]
  | .stcap c v a k l => [pack c.toNat 0x5A000001 [(v.toNat, 18), (a.toNat, 11), (k.toNat, 8), (l.toNat, 4)]]
  | .br c x => [pack c.toNat 0x60000000 [(x.toNat, 0)]]
  | .brz c a x => [pack c.toNat 0x60008000 [(a.toNat, 18), (x.toNat, 0)]]
  | .brnz c a x => [pack c.toNat 0x60010000 [(a.toNat, 18), (x.toNat, 0)]]
  | .call c x => [pack c.toNat 0x60018000 [(x.toNat, 0)]]
  | .brx c a => [pack c.toNat 0x62000000 [(a.toNat, 11)]]
  | .callx c a => [pack c.toNat 0x62000001 [(a.toNat, 11)]]
  | .ret c => [pack c.toNat 0x62000002 []]
  | .yield c => [pack c.toNat 0x62000003 []]
  | .exit c => [pack c.toNat 0x62000004 []]
  | .waitc c a => [pack c.toNat 0x62000005 [(a.toNat, 11)]]
  | .enrol c j => [pack c.toNat 0x64000000 [(j.toNat, 15)]]
  | .rejoin c j => [pack c.toNat 0x64040000 [(j.toNat, 15)]]
  | .strike c j => [pack c.toNat 0x64080000 [(j.toNat, 15)]]
  | .bar c a n => [pack c.toNat 0x66000000 [(a.toNat, 11), (n.toNat, 4)]]
  | .bararr c d a n => [pack c.toNat 0x66000001 [(d.toNat, 18), (a.toNat, 11), (n.toNat, 4)]]
  | .barwait c d a n => [pack c.toNat 0x66000002 [(d.toNat, 18), (a.toNat, 11), (n.toNat, 4)]]
  | .barinit c d a n => [pack c.toNat 0x66000003 [(d.toNat, 18), (a.toNat, 11), (n.toNat, 4)]]
  | .gangleave c d a => [pack c.toNat 0x68000000 [(d.toNat, 18), (a.toNat, 11)]]
  | .gangack c d a => [pack c.toNat 0x68000001 [(d.toNat, 18), (a.toNat, 11)]]
  | .gstat c d a => [pack c.toNat 0x68000002 [(d.toNat, 18), (a.toNat, 11)]]
  | .dphase c => [pack c.toNat 0x68000003 []]
  | .brk c => [pack c.toNat 0x70000000 []]
  | .trap c n => [pack c.toNat 0x70000001 [(n.toNat, 4)]]
  | .trapret c n => [pack c.toNat 0x70000002 [(n.toNat, 4)]]
  | .event c a n => [pack c.toNat 0x70000003 [(a.toNat, 11), (n.toNat, 4)]]
  | .sread c d n => [pack c.toNat 0x72000000 [(d.toNat, 18), (n.toNat, 4)]]
  | .swrite c a n => [pack c.toNat 0x72000001 [(a.toNat, 11), (n.toNat, 4)]]
  | .faultrec c d a => [pack c.toNat 0x74000000 [(d.toNat, 18), (a.toNat, 11)]]
  | .lresume c d a n => [pack c.toNat 0x74000001 [(d.toNat, 18), (a.toNat, 11), (n.toNat, 4)]]
  | .lkill c d a => [pack c.toNat 0x74000002 [(d.toNat, 18), (a.toNat, 11)]]
  | .ctxsave c d a => [pack c.toNat 0x76000000 [(d.toNat, 18), (a.toNat, 11)]]
  | .ctxload c d a => [pack c.toNat 0x76000001 [(d.toNat, 18), (a.toNat, 11)]]
  | .tclaim a n => [pack 0 0x04000000 [(a.toNat, 22), (n.toNat, 0)]]
  | .trelease a n => [pack 0 0x08000000 [(a.toNat, 22), (n.toNat, 0)]]
  | .tload a b f k => [pack 0 0x0C000000 [(a.toNat, 22), (b.toNat, 18), (f.toNat, 11), (k.toNat, 0)]]
  | .tzero c => [pack 0 0x10000000 [(c.toNat, 14)]]
  | .tzeroSlot a => [pack 0 0x10000001 [(a.toNat, 22)]]
  | .tmma a b c u i => [pack 0 0x14000000 [(a.toNat, 22), (b.toNat, 18), (c.toNat, 14), (u.toNat, 1), (i.toNat, 0)]]
  | .tdrain b c f p => [pack 0 0x18000000 [(b.toNat, 18), (c.toNat, 14), (f.toNat, 11), (p.toNat, 0)]]
  | .mbararr a i => [pack 0 0x1C000000 [(a.toNat, 22), (i.toNat, 0)]]
  | .mbarwait a i => [pack 0 0x20000000 [(a.toNat, 22), (i.toNat, 0)]]
  | .mloop a i => [pack 0 0x24000000 [(a.toNat, 22), (i.toNat, 0)]]
  | .mend => [pack 0 0x28000000 []]
  | .mset a i => [pack 0 0x2C000000 [(a.toNat, 22), (i.toNat, 0)]]
  | .madd a i => [pack 0 0x30000000 [(a.toNat, 22), (i.toNat, 0)]]
  | .mpost a b => [pack 0 0x34000000 [(a.toNat, 22), (b.toNat, 18)]]
  | .mexit => [pack 0 0x38000000 []]
  | .eadd d a b => [pack 0 0x04000000 [(d.toNat, 22), (a.toNat, 18), (b.toNat, 14)]]
  | .esub d a b => [pack 0 0x08000000 [(d.toNat, 22), (a.toNat, 18), (b.toNat, 14)]]
  | .emul d a b => [pack 0 0x0C000000 [(d.toNat, 22), (a.toNat, 18), (b.toNat, 14)]]
  | .efma d a b => [pack 0 0x10000000 [(d.toNat, 22), (a.toNat, 18), (b.toNat, 14)]]
  | .emax d a b => [pack 0 0x14000000 [(d.toNat, 22), (a.toNat, 18), (b.toNat, 14)]]
  | .emin d a b => [pack 0 0x18000000 [(d.toNat, 22), (a.toNat, 18), (b.toNat, 14)]]
  | .etanh d a => [pack 0 0x1C000000 [(d.toNat, 22), (a.toNat, 18)]]
  | .eexp d a => [pack 0 0x20000000 [(d.toNat, 22), (a.toNat, 18)]]
  | .ercp d a => [pack 0 0x24000000 [(d.toNat, 22), (a.toNat, 18)]]
  | .eldrow d => [pack 0 0x28000000 [(d.toNat, 22)]]
  | .eldcol d => [pack 0 0x2C000000 [(d.toNat, 22)]]
  | .ecvt d a f => [pack 0 0x30000000 [(d.toNat, 22), (a.toNat, 18), (f.toNat, 11)]]
  | .eamax a => [pack 0 0x34000000 [(a.toNat, 18)]]
  | .esmx d a => [pack 0 0x38000000 [(d.toNat, 22), (a.toNat, 18)]]
  | .eend => [pack 0 0x3C000000 []]
  | .storePerform _ => []
  | .coreBufferDrain _ => []
  | .loadPerform _ _ => []
  | .atomicPerform _ => []
  | .systemBufferDeliver _ => []
  | .engineAccess _ _ => []
  | .viewRaise _ _ _ => []
  | .extentCacheDrop _ => []
  | .extentCacheFill _ _ _ _ _ => []
  | .waitcExpiry _ _ => []
  | .fairnessTimerExpiry _ _ => []
  | .ageLimitExpiry _ => []
  | .activeSetReplace _ => []
  | .activeSetIdleLeave _ => []
  | .faultQueueEnter _ => []
  | .pairLimit _ _ => []
  | .engineComplete _ => []
  | .arrayOpStart _ => []
  | .arrayOpFinish _ => []
  | .epilogueRow _ => []
  | .martenBinning _ => []
  | .pairGroupStart _ => []
  | .sideApply _ => []
  | .exactFinish _ => []
  | .pairLaunchComplete _ => []
  | .launchRecordWrite _ _ _ => []
  | .launchSubmit _ _ => []
  | .teamPlace _ _ => []
  | .bankroleWrite _ _ => []
  | .backfillStop _ => []
  | .teamEnd _ => []
  | .launchComplete _ => []
  | .preemptTeam _ => []
  | .teamResume _ _ => []
  | .serialPhase _ => []
  | .sliceWithdraw _ => []
  | .correctedError _ _ => []
  | .ceThreshold _ _ => []
  | .uncorrectableError _ _ _ => []
  | .taskRelaunch _ _ => []
  | .powerOverLimit => []
  | .powerUnderLimit => []
  | .powerUp => []
  | .bringUpStage _ _ => []
  | .contextCreate _ _ _ => []
  | .contextDestroy _ => []
  | .resolveRetry _ _ _ => []
  | .resolveFail _ _ _ => []
  | .hostOtfenceDev _ _ => []
  | .hostOtfenceSys _ _ => []
  | .otfenceDone _ => []
  | .commandPortStage _ _ _ => []
  | .hostMemoryWrite _ _ _ => []
  | .hostMemoryRead _ _ => []
  | .tcignRead => []
  | .dlcountRead _ => []
  | .lpfullClear _ => []
  | .registerWrite _ _ _ _ => []
  | .eventRingWrite => []
  | .gets _ _ _ => []
  | .getm _ _ _ => []
  | .puts _ _ => []
  | .pute _ _ => []
  | .putm _ _ => []
  | .inv _ _ => []
  | .downgrade _ _ => []
  | .grant _ _ => []
  | .invAck _ _ => []
  | .putAck _ _ => []
  | .l2Eviction _ _ => []
  | .sectorFetch _ _ _ => []
  | .flitReceive _ _ _ => []
  | .flitAck _ _ => []
  | .laneSpare _ _ => []
  | .linkFail _ _ => []
  | .portUp _ => []
  | .escapeMove _ _ => []
  | .keyInstall _ _ => []
  | .keySwitch _ => []
  | .flitCounterExhausted _ => []
  | .rekeyGraceExpiry _ => []
  | .peerAccessArrive _ _ _ _ _ => []
  | .bulkPacketArrive _ _ _ _ => []
  | .reduceLeaseArrive _ _ _ _ => []
  | .reduceContribArrive _ _ _ _ => []
  | .slotTimeout _ => []
  | .resultRecordDeliver _ => []
  | .owlHalt _ _ => []
  | .owlResume _ _ _ => []
  | .owlStep _ _ _ => []
  | .owlHaltseq _ => []
  | .owlResumeseq _ _ => []
  | .owlStepseq _ _ => []
  | .grantWrite _ _ _ => []
  | .lcclearWrite _ => []
  | .sampleTimer _ _ => []
  | .traceLostRecord _ => []
  | .powerRemoved => []
  | .signedUpdate _ _ => []
  | .noIssueClock _ _ => []

end Sys2Proof
end

