-- ==== Sys2Proof/Machine/Num.lean ====
section
/-! DEFINITION. Numbers to the last bit (02_numbers.md): the IEEE formats, exact values, rounding, the NaN rules of
the numeric behaviour versions, format slots, narrow codes and block scales. -/

namespace Sys2Proof.Machine

/-- An IEEE binary format: exponent bits and fraction bits (Table 2.1). -/
structure FFmt where
  eb : Nat
  mb : Nat
  deriving DecidableEq, Repr

def f32 : FFmt := ⟨8, 23⟩
def f16 : FFmt := ⟨5, 10⟩
def bf16 : FFmt := ⟨8, 7⟩

def FFmt.bias (f : FFmt) : Nat := 2 ^ (f.eb - 1) - 1
def FFmt.top (f : FFmt) : Nat := 2 ^ f.eb - 1
/-- The exponent of the unit in the last place of the subnormals. -/
def FFmt.qmin (f : FFmt) : Int := 1 - (f.bias : Int) - (f.mb : Int)
/-- The bit position of the sign. -/
def FFmt.sign (f : FFmt) : Nat := f.eb + f.mb
/-- The canonical quiet NaN (Table 2.1). -/
def FFmt.qnan (f : FFmt) : Nat := f.top * 2 ^ f.mb + 2 ^ (f.mb - 1)
def FFmt.inf (f : FFmt) (neg : Bool) : Nat := neg.toNat * 2 ^ f.sign + f.top * 2 ^ f.mb
/-- The largest finite value of a sign. -/
def FFmt.maxfin (f : FFmt) (neg : Bool) : Nat := neg.toNat * 2 ^ f.sign + f.top * 2 ^ f.mb - 1

/-- An exact value: a NaN, an infinity, or (-1)^neg * m * 2^e, whose zero keeps its sign. -/
inductive Val where
  | nan
  | inf (neg : Bool)
  | fin (neg : Bool) (m : Nat) (e : Int)
  deriving DecidableEq, Repr

/-- The value of an encoding (R19). -/
def FFmt.val (f : FFmt) (w : Nat) : Val :=
  let neg := w / 2 ^ f.sign % 2 == 1
  let e := w / 2 ^ f.mb % 2 ^ f.eb
  let m := w % 2 ^ f.mb
  if e = f.top then (if m = 0 then .inf neg else .nan)
  else if e = 0 then .fin neg m f.qmin
  else .fin neg (m + 2 ^ f.mb) ((e : Int) - f.bias - f.mb)

def FFmt.isNan (f : FFmt) (w : Nat) : Bool := w / 2 ^ f.mb % 2 ^ f.eb == f.top && w % 2 ^ f.mb != 0
/-- A signalling NaN: the top fraction bit is clear (R19). -/
def FFmt.isSnan (f : FFmt) (w : Nat) : Bool := f.isNan w && w / 2 ^ (f.mb - 1) % 2 == 0

/-- 2^e of a non-negative power, 1 otherwise. -/
def pow2 (e : Int) : Nat := 2 ^ e.toNat

/-- floor(log2 (n / d)) for n and d above 0. -/
def log2q (n d : Nat) : Int :=
  let k : Int := (Nat.log2 n : Int) - (Nat.log2 d : Int)
  if n * pow2 (-k) ≥ d * pow2 k then k else k - 1

/-- Whether the quotient q with remainder r over d goes up in a mode; neg is the sign of the value. -/
def roundsUp (rm : RMode) (neg : Bool) (q r d : Nat) : Bool :=
  match rm with
  | .rne => 2 * r > d || (2 * r == d && q % 2 == 1)
  | .rz => false
  | .ru => r != 0 && !neg
  | .rd => r != 0 && neg

/-- The magnitude n / d rounded to `prec` bits with no unit below 2^qmin: the result is m * 2^q. -/
def roundGrid (rm : RMode) (neg : Bool) (n d prec : Nat) (qmin : Int) : Nat × Int :=
  if n = 0 then (0, qmin)
  else
    let q := max qmin (log2q n d - prec + 1)
    let n' := n * pow2 (-q)
    let d' := d * pow2 q
    (n' / d' + (roundsUp rm neg (n' / d') (n' % d') d').toNat, q)

/-- The result of an operation: the bits, and the conditions of Table 2.6 it met. -/
structure FRes where
  bits : Nat
  iv : Bool := false
  dz : Bool := false
  ovf : Bool := false
  deriving DecidableEq, Repr

/-- Whether an overflow of a sign in a mode gives the largest finite value rather than an infinity (IEEE 754-2019). -/
def towardZero (rm : RMode) (neg : Bool) : Bool :=
  match rm with | .rne => false | .rz => true | .ru => neg | .rd => !neg

/-- The magnitude n / d with a sign, rounded once into a format (R19); overflow is that of Table 2.6. -/
def FFmt.roundQ (f : FFmt) (rm : RMode) (neg : Bool) (n d : Nat) : FRes :=
  let r := roundGrid rm neg n d (f.mb + 1) f.qmin
  let s := neg.toNat * 2 ^ f.sign
  if r.1 < 2 ^ f.mb then { bits := s + r.1 }
  else
    let m := if r.1 = 2 ^ (f.mb + 1) then 2 ^ f.mb else r.1
    let be := (r.2 - f.qmin).toNat + 1 + (if r.1 = 2 ^ (f.mb + 1) then 1 else 0)
    if be ≥ f.top then { bits := if towardZero rm neg then f.maxfin neg else f.inf neg, ovf := true }
    else { bits := s + be * 2 ^ f.mb + (m - 2 ^ f.mb) }

/-- An exact value rounded once into a format; a NaN gives the canonical one. -/
def FFmt.round (f : FFmt) (rm : RMode) : Val → FRes
  | .nan => { bits := f.qnan }
  | .inf neg => { bits := f.inf neg }
  | .fin neg m e => f.roundQ rm neg (m * pow2 e) (pow2 (-e))

/-- A NaN operand quieted and carried into a format (R372): the sign is kept, the fraction is aligned at its top. -/
def carryNan (src dst : FFmt) (w : Nat) : Nat :=
  let s := w / 2 ^ src.sign % 2
  let m := w % 2 ^ src.mb
  let m' := if dst.mb ≥ src.mb then m * 2 ^ (dst.mb - src.mb) else m / 2 ^ (src.mb - dst.mb)
  let q := if m' / 2 ^ (dst.mb - 1) % 2 = 1 then m' else m' + 2 ^ (dst.mb - 1)
  s * 2 ^ dst.sign + dst.top * 2 ^ dst.mb + q

/-- The NaN a lane instruction produces from its operands in operand order (Table 2.8, R372). -/
def nanOf (nbv : Nat) (dst : FFmt) (ops : List (FFmt × Nat)) : Nat :=
  if nbv = 1 then dst.qnan
  else match ops.find? (fun o => o.1.isNan o.2) with
    | some o => carryNan o.1 dst o.2
    | none => dst.qnan

def Val.neg : Val → Val | .nan => .nan | .inf s => .inf (!s) | .fin s m e => .fin (!s) m e
def Val.abs : Val → Val | .nan => .nan | .inf _ => .inf false | .fin _ m e => .fin false m e
def Val.isNan : Val → Bool | .nan => true | _ => false
def Val.isZero : Val → Bool | .fin _ m _ => m == 0 | _ => false
def Val.signBit : Val → Bool | .nan => false | .inf s => s | .fin s _ _ => s

/-- The signed integer of a finite value in units of 2^q, for q at or below its exponent. -/
def scaled (s : Bool) (m : Nat) (e q : Int) : Int :=
  let n : Nat := m * pow2 (e - q)
  if s then -(n : Int) else n

/-- The exact sum; none for an invalid sum of infinities. The sign of an exact zero follows the mode (R81). -/
def Val.add (rm : RMode) : Val → Val → Option Val
  | .nan, _ => some .nan
  | _, .nan => some .nan
  | .inf s, .inf t => if s = t then some (.inf s) else none
  | .inf s, _ => some (.inf s)
  | _, .inf t => some (.inf t)
  | .fin s m e, .fin t n f =>
    let q := min e f
    let z := scaled s m e q + scaled t n f q
    if z = 0 then
      some (.fin (if m = 0 && n = 0 && s = t then s else rm == .rd) 0 q)
    else some (.fin (z < 0) z.natAbs q)

/-- The exact product; none for 0 times infinity. -/
def Val.mul : Val → Val → Option Val
  | .nan, _ => some .nan
  | _, .nan => some .nan
  | .inf s, .inf t => some (.inf (s != t))
  | .inf s, .fin t n _ => if n = 0 then none else some (.inf (s != t))
  | .fin s m _, .inf t => if m = 0 then none else some (.inf (s != t))
  | .fin s m e, .fin t n f => some (.fin (s != t) (m * n) (e + f))

/-- Order of two values that are not NaN: negative, zero or positive. -/
def Val.cmp : Val → Val → Int
  | .inf s, .inf t => if s = t then 0 else if s then -1 else 1
  | .inf s, _ => if s then -1 else 1
  | _, .inf t => if t then 1 else -1
  | .fin s m e, .fin t n f =>
    let q := min e f
    scaled s m e q - scaled t n f q
  | _, _ => 0

/-- A result from an exact value that may be an invalid operation, with NaN operands handled (R34, Table 2.8). -/
def finish (nbv : Nat) (dst : FFmt) (rm : RMode) (ops : List (FFmt × Nat)) (r : Option Val) : FRes :=
  let snan := ops.any (fun o => o.1.isSnan o.2)
  if ops.any (fun o => o.1.isNan o.2) then { bits := nanOf nbv dst ops, iv := snan }
  else match r with
    | none => { bits := dst.qnan, iv := true }
    | some v => dst.round rm v

def fAdd (nbv : Nat) (f : FFmt) (rm : RMode) (a b : Nat) : FRes :=
  finish nbv f rm [(f, a), (f, b)] ((f.val a).add rm (f.val b))

def fSub (nbv : Nat) (f : FFmt) (rm : RMode) (a b : Nat) : FRes :=
  finish nbv f rm [(f, a), (f, b)] ((f.val a).add rm (f.val b).neg)

def fMul (nbv : Nat) (f : FFmt) (rm : RMode) (a b : Nat) : FRes :=
  finish nbv f rm [(f, a), (f, b)] ((f.val a).mul (f.val b))

/-- a × b + c, exact and rounded once (R81, Table 2.7). -/
def fFma (nbv : Nat) (f : FFmt) (rm : RMode) (a b c : Nat) : FRes :=
  finish nbv f rm [(f, a), (f, b), (f, c)] (((f.val a).mul (f.val b)).bind (fun p => p.add rm (f.val c)))

/-- Whether a goes before b with −0 below +0 (R19, R82). -/
def fBelow (f : FFmt) (a b : Nat) : Bool :=
  let c := (f.val a).cmp (f.val b)
  c < 0 || (c == 0 && (f.val a).signBit && !(f.val b).signBit)

/-- FMIN (max = false) and FMAX (max = true) with NaN operands under Table 2.8. -/
def fMinMax (nbv : Nat) (f : FFmt) (max : Bool) (a b : Nat) : FRes :=
  let iv := f.isSnan a || f.isSnan b
  if f.isNan a && f.isNan b then { bits := nanOf nbv f [(f, a), (f, b)], iv := iv }
  else if f.isNan a || f.isNan b then
    { bits := if nbv = 1 then f.qnan else if f.isNan a then b else a, iv := iv }
  else { bits := if fBelow f a b then (if max then b else a) else (if max then a else b) }

/-- The quotient a / b of DIV (R86). -/
def fDiv (nbv : Nat) (f : FFmt) (a b : Nat) : FRes :=
  if f.isNan a || f.isNan b then { bits := nanOf nbv f [(f, a), (f, b)], iv := f.isSnan a || f.isSnan b }
  else match f.val a, f.val b with
    | .inf _, .inf _ => { bits := f.qnan, iv := true }
    | .inf s, v => { bits := f.inf (s != v.signBit) }
    | v, .inf t => { bits := (v.signBit != t).toNat * 2 ^ f.sign }
    | .fin s m e, .fin t n g =>
      if n = 0 then
        if m = 0 then { bits := f.qnan, iv := true } else { bits := f.inf (s != t), dz := true }
      else f.roundQ .rne (s != t) (m * pow2 (e - g)) (n * pow2 (g - e))
    | _, _ => { bits := f.qnan }

/-- The larger magnitude q with q * q ≤ n, by bits, from bit i down. -/
def isqrtGo (n : Nat) : Nat → Nat → Nat
  | 0, q => q
  | i + 1, q => isqrtGo n i (if (q + 2 ^ i) * (q + 2 ^ i) ≤ n then q + 2 ^ i else q)

def isqrt (n : Nat) : Nat := isqrtGo n (Nat.log2 n / 2 + 1) 0

/-- sqrt of m * 2^e for m above 0, as a rational whose inexactness is kept by a sticky bit: the result is
(n, d) with n / d between the root rounded down to 64 or more bits and the next such value. -/
def sqrtQ (m : Nat) (e : Int) : Nat × Nat :=
  let e2 := if e % 2 = 0 then e else e - 1
  let m2 := if e % 2 = 0 then m else 2 * m
  let x := m2 * 2 ^ 200
  let r := isqrt x
  let n := 2 * r + (if r * r = x then 0 else 1)
  let h := e2 / 2 - 101
  (n * pow2 h, pow2 (-h))

/-! ### Special functions (R84, R85): fixed-point enclosures -/

/-- Fraction bits of the wide fixed point. -/
def fxP : Nat := 700

/-- floor(pi * 2^1000). -/
def piK : Nat :=
  0x3243f6a8885a308d313198a2e03707344a4093822299f31d0082efa98ec4e6c89452821e638d01377be5466cf34e90c6cc0ac29b7c97c50dd3f84d5b5b54709179216d5d98979fb1bd1310ba698dfb5ac2ffd72dbd01adfb7b8e1afed6a267e96ba7c9045f12c7f9924a19947b3916cf70801f2e2858efc16636920d871

/-- floor(ln 2 * 2^1000). -/
def ln2K : Nat :=
  0xb17217f7d1cf79abc9e3b39803f2f6af40f343267298b62d8a0d175b8baafa2be7b876206debac98559552fb4afa1b10ed2eae35c138214427573b291169b8253e96ca16224ae8c51acbda11317c387eb9ea9bc3b136603b256fa0ec7657f74b72ce87b19d6548caf5dfa6bd38303248655fa1872f20e3a2da2d97c50f

/-- 1 + y + y^2/2! + … of a fixed-point y, term by term. -/
def expGo (y : Nat) : Nat → Nat → Nat → Nat → Nat
  | 0, _, _, s => s
  | fuel + 1, k, t, s =>
    let t' := t * y / 2 ^ fxP / k
    if t' = 0 then s else expGo y fuel (k + 1) t' (s + t')

/-- exp of a fixed-point y in [0, 1). -/
def expFx (y : Nat) : Nat := expGo y 400 1 (2 ^ fxP) (2 ^ fxP)

/-- Alternating series of sin (start t = r, k = 1) and cos (t = 1, k = 0) of a fixed-point r. -/
def trigGo (r2 : Nat) : Nat → Nat → Nat → Bool → Int → Int
  | 0, _, _, _, s => s
  | fuel + 1, k, t, sg, s =>
    let t' := t * r2 / 2 ^ fxP / ((k + 1) * (k + 2))
    if t' = 0 then s else trigGo r2 fuel (k + 2) t' (!sg) (if sg then s - t' else s + t')

def sinFx (r : Nat) : Int := trigGo (r * r / 2 ^ fxP) 400 1 r true r
def cosFx (r : Nat) : Int := trigGo (r * r / 2 ^ fxP) 400 0 (2 ^ fxP) true (2 ^ fxP)

/-- z + z^3/3 + z^5/5 + … of a fixed-point z. -/
def atanhGo (z2 : Nat) : Nat → Nat → Nat → Nat → Nat
  | 0, _, _, s => s
  | fuel + 1, k, t, s =>
    let t' := t * z2 / 2 ^ fxP
    if t' = 0 then s else atanhGo z2 fuel (k + 2) t' (s + t' / (k + 2))

def atanhFx (z : Nat) : Nat := atanhGo (z * z / 2 ^ fxP) 600 1 z z

/-- The fixed-point value of m * 2^e, rounded down. -/
def toFx (m : Nat) (e : Int) : Nat := m * pow2 (e + fxP) / pow2 (-(e + fxP))

/-- The magnitude near a fixed-point approximation whose error is below 2^-600: rounded once. When the value has
fewer than 600 significant bits past the point it is exact only in the cases R85 lists, which are taken first. -/
def roundFx (rm : RMode) (neg : Bool) (a : Nat) : FRes := f32.roundQ rm neg (2 * a + 1) (2 ^ (fxP + 1))

/-- The rounding mode of a function in its algorithm set (R84). -/
def setMode (nbv : Nat) (trunc : Bool) : RMode := if nbv = 1 && trunc then .rz else .rne

/-- Common start of a unary function: its NaN argument (R85, Table 2.8). -/
def unary (nbv : Nat) (a : Nat) (k : Val → FRes) : FRes :=
  if f32.isNan a then { bits := nanOf nbv f32 [(f32, a)], iv := f32.isSnan a } else k (f32.val a)

def fRcp (nbv a : Nat) : FRes := unary nbv a fun
  | .inf s => { bits := s.toNat * 2 ^ 31 }
  | .fin s m e => if m = 0 then { bits := f32.inf s, dz := true } else f32.roundQ .rne s (pow2 (-e)) (m * pow2 e)
  | .nan => { bits := f32.qnan }

def fSqrt (nbv a : Nat) : FRes := unary nbv a fun
  | .inf s => if s then { bits := f32.qnan, iv := true } else { bits := f32.inf false }
  | .fin s m e =>
    if m = 0 then { bits := s.toNat * 2 ^ 31 }
    else if s then { bits := f32.qnan, iv := true }
    else let q := sqrtQ m e; f32.roundQ .rne false q.1 q.2
  | .nan => { bits := f32.qnan }

def fRsq (nbv a : Nat) : FRes := unary nbv a fun
  | .inf s => if s then { bits := f32.qnan, iv := true } else { bits := 0 }
  | .fin s m e =>
    if m = 0 then { bits := f32.inf s, dz := true }
    else if s then { bits := f32.qnan, iv := true }
    else
      -- 1 / sqrt(m 2^e) = sqrt(2^400 / m) / 2^200 2^(-e/2); the odd power goes into the radicand
      let e2 := if e % 2 = 0 then e else e - 1
      let m2 := if e % 2 = 0 then m else 2 * m
      let x := 2 ^ 600 / m2
      let r := isqrt x
      let n := 2 * r + (if r * r * m2 = 2 ^ 600 then 0 else 1)
      let h := -(e2 / 2) - 301
      f32.roundQ (setMode nbv true) false (n * pow2 h) (pow2 (-h))
  | .nan => { bits := f32.qnan }

/-- 2^x of an exact finite x (R84, R85). Beyond 300 in magnitude the result is decided by the range alone. -/
def exp2Fin (rm : RMode) (s : Bool) (m : Nat) (e : Int) : FRes :=
  if m * pow2 e ≥ 300 * pow2 (-e) then
    (if s then f32.roundQ rm false 1 (2 ^ 299) else f32.roundQ rm false (2 ^ 299) 1)
  else
    let fx := toFx m e                       -- exact: e is at least -149
    let x : Int := if s then -(fx : Int) else fx
    let n := x / (2 ^ fxP : Nat)
    let fr := (x % (2 ^ fxP : Nat)).toNat
    if fr = 0 then f32.roundQ rm false (pow2 n) (pow2 (-n))
    else
      let y := fr * ln2K / 2 ^ 1000
      f32.roundQ rm false ((2 * expFx y + 1) * pow2 n) (2 ^ (fxP + 1) * pow2 (-n))

def fExp2 (nbv a : Nat) : FRes := unary nbv a fun
  | .inf s => { bits := if s then 0 else f32.inf false }
  | .fin s m e => exp2Fin (setMode nbv true) s m e
  | .nan => { bits := f32.qnan }

def fLog2 (nbv a : Nat) : FRes := unary nbv a fun
  | .inf s => if s then { bits := f32.qnan, iv := true } else { bits := f32.inf false }
  | .fin s m e =>
    if m = 0 then { bits := f32.inf true, dz := true }
    else if s then { bits := f32.qnan, iv := true }
    else
      let l := Nat.log2 m
      let n : Int := (l : Int) + e
      if m = 2 ^ l then f32.round (setMode nbv true) (.fin (n < 0) n.natAbs 0)
      else
        let z := (m - 2 ^ l) * 2 ^ fxP / (m + 2 ^ l)
        let fr : Nat := 2 * atanhFx z * 2 ^ 1000 / ln2K
        let v : Int := n * (2 ^ fxP : Nat) + fr
        if v < 0 then roundFx (setMode nbv true) true (v.natAbs - 1) else roundFx (setMode nbv true) false v.toNat
  | .nan => { bits := f32.qnan }

/-- The quadrant and the remainder below pi/2 of a magnitude, in fixed point with 2^-1000 units for the reduction. -/
def reduce (m : Nat) (e : Int) : Nat × Nat :=
  let x := m * pow2 (e + 1000) / pow2 (-(e + 1000))
  let k := 2 * x / piK
  (k, (2 * x - k * piK) * 2 ^ fxP / 2 ^ 1001)

/-- sin (q = 0) or cos (q = 1) of a finite value that is not zero. -/
def trig (rm : RMode) (cosine s : Bool) (m : Nat) (e : Int) : FRes :=
  let (k, r) := reduce m e
  let quad := (k + (if cosine then 1 else 0)) % 4
  let v : Int := if quad % 2 = 0 then sinFx r else cosFx r
  let neg := (quad ≥ 2) != (s && !cosine)
  roundFx rm neg v.toNat

def fSin (nbv a : Nat) : FRes := unary nbv a fun
  | .inf _ => { bits := f32.qnan, iv := true }
  | .fin s m e => if m = 0 then { bits := s.toNat * 2 ^ 31 } else trig (setMode nbv true) false s m e
  | .nan => { bits := f32.qnan }

def fCos (nbv a : Nat) : FRes := unary nbv a fun
  | .inf _ => { bits := f32.qnan, iv := true }
  | .fin s m e => if m = 0 then { bits := 0x3F800000 } else trig (setMode nbv true) true s m e
  | .nan => { bits := f32.qnan }

/-- tanh x = (E - 1) / (E + 1) with E = exp(2x); beyond 200 it lies just below 1. -/
def fTanh (nbv a : Nat) : FRes := unary nbv a fun
  | .inf s => { bits := s.toNat * 2 ^ 31 + 0x3F800000 }
  | .fin s m e =>
    if m = 0 then { bits := s.toNat * 2 ^ 31 }
    else if m * pow2 e ≥ 200 * pow2 (-e) then f32.roundQ (setMode nbv true) s (2 ^ 200 - 1) (2 ^ 200)
    else
      let x := 2 * toFx m e
      let n := x / (ln2K / 2 ^ 300)
      let y := x - n * (ln2K / 2 ^ 300)
      let ex := expFx y * 2 ^ n
      roundFx (setMode nbv true) s ((ex - 2 ^ fxP) * 2 ^ fxP / (ex + 2 ^ fxP))
  | .nan => { bits := f32.qnan }

/-! ### Format slots, narrow codes and scales (R22-R33) -/

/-- KIND of a format slot (Table 2.2). -/
inductive SlotKind where | narrow | f16 | bf16 | invalid deriving DecidableEq, Repr

/-- A format slot read from its 128 bits (Table 2.2). -/
structure Fmt where
  tscale : Nat
  kind : SlotKind
  block : Nat
  ovf : Bool
  rm : RMode
  plane : Bool
  specials : Nat
  bias : Int
  s : Nat
  e : Nat
  m : Nat
  deriving DecidableEq, Repr

def Fmt.ofBits (b : BitVec 128) : Fmt :=
  let n := b.toNat
  { tscale := bitField n 96 32
    kind := match bitField n 30 2 with | 0 => .narrow | 1 => .f16 | 2 => .bf16 | _ => .invalid
    block := bitField n 27 3
    ovf := bitField n 26 1 == 1
    rm := RMode.ofCode (bitField n 24 2)
    plane := bitField n 23 1 == 1
    specials := bitField n 21 2
    bias := (BitVec.ofNat 8 (bitField n 13 8)).toInt
    s := bitField n 12 1
    e := bitField n 8 4
    m := bitField n 4 4 }

def Fmt.width (f : Fmt) : Nat := f.s + f.e + f.m

/-- Elements that share a block scale; 0 for none (R29). -/
def Fmt.blockLen (f : Fmt) : Nat := match f.block with | 1 => 16 | 2 => 32 | 3 => 64 | 4 => 128 | _ => 0

/-- The scales of a row of n elements: every block of L shares one, the last as far as the row goes (R29). -/
def Fmt.scales (f : Fmt) (n : Nat) : Nat := (n + f.blockLen - 1) / f.blockLen

/-- A slot that is not empty is malformed (R25). -/
def fmtMalformed (b : BitVec 128) : Bool :=
  let f := Fmt.ofBits b
  let n := b.toNat
  bitField n 32 64 != 0 || bitField n 0 4 != 0 || f.kind == .invalid || f.block > 4 || f.specials == 3 ||
  f.tscale == 0 || f.tscale ≥ 0x7F800000 ||
  (f.kind == .narrow &&
    (f.width == 0 || f.width > 8 || f.e > 8 || f.m > 8 || (f.e == 0 && (f.bias != 0 || f.specials != 0)) ||
      (f.specials == 1 && (f.e == 0 || f.m == 0)) || (f.specials == 2 && f.e == 0))) ||
  (f.kind != .narrow && bitField n 4 20 != 0)

/-- The exact value of a narrow code (R22). -/
def Fmt.decodeNarrow (f : Fmt) (k : Nat) : Val :=
  let w := f.width
  let k := k % 2 ^ w
  if f.e = 0 then
    if f.s = 1 && k ≥ 2 ^ (w - 1) then .fin true (2 ^ w - k) 0 else .fin false k 0
  else
    let sgn := f.s == 1 && k / 2 ^ (w - 1) % 2 == 1
    let top := 2 ^ f.e - 1
    let e := k / 2 ^ f.m % 2 ^ f.e
    let m := k % 2 ^ f.m
    if f.specials = 1 && e = top then (if m = 0 then .inf sgn else .nan)
    else if f.specials = 2 && e = top && m = 2 ^ f.m - 1 then .nan
    else if e = 0 then .fin sgn m (1 - f.bias - f.m)
    else .fin sgn (2 ^ f.m + m) ((e : Int) - f.bias - f.m)

/-- The exact value of an element of a slot's format (R22, R25). -/
def Fmt.decode (f : Fmt) (k : Nat) : Val :=
  match f.kind with
  | .f16 => Machine.f16.val (k % 65536)
  | .bf16 => Machine.bf16.val (k % 65536)
  | _ => f.decodeNarrow k

/-- The greatest code of a finite value, without its sign bit (R22). -/
def Fmt.maxCode (f : Fmt) : Nat :=
  let all := 2 ^ (f.e + f.m) - 1
  match f.specials with
  | 1 => 2 ^ (f.e + f.m) - 2 ^ f.m - 1
  | 2 => all - 1
  | _ => all

/-- The NaN code of a slot (Table 2.3). -/
def Fmt.nanCode (f : Fmt) : Nat :=
  match f.kind with
  | .f16 => Machine.f16.qnan
  | .bf16 => Machine.bf16.qnan
  | _ => if f.e = 0 then 0 else match f.specials with
    | 1 => (2 ^ f.e - 1) * 2 ^ f.m + 2 ^ (f.m - 1)
    | 2 => 2 ^ (f.e + f.m) - 1
    | _ => 0

/-- The magnitude n / d with a sign, encoded in a narrow float format (R32, R33). -/
def Fmt.encodeFloat (f : Fmt) (neg : Bool) (n d : Nat) (isInf : Bool) : Nat :=
  let s := if f.s = 1 && neg then 2 ^ (f.e + f.m) else 0
  let past := if f.ovf && !(towardZero f.rm neg) then
      (match f.specials with
        | 1 => s + (2 ^ f.e - 1) * 2 ^ f.m
        | 2 => f.nanCode
        | _ => s + f.maxCode)
    else s + f.maxCode
  if isInf then past
  else
    let qmin := 1 - f.bias - f.m
    let r := roundGrid f.rm neg n d (f.m + 1) qmin
    -- the code of m 2^q counts binades of 2^M codes above the subnormals
    let code := if r.1 < 2 ^ f.m then r.1 else ((r.2 - qmin).toNat) * 2 ^ f.m + r.1
    if code > f.maxCode then past else s + code

/-- The magnitude n / d with a sign, encoded in an integer format (R32). -/
def Fmt.encodeInt (f : Fmt) (neg : Bool) (n d : Nat) (isInf : Bool) : Nat :=
  let w := f.width
  let hi : Int := 2 ^ (w - f.s) - 1
  let lo : Int := if f.s = 1 then -(2 ^ (w - 1)) else 0
  let g : Int := ((n / d + (roundsUp f.rm neg (n / d) (n % d) d).toNat : Nat) : Int)
  let v := if isInf then (if neg then lo else hi) else max lo (min hi (if neg then -g else g))
  (v % (2 ^ w : Nat)).toNat

/-- The code of the exact quotient whose magnitude is n / d (R32). -/
def Fmt.encodeQ (f : Fmt) (neg : Bool) (n d : Nat) (isInf : Bool) : Nat :=
  match f.kind with
  | .f16 | .bf16 =>
    let g := if f.kind = .f16 then Machine.f16 else Machine.bf16
    if isInf then (if f.ovf && !(towardZero f.rm neg) then g.inf neg else g.maxfin neg)
    else
      let r := g.roundQ f.rm neg n d
      if r.ovf then (if f.ovf && !(towardZero f.rm neg) then g.inf neg else g.maxfin neg) else r.bits
  | _ =>
    -- natural formats hold no negatives
    let z := f.s = 0 && neg
    let neg := neg && !z
    let n := if z then 0 else n
    let isInf := isInf && !z
    if f.e = 0 then f.encodeInt neg n d isInf else f.encodeFloat neg n d isInf

/-- A value in a slot's format after division by scale × TSCALE, both as exact values above 0 (R32). -/
def Fmt.encode (f : Fmt) (x scale : Val) : Nat :=
  match x, scale, f32.val f.tscale with
  | .nan, _, _ => f.nanCode
  | .inf s, _, _ => f.encodeQ s 0 1 true
  | .fin s m e, .fin _ a ea, .fin _ t et =>
    let q := e - ea - et
    f.encodeQ s (m * pow2 q) (a * t * pow2 (-q)) false
  | _, _, _ => f.nanCode

/-- The value of a KS16 code (R30). -/
def ks16 (z : Nat) : Val :=
  if z = 0 then .fin false 0 0
  else if z = 0xFFFF then .nan
  else .fin false (256 + z % 256) ((z / 256 : Nat) - 127 - 8)

/-- An FP32 value converted to KS16, rounding toward +∞ (R30). -/
def toKs16 (a : Nat) : Nat :=
  match f32.val a with
  | .nan => 0xFFFF
  | .inf _ => 0xFFFF
  | .fin s m e =>
    if m = 0 then 0
    else if s then 0xFFFF
    else
      let r := roundGrid .ru false (m * pow2 e) (pow2 (-e)) 9 (-135)
      let code := if r.1 < 256 then 1 else (r.2 + 135).toNat * 256 + (r.1 - 256)
      max 1 (min code 0xFFFE)

/-- decode(code) × block scale × TSCALE, exact (R31). -/
def Fmt.value (f : Fmt) (code : Nat) (scale : Val) : Val :=
  match (f.decode code).mul scale with
  | none => .nan
  | some p => (p.mul (f32.val f.tscale)).getD .nan

/-- The larger and the smaller of two FP32 words, a NaN for any NaN (EMAX and EMIN, R201; the merge of R41; log 34). -/
def engMinMax (max : Bool) (a b : Nat) : Nat :=
  if f32.isNan a || f32.isNan b then f32.qnan else (fMinMax 2 f32 max a b).bits

/-- A result whose NaN is the canonical one (Table 2.8, engines). -/
def canon (r : FRes) : Nat := if f32.isNan r.bits then f32.qnan else r.bits

/-- The FMIN and FMAX that CHAIN (Table 3.7) and ESMX (R203) name: one NaN operand as the kernel's version has it, every
NaN result canonical (Table 2.8). -/
def engFMax (nbv : Nat) (max : Bool) (a b : Nat) : Nat := canon (fMinMax nbv f32 max a b)

def engAdd (a b : Nat) : Nat := canon (fAdd 1 f32 .rne a b)
def engSub (a b : Nat) : Nat := canon (fSub 1 f32 .rne a b)
def engMul (a b : Nat) : Nat := canon (fMul 1 f32 .rne a b)
def engFma (a b c : Nat) : Nat := canon (fFma 1 f32 .rne a b c)

/-- The merge of two softmax states (R41): the new maximum, the two factors and the new sum. -/
def smxMerge (nbv m1 s1 m2 s2 : Nat) : Nat × Nat × Nat × Nat :=
  let m := engMinMax true m1 m2
  let f (x : Nat) := if x = f32.inf true then 0 else canon (fExp2 nbv (engSub x m))
  let f1 := f m1
  let f2 := f m2
  (m, engAdd (engMul s1 f1) (engMul s2 f2), f1, f2)

end Sys2Proof.Machine
end

