-- ==== Sys2Proof/Config.lean ====
section
/-! DEFINITION. What the configuration image or the device fixes and the manual leaves open: free values
with no body, so that no proof can lean on one (log 2, log 3). -/

namespace Sys2Proof.Config

/-- The free value number n: drawn with the counter `State.free` (log 2). -/
opaque freeValue : Nat → BitVec 64

/-- CETHRESH of a configuration image, by its identity (R356). -/
opaque ceThresh : Nat → Nat

/-- RELAUNCHMAX of a configuration image, by its identity; the device uses at most 3 (R354). -/
opaque relaunchMax : Nat → Nat

/-- Whether a flash image, by its identity, verifies with SLH-DSA-SHA2-192s (R358). -/
opaque verifies : Nat → Bool

/-- Byte k of the identity record of boot count n, from the keys, digests and signatures (R359, R360). -/
opaque identityByte : Nat → Nat → BitVec 8

/-- An upper bound in bytes of the room a checkpoint needs beyond the scratch of its team: SAVESZ is
implementation-defined (R125, R136). The register of 32 bits holds the sum (log 3). -/
opaque saveOverhead : BitVec 31

/-- The capacity of the tier-2 memory fitted to the board, in bytes; 0 for an empty port (R357). -/
opaque tier2Bytes : Nat

/-- The set of a snoop filter that a line falls in (R318). -/
opaque filterSet : Nat → Nat

end Sys2Proof.Config
end

