-- ==== Sys2Proof/Machine/Table.lean ====
section
/-! DEFINITION. Sparse tables in one canonical form: keys strictly rising, no entry equal to the default. -/

namespace Sys2Proof.Machine

/-- The value a table holds at a key; `d` where it lists none. -/
def tget {α : Type} (d : α) : Tbl α → Nat → α
  | [], _ => d
  | (k, v) :: t, n => if k = n then v else tget d t n

/-- The table without a key. -/
def tdel {α : Type} (t : Tbl α) (k : Nat) : Tbl α := t.filter (fun p => p.1 != k)

/-- A pair put before the first greater key. -/
def tins {α : Type} (k : Nat) (v : α) : Tbl α → Tbl α
  | [] => [(k, v)]
  | (k', v') :: t => if k < k' then (k, v) :: (k', v') :: t else (k', v') :: tins k v t

/-- The table with a key set; setting the default removes the entry. -/
def tset {α : Type} [DecidableEq α] (d : α) (t : Tbl α) (k : Nat) (v : α) : Tbl α :=
  if v = d then tdel t k else tins k v (tdel t k)

/-- Every key from a list set by a function of the key. -/
def tsetAll {α : Type} [DecidableEq α] (d : α) (t : Tbl α) (ks : List Nat) (f : Nat → α) : Tbl α :=
  ks.foldl (fun t k => tset d t k (f k)) t

/-- The table without the keys of an interval (lo ≤ k < hi). -/
def tclear {α : Type} (t : Tbl α) (lo hi : Nat) : Tbl α := t.filter (fun p => p.1 < lo || hi ≤ p.1)

/-- The entries of an interval. -/
def tslice {α : Type} (t : Tbl α) (lo hi : Nat) : Tbl α := t.filter (fun p => lo ≤ p.1 && p.1 < hi)

/-- Strictly rising keys. -/
def keysRise {α : Type} : Tbl α → Bool
  | [] => true
  | [_] => true
  | a :: b :: t => a.1 < b.1 && keysRise (b :: t)

/-- The canonical form: rising keys and no default entry. -/
def twf {α : Type} [DecidableEq α] (d : α) (t : Tbl α) : Bool :=
  keysRise t && t.all (fun p => p.2 != d)

/-- The byte an address reads as when device memory lists nothing for it: stage 9 of bring-up writes zeros (R358). -/
def memDefault : Byte := 0

/-- The canonical form of device memory. -/
abbrev Memory.wf (m : Tbl Byte) : Bool := twf memDefault m

/-- `n` bytes of a table from a key, the lowest address in the least significant byte (R3). -/
def readLE (t : Tbl Byte) (a : Nat) : Nat → Nat
  | 0 => 0
  | n + 1 => (tget memDefault t a).toNat + 256 * readLE t (a + 1) n

/-- `n` bytes written from a key, little-endian (R3). -/
def writeLE (t : Tbl Byte) (a v : Nat) : Nat → Tbl Byte
  | 0 => t
  | n + 1 => writeLE (tset memDefault t a (BitVec.ofNat 8 v)) (a + 1) (v / 256) n

end Sys2Proof.Machine
end

