-- ==== Sys2Proof/Machine/State.lean ====
section
/-! DEFINITION. The state of the device: everything the manual gives it, as plain data, and the device after reset.
Names of the tables' keys: tk a team, gk = tk * 2^24 + index a group (a pair group from index 1,024 up),
lk = gk * 64 + lane a lane, ln a launch, th an engine thread; each rises with its creation (log 1). -/

namespace Sys2Proof.Machine

/-- Why a step of the model stops. -/
inductive Fault where
  /-- Raised by `step` when the list of turns names a lane word, M-word or E-word as the next event of the device:
  such words run only by being fetched. Safe: no run of the device is lost, the turn is not one of its steps. -/
  | badTurn
  deriving DecidableEq, Repr

/-- Why the model gives no meaning. -/
inductive Refusal where
  /-- Raised by `exec` for an instruction the model does not cover. Safe: nothing is claimed of it. -/
  | notModelled (mnemonic : String)
  deriving DecidableEq, Repr

/-! ### Lanes, groups, teams (09_inside_a_kernel.md) -/

/-- What a waiting lane waits for (R218, R222). Unless said otherwise the word runs again when the wait ends. -/
inductive Wait where
  /-- a rejoin mask (R120); the lane already stands after its REJOIN -/
  | rejoin (j : Nat)
  /-- the clocks left of a WAITC (R122); the lane already stands after it -/
  | clocks (n : Nat)
  /-- a change of generation of a barrier (R167) -/
  | bar (n : Nat) (gen : Word)
  /-- a tag of the mask to be Done, or every Held one (R164) -/
  | tags (any : Bool) (mask : DWord)
  /-- the completion of a child launch (R172) -/
  | launch (ln : Nat)
  /-- an arrival counter at a scratch offset (R174) -/
  | arrive (off : Nat)
  /-- a vector in q1 (R51) -/
  | q1
  /-- a place: in a queue, in q1, in Marten, in the array FIFO, in the arbiter (R158, R162, R181, R135) -/
  | place
  /-- the lane's acquires and fences (R147), and its readiness to release at a scope (R263) -/
  | order (rel : Option Scope)
  /-- a translation (R307), by context, object and page, with the offset and capability type of the access; both are 0
  where no capability is used -/
  | merge (ctx obj page off ty : Nat)
  /-- the serial phase (R170), or a deferred access (R294) -/
  | phase
  /-- the return packet of a RET (R118) -/
  | ret
  /-- the answers to the events of a multicast from the issue on, some of whose destinations have refused: their mask, and
  the capability and offset (R155) -/
  | answers (issue mask : Nat) (cap : Cap) (off : Nat)
  deriving DecidableEq, Repr

/-- The lane states of Table 9.4; a halted lane (R364) is absent like a parked one and keeps a wait it had. -/
inductive LaneSt where
  | ready
  | waiting (w : Wait)
  | parked (fid : Nat)
  | halted (w : Option Wait)
  | exited
  deriving DecidableEq, Repr

/-- A packet and slot. -/
structure Pc where
  pkt : Nat := 0
  slot : Nat := 0
  deriving DecidableEq, Repr

/-- A lookahead window (R48): the word's PC, the window words left, the registers pending from it by operand code
(a capability register n as 128 + n), whether reads count, and the ordering event whose landing it awaits (0: none). -/
structure Win where
  pkt : Nat
  slot : Nat
  left : Nat
  issued : Nat
  regs : List Nat
  reads : Bool
  ev : Nat
  deriving DecidableEq, Repr

/-- What a pair lane holds of its pair (R184, R244). -/
structure PairLane where
  th : Nat := 0
  seq : Nat := 0
  a : Nat := 0
  b : Nat := 0
  sideA : Option (List Word) := none
  sideB : Option (List Word) := none
  doneA : Bool := false
  doneB : Bool := false
  deriving DecidableEq, Repr

/-- A role of a kernel: register budget, groups, entry packet (Table 16.2). -/
structure Role where
  regs : Nat
  groups : Nat
  entry : Nat
  deriving DecidableEq, Repr

/-- A launch record and the kernel descriptor it names, as the device keeps them (Tables 16.1, 16.2). -/
structure Kern where
  ctx : Nat := 0
  slots : List Cap := []
  kobj : Nat := 0
  koff : Nat := 0
  aobj : Nat := 0
  aoff : Nat := 0
  alen : Nat := 0
  /-- the argument block lies in a CAPS object (R345) -/
  acaps : Bool := false
  lobj : Nat := 0
  loff : Nat := 0
  llen : Nat := 0
  seed : DWord := 0
  deps : List Nat := []
  teams : Nat := 0
  scratch : Nat := 0
  stack : Nat := 0
  opndb : Nat := 0
  tagb : Nat := 0
  accb : Nat := 0
  cores : Nat := 1
  gang : Nat := 1
  dlimit : Nat := 0
  prio : Nat := 0
  flags : BitVec 5 := 0
  codeoff : Nat := 0
  codelen : Nat := 0
  msoff : Nat := 0
  mslen : Nat := 0
  epioff : Nat := 0
  epicount : Nat := 0
  nondet : Bool := false
  nbv : Nat := 2
  width : Nat := 16
  handler : Option Nat := none
  pregs : Nat := 0
  pentry : Nat := 0
  roles : List Role := []
  deriving DecidableEq, Repr

/-- A lane: its state, its PC (R44), its special registers (Table 6.3), and what lookahead, pairs and Owl keep. -/
structure Lane where
  st : LaneSt := .exited
  pkt : Nat := 0
  slot : Nat := 0
  lanesp : Word := 0
  tvec : Word := 0
  tepc : Word := 0
  tcause : Word := 0
  intrap : Bool := false
  draws : Word := 0
  windows : List Win := []
  count : Nat := 0
  since : Nat := 0
  token : Option Word := none
  /-- where the lane goes on once the word at its PC has run again alone (R50) -/
  resume : Option Pc := none
  /-- the wait of a REJOIN or WAITC that goes on once a word chained after it has run (R120, R122) -/
  after : Option Wait := none
  /-- the record of an accepted LAUNCH that waits for the lane's earlier accesses (R171) -/
  launch : Option Kern := none
  /-- the value that a word popped from q1 for this lane, which waits at the word while other lanes of its issue went
  on (R52, log 50) -/
  took : Option Word := none
  /-- the stamp of its last acquire at DEVICE scope, and of the last before it took a transfer (R131) -/
  acquired : Nat := 0
  codeFloor : Nat := 0
  /-- the group's capability registers as they stood when the word at its PC issued, while it waits for a translation
  (R103); none otherwise -/
  held : List Cap := []
  past : Bool := false
  step : Bool := false
  haltReq : Bool := false
  pair : PairLane := {}
  deriving DecidableEq, Repr

/-- The fairness count of one PC (R124, R277). -/
structure FairCount where
  pc : Pc
  clocks : Nat
  deriving DecidableEq, Repr

/-- A group (R210-R212): its place, its queues (R158, R162, R183, R208), and what the issue former keeps of it. -/
structure Group where
  tk : Nat := 0
  idx : Nat := 0
  pair : Bool := false
  role : Nat := 0
  width : Nat := 0
  regs : Nat := 0
  core : Nat := 0
  part : Nat := 0
  regBase : Nat := 0
  q0 : List Word := []
  q2 : List Word := []
  q3 : List Word := []
  q4 : List Word := []
  q1 : List (Tbl Word) := []
  q1fly : Nat := 0
  fairctl : Word := 4096
  fair : List FairCount := []
  forced : List Pc := []
  last : Option Pc := none
  yielded : Option Pc := none
  waitClk : Nat := 0
  outClk : Nat := 0
  idleClk : Nat := 0
  lead : Nat := 0
  active : Bool := false
  /-- the order of placement, or of the start of a pair group (R219) -/
  born : Nat := 0
  /-- the lowest lane among those that issued last, and whether they issued on the last clock (R367) -/
  lastLane : Nat := 0
  issuedNow : Bool := false
  /-- a deterministic group has reached a switch point (R293) -/
  switched : Bool := false
  /-- its words are fetched as memory stood at this stamp (R131) -/
  codeView : Nat := 0
  deriving DecidableEq, Repr

/-- The sequencer's condition (R189, R206, R207, R364). -/
inductive SeqSt where
  | running | parked (fid : Nat) | halted | exited
  deriving DecidableEq, Repr

/-- An open MLOOP: the M-word after it and the passes left (R204). -/
structure Loop where
  start : Nat
  left : Nat
  deriving DecidableEq, Repr

/-- The sequencer of a team (R189, R204). -/
structure Seq where
  st : SeqSt := .exited
  idx : Nat := 0
  m : Tbl Word := []
  loops : List Loop := []
  past : Bool := false
  step : Bool := false
  waiting : Bool := false
  /-- the translation it waits for -/
  miss : Option Wait := none
  /-- LKILL has stopped it: it exits once its entries are finished, as at MEXIT (R207) -/
  kill : Bool := false
  deriving DecidableEq, Repr

/-- A faulting agent under its FID (R134, R350): a lane, of a pair or not, or the sequencer. -/
structure Parked where
  lane : Option Nat
  pair : Bool
  deriving DecidableEq, Repr

/-- A member's state in its gang (Table 11.1). -/
inductive GangSt where
  | resident | leaving | left | killed
  deriving DecidableEq, Repr

/-- A team (R210, R226, R249, R351, R354). -/
structure Team where
  ln : Nat := 0
  idx : Nat := 0
  kern : Kern := {}
  cores : List Nat := []
  scrBase : List Nat := []
  /-- the physical accumulator regions that its regions 0, 1, ... are, on each of its cores (R217, R286) -/
  accRegs : List (List Nat) := []
  ngroups : Nat := 0
  npair : Nat := 0
  seq : Seq := {}
  /-- the fault queue's records, and those that wait for a place in it (R351) -/
  fq : List (BitVec 512) := []
  fwait : List (BitVec 512) := []
  parked : Tbl (Option Parked) := []
  nextFid : Nat := 1
  gst : GangSt := .resident
  acks : List Nat := []
  relaunches : Nat := 0
  /-- killed, and to be relaunched from its task record -/
  again : Bool := false
  live : Bool := false
  saved : Bool := false
  stopping : Bool := false
  /-- the group of a saved deterministic team that was its core's current group, plus 1 (R293) -/
  current : Nat := 0
  /-- the group whose CTXSAVE or CTXLOAD stops the others (R136) -/
  saving : Option Nat := none
  deriving DecidableEq, Repr

/-- A barrier (R167). -/
structure Barrier where
  expected : Nat := 0
  arrived : Nat := 0
  gen : Word := 0
  deriving DecidableEq, Repr

/-- A tag with its completion status (Tables 7.6, 7.7). -/
inductive Tag where
  | free | held | done (status : Nat)
  deriving DecidableEq, Repr

/-- The kind of an accumulator region and its SAT flag (R190). -/
inductive RegionKind where
  | empty | float | int32
  deriving DecidableEq, Repr

structure Region where
  kind : RegionKind := .empty
  sat : Bool := false
  deriving DecidableEq, Repr

/-- Element classes (R192); `free` is class-free (R198). -/
inductive ElemClass where
  | free | narrow8 | narrow4 | f16 | bf16
  deriving DecidableEq, Repr

/-- An operand slot bound to a name (R190, R197, R198). -/
structure OSlot where
  cls : ElemClass := .free
  fmt : Nat := 0
  /-- the binding, which rises -/
  phys : Nat := 0
  /-- the physical slot of the core, bank * 8 + position (Table 1.3) -/
  num : Nat := 0
  deriving DecidableEq, Repr

/-- A landing-buffer entry (R163): four bytes for a register of a group, under a tag; `mask` tells the bytes that the copy
brings. -/
structure Landing where
  core : Nat
  tk : Nat
  gk : Nat
  tag : Nat
  key : Nat
  val : Word
  mask : BitVec 4 := 15
  deriving DecidableEq, Repr

/-- An EXACT running sum with its flags (R40, R239), the integer it started from, and what other launches have contributed
to the slot word while this one is in flight (R241). -/
structure Exact where
  sum : Int := 0
  sat : Bool := false
  nan : Bool := false
  live : Bool := false
  start : Int := 0
  other : Int := 0
  osat : Bool := false
  onan : Bool := false
  deriving DecidableEq, Repr

/-- Lanes and groups with their registers. -/
structure Groups where
  lanes : Tbl Lane := []
  groups : Tbl Group := []
  vreg : Tbl Word := []
  sreg : Tbl Word := []
  creg : Tbl Cap := []
  jmask : Tbl DWord := []
  deriving DecidableEq, Repr

/-- Team-lifetime tables. -/
structure Teams where
  teams : Tbl Team := []
  scratch : Tbl Byte := []
  acc : Tbl Byte := []
  regions : Tbl Region := []
  slots : Tbl (Option OSlot) := []
  slotCode : Tbl Nat := []
  slotScale : Tbl Nat := []
  tags : Tbl Tag := []
  bars : Tbl Barrier := []
  landing : List Landing := []
  exact : Tbl Exact := []
  /-- what PAIRSTAT reports of a completed launch, by its tag (R242) -/
  pairDone : Tbl Word := []
  /-- what the thread that completed a tag has written in device memory (R268) -/
  tagWrote : Tbl (List (Nat × Nat × Nat)) := []
  deriving DecidableEq, Repr

/-! ### The ordering machine (12_ordering_machine.md) -/

/-- Page policies (Table 17.3). -/
inductive Pol where
  | wb | wt | uc
  deriving DecidableEq, Repr

/-- A location after its translation step: device memory by aperture address, or another space. -/
inductive Loc where
  | dev (addr : Nat) (pol : Pol) (nc : Bool)
  | scr (tk off : Nat)
  | reg (tk off : Nat)
  | acc (tk core off : Nat)
  | ocm (addr : Nat)
  | peer (dev addr : Nat)
  | host (addr : Nat)
  deriving DecidableEq, Repr

/-! ### Engine threads, array, Marten and Beaver -/

/-- An accepted pair with its entry values (R228, R229). -/
structure Pair where
  a : Nat
  b : Nat
  v : List Word
  deriving DecidableEq, Repr

inductive PairPhase where
  /-- a q2 command that waits for a launch place (R183) -/
  | queued
  | binning | generating | draining
  deriving DecidableEq, Repr

/-- A pair to be started again (R186, R275): the lane that it had, which keeps what is known of the pair; the history of the
handler; whether the read of its set records has failed, so that it is parked under a new FID. -/
structure Restart where
  lane : Nat
  hist : List Nat
  failed : Bool := false
  deriving DecidableEq, Repr

/-- A pair launch (R181, R182, R187, R228, R242). -/
structure PairLaunch where
  record : BitVec 512 := 0
  /-- c0, c1, c2, set A, set B, A's and B's regions, the exclusion object, as they stood at issue -/
  caps : List Cap := []
  phase : PairPhase := .binning
  pairs : List Pair := []
  next : Nat := 0
  /-- pair faults not relaunched (R187) -/
  faults : Nat := 0
  again : List Restart := []
  bad : Bool := false
  sat : Bool := false
  nan : Bool := false
  /-- sides applied, or closed as empty: 2 * sequence + (1 for the B side) -/
  closed : List Nat := []
  finished : Bool := false
  deriving DecidableEq, Repr

inductive ThreadKind where
  | copy | copy2d | gather | scatter | scataddF | scataddB | chain | fbulk | fred | frlease | pair | array
  deriving DecidableEq, Repr

/-- A translated page that an operation holds (R194, R269): which capability of the operation, the page of its address space, the address the
location stands for. -/
structure Pin where
  cap : Nat
  page : Nat
  start : Nat
  loc : Loc
  /-- the key that was next when it was taken (R270) -/
  at_ : Nat := 0
  deriving DecidableEq, Repr

/-- An engine thread (R157, R268): its issuer, operands captured at issue, progress, status so far. -/
structure Thread where
  kind : ThreadKind
  tk : Nat
  gk : Nat
  lane : Nat
  core : Nat
  tag : Nat
  block : List Word
  capd : Cap
  caps : Cap
  /-- per-lane (lane, offset, value) of GATHER, SCATTER and SCATADD; constants of CHAIN -/
  lanes : List (Nat × Nat × Word)
  got : Tbl (Option Word)
  put : List Nat
  status : Nat
  /-- a destination of a multicast refused (Table 7.7) -/
  part : Bool := false
  waits : Bool
  pair : PairLaunch
  /-- its translation steps, one for each page (R269) -/
  pins : List Pin := []
  /-- what it has written in device memory: address in the order of the location, bytes, version (R268) -/
  wrote : List (Nat × Nat × Nat) := []
  deriving DecidableEq, Repr

/-- A side of a pair on its way to its slot (R235). -/
structure Side where
  th : Nat
  lane : Nat
  seq : Nat
  isB : Bool
  words : List Word
  tk : Nat
  key : Nat
  deriving DecidableEq, Repr

/-- What an entry of the array FIFO does (R195), with the slots, formats and kinds as they stood at its issue: slots
by physical slot, so that a name released and claimed again does not disturb an earlier entry (R196). -/
inductive ArrKind where
  | claim (n : Nat)
  | release (phys : List Nat)
  | load (phys fmt planes : Nat)
  | zeroRegion (r : Nat)
  | zeroSlot (phys : Nat)
  | mma (pa pb fa fb : Nat) (ca cb : ElemClass) (r : Nat) (int sat : Bool)
  | drain (r : Nat) (kind : RegionKind) (fmt prog : Nat)
  deriving DecidableEq, Repr

/-- An entry of the array FIFO, in place until finished (R195); `gk` is 0 for the sequencer's. -/
structure ArrOp where
  tk : Nat
  gk : Nat
  core : Nat
  kind : ArrKind
  record : BitVec 512
  prog : List Word
  caps : List Cap
  pins : List Pin
  started : Bool
  row : Nat
  finished : Bool
  bar : Option Nat
  /-- the agent that entered it, whose earlier stores its accesses follow (R268) -/
  agent : Nat := 0
  /-- the order in which it took its place in the FIFO; 0 while it waits in the q3 of its group (R208, R227) -/
  ord : Nat := 0
  /-- what it has written in device memory (R268) -/
  wrote : List (Nat × Nat × Nat) := []
  deriving DecidableEq, Repr

/-- The row of a drain in progress: the E-registers of its 128 lanes and the E-words still to run (R200). -/
structure EpiRow where
  op : Nat := 0
  prog : List Word := []
  e : Tbl Word := []
  deriving DecidableEq, Repr

/-- Engines. -/
structure Engines where
  threads : Tbl (Option Thread) := []
  sides : Tbl (Option Side) := []
  fifo : Tbl (Option ArrOp) := []
  epi : EpiRow := {}
  /-- the issuer that a core's array FIFO served last: a group, or the sequencer of a team as its group 2^24 - 1 (R227) -/
  served : Tbl Nat := []
  deriving DecidableEq, Repr

/-- How a load extends its bytes into its register (Table 7.2), or what a word writes to D. -/
inductive Dst where
  | none
  | v (n : Nat) (regs : Nat) (ext : Nat) (signed : Bool)
  | s (n : Nat) (regs : Nat) (ext : Nat) (signed : Bool)
  | c (n : Nat)
  /-- the PC of a lane that returns (R118) -/
  | ret
  deriving DecidableEq, Repr

/-- The kinds of memory event (R177, R258). -/
inductive EvKind where
  | load
  | store
  | atomic (op : Aop) (v v2 : DWord) (ret : Bool)
  | red (op : Nat)
  | fence
  | otfence (sys : Bool)
  | clean (len : Nat) (inval : Bool)
  deriving DecidableEq, Repr

/-- A pending event of an agent (R258): acquire and release scopes where it has them; `captured` releases the
history it carries. -/
structure MemEv where
  agent : Nat
  gk : Nat
  lane : Nat
  kind : EvKind
  loc : Loc
  size : Nat
  val : BitVec 128
  dst : Dst
  acq : Option Scope
  rel : Option Scope
  sync : Option Scope
  nol1 : Bool
  pkt : Nat
  slot : Nat
  cap : Cap
  off : Nat
  /-- the issue it comes from: the key that was next when its word began (R143, R149) -/
  issue : Nat
  /-- its translation step is still to be taken at the port (R269): the kind of access, and whether it may reach a CAPS
  object; its `loc` says nothing until then -/
  tr : Option (AccKind × Bool) := none
  /-- the other lanes that one access serves (R146) -/
  also : List Nat := []
  /-- it is one destination of a multicast (R154) -/
  mc : Bool := false
  deriving DecidableEq, Repr

/-- A store in a core buffer or in the system buffer (R258), with the releases of earlier fences that it carries: scope
and history (R265). -/
structure BufStore where
  id : Nat
  core : Nat
  agent : Nat
  loc : Loc
  size : Nat
  val : BitVec 512
  rel : List (Scope × List Nat)
  /-- the event or thread it comes from, and the context it was made in (R270) -/
  ev : Nat := 0
  ctx : Nat := 0
  deriving DecidableEq, Repr

/-- A release standing at a location (R264). -/
structure Release where
  agent : Nat
  scope : Scope
  hist : List Nat
  deriving DecidableEq, Repr

/-- An older version of a 16-byte granule of device memory, with the stamp of the store that replaced it. -/
structure Version where
  stamp : Nat
  val : BitVec 128
  deriving DecidableEq, Repr

/-- A Lynx entry (R267): where it is held (core, or 128 + 384 * die + slice), its line, scope, and agent. -/
structure LynxEntry where
  place : Nat
  line : Nat
  scope : Scope
  agent : Nat
  deriving DecidableEq, Repr

/-- A sector that a core's L1 holds dirty through a WB mapping (R313): its bytes, those that are dirty, the bytes as they
would be without them, and the bytes stored through another mapping since. -/
structure L1Copy where
  bytes : BitVec 512
  dirty : BitVec 64
  under : BitVec 512
  other : BitVec 64 := 0
  deriving DecidableEq, Repr

/-- A sector of an NC page as a die holds it (R319). -/
structure NcSector where
  bytes : BitVec 512
  dirty : BitVec 64
  deriving DecidableEq, Repr

structure Order where
  mem : List Host.Cell := []
  old : Tbl (List Version) := []
  views : Tbl Nat := []
  floors : Tbl Nat := []
  pend : Tbl (Option MemEv) := []
  cbuf : Tbl (Option BufStore) := []
  sbuf : Tbl (Option BufStore) := []
  hist : Tbl (List Nat) := []
  fences : Tbl (List (Scope × List Nat)) := []
  rels : Tbl (List Release) := []
  lynx : List LynxEntry := []
  nc : Tbl (Option NcSector) := []
  l1 : Tbl (Option L1Copy) := []
  hostMem : Tbl Byte := []
  /-- the next stamp of the coherence order -/
  stamp : Nat := 1
  deriving DecidableEq, Repr

/-! ### Translation (17_object_table.md) -/

/-- A translated page entry in an extent cache (R304): the place is a core, or 128 + die. -/
structure XEntry where
  place : Nat
  ctx : Nat
  obj : Nat
  page : Nat
  large : Bool
  entry : DWord
  addr : Nat
  otype : Nat
  dpol : Nat
  osize : Nat
  deriving DecidableEq, Repr

/-- Why a translation waits (Table 17.5). -/
inductive WaitReason where
  | invalid | absent | migrating | write
  deriving DecidableEq, Repr

/-- A merge-table entry (R307). Waiters: lane groups by gk, engine threads by key, the sequencer by its team. -/
structure MergeEntry where
  die : Nat
  ctx : Nat
  obj : Nat
  page : Nat
  reason : WaitReason
  groups : List Nat
  /-- those of the groups whose waiter is a post -/
  posts : List Nat := []
  threads : List Nat
  seqs : List Nat
  deriving DecidableEq, Repr

structure Xlat where
  roots : Tbl (BitVec 512) := []
  cache : List XEntry := []
  merge : List MergeEntry := []
  deriving DecidableEq, Repr

/-! ### Launches (16_launches_scheduling.md) -/

inductive LaunchSt where
  | queued | running | complete (code : Nat)
  deriving DecidableEq, Repr

structure Launch where
  kern : Kern := {}
  serial : Nat := 0
  st : LaunchSt := .queued
  fromHost : Bool := true
  parent : Nat := 0
  parentTeam : Nat := 0
  depth : Nat := 0
  limit : Nat := 0
  nextTeam : Nat := 0
  ended : Nat := 0
  faulted : Bool := false
  nondet : Bool := false
  pooled : Bool := false
  passed : Nat := 0
  stopFill : Bool := false
  /-- the launches that its DEP fields name, as they stood when it was accepted (R284) -/
  deps : List Nat := []
  /-- the history its agents start with, its parent's at LAUNCH and those of the launches it names in DEP (R272, R284) -/
  start : List Nat := []
  /-- the histories of its ended lanes and threads (R272) -/
  hist : List Nat := []
  deriving DecidableEq, Repr

/-- A launch port of a context (R322). -/
structure LPort where
  bytes : BitVec 2048 := 0
  status : Nat := 0
  serial : Word := 0
  deriving DecidableEq, Repr

/-- A buffered access of a deterministic launch (R295): its team, where it goes, and what it does there. -/
structure DetEntry where
  ln : Nat
  team : Nat
  tk : Nat
  core : Nat
  kind : EvKind
  loc : Loc
  size : Nat
  val : BitVec 128
  /-- the key that was next when it was translated (R306) -/
  at_ : Nat := 0
  /-- it stands in the log extent, its core's buffer being full (R295) -/
  spill : Bool := false
  deriving DecidableEq, Repr

/-- Ownership of a line in a deterministic launch (R294), and what the current phase did to it. -/
structure Owner where
  shared : Bool := false
  owner : Option Nat := none
  touched : List Nat := []
  deferred : Bool := false
  deriving DecidableEq, Repr

/-- A team as a checkpoint holds it (R136), beside the bytes written. Keys count from the team's first. -/
structure Checkpoint where
  ln : Nat
  team : Nat
  bytes : List Byte
  t : Team
  lanes : Tbl Lane
  groups : Tbl Group
  vreg : Tbl Word
  sreg : Tbl Word
  creg : Tbl Cap
  jmask : Tbl DWord
  scratch : Tbl Byte
  acc : Tbl Byte
  regions : Tbl Region
  slots : Tbl (Option OSlot)
  slotCode : Tbl Nat
  slotScale : Tbl Nat
  tags : Tbl Tag
  pairDone : Tbl Word
  bars : Tbl Barrier
  landing : List Landing
  deriving DecidableEq, Repr

structure Launches where
  launches : Tbl (Option Launch) := []
  serials : Tbl Nat := []
  ports : Tbl LPort := []
  lastServed : Nat := 0
  /-- the launch whose teams are being placed, while they fit; 0 for none (R285) -/
  serving : Nat := 0
  bankrole : Tbl DWord := []
  draining : List Nat := []
  det : List DetEntry := []
  own : Tbl Owner := []
  checkpoints : List Checkpoint := []
  /-- the current group of a deterministic core, plus 1 (R293) -/
  current : Tbl Nat := []
  deriving DecidableEq, Repr

/-! ### Host interface, directory, fabric, hours, Owl -/

/-- An event on its way to the ring (R324). -/
structure Event where
  kind : Nat
  ctx : Word
  payload : BitVec 512
  /-- the stores it follows (LAUNCH_DONE, Table 18.7) -/
  need : List Nat := []
  deriving DecidableEq, Repr

/-- A host OTFENCE under way (R310): it waits for the accesses and threads older than its mark. -/
structure HostFence where
  ctx : Nat
  seq : Word
  sys : Bool
  mark : Nat
  deriving DecidableEq, Repr

structure HostIf where
  evprod : Word := 0
  tcign : Word := 0
  lpfull : DWord := 0
  bootstage : Word := 0
  errsum : Word := 0
  devnum : Nat := 0
  readyBit : Bool := false
  evbase : DWord := 0
  evlen : Word := 0
  evcons : Word := 0
  events : List Event := []
  evseq : DWord := 0
  tport : BitVec 128 := 0
  tbusy : Bool := false
  tignored : Bool := false
  fences : List HostFence := []
  readData : DWord := 0
  deriving DecidableEq, Repr

/-- Directory states (R315). -/
inductive DirSt where
  | uncached
  | shared (v : BitVec 4)
  | exclusive (o : Nat)
  deriving DecidableEq, Repr

inductive ReqKind where
  | gets | getm | puts | pute | putm | recall
  deriving DecidableEq, Repr

/-- A request at a line's home: the sectors asked for, the dirty sectors sent with it or with an acknowledgement on its
way. Once it is served, the dies that an Inv or Downgrade is on its way to, and those whose answer the home awaits
(R316). A PutS, PutE or PutM served stays until its acknowledgement reaches the die. A line is named by its aperture
address divided by 512. -/
structure DirReq where
  line : Nat
  die : Nat
  kind : ReqKind
  sectors : BitVec 8 := 0
  dirty : BitVec 8 := 0
  active : Bool := false
  msgs : List Nat := []
  acks : List Nat := []
  deriving DecidableEq, Repr

/-- L2 line states (Table 18.2). -/
inductive L2St where
  | i | is | im | s | sm | e | m | mi | ii
  deriving DecidableEq, Repr

structure L2Line where
  st : L2St := .i
  valid : BitVec 8 := 0
  dirty : BitVec 8 := 0
  deriving DecidableEq, Repr

structure Dir where
  dir : Tbl DirSt := []
  reqs : List DirReq := []
  l2 : Tbl L2Line := []
  /-- the lines with a snoop-filter entry, least recently used first (R318) -/
  filter : List Nat := []
  deriving DecidableEq, Repr

/-- A port (Table 19.1) with its key register, its receiver's and sender's counters, and its detour. -/
structure Port where
  txctr : DWord := 0
  rkgrace : Word := 1
  dltimer : Word := 1024
  dlcount : Word := 0
  lanemap : BitVec 18 := 0
  spares : Nat := 2
  linkup : BitVec 4 := 0
  peerdev : Nat := 0
  keyst : Nat := 0
  state : Nat := 0
  /-- the key in use, and the one being written, which becomes it (R343) -/
  key : BitVec 256 := 0
  nextKey : BitVec 256 := 0
  /-- its cycle counter (R338) -/
  cycles : DWord := 0
  /-- the counter of the next flit to deliver, and the later ones that have come -/
  rxctr : Nat := 0
  held : List Nat := []
  /-- the flits below it are acknowledged -/
  acked : Nat := 0
  /-- lanes that have failed -/
  dead : BitVec 18 := 0
  /-- the device that traffic for the peer takes while the port is DOWN -/
  detour : Option Nat := none
  deriving DecidableEq, Repr

inductive RSt where
  | free | leased | armed | done
  deriving DecidableEq, Repr

/-- A reduction slot (R336): the leaser is a thread of this device, or a peer's. -/
structure RSlot where
  st : RSt := .free
  op : Nat := 0
  nani : Bool := false
  expected : BitVec 16 := 0
  seen : BitVec 16 := 0
  value : Word := 0
  some : Bool := false
  nan : Bool := false
  timeout : Word := 0
  leaserDev : Nat := 0
  /-- the counter that its timer runs on, a port's or (15) the fabric unit's, and where that stood when it was armed (R338) -/
  timer : Nat := 15
  start : DWord := 0
  th : Nat := 0
  tk : Nat := 0
  cap : Cap := 0
  off : Nat := 0
  status : Nat := 0
  pending : Bool := false
  deriving DecidableEq, Repr

structure Fabric where
  ports : Tbl Port := []
  peeradmit : BitVec 16 := 0
  mcgroup : Tbl Nat := []
  slots : Tbl RSlot := []
  /-- the fabric unit's cycle counter (R338, R366) -/
  cycles : DWord := 0
  deriving DecidableEq, Repr

/-- A flash bank: the images' identities, their version (R358). -/
structure Bank where
  firmware : Nat := 0
  config : Nat := 0
  version : Nat := 0
  deriving DecidableEq, Repr

/-- State of the hours lifetime: clock, errors, poison, flash, boots. -/
structure Hours where
  power : Bool := true
  clock : Nat := 3000
  ce : Tbl Word := []
  /-- the units whose count has reached a multiple of CETHRESH, their events still to be sent (R356) -/
  ceDue : List Nat := []
  poison : List Nat := []
  bankA : Bank := {}
  bankB : Bank := {}
  runsB : Bool := false
  boots : Nat := 0
  stage : Nat := 0
  failed : Bool := false
  /-- calibration results, by the stage of bring-up that found them (Table 1.4) -/
  calib : Tbl DWord := []
  deriving DecidableEq, Repr

/-- The Owl block of a die (Tables 23.7-23.9). -/
structure Owl where
  grant : DWord := 0
  gseq : Word := 0
  cmd : BitVec 128 := 0
  sampctl : DWord := 0x0000100000000000
  trbase : DWord := 0
  trlen : Word := 0
  trprod : Word := 0
  trcons : Word := 0
  lost : Nat := 0
  /-- the group that the last command halts, plus 1; 0 for none: a kill drops a halt that has not taken effect (R364) -/
  halts : Nat := 0
  deriving DecidableEq, Repr

structure Owls where
  owl : Tbl Owl := []
  cmps : Tbl DWord := []
  bins : Tbl (BitVec 128) := []
  lcc : Tbl DWord := []
  cycles : Tbl DWord := []
  /-- the core's cycle in which a partition had its last clock -/
  clocked : Tbl DWord := []
  /-- the group sampled last on a partition, by index and key, plus 1 (R367) -/
  sampled : Tbl Nat := []
  /-- the group that led the previous issue of a partition, plus 1; 0 for none (R219) -/
  lead : Tbl Nat := []
  /-- the PC of the previous issue of a partition, as a number, plus 1; 0 for none (R219) -/
  lastPc : Tbl Nat := []
  deriving DecidableEq, Repr

/-- The issue in progress (R46, R47): the group, the PC of the word to run, the lanes, the words of the chain left;
the lanes, the slot and the words it began with; the groups that lane fill added (R220). -/
structure Issue where
  gk : Nat := 0
  pkt : Nat := 0
  slot : Nat := 0
  lanes : List Nat := []
  words : Nat := 0
  all : List Nat := []
  start : Nat := 0
  size : Nat := 0
  fill : List Nat := []
  deriving DecidableEq, Repr

/-- Which unit moves next (log 1). -/
inductive Turn where
  | clock (core part : Nat)
  | mword (tk : Nat)
  | unit (i : Instr)
  deriving DecidableEq, Repr

/-- The state of the device. -/
structure State where
  g : Groups := {}
  t : Teams := {}
  e : Engines := {}
  o : Order := {}
  x : Xlat := {}
  l : Launches := {}
  h : HostIf := {}
  d : Dir := {}
  f : Fabric := {}
  r : Hours := {}
  w : Owls := {}
  iss : Issue := {}
  /-- the team whose sequencer runs the current M-word -/
  cur : Nat := 0
  turns : List Turn := []
  /-- the number of the next free value (log 2) -/
  free : Nat := 0
  /-- the next key of a team, thread, launch, event, side, store or array entry (log 1) -/
  next : Nat := 1
  deriving DecidableEq, Repr

/-- The device right after reset: powered, no stage of bring-up done, every register at the reset value its table
gives, or the one log 5 names. -/
def State.reset : State := {}

end Sys2Proof.Machine
end

