-- ==== Sys2Proof/Machine/Ops.lean ====
section
/-! DEFINITION. The named operations over the state: lanes, groups, teams, registers, capabilities, events of the
arbiter, the end of a lane, and taking a trap or fault (R9, R127, R348-R351) with the return from it (R128). -/

namespace Sys2Proof.Machine

/-! ### Keys -/

def gkOf (tk idx : Nat) : Nat := tk * 2 ^ 24 + idx
def lkOf (gk lane : Nat) : Nat := gk * 64 + lane
def gkLane (lk : Nat) : Nat := lk / 64
def tkOfGk (gk : Nat) : Nat := gk / 2 ^ 24
/-- The agent of a team's sequencer in the ordering machine: above every lane of its groups. -/
def seqAgent (tk : Nat) : Nat := lkOf (gkOf tk (2 ^ 24 - 1)) 0
/-- The agent of an engine thread: even keys of a space of its own. -/
def thAgent (th : Nat) : Nat := 2 ^ 200 + th
def vKey (lk n : Nat) : Nat := lk * 128 + n
def sKey (gk n : Nat) : Nat := gk * 16 + n
def cKey (gk n : Nat) : Nat := gk * 8 + n
def scrKey (tk off : Nat) : Nat := tk * 2 ^ 40 + off
/-- Tags, slot names and regions of a team on its k-th core. -/
def coreKey (tk k : Nat) : Nat := tk * 4 + k
def tagKey (tk k t : Nat) : Nat := coreKey tk k * 64 + t
def slotKey (tk k name : Nat) : Nat := coreKey tk k * 64 + name
def regionKey (tk k r : Nat) : Nat := coreKey tk k * 32 + r
def accKey (tk k byte : Nat) : Nat := coreKey tk k * 2 ^ 24 + byte
def barKey (tk n : Nat) : Nat := tk * 16 + n

/-! ### Lanes, groups and teams -/

def State.lane (s : State) (lk : Nat) : Lane := tget {} s.g.lanes lk
def State.setLane (s : State) (lk : Nat) (l : Lane) : State :=
  { s with g := { s.g with lanes := tset {} s.g.lanes lk l } }
def State.modLane (s : State) (lk : Nat) (f : Lane → Lane) : State := s.setLane lk (f (s.lane lk))

def State.group (s : State) (gk : Nat) : Group := tget {} s.g.groups gk
def State.setGroup (s : State) (gk : Nat) (x : Group) : State :=
  { s with g := { s.g with groups := tset {} s.g.groups gk x } }
def State.modGroup (s : State) (gk : Nat) (f : Group → Group) : State := s.setGroup gk (f (s.group gk))

def State.team (s : State) (tk : Nat) : Team := tget {} s.t.teams tk
def State.setTeam (s : State) (tk : Nat) (x : Team) : State :=
  { s with t := { s.t with teams := tset {} s.t.teams tk x } }
def State.modTeam (s : State) (tk : Nat) (f : Team → Team) : State := s.setTeam tk (f (s.team tk))

def State.launchOf (s : State) (ln : Nat) : Launch := (tget none s.l.launches ln).getD {}
def State.setLaunch (s : State) (ln : Nat) (x : Launch) : State :=
  { s with l := { s.l with launches := tset none s.l.launches ln (some x) } }
def State.modLaunch (s : State) (ln : Nat) (f : Launch → Launch) : State := s.setLaunch ln (f (s.launchOf ln))

/-- The team of a group, its record and descriptor. -/
def State.teamOf (s : State) (gk : Nat) : Team := s.team (s.group gk).tk
def State.kern (s : State) (gk : Nat) : Kern := (s.teamOf gk).kern

/-- The position of a group's core among its team's cores. -/
def State.coreIdx (s : State) (gk : Nat) : Nat := (s.teamOf gk).cores.idxOf (s.group gk).core

/-- The lane positions of a group. -/
def State.lanesOf (s : State) (gk : Nat) : List Nat := List.range (s.group gk).width

/-- The groups of a team, by key. -/
def State.groupsOf (s : State) (tk : Nat) : List Nat :=
  (tslice s.g.groups (gkOf tk 0) (gkOf (tk + 1) 0)).map (·.1)

/-- A fresh key (log 1). -/
def State.fresh (s : State) : Nat × State := (s.next, { s with next := s.next + 1 })

/-- A free value (log 2). -/
def State.draw (s : State) : DWord × State := (Config.freeValue s.free, { s with free := s.free + 1 })

def liveLane (l : Lane) : Bool :=
  match l.st with | .ready => true | .waiting _ => true | _ => false

def Lane.absent (l : Lane) : Bool := match l.st with | .parked _ => true | .halted _ => true | _ => false

/-- A team in a deterministic launch (LFLAGS bit 1). -/
def Kern.det (k : Kern) : Bool := k.flags.getLsbD 1

/-! ### Registers (R51, R53) -/

def State.vreg (s : State) (gk lane n : Nat) : Word := tget 0 s.g.vreg (vKey (lkOf gk lane) n)
def State.setV (s : State) (gk lane n : Nat) (v : Word) : State :=
  { s with g := { s.g with vreg := tset 0 s.g.vreg (vKey (lkOf gk lane) n) v } }
def State.sreg (s : State) (gk n : Nat) : Word := tget 0 s.g.sreg (sKey gk n)
def State.setS (s : State) (gk n : Nat) (v : Word) : State :=
  { s with g := { s.g with sreg := tset 0 s.g.sreg (sKey gk n) v } }
def State.creg (s : State) (gk n : Nat) : Cap := tget 0 s.g.creg (cKey gk n)
def State.setC (s : State) (gk n : Nat) (v : Cap) : State :=
  { s with g := { s.g with creg := tset 0 s.g.creg (cKey gk n) v } }
def State.jmask (s : State) (gk n : Nat) : DWord := tget 0 s.g.jmask (cKey gk n)
def State.setJ (s : State) (gk n : Nat) (v : DWord) : State :=
  { s with g := { s.g with jmask := tset 0 s.g.jmask (cKey gk n) v } }

def joinW (hi lo : Word) : DWord := hi ++ lo
def loW (d : DWord) : Word := d.truncate 32
def hiW (d : DWord) : Word := (d >>> 32).truncate 32

/-- Consecutive v registers of a lane written from n up. -/
def State.writeVs (s : State) (gk lane n : Nat) : List Word → State
  | [] => s
  | w :: ws => (s.setV gk lane n w).writeVs gk lane (n + 1) ws
/-- Consecutive s registers written from n up. -/
def State.writeSs (s : State) (gk n : Nat) : List Word → State
  | [] => s
  | w :: ws => (s.setS gk n w).writeSs gk (n + 1) ws

/-! ### Capabilities (R101, R102) -/

def Cap.type (c : Cap) : Nat := (c >>> 120).toNat
def Cap.rights (c : Cap) : BitVec 8 := (c >>> 112).truncate 8
def Cap.obj (c : Cap) : Nat := (c >>> 88).toNat % 2 ^ 24
def Cap.base (c : Cap) : Nat := (c >>> 48).toNat % 2 ^ 40
def Cap.len (c : Cap) : Nat := (c >>> 8).toNat % 2 ^ 40
def Cap.chk (c : Cap) : BitVec 8 := c.truncate 8

/-- One byte through the CRC-8 of polynomial 0x07. -/
def crcByte (crc : BitVec 8) (b : BitVec 8) : BitVec 8 :=
  (List.range 8).foldl (fun c _ => if c.msb then (c <<< 1) ^^^ 7 else c <<< 1) (crc ^^^ b)

/-- The check byte of bits [127:8] (R102). -/
def capCheck (c : Cap) : BitVec 8 :=
  (List.range 15).foldl (fun crc i => crcByte crc ((c >>> (8 * (15 - i))).truncate 8)) 0

/-- A capability with its fields, its check byte computed. -/
def mkCap (type rights obj base len : Nat) : Cap :=
  let c : Cap := BitVec.ofNat 128
    (type % 256 * 2 ^ 120 + rights % 256 * 2 ^ 112 + obj % 2 ^ 24 * 2 ^ 88 + base % 2 ^ 40 * 2 ^ 48 + len % 2 ^ 40 * 256)
  c ||| (capCheck c).zeroExtend 128

def capOk (c : Cap) : Bool := Cap.chk c == capCheck c

/-- Types of Table 5.7. -/
def tMEM : Nat := 1
def tSCR : Nat := 2
def tGWIN : Nat := 3
def tREGW : Nat := 4
def tACCW : Nat := 5
def tOCM : Nat := 6
def tPEER : Nat := 7
def tHOST : Nat := 8

/-- Rights bits of Table 5.7. -/
def rR : Nat := 1
def rW : Nat := 2
def rA : Nat := 8
def rL : Nat := 16
def rS : Nat := 32
def rM : Nat := 64
def rG : Nat := 128
def hasRights (c : Cap) (need : Nat) : Bool := (Cap.rights c).toNat &&& need == need

/-! ### Fault codes (Table 22.2) -/

def fcILLEGAL_ENCODING : Nat := 0x0101
def fcILLEGAL_OPERAND : Nat := 0x0102
def fcLOOKAHEAD : Nat := 0x0103
def fcFETCH_FAULT : Nat := 0x0104
def fcCAP_CHECK : Nat := 0x0201
def fcCAP_TYPE : Nat := 0x0202
def fcCAP_NULL : Nat := 0x0203
def fcCAP_RIGHTS : Nat := 0x0204
def fcCAP_BOUNDS : Nat := 0x0205
def fcCAP_OBJECT : Nat := 0x0206
def fcMISALIGNED : Nat := 0x0207
def fcATOMIC_UNSUPPORTED : Nat := 0x0208
def fcSOFTWARE_TRAP : Nat := 0x0301
def fcFP_INVALID : Nat := 0x0302
def fcFP_DIVZERO : Nat := 0x0303
def fcFP_OVERFLOW : Nat := 0x0304
def fcBREAKPOINT : Nat := 0x0305
def fcSTACK_FAULT : Nat := 0x0401
def fcNOT_HANDLER : Nat := 0x0402
def fcBARRIER_STATE : Nat := 0x0403
def fcTAG_BUSY : Nat := 0x0404
def fcLANDING_FULL : Nat := 0x0405
def fcSLOT_STATE : Nat := 0x0406
def fcOPND_BUDGET : Nat := 0x0407
def fcPAIR_LIMIT : Nat := 0x0408
def fcBAD_PAIR_RECORD : Nat := 0x0409
def fcSCOPE_MISMATCH : Nat := 0x0501
def fcNONDET_OP : Nat := 0x0502
def fcDET_LOG_FULL : Nat := 0x0503
def fcNOT_PRESENT : Nat := 0x0601
def fcWRITE_PROTECT : Nat := 0x0602
def fcMAP_MALFORMED : Nat := 0x0603
def fcOBJ_INVALID : Nat := 0x0604
def fcOBJ_BOUNDS : Nat := 0x0605
def fcWINDOW_DEPARTED : Nat := 0x0701
def fcMULTICAST_PARTIAL : Nat := 0x0702
def fcPEER_REFUSED : Nat := 0x0703
def fcPEER_UNREACHABLE : Nat := 0x0704
def fcMEM_POISON : Nat := 0x0F01

/-- A fault or trap with what its record carries (Table 22.1); `n` is the number of TCAUSE (Table 6.4). -/
structure FaultInfo where
  code : Nat
  detail : Nat := 0
  aux : Nat := 0
  off : Nat := 0
  obj : Nat := 0
  ctype : Nat := 0
  tag : Option Nat := none
  win : Nat := 0
  n : Nat := 0
  deriving DecidableEq, Repr

/-- A fault with no further detail. -/
def FaultInfo.of (code : Nat) : FaultInfo := { code := code }

/-- A value placed in a field of a record. -/
def fld (v lo w : Nat) : Nat := v % 2 ^ w * 2 ^ lo

/-! ### Events of the arbiter (R324) -/

/-- An event received by the arbiter, behind those it holds. ERRSUM counts ERROR events (Table 18.5). -/
def State.sendEvent (s : State) (kind : Nat) (ctx : Word) (payload : Nat) (need : List Nat := []) : State :=
  { s with h := { s.h with
      events := s.h.events ++ [{ kind := kind, ctx := ctx, payload := BitVec.ofNat 512 payload, need := need }]
      errsum := if kind = 6 then s.h.errsum + 1 else s.h.errsum } }

def noCtx : Word := 0xFFFFFFFF

/-- The launch id of R283. -/
def launchId (ctx serial : Nat) : Nat := ctx % 64 * 2 ^ 32 + serial % 2 ^ 32

/-! ### Rejoin masks and the end of a lane (R120, R123, R226) -/

/-- A lane parked at jN; one made absent there holds the release back (R120). -/
def Lane.waitsAt (l : Lane) (n : Nat) : Bool := l.st == .waiting (.rejoin n) || (l.after == some (.rejoin n) && !l.absent)
/-- A lane released from jN. -/
def Lane.released (n : Nat) (l : Lane) : Lane :=
  if l.st == .waiting (.rejoin n) then { l with st := .ready } else { l with after := none }

/-- The release of a rejoin mask: every set bit belongs to a lane waiting at it (R120). -/
def State.rejoinRelease (s : State) (gk n : Nat) : State :=
  let m := s.jmask gk n
  let waits (l : Nat) : Bool := (s.lane (lkOf gk l)).waitsAt n
  if (s.lanesOf gk).all (fun l => !m.getLsbD l || waits l) then
    let s := (s.lanesOf gk).foldl (fun s l =>
      if (s.lane (lkOf gk l)).waitsAt n then s.modLane (lkOf gk l) (Lane.released n) else s) s
    s.setJ gk n 0
  else s

/-- A lane back from absence may be the last that a mask waits for (R120). -/
def State.rejoinBack (s : State) (lk : Nat) : State :=
  match (s.lane lk).st, (s.lane lk).after with
  | .waiting (.rejoin j), _ => s.rejoinRelease (gkLane lk) j
  | _, some (.rejoin j) => s.rejoinRelease (gkLane lk) j
  | _, _ => s

/-- A bit of a mask cleared, or set, for a list of lanes. -/
def maskOf (lanes : List Nat) : DWord := lanes.foldl (fun m l => m ||| (1 <<< l)) 0

/-- The lanes' bits cleared in one mask, then the release rule. -/
def State.strikeLanes (s : State) (gk n : Nat) (lanes : List Nat) : State :=
  (s.setJ gk n (s.jmask gk n &&& ~~~ maskOf lanes)).rejoinRelease gk n

/-- A lane ends (R123): it issues nothing more, its bits clear in all eight masks, its uncommitted landing entries
go; with the group's last lane the group leaves its partition and its partly pushed commands are discarded. -/
def State.endLane (s : State) (lk : Nat) : State :=
  let gk := gkLane lk
  let l := lk % 64
  let s := s.modLane lk (fun x => { x with st := .exited, windows := [], token := none, took := none, haltReq := false, after := none, launch := none })
  let s := (List.range 8).foldl (fun s n => if (s.jmask gk n).getLsbD l then s.strikeLanes gk n [l] else s) s
  let s := { s with t := { s.t with landing := s.t.landing.filter (fun e => !(e.gk == gk && e.key % (64 * 128) / 128 == l)) } }
  if (s.lanesOf gk).all (fun l => (s.lane (lkOf gk l)).st == .exited) then
    s.modGroup gk (fun g => { g with q0 := [], q2 := [], q3 := [], q4 := [], active := false })
  else s

/-! ### Pair launches: closing a side -/

def State.thread (s : State) (th : Nat) : Option Thread := tget none s.e.threads th
def State.setThread (s : State) (th : Nat) (x : Option Thread) : State :=
  { s with e := { s.e with threads := tset none s.e.threads th x } }
def State.modThread (s : State) (th : Nat) (f : Thread → Thread) : State :=
  match s.thread th with | some x => s.setThread th (some (f x)) | none => s

/-- The number of a side in `PairLaunch.closed`. -/
def sideNo (seq : Nat) (isB : Bool) : Nat := 2 * seq + isB.toNat

/-- A side's turn closed: it was applied, or contributes nothing (R238, R245). -/
def State.closeSide (s : State) (th seq : Nat) (isB : Bool) : State :=
  s.modThread th (fun x =>
    if x.pair.closed.contains (sideNo seq isB) then x
    else { x with pair := { x.pair with closed := sideNo seq isB :: x.pair.closed } })

/-- A faulted pair abandoned (R245): both turns close, the launch will complete FAULTED. -/
def State.abandonPair (s : State) (lk : Nat) : State :=
  let p := (s.lane lk).pair
  let s := (s.closeSide p.th p.seq false).closeSide p.th p.seq true
  let s := s.modThread p.th (fun x => { x with pair := { x.pair with bad := true, again := x.pair.again.filter (·.lane != lk) } })
  s.endLane lk

/-! ### Fault records (Tables 22.1, 10.1) -/

/-- The part that both layouts share: code, FID, launch, team, PC. -/
def recordCommon (t : Team) (serial fid pkt slot code : Nat) : Nat :=
  fld pkt 130 30 + fld slot 128 2 + fld t.idx 96 32 + fld serial 64 32 + fld fid 32 32 + fld code 0 16

/-- The record of a lane (Table 22.1). -/
def State.laneRecord (s : State) (lk fid : Nat) (pc : Pc) (f : FaultInfo) : Nat :=
  let g := s.group (gkLane lk)
  let t := s.team g.tk
  recordCommon t (s.launchOf t.ln).serial fid pc.pkt pc.slot f.code +
    fld f.win 352 4 + fld f.aux 320 32 + fld f.detail 288 32 + fld f.off 224 64 + fld f.obj 200 24 +
    fld f.ctype 192 8 + fld g.core 184 7 + fld (lk % 64) 176 6 + fld g.idx 160 16 +
    (match f.tag with | some t => fld 1 24 1 + fld t 18 6 | none => 0)

/-- The record of a pair lane (Table 10.1). -/
def State.pairRecord (s : State) (lk fid : Nat) (pc : Pc) (f : FaultInfo) : Nat :=
  let g := s.group (gkLane lk)
  let t := s.team g.tk
  let l := s.lane lk
  let th := s.thread l.pair.th
  let r := match th with | some x => x.pair.record.toNat | none => 0
  let mode := r / 4 % 4
  let aSt := l.pair.sideA.isSome
  let bSt := if mode = 0 then aSt else l.pair.sideB.isSome
  recordCommon t (s.launchOf t.ln).serial fid pc.pkt pc.slot f.code +
    fld l.pair.seq 416 32 + fld l.count 384 32 + fld f.off 320 64 + fld f.obj 296 24 + fld f.ctype 288 8 +
    fld (r / 2 ^ 9) 244 1 + fld l.pair.doneB.toNat 243 1 + fld l.pair.doneA.toNat 242 1 + fld bSt.toNat 241 1 +
    fld aSt.toNat 240 1 + fld (if mode ≥ 2 then 0 else g.core) 232 7 + fld g.core 224 7 +
    fld l.pair.b 192 32 + fld l.pair.a 160 32 + fld (match th with | some x => x.tag | none => 0) 18 6 + fld 1 16 1

/-- The record of a sequencer. -/
def State.seqRecord (s : State) (tk fid : Nat) (f : FaultInfo) : Nat :=
  let t := s.team tk
  recordCommon t (s.launchOf t.ln).serial fid t.seq.idx 0 f.code +
    fld f.aux 320 32 + fld f.detail 288 32 + fld f.off 224 64 + fld f.obj 200 24 + fld f.ctype 192 8 +
    fld (t.cores.headD 0) 184 7 + fld 0xFFFF 160 16 + fld 1 25 2

/-! ### Taking a trap or fault, and returning from one -/

/-- KIND of TCAUSE (Table 6.4) for the traps that an in-line handler may take; none for every other fault (R127). -/
def trapKind (code : Nat) : Option Nat :=
  if code = fcSOFTWARE_TRAP then some 1 else if code = fcFP_INVALID then some 2
  else if code = fcFP_DIVZERO then some 3 else if code = fcFP_OVERFLOW then some 4 else none

/-- A record enters the team's fault queue, or waits while the queue holds 256 (R351). -/
def Team.enqueue (t : Team) (fid : Nat) (p : Parked) (r : BitVec 512) : Team :=
  let t := { t with parked := tset none t.parked fid (some p), nextFid := t.nextFid + 1 }
  if t.fwait.isEmpty && t.fq.length < 256 then { t with fq := t.fq ++ [r] } else { t with fwait := t.fwait ++ [r] }

/-- The context word of a team's events. -/
def Team.ctxWord (t : Team) : Word := BitVec.ofNat 32 t.kern.ctx

/-- A lane that stands behind a REJOIN or WAITC goes on waiting; any other is ready. -/
def Lane.stillWaits (l : Lane) : LaneSt :=
  match l.st with | .waiting (.rejoin j) => .waiting (.rejoin j) | .waiting (.clocks n) => .waiting (.clocks n) | _ => .ready

/-- The wait of a REJOIN or WAITC that a lane keeps while it is absent. -/
def Lane.keepWait (l : Lane) : Option Wait :=
  match l.st with | .waiting (.rejoin j) => some (.rejoin j) | .waiting (.clocks n) => some (.clocks n) | _ => l.after

/-- A lane enters its in-line handler (R127): TEPC takes the trapped word's PC, TCAUSE the cause, INTRAP 1, and the
lane goes to (TVEC, 0). -/
def State.enterHandler (s : State) (lk : Nat) (pc : Pc) (kind n : Nat) : State :=
  s.modLane lk (fun l => { l with
    tepc := BitVec.ofNat 32 (pc.pkt * 4 + pc.slot), tcause := BitVec.ofNat 32 (kind * 2 ^ 24 + n), intrap := true
    pkt := l.tvec.toNat, slot := 0, st := l.stillWaits, token := none, took := none, held := []
    codeFloor := max l.codeFloor l.acquired })

/-- The fault record of a lane (R350): into the team's fault queue, or to the host, which makes the launch FAULTED. -/
def State.report (s : State) (lk : Nat) (pc : Pc) (f : FaultInfo) (toQueue : Bool) : State :=
  let g := s.group (gkLane lk)
  let t := s.team g.tk
  let fid := t.nextFid
  let rec0 := BitVec.ofNat 512 (if g.pair then s.pairRecord lk fid pc f else s.laneRecord lk fid pc f)
  if toQueue then s.modTeam g.tk (fun t => t.enqueue fid { lane := some lk, pair := g.pair } rec0)
  else
    let s := s.sendEvent 1 t.ctxWord rec0.toNat
    let s := s.modTeam g.tk (fun t => { t with nextFid := t.nextFid + 1 })
    s.modLaunch t.ln (fun x => { x with faulted := true })

/-- One more pair fault of a lane's launch (R187). -/
def State.countFault (s : State) (lk : Nat) : State :=
  s.modThread (s.lane lk).pair.th (fun x => { x with pair := { x.pair with faults := x.pair.faults + 1 } })

/-- A lane parks with a fault record (R222, R350): into the team's fault queue when the kernel has a handler role
that the lane is not of; otherwise to the host, and the lane ends as under LKILL (a pair is abandoned). -/
def State.park (s : State) (lk : Nat) (pc : Pc) (f : FaultInfo) : State :=
  let g := s.group (gkLane lk)
  let t := s.team g.tk
  let toQueue := match t.kern.handler with | some r => g.pair || r != g.role | none => false
  let s := (if g.pair then s.countFault lk else s).report lk pc f toQueue
  if toQueue then
    s.modLane lk (fun l => { l with
      st := .parked t.nextFid, pkt := pc.pkt, slot := pc.slot, token := none, took := none, held := [], after := l.keepWait })
  else if g.pair then s.abandonPair lk else s.endLane lk

/-- A pair fault of a pair that no lane runs (R186, R236); without a handler role the pair is abandoned. -/
def State.pairFault (s : State) (lk : Nat) (pc : Pc) (f : FaultInfo) : State :=
  let q := (s.team (s.group (gkLane lk)).tk).kern.handler.isSome
  let s := (s.countFault lk).report lk pc f q
  if q then s else s.abandonPair lk

/-- THE operation that takes a trap or fault for one lane at a PC: in line where R127 lets the lane, else it parks. -/
def State.raise (s : State) (lk : Nat) (pc : Pc) (f : FaultInfo) : State :=
  let l := s.lane lk
  match trapKind f.code with
  | some k => if l.tvec != 0 && !l.intrap then s.enterHandler lk pc k f.n else s.park lk pc f
  | none => s.park lk pc f

/-- The sequencer's slot names released and the sequencer stopped (R206, R207). -/
def State.stopSeq (s : State) (tk : Nat) : State :=
  let s := { s with t := { s.t with slots := tclear s.t.slots (slotKey tk 0 0) (slotKey tk 1 0) } }
  s.modTeam tk (fun t => { t with seq := { t.seq with st := .exited, kill := false } })

/-- A fault of a sequencer (R60, R207): it stops on the M-word; without a handler role the record goes to the host. -/
def State.raiseSeq (s : State) (tk : Nat) (f : FaultInfo) : State :=
  let t := s.team tk
  let fid := t.nextFid
  let rec0 := BitVec.ofNat 512 (s.seqRecord tk fid f)
  if t.kern.handler.isSome then
    s.modTeam tk (fun t =>
      { (t.enqueue fid { lane := none, pair := false } rec0) with seq := { t.seq with st := .parked fid } })
  else
    let s := s.sendEvent 1 t.ctxWord rec0.toNat
    let s := s.modTeam tk (fun t => { t with nextFid := t.nextFid + 1 })
    (s.modLaunch t.ln (fun x => { x with faulted := true })).stopSeq tk

/-! ### The PC (R44) -/

def Pc.next (p : Pc) : Pc := if p.slot < 2 then { p with slot := p.slot + 1 } else { pkt := p.pkt + 1, slot := 0 }
def Lane.pc (l : Lane) : Pc := { pkt := l.pkt, slot := l.slot }
def Lane.goto (l : Lane) (p : Pc) : Lane := { l with pkt := p.pkt, slot := p.slot, since := 0, token := none, took := none, held := [] }
/-- A taken control transfer: from there the lane fetches words as they stood at its last acquire at DEVICE scope, or later
(R131). -/
def Lane.take (l : Lane) (p : Pc) : Lane := { (l.goto p) with codeFloor := max l.codeFloor l.acquired }
/-- The lane goes to the next word in program order, or back to where R50 continues. -/
def Lane.advance (l : Lane) : Lane :=
  match l.resume with | some p => { (l.goto p) with resume := none } | none => l.goto l.pc.next
def State.gotoLane (s : State) (lk : Nat) (p : Pc) : State := s.modLane lk (·.take p)
def State.advLane (s : State) (lk : Nat) : State := s.modLane lk Lane.advance
def State.advLanes (s : State) (gk : Nat) (lanes : List Nat) : State :=
  lanes.foldl (fun s l => s.advLane (lkOf gk l)) s
/-- A lane waits at its word; the wait of a REJOIN or WAITC chained before it comes after. -/
def Lane.waitAt (w : Wait) (l : Lane) : Lane :=
  match l.st with
  | .waiting (.rejoin j) => { l with st := .waiting w, after := some (.rejoin j) }
  | .waiting (.clocks n) => { l with st := .waiting w, after := some (.clocks n) }
  | _ => { l with st := .waiting w }
/-- The lanes wait at their word, which runs again. -/
def State.waitLanes (s : State) (gk : Nat) (lanes : List Nat) (w : Wait) : State :=
  lanes.foldl (fun s l => s.modLane (lkOf gk l) (Lane.waitAt w)) s
/-- The group's capability registers, as a word that waits for a translation keeps them: what was written to them after
its issue does not affect it (R103). -/
def State.cregs (s : State) (gk : Nat) : List Cap := (List.range 8).map (s.creg gk)
/-- A capability register that a lane's word names, as it stood when the word issued. -/
def State.heldCap (s : State) (gk lane n : Nat) : Cap :=
  match (s.lane (lkOf gk lane)).held with | [] => s.creg gk n | cs => cs.getD n 0
/-- The lanes wait at their word for a page: the word has issued, and keeps its capabilities. -/
def State.waitPage (s : State) (gk : Nat) (lanes : List Nat) (ctx obj page off ty : Nat) : State :=
  lanes.foldl (fun s l => s.modLane (lkOf gk l) (fun x =>
    { (x.waitAt (.merge ctx obj page off ty)) with held := if x.held.isEmpty then s.cregs gk else x.held })) s
/-- A wait that may be for a page. -/
def State.holdLanes (s : State) (gk : Nat) (lanes : List Nat) : Wait → State
  | .merge ctx obj page off ty => s.waitPage gk lanes ctx obj page off ty
  | w => s.waitLanes gk lanes w
/-- One fault for each lane of a list, at the word in issue. -/
def State.raiseLanes (s : State) (lanes : List Nat) (f : FaultInfo) : State :=
  lanes.foldl (fun x l => x.raise (lkOf s.iss.gk l) { pkt := s.iss.pkt, slot := s.iss.slot } f) s

/-- The return from an in-line handler (R128): INTRAP clears and the lane resumes at TEPC, or at the word after it. -/
def State.trapReturn (s : State) (lk : Nat) (next : Bool) : State :=
  s.modLane lk (fun l =>
    let p : Pc := { pkt := (l.tepc >>> 2).toNat, slot := (l.tepc &&& 3).toNat }
    { (l.take (if next then p.next else p)) with intrap := false })

/-! ### Tags (R156) -/

def State.tagOf (s : State) (gk t : Nat) : Tag := tget .free s.t.tags (tagKey (s.group gk).tk (s.coreIdx gk) t)
def State.setTag (s : State) (gk t : Nat) (v : Tag) : State :=
  { s with t := { s.t with tags := tset .free s.t.tags (tagKey (s.group gk).tk (s.coreIdx gk) t) v } }

/-- The report of a completed pair launch kept for PAIRSTAT until its tag is used or freed (R242). -/
def State.pairDone (s : State) (gk t : Nat) : Word := tget 0 s.t.pairDone (tagKey (s.group gk).tk (s.coreIdx gk) t)
def State.setPairDone (s : State) (gk t : Nat) (v : Word) : State :=
  { s with t := { s.t with pairDone := tset 0 s.t.pairDone (tagKey (s.group gk).tk (s.coreIdx gk) t) v } }

/-- A word a NONDET_OP rule names: it runs, marking the launch, or is refused (R126, R297). -/
def State.nondetOk (s : State) (gk : Nat) : Bool := !(s.kern gk).det || (s.kern gk).nondet
def State.markNondet (s : State) (gk : Nat) : State :=
  if (s.kern gk).det then s.modLaunch (s.teamOf gk).ln (fun x => { x with nondet := true }) else s

end Sys2Proof.Machine
end

