-- ==== Sys2Proof/Machine/Mem.lean ====
section
/-! DEFINITION. Device memory with its coherence order (R258), NC copies (R319), poisoned sectors (R353), and the
location spaces that are not device memory. -/

namespace Sys2Proof.Machine

/-- The die of a core (Table 1.3). -/
def dieOf (core : Nat) : Nat := core / 32

/-- Bytes in an HBM window (Table 18.4): two stacks of 80 GB, each 80 × 10^9 bytes (Table 1.1). -/
def hbmBytes : Nat := 160 * 10 ^ 9
def hbmBase (die : Nat) : Nat := 2 ^ 40 + die * 2 ^ 38
def tier2Base : Nat := 2 ^ 41
/-- The tier-2 memory fitted, up to the 2 TiB of its window (Table 18.4). -/
def tier2Bytes : Nat := min Config.tier2Bytes (2 ^ 41)

/-- Addresses that device memory has (Table 18.4, R357). -/
def devHas (addr size : Nat) : Bool :=
  (List.range 4).any (fun d => hbmBase d ≤ addr && addr + size ≤ hbmBase d + hbmBytes) ||
  (tier2Base ≤ addr && addr + size ≤ tier2Base + tier2Bytes)

def granule (addr : Nat) : Nat := addr / 16
def granVal (m : Tbl Byte) (g : Nat) : BitVec 128 := BitVec.ofNat 128 (readLE m (g * 16) 16)

/-- Bytes of a 16-byte granule's value from an address inside it. -/
def granSlice (v : BitVec 128) (addr size : Nat) : Nat := v.toNat / 2 ^ (8 * (addr % 16)) % 2 ^ (8 * size)

/-- The newest store in device memory. -/
def State.devRead (s : State) (addr size : Nat) : Nat := readLE s.o.mem addr size

/-- A store appended to the coherence order: the value it replaces stays as an older version of its granule. -/
def State.devWrite (s : State) (addr size v : Nat) : State :=
  let g := granule addr
  { s with o := { s.o with
      old := tset [] s.o.old g (tget [] s.o.old g ++ [{ stamp := s.o.stamp, val := granVal s.o.mem g }])
      mem := writeLE s.o.mem addr v size
      stamp := s.o.stamp + 1 } }

/-- A write of many bytes goes into the coherence order granule by granule. -/
def State.devWriteAll (s : State) (a size v : Nat) : State :=
  (List.range ((a % 16 + size + 15) / 16)).foldl (fun (s : State) i =>
    let lo := max a ((a / 16 + i) * 16)
    let hi := min (a + size) ((a / 16 + i + 1) * 16)
    s.devWrite lo (hi - lo) (v / 2 ^ (8 * (lo - a)))) s
/-- A store of any length. -/
def State.devPut (s : State) (a size v : Nat) : State := if size ≤ 16 then s.devWrite a size v else s.devWriteAll a size v

def viewKey (core addr : Nat) : Nat := core * 2 ^ 48 + addr

/-- The least version of a granule that a core may still read for the bytes of an access (R258, R264). -/
def State.viewOf (s : State) (core addr size : Nat) : Nat :=
  let olds := tget [] s.o.old (granule addr)
  let floor := tget 0 s.o.floors core
  let fl := (olds.filter (fun v => v.stamp < floor)).length
  (List.range size).foldl (fun m i => max m (tget 0 s.o.views (viewKey core (addr + i)))) fl

/-- A core's view of the bytes of an access raised to a version. -/
def State.raiseView (s : State) (core addr size idx : Nat) : State :=
  { s with o := { s.o with views :=
      (List.range size).foldl (fun t i =>
        tset 0 t (viewKey core (addr + i)) (max idx (tget 0 t (viewKey core (addr + i))))) s.o.views } }

/-- The number of the newest version of a granule. -/
def State.newest (s : State) (addr : Nat) : Nat := (tget [] s.o.old (granule addr)).length

/-- A core's view of every location raised to the newest stores. -/
def State.liftFloor (s : State) (core : Nat) : State :=
  { s with o := { s.o with floors := tset 0 s.o.floors core s.o.stamp } }

/-- The address that stands for a location's byte in its coherence order: a page with NC set has one order for each die
(R271). -/
def ordAddr (core a : Nat) (nc : Bool) : Nat := if nc then a + (dieOf core + 1) * 2 ^ 44 else a

/-! ### Dirty L1 copies (R313) -/

def l1Key (core addr : Nat) : Nat := core * 2 ^ 48 + addr / 64

/-- The mask of an access's bytes in its sector. -/
def byteMask (addr size : Nat) : BitVec 64 := BitVec.ofNat 64 ((2 ^ size - 1) * 2 ^ (addr % 64))
/-- A sector with an access's bytes replaced. -/
def sectorPut (x : BitVec 512) (addr size v : Nat) : BitVec 512 :=
  let sh := 8 * (addr % 64)
  (x &&& ~~~ BitVec.ofNat 512 ((2 ^ (8 * size) - 1) * 2 ^ sh)) ||| BitVec.ofNat 512 (v % 2 ^ (8 * size) * 2 ^ sh)
def sectorGet (x : BitVec 512) (addr size : Nat) : Nat := x.toNat / 2 ^ (8 * (addr % 64)) % 2 ^ (8 * size)

/-- The copies of a sector, by core. -/
def State.l1Copies (s : State) (addr : Nat) : List (Nat × L1Copy) :=
  s.o.l1.filterMap (fun p => if p.1 % 2 ^ 48 == addr / 64 then p.2.map (fun c => (p.1 / 2 ^ 48, c)) else none)
def State.setL1 (s : State) (core addr : Nat) (c : Option L1Copy) : State :=
  { s with o := { s.o with l1 := tset none s.o.l1 (l1Key core addr) c } }

/-- The copy that a store of a core with an L1 leaves dirty through a WB mapping, from the state before the store. -/
def State.l1Dirty (s : State) (core addr size v : Nat) : L1Copy :=
  let a := addr / 64 * 64
  let c := (tget none s.o.l1 (l1Key core addr)).getD
    { bytes := BitVec.ofNat 512 (s.devRead a 64), dirty := 0, under := BitVec.ofNat 512 (s.devRead a 64) }
  { c with bytes := sectorPut c.bytes addr size v, dirty := c.dirty ||| byteMask addr size }

/-- What a store does to the copies of its sector: one through the same mapping reaches them, for the directory keeps
them coherent; one through another mapping does not. -/
def State.l1Stored (s : State) (addr size v : Nat) (wb : Bool) : State :=
  (s.l1Copies addr).foldl (fun s p =>
    let c := { p.2 with under := sectorPut p.2.under addr size v }
    s.setL1 p.1 addr (some (if wb then { c with bytes := sectorPut c.bytes addr size v }
      else { c with other := c.other ||| byteMask addr size }))) s

/-- A copy written back and dropped: the bytes that another mapping has stored since may take the copy's value (case 3). -/
def State.l1Clean (s : State) (core addr : Nat) : State :=
  match tget none s.o.l1 (l1Key core addr) with
  | none => s
  | some c =>
    let s := s.setL1 core addr none
    if c.other = 0 then s
    else
      let (v, s) := s.draw
      if v.getLsbD 0 then (List.range 64).foldl (fun s i =>
        if c.other.getLsbD i then s.devWrite (addr / 64 * 64 + i) 1 (c.bytes.toNat / 2 ^ (8 * i) % 256) else s) s
      else s

/-- The copies of a core in a range written back and dropped. -/
def State.l1CleanRange (s : State) (core addr len : Nat) : State :=
  (s.o.l1.filter (fun p => l1Key core addr ≤ p.1 && p.1 ≤ l1Key core (addr + len - 1))).foldl (fun s p =>
    s.l1Clean core (p.1 % 2 ^ 48 * 64)) s

/-- A core's L1 invalidated: its view of every location rises (R264), and its dirty copies are written back. -/
def State.raiseFloor (s : State) (core : Nat) : State := (s.l1CleanRange core 0 (2 ^ 52)).liftFloor core

/-- A load of device memory that does not go through an L1: through a WT or UC mapping it may miss a store that an L1
holds dirty (case 2). -/
def State.devLoad (s : State) (addr size : Nat) (wb : Bool) : Nat × State :=
  if wb then (s.devRead addr size, s)
  else (s.l1Copies addr).foldl (fun (v, s) p =>
    if p.2.dirty &&& byteMask addr size = 0 then (v, s)
    else
      let (x, s) := s.draw
      (if x.getLsbD 0 then sectorGet p.2.under addr size else v, s)) (s.devRead addr size, s)

/-! ### Pages with NC set (R319) -/

def ncKey (die addr : Nat) : Nat := die * 2 ^ 48 + addr / 64

/-- A die's copy of the sector, filled from memory where it has none. -/
def State.ncSector (s : State) (die addr : Nat) : NcSector :=
  (tget none s.o.nc (ncKey die addr)).getD { bytes := BitVec.ofNat 512 (s.devRead (addr / 64 * 64) 64), dirty := 0 }

def State.setNc (s : State) (die addr : Nat) (x : Option NcSector) : State :=
  { s with o := { s.o with nc := tset none s.o.nc (ncKey die addr) x } }

def State.ncRead (s : State) (die addr size : Nat) : Nat × State :=
  let c := s.ncSector die addr
  (sectorGet c.bytes addr size, s.setNc die addr (some c))

/-- The value of a granule of a die's copy becomes an older version of the die's order. -/
def State.ncKeep (s : State) (die addr : Nat) : State :=
  let g := granule (addr + (die + 1) * 2 ^ 44)
  let v := BitVec.ofNat 128 (sectorGet (s.ncSector die addr).bytes (addr / 16 * 16) 16)
  { s with o := { s.o with old := tset [] s.o.old g (tget [] s.o.old g ++ [{ stamp := s.o.stamp, val := v }]), stamp := s.o.stamp + 1 } }

def State.ncWrite (s : State) (die addr size v : Nat) : State :=
  let c := s.ncSector die addr
  (s.ncKeep die addr).setNc die addr
    (some { bytes := sectorPut c.bytes addr size v, dirty := c.dirty ||| byteMask addr size })

/-- A dirty copy written back (R152, R319): its dirty bytes go to memory, and with them, since all 64 bytes of the sector
move, bytes that memory has received since the copy was filled may take the copy's value (R313 case 3, log 54). A copy
that is dropped leaves its bytes as older versions of the die's order. -/
def State.ncClean (s : State) (die addr : Nat) (drop : Bool) : State :=
  match tget none s.o.nc (ncKey die addr) with
  | none => s
  | some c =>
    let a := addr / 64 * 64
    let put (s : State) (i : Nat) : State := s.devWrite (a + i) 1 (c.bytes.toNat / 2 ^ (8 * i) % 256)
    let lost := (List.range 64).filter (fun i => !c.dirty.getLsbD i && s.devRead (a + i) 1 != c.bytes.toNat / 2 ^ (8 * i) % 256)
    let (all, s) := if c.dirty = 0 || lost.isEmpty then (false, s) else let (v, s) := s.draw; (v.getLsbD 0, s)
    let s := (List.range 64).foldl (fun s i => if c.dirty.getLsbD i || (all && lost.contains i) then put s i else s) s
    let s := if drop then (List.range 4).foldl (fun s i => s.ncKeep die (a + 16 * i)) s else s
    s.setNc die addr (if drop then none else some { c with dirty := 0 })

/-- A load of a WB location by a core with an L1: `pick` versions before the newest of its order, never before the
core's view (R259, step 3). -/
def State.viewRead (s : State) (core addr size pick : Nat) (nc : Bool) : Nat × State :=
  let x := ordAddr core addr nc
  let olds := tget [] s.o.old (granule x)
  let idx := max (s.viewOf core x size) (olds.length - pick)
  let (v, s) := match olds[idx]? with
    | some o => (granSlice o.val addr size, s)
    | none => if nc then s.ncRead (dieOf core) addr size else (s.devRead addr size, s)
  (v, s.raiseView core x size (min idx olds.length))

/-! ### Poison (R353) -/

def State.poisoned (s : State) (addr size : Nat) : Bool :=
  s.r.poison.any (fun p => p * 64 < addr + size && addr < p * 64 + 64)

/-- The mark of every sector that one write covers whole is cleared. -/
def State.clearPoison (s : State) (addr size : Nat) : State :=
  { s with r := { s.r with poison := s.r.poison.filter (fun p => !(addr ≤ p * 64 && p * 64 + 64 ≤ addr + size)) } }

/-- The physical line number P of an aperture address and the sector in it (R314, Table 22.2). -/
def lineNo (addr : Nat) : Nat :=
  if tier2Base ≤ addr then (addr - tier2Base) / 512 else (addr - 2 ^ 40) % 2 ^ 38 / 512
def sectorNo (addr : Nat) : Nat := addr % 512 / 64

/-- Slice and home die of a line (R314). -/
def sliceOf (p : Nat) : Nat := ((p % 65536) ^^^ (p / 65536 % 65536) ^^^ (p / 2 ^ 32 % 65536)) % 384
def homeDie (addr : Nat) : Nat := if tier2Base ≤ addr then lineNo addr % 4 else (addr - 2 ^ 40) / 2 ^ 38 % 4

/-! ### Lines of a die's L2 (R317) -/

/-- A line of a die's L2, by the line's aperture address divided by 512. -/
def State.l2Line (s : State) (line die : Nat) : L2Line := tget {} s.d.l2 (line * 4 + die)
def State.setL2 (s : State) (line die : Nat) (x : L2Line) : State :=
  { s with d := { s.d with l2 := tset {} s.d.l2 (line * 4 + die) x } }

/-- A write performed in a die's slice: a line that it holds in E goes to M silently, and the sector is dirty (Table
18.2). -/
def State.l2Wrote (s : State) (die addr : Nat) : State :=
  let x := s.l2Line (addr / 512) die
  match x.st with
  | .e | .m =>
    let sec : BitVec 8 := 1 <<< sectorNo addr
    s.setL2 (addr / 512) die { st := .m, valid := x.valid ||| sec, dirty := x.dirty ||| sec }
  | _ => s

/-! ### Scratch, accumulators, register windows -/

/-- Bytes of team scratch. -/
def State.scrRead (s : State) (tk off size : Nat) : Nat := readLE s.t.scratch (scrKey tk off) size
def State.scrWrite (s : State) (tk off size v : Nat) : State :=
  { s with t := { s.t with scratch := writeLE s.t.scratch (scrKey tk off) v size } }

/-- The scratch the team's c1 covers: T − S (R213). -/
def Kern.stackBytes (k : Kern) : Nat := (k.roles.map (·.groups)).sum * k.width * k.stack
def Kern.scrBytes (k : Kern) : Nat := k.scratch - k.stackBytes

def State.accRead (s : State) (tk k off size : Nat) : Nat := readLE s.t.acc (accKey tk k off) size
def State.accWrite (s : State) (tk k off size v : Nat) : State :=
  { s with t := { s.t with acc := writeLE s.t.acc (accKey tk k off) v size } }

/-- The register a byte of the register windows lies in: group, lane, register; none outside the group's lanes and
budget (R142). -/
def State.regwAt (s : State) (tk off : Nat) : Option (Nat × Nat × Nat) :=
  let gk := gkOf tk (off / 32768)
  let g := s.group gk
  let w := off % 32768 / 4
  if w % 64 < g.width && w / 64 < g.regs && off / 32768 < (s.team tk).ngroups then some (gk, w % 64, w / 64) else none

def State.regByte (s : State) (tk off : Nat) : Nat :=
  match s.regwAt tk off with
  | some (gk, l, n) => (s.vreg gk l n).toNat / 2 ^ (8 * (off % 4)) % 256
  | none => 0

def State.setRegByte (s : State) (tk off v : Nat) : State :=
  match s.regwAt tk off with
  | some (gk, l, n) =>
    let w := (s.vreg gk l n).toNat
    let sh := 8 * (off % 4)
    s.setV gk l n (BitVec.ofNat 32 (w - w / 2 ^ sh % 256 * 2 ^ sh + v % 256 * 2 ^ sh))
  | none => s

def State.regRead (s : State) (tk off : Nat) : Nat → Nat
  | 0 => 0
  | n + 1 => s.regByte tk off + 256 * s.regRead tk (off + 1) n

def State.regWrite (s : State) (tk off v : Nat) : Nat → State
  | 0 => s
  | n + 1 => (s.setRegByte tk off v).regWrite tk (off + 1) (v / 256) n

end Sys2Proof.Machine
end

