-- ==== Sys2Proof/Machine/OwlOps.lean ====
section
/-! DEFINITION. Owl's operations: trace records (R366), halts, steps and resumption (R363, R364), its command port
(R328), and the events of grants (R361). -/

namespace Sys2Proof.Machine

def State.owl (s : State) (die : Nat) : Owl := tget {} s.w.owl die
def State.setOwl (s : State) (die : Nat) (x : Owl) : State := { s with w := { s.w with owl := tset {} s.w.owl die x } }

/-- The cycle counter of a core (R366, Table 23.10). -/
def State.cycles (s : State) (core : Nat) : DWord := tget 0 s.w.cycles core

def Owl.count (o : Owl) : Nat := o.trlen.toNat / 32
/-- The ring is full (R370). -/
def Owl.full (o : Owl) : Bool := (o.trprod.toNat + 1) % o.count == o.trcons.toNat

/-- A record put at TRPROD. -/
def State.putTrace (s : State) (die : Nat) (r : Nat) : State :=
  let o := s.owl die
  let a := hbmBase die + o.trbase.toNat + o.trprod.toNat * 32
  let s := (s.devWrite a 16 (r % 2 ^ 128)).devWrite (a + 16) 16 (r / 2 ^ 128)
  s.setOwl die { o with trprod := BitVec.ofNat 32 ((o.trprod.toNat + 1) % o.count) }

/-- The LOST record, once there is room for it (R366). The spec names no unit whose counter it carries: a free value (log 2). -/
def State.traceLost (s : State) (die : Nat) : State :=
  let o := s.owl die
  if o.trlen == 0 || o.lost == 0 || o.full then s
  else
    let (v, s) := s.draw
    (s.setOwl die { o with lost := 0 }).putTrace die (fld v.toNat 192 64 + fld 6 56 8 + fld o.lost 0 32)

/-- A trace record (Table 23.4): dropped and counted while the ring is full; nothing while tracing is off. -/
def State.trace (s : State) (die : Nat) (r : Nat) : State :=
  if (s.owl die).trlen == 0 then s
  else
    let s := s.traceLost die
    let o := s.owl die
    if o.full then s.setOwl die { o with lost := o.lost + 1 } else s.putTrace die r

/-- The record of a lane at a PC. -/
def State.laneTrace (s : State) (lk : Nat) (pc : Pc) (kind st detail : Nat) : State :=
  let g := s.group (gkLane lk)
  let t := s.team g.tk
  s.trace (dieOf g.core)
    (fld (s.cycles g.core).toNat 192 64 + fld (s.launchOf t.ln).serial 160 32 + fld t.idx 128 32 + fld pc.pkt 98 30 +
      fld pc.slot 96 2 + fld g.idx 80 16 + fld (lk % 64) 74 6 + fld g.core 67 7 + fld g.part 64 2 + fld kind 56 8 +
      fld st 48 8 + fld t.kern.ctx 42 6 + fld detail 0 32)

/-- The record of a sequencer. -/
def State.seqTrace (s : State) (tk kind detail : Nat) : State :=
  let t := s.team tk
  let core := t.cores.headD 0
  s.trace (dieOf core)
    (fld (s.cycles core).toNat 192 64 + fld (s.launchOf t.ln).serial 160 32 + fld t.idx 128 32 + fld t.seq.idx 98 30 +
      fld 0xFFFF 80 16 + fld core 67 7 + fld kind 56 8 + fld t.kern.ctx 42 6 + fld detail 0 32)

/-- A lane halts at its instruction boundary (R364): a wait it had goes on when it resumes. -/
def State.haltLane (s : State) (lk kind : Nat) (inHandler : Bool) : State :=
  let l := s.lane lk
  match l.st with
  | .ready =>
    (s.setLane lk { l with st := .halted none, haltReq := false, step := false }).laneTrace lk l.pc kind inHandler.toNat 0
  | .waiting w =>
    (s.setLane lk { l with st := .halted (some w), haltReq := false, step := false }).laneTrace lk l.pc kind
      inHandler.toNat 0
  | _ => s

/-- The lanes that a mask selects in a group. -/
def State.selected (s : State) (gk : Nat) (mask : DWord) : List Nat := (s.lanesOf gk).filter mask.getLsbD

/-- Results of a lane's windows are still to land. -/
def State.looksPending (s : State) (lk : Nat) : Bool :=
  s.o.pend.any (fun p => p.2.any (fun e => e.gk == gkLane lk && (e.lane :: e.also).contains (lk % 64) && e.dst != .none))

/-- A request that waits until a ready lane's results have landed (R364). -/
def State.haltWaits (s : State) (lk : Nat) : Bool := (s.lane lk).haltReq && !(s.lane lk).intrap && s.looksPending lk

/-- HALT (R364): a lane inside its in-line handler latches the request (R129), as does a ready lane whose results have not
landed. -/
def State.owlHaltLanes (s : State) (gk : Nat) (mask : DWord) : State :=
  (s.selected gk mask).foldl (fun s l =>
    let lk := lkOf gk l
    if (s.lane lk).intrap || ((s.lane lk).st == .ready && s.looksPending lk) then
      s.modLane lk (fun x => if liveLane x then { x with haltReq := true } else x)
    else s.haltLane lk 2 false) s

/-- A lane whose results have landed halts, where one is asked to. -/
def State.haltLanded (s : State) (lk : Nat) : State :=
  if (s.lane lk).haltReq && !(s.lane lk).intrap && (s.lane lk).st == .ready && !s.looksPending lk then s.haltLane lk 2 false
  else s

/-- A halted lane goes on: it is ready, or waits as it did, and fetches its packet anew, as memory stands at a stamp (R365). -/
def Lane.free (stamp : Nat) (past step : Bool) (x : Lane) : Lane :=
  match x.st with
  | .halted w => { x with
      st := (match w with | some w => .waiting w | none => .ready), past := past, step := step, codeFloor := stamp }
  | _ => x

/-- RESUME and STEP of the selected halted lanes (R364, R365); one back at a rejoin may be the last that it waits for
(R120, R222). -/
def State.owlFree (s : State) (gk : Nat) (mask : DWord) (past step : Bool) : State :=
  (s.selected gk mask).foldl (fun s l => (s.modLane (lkOf gk l) (Lane.free s.o.stamp past step)).rejoinBack (lkOf gk l)) s

def State.anyHalted (s : State) (gk : Nat) (mask : DWord) : Bool :=
  (s.selected gk mask).all (fun l => match (s.lane (lkOf gk l)).st with | .halted _ => true | _ => false)

/-- HALTSEQ, RESUMESEQ, STEPSEQ (R364). -/
def State.owlSeqHalt (s : State) (tk : Nat) : State :=
  let t := s.team tk
  if t.seq.st == .running then
    (s.setTeam tk { t with seq := { t.seq with st := .halted } }).seqTrace tk 2 0
  else s
def State.owlSeqFree (s : State) (tk : Nat) (past step : Bool) : State :=
  s.modTeam tk (fun t =>
    if t.seq.st == .halted then { t with seq := { t.seq with st := .running, past := past, step := step } } else t)

/-- The group that a command names: the oldest team of the context on the core with that group index (Table 23.2, log 31). -/
def State.owlFind (s : State) (core ctx gidx : Nat) : Option Nat :=
  (s.g.groups.find? (fun p => p.2.core == core && p.2.idx == gidx && (s.team p.2.tk).kern.ctx == ctx &&
    (s.team p.2.tk).live)).map (·.1)

/-- A command's effect on a group of a team (R364): its STATUS, and the group that it halts, plus 1. -/
def State.owlAct (s : State) (tk gk op : Nat) (past : Bool) (mask : DWord) : Nat × Nat × State :=
  let seq := (s.team tk).seq.st == .halted
  match op with
  | 1 => (0, gk + 1, s.owlHaltLanes gk mask)
  | 2 => if s.anyHalted gk mask then (0, 0, s.owlFree gk mask past false) else (2, 0, s)
  | 3 => if s.anyHalted gk mask then (0, 0, s.owlFree gk mask past true) else (2, 0, s)
  | 4 => (0, 0, s.owlSeqHalt tk)
  | 5 => if seq then (0, 0, s.owlSeqFree tk past false) else (2, 0, s)
  | 6 => if seq then (0, 0, s.owlSeqFree tk past true) else (2, 0, s)
  | _ => (1, 0, s)

/-- A command on a group of a die, taken: the port's bytes read 0 but for its STATUS (R328, R363). -/
def State.owlDo (s : State) (die tk gk op : Nat) (past : Bool) (mask : DWord) : State :=
  let r := s.owlAct tk gk op past mask
  r.2.2.setOwl die { (r.2.2.owl die) with cmd := BitVec.ofNat 128 r.1, halts := r.2.1 }

/-- The command staged at a die's port, taken. -/
def State.owlCommand (s : State) (die : Nat) (cmd : BitVec 128) : State :=
  let n := cmd.toNat
  match s.owlFind (bitField n 48 7) (bitField n 42 6) (bitField n 16 16) with
  | none => s.setOwl die { (s.owl die) with cmd := 1, halts := 0 }
  | some gk => s.owlDo die (s.group gk).tk gk (bitField n 56 8) (bitField n 55 1 == 1) (BitVec.ofNat 64 (bitField n 64 64))

/-- A halt that a die's last command asked of a group of a team has not taken effect at every lane. -/
def State.haltOpen (s : State) (die tk : Nat) : Bool :=
  let gk := (s.owl die).halts - 1
  (s.owl die).halts != 0 && tkOfGk gk == tk && (s.lanesOf gk).any (fun l => (s.lane (lkOf gk l)).haltReq)

/-- A kill drops the halts of a team that have not taken effect: STATUS then reads 3 (R355, R364). -/
def State.dropHalts (s : State) (tk : Nat) : State :=
  (List.range 4).foldl (fun s die =>
    if s.haltOpen die tk then s.setOwl die { (s.owl die) with cmd := 3, halts := 0 } else s) s

/-- The contexts whose root has EN = 1 (R299). -/
def State.ctxEn (s : State) (c : Nat) : Bool := (tget 0 s.x.roots c).getLsbD 0
def State.ctxPriv (s : State) (c : Nat) : Bool := (tget 0 s.x.roots c).getLsbD 1

/-- A grant of CLKLOCK locks the clock to a legal CLKMHZ (R362, Table 23.8). -/
def State.lockClock (s : State) (n : Nat) : State :=
  let mhz := bitField n 48 16
  if bitField n 0 1 == 1 && 1500 ≤ mhz && mhz ≤ 3000 && mhz % 100 == 0 then { s with r := { s.r with clock := mhz } } else s

/-- GRANT written by the hypervisor requester (R361, R370): a change of CTX, CLKLOCK or SOLO sends PROFILE_GRANTED to
every other context that exists. -/
def State.writeGrant (s : State) (die : Nat) (data : DWord) : State :=
  let o := s.owl die
  let n := data.toNat
  let v : DWord := BitVec.ofNat 64 (fld (bitField n 48 16) 48 16 + fld (bitField n 8 6) 8 6 + fld (bitField n 0 2) 0 2)
  let key (d : DWord) : Nat := bitField d.toNat 8 6 * 4 + bitField d.toNat 0 2
  let s := s.lockClock n
  if key v == key o.grant then s.setOwl die { o with grant := v }
  else
    let gseq := o.gseq + 1
    let s := s.setOwl die { o with grant := v, gseq := gseq }
    let ended := bitField n 0 2 == 0
    let src := if ended then o.grant.toNat else n
    let payload := fld gseq.toNat 32 32 + fld (2 ^ die) 20 4 + fld (bitField src 0 2) 18 2 + fld ended.toNat 17 1 +
      fld (bitField src 8 6) 0 6
    ((List.range 64).filter (fun c => s.ctxEn c && c != bitField src 8 6)).foldl
      (fun s c => s.sendEvent 7 (BitVec.ofNat 32 c) payload) s

end Sys2Proof.Machine
end

