-- ==== Sys2Proof/Machine/RegMap.lean ====
section
/-! DEFINITION. The on-chip map (R326): register pools, scratch pools, accumulator stores, core control blocks, Owl
blocks and fabric registers, each block as its bits, read and written by bytes. -/

namespace Sys2Proof.Machine

/-- Bytes of a block of bits. -/
def blockGet (bits off size : Nat) : Nat := bits / 2 ^ (8 * off) % 2 ^ (8 * size)
def blockPut (bits off size v : Nat) : Nat :=
  bits - blockGet bits off size * 2 ^ (8 * off) + v % 2 ^ (8 * size) * 2 ^ (8 * off)

/-- A read that holds nothing is none. -/
abbrev MapRead := Option (Nat × State)

/-- Banks of a role in BANKROLE (Table 9.2): 0 CACHE, 1 SCR, 2 REG, 3 OPND. -/
def banksOf (b : DWord) (role : Nat) : Nat := ((List.range 32).filter (fun i => bitField b.toNat (2 * i) 2 == role)).length
def bankBytes : Nat := 131072
def State.bankrole (s : State) (core : Nat) : DWord := tget 0 s.l.bankrole core
/-- A core with CACHE banks has an L1 (R216). -/
def State.hasL1 (s : State) (core : Nat) : Bool := banksOf (s.bankrole core) 0 > 0

/-! ### Core windows -/

/-- Teams that hold resources of a core: pre-empted teams have given theirs back (R16). -/
def State.teamsOn (s : State) (core : Nat) : List (Nat × Team) :=
  s.t.teams.filter (fun p => p.2.live && !p.2.saved && p.2.cores.contains core)

/-- The register that a byte of a core's register pool holds (R211): of the group placed there last, for the area of a pair
group whose lanes have exited may have been given out again. -/
def State.poolReg (s : State) (core o : Nat) : Option (Nat × Nat × Nat) :=
  let here := s.g.groups.filter (fun p => p.2.core == core && (s.team p.2.tk).live && !(s.team p.2.tk).saved &&
    p.2.regBase ≤ o && o < p.2.regBase + p.2.regs * p.2.width * 4)
  let last := here.foldl (fun (b : Option (Nat × Group)) p => match b with
    | some q => if q.2.born ≤ p.2.born then some p else b | none => some p) none
  last.map (fun p => (p.1, (o - p.2.regBase) / 4 % p.2.width, (o - p.2.regBase) / 4 / p.2.width))

/-- The team scratch byte that a byte of a core's scratch pool holds (R213, Table 18.10). -/
def State.poolScr (s : State) (core o : Nat) : Option (Nat × Nat) :=
  ((s.teamsOn core).find? (fun p =>
      (let k := p.2.cores.idxOf core
       let share := p.2.kern.scratch / p.2.cores.length
       p.2.scrBase.getD k 0 ≤ o && o < p.2.scrBase.getD k 0 + share))).map
    (fun p =>
      let k := p.2.cores.idxOf core
      (p.1, k * (p.2.kern.scratch / p.2.cores.length) + (o - p.2.scrBase.getD k 0)))

/-- The accumulator byte of a team that a byte of a core's store holds (R217). -/
def State.poolAcc (s : State) (core o : Nat) : Option (Nat × Nat × Nat) :=
  let regs (t : Team) : List Nat := t.accRegs.getD (t.cores.idxOf core) []
  ((s.teamsOn core).find? (fun p => (regs p.2).contains (o / 65536))).map
    (fun p => (p.1, p.2.cores.idxOf core, (regs p.2).idxOf (o / 65536) * 65536 + o % 65536))

/-- The core control block as bits (Table 23.10). -/
def State.coreBlock (s : State) (core : Nat) : Nat :=
  (s.bankrole core).toNat +
  ((List.range 16).map (fun n => (tget 0 s.w.cmps (core * 16 + n)).toNat * 2 ^ (8 * (0x100 + 8 * n)))).sum +
  ((List.range 8).map (fun n => (tget 0 s.w.bins (core * 8 + n)).toNat * 2 ^ (8 * (0x200 + 16 * n)))).sum +
  ((List.range 45).map (fun n => (tget 0 s.w.lcc (core * 64 + n)).toNat * 2 ^ (8 * (0x400 + 8 * n)))).sum +
  (s.cycles core).toNat * 2 ^ (8 * 0x600)

def coreBlockHas (o size : Nat) : Bool :=
  o + size ≤ 8 || (0x100 ≤ o && o + size ≤ 0x180) || (0x200 ≤ o && o + size ≤ 0x280) ||
  (0x300 ≤ o && o + size ≤ 0x308) || (0x400 ≤ o && o + size ≤ 0x568) || (0x600 ≤ o && o + size ≤ 0x608)

/-- Every lane-cycle counter of a core zeroed (R369). -/
def State.lcclear (s : State) (core : Nat) : State :=
  { s with w := { s.w with lcc := tclear s.w.lcc (core * 64) (core * 64 + 64) } }

/-- A write to the core control block: comparators, bins (RSV bits stay 0), LCCLEAR. -/
def State.writeCore (s : State) (core o size v : Nat) : State :=
  if 0x100 ≤ o && o < 0x180 then
    let n := (o - 0x100) / 8
    let b := blockPut (tget 0 s.w.cmps (core * 16 + n)).toNat (o % 8) size v
    { s with w := { s.w with cmps := tset 0 s.w.cmps (core * 16 + n) (BitVec.ofNat 64 b) } }
  else if 0x200 ≤ o && o < 0x280 then
    let n := (o - 0x200) / 16
    let b := blockPut (tget 0 s.w.bins (core * 8 + n)).toNat (o % 16) size v
    let b := fld (b / 2 ^ 121) 121 7 + fld b 0 60
    { s with w := { s.w with bins := tset 0 s.w.bins (core * 8 + n) (BitVec.ofNat 128 b) } }
  else if 0x300 ≤ o && o < 0x308 then s.lcclear core
  else s

/-! ### Owl die block (Table 23.7) -/

def State.owlBlock (s : State) (die : Nat) : Nat :=
  let w := s.owl die
  -- of the command port only STATUS reads: the other fields are WO or RSV (R6)
  w.grant.toNat + w.cmd.toNat % 65536 * 2 ^ (8 * 0x10) + w.sampctl.toNat * 2 ^ (8 * 0x20) + w.trbase.toNat * 2 ^ (8 * 0x40) +
    w.trlen.toNat * 2 ^ (8 * 0x48) + w.trprod.toNat * 2 ^ (8 * 0x4C) + w.trcons.toNat * 2 ^ (8 * 0x50)

/-- The registers of the block. -/
def owlBlockHas (o size : Nat) : Bool :=
  o + size ≤ 8 || (0x10 ≤ o && o + size ≤ 0x28) || (0x40 ≤ o && o < 0x54 && o + size ≤ 0x58)

/-- SAMPCTL as a write leaves it: SPERIOD clamped, RSV bits 0 (Table 23.9). -/
def sampWrite (n : Nat) : DWord :=
  BitVec.ofNat 64 (fld (bitField n 63 1) 63 1 + fld (max 256 (min (2 ^ 20) (bitField n 32 21))) 32 21 + fld n 0 6)

def State.writeOwl (s : State) (die o size v : Nat) (hyper : Bool) : State :=
  let w := s.owl die
  if o < 8 then (if hyper then s.writeGrant die (BitVec.ofNat 64 (blockPut w.grant.toNat o size v)) else s)
  else if 0x10 ≤ o && o < 0x20 then
    -- STATUS is read-only, and RSV bits stay 0 (R6, R7)
    let n := blockPut w.cmd.toNat (o - 0x10) size v
    let b : BitVec 128 := BitVec.ofNat 128 (w.cmd.toNat % 65536 + fld (bitField n 16 16) 16 16 + fld (bitField n 42 86) 42 86)
    if o - 0x10 ≤ 7 && 7 < o - 0x10 + size then s.owlCommand die b
    else s.setOwl die { w with cmd := b }
  else if 0x20 ≤ o && o < 0x28 then
    s.setOwl die { w with sampctl := sampWrite (blockPut w.sampctl.toNat (o - 0x20) size v) }
  else if 0x40 ≤ o && o < 0x48 then
    s.setOwl die { w with trbase := BitVec.ofNat 64 (blockPut w.trbase.toNat (o - 0x40) size v) }
  else if 0x48 ≤ o && o < 0x4C then
    s.setOwl die { w with trlen := BitVec.ofNat 32 (blockPut w.trlen.toNat (o - 0x48) size v) }
  else if 0x50 ≤ o && o < 0x54 then
    s.setOwl die { w with trcons := BitVec.ofNat 32 (blockPut w.trcons.toNat (o - 0x50) size v) }
  else s

/-! ### Fabric registers (Tables 19.1, 19.2) -/

def State.port (s : State) (p : Nat) : Port := tget {} s.f.ports p
def State.setPort (s : State) (p : Nat) (x : Port) : State := { s with f := { s.f with ports := tset {} s.f.ports p x } }

def Port.bits (p : Port) : Nat :=
  fld p.txctr.toNat 192 64 + fld p.rkgrace.toNat 160 32 + fld p.dltimer.toNat 128 32 + fld p.dlcount.toNat 96 32 +
  fld p.lanemap.toNat 54 18 + fld p.spares 52 2 + fld p.linkup.toNat 48 4 + fld p.peerdev 44 4 + fld p.keyst 38 2 +
  fld p.state 36 2

def State.fabBits (s : State) : Nat :=
  fld s.f.peeradmit.toNat 256 16 + ((List.range 16).map (fun g => fld (tget 0 s.f.mcgroup g) (16 * g) 16)).sum

/-- A LINK event with the port record (Table 19.5). -/
def State.linkEvent (s : State) (port cause via link lane : Nat) : State :=
  let p := s.port port
  s.sendEvent 8 noCtx
    (fld p.txctr.toNat 448 64 + fld p.dlcount.toNat 416 32 + fld cause 32 8 + fld port 28 4 + fld p.peerdev 24 4 +
      fld via 20 4 + fld link 18 2 + fld p.spares 16 2 + fld lane 10 5)

/-- A key written to a port's key register: the next key is installed (R343). -/
def State.installKey (s : State) (port : Nat) (key : BitVec 256) : State :=
  let p := s.port port
  s.setPort port { p with nextKey := key, keyst := 1 }

def State.fabRead (s : State) (o size : Nat) : MapRead :=
  if o + size ≤ 480 then
    let p := o / 32
    let r := blockGet (s.port p).bits (o % 32) size
    -- DLCOUNT (bytes 12-15) is cleared by the read
    if o % 32 ≤ 15 && 12 < o % 32 + size then some (r, s.setPort p { (s.port p) with dlcount := 0 }) else some (r, s)
  else if 0x400 ≤ o && o + size ≤ 0x400 + 480 then some (0, s)
  else if 0x800 ≤ o && o < 0x822 && o + size ≤ 0x828 then some (blockGet s.fabBits (o - 0x800) size, s)
  else none

def State.fabWrite (s : State) (o size v : Nat) : Option State :=
  if o + size ≤ 480 then
    let p := o / 32
    let x := s.port p
    let b := blockPut x.bits (o % 32) size v
    some (s.setPort p { x with
      rkgrace := BitVec.ofNat 32 (max 1 (bitField b 160 32)), dltimer := BitVec.ofNat 32 (max 1024 (bitField b 128 32)) })
  else if 0x400 ≤ o && o + size ≤ 0x400 + 480 then
    let p := (o - 0x400) / 32
    let x := s.port p
    let k : BitVec 256 := BitVec.ofNat 256 (blockPut x.nextKey.toNat (o % 32) size v)
    -- the write that covers the last byte completes the key
    if o % 32 + size = 32 then some (s.installKey p k) else some (s.setPort p { x with nextKey := k })
  else if 0x800 ≤ o && o < 0x822 && o + size ≤ 0x828 then
    let b := blockPut s.fabBits (o - 0x800) size v
    some { s with f := { s.f with
      peeradmit := BitVec.ofNat 16 (bitField b 256 16)
      mcgroup := tsetAll 0 s.f.mcgroup (List.range 16) (fun g => bitField b (16 * g) 16) } }
  else none

/-! ### The map -/

/-- Bytes read one by one through a lookup of single bytes. -/
def bytesFrom (f : Nat → Nat) (a : Nat) : Nat → Nat
  | 0 => 0
  | n + 1 => f a % 256 + 256 * bytesFrom f (a + 1) n

/-- A read of the on-chip map (Tables 18.9, 18.10); none where the address holds nothing. -/
def State.ocmRead (s : State) (a size : Nat) : MapRead :=
  let die := bitField a 38 2
  let core := die * 32 + bitField a 32 5
  let o := bitField a 0 28
  if bitField a 37 1 == 0 then
    match bitField a 28 4 with
    | 0 => if o + size ≤ banksOf (s.bankrole core) 2 * bankBytes then
        some (bytesFrom (fun b => match s.poolReg core b with
          | some (gk, l, n) => (s.vreg gk l n).toNat / 2 ^ (8 * (b % 4)) | none => 0) o size, s)
      else none
    | 1 => if o + size ≤ banksOf (s.bankrole core) 1 * bankBytes then
        some (bytesFrom (fun b => match s.poolScr core b with | some (tk, x) => s.scrRead tk x 1 | none => 0) o size, s)
      else none
    | 2 => if o + size ≤ 24 * 65536 then
        some (bytesFrom (fun b => match s.poolAcc core b with | some (tk, k, x) => s.accRead tk k x 1 | none => 0) o size, s)
      else none
    | 3 => if coreBlockHas o size && size ≥ 4 then some (blockGet (s.coreBlock core) o size, s) else none
    | _ => none
  else
    match bitField a 32 5 with
    | 0 => if owlBlockHas (bitField a 0 32) size && size ≥ 4 then some (blockGet (s.owlBlock die) (bitField a 0 32) size, s)
      else none
    | 1 => if die == 0 && size ≥ 4 then s.fabRead (bitField a 0 32) size else none
    | _ => none

/-- Bytes written one by one. -/
def writeBytes (f : State → Nat → Nat → State) (s : State) (a v : Nat) : Nat → State
  | 0 => s
  | n + 1 => writeBytes f (f s a (v % 256)) (a + 1) (v / 256) n

/-- A write to the on-chip map; none where the address holds nothing. -/
def State.ocmWrite (s : State) (a size v : Nat) (hyper : Bool) : Option State :=
  let die := bitField a 38 2
  let core := die * 32 + bitField a 32 5
  let o := bitField a 0 28
  if bitField a 37 1 == 0 then
    match bitField a 28 4 with
    | 0 => if o + size ≤ banksOf (s.bankrole core) 2 * bankBytes then
        some (writeBytes (fun s b x => match s.poolReg core b with
          | some (gk, l, n) =>
            let w := (s.vreg gk l n).toNat
            s.setV gk l n (BitVec.ofNat 32 (blockPut w (b % 4) 1 x))
          | none => s) s o v size)
      else none
    | 1 => if o + size ≤ banksOf (s.bankrole core) 1 * bankBytes then
        some (writeBytes (fun s b x => match s.poolScr core b with
          | some (tk, y) => s.scrWrite tk y 1 x | none => s) s o v size)
      else none
    | 2 => if o + size ≤ 24 * 65536 then
        some (writeBytes (fun s b x => match s.poolAcc core b with
          | some (tk, k, y) => s.accWrite tk k y 1 x | none => s) s o v size)
      else none
    | 3 => if coreBlockHas o size && size ≥ 4 then some (s.writeCore core o size v) else none
    | _ => none
  else
    match bitField a 32 5 with
    | 0 => if owlBlockHas (bitField a 0 32) size && size ≥ 4 then some (s.writeOwl die (bitField a 0 32) size v hyper) else none
    | 1 => if die == 0 && size ≥ 4 then s.fabWrite (bitField a 0 32) size v else none
    | _ => none

end Sys2Proof.Machine
end

