-- ==== Sys2Proof/Machine/XlatOps.lean ====
section
/-! DEFINITION. Translation: context roots, the walk of object table and extent map (R299-R303), extent caches and
the A and D bits (R304), merge tables (R307). -/

namespace Sys2Proof.Machine

/-! ### Context roots (Table 17.1) -/

def State.root (s : State) (ctx : Nat) : Nat := (tget 0 s.x.roots ctx).toNat
def rootTFrame (r : Nat) : Nat := bitField r 280 40
def rootTDie (r : Nat) : Nat := bitField r 274 2
def rootTLen (r : Nat) : Nat := bitField r 216 40
def rootOtCount (r : Nat) : Nat := bitField r 192 24

/-- The physical byte of an offset of the table area (R300). -/
def tableAddr (r off : Nat) : Nat := hbmBase (rootTDie r) + rootTFrame r * 65536 + off

/-! ### Object-table entries and page entries (Tables 17.2, 17.3) -/

structure ObjEntry where
  v : Bool
  size : Nat
  map : Nat
  type : Nat
  dpol : Nat
  rsv : Bool
  deriving DecidableEq, Repr

def objEntry (n : Nat) : ObjEntry :=
  { v := bitField n 164 1 == 1, size := bitField n 216 40, map := bitField n 176 40, type := bitField n 168 8
    dpol := bitField n 166 2, rsv := bitField n 165 1 != 0 || bitField n 0 164 != 0 }

/-- A malformed object-table entry (R301). -/
def ObjEntry.bad (e : ObjEntry) (tlen obj : Nat) : Bool :=
  e.rsv || e.type == 0 || e.type > 7 || e.dpol == 0 || (e.type == 3 && obj != 1) || e.map + 8192 > tlen

def pV (e : Nat) : Bool := bitField e 63 1 == 1
def pLOC (e : Nat) : Nat := bitField e 60 3
def pPOL (e : Nat) : Nat := bitField e 58 2
def pNC (e : Nat) : Bool := bitField e 57 1 == 1
def pW (e : Nat) : Bool := bitField e 56 1 == 1
def pD (e : Nat) : Bool := bitField e 55 1 == 1
def pA (e : Nat) : Bool := bitField e 54 1 == 1
def pL (e : Nat) : Bool := bitField e 53 1 == 1
def pUNIT (e : Nat) : Nat := bitField e 40 4
def pFRAME (e : Nat) : Nat := bitField e 0 40
/-- A page entry in all bits other than A and D (R304). -/
def pCore (e : Nat) : Nat := e - bitField e 54 2 * 2 ^ 54

def polOf (n : Nat) : Pol := match n with | 2 => .wt | 3 => .uc | _ => .wb

/-- Where the walk stops: the entry, its address, its level (0 top, 1 mid, 2 leaf), or a bad node. -/
structure Stop where
  e : Nat
  addr : Nat
  level : Nat
  bad : Bool
  deriving DecidableEq, Repr

/-- An entry that leads to the next node: a record whose RSV field is not zero is not acted on (R8), so that the walk stops at
it. -/
def pNext (e : Nat) : Bool := pV e && pLOC e == 6 && bitField e 44 9 == 0

/-- The entry of an extent map for an offset (R302). A node outside the table area is reported as bad; one off its alignment is
walked as it stands, for Table 17.4 does not list it. -/
def State.mapWalk (s : State) (r map off : Nat) : Stop :=
  let rd (o : Nat) : Nat := s.devRead (tableAddr r o) 8
  let tl := rootTLen r
  let oTop := map + 8 * bitField off 30 10
  let e0 := rd oTop
  if !(pNext e0 && !pL e0) then ⟨e0, tableAddr r oTop, 0, false⟩
  else if 256 * pFRAME e0 + 4096 > tl then ⟨e0, tableAddr r oTop, 0, true⟩
  else
    let oMid := 256 * pFRAME e0 + 8 * bitField off 21 9
    let e1 := rd oMid
    if !(pNext e1 && !pL e1) then ⟨e1, tableAddr r oMid, 1, false⟩
    else if 256 * pFRAME e1 + 256 > tl then ⟨e1, tableAddr r oMid, 1, true⟩
    else
      let oLeaf := 256 * pFRAME e1 + 8 * bitField off 16 5
      ⟨rd oLeaf, tableAddr r oLeaf, 2, false⟩

/-- A frame outside the memory of its UNIT (Table 17.4). -/
def frameBad (e : Nat) : Bool :=
  let n := if pL e then 32 else 1
  match pLOC e with
  | 0 => pUNIT e > 3 || (pFRAME e + n) * 65536 > hbmBytes
  | 1 => (pFRAME e + n) * 65536 > tier2Bytes
  | _ => false

/-- Table 17.4: malformed, a wait, or translated. -/
inductive WalkRes where
  | ok
  | wait (r : WaitReason)
  | bad
  deriving DecidableEq, Repr

def checkEntry (st : Stop) (kind : AccKind) : WalkRes :=
  let e := st.e
  if st.bad then .bad
  else if !pV e then .wait .invalid
  else if bitField e 44 9 != 0 || pLOC e == 7 || (pLOC e == 6) || (pL e && st.level != 1) ||
      (st.level == 0 && pLOC e != 6) || frameBad e then .bad
  else if pLOC e == 4 then .wait .absent
  else if pLOC e == 5 then .wait .migrating
  else if (kind == .write || kind == .atomic) && !pW e then .wait .write
  else .ok

/-- The outcome of a translation step. -/
inductive TRes where
  | ok (loc : Loc) (otype unit : Nat)
  | wait (r : WaitReason)
  | fail (code : Nat)
  deriving DecidableEq, Repr

/-- The location of an offset under a translated entry. -/
def locOf (e off dpol : Nat) : Loc :=
  let frame := pFRAME e + (if pL e then bitField off 16 5 else 0)
  let pol := polOf (if pPOL e == 0 then dpol else pPOL e)
  let a := frame * 65536 + off % 65536
  match pLOC e with
  | 0 => .dev (hbmBase (pUNIT e) + a) pol (pNC e)
  | 1 => .dev (tier2Base + a) pol (pNC e)
  | 2 => .peer (pUNIT e) a
  | _ => .host a

/-- The pairing of capability and object types (R301): whether a capability type reaches an object type. -/
def pairOk (ctype otype : Nat) : Bool :=
  (ctype == tMEM && (otype == 1 || otype == 2 || otype == 3)) ||
  (ctype == tPEER && (otype == 4 || otype == 5 || otype == 6)) || (ctype == tHOST && otype == 7)

/-- The entry of an extent cache that covers a page; a large page's entry covers all 32 of its pages (R304). -/
def XEntry.covers (x : XEntry) (place ctx obj page : Nat) : Bool :=
  x.place == place && x.ctx == ctx && x.obj == obj &&
    (if x.large then x.page / 32 == page / 32 else x.page == page)

def State.cached (s : State) (core ctx obj page : Nat) : Option XEntry :=
  (s.x.cache.find? (fun x => x.covers core ctx obj page)).orElse
    (fun _ => s.x.cache.find? (fun x => x.covers (128 + dieOf core) ctx obj page))

def State.dropEntry (s : State) (x : XEntry) : State :=
  { s with x := { s.x with cache := s.x.cache.filter (fun y => y != x) } }

/-- An entry put into a core's extent cache of 512 and its die's of 16,384, the oldest making room (R304). -/
def State.fillEntry (s : State) (core : Nat) (x : XEntry) : State :=
  let put (c : List XEntry) (place cap : Nat) : List XEntry :=
    let x := { x with place := place }
    let c := c.filter (fun y => !(y.covers place x.ctx x.obj x.page))
    let mine := c.filter (fun y => y.place == place)
    let c := if mine.length ≥ cap then (match mine with | y :: _ => c.filter (fun z => z != y) | [] => c) else c
    c ++ [x]
  { s with x := { s.x with cache := put (put s.x.cache core 512) (128 + dieOf core) 16384 } }

/-- The A and D update of a translation step (R304): the bits that the entry used lacks (R305); none when the entry in memory
has changed in another bit. -/
def State.setAD (s : State) (x : XEntry) (kind : AccKind) : Option State :=
  let e := x.entry.toNat
  let bits := (if pA e then 0 else 2 ^ 54) + (if kind != .read && !pD e then 2 ^ 55 else 0)
  if bits = 0 then some s
  else
    let m := s.devRead x.addr 8
    if pCore m != pCore e then none
    else
      let m' := m ||| bits
      let s := if m' == m then s else s.devWrite x.addr 8 m'
      let e' : DWord := BitVec.ofNat 64 (e ||| bits)
      some { s with x := { s.x with cache := s.x.cache.map (fun y =>
        if y.ctx == x.ctx && y.obj == x.obj && y.page == x.page && y.addr == x.addr then { y with entry := e' } else y) } }

/-- The walker: the entry for a page, or why there is none (R302, R303). -/
def State.walk (s : State) (core ctx obj off : Nat) (kind : AccKind) : Except TRes XEntry :=
  let r := s.root ctx
  if obj == 0 || obj ≥ rootOtCount r then .error (.fail fcOBJ_INVALID)
  else
    let oe := objEntry (s.devRead (tableAddr r (32 * obj)) 32)
    if !oe.v || oe.bad (rootTLen r) obj then .error (.fail fcOBJ_INVALID)
    else if off ≥ oe.size then .error (.fail fcOBJ_BOUNDS)
    else if oe.type == 3 then
      .ok { place := core, ctx := ctx, obj := obj, page := off / 65536, large := false, entry := 0, addr := 0
            otype := 3, dpol := 1, osize := oe.size }
    else
      let st := s.mapWalk r oe.map off
      match checkEntry st kind with
      | .bad => .error (.fail fcMAP_MALFORMED)
      | .wait w => .error (.wait w)
      | .ok => .ok { place := core, ctx := ctx, obj := obj, page := off / 65536, large := pL st.e
                     entry := BitVec.ofNat 64 st.e, addr := st.addr, otype := oe.type, dpol := oe.dpol, osize := oe.size }

/-- A fresh walk, the fill of the caches, and the A and D update. -/
def State.walkFill (s : State) (core ctx obj off : Nat) (kind : AccKind) : TRes × State :=
  match s.walk core ctx obj off kind with
  | .error r => (r, s)
  | .ok x =>
    if x.otype == 3 then (.ok (.dev (tableAddr (s.root ctx) off) .wb false) 3 0, s)
    else
      let s := s.fillEntry core x
      match s.setAD x kind with
      | some s => (.ok (locOf x.entry.toNat off x.dpol) x.otype (pUNIT x.entry.toNat), s)
      | none => (.fail fcMAP_MALFORMED, s)

/-- The translation step of an access (R269, R304). A cached entry whose A or D update fails, or that forbids the
write, is dropped and the step begins again with a walk. -/
def State.translate (s : State) (core ctx obj off : Nat) (kind : AccKind) : TRes × State :=
  match s.cached core ctx obj (off / 65536) with
  | none => s.walkFill core ctx obj off kind
  | some x =>
    if off ≥ x.osize then (.fail fcOBJ_BOUNDS, s)
    else if kind != .read && !pW x.entry.toNat then (s.dropEntry x).walkFill core ctx obj off kind
    else match s.setAD x kind with
      | some s => (.ok (locOf x.entry.toNat off x.dpol) x.otype (pUNIT x.entry.toNat), s)
      | none => (s.dropEntry x).walkFill core ctx obj off kind

/-! ### Merge tables (R307) -/

def reasonNo : WaitReason → Nat | .invalid => 1 | .absent => 2 | .migrating => 3 | .write => 4

def MergeEntry.is (m : MergeEntry) (die ctx obj page : Nat) : Bool :=
  m.die == die && m.ctx == ctx && m.obj == obj && m.page == page

/-- Who waits for a translation. -/
inductive Waiter where
  | group (gk lane : Nat)
  /-- a group whose pushing word completed a post (R194) -/
  | post (gk : Nat)
  | thread (th : Nat) (agent : Nat)
  | seq (tk : Nat)
  deriving DecidableEq, Repr

def MergeEntry.add (m : MergeEntry) : Waiter → MergeEntry
  | .post gk => if m.groups.contains gk then m else { m with groups := m.groups ++ [gk], posts := m.posts ++ [gk] }
  | .group gk _ => if m.groups.contains gk then m else { m with groups := m.groups ++ [gk] }
  | .thread th _ => if m.threads.contains th then m else { m with threads := m.threads ++ [th] }
  | .seq tk => if m.seqs.contains tk then m else { m with seqs := m.seqs ++ [tk] }

/-- The first-miss record (Table 17.5). -/
def State.missRecord (s : State) (m : MergeEntry) (w : Waiter) (kind : AccKind) (core : Nat) : Nat :=
  let (tk, grp, lane, tag, ag) := match w with
    | .group gk l => ((s.group gk).tk, (s.group gk).idx, l, 0, 0)
    | .post gk => ((s.group gk).tk, 0xFFFF, 0, 0, 2)
    | .thread th a => match s.thread th with
      | some x => (x.tk, 0xFFFF, 0, x.tag, a)
      | none => (0, 0xFFFF, 0, 0, a)
    | .seq tk => (tk, 0xFFFF, 0, 0, 2)
  let t := s.team tk
  fld (s.launchOf t.ln).serial 224 32 + fld t.idx 192 32 + fld grp 176 16 + fld lane 170 6 + fld tag 164 6 +
  fld ag 162 2 + fld (match kind with | .read => 0 | .write => 1 | .atomic => 2) 160 2 + fld core 153 7 +
  fld (reasonNo m.reason) 144 4 + fld m.obj 120 24 + fld m.page 96 24 + fld m.ctx 90 6

/-- An access that waits for a translation enters the merge table of its die: it joins its key's entry, or creates it
and sends the first-miss record, or waits outside a full table. -/
def State.mergeWait (s : State) (core ctx obj page : Nat) (r : WaitReason) (w : Waiter) (kind : AccKind) : State :=
  let die := dieOf core
  if s.x.merge.any (fun m => m.is die ctx obj page) then
    { s with x := { s.x with merge := s.x.merge.map (fun m => if m.is die ctx obj page then m.add w else m) } }
  else if (s.x.merge.filter (fun m => m.die == die)).length ≥ 1024 then s
  else
    let m := MergeEntry.add { die := die, ctx := ctx, obj := obj, page := page, reason := r, groups := [], threads := [], seqs := [] } w
    let s := { s with x := { s.x with merge := s.x.merge ++ [m] } }
    s.sendEvent 2 (BitVec.ofNat 32 ctx) (s.missRecord m w kind core)

/-- A waiter gone from every merge table (R310, R355). -/
def State.unwaitGroup (s : State) (gk : Nat) : State :=
  { s with x := { s.x with merge := s.x.merge.map (fun m => { m with
    groups := m.groups.filter (· != gk), posts := m.posts.filter (· != gk) }) } }

end Sys2Proof.Machine
end

