-- ==== Sys2Proof/Machine/MemOps.lean ====
section
/-! DEFINITION. Memory accesses: the checks of R139, the place each access is performed (Table 7.1), the events of
the ordering machine (R258-R268), Lynx (R266, R267), and what a performed event does. -/

namespace Sys2Proof.Machine

/-! ### Checks at issue (R139, R140) -/

/-- Types that a class of word accepts (Table 7.1). -/
def allowAll : List Nat := [1, 2, 3, 4, 5, 6, 7, 8]
def allowAtom : List Nat := [1, 2, 3, 7, 8]
def allowMc : List Nat := [1, 2, 3, 7, 8]
def allowRed : List Nat := [1, 2, 3, 7]

def capFault (code : Nat) (c : Cap) (off : Nat) : FaultInfo :=
  { code := code, off := off, obj := Cap.obj c, ctype := Cap.type c }

/-- Steps 1 to 3 of R139: check byte, type (an OCM capability needs a privileged context, R327), rights. -/
def State.capSteps13 (s : State) (ctx : Nat) (c : Cap) (allow : List Nat) (need : Nat) : Option Nat :=
  if !capOk c then some fcCAP_CHECK
  else if Cap.type c == 0 then some fcCAP_NULL
  else if !allow.contains (Cap.type c) then some fcCAP_TYPE
  else if Cap.type c == tOCM && !s.ctxPriv ctx then some fcCAP_TYPE
  else if !hasRights c need then some fcCAP_RIGHTS
  else none

/-- Step 4 of R139 for an extent. -/
def capBounds (c : Cap) (off n : Nat) : Bool := off + n ≤ Cap.len c && Cap.base c + off + n ≤ 2 ^ 40

/-- The five steps of R139 for an access of z bytes at a byte offset. -/
def State.capCheckAll (s : State) (ctx : Nat) (c : Cap) (allow : List Nat) (need off z : Nat) : Option FaultInfo :=
  match s.capSteps13 ctx c allow need with
  | some e => some (capFault e c off)
  | none =>
    if !capBounds c off z then some (capFault fcCAP_BOUNDS c off)
    else if (Cap.base c + off) % z != 0 then some (capFault fcMISALIGNED c off)
    else none

/-! ### Where an access is performed -/

inductive RRes where
  | ok (l : Loc)
  | wait (obj page : Nat) (r : WaitReason)
  | fault (f : FaultInfo)
  deriving DecidableEq, Repr

/-- The team that is a member of a team's gang (R246): the latest one with that index. -/
def State.member (s : State) (tk m : Nat) : Option Nat :=
  let t := s.team tk
  let i := t.idx / t.kern.gang * t.kern.gang + m
  ((s.t.teams.filter (fun p => p.2.ln == t.ln && p.2.idx == i)).getLast?).map (·.1)

/-- The port to a device (R329). -/
def State.portTo (s : State) (dev : Nat) : Port := s.port ((dev + 16 - s.h.devnum - 1) % 16)

/-- Whether a path to a device exists, direct or by detour (R329, R333, R341); a held port only holds its traffic. -/
def State.reaches (s : State) (dev : Nat) : Bool :=
  dev == s.h.devnum || (s.portTo dev).state == 2 || (s.portTo dev).state == 3 || (s.portTo dev).detour.isSome

/-- The windows a peer may reach (R332, R333): memory windows of the aperture. -/
def peerWindow (addr : Nat) : Bool := devHas addr 1 || (2 ^ 42 ≤ addr && addr < 2 ^ 42 + 2 ^ 40)

/-- Whether a destination refuses an access (R333): of this device PEERADMIT says; of a peer, a free value (log 2). -/
def State.refuses (s : State) (dev addr : Nat) : Bool × State :=
  if dev == s.h.devnum then (!(s.f.peeradmit.getLsbD dev) || !peerWindow addr, s)
  else let (v, s) := s.draw; (v.getLsbD 0, s)

/-- The members of a multicast group (R332), and those of them that refuse an access at an address, as a mask (R333). -/
def State.mcMembers (s : State) (g : Nat) : List Nat :=
  (List.range 16).filter (fun d => bitField (tget 0 s.f.mcgroup g) d 1 == 1)
def State.mcRefused (s : State) (g addr : Nat) : Nat × State :=
  (s.mcMembers g).foldl (fun (n, s) d =>
    if !s.reaches d then (n + 2 ^ d, s)
    else let (no, s) := s.refuses d addr; (if no then n + 2 ^ d else n, s)) (0, s)

/-- Why a member's slice is gone (Table 11.2): the detail of WINDOW_DEPARTED; none while it is present (R253). -/
def State.departed (s : State) (tk : Nat) : Option Nat :=
  let t := s.team tk
  match t.gst with
  | .resident | .leaving => none
  | .left => some (256 + t.idx % t.kern.gang)
  | .killed => some (512 + t.idx % t.kern.gang)

/-- A range of a GWIN capability lies in one member's reachable extent (R141, R248). -/
def State.gwinIn (s : State) (tk : Nat) (c : Cap) (off n : Nat) : Bool :=
  let a := Cap.base c + off
  let k := (s.team tk).kern
  Cap.type c != tGWIN || n == 0 || (a / 2 ^ 24 < k.gang && a % 2 ^ 24 + n ≤ k.scrBytes)

/-- A GWIN access (R141, R248, R254): the member's scratch, or why not. -/
def State.gwin (s : State) (tk : Nat) (c : Cap) (off size : Nat) : RRes :=
  let a := Cap.base c + off
  let m := a / 2 ^ 24
  let o := a % 2 ^ 24
  if !s.gwinIn tk c off size then .fault (capFault fcCAP_BOUNDS c off)
  else match s.member tk m with
    | none => .fault { capFault fcWINDOW_DEPARTED c off with detail := 256 + m }
    | some x => match s.departed x with
      | none => .ok (.scr x o)
      | some d => .fault { capFault fcWINDOW_DEPARTED c off with detail := d }

/-- The location of bytes of a capability for an agent of a team on a core (R327). `caps` is for LDCAP and STCAP,
which alone reach CAPS objects (R110); `red` for FRLEASE and FRED, which alone reach REDUCE objects (R332). -/
def State.resolve (s : State) (tk core : Nat) (c : Cap) (off size : Nat) (kind : AccKind) (caps red : Bool) : RRes × State :=
  let t := s.team tk
  let a := Cap.base c + off
  match Cap.type c with
  | 2 => if a + size ≤ t.kern.scratch then (.ok (.scr tk a), s) else (.fault (capFault fcCAP_BOUNDS c off), s)
  | 3 => (s.gwin tk c off size, s)
  | 4 => (.ok (.reg tk a), s)
  | 5 => if a + size ≤ t.kern.accb * 65536 then (.ok (.acc tk (t.cores.idxOf core) a), s)
    else (.fault (capFault fcCAP_BOUNDS c off), s)
  | 6 => if (s.ocmRead a size).isSome then (.ok (.ocm a), s) else (.fault (capFault fcCAP_BOUNDS c off), s)
  | ty =>
    let (r, s) := s.translate core t.kern.ctx (Cap.obj c) a kind
    match r with
    | .wait w => (.wait (Cap.obj c) (a / 65536) w, s)
    | .fail e => (.fault (capFault e c off), s)
    | .ok l ot unit =>
      if !pairOk ty ot || (ot == 2) != caps || (ot == 6) != red then (.fault (capFault fcCAP_OBJECT c off), s)
      else match l with
        | .peer _ x =>
          if ot == 5 then (.ok (.peer (16 + unit) x), s)
          else if !s.reaches unit then (.fault { capFault fcPEER_UNREACHABLE c off with detail := unit }, s)
          else if ot == 6 then (.ok (.peer unit x), s)
          else
            let (no, s) := s.refuses unit x
            if no then (.fault { capFault fcPEER_REFUSED c off with detail := unit }, s) else (.ok l, s)
        | _ => (.ok l, s)

/-! ### Raw reads and writes at a location -/

/-- Device memory and the on-chip map by aperture offset: what a host or peer access reaches (R321, R332). -/
def State.winRead (s : State) (addr size : Nat) : Nat × State :=
  if devHas addr size then (s.devRead addr size, s)
  else if 2 ^ 42 ≤ addr && addr + size ≤ 2 ^ 42 + 2 ^ 40 then (s.ocmRead (addr - 2 ^ 42) size).getD (0, s)
  else (0, s)
def State.winWrite (s : State) (addr size v : Nat) (hyper : Bool) : State :=
  if devHas addr size then s.devWrite addr size v
  else if 2 ^ 42 ≤ addr && addr + size ≤ 2 ^ 42 + 2 ^ 40 then (s.ocmWrite (addr - 2 ^ 42) size v hyper).getD s
  else s

/-- The newest bytes of a location, as an agent on a core reads them. A remote device's bytes are free values. -/
def State.readNow (s : State) (core : Nat) (l : Loc) (size : Nat) : Nat × State :=
  match l with
  | .dev a pol nc => if nc then s.ncRead (dieOf core) a size else s.devLoad a size (pol == .wb)
  | .scr tk o => (s.scrRead tk o size, s)
  | .reg tk o => (s.regRead tk o size, s)
  | .acc tk k o => (s.accRead tk k o size, s)
  | .ocm a => (s.ocmRead a size).getD (0, s)
  | .peer d a => if d == s.h.devnum then s.winRead a size else let (v, s) := s.draw; (v.toNat % 2 ^ (8 * size), s)
  | .host a => (readLE s.o.hostMem a size, s)

def State.writeNow (s : State) (core : Nat) (l : Loc) (size v : Nat) : State :=
  match l with
  | .dev a pol nc => if nc then s.ncWrite (dieOf core) a size v
    else ((s.l1Stored a size v (pol == .wb)).devPut a size v).l2Wrote (dieOf core) a
  | .scr tk o => s.scrWrite tk o size v
  | .reg tk o => s.regWrite tk o v size
  | .acc tk k o => s.accWrite tk k o size v
  | .ocm a => (s.ocmWrite a size v false).getD s
  | .peer d a =>
    -- a multicast location reaches this device's own frame when it is a member and admits itself (R332)
    let own := d == s.h.devnum || (d ≥ 16 && (s.mcMembers (d - 16)).contains s.h.devnum && s.f.peeradmit.getLsbD s.h.devnum &&
      peerWindow a)
    if own then s.winWrite a size v false else s
  | .host a => { s with o := { s.o with hostMem := writeLE s.o.hostMem a v size } }

/-- A location some bytes after another. -/
def Loc.shift (l : Loc) (d : Nat) : Loc :=
  match l with
  | .dev a p nc => .dev (a + d) p nc
  | .scr tk o => .scr tk (o + d)
  | .reg tk o => .reg tk (o + d)
  | .acc tk k o => .acc tk k (o + d)
  | .ocm a => .ocm (a + d)
  | .peer v a => .peer v (a + d)
  | .host a => .host (a + d)

/-- A location some bytes before another. -/
def Loc.back (l : Loc) (d : Nat) : Loc :=
  match l with
  | .dev a p nc => .dev (a - d) p nc
  | .scr tk o => .scr tk (o - d)
  | .reg tk o => .reg tk (o - d)
  | .acc tk k o => .acc tk k (o - d)
  | .ocm a => .ocm (a - d)
  | .peer v a => .peer v (a - d)
  | .host a => .host (a - d)

/-- Address space and byte of a location. -/
def Loc.space : Loc → Nat × Nat
  | .dev a _ _ => (0, a)
  | .host a => (1, a)
  | .ocm a => (2, a)
  | .peer d a => (3 + 8 * d, a)
  | .scr tk o => (4 + 8 * tk, o)
  | .reg tk o => (5 + 8 * tk, o)
  | .acc tk k o => (6 + 8 * coreKey tk k, o)

def overlaps (l : Loc) (n : Nat) (l' : Loc) (n' : Nat) : Bool :=
  l.space.1 == l'.space.1 && l.space.2 < l'.space.2 + n' && l'.space.2 < l.space.2 + n

/-- The place that a location is another name of: a page of this device's own windows, a pool of the on-chip map (R326,
R327). -/
def State.canon (s : State) (l : Loc) : Loc :=
  let ocm (a : Nat) : Loc :=
    let core := bitField a 38 2 * 32 + bitField a 32 5
    let o := bitField a 0 28
    if bitField a 37 1 == 1 then .ocm a
    else match bitField a 28 4 with
      | 0 => match s.poolReg core o with
        | some (gk, l, n) => .reg (tkOfGk gk) (gk % 2 ^ 24 * 32768 + (n * 64 + l) * 4 + o % 4)
        | none => .ocm a
      | 1 => match s.poolScr core o with | some (tk, x) => .scr tk x | none => .ocm a
      | 2 => match s.poolAcc core o with | some (tk, k, x) => .acc tk k x | none => .ocm a
      | _ => .ocm a
  match l with
  | .peer d a => if d != s.h.devnum then l else if devHas a 1 then .dev a .wb false else if 2 ^ 42 ≤ a then ocm (a - 2 ^ 42) else l
  | .ocm a => ocm a
  | l => l

/-- Two accesses cover a common byte, under whatever names (R260). -/
def State.common (s : State) (l : Loc) (n : Nat) (l' : Loc) (n' : Nat) : Bool := overlaps (s.canon l) n (s.canon l') n'

/-- The key of a location's byte. -/
def Loc.byte (l : Loc) : Nat := l.space.1 * 2 ^ 60 + l.space.2

/-- Locations whose stores go through a core buffer (Table 12.1). -/
def Loc.buffered : Loc → Bool | .dev _ _ _ => true | .peer _ _ => true | .host _ => true | _ => false
def Loc.leaves : Loc → Bool | .peer _ _ => true | .host _ => true | _ => false

/-! ### Agents, scopes, histories (R261-R263) -/

/-- The host's agent and that of a peer device. -/
def hostAgent : Nat := 2 ^ 201
def peerAgent (dev : Nat) : Nat := 2 ^ 201 + 1 + dev
def outsideAgent (a : Nat) : Bool := 2 ^ 201 ≤ a

def State.agentGk (s : State) (a : Nat) : Nat :=
  if a ≥ 2 ^ 200 then (match s.thread (a - 2 ^ 200) with | some t => t.gk | none => 0) else gkLane a
def State.agentTk (s : State) (a : Nat) : Nat :=
  if a ≥ 2 ^ 200 then (match s.thread (a - 2 ^ 200) with | some t => t.tk | none => 0) else tkOfGk (gkLane a)
/-- The core of an agent; a sequencer counts as on its team's lowest-numbered core. -/
def State.agentCore (s : State) (a : Nat) : Nat :=
  if a ≥ 2 ^ 200 then (match s.thread (a - 2 ^ 200) with | some t => t.core | none => 0)
  else if gkLane a % 2 ^ 24 == 2 ^ 24 - 1 then (s.team (tkOfGk (gkLane a))).cores.headD 0
  else (s.group (gkLane a)).core

/-- A store of the host or of a peer to device memory enters the system buffer (R271); it is performed at the line's home
die. -/
def State.enterSys (s : State) (a addr size v : Nat) : State :=
  let (id, s) := s.fresh
  let b : BufStore := { id := id, core := homeDie addr * 32, agent := a, loc := .dev addr .wb false, size := size
                        val := BitVec.ofNat 512 v, rel := [] }
  { s with o := { s.o with sbuf := tset none s.o.sbuf id (some b) } }

/-- Every host write made has been performed (R309, R321). -/
def State.hostQuiet (s : State) : Bool := s.o.sbuf.all (fun p => match p.2 with | some b => b.agent != hostAgent | none => true)

/-- What a host access other than a write to device memory does: it follows every host write before it (R309, R321), and is
no step while one is on its way. -/
def State.afterHost (s : State) (f : State → State) : State := if s.hostQuiet then f s else s

/-- The set that a scope names for agent a holds agent b (R261). -/
def State.inScope (s : State) (sc : Scope) (a b : Nat) : Bool :=
  sc == .sys || !(outsideAgent a || outsideAgent b) && match sc with
  | .grp => s.agentGk a == s.agentGk b
  | .team => s.agentTk a == s.agentTk b
  | .gang =>
    let x := s.team (s.agentTk a)
    let y := s.team (s.agentTk b)
    s.agentTk a == s.agentTk b || (x.ln == y.ln && x.kern.gang > 1 && x.idx / x.kern.gang == y.idx / x.kern.gang)
  | .dev | .sys => true

/-- The scope's set lies on one core. -/
def State.oneCore (s : State) (sc : Scope) (a : Nat) : Bool :=
  match sc with
  | .grp => true
  | .team => (s.team (s.agentTk a)).cores.length ≤ 1
  | _ => false

def State.hist (s : State) (a : Nat) : List Nat := tget [] s.o.hist a

/-- Stores added to a history; those that have long been visible everywhere need not be kept. -/
def State.addHist (s : State) (a : Nat) (ids : List Nat) : State :=
  let live (i : Nat) : Bool := (tget none s.o.cbuf i).isSome || (tget none s.o.sbuf i).isSome
  let h := (s.hist a ++ ids.filter (fun i => !(s.hist a).contains i)).filter live
  { s with o := { s.o with hist := tset [] s.o.hist a h } }

/-- A store is visible at a scope for an agent (R261). -/
def State.visible (s : State) (sc : Scope) (a id : Nat) : Bool :=
  match tget none s.o.cbuf id with
  | some b => s.oneCore sc a && b.core == s.agentCore a
  | none => sc != .sys || (tget none s.o.sbuf id).isNone

/-- An agent's release at a scope may be performed as far as its history goes (R263). -/
def State.histVisible (s : State) (sc : Scope) (a : Nat) : Bool := (s.hist a).all (s.visible sc a)

/-- An agent's pending events, oldest first. -/
def State.pendOf (s : State) (a : Nat) : List (Nat × MemEv) :=
  s.o.pend.filterMap (fun p => match p.2 with | some e => if e.agent == a then some (p.1, e) else none | none => none)

def MemEv.isFence (e : MemEv) : Bool :=
  match e.kind with | .fence => true | .otfence _ => true | .clean _ _ => true | _ => false

/-- The accesses of one issue that go in ascending lane order: its atomics, and its stores to the same bytes (R143,
R149). -/
def sameIssueFirst (x e : MemEv) : Bool :=
  x.issue == e.issue && (match x.kind, e.kind with
    | .atomic _ _ _ _, .atomic _ _ _ _ => true
    | .store, .store => x.tr.isSome || overlaps x.loc x.size e.loc e.size
    | .red _, .red _ => overlaps x.loc x.size e.loc e.size
    | _, _ => false)

/-- Whether two pending accesses may cover a common byte: of one that has still to be translated only its type of space is
known, and it may be any byte of that. -/
def State.mayMeet (s : State) (x e : MemEv) : Bool :=
  if x.tr.isSome || e.tr.isSome then (x.tr.isSome || x.loc.space.1 % 8 < 4) && (e.tr.isSome || e.loc.space.1 % 8 < 4)
  else s.common x.loc x.size e.loc e.size

/-- Traffic to a location goes now: it waits while a port is held, or has lost its path (R334, R343). -/
def State.pathOpen (s : State) (l : Loc) : Bool :=
  match l with
  | .peer d _ =>
    if d < 16 then d == s.h.devnum || (s.portTo d).state == 2 || (s.portTo d).detour.isSome
    else (s.mcMembers (d - 16)).all (fun e => e == s.h.devnum || (s.portTo e).state != 3 || (s.portTo e).detour.isSome)
  | _ => true

/-- R260: an event may go ahead of the agent's earlier pending events; and its turn within its issue has come. -/
def State.mayGo (s : State) (k : Nat) (e : MemEv) : Bool :=
  s.pathOpen e.loc && !(s.team (s.agentTk e.agent)).saved &&
  (s.pendOf e.agent).all (fun p => p.1 ≥ k ||
    !(s.mayMeet p.2 e || p.2.acq.isSome || p.2.isFence || e.rel.isSome || e.isFence)) &&
  s.o.pend.all (fun p => p.1 ≥ k || (match p.2 with | some x => !sameIssueFirst x e | none => true))

/-- A lane's word that is ordered after its acquires and fences must wait for them (R147). -/
def State.acqPending (s : State) (a : Nat) : Bool := (s.pendOf a).any (fun p => p.2.acq.isSome || p.2.isFence)

/-- A release of a lane that has no location of its own may be performed (R263). -/
def State.relReady (s : State) (sc : Scope) (a : Nat) : Bool := (s.pendOf a).isEmpty && s.histVisible sc a

/-! ### Acquire actions (R264, R265) and joins (R268) -/

/-- A lane's acquire at DEVICE or SYSTEM scope is noted for its later fetches (R131). -/
def State.acquiredAt (s : State) (sc : Scope) (a : Nat) : State :=
  if (sc == .dev || sc == .sys) && a < 2 ^ 200 && gkLane a % 2 ^ 24 != 2 ^ 24 - 1 then
    s.modLane a (fun l => { l with acquired := s.o.stamp })
  else s

/-- The view action of an acquire: nothing when the scope's set lies on one core. -/
def State.acquireView (s : State) (sc : Scope) (a : Nat) : State :=
  if s.oneCore sc a then s else (s.acquiredAt sc a).raiseFloor (s.agentCore a)

/-- The releases that stand at the bytes of an access. -/
def State.relsAt (s : State) (l : Loc) (size : Nat) : List Release :=
  (List.range size).flatMap (fun i => tget [] s.o.rels (l.byte + i))

/-- Synchronisation with the releases that stand at a location (R264). -/
def State.syncWith (s : State) (sc : Scope) (a : Nat) (l : Loc) (size : Nat) : State :=
  (s.relsAt (s.canon l) size).foldl (fun s r =>
    if s.inScope r.scope r.agent a && s.inScope sc a r.agent then s.addHist a r.hist else s) s

/-- What stands as a release at the bytes of a store: its own releases, or nothing (R264). -/
def State.setRel (s : State) (l : Loc) (size : Nat) (rs : List Release) : State :=
  let l := s.canon l
  { s with o := { s.o with rels := (List.range size).foldl (fun t i => tset [] t (l.byte + i) rs) s.o.rels } }

def MemEv.isStore (e : MemEv) : Bool :=
  match e.kind with | .store => true | .atomic _ _ _ _ => true | .red _ => true | _ => false

/-- The releases of earlier fences that a store carries: those of every fence since the agent's last store, if the store
is the first after them in program order (R265). -/
def State.takeFence (s : State) (a k : Nat) : List (Scope × List Nat) × State :=
  if (s.pendOf a).any (fun p => p.1 < k && p.2.isStore) then ([], s)
  else (tget [] s.o.fences a, { s with o := { s.o with fences := tset [] s.o.fences a [] } })

def releasesOf (a : Nat) (rs : List (Scope × List Nat)) : List Release :=
  rs.map (fun r => { agent := a, scope := r.1, hist := r.2 })

/-! ### Lynx (R266, R267) -/

/-- Where a line's entries are held, and the line; none for locations that are not recorded. A line of scratch is a
512-byte unit of its core's scratch pool, whichever team holds it. -/
def State.lynxPlace (s : State) (core : Nat) : Loc → Option (Nat × Nat)
  | .dev a _ nc =>
    let die := if nc then dieOf core else homeDie a
    some (128 + 384 * die + sliceOf (lineNo a), a / 512 * 16)
  | .scr tk o =>
    let t := s.team tk
    let share := max 1 (t.kern.scratch / max 1 t.cores.length)
    let k := o / share
    some (t.cores.getD k 0, ((t.scrBase.getD k 0 + o % share) / 512) * 16 + 1)
  | _ => none

/-- A synchronising access: mismatch, or the access recorded (an access without a place is not recorded). -/
def State.lynxCheck (s : State) (a : Nat) (sc : Scope) (l : Loc) : Option State :=
  match s.lynxPlace (s.agentCore a) l with
  | none => some s
  | some (pl, line) =>
    let new : LynxEntry := { place := pl, line := line, scope := sc, agent := a }
    let rest := s.o.lynx.filter (fun e => !(e.place == pl && e.line == line))
    let ok := match s.o.lynx.find? (fun e => e.place == pl && e.line == line) with
      | some e => s.inScope sc a e.agent && s.inScope e.scope e.agent a
      | none => true
    if !ok then none
    else
      let mine := rest.filter (fun e => e.place == pl)
      let rest := if mine.length ≥ 256 then (match mine with | e :: _ => rest.erase e | [] => rest) else rest
      some { s with o := { s.o with lynx := rest ++ [new] } }

/-! ### Atomics (Table 7.5) -/

/-- The new value of a location and, for CAS, whether it was written. -/
def atomNew (op : Aop) (old v v2 : Nat) : Nat × Bool :=
  let o : Word := BitVec.ofNat 32 old
  let x : Word := BitVec.ofNat 32 v
  match op with
  | .addB32 => ((o + x).toNat, true)
  | .addF32 => (engAdd (old % 2 ^ 32) (v % 2 ^ 32), true)
  | .addB64 => ((old + v) % 2 ^ 64, true)
  | .minI32 => ((if o.sle x then o else x).toNat, true)
  | .minN32 => ((if o.ule x then o else x).toNat, true)
  | .maxI32 => ((if x.sle o then o else x).toNat, true)
  | .maxN32 => ((if x.ule o then o else x).toNat, true)
  | .andB32 => ((o &&& x).toNat, true)
  | .orB32 => ((o ||| x).toNat, true)
  | .xorB32 => ((o ^^^ x).toNat, true)
  | .exch => (x.toNat, true)
  | .cas => if o == x then (v2 % 2 ^ 32, true) else (o.toNat, false)
  | .rst => (x.toNat, true)

def aopSize (op : Aop) : Nat := match op with | .addB64 => 8 | _ => 4

/-- The combining of STRED (R154): 0 add.f32, 1 add.b32, 2 max.f32. -/
def redNew (op old v : Nat) : Nat :=
  match op with
  | 0 => engAdd old v
  | 1 => (old + v) % 2 ^ 32
  | _ => engMinMax true old v

/-! ### Landing -/

/-- A value extended to 32 bits, or a pair (Table 7.2, R21). -/
def extendTo (v ext : Nat) (signed : Bool) : Word :=
  if signed then (BitVec.ofNat ext v).signExtend 32 else BitVec.ofNat 32 (v % 2 ^ ext)

def dstWords (v regs ext : Nat) (signed : Bool) : List Word :=
  if regs = 1 then [extendTo v ext signed] else [BitVec.ofNat 32 v, BitVec.ofNat 32 (v / 2 ^ 32)]

/-- The windows and registers of an event's lanes once it has landed. -/
def State.landed (s : State) (k : Nat) (gk : Nat) : State :=
  (s.lanesOf gk).foldl (fun s l =>
    if (s.lane (lkOf gk l)).windows.any (fun w => w.ev == k) then
      s.modLane (lkOf gk l) (fun x => { x with windows := x.windows.map (fun w => if w.ev == k then { w with ev := 0 } else w) })
    else s) s

def State.writeReg (s : State) (e : MemEv) (v : Nat) : State :=
  match e.dst with
  | .none => s
  | .v n regs ext sg => s.writeVs e.gk e.lane n (dstWords v regs ext sg)
  | .s n regs ext sg => s.writeSs e.gk n (dstWords v regs ext sg)
  | .c n => s.setC e.gk n (BitVec.ofNat 128 v)
  -- RET: the lane takes the popped packet and goes on (R118); a halted lane's wait is over
  | .ret => s.modLane (lkOf e.gk e.lane) (fun l => { (l.take { pkt := v % 2 ^ 30, slot := 0 }) with
      lanesp := l.lanesp - 4
      st := match l.st with | .waiting _ => .ready | .halted _ => .halted none | x => x })

/-- The failures of a translation step (R50, R303, R310). -/
def transFault (code : Nat) : Bool := 0x0601 ≤ code && code ≤ 0x0605

/-- An event leaves its agent's list. -/
def State.unpend (s : State) (k : Nat) : State := { s with o := { s.o with pend := tset none s.o.pend k none } }

/-- The words of its window that a lane has issued since the word of an event (R50). -/
def Lane.issuedSince (l : Lane) (k : Nat) : Nat :=
  match l.windows.find? (fun w => w.ev == k) with | some w => w.issued | none => 0

/-- A failure found after the word issued (R50): the lane parks at the word, and continues where it stood. WIN is that of a
translation failure, and 0 for every other fault (Table 22.1). While a lane is parked, or runs such a word again, the access
stays pending; an ended lane takes no fault. -/
def State.lateFault (s : State) (k : Nat) (e : MemEv) (f : FaultInfo) : State :=
  let x := s.lane (lkOf e.gk e.lane)
  if e.gk % 2 ^ 24 == 2 ^ 24 - 1 then (s.unpend k).raiseSeq (tkOfGk e.gk) f
  else match x.st with
    | .parked _ => s
    | .exited => (s.unpend k).landed k e.gk
    | _ =>
      if x.resume.isSome then s
      else
        -- the capability that LDCAP loads is the group's: each of its lanes takes the fault (R108)
        let all := match e.dst with | .c _ => e.lane :: e.also | _ => [e.lane]
        let go (s : State) (m : Nat) : State :=
          let lk := lkOf e.gk m
          let n := (s.lane lk).issuedSince k
          let s := if n > 0 then s.modLane lk (fun x => { x with resume := some x.pc })
            else s.modLane lk (fun x => { x with windows := x.windows.filter (·.ev != k) })
          s.raise lk { pkt := e.pkt, slot := e.slot } { f with win := if transFault f.code then n else 0 }
        (all.foldl go (s.unpend k)).landed k e.gk

/-! ### Performing events (R259) -/

/-- A core's view of the bytes of a location raised to the newest store there; a store through a WT or UC mapping leaves
the view of the WB location as it is (R258, R313). -/
def State.seen (s : State) (core : Nat) (l : Loc) (size : Nat) : State :=
  match l with
  | .dev a .wb nc => let x := ordAddr core a nc; s.raiseView core x size (s.newest x)
  | _ => s

/-- The store of a performed event: through the core buffer, or straight to its location. -/
def State.putStore (s : State) (ev a core : Nat) (l : Loc) (size v : Nat) : State :=
  let (f, s) := s.takeFence a ev
  if l.buffered then
    let (id, s) := s.fresh
    let b : BufStore := { id := id, core := core, agent := a, loc := l, size := size, val := BitVec.ofNat 512 v
                          rel := f, ev := ev, ctx := (s.team (s.agentTk a)).kern.ctx }
    ({ s with o := { s.o with cbuf := tset none s.o.cbuf id (some b) } }).addHist a [id]
  else
    (s.writeNow core l size v).setRel l size (releasesOf a f)

/-- Bytes of buffered stores laid over a value, oldest first. -/
def overlay (l : Loc) (size : Nat) (bs : List BufStore) (v : Nat) : Nat :=
  bs.foldl (fun v b =>
    (List.range size).foldl (fun v i =>
      let p := l.space.2 + i
      if b.loc.space.1 == l.space.1 && b.loc.space.2 ≤ p && p < b.loc.space.2 + b.size then
        blockPut v i 1 (blockGet b.val.toNat (p - b.loc.space.2) 1) else v) v) v

/-- The stores of a core's buffer, oldest first. -/
def State.coreBuf (s : State) (core : Nat) : List BufStore :=
  s.o.cbuf.filterMap (fun p => match p.2 with | some b => if b.core == core then some b else none | none => none)
/-- Those of them that cover a byte of an access. -/
def State.coreBufAt (s : State) (core : Nat) (l : Loc) (size : Nat) : List BufStore :=
  (s.coreBuf core).filter (fun b => s.common b.loc b.size l size)

/-- LOAD of Table 12.2, step 3. `pick` says how many stores before the newest a stale read may go. -/
def State.loadValue (s : State) (a core : Nat) (l : Loc) (size pick : Nat) (nol1 : Bool) : Nat × State :=
  let own := s.coreBufAt core l size
  let (v, s) := match l with
    | .dev x .wb nc => if !nol1 && s.hasL1 core && x % 16 + size ≤ 16 then s.viewRead core x size pick nc
        else s.readNow core l size
    | _ => s.readNow core l size
  (overlay (s.canon l) size (own.map (fun b => { b with loc := s.canon b.loc })) v, s.addHist a (own.map (·.id)))

/-- An entry of a core buffer drains (step 2): to device memory, where the core's view rises to it, or to the system
buffer. -/
def State.drainStore (s : State) (id : Nat) (b : BufStore) : State :=
  let s := { s with o := { s.o with cbuf := tset none s.o.cbuf id none } }
  if b.loc.leaves then { s with o := { s.o with sbuf := tset none s.o.sbuf id (some b) } }
  else
    let t := ((s.writeNow b.core b.loc b.size b.val.toNat).setRel b.loc b.size (releasesOf b.agent b.rel)).seen b.core b.loc b.size
    match b.loc with
    | .dev a .wb false => if s.hasL1 b.core then t.setL1 b.core a (some (s.l1Dirty b.core a b.size b.val.toNat)) else t
    | _ => t

/-- No older entry of the buffer covers the location, and the releases it carries may go (R259 step 2, R265). -/
def State.mayDrain (s : State) (id : Nat) (b : BufStore) : Bool :=
  (s.coreBuf b.core).all (fun o => o.id ≥ id || !s.common o.loc o.size b.loc b.size) &&
  b.rel.all (fun r => r.2.all (s.visible r.1 b.agent))

/-- A poisoned byte under a device location (R353). -/
def State.hitsPoison (s : State) (l : Loc) (size : Nat) : Option FaultInfo :=
  match l with
  | .dev a _ _ => if s.poisoned a size then
      some { code := fcMEM_POISON, detail := lineNo a, aux := sectorNo a } else none
  | _ => none

end Sys2Proof.Machine
end

