-- ==== Sys2Proof/Machine/Operands.lean ====
section
/-! DEFINITION. Operand forms: what each lane word reads and writes, the operand rules of R51 and R53, how sources
are read and destinations written, pipe classes, lookahead fields, and the chain rule of R46. -/

namespace Sys2Proof.Machine

/-- One use of an operand field. -/
inductive Use where
  /-- a source of n registers (Table 3.1) -/
  | r (c : Opc) (n : Nat)
  /-- a destination of n registers; with n = 1 it may push a queue -/
  | w (c : Opc) (n : Nat)
  /-- a destination that must be a register (R146) -/
  | wn (c : Opc) (n : Nat)
  /-- a register or run of registers read and written (R75); n written, the first m of them read -/
  | rw (c : Opc) (n m : Nat)
  /-- a source that may not be a queue register (R117) -/
  | rq (c : Opc)
  /-- an s register or a special (R106); -/
  | rs (c : Opc)
  /-- an s register or `zero` (Table 5.8) -/
  | sz (c : Opc)
  /-- a block of n s registers, of an even number when `even` (R158, R105), the last k of them written -/
  | sb (c : Opc) (n : Nat) (even : Bool) (k : Nat)
  /-- a run of n v registers read (R162, R184) -/
  | run (c : Opc) (n : Nat)
  /-- a capability register read; written (R53) -/
  | cr (c : Nat)
  | cw (c : Nat)
  /-- a literal below a limit (R53, R119) -/
  | lim (c : Nat) (n : Nat)
  /-- a queue code read without popping (R164) -/
  | qc (c : Opc)
  deriving DecidableEq, Repr

def isV (c : Opc) : Bool := c.toNat < 96
def isS (c : Opc) : Bool := 96 ≤ c.toNat && c.toNat < 112
def isQ (c : Opc) : Bool := 112 ≤ c.toNat && c.toNat < 120
def isSpec (c : Opc) : Bool := 120 ≤ c.toNat

/-- A v or s register run of n that starts even when n > 1 and stays in the budget or within s15 (R53). -/
def regRun (budget : Nat) (c : Opc) (n : Nat) (even : Bool) : Bool :=
  (!even || c.toNat % 2 == 0) &&
  ((isV c && c.toNat + n ≤ budget && c.toNat + n ≤ 96) || (isS c && c.toNat + n ≤ 112))

/-- The operand rules of R51 and R53 for a role budget; false raises ILLEGAL_OPERAND. -/
def Use.ok (budget : Nat) : Use → Bool
  | .r c n => regRun budget c n (n > 1) || isSpec c || (n == 1 && c == 113)
  | .w c n => regRun budget c n (n > 1) || (n == 1 && (c == 112 || c == 114 || c == 115 || c == 116))
  | .wn c n => regRun budget c n (n > 1)
  | .rw c n _ => regRun budget c n (n > 1)
  | .rq c => regRun budget c 1 false || isSpec c
  | .rs c => isS c || isSpec c
  | .sz c => isS c || c == 120
  | .sb c n even _ => isS c && regRun budget c n even
  | .run c n => regRun budget c n false
  | .cr c => c < 8
  | .cw c => c < 8
  | .lim c n => c < n
  | .qc c => 112 ≤ c.toNat && c.toNat ≤ 116

/-- Operand codes from c up, n of them. -/
def codes (c : Opc) (n : Nat) : List Nat := (List.range n).map (c.toNat + ·)

/-- Registers read: v and s codes; a capability register n as 128 + n. -/
def Use.reads : Use → List Nat
  | .r c n => if isSpec c || isQ c then [] else codes c n
  | .rw c _ m => codes c m
  | .rq c => if isSpec c then [] else codes c 1
  | .rs c => if isSpec c then [] else codes c 1
  | .sz c => if isSpec c then [] else codes c 1
  | .sb c n _ k => codes c (n - k)
  | .run c n => codes c n
  | .cr c => [128 + c]
  | _ => []

/-- Registers written; a pushed queue counts as one. -/
def Use.writes : Use → List Nat
  | .w c n => codes c n
  | .wn c n => codes c n
  | .rw c n _ => codes c n
  | .sb c n _ k => (codes c n).drop (n - k)
  | .cw c => [128 + c]
  | _ => []

/-- Registers of a conversion type (R88). -/
def regsOfTy : CTy → Nat | .i64 => 2 | .n64 => 2 | _ => 1
/-- Registers of an atomic's operand (Table 7.5). -/
def regsOfAop : Aop → Nat | .addB64 => 2 | .cas => 2 | _ => 1

/-- What each lane word reads and writes. M-words, E-words and events use no operand codes. -/
def uses : Instr → List Use
  | .iadd _ d a b | .isub _ d a b | .imul _ d a b | .imulh _ d a b _ | .imin _ d a b _ | .imax _ d a b _
  | .and _ d a b | .or _ d a b | .xor _ d a b | .shl _ d a b | .shr _ d a b | .sar _ d a b | .icmp _ d a b _
  | .bfxN _ d a b | .bfxI _ d a b | .iaddBh _ d a b _ | .isubBh _ d a b _ | .iminBh _ d a b _ | .imaxBh _ d a b _
  | .fadd _ d a b _ | .fsub _ d a b _ | .fmul _ d a b _ | .fmin _ d a b | .fmax _ d a b | .fcmp _ d a b _
  | .hadd2 _ d a b _ | .hmul2 _ d a b _ | .hmax2 _ d a b _ | .div _ d a b | .idivI _ d a b | .idivN _ d a b
  | .iremI _ d a b | .iremN _ d a b | .cvtn _ d a b _ | .cvtw _ d a b _ | .shfl _ d a b _ _ =>
    [.w d 1, .r a 1, .r b 1]
  | .ineg _ d a | .iabs _ d a | .mov _ d a | .clz _ d a | .popc _ d a | .brev _ d a | .fabs _ d a | .fneg _ d a
  | .frnd _ d a _ | .fclass _ d a | .rcp _ d a | .rsq _ d a | .sqrt _ d a | .exp2 _ d a | .log2 _ d a | .sin _ d a
  | .cos _ d a | .tanh _ d a | .iaddi _ d a _ | .andi _ d a _ | .ori _ d a _ | .xori _ d a _ | .lred _ d a _
  | .lscan _ d a _ _ | .vote _ d a _ => [.w d 1, .r a 1]
  | .sel _ d a b | .imad _ d a b | .bfi _ d a b | .ffma _ d a b _ | .hfma2 _ d a b _ | .fdot2h _ d a b _ =>
    [.rw d 1 1, .r a 1, .r b 1]
  | .imadwI _ d a b | .imadwN _ d a b => [.rw d 2 2, .r a 1, .r b 1]
  | .iadd64 _ d a b => [.w d 2, .r a 2, .r b 2]
  | .shl64 _ d a b | .bpslice _ d a b => [.w d 2, .r a 2, .r b 1]
  | .movi _ d _ | .movl d _ | .rand _ d | .randn _ d | .sread _ d _ | .gangleave _ d _ => [.w d 1]
  | .cvt _ d a e _ _ y => [.w d (regsOfTy e), .r a (regsOfTy y)]
  | .smxupd _ d a => [.rw d 4 2, .r a 1]
  | .smxmrg _ d a => [.rw d 4 2, .r a 2]
  | .smxfin _ d a => [.w d 1, .r a 2]
  | .voteBallot _ d a | .matcheq _ d a => [.w d 2, .r a 1]
  | .bppack _ d a b => [.w d 2, .r a 1, .r b 1]
  | .bpunpack _ d a b => [.w d 1, .r a 2, .r b 1]
  | .bpdot _ d a b => [.rw d 1 1, .r a 2, .r b 2]
  | .ld _ d a k _ _ w => [.wn d (if w then 2 else 1), .r a 1, .cr k.toNat]
  | .ldNarrow _ d a k _ _ _ | .ldacq _ d a k _ _ => [.wn d 1, .r a 1, .cr k.toNat]
  | .st _ v a k _ _ w => [.r v (if w = .b64 then 2 else 1), .r a 1, .cr k.toNat]
  | .strel _ v a k _ _ | .cwb _ v a k _ | .cinv _ v a k _ | .pref _ v a k _ | .stmc _ v a k _
  | .stredAddF32 _ v a k _ | .stredAddB32 _ v a k _ | .stredMaxF32 _ v a k _ => [.r v 1, .r a 1, .cr k.toNat]
  | .atom _ v a k _ _ u => [.r v (regsOfAop u), .r a 1, .cr k.toNat]
  | .atomr _ d a k _ u | .atomrOrdered _ d a k _ _ u => [.rw d (regsOfAop u) (regsOfAop u), .r a 1, .cr k.toNat]
  | .cas _ d a k _ => [.rw d 2 2, .r a 1, .cr k.toNat]
  | .atomrst _ d a k _ => [.rw d 1 1, .r a 1, .cr k.toNat]
  | .copy _ _ p q a => [.sb a 6 true 0, .cr p.toNat, .cr q.toNat]
  | .copy2d _ _ p q a | .chain _ _ p q a => [.sb a 8 true 0, .cr p.toNat, .cr q.toNat]
  | .gather _ _ q a => [.r a 1, .cr q.toNat]
  | .scatter _ _ p a | .scatadd _ _ p a _ => [.run a 2, .cr p.toNat]
  | .fbulk _ _ p q a => [.sb a 6 true 0, .cr p.toNat, .cr q.toNat]
  | .frlease _ _ p q a => [.sb a 4 true 0, .cr p.toNat, .cr q.toNat]
  | .fred _ _ p a => [.sb a 2 true 0, .cr p.toNat]
  | .twait _ d a _ | .tfirst _ d a => [.w d 1, .r a 2]
  | .ttest _ d a => [.w d 2, .r a 2]
  | .tclr _ a => [.r a 2]
  | .qstat _ d a => [.w d 1, .qc a]
  | .commit _ d a | .launch _ d a | .lwait _ d a | .lstat _ d a | .pairstat _ d a | .gangack _ d a | .gstat _ d a
  | .faultrec _ d a | .lkill _ d a => [.w d 1, .r a 1]
  | .lresume _ d a n => [.w d 1, .r a 1, .lim n.toNat 2]
  | .arrset _ a b => [.r a 1, .r b 1]
  | .arrwait _ a | .waitc _ a | .swrite _ a _ | .event _ a _ => [.r a 1]
  | .pairgo _ _ q a => [.sb a 1 false 0, .cr q.toNat]
  | .pairrelaunch _ q a => [.sb a 2 false 1, .cr q.toNat]
  | .pairout _ a _ => [.run a 1]
  | .capsub _ d a b => [.cw d.toNat, .cr a.toNat, .sb b 4 true 0]
  | .caprestrict _ d a b => [.cw d.toNat, .cr a.toNat, .rs b]
  | .caplen _ d a | .captype _ d a => [.wn d 2, .cr a.toNat]
  | .capmov _ d a => [.cw d.toNat, .cr a.toNat]
  | .ldcap _ d a k _ => [.cw d.toNat, .sz a, .cr k.toNat]
  | .stcap _ v a k _ => [.cr v.toNat, .sz a, .cr k.toNat]
  | .brz _ a _ | .brnz _ a _ | .brx _ a | .callx _ a => [.rq a]
  | .bar _ _ n => [.lim n.toNat 16]
  | .bararr _ d _ n => [.w d 1, .lim n.toNat 16]
  | .barwait _ _ a n | .barinit _ _ a n => [.r a 1, .lim n.toNat 16]
  | .trapret _ n => [.lim n.toNat 2]
  | .ctxsave _ d a | .ctxload _ d a => [.w d 1, .cr a.toNat]
  | _ => []

/-- Check 2 of R62 for one word. -/
def operandsOk (budget : Nat) (i : Instr) : Bool := (uses i).all (Use.ok budget)

/-- The capability registers that a word reads without naming them: c3 of the call stack (R118), c1 of the words that reach team
scratch through it (R133, R161, R171, R174). -/
def implicitReads : Instr → List Nat
  | .call .. | .callx .. | .ret .. => [128 + 3]
  | .faultrec .. | .launch .. | .arrset .. | .arrwait .. | .chain .. => [128 + 1]
  | _ => []

def readsOf (i : Instr) : List Nat := (uses i).flatMap Use.reads ++ implicitReads i
/-- The registers that a word reads in a pair launch of `w` words a side: PAIROUT reads a run of them (R184). -/
def readsIn (w : Nat) (i : Instr) : List Nat := match i with | .pairout _ a _ => codes a w | i => readsOf i
def writesOf (i : Instr) : List Nat := (uses i).flatMap Use.writes

/-- Whether a word takes a vector from q1. -/
def popsQ1 (i : Instr) : Bool := (uses i).any (fun u => u == .r 113 1)

/-- Pipe classes (Table 3.4). -/
inductive Pipe where
  | v | sf | m | c | none
  deriving DecidableEq, Repr

/-- The pipe of a lane word by its MAJ and MIN (Table 3.4). -/
def pipeOf (maj min : Nat) : Pipe :=
  if maj = 0 && min = 0 then .none
  else if maj < 0x10 then .v
  else if maj < 0x14 then .sf
  else if maj < 0x18 then .v
  else if maj < 0x21 then .m
  else if maj < 0x23 then .c
  else if maj = 0x23 then .m
  else if maj = 0x29 then (if min < 2 then .m else .c)
  else if maj = 0x2D then .m
  else if maj = 0x3E then .v
  else .c

/-- The control transfers of R46. -/
def isTransfer : Instr → Bool
  | .br .. | .brz .. | .brnz .. | .call .. | .brx .. | .callx .. | .ret .. | .exit .. | .trap .. | .trapret .. => true
  | _ => false

/-- LOOK of an FL or FS word; the ordered atomics count as 0 (R46). -/
def lookOf : Instr → Option Nat
  | .ld _ _ _ _ l _ _ | .ldNarrow _ _ _ _ l _ _ | .st _ _ _ _ l _ _ | .ldacq _ _ _ _ l _ | .strel _ _ _ _ l _
  | .atomr _ _ _ _ l _ | .cas _ _ _ _ l | .atomrst _ _ _ _ l | .cwb _ _ _ _ l | .cinv _ _ _ _ l
  | .pref _ _ _ _ l | .stmc _ _ _ _ l | .stredAddF32 _ _ _ _ l | .stredAddB32 _ _ _ _ l
  | .stredMaxF32 _ _ _ _ l | .ldcap _ _ _ _ l | .stcap _ _ _ _ l => some l.toNat
  | .atom .. | .atomrOrdered .. => some 0
  | _ => none

/-- The registers pending from an FL or FS word, and whether reading one counts (R48): an FL word's destinations; an
FS word's S and A, for writes only. -/
def pendingOf : Instr → List Nat × Bool
  | .ld _ d _ _ _ _ w => (codes d (if w then 2 else 1), true)
  | .ldNarrow _ d _ _ _ _ _ | .ldacq _ d _ _ _ _ | .atomrst _ d _ _ _ => (codes d 1, true)
  | .atomr _ d _ _ _ u | .atomrOrdered _ d _ _ _ _ u => (codes d (regsOfAop u), true)
  | .cas _ d _ _ _ => (codes d 2, true)
  | .ldcap _ d _ _ _ => ([128 + d.toNat], true)
  | .stcap _ v a _ _ => ([128 + v.toNat] ++ (if isSpec a then [] else codes a 1), false)
  | .st _ v a _ _ _ w => ((Use.r v (if w = .b64 then 2 else 1)).reads ++ (Use.r a 1).reads, false)
  | .strel _ v a _ _ _ | .cwb _ v a _ _ | .cinv _ v a _ _ | .pref _ v a _ _ | .stmc _ v a _ _
  | .stredAddF32 _ v a _ _ | .stredAddB32 _ v a _ _ | .stredMaxF32 _ v a _ _ =>
    ((Use.r v 1).reads ++ (Use.r a 1).reads, false)
  | .atom _ v a _ _ _ u => ((Use.r v (regsOfAop u)).reads ++ (Use.r a 1).reads, false)
  | _ => ([], false)

/-- A decoded word with its pipe. -/
structure CWord where
  i : Instr
  pipe : Pipe
  deriving DecidableEq, Repr

/-- No two lists of a list share an element. -/
def pairwiseDisjoint : List (List Nat) → Bool
  | [] => true
  | x :: xs => xs.all (fun y => !y.any x.contains) && pairwiseDisjoint xs

/-- Whether no word reads what an earlier SF-class or M-class word of the chain writes (R46). -/
def noLateRead (w : Nat) : List CWord → Bool
  | [] => true
  | x :: xs =>
    (!(x.pipe == .sf || x.pipe == .m) || xs.all (fun y => !(readsIn w y.i).any (writesOf x.i).contains)) && noLateRead w xs

/-- Whether every FL or FS word covers the words chained after it with its LOOK (R46). -/
def looksCover : List CWord → Bool
  | [] => true
  | x :: xs => (match lookOf x.i with | some n => xs.length ≤ n | none => true) && looksCover xs

/-- The chain rule (R46) for the words of one chain, in a pair launch of `w` words a side. -/
def chainOk (w : Nat) (ws : List CWord) : Bool :=
  (ws.filter (·.pipe == .v)).length ≤ 2 && (ws.filter (·.pipe == .sf)).length ≤ 1 &&
  (ws.filter (·.pipe == .m)).length ≤ 1 && (ws.filter (·.pipe == .c)).length ≤ 1 &&
  pairwiseDisjoint (ws.map (fun w => writesOf w.i)) &&
  ws.dropLast.all (fun w => !isTransfer w.i) && noLateRead w ws && looksCover ws

/-! ### Reading sources and writing destinations -/

/-- The 32-bit value of a source for a lane (Table 3.1). -/
def State.src (s : State) (gk lane : Nat) (c : Opc) : Word :=
  let g := s.group gk
  if isV c then s.vreg gk lane c.toNat
  else if isS c then s.sreg gk (c.toNat - 96)
  else match c.toNat with
    | 113 => match (s.lane (lkOf gk lane)).took with
      | some v => v
      | none => match g.q1 with | v :: _ => tget 0 v lane | [] => 0
    | 121 => BitVec.ofNat 32 lane
    | 122 => if g.pair then 0xFFFFFFFF else BitVec.ofNat 32 (g.idx * g.width + lane)
    | 123 => if g.pair then 0xFFFFFFFF else BitVec.ofNat 32 g.idx
    | 124 => BitVec.ofNat 32 (s.team g.tk).idx
    | 125 => BitVec.ofNat 32 g.role
    | 126 => BitVec.ofNat 32 (s.launchOf (s.team g.tk).ln).serial
    | 127 => 0xFFFFFFFF
    | _ => 0

/-- The 64-bit value of a source: a register pair, all ones, or a special zero-extended (R53). -/
def State.src64 (s : State) (gk lane : Nat) (c : Opc) : DWord :=
  if c == 127 then 0xFFFFFFFFFFFFFFFF
  else if isSpec c then joinW 0 (s.src gk lane c)
  else joinW (s.src gk lane (c + 1)) (s.src gk lane c)

end Sys2Proof.Machine
end

