-- ==== Sys2Proof/Machine/LaneOps.lean ====
section
/-! DEFINITION. The frame of a lane word, and the memory words: checks of each lane, translation, the event each lane
posts, deterministic launches (R294, R295), and the events performed. -/

namespace Sys2Proof.Machine

/-- The result of a word for one lane: the words for its destination, or a trap (R9). -/
inductive LaneRes where
  | val (ws : List Word)
  | trap (f : FaultInfo)
  deriving DecidableEq, Repr

def LaneRes.w (v : Word) : LaneRes := .val [v]
def LaneRes.d (v : DWord) : LaneRes := .val [loW v, hiW v]

/-- Lanes that trap take their trap at the word; the others go on (R9). -/
def State.finishWord (s : State) (res : List (Nat × LaneRes)) : State :=
  res.foldl (fun x p => match p.2 with
    | .val _ => x.advLane (lkOf s.iss.gk p.1)
    | .trap f => x.raise (lkOf s.iss.gk p.1) { pkt := s.iss.pkt, slot := s.iss.slot } f) s

/-- The vector at the head of q1 leaves it (R52). -/
def State.popQ1 (s : State) (gk : Nat) : State := s.modGroup gk (fun g => { g with q1 := g.q1.drop 1 })

/-- A lane waits at its word, which runs again; the waits of REJOIN and WAITC come after their word. -/
def Lane.atWord (l : Lane) : Bool :=
  match l.st with | .waiting (.rejoin _) => false | .waiting (.clocks _) => false | .waiting _ => true | _ => false

/-- The pop of a word that has run (R52): none while every lane waits at the word; a lane that waits while others went
on keeps its own element. -/
def State.afterPop (s t : State) : State :=
  let gk := s.iss.gk
  if s.iss.lanes.all (fun l => (t.lane (lkOf gk l)).atWord) then t
  else
    ((s.iss.lanes.filter (fun l => (t.lane (lkOf gk l)).atWord)).foldl (fun t l =>
      t.modLane (lkOf gk l) (fun x => { x with took := some (s.src gk l 113) })) t).popQ1 gk

/-- Check 2 of R62 and the q1 wait, which every lane word begins with; then the word's own effect, and the pop. Lanes
that keep their element pop no other. -/
def State.laneWord (s : State) (i : Instr) (body : State → State) : State :=
  let gk := s.iss.gk
  let g := s.group gk
  if !operandsOk g.regs i then s.raiseLanes s.iss.lanes (.of fcILLEGAL_OPERAND)
  else if !popsQ1 i || s.iss.lanes.all (fun l => (s.lane (lkOf gk l)).took.isSome) then body s
  else if g.q1.isEmpty then s.waitLanes gk s.iss.lanes .q1
  else s.afterPop (body s)

/-- Every executing lane goes on. -/
def State.advAll (s : State) : State := s.advLanes s.iss.gk s.iss.lanes
/-- Every executing lane takes one fault. -/
def State.raiseAll (s : State) (f : FaultInfo) : State := s.raiseLanes s.iss.lanes f
/-- Every executing lane waits at the word. -/
def State.waitAll (s : State) (w : Wait) : State := s.waitLanes s.iss.gk s.iss.lanes w
/-- Lanes of the issue may release at a scope. -/
def State.allRel (s : State) (sc : Scope) (lanes : List Nat) : Bool := lanes.all (fun l => s.relReady sc (lkOf s.iss.gk l))
/-- The lowest-numbered executing lane. -/
def State.low (s : State) : Nat := s.iss.lanes.headD 0
/-- One value written to every executing lane, or to the group's s register (R132, R164). -/
def State.writeAll (s : State) (d : Opc) (v : Word) : State :=
  if isV d then s.iss.lanes.foldl (fun x l => x.setV s.iss.gk l d.toNat v) s
  else if isS d then s.setS s.iss.gk (d.toNat - 96) v
  else s

/-- A lane with the window that the word at a PC opens (R48); a word that runs again under R50 goes on with its
window's count. -/
def Lane.openWindow (p : Pc) (i : Instr) (ev : Nat) (l : Lane) : Lane :=
  match lookOf i with
  | none => l
  | some n =>
    let mine (w : Win) : Bool := w.pkt == p.pkt && w.slot == p.slot
    if l.resume.isSome && l.windows.any mine then
      { l with windows := l.windows.map (fun w => if mine w then { w with ev := ev } else w) }
    else { l with windows := l.windows ++
      [{ pkt := p.pkt, slot := p.slot, left := n, issued := 0, regs := (pendingOf i).1, reads := (pendingOf i).2, ev := ev }] }

/-- The window that an executing lane opens. -/
def State.openWindow (s : State) (i : Instr) (lane ev : Nat) : State :=
  if (lookOf i).isNone then s
  else s.modLane (lkOf s.iss.gk lane) (Lane.openWindow { pkt := s.iss.pkt, slot := s.iss.slot } i ev)

/-- The windows of a lane after a word: those it had before count it, unless it ran again under R50; the finished
ones close. -/
def Lane.counted (l : Lane) (old : Nat) (again pair : Bool) : Lane :=
  let step (n : Nat) (w : Win) : Win := if n < old && !again then { w with left := w.left - 1, issued := w.issued + 1 } else w
  let ws := (List.range l.windows.length).filterMap (fun n => (l.windows[n]?).map (step n))
  { l with windows := ws.filter (fun w => !(w.left = 0 && w.ev = 0)), count := if pair then l.count + 1 else l.count }

/-- What a memory word asks for (R139): the event it posts is built from it. -/
structure MemSpec where
  cap : Nat
  z : Nat
  acc : AccKind
  allow : List Nat
  need : Nat
  caps : Bool := false
  kind : EvKind
  acq : Option Scope := none
  rel : Option Scope := none
  sync : Option Scope := none
  nol1 : Bool := false
  issue : Nat := 0

/-- The event posted to an agent's list: its key. -/
def State.post (s : State) (e : MemEv) : Nat × State :=
  let (k, s) := s.fresh
  (k, { s with o := { s.o with pend := tset none s.o.pend k (some e) } })

/-! ### Deterministic launches (R294, R295) -/

def ownKey (ln addr : Nat) : Nat := ln * 2 ^ 48 + addr / 512

def State.owner (s : State) (ln addr : Nat) : Owner := tget {} s.l.own (ownKey ln addr)

/-- A line touched in the phase by a team; a deferred access marks it. -/
def State.touch (s : State) (ln addr team : Nat) (deferred : Bool) : State :=
  let o := s.owner ln addr
  let t := if o.touched.contains team then o.touched else o.touched ++ [team]
  { s with l := { s.l with own := tset {} s.l.own (ownKey ln addr) { o with touched := t, deferred := o.deferred || deferred } } }

/-- The line of a device location marked as touched by a group's team, when its launch is deterministic. -/
def State.detMark (s : State) (gk : Nat) (l : Loc) (deferred : Bool) : State :=
  match l with
  | .dev a _ _ => if (s.kern gk).det then s.touch (s.teamOf gk).ln a (s.teamOf gk).idx deferred else s
  | _ => s

/-- The buffer of a core is full: 4,096 entries of 16 bytes that have not gone to the log extent (R295). -/
def State.detSpills (s : State) (core : Nat) : Bool := (s.l.det.filter (fun e => e.core == core && !e.spill)).length ≥ 4096
/-- Entries that the log extent of a launch holds. -/
def Kern.logRoom (k : Kern) : Nat := if k.lobj = 0 then 0 else k.llen / 16
/-- The room for a buffered access: in its core's buffer, else in the log extent, at 16 bytes an entry (R295). -/
def State.detRoom (s : State) (core ln : Nat) : Bool :=
  !s.detSpills core || (s.l.det.filter (fun e => e.ln == ln && e.spill)).length < (s.launchOf ln).kern.logRoom

/-- An access entered in the write buffer of its team (R294, R295). -/
def State.detEnter (s : State) (gk core : Nat) (kind : EvKind) (l : Loc) (size : Nat) (val : BitVec 128) : State :=
  let t := s.teamOf gk
  let d : DetEntry := { ln := t.ln, team := t.idx, tk := (s.group gk).tk, core := core, kind := kind, loc := l, size := size
                        val := val, at_ := s.next, spill := s.detSpills core }
  ({ s with l := { s.l with det := s.l.det ++ [d] } }).detMark gk l false

/-- What Table 16.6 makes of an access. -/
inductive DetAct where
  | normal | overlay | buffer | defer | nondet | full
  deriving DecidableEq, Repr

def State.detAct (s : State) (gk : Nat) (l : Loc) (kind : EvKind) : DetAct :=
  let t := s.teamOf gk
  match l with
  | .dev a _ _ =>
    if !t.kern.det then .normal
    else
      let o := s.owner t.ln a
      let mine := o.owner == some t.idx && !o.shared
      let other := o.owner.isSome && !mine && !o.shared
      match kind with
      | .load => if mine then .normal else if other then .defer else .overlay
      | .atomic _ _ _ true => if mine then .normal else .nondet
      | .store | .atomic _ _ _ false | .red _ =>
        if mine then .normal else if other then .defer
        else if s.detRoom (s.group gk).core t.ln then .buffer else .full
      | _ => .normal
  | _ => .normal

/-- A buffered entry over bytes that begin at a location. -/
def DetEntry.over (l : Loc) (size : Nat) (v : Nat) (e : DetEntry) : Nat :=
  let o := e.loc.space.2 - l.space.2
  match e.kind with
  | .store => overlay l size [{ id := 0, core := 0, agent := 0, loc := e.loc, size := e.size, val := e.val.zeroExtend 512, rel := [] }] v
  | .atomic op _ _ _ => blockPut v o e.size (atomNew op (blockGet v o e.size) e.val.toNat 0).1
  | .red op => blockPut v o e.size (redNew op (blockGet v o e.size) e.val.toNat)
  | _ => v

/-- Memory overlaid with a team's own buffered entries, in the order of their entry: read by whole 16-byte granules, for an
entry lies in one (R294). -/
def State.detValue (s : State) (gk core : Nat) (l : Loc) (size : Nat) : Nat × State :=
  let t := s.teamOf gk
  let lo := l.space.2 % 16
  let l0 := l.back lo
  let n := (lo + size + 15) / 16 * 16
  let (v, s) := s.readNow core l0 n
  let es := s.l.det.filter (fun e => e.ln == t.ln && e.team == t.idx && overlaps e.loc e.size l0 n)
  (blockGet (es.foldl (fun v e => e.over l0 n v) v) lo size, s)

/-! ### One lane's access -/

/-- The lane goes on after its access; a RET waits for the packet it pops. -/
def State.afterAccess (s : State) (e : MemEv) : State :=
  if e.dst == .ret then s.waitLanes e.gk [e.lane] .ret else s.advLane (lkOf e.gk e.lane)

/-- The event of a resolved access is posted, or acts as a deterministic launch requires; true when the lane goes on. -/
def State.postAccess (s : State) (i : Instr) (sp : MemSpec) (e : MemEv) : Bool × State :=
  let gk := s.iss.gk
  let lk := lkOf gk e.lane
  let pc : Pc := { pkt := s.iss.pkt, slot := s.iss.slot }
  match s.detAct gk e.loc sp.kind with
  | .normal =>
    let s := s.detMark gk e.loc false
    let (k, s) := s.post e
    (true, (s.openWindow i e.lane (if e.dst == .none then 0 else k)).afterAccess e)
  | .overlay =>
    let s := s.detMark gk e.loc false
    let (v, s) := s.detValue gk (s.group gk).core e.loc e.size
    let s := (s.afterAccess e).writeReg e v
    (true, s.openWindow i e.lane 0)
  | .buffer =>
    let s := s.detEnter gk (s.group gk).core sp.kind e.loc e.size e.val
    (true, (s.openWindow i e.lane 0).afterAccess e)
  | .defer => (false, (s.detMark gk e.loc true).waitLanes gk [e.lane] .phase)
  | .nondet => (false, s.raise lk pc (.of fcNONDET_OP))
  | .full => (false, s.raise lk pc (.of fcDET_LOG_FULL))

/-- HOST locations take no AOP 1, 2 or 12 (R149). -/
def hostUnsupported (l : Loc) (k : EvKind) : Bool :=
  match l, k with
  | .host _, .atomic .addF32 _ _ _ => true
  | .host _, .atomic .addB64 _ _ _ => true
  | .host _, .atomic .rst _ _ _ => true
  | _, _ => false

/-- WIN of a word that R50 has made run again and that fails once more. -/
def Lane.winAgain (l : Lane) (p : Pc) (code : Nat) : Nat :=
  if !transFault code || l.resume.isNone then 0
  else match l.windows.find? (fun w => w.pkt == p.pkt && w.slot == p.slot) with | some w => w.issued | none => 0

/-- An access of an FL or FS word that finds no page waits for it at the memory port, where its translation step is taken
again (R269, R278, R310); the lane goes on as far as the word's window lets it (R50). In a deterministic launch the lane
waits at the word. -/
def State.mayDefer (s : State) (i : Instr) : Bool := !(s.kern s.iss.gk).det && (lookOf i).isSome

/-- A lane's access of a memory word: checks, translation, then its event (R139, R269); true when the lane goes on. The
access serves the lanes `also` as well. -/
def State.access (s : State) (i : Instr) (sp : MemSpec) (lane off : Nat) (kind : EvKind) (val : BitVec 128) (dst : Dst)
    (also : List Nat := []) : Bool × State :=
  let gk := s.iss.gk
  let lk := lkOf gk lane
  let pc : Pc := { pkt := s.iss.pkt, slot := s.iss.slot }
  let c := s.heldCap gk lane sp.cap
  let ev (l : Loc) : MemEv :=
    { agent := lk, gk := gk, lane := lane, kind := kind, loc := l, size := sp.z, val := val, dst := dst
      acq := sp.acq, rel := sp.rel, sync := sp.sync, nol1 := sp.nol1, pkt := pc.pkt, slot := pc.slot, cap := c, off := off
      issue := sp.issue, also := also }
  match s.capCheckAll (s.kern gk).ctx c sp.allow sp.need off sp.z with
  | some f => (false, s.raise lk pc f)
  | none =>
    let (r, s) := s.resolve (s.group gk).tk (s.group gk).core c off sp.z sp.acc sp.caps false
    match r with
    | .fault f => (false, s.raise lk pc { f with win := (s.lane lk).winAgain pc f.code })
    | .wait obj page w =>
      let s := s.mergeWait (s.group gk).core (s.kern gk).ctx obj page w (.group gk lane) sp.acc
      if s.mayDefer i then
        let (k, s) := s.post { ev (.dev 0 .uc false) with tr := some (sp.acc, sp.caps) }
        (true, (s.openWindow i lane k).afterAccess (ev (.dev 0 .uc false)))
      else (false, s.waitPage gk [lane] (s.kern gk).ctx obj page off (Cap.type c))
    | .ok l =>
      if hostUnsupported l kind then (false, s.raise lk pc (capFault fcATOMIC_UNSUPPORTED c off))
      else s.postAccess i { sp with kind := kind } (ev l)

/-- What the other executing lanes do when one access serves them all (R146): they wait with it, and otherwise go on; a
fault is that of the lane that makes the access (R9). -/
def State.likeLow (s : State) (i : Instr) (went : Bool) : State :=
  let gk := s.iss.gk
  let rest := s.iss.lanes.drop 1
  let l := s.lane (lkOf gk s.low)
  if went then
    let ev := match l.windows.getLast? with | some w => w.ev | none => 0
    rest.foldl (fun x m => (x.openWindow i m ev).advLane (lkOf gk m)) s
  else match l.st with
    | .waiting (.merge c o p off ty) => s.waitPage gk rest c o p off ty
    | .waiting w => s.waitLanes gk rest w
    | _ => s.advLanes gk rest

/-- The accesses of an issue: with an s destination one access, of the lowest-numbered lane (R146). `val` and `dst` are computed from the state before the word. A word that follows an acquire or fence of
its lane waits for it (R147); `one` holds for an s destination. -/
def State.memWord (s : State) (i : Instr) (sp : MemSpec) (idx : Opc) (one : Bool) (kind : Nat → EvKind)
    (val : Nat → BitVec 128) (dst : Nat → Dst) : State :=
  s.laneWord i (fun s0 =>
    let gk := s0.iss.gk
    let sp := { sp with issue := s0.next }
    let offOf (l : Nat) : Nat := (s0.src gk l idx).toNat * sp.z
    if one then
      let l := s0.low
      if s0.iss.lanes.any (fun l => s0.acqPending (lkOf gk l)) then s0.waitAll (.order none)
      else
        let r := s0.access i sp l (offOf l) (kind l) (val l) (dst l) (s0.iss.lanes.drop 1)
        r.2.likeLow i r.1
    else s0.iss.lanes.foldl (fun x l =>
      if s0.acqPending (lkOf gk l) then x.waitLanes gk [l] (.order none)
      else (x.access i sp l (offOf l) (kind l) (val l) (dst l)).2) s0)

/-- The destination of a load of `regs` registers with an extension. -/
def dstOf (d : Opc) (regs ext : Nat) (signed : Bool) : Dst :=
  if isV d then .v d.toNat regs ext signed else if isS d then .s (d.toNat - 96) regs ext signed else .none

/-- What a store word stores: its value operand of the width's registers. -/
def State.storeVal (s : State) (lane : Nat) (v : Opc) (regs : Nat) : Nat :=
  if regs = 2 then (s.src64 s.iss.gk lane v).toNat else (s.src s.iss.gk lane v).toNat

/-- A word that makes one access for all its lanes, of which the lowest-numbered alone takes its fault (R9, R146). -/
def oneAccess : Instr → Bool
  | .ld _ d .. | .ldNarrow _ d .. | .ldacq _ d .. | .atomr _ d .. | .atomrOrdered _ d .. | .cas _ d .. | .atomrst _ d .. => isS d
  | _ => false

/-- A lane that waited at its word goes on past it. -/
def State.goPast (s : State) (lk : Nat) : State :=
  s.modLane lk (fun x => { x.advance with st := match x.st with | .halted _ => .halted none | _ => .ready })

/-! ### Performing (Table 12.2) -/

/-- The group waits in a merge table for a key. -/
def State.merging (s : State) (gk ctx obj page : Nat) : Bool :=
  s.x.merge.any (fun m => m.ctx == ctx && m.obj == obj && m.page == page && m.groups.contains gk)

/-- The page of an access in its object. -/
def MemEv.page (e : MemEv) : Nat := (Cap.base e.cap + e.off) / 65536

/-- The translation step of an access at its memory port (R269): the access goes on, or waits there, or fails. -/
def State.atPort (s : State) (k : Nat) (e : MemEv) (acc : AccKind) (caps : Bool) : State :=
  let ctx := (s.kern e.gk).ctx
  if s.merging e.gk ctx (Cap.obj e.cap) e.page then s
  else
    let (r, s) := s.resolve (s.group e.gk).tk (s.group e.gk).core e.cap e.off e.size acc caps false
    match r with
    | .ok l =>
      if hostUnsupported l e.kind then s.lateFault k e (capFault fcATOMIC_UNSUPPORTED e.cap e.off)
      else
        let s := { s with o := { s.o with pend := tset none s.o.pend k (some { e with loc := l, tr := none }) } }
        if e.dst == .none then s.landed k e.gk else s
    | .wait obj page w => s.mergeWait (s.group e.gk).core ctx obj page w (.group e.gk e.lane) acc
    | .fault f => s.lateFault k e f

/-- The fault that an access meets at its port: a poisoned byte (R353), a slice that is gone (R253-R255). -/
def State.portFault (s : State) (e : MemEv) : Option FaultInfo :=
  match e.loc with
  | .scr tk _ => if Cap.type e.cap != tGWIN then none
    else (s.departed tk).map (fun d => { capFault fcWINDOW_DEPARTED e.cap e.off with detail := d })
  | l => if e.kind == .store then none else s.hitsPoison l e.size

/-- Step 1, and the combining stores (R154): a member whose slice is gone is no destination of a multicast. -/
def State.performStore (s : State) (k : Nat) : State :=
  match tget none s.o.pend k with
  | some e =>
    let core := s.agentCore e.agent
    if !s.mayGo k e || e.rel.isSome then s
    else match e.tr with
    | some (acc, caps) => if e.kind == .store then s.atPort k e acc caps else s
    | none =>
    match e.kind with
    | .store =>
      match s.portFault e with
      | some f => if e.mc then (s.unpend k).landed k e.gk else s.lateFault k e f
      | none => ((s.unpend k).putStore k e.agent core e.loc e.size e.val.toNat).landed k e.gk
    | .red op =>
      if !(s.coreBufAt core e.loc e.size).isEmpty then s
      else match s.portFault e with
        | some f => if e.mc && f.code == fcWINDOW_DEPARTED then s.unpend k else s.lateFault k e f
        | none =>
          let (old, s) := s.readNow core e.loc e.size
          let (f, s) := s.takeFence e.agent k
          (((s.unpend k).writeNow core e.loc e.size (redNew op old e.val.toNat)).setRel e.loc e.size (releasesOf e.agent f)).seen
            core e.loc e.size
    | _ => s
  | none => s

/-- A lane whose multicast has been answered by every destination parks with the mask of those that refused (R155). -/
def State.answered (s : State) (a : Nat) : State :=
  match (s.lane a).st with
  | .waiting (.answers issue mask c off) =>
    if (s.pendOf a).any (fun p => p.1 ≥ issue) ||
        (s.o.cbuf ++ s.o.sbuf).any (fun p => match p.2 with | some b => b.agent == a && b.ev ≥ issue | none => false) then s
    else s.raise a (s.lane a).pc { capFault fcMULTICAST_PARTIAL c off with detail := mask % 2 ^ 32, aux := mask / 2 ^ 32 }
  | _ => s

/-- LDCAP's check of the 16 bytes it loaded (R108, step 3). -/
def loadedCapFault (e : MemEv) (v : Nat) : Option FaultInfo :=
  match e.dst with
  | .c _ =>
    let c : Cap := BitVec.ofNat 128 v
    if !capOk c then some (capFault fcCAP_CHECK e.cap e.off)
    else if Cap.type c ≥ 9 then some (capFault fcCAP_TYPE e.cap e.off) else none
  | _ => none

/-- Step 3. -/
def State.performLoad (s : State) (k pick : Nat) : State :=
  match tget none s.o.pend k with
  | some e =>
    if e.kind != .load || e.acq.isSome || !s.mayGo k e then s
    else match e.tr with
    | some (acc, caps) => s.atPort k e acc caps
    | none =>
      match s.portFault e with
      | some f => s.lateFault k e f
      | none =>
        let (v, s) := s.loadValue e.agent (s.agentCore e.agent) e.loc e.size pick e.nol1
        match loadedCapFault e v with
        | some f => s.lateFault k e f
        | none => ((s.unpend k).writeReg e v).landed k e.gk
  | none => s

/-- A buffered access of a deterministic launch was translated before a mark (R306): the stamp is the key that was next. -/
def State.detBefore (s : State) (ctx mark : Nat) : Bool :=
  s.l.det.any (fun e => e.at_ < mark && (s.launchOf e.ln).kern.ctx == ctx)

/-- The accesses, threads and stores that OTFENCE waits for: those of the context older than its drop that hold a
translation taken before it (R270, R306). -/
def State.otBusy (s : State) (ctx mark self : Nat) : Bool :=
  s.o.pend.any (fun p => p.1 < mark && p.1 != self && (match p.2 with
    | some e => (s.team (s.agentTk e.agent)).kern.ctx == ctx && e.loc.space.1 % 8 < 4 && e.tr.isNone &&
        (match e.kind with | .fence => false | .otfence _ => false | _ => true)
    | none => false)) ||
  (s.o.cbuf ++ s.o.sbuf).any (fun p => match p.2 with | some b => b.ev < mark && b.ctx == ctx && b.agent < hostAgent | none => false) ||
  s.detBefore ctx mark ||
  s.e.threads.any (fun p => p.1 < mark && (match p.2 with
    | some t => (s.team t.tk).kern.ctx == ctx && t.pins.any (fun q => q.at_ < mark) | none => false)) ||
  s.e.fifo.any (fun p => p.1 < mark && (match p.2 with
    | some t => (s.team t.tk).kern.ctx == ctx && !t.finished && t.pins.any (fun q => q.at_ < mark) | none => false))

/-- Every extent-cache entry of a context dropped (R270, step 2). -/
def State.dropCtx (s : State) (ctx : Nat) : State :=
  { s with x := { s.x with cache := s.x.cache.filter (fun e => e.ctx != ctx) } }

/-- FENCE performed: its view action, and the history the next store carries (R265). -/
def State.fenceDone (s : State) (a : Nat) (sc : Scope) : State :=
  let s := s.acquireView sc a
  { s with o := { s.o with fences := tset [] s.o.fences a (tget [] s.o.fences a ++ [(sc, s.hist a)]) } }

/-- Dirty NC sectors of a range written back; CINV drops them (R152). -/
def State.cleanRange (s : State) (die addr len : Nat) (inval : Bool) : State :=
  (s.o.nc.filter (fun p => ncKey die addr ≤ p.1 && p.1 ≤ ncKey die (addr + len - 1))).foldl (fun s p =>
    s.ncClean die ((p.1 - die * 2 ^ 48) * 64) inval) s

/-- A core's view of the locations of a range raised to the newest stores: its L1 copies of the range are invalid (R152). -/
def State.raiseRange (s : State) (core addr len : Nat) (nc : Bool) : State :=
  let x := ordAddr core addr nc
  ((s.o.old.filter (fun p => x / 16 ≤ p.1 && p.1 ≤ (x + len - 1) / 16)).map (·.1)).foldl (fun s g =>
    s.raiseView core (16 * g) 16 (s.newest (16 * g))) s

/-- CWB or CINV of a range of whole sectors (R152). -/
def State.cleanLoc (s : State) (core : Nat) (l : Loc) (len : Nat) (inval : Bool) : State :=
  match l with
  | .dev x _ nc =>
    let s := if nc then s.cleanRange (dieOf core) x len inval else s.l1CleanRange core x len
    if inval then s.raiseRange core x len nc else s
  | _ => s

/-- A synchronising access or an atomic (step 4): the releases it reads are taken, its own is made, in one step. None when a
store in its history is not yet visible at its scope (R263). -/
def State.performSync (s : State) (k : Nat) (e : MemEv) : State :=
  let a := e.agent
  let core := s.agentCore a
  if !(s.coreBufAt core e.loc e.size).isEmpty then s
  else match s.portFault e with
  | some f => s.lateFault k e f
  | none =>
  let joined := match e.acq with | some sc => s.syncWith sc a e.loc e.size | none => s
  if (match e.rel with | some sc => !joined.histVisible sc a | none => false) then s
  else match (match e.sync with | some sc => s.lynxCheck a sc e.loc | none => some s) with
  | none => s.lateFault k e (capFault fcSCOPE_MISMATCH e.cap e.off)
  | some s =>
    let (old, s) := (s.unpend k).readNow core e.loc e.size
    let s := match e.acq with | some sc => (s.syncWith sc a e.loc e.size).acquireView sc a | none => s
    let own : List (Scope × List Nat) := match e.rel with | some sc => [(sc, s.hist a)] | none => []
    let write (s : State) (v : Nat) : State :=
      let (f, s) := s.takeFence a k
      (s.writeNow core e.loc e.size v).setRel e.loc e.size (releasesOf a (own ++ f))
    match e.kind with
    | .load => ((s.seen core e.loc e.size).writeReg e old).landed k e.gk
    | .store => ((write s e.val.toNat).seen core e.loc e.size).landed k e.gk
    | .atomic op v v2 _ =>
      let n := atomNew op old v.toNat v2.toNat
      let s := (if n.2 then write s n.1 else s).seen core e.loc e.size
      let ret := if op = .cas then old % 2 ^ 32 + n.2.toNat * 2 ^ 32 else old
      (s.writeReg e ret).landed k e.gk
    | _ => s

/-- Step 4: an atomic or synchronising access, and the fences and cache words. -/
def State.performAtomic (s : State) (k : Nat) : State :=
  match tget none s.o.pend k with
  | none => s
  | some e =>
    let a := e.agent
    let core := s.agentCore a
    let relOk := match e.rel with | some sc => s.histVisible sc a | none => true
    if !s.mayGo k e || !relOk then s
    else match e.tr with
    | some (acc, caps) =>
      if (e.kind == .load || e.kind == .store) && e.acq.isNone && e.rel.isNone && e.sync.isNone then s else s.atPort k e acc caps
    | none =>
    match e.kind with
      | .fence => (s.unpend k).fenceDone a (e.rel.getD .dev)
      | .otfence sys =>
        let ctx := (s.team (s.agentTk a)).kern.ctx
        if e.off = 0 then
          if (s.coreBuf core).any (fun b => b.agent == a) then s
          else
            let s := s.dropCtx ctx
            { s with o := { s.o with pend := tset none s.o.pend k (some { e with off := s.next }) } }
        else if s.otBusy ctx e.off k then s
        else (s.unpend k).fenceDone a (if sys then .sys else .dev)
      | .clean len inval =>
        if !(s.coreBufAt core e.loc len).isEmpty then s else ((s.unpend k).cleanLoc core e.loc len inval).landed k e.gk
      | .red _ => s.performStore k
      | .load | .store => if e.acq.isNone && e.rel.isNone && e.sync.isNone then s else s.performSync k e
      | .atomic _ _ _ _ => s.performSync k e

/-- The pending results of a lane that has just parked land before its state is saved (R49): its loads and atomics are
performed, in the order of their issue, where they can be. -/
def State.settle (s : State) (lk : Nat) : State :=
  match (s.lane lk).st with
  | .parked _ => (s.pendOf lk).foldl (fun s p => if p.2.tr.isSome then s else ((s.performStore p.1).performLoad p.1 0).performAtomic p.1) s
  | _ => s
def State.settleAll (s : State) (gk : Nat) (lanes : List Nat) : State := lanes.foldl (fun s l => s.settle (lkOf gk l)) s

end Sys2Proof.Machine
end

