-- ==== Sys2Proof/Machine/Flags.lean ====
section
/-! DEFINITION. Flag computations: the numeric traps of R34 under the launch's trap mask, and the results of lanes. The
device has no condition-code register: comparisons write registers (R77, R82). -/

namespace Sys2Proof.Machine

/-- IV, DZ and OF in LFLAGS (Table 6.3, bits [202:198] of the launch record). -/
def ivOn (fl : BitVec 5) : Bool := fl.getLsbD 2
def dzOn (fl : BitVec 5) : Bool := fl.getLsbD 3
def ofOn (fl : BitVec 5) : Bool := fl.getLsbD 4

/-- The trap that the conditions of an operation raise under a mask (Table 2.6). R34 gives no order for conditions that
meet in one lane's word, in a tree or in the two elements of a packed word: the model's is IV, DZ, OF (log 53). -/
def trapFor (fl : BitVec 5) (iv dz ovf : Bool) : Option FaultInfo :=
  if iv && ivOn fl then some (.of fcFP_INVALID)
  else if dz && dzOn fl then some (.of fcFP_DIVZERO)
  else if ovf && ofOn fl then some (.of fcFP_OVERFLOW)
  else none

/-- The result of a float operation for a lane (R34). -/
def fpRes (fl : BitVec 5) (r : FRes) : LaneRes :=
  match trapFor fl r.iv r.dz r.ovf with
  | some f => .trap f
  | none => .w (BitVec.ofNat 32 r.bits)

/-- The result of a pair of half-word operations for a lane: the trap of either element, IV first (log 53). -/
def fpPair (fl : BitVec 5) (lo hi : FRes) : LaneRes :=
  match trapFor fl (lo.iv || hi.iv) (lo.dz || hi.dz) (lo.ovf || hi.ovf) with
  | some f => .trap f
  | none => .w (BitVec.ofNat 32 (lo.bits + 65536 * hi.bits))

/-- One or zero: the result of a comparison (R77, R82). -/
def boolW (b : Bool) : Word := if b then 1 else 0

end Sys2Proof.Machine
end

