-- ==== Sys2Proof/Machine/EngineOps.lean ====
section
/-! DEFINITION. Engine threads (R156-R163, R173-R176, R268): the checks and fork of each engine operation, its
accesses, its completion; the reduction slots of this device (R336-R339). -/

namespace Sys2Proof.Machine

/-- What an operation that runs once per issue comes to: done, a fault on the word, or a wait at it. -/
inductive ORes where
  | ok (s : State)
  | fault (f : FaultInfo)
  | wait (w : Wait)
  /-- a wait that leaves a trace in the state: a translation (R307) -/
  | hold (s : State) (w : Wait)

/-- The word takes its outcome: every executing lane goes on, faults, or waits (R157). -/
def State.once (s : State) : ORes → State
  | .ok s' => s'.advAll
  | .fault f => s.raiseAll f
  | .wait w => s.waitAll w
  | .hold s' w => s'.holdLanes s'.iss.gk s'.iss.lanes w

def faultTag (code tag : Nat) : FaultInfo := { code := code, tag := some tag }
def FaultInfo.withTag (f : FaultInfo) (tag : Nat) : FaultInfo := { f with tag := some tag }

/-- The byte range that a program of rows touches: rows times stride plus one row (R159). -/
def rowsExtent (rows bytes stride : Nat) : Nat := if rows = 0 || bytes = 0 then 0 else (rows - 1) * stride + bytes

/-- The tag of an engine operation (Table 7.6): its number within the budget, and not Held. -/
def State.tagCheck (s : State) (gk tag : Nat) : Option FaultInfo :=
  if tag ≥ (s.kern gk).tagb then some (faultTag fcILLEGAL_OPERAND tag)
  else if s.tagOf gk tag == .held then some (faultTag fcTAG_BUSY tag) else none

/-- Steps 1 to 4 of R139 for a capability and a whole extent (R157). -/
def State.extentCheck (s : State) (gk : Nat) (c : Cap) (allow : List Nat) (need off n tag : Nat) : Option FaultInfo :=
  match s.capSteps13 (s.kern gk).ctx c allow need with
  | some e => some ((capFault e c off).withTag tag)
  | none => if capBounds c off n && s.gwinIn (s.group gk).tk c off n then none else some ((capFault fcCAP_BOUNDS c off).withTag tag)

/-- The rows of a copy in a GWIN capability lie in the members' extents (R248). -/
def State.rowsIn (s : State) (gk : Nat) (c : Cap) (off rows bytes stride : Nat) : Bool :=
  Cap.type c != tGWIN || (List.range rows).all (fun r => s.gwinIn (s.group gk).tk c (off + r * stride) bytes)
/-- `extentCheck` for the rows of a copy. -/
def State.rowsCheck (s : State) (gk : Nat) (c : Cap) (need off rows bytes stride tag : Nat) : Option FaultInfo :=
  match s.capSteps13 (s.kern gk).ctx c allowAll need with
  | some e => some ((capFault e c off).withTag tag)
  | none =>
    if capBounds c off (rowsExtent rows bytes stride) && s.rowsIn gk c off rows bytes stride then none
    else some ((capFault fcCAP_BOUNDS c off).withTag tag)

/-- What a tag keeps of the thread that completed it, for the join of its observers (R165, R268). -/
def tagAgent (key : Nat) : Nat := 2 ^ 202 + key
def State.tagHist (s : State) (gk t : Nat) : Nat := tagAgent (tagKey (s.group gk).tk (s.coreIdx gk) t)
/-- Stores that a launch's completion follows (Table 18.7). -/
def State.launchHist (s : State) (ln : Nat) (ids : List Nat) : State :=
  if ids.isEmpty then s else s.modLaunch ln (fun x => { x with hist := x.hist ++ ids.filter (fun i => !x.hist.contains i) })
/-- A thread completes a tag with a status; nothing when its team is gone. -/
def State.tagDone (s : State) (gk t th status : Nat) : State :=
  if !(s.teamOf gk).live then s
  else
    let wrote := match s.thread th with | some x => x.wrote | none => []
    let s := { s with t := { s.t with tagWrote := tset [] s.t.tagWrote (tagKey (s.group gk).tk (s.coreIdx gk) t) wrote } }
    ((s.setTag gk t (.done status)).addHist (s.tagHist gk t) (s.hist (thAgent th))).launchHist (s.teamOf gk).ln (s.hist (thAgent th))
/-- A core's view of what a thread wrote raised to its stores (R268): address in the order of the location, bytes, version. -/
def State.raiseViews (s : State) (core : Nat) (ws : List (Nat × Nat × Nat)) : State :=
  ws.foldl (fun s w => s.raiseView core w.1 w.2.1 w.2.2) s
/-- A lane observes a tag Done: the join (R165). Its core's view of every location that the thread wrote rises to that
store (R268). -/
def State.joinTag (s : State) (gk lane t : Nat) : State :=
  (s.addHist (lkOf gk lane) (s.hist (s.tagHist gk t))).raiseViews (s.group gk).core
    (tget [] s.t.tagWrote (tagKey (s.group gk).tk (s.coreIdx gk) t))

/-- A thread forks (R268): its tag is Held, its history is the issuing lane's. -/
def State.fork (s : State) (x : Thread) : Nat × State :=
  let (k, s) := s.fresh
  let s := s.setThread k (some x)
  let s := s.setTag x.gk x.tag .held
  let s := s.setPairDone x.gk x.tag 0
  let s := { s with o := { s.o with hist := tset [] s.o.hist (s.tagHist x.gk x.tag) [] } }
  (k, s.addHist (thAgent k) (s.hist (lkOf x.gk x.lane)))

def mkThread (kind : ThreadKind) (tk gk lane core tag : Nat) (block : List Word) (capd caps : Cap) : Thread :=
  { kind := kind, tk := tk, gk := gk, lane := lane, core := core, tag := tag, block := block, capd := capd, caps := caps
    lanes := [], got := [], put := [], status := 0, waits := false, pair := {} }

/-! ### Pieces of a copy -/

/-- A piece: source offset, destination offset, bytes; no piece crosses a 64-byte sector of its destination. -/
structure Piece where
  src : Nat
  dst : Nat
  n : Nat
  deriving DecidableEq, Repr

/-- A run of bytes cut at the destination's sectors. -/
def cutRun (src dst len base : Nat) : List Piece :=
  let first := dst + base
  let lastSector := (first + len - 1) / 64
  if len = 0 then []
  else (List.range (lastSector - first / 64 + 1)).map (fun i =>
    let lo := max first ((first / 64 + i) * 64)
    let hi := min (first + len) ((first / 64 + i + 1) * 64)
    ⟨src + (lo - first), lo - base, hi - lo⟩)

def w64 (b : List Word) (i : Nat) : Nat := (joinW (b.getD (i + 1) 0) (b.getD i 0)).toNat
def w32 (b : List Word) (i : Nat) : Nat := (b.getD i 0).toNat

/-! ### CHAIN (R61, R161) -/

def chainOp (b : Nat) : Nat := b / 8
def chainK (b : Nat) : Nat := b % 8
def chainBytes (block : List Word) : List Nat := (List.range 8).map (fun i => (w32 block (6 + i / 4)) / 2 ^ (8 * (i % 4)) % 256)

/-- The program legality of R61. -/
def chainLegal (p : List Nat) : Bool :=
  let opsBeforeEnd := p.takeWhile (fun b => chainOp b != 0)
  let rest := p.drop opsBeforeEnd.length
  p.all (fun b => chainOp b < 20) && (rest.drop 1).all (· == 0) &&
  p.all (fun b => chainK b == 0 || [1, 2, 3, 4, 5, 6, 16, 18, 19].contains (chainOp b)) &&
  p.all (fun b => !((chainOp b == 4 || chainOp b == 16) && chainK b == 7)) &&
  (p.drop 1).all (fun b => chainOp b != 18) &&
  (opsBeforeEnd.dropLast).all (fun b => chainOp b != 19)

/-- The format slot a CHAIN reads or writes through. -/
def chainIn (p : List Nat) : Option Nat := match p with | b :: _ => if chainOp b == 18 then some (chainK b) else none | [] => none
def chainOut (p : List Nat) : Option Nat :=
  match (p.takeWhile (fun b => chainOp b != 0)).getLast? with
  | some b => if chainOp b == 19 then some (chainK b) else none
  | none => none

def Kern.fmt (k : Kern) (n : Nat) : Fmt := Fmt.ofBits (k.slots.getD n 0)
def Kern.fmtEmpty (k : Kern) (n : Nat) : Bool := k.slots.getD n 0 == 0

/-- Bits of an element in the BYTE layout (R26). -/
def elemBits (f : Fmt) : Nat := match f.kind with | .f16 | .bf16 => 16 | _ => if f.width ≤ 4 then 4 else 8
def codeBits (f : Fmt) : Nat := match f.kind with | .f16 | .bf16 => 16 | _ => f.width
def bytesOf (bits n : Nat) : Nat := (bits * n + 7) / 8

def chainSlotBad (k : Kern) (o : Option Nat) : Bool :=
  match o with
  | some n => k.fmtEmpty n || (k.fmt n).plane || (k.fmt n).block != 0
  | none => false

/-- One operation on the running element, FP32 with RNE, NaNs canonical. -/
def chainStep (nbv : Nat) (k : Nat → Nat) (b x : Nat) : Nat :=
  let c := k (chainK b)
  let c1 := k (chainK b + 1)
  match chainOp b with
  | 1 => engAdd x c
  | 2 => engSub x c
  | 3 => engMul x c
  | 4 => engFma x c c1
  | 5 => engFMax nbv true x c
  | 6 => engFMax nbv false x c
  | 7 => if f32.isNan x then f32.qnan else x % 2 ^ 31
  | 8 => if f32.isNan x then f32.qnan else x ^^^ 2 ^ 31
  | 9 => engFMax nbv true x 0
  | 10 => canon (fExp2 nbv x)
  | 11 => canon (fLog2 nbv x)
  | 12 => canon (fRcp nbv x)
  | 13 => canon (fRsq nbv x)
  | 14 => canon (fSqrt nbv x)
  | 15 => canon (fTanh nbv x)
  | 16 => engFMax nbv false (engFMax nbv true x c) c1
  | 17 => engMul x x
  | _ => x

/-- The element written for an element read: bits in, bits out. -/
def chainRun (kn : Kern) (k : Nat → Nat) (p : List Nat) (raw : Nat) : Nat :=
  let x0 := match chainIn p with
    | some n => canon (f32.round .rne ((kn.fmt n).value (raw % 2 ^ codeBits (kn.fmt n)) (.fin false 1 0)))
    -- CHAIN writes no NaN but the canonical one (Table 2.8)
    | none => if f32.isNan raw then f32.qnan else raw
  let x := (p.takeWhile (fun b => chainOp b != 0)).foldl (fun x b => chainStep kn.nbv k b x) x0
  match chainOut p with
  | some n => (kn.fmt n).encode (f32.val x) (.fin false 1 0)
  | none => x

/-! ### Issue of the engine operations -/

/-- The group whose registers a copy to REGW brings its data to: that of its first byte (R142, R163). -/
def State.landTarget (s : State) (tk : Nat) (cd : Cap) (off : Nat) : Option Nat :=
  let g := (Cap.base cd + off) / 32768
  if g < (s.team tk).ngroups then some (gkOf tk g) else none

/-- Bytes of a copy. -/
def Thread.bytes (x : Thread) : Nat :=
  w32 x.block 4 * (if x.kind == .copy2d then w32 x.block 5 % 2 ^ 26 else 1)

/-- Landing-buffer entries of a core that copies in flight have reserved (R163). -/
def State.landReserved (s : State) (core : Nat) : Nat :=
  (s.e.threads.map (fun p => match p.2 with
    | some x => if (x.kind == .copy || x.kind == .copy2d) && Cap.type x.capd == tREGW && x.status == 0 &&
        (match s.landTarget x.tk x.capd (w64 x.block 2) with | some t => (s.group t).core == core | none => false)
      then (x.bytes + 3) / 4 else 0
    | none => 0)).sum

/-- A lane of the issue has an acquire or fence pending (R147). -/
def State.acqAny (s : State) : Bool := s.iss.lanes.any (fun l => s.acqPending (lkOf s.iss.gk l))

/-- An earlier store of the issuing lanes over a location has still to reach it (R268). -/
def State.storePending (s : State) (a th : Nat) (l : Loc) (n : Nat) : Bool :=
  s.o.pend.any (fun p => p.1 < th && (match p.2 with
    | some e => e.agent == a && e.isStore && (e.tr.isSome && l.space.1 % 8 < 4 || s.common e.loc e.size l n) | none => false)) ||
  s.o.cbuf.any (fun p => match p.2 with | some b => b.agent == a && b.ev < th && s.common b.loc b.size l n | none => false)

/-- COPY and COPY2D (R159, R163). -/
def State.copyIssue (s : State) (gk lane tag pd ps : Nat) (b : List Word) (two : Bool) : ORes :=
  let cs := s.creg gk ps
  let cd := s.creg gk pd
  let bytes := w32 b 4
  let rows := if two then w32 b 5 % 2 ^ 26 else 1
  let dtag := w32 b 5 / 2 ^ 26
  let total := rows * bytes
  let regw := Cap.type cd == tREGW
  if !two && w32 b 5 % 2 ^ 26 != 0 then .fault (faultTag fcILLEGAL_OPERAND tag)
  else match s.tagCheck gk tag with
  | some f => .fault f
  | none => match s.rowsCheck gk cs rR (w64 b 0) rows bytes (w32 b 6) tag with
  | some f => .fault f
  | none => match s.rowsCheck gk cd rW (w64 b 2) rows bytes (w32 b 7) tag with
  | some f => .fault f
  | none =>
  if regw && total > 32768 then .fault (faultTag fcILLEGAL_OPERAND tag)
  else if s.acqAny then .wait (.order none)
  else
    let g := s.group gk
    let target := s.landTarget g.tk cd (w64 b 2)
    let tcore := match target with | some t => (s.group t).core | none => g.core
    let used := (s.t.landing.filter (fun e => e.core == tcore)).length + s.landReserved tcore
    if regw && used + (total + 3) / 4 > 8192 then .fault (faultTag fcLANDING_FULL tag)
    else
      let x := mkThread (if two then .copy2d else .copy) g.tk gk lane g.core tag b cd cs
      -- a DTAG that is Held, or not the target team's, completes the copy FAULTED and nothing lands
      let bad := regw && (match target with
        | some t => dtag ≥ (s.kern t).tagb || s.tagOf t dtag == .held
        | none => true)
      let (_, s) := s.fork { x with status := if bad && total > 0 then 1 else 0 }
      .ok (if regw && !bad && total > 0 then (match target with | some t => s.setTag t dtag .held | none => s) else s)

/-- CHAIN (R161): its constants are read at issue. -/
def State.chainIssue (s : State) (gk lane tag pd ps : Nat) (b : List Word) : ORes :=
  let cs := s.creg gk ps
  let cd := s.creg gk pd
  let k := s.kern gk
  let p := chainBytes b
  let n := w32 b 4
  let c1 := s.creg gk 1
  let ko := w32 b 5
  if !chainLegal p || chainSlotBad k (chainIn p) || chainSlotBad k (chainOut p) then .fault (faultTag fcILLEGAL_OPERAND tag)
  else match s.tagCheck gk tag with
  | some f => .fault f
  | none =>
    let inB := match chainIn p with | some m => bytesOf (elemBits (k.fmt m)) n | none => 4 * n
    let outB := match chainOut p with | some m => bytesOf (elemBits (k.fmt m)) n | none => 4 * n
    match s.extentCheck gk cs allowAll rR (w64 b 0) inB tag with
    | some f => .fault f
    | none => match s.extentCheck gk cd allowAll rW (w64 b 2) outB tag with
    | some f => .fault f
    | none => match s.extentCheck gk c1 [tSCR] rR ko 32 tag with
    | some f => .fault f
    | none =>
    if ko % 32 != 0 then .fault ((capFault fcMISALIGNED c1 ko).withTag tag)
    else if s.acqAny then .wait (.order none)
    else
      let g := s.group gk
      if s.iss.lanes.any (fun l => s.storePending (lkOf gk l) s.next (.scr g.tk (Cap.base c1 + ko)) 32) then .wait .place
      else
      let ks := (List.range 8).map (fun i => (i, 0, BitVec.ofNat 32 (s.scrRead g.tk (Cap.base c1 + ko + 4 * i) 4)))
      .ok (s.fork { mkThread .chain g.tk gk lane g.core tag b cd cs with lanes := ks }).2

/-- FBULK (R173, R335). -/
def State.fbulkIssue (s : State) (gk lane tag pd ps : Nat) (b : List Word) : ORes :=
  let cs := s.creg gk ps
  let cd := s.creg gk pd
  let n := w32 b 4
  match s.tagCheck gk tag with
  | some f => .fault f
  | none => match s.extentCheck gk cs [tMEM, tSCR] rR (w64 b 0) n tag with
  | some f => .fault f
  | none => match s.extentCheck gk cd [tPEER] rW (w64 b 2) n tag with
  | some f => .fault f
  | none =>
  if !s.nondetOk gk then .fault (faultTag fcNONDET_OP tag)
  else if s.acqAny then .wait (.order none)
  else
    let g := s.group gk
    -- a counter needs a scratch window of the peer's on-chip map as its destination (R335)
    let (r, s') := s.resolve g.tk g.core cd (w64 b 2) 1 .write false false
    let scratchWin := match r with
      | .ok (.peer _ a) => 2 ^ 42 ≤ a && bitField (a - 2 ^ 42) 37 1 == 0 && bitField a 28 4 == 1
      | _ => true
    if w32 b 5 != 0xFFFFFFFF && !scratchWin then .fault (faultTag fcILLEGAL_OPERAND tag)
    else .ok ((s'.markNondet gk).fork (mkThread .fbulk g.tk gk lane g.core tag b cd cs)).2

/-- FRLEASE (R175, R347). -/
def State.frleaseIssue (s : State) (gk lane tag pd ps : Nat) (b : List Word) : ORes :=
  let cs := s.creg gk ps
  let cd := s.creg gk pd
  let c := w32 b 0
  if bitField c 6 2 != 0 || bitField c 13 3 != 0 || bitField c 8 4 > 6 || bitField c 16 16 == 0 then
    .fault (faultTag fcILLEGAL_OPERAND tag)
  else match s.tagCheck gk tag with
  | some f => .fault f
  | none => match s.capSteps13 (s.kern gk).ctx cd [tPEER] rA with
  | some e => .fault ((capFault e cd 0).withTag tag)
  | none => match s.capCheckAll (s.kern gk).ctx cs [tMEM, tSCR] rW (w64 b 2) 16 with
  | some f => .fault (f.withTag tag)
  | none =>
  if !s.nondetOk gk then .fault (faultTag fcNONDET_OP tag)
  else if s.acqAny then .wait (.order none)
  else
    let g := s.group gk
    .ok ((s.markNondet gk).fork (mkThread .frlease g.tk gk lane g.core tag b cd cs)).2

/-- FRED (R176, R347). -/
def State.fredIssue (s : State) (gk lane tag pd : Nat) (b : List Word) : ORes :=
  let cd := s.creg gk pd
  match s.tagCheck gk tag with
  | some f => .fault f
  | none => match s.capSteps13 (s.kern gk).ctx cd [tPEER] rA with
  | some e => .fault ((capFault e cd 0).withTag tag)
  | none =>
  if !s.nondetOk gk then .fault (faultTag fcNONDET_OP tag)
  else if s.acqAny then .wait (.order none)
  else
    let g := s.group gk
    .ok ((s.markNondet gk).fork (mkThread .fred g.tk gk lane g.core tag b cd 0)).2

/-- A command of q0 or q4 (R158): word 0, then the scalar block. A MIN6 that the queue does not take and non-zero bits 31:18
of word 0 are ILLEGAL_OPERAND, and words that a command does not use may hold anything (log 53). -/
def State.command (s : State) (gk lane : Nat) (fabric : Bool) (ws : List Word) : ORes :=
  let w := w32 ws 0
  let tag := bitField w 6 6
  let pd := bitField w 12 3
  let ps := bitField w 15 3
  let b := ws.drop 1
  if bitField w 18 14 != 0 then .fault (faultTag fcILLEGAL_OPERAND tag)
  else if fabric then
    match bitField w 0 6 with
    | 0 => s.fbulkIssue gk lane tag pd ps b
    | 1 => if ps != 0 then .fault (faultTag fcILLEGAL_ENCODING tag) else s.fredIssue gk lane tag pd b
    | 2 => s.frleaseIssue gk lane tag pd ps b
    | _ => .fault (faultTag fcILLEGAL_OPERAND tag)
  else
    match bitField w 0 6 with
    | 0 => s.copyIssue gk lane tag pd ps b false
    | 1 => s.copyIssue gk lane tag pd ps b true
    | 6 => s.chainIssue gk lane tag pd ps b
    | _ => .fault (faultTag fcILLEGAL_OPERAND tag)

/-! ### Accesses of a thread -/

/-- The bytes of a capability read by a thread, or the wait or failure met. -/
inductive TAcc where
  | ok (v : Nat)
  | wait (obj page : Nat) (r : WaitReason)
  | hold
  | fail (status : Nat)

/-- The issuing lane's earlier stores over a location have drained (R268). -/
def State.threadClear (s : State) (th : Nat) (x : Thread) (l : Loc) (n : Nat) : Bool :=
  !s.storePending (lkOf x.gk x.lane) th l n

/-- A copy or chain writes to a page that it reads: the one translation step that it takes there is a write's (R269). -/
def State.threadWrites (s : State) (x : Thread) (obj page : Nat) : Bool :=
  let b := x.block
  let n := match x.kind with
    | .copy => w32 b 4
    | .copy2d => rowsExtent (w32 b 5 % 2 ^ 26) (w32 b 4) (w32 b 7)
    | .chain => match chainOut (chainBytes b) with
      | some m => Sys2Proof.Machine.bytesOf (elemBits ((s.team x.tk).kern.fmt m)) (w32 b 4) | none => 4 * w32 b 4
    | _ => 0
  let lo := Cap.base x.capd + w64 b 2
  n > 0 && Cap.obj x.capd == obj && [tMEM, tPEER, tHOST].contains (Cap.type x.capd) && lo / 65536 ≤ page && page ≤ (lo + n - 1) / 65536

/-- The location of n bytes of a capability for a thread: a page takes one translation step in the whole operation
(R269). -/
def State.threadLoc (s : State) (th : Nat) (x : Thread) (c : Cap) (off n : Nat) (kind : AccKind) : RRes × State :=
  let a := Cap.base c + off
  if !([tMEM, tPEER, tHOST].contains (Cap.type c)) then s.resolve x.tk x.core c off n kind false false
  else
    let key := Cap.obj c
    let kind := if kind == .read && s.threadWrites x key (a / 65536) then .write else kind
    match (s.thread th).bind (fun y => y.pins.find? (fun p => p.cap == key && p.page == a / 65536)) with
    | some p => (.ok (p.loc.shift (a - p.start)), s)
    | none => match s.resolve x.tk x.core c off n kind false false with
      | (.ok l, s) =>
        let p : Pin := { cap := key, page := a / 65536, start := a / 65536 * 65536, loc := l.back (a % 65536), at_ := s.next }
        (.ok l, s.modThread th (fun y => { y with pins := y.pins ++ [p] }))
      | r => r

/-- Bytes read by an engine for a group's team: in a deterministic launch, under its own buffered entries (R294). -/
def State.detRead (s : State) (core gk : Nat) (l : Loc) (size : Nat) : Nat × State :=
  let (v, s) := if s.detAct gk l .load == .overlay then s.detValue gk core l size else s.readNow core l size
  (v, s.detMark gk l false)

/-- n bytes read one by one, each translated (R159 has no alignment rule). -/
def State.threadRead (s : State) (th : Nat) (x : Thread) (c : Cap) (off : Nat) : Nat → TAcc × State
  | 0 => (.ok 0, s)
  | n + 1 =>
    let (r, s) := s.threadLoc th x c off 1 .read
    match r with
    | .wait o p w => (.wait o p w, s)
    | .fault _ => (.fail 1, s)
    | .ok l =>
      if !s.pathOpen l || !s.threadClear th x l 1 then (.hold, s)
      else if s.detAct x.gk l .load == .defer then (.hold, s.detMark x.gk l true)
      else if (s.hitsPoison l 1).isSome then (.fail 1, s)
      else
        let (v, s) := s.detRead x.core x.gk l 1
        match State.threadRead s th x c (off + 1) n with
        | (.ok r, s) => (.ok (v % 256 + 256 * r), s)
        | e => e

/-- What a store that has just been performed leaves for its thread's join. -/
def State.wroteAt (s : State) (core : Nat) (l : Loc) (size : Nat) : List (Nat × Nat × Nat) :=
  match l with
  | .dev a .wb nc => let x := ordAddr core a nc; [(x, size, s.newest x)]
  | _ => []
/-- What a thread has written is kept for its join (R268). -/
def State.threadWrote (s : State) (th core : Nat) (l : Loc) (size : Nat) : State :=
  s.modThread th (fun y => { y with wrote := s.wroteAt core l size ++ y.wrote })

/-- A thread's store at a location: straight to it, or to the system buffer for a peer or the host (R268). -/
def State.threadPut (s : State) (th : Nat) (x : Thread) (l : Loc) (size v : Nat) : State :=
  if l.leaves then
    let (id, s) := s.fresh
    let b : BufStore := { id := id, core := x.core, agent := thAgent th, loc := l, size := size, val := BitVec.ofNat 512 v, rel := []
                          ev := th, ctx := (s.team x.tk).kern.ctx }
    ({ s with o := { s.o with sbuf := tset none s.o.sbuf id (some b) } }).addHist (thAgent th) [id]
  else match s.detAct x.gk l .store with
    | .buffer => s.detEnter x.gk x.core .store l size (BitVec.ofNat 128 v)
    | _ => (((s.writeNow x.core l size v).setRel l size []).detMark x.gk l false).threadWrote th x.core l size

def State.threadWrite (s : State) (th : Nat) (x : Thread) (c : Cap) (off v : Nat) : Nat → TAcc × State
  | 0 => (.ok 0, s)
  | n + 1 =>
    let (r, s) := s.threadLoc th x c off 1 .write
    match r with
    | .wait o p w => (.wait o p w, s)
    | .fault _ => (.fail 1, s)
    | .ok l =>
      if !s.threadClear th x l 1 || s.detAct x.gk l .store == .full then (.hold, s)
      else if s.detAct x.gk l .store == .defer then (.hold, s.detMark x.gk l true)
      else
        -- 1 says that a destination of a multicast refused
        let (no, s) := match l with | .peer d a => if d < 16 then (0, s) else s.mcRefused (d - 16) a | _ => (0, s)
        match State.threadWrite (s.threadPut th x l 1 (v % 256)) th x c (off + 1) (v / 256) n with
        | (.ok p, s) => (.ok (if no = 0 then p else 1), s)
        | r => r

/-- A write that covers a poisoned sector whole clears its mark (R353). -/
def State.pieceClears (s : State) (x : Thread) (c : Cap) (off n : Nat) : State :=
  if n < 64 then s
  else match s.resolve x.tk x.core c off 1 .write false false with
    | (.ok (.dev a _ _), _) => s.clearPoison a n
    | _ => s

/-- The pieces of a thread's work, in ascending order. -/
def State.pieces (s : State) (x : Thread) : List Piece :=
  let b := x.block
  match x.kind with
  | .copy => cutRun (w64 b 0) (w64 b 2) (w32 b 4) (Cap.base x.capd)
  | .copy2d => (List.range (w32 b 5 % 2 ^ 26)).flatMap (fun r =>
      cutRun (w64 b 0 + r * w32 b 6) (w64 b 2 + r * w32 b 7) (w32 b 4) (Cap.base x.capd))
  | .chain =>
    let k := (s.team x.tk).kern
    let p := chainBytes b
    let ib := match chainIn p with | some m => elemBits (k.fmt m) | none => 32
    let ob := match chainOut p with | some m => elemBits (k.fmt m) | none => 32
    let per := if ib = 4 || ob = 4 then 2 else 1
    -- a piece of a CHAIN is one element, or the two that share a byte; n counts its elements
    (List.range ((w32 b 4 + per - 1) / per)).map (fun i =>
      ⟨w64 b 0 + bytesOf ib (i * per), w64 b 2 + bytesOf ob (i * per), min per (w32 b 4 - i * per)⟩)
  | .fbulk =>
    -- packets of at most 4,096 bytes, each in one destination frame (R335)
    let d0 := w64 b 2 + Cap.base x.capd
    let n := w32 b 4
    if n = 0 then []
    else (List.range ((d0 + n - 1) / 4096 - d0 / 4096 + 1)).map (fun i =>
      let lo := max d0 ((d0 / 4096 + i) * 4096)
      let hi := min (d0 + n) ((d0 / 4096 + i + 1) * 4096)
      ⟨w64 b 0 + (lo - d0), lo - Cap.base x.capd, hi - lo⟩)
  | .gather | .scatter | .scataddF | .scataddB => x.lanes.map (fun p => ⟨p.2.1, p.2.1, 4⟩)
  | .fred | .frlease => [⟨0, 0, 0⟩]
  | _ => []

/-- Copies whose source and destination share an object read everything before they write (R160). -/
def Thread.sameObject (x : Thread) : Bool := Cap.type x.capd == Cap.type x.caps && Cap.obj x.capd == Cap.obj x.caps

def Thread.fail (x : Thread) (st : Nat) : Thread := { x with status := st }

/-! ### Reduction slots of this device (R336, R337) -/

def State.rslot (s : State) (n : Nat) : RSlot := tget {} s.f.slots n
def State.setRslot (s : State) (n : Nat) (x : RSlot) : State := { s with f := { s.f with slots := tset {} s.f.slots n x } }

/-- The running result after an accepted value (Table 7.12, R337). -/
def RSlot.combine (r : RSlot) (v : Nat) : RSlot :=
  let isF := r.op = 0 || (2 ≤ r.op && r.op ≤ 4)
  let old := r.value.toNat
  let nan := isF && f32.isNan v
  let v' := if r.op = 4 then v % 2 ^ 31 else v
  let res :=
    if !r.some then v'
    else match r.op with
      | 0 => engAdd old v
      | 1 => (old + v) % 2 ^ 32
      | 2 => engMinMax true old v
      | 3 => engMinMax false old v
      | 4 => engMinMax true old v'
      | 5 => max old v
      | _ => min old v
  if nan then { r with nan := true, value := if r.nani then r.value else BitVec.ofNat 32 f32.qnan, some := r.some || !r.nani }
  else if isF && r.nan && !r.nani then r
  else { r with value := BitVec.ofNat 32 res, some := true }

/-- A slot completes: DONE, with its result record to be sent (R339). -/
def RSlot.finish (r : RSlot) (status : Nat) : RSlot :=
  { r with st := .done, status := status, pending := true
           value := if r.some then r.value else BitVec.ofNat 32 f32.qnan }

/-- The cycle counter of a port, or (15) of the fabric unit (R338). -/
def State.fabCycles (s : State) (n : Nat) : DWord := if n < 15 then (s.port n).cycles else s.f.cycles

/-- FRED at this device's slot (Table 19.3): the completion status. The first contribution that is accepted arms the timer
(R338). -/
def State.contribute (s : State) (n dev : Nat) (v : Word) : Nat × State :=
  let r := s.rslot n
  match r.st with
  | .free => (5, s)
  | .done => (4, s)
  | _ =>
    if !r.expected.getLsbD dev || r.seen.getLsbD dev then (5, s)
    else
      let c := if dev == s.h.devnum then 15 else (dev + 16 - s.h.devnum - 1) % 16
      let r := if r.st == .leased then { r with timer := c, start := s.fabCycles c } else r
      let r := { (r.combine v.toNat) with seen := r.seen ||| (1 <<< dev), st := .armed }
      (0, s.setRslot n (if r.seen == r.expected then r.finish 0 else r))

/-- FRLEASE at this device's slot: OK unless another lease holds it. -/
def State.lease (s : State) (n dev th tk : Nat) (cfg timeout : Word) (cap : Cap) (off : Nat) : Nat × State :=
  match (s.rslot n).st with
  | .free | .done =>
    (0, s.setRslot n { st := .leased, op := bitField cfg.toNat 8 4, nani := cfg.getLsbD 12
                       expected := BitVec.ofNat 16 (bitField cfg.toNat 16 16), timeout := timeout, leaserDev := dev
                       th := th, tk := tk, cap := cap, off := off })
  | _ => (5, s)

/-- The device a REDUCE object names in UNIT, for FRLEASE and FRED. -/
def State.reduceDev (s : State) (x : Thread) : RRes × State := s.resolve x.tk x.core x.capd 0 1 .atomic false true

/-! ### One access of a thread (R259 step 6) -/

/-- A wait of a thread enters the merge table; a failure sets its status. -/
def State.threadMiss (s : State) (th : Nat) (x : Thread) (a : TAcc) (kind : AccKind) : State :=
  match a with
  | .wait o p r => (s.mergeWait x.core (s.team x.tk).kern.ctx o p r (.thread th 1) kind).modThread th (fun x => { x with waits := true })
  | .fail st => s.modThread th (·.fail st)
  | _ => s

def Thread.took (x : Thread) (i : Nat) (v : Word) : Thread := { x with got := tset none x.got i (some v) }
def Thread.did (x : Thread) (i : Nat) (p : Nat := 0) : Thread :=
  if x.put.contains i then x else { x with put := x.put ++ [i], part := x.part || p != 0 }

/-- A thread's got table holds wide pieces as words of 32 bits at 16 * piece + k. -/
def gotPiece (x : Thread) (i n : Nat) : Option Nat :=
  if (List.range ((n + 3) / 4)).all (fun k => (tget none x.got (16 * i + k)).isSome) then
    some ((List.range ((n + 3) / 4)).foldr (fun k v => ((tget none x.got (16 * i + k)).getD 0).toNat + 2 ^ 32 * v) 0)
  else none
def setPiece (x : Thread) (i n v : Nat) : Thread :=
  (List.range ((n + 3) / 4)).foldl (fun x k => x.took (16 * i + k) (BitVec.ofNat 32 (v / 2 ^ (32 * k)))) x

/-- A frame of a scratch window of this device's on-chip map: the team whose share holds the byte there, and its
scratch offset; none inside for a byte that no resident team holds (R335). -/
def State.scrWindow (s : State) (a : Nat) : Option (Option (Nat × Nat)) :=
  let o := a - 2 ^ 42
  if 2 ^ 42 ≤ a && a < 2 ^ 42 + 2 ^ 40 && bitField o 37 1 == 0 && bitField o 28 4 == 1 then
    some (s.poolScr (bitField o 38 2 * 32 + bitField o 32 5) (bitField o 0 28))
  else none

/-- A byte count added to the ARRIVED field of a counter (R173, R174). -/
def State.addArrived (s : State) (tk counter n : Nat) : State :=
  s.scrWrite tk counter 4 ((s.scrRead tk counter 4 + n) % 2 ^ 32)

/-- A packet of a bulk transfer that lands on this device, at an aperture offset; none when it is refused. -/
def State.bulkLand (s : State) (a : Nat) (v n : Nat) (counter : Word) : Option State :=
  match s.scrWindow a with
  | some _ =>
    if (List.range n).any (fun i => (s.scrWindow (a + i)).bind id == none) then none
    else
      let s := (List.range n).foldl (fun s i => match (s.scrWindow (a + i)).bind id with
        | some (tk, o) => s.scrWrite tk o 1 (v / 2 ^ (8 * i)) | none => s) s
      match (s.scrWindow a).bind id with
      | some (tk, _) => some (if counter == 0xFFFFFFFF then s else s.addArrived tk counter.toNat n)
      | none => some s
  | none =>
    let s := (List.range n).foldl (fun s i => s.winWrite (a + i) 1 (v / 2 ^ (8 * i) % 256) false) s
    some ((s.setRel (.dev a .wb false) n []).clearPoison a n)

/-- One item of a thread's work: the pieces' reads are items 0 to n − 1 and their writes n to 2n − 1 for copies; the
other kinds have one item for each piece. -/
def State.engineStep (s : State) (th item : Nat) : State :=
  match s.thread th with
  | none => s
  | some x =>
    if x.status != 0 || x.waits then s
    else
      let ps := s.pieces x
      -- an element of GATHER, SCATTER and SCATADD is its own lane's access (R268)
      let x := match x.kind, x.lanes[item]? with
        | .gather, some p | .scatter, some p | .scataddF, some p | .scataddB, some p => { x with lane := p.1 }
        | _, _ => x
      match x.kind with
      | .copy | .copy2d =>
        if item < ps.length then
          match ps[item]? with
          | some p =>
            if (gotPiece x item p.n).isSome then s
            else match s.threadRead th x x.caps p.src p.n with
              | (.ok v, s) => s.modThread th (fun x => setPiece x item p.n v)
              | (e, s) => s.threadMiss th x e .read
          | none => s
        else
          let i := item - ps.length
          match ps[i]? with
          | some p =>
            let allRead := (List.range ps.length).all (fun j => match ps[j]? with
              | some q => (gotPiece x j q.n).isSome | none => true)
            match gotPiece x i p.n with
            | some v =>
              if x.put.contains i || (x.sameObject && !allRead) then s
              else if Cap.type x.capd == tREGW then s.modThread th (fun x => x.did i)
              else match s.threadWrite th x x.capd p.dst v p.n with
                | (.ok q, s) => (s.pieceClears x x.capd p.dst p.n).modThread th (fun x => x.did i q)
                | (e, s) => s.threadMiss th x e .write
            | none => s
          | none => s
      | .chain =>
        match ps[item]? with
        | some p =>
          if x.put.contains item then s
          else
            let k := (s.team x.tk).kern
            let prog := chainBytes x.block
            let ib := match chainIn prog with | some m => elemBits (k.fmt m) | none => 32
            let ob := match chainOut prog with | some m => elemBits (k.fmt m) | none => 32
            match s.threadRead th x x.caps p.src (bytesOf ib p.n) with
            | (.ok raw, s) =>
              let kc (j : Nat) : Nat := match x.lanes[j]? with | some q => q.2.2.toNat | none => 0
              let out := (List.range p.n).foldl (fun a e =>
                a + chainRun k kc prog (raw / 2 ^ (ib * e) % 2 ^ ib) % 2 ^ ob * 2 ^ (ob * e)) 0
              match s.threadWrite th x x.capd p.dst out (bytesOf ob p.n) with
              | (.ok p, s) => s.modThread th (fun x => x.did item p)
              | (e, s) => s.threadMiss th x e .write
            | (e, s) => s.threadMiss th x e .read
        | none => s
      | .gather =>
        match x.lanes[item]? with
        | some (l, off, _) =>
          if (tget none x.got l).isSome then s
          else match s.threadRead th x x.caps off 4 with
            | (.ok v, s) => s.modThread th (fun x => (x.took l (BitVec.ofNat 32 v)).did item)
            | (e, s) => s.threadMiss th x e .read
        | none => s
      | .scatter =>
        match x.lanes[item]? with
        | some (_, off, v) =>
          -- ascending lane order, so that the highest-numbered lane's value remains (Table 7.9)
          if x.put.contains item || x.put.length < item then s
          else match s.threadWrite th x x.capd off v.toNat 4 with
            | (.ok p, s) => s.modThread th (fun x => x.did item p)
            | (e, s) => s.threadMiss th x e .write
        | none => s
      | .scataddF | .scataddB =>
        match x.lanes[item]? with
        | some (_, off, v) =>
          if x.put.contains item then s
          else
            let (r, s) := s.threadLoc th x x.capd off 4 .atomic
            match r with
            | .wait o p w => s.threadMiss th x (.wait o p w) .atomic
            | .fault _ => s.threadMiss th x (.fail 1) .atomic
            | .ok l =>
              if !s.threadClear th x l 4 then s
              else
                let op : Aop := if x.kind == .scataddF then .addF32 else .addB32
                match s.detAct x.gk l (.atomic op 0 0 false) with
                | .buffer =>
                  (s.detEnter x.gk x.core (.atomic op 0 0 false) l 4 (v.zeroExtend 128)).modThread th (fun x => x.did item)
                | .normal =>
                  if hostUnsupported l (.atomic op 0 0 false) || (s.hitsPoison l 4).isSome then s.threadMiss th x (.fail 1) .atomic
                  else
                    let (old, s) := s.readNow x.core l 4
                    ((((s.writeNow x.core l 4 (atomNew op old v.toNat 0).1).setRel l 4 []).detMark x.gk l false).threadWrote th x.core l
                      4).modThread th (fun x => x.did item)
                | .defer => s.detMark x.gk l true
                | _ => s
        | none => s
      | .fbulk =>
        match ps[item]? with
        | some p =>
          if x.put.contains item then s
          else match s.threadRead th x x.caps p.src p.n with
            | (.ok v, s) => match s.threadLoc th x x.capd p.dst 1 .write with
              | (.ok (.peer d a), s) =>
                if d == s.h.devnum then match s.bulkLand a v p.n (x.block.getD 5 0) with
                  | some s => s.modThread th (fun x => x.did item)
                  | none => s.threadMiss th x (.fail 1) .write
                else match s.threadWrite th x x.capd p.dst v p.n with
                  | (.ok q, s) => s.modThread th (fun x => x.did item q)
                  | (e, s) => s.threadMiss th x e .write
              | (.wait o q w, s) => s.threadMiss th x (.wait o q w) .write
              | (_, s) => s.threadMiss th x (.fail 1) .write
            | (e, s) => s.threadMiss th x e .read
        | none => s
      | .fred =>
        if item != 0 || x.put.contains item then s
        else
          let (r, s) := s.reduceDev x
          match r with
          | .wait o p w => s.threadMiss th x (.wait o p w) .atomic
          | .fault _ => s.threadMiss th x (.fail 1) .write
          | .ok (.peer d a) =>
            if !s.pathOpen (.peer d a) then s else
            let slot := w32 x.block 1 % 64
            let (st, s) := if d == s.h.devnum then s.contribute slot d (x.block.getD 0 0)
              else let (f, s) := s.draw; ([0, 4, 5].getD (f.toNat % 3) 0, s)
            s.setThread th (some { (x.did item) with status := st })
          | .ok _ => s.threadMiss th x (.fail 1) .write
      | .frlease =>
        if item != 0 || x.put.contains item then s
        else
          let (r, s) := s.reduceDev x
          match r with
          | .wait o p w => s.threadMiss th x (.wait o p w) .atomic
          | .fault _ => s.threadMiss th x (.fail 1) .write
          | .ok (.peer d a) =>
            if !s.pathOpen (.peer d a) then s else
            let (st, s) := if d == s.h.devnum then
                s.lease (w32 x.block 0 % 64) d th x.tk (x.block.getD 0 0) (x.block.getD 1 0) x.caps (w64 x.block 2)
              else let (f, s) := s.draw; ([0, 5].getD (f.toNat % 2) 0, s)
            s.setThread th (some { (x.did item) with status := st })
          | .ok _ => s.threadMiss th x (.fail 1) .write
      | _ => s

/-- The bytes of a copy for a register at a REGW offset, as a landing-buffer entry; none for a register outside the group's
lanes and budget, whose write is ignored (R142). -/
def State.landEntry (s : State) (x : Thread) (dtag off lo hi v : Nat) : Option Landing :=
  (s.regwAt x.tk off).map (fun r =>
    { core := (s.group r.1).core, tk := x.tk, gk := r.1, tag := dtag, key := vKey (lkOf r.1 r.2.1) r.2.2
      val := BitVec.ofNat 32 (v * 2 ^ (8 * (lo - off))), mask := BitVec.ofNat 4 (2 ^ (hi - off) - 2 ^ (lo - off)) })

/-- The landing of a copy to REGW (R163): its words enter the landing buffer under DTAG, which becomes Done. -/
def State.landCopy (s : State) (th : Nat) (x : Thread) : State :=
  let ps := s.pieces x
  let dtag := w32 x.block 5 / 2 ^ 26
  let entries := (List.range ps.length).flatMap (fun i => match ps[i]? with
    | none => []
    | some p =>
      let a := Cap.base x.capd + p.dst
      let v := (gotPiece x i p.n).getD 0
      (List.range ((a + p.n + 3) / 4 - a / 4)).filterMap (fun k =>
        let off := (a / 4 + k) * 4
        let lo := max a off
        let hi := min (a + p.n) (off + 4)
        s.landEntry x dtag off lo hi (v / 2 ^ (8 * (lo - a)) % 2 ^ (8 * (hi - lo)))))
  let s := { s with t := { s.t with landing := s.t.landing ++ entries } }
  match s.landTarget x.tk x.capd (w64 x.block 2) with
  | some t => s.tagDone t dtag th 0
  | none => s

/-- A thread of engine words has done all it was asked, or failed. -/
def State.threadDone (s : State) (x : Thread) : Bool := x.status != 0 || x.put.length == (s.pieces x).length

/-- ENGINE_COMPLETE: the tag becomes Done with its status (Table 7.6). A GATHER's vector enters q1 in issue order. -/
def State.engineDone (s : State) (th : Nat) : State :=
  match s.thread th with
  | none => s
  | some x =>
    -- every byte has been performed at its destination, or has been acknowledged there (R159, R173)
    let onWay := s.o.sbuf.any (fun p => match p.2 with | some b => b.agent == thAgent th | none => false)
    if x.kind == .pair || x.kind == .array || !s.threadDone x || onWay then s
    else
      let earlier := s.e.threads.any (fun p => p.1 < th && (match p.2 with
        | some y => y.kind == .gather && y.gk == x.gk | none => false))
      if x.kind == .gather && earlier then s
      else
        let s := if (x.kind == .copy || x.kind == .copy2d) && Cap.type x.capd == tREGW && x.status == 0 && !x.put.isEmpty
          then s.landCopy th x else s
        let s := if x.kind == .gather then
            s.modGroup x.gk (fun g => { g with q1fly := g.q1fly - 1, q1 := g.q1 ++ [x.got.filterMap (fun p => p.2.map (p.1, ·))] })
          else s
        (s.tagDone x.gk x.tag th (if x.status == 0 && x.part then 2 else x.status)).setThread th none

end Sys2Proof.Machine
end

