-- ==== Sys2Proof/Machine/TeamOps.lean ====
section
/-! DEFINITION. The life of a team: its tables, quiescence and gang states (R249-R252), when it may end (R226), its
end, its kill (R354, R355), and ERROR events (R356). -/

namespace Sys2Proof.Machine

/-! ### Tables of a team -/

/-- The physical slots that a team's names are bound to. -/
def State.physOf (s : State) (tk : Nat) : List Nat :=
  (tslice s.t.slots (slotKey tk 0 0) (slotKey (tk + 1) 0 0)).filterMap (fun p => p.2.map (·.phys))

def clearPhys (t : Tbl Nat) (ph : List Nat) : Tbl Nat := t.filter (fun p => !ph.contains (p.1 / 2 ^ 16))

/-- The kernel-lifetime state of a team gone (R16, R354 step 3). -/
def State.clearTeam (s : State) (tk : Nat) : State :=
  let g0 := gkOf tk 0
  let g1 := gkOf (tk + 1) 0
  let ph := s.physOf tk
  { s with
    g := { s.g with
      lanes := tclear s.g.lanes (lkOf g0 0) (lkOf g1 0)
      groups := tclear s.g.groups g0 g1
      vreg := tclear s.g.vreg (vKey (lkOf g0 0) 0) (vKey (lkOf g1 0) 0)
      sreg := tclear s.g.sreg (sKey g0 0) (sKey g1 0)
      creg := tclear s.g.creg (cKey g0 0) (cKey g1 0)
      jmask := tclear s.g.jmask (cKey g0 0) (cKey g1 0) }
    t := { s.t with
      scratch := tclear s.t.scratch (scrKey tk 0) (scrKey (tk + 1) 0)
      acc := tclear s.t.acc (accKey tk 0 0) (accKey (tk + 1) 0 0)
      regions := tclear s.t.regions (regionKey tk 0 0) (regionKey (tk + 1) 0 0)
      slots := tclear s.t.slots (slotKey tk 0 0) (slotKey (tk + 1) 0 0)
      slotCode := clearPhys s.t.slotCode ph
      slotScale := clearPhys s.t.slotScale ph
      tags := tclear s.t.tags (tagKey tk 0 0) (tagKey (tk + 1) 0 0)
      pairDone := tclear s.t.pairDone (tagKey tk 0 0) (tagKey (tk + 1) 0 0)
      bars := tclear s.t.bars (barKey tk 0) (barKey (tk + 1) 0)
      landing := s.t.landing.filter (fun e => e.tk != tk) } }

/-- A team that has been told to stop starts nothing new; a CTXSAVE or CTXLOAD in progress runs to its end (Table 16.5). -/
def Team.stops (t : Team) : Bool := t.stopping && t.saving.isNone

/-! ### Quiescence and gang states (R249-R252) -/

/-- Threads of a team still in flight. -/
def State.threadsOf (s : State) (tk : Nat) : List Nat :=
  s.e.threads.filterMap (fun p => match p.2 with | some x => if x.tk == tk then some p.1 else none | none => none)

/-- Array entries of a team not finished. -/
def State.fifoOf (s : State) (tk : Nat) : List Nat :=
  s.e.fifo.filterMap (fun p => match p.2 with | some x => if x.tk == tk && !x.finished then some p.1 else none | none => none)

/-- A member is quiescent: no lane live or absent, its sequencer exited, no thread in flight. -/
def State.quiescent (s : State) (tk : Nat) : Bool :=
  (s.groupsOf tk).all (fun gk => (s.lanesOf gk).all (fun l => (s.lane (lkOf gk l)).st == .exited)) &&
  (s.team tk).seq.st == .exited && (s.threadsOf tk).isEmpty && (s.fifoOf tk).isEmpty

/-- The stores that a team's lanes and sequencer have in their histories. -/
def State.teamHist (s : State) (tk : Nat) : List Nat :=
  (tslice s.o.hist (lkOf (gkOf tk 0) 0) (lkOf (gkOf (tk + 1) 0) 0)).flatMap (·.2)

/-- A release at GANG scope of all that a team's agents have done may be performed (R250, R263). -/
def State.teamReleased (s : State) (tk : Nat) : Bool :=
  s.o.pend.all (fun p => match p.2 with | some e => s.agentTk e.agent != tk | none => true) &&
  (s.teamHist tk).all (s.visible .gang (lkOf (gkOf tk 0) 0))

/-- The state of a member: one that becomes quiescent while resident is leaving from then on, as though it had issued
GANGLEAVE, whose release must be performed (R250). -/
def State.gangState (s : State) (tk : Nat) : GangSt :=
  let t := s.team tk
  if t.gst == .resident && s.quiescent tk && s.teamReleased tk then .leaving else t.gst

def gangNo : GangSt → Nat | .resident => 0 | .leaving => 1 | .left => 2 | .killed => 3

/-- The members of a team's gang, the latest team of each index. -/
def State.gangOf (s : State) (tk : Nat) : List Nat :=
  (List.range (s.team tk).kern.gang).filterMap (fun m => s.member tk m)

/-- Member y has acknowledged the leave of member x (R251). -/
def State.acked (s : State) (x y : Nat) : Bool :=
  let t := s.team y
  t.acks.contains ((s.team x).idx % max 1 t.kern.gang) || t.gst == .left || t.gst == .killed ||
    (s.gangState y == .leaving && s.quiescent y)

/-- R226: the team may end. Its stores have left its agents and the core buffers. -/
def State.mayEnd (s : State) (tk : Nat) : Bool :=
  let t := s.team tk
  t.live && !t.saved && s.quiescent tk &&
  s.o.pend.all (fun p => match p.2 with | some e => s.agentTk e.agent != tk | none => true) &&
  s.o.cbuf.all (fun p => match p.2 with | some b => s.agentTk b.agent != tk | none => true) &&
  (s.gangOf tk).all (fun y => y == tk || s.acked tk y)

/-- The pool entries of a team's completed children go free when the team ends (R288). -/
def State.freePool (s : State) (tk : Nat) : State :=
  { s with l := { s.l with launches := s.l.launches.map (fun p => (p.1, p.2.map (fun x =>
    if !x.fromHost && x.parentTeam == tk && (match x.st with | .complete _ => true | _ => false) then { x with pooled := false } else x))) } }

/-- TEAM_END: the slice is withdrawn, the member left, its resources returned (R226, R252). -/
def State.endTeam (s : State) (tk : Nat) : State :=
  if !s.mayEnd tk then s
  else
    let t := s.team tk
    let s := s.clearTeam tk
    let s := (s.launchHist t.ln (s.teamHist tk)).freePool tk
    let s := s.setTeam tk { t with live := false, gst := .left, fq := [], fwait := [], parked := [] }
    s.modLaunch t.ln (fun x => { x with ended := x.ended + 1 })

/-! ### ERROR events (R356) -/

structure ErrorInfo where
  addr : Nat := 0
  count : Nat := 0
  launch : Nat := 0xFFFFFFFF
  team : Nat := 0xFFFFFFFF
  num : Nat := 0
  die : Nat := 0
  action : Nat := 0
  unit : Nat := 0
  kind : Nat := 0
  deriving DecidableEq, Repr

def ErrorInfo.payload (e : ErrorInfo) : Nat :=
  fld e.addr 448 64 + fld e.count 416 32 + fld e.launch 384 32 + fld e.team 352 32 + fld e.num 48 16 + fld e.die 40 2 +
    fld e.action 32 8 + fld e.unit 24 8 + fld e.kind 16 8

/-- The count of corrected errors of a unit. -/
def ceKey (unit num : Nat) : Nat := unit * 65536 + num
def State.ceCount (s : State) (unit num : Nat) : Nat := (tget 0 s.r.ce (ceKey unit num)).toNat

def State.errorEvent (s : State) (ctx : Word) (e : ErrorInfo) : State :=
  s.sendEvent 6 ctx { e with count := s.ceCount e.unit e.num }.payload

/-! ### Team kill (R354, R355) -/

/-- Whether a thread writes the state of a team: its own through its queues, accumulators, registers or scratch, or a member's
slice through a gang window. -/
def State.writesInto (s : State) (tk : Nat) (x : Thread) : Bool :=
  let hits (off : Nat) : Bool := s.member x.tk ((Cap.base x.capd + off) / 2 ^ 24) == some tk
  if x.kind == .pair || x.kind == .gather then x.tk == tk
  else if Cap.type x.capd == tGWIN then (s.pieces x).any (fun p => hits p.dst)
  else x.tk == tk && [tSCR, tREGW, tACCW].contains (Cap.type x.capd)

/-- The engine threads of other teams that write into a killed team's slice complete KILLED (R226, R354). -/
def State.killThreads (s : State) (tk : Nat) : State :=
  s.e.threads.foldl (fun s p => match p.2 with
    | some x => if x.tk != tk && s.writesInto tk x then (s.tagDone x.gk x.tag p.1 6).setThread p.1 none else s
    | none => s) s

/-- The sides bound for a killed team's slots are refused, and each of their pairs takes a fault at its EXIT that shows the sides
applied before (R236, R355). -/
def State.refuseSides (s : State) (tk : Nat) : State :=
  let lks := (s.e.sides.filterMap (fun p => p.2.bind (fun sd => if sd.tk == tk then some sd.lane else none))).eraseDups
  lks.foldl (fun s lk =>
    let l := s.lane lk
    let p := l.pair
    let closed := match s.thread p.th with | some x => x.pair.closed | none => []
    let r := match s.thread p.th with | some x => x.pair.record.toNat | none => 0
    let has (isB : Bool) : Bool := if isB && bitField r 2 2 != 0 then p.sideB.isSome else p.sideA.isSome
    let done (isB was : Bool) : Bool := was || (has isB && closed.contains (sideNo p.seq isB))
    let s := s.modLane lk (fun l => { l with pair := { l.pair with doneA := done false p.doneA, doneB := done true p.doneB } })
    let t := s.team tk
    s.pairFault lk l.pc { code := fcWINDOW_DEPARTED, detail := 512 + t.idx % max 1 t.kern.gang }) s

/-- The lanes of a team exit. -/
def State.exitAll (s : State) (tk : Nat) : State :=
  (s.groupsOf tk).foldl (fun s gk => (s.lanesOf gk).foldl (fun s l =>
    if (s.lane (lkOf gk l)).st == .exited then s else s.endLane (lkOf gk l)) s) s

/-- The stores to memory that a team's agents have issued go on their way (R354: what it wrote stays as written). -/
def State.flushStores (s : State) (tk : Nat) : State :=
  s.o.pend.foldl (fun s p => match p.2 with
    | some e =>
      if s.agentTk e.agent == tk && e.kind == .store && e.tr.isNone && (e.loc.space.1 < 2 || e.loc.leaves) then
        let s := match e.rel with
          | some sc => { s with o := { s.o with fences := tset [] s.o.fences e.agent (tget [] s.o.fences e.agent ++ [(sc, s.hist e.agent)]) } }
          | none => s
        (s.unpend p.1).putStore p.1 e.agent (s.agentCore e.agent) e.loc e.size e.val.toNat
      else s
    | none => s) s

/-- The engines' work of a team stopped: array entries and sides dropped, threads into its own state ended. -/
def State.dropEngines (s : State) (tk : Nat) : State :=
  let threads := s.e.threads.filter (fun p => match p.2 with | some x => !(x.tk == tk && s.writesInto tk x) | none => true)
  let fifo := s.e.fifo.filter (fun p => match p.2 with | some x => x.tk != tk | none => true)
  let sides := s.e.sides.filter (fun p => match p.2 with | some x => x.tk != tk | none => true)
  let epi := if (tget none s.e.fifo s.e.epi.op).any (fun x => x.tk == tk) then {} else s.e.epi
  let pend := s.o.pend.filter (fun p => match p.2 with | some e => s.agentTk e.agent != tk | none => true)
  { s with
    e := { s.e with threads := threads, fifo := fifo, sides := sides, epi := epi }
    o := { s.o with pend := pend }
    x := { s.x with merge := s.x.merge.map (fun m => { m with
      groups := m.groups.filter (fun gk => tkOfGk gk != tk)
      threads := m.threads.filter (fun th => threads.any (fun p => p.1 == th))
      seqs := m.seqs.filter (· != tk) }) } }

/-- The flash bank that runs (R358). -/
def Hours.running (r : Hours) : Bank := if r.runsB then r.bankB else r.bankA
/-- The relaunches that the running configuration image allows (R354). -/
def State.relaunchLimit (s : State) : Nat := min 3 (Config.relaunchMax s.r.running.config)

/-- The kill of a team struck by an error of a unit: its work stops, its records go, its state is scrubbed, and it waits
for its relaunch, or ends with its launch FAULTED. -/
def State.killTeam (s : State) (tk unit num addr kind : Nat) : State :=
  let t := s.team tk
  if !t.live then s
  else
    let last := t.relaunches ≥ s.relaunchLimit
    let s := (((((s.dropHalts tk).flushStores tk).exitAll tk).stopSeq tk).killThreads tk).refuseSides tk
    let s := s.dropEngines tk
    let s := ((s.clearTeam tk).launchHist t.ln (s.teamHist tk)).freePool tk
    let s := s.setTeam tk { t with
      live := false, gst := .killed, seq := {}, fq := [], fwait := [], parked := [], saved := false, stopping := false
      again := !last }
    let s := s.errorEvent t.ctxWord { addr := addr, launch := (s.launchOf t.ln).serial, team := t.idx, num := num
                                      die := dieOf (t.cores.headD 0), action := if last then 6 else 4, unit := unit, kind := kind }
    if last then s.modLaunch t.ln (fun x => { x with faulted := true, ended := x.ended + 1 }) else s

end Sys2Proof.Machine
end

