-- ==== Sys2Proof/Machine/ArrayOps.lean ====
section
/-! DEFINITION. The matrix array (R189-R203): kernel-image words, records and their checks, pinned pages, the array
FIFO, what each entry does, and the epilogue. -/

namespace Sys2Proof.Machine

/-! ### Words of the kernel image (R43, R189, R281) -/

/-- Bytes of an object of a context read by a core, as a fetch or an arbiter reads them. -/
def State.objRead (s : State) (core ctx obj off size : Nat) : Except TRes Nat × State :=
  let (r, s) := s.translate core ctx obj off .read
  match r with
  | .ok l _ _ => let (v, s) := s.readNow core l size; (.ok v, s)
  | r => (.error r, s)

/-- A 32-bit word of a kernel image, at a byte offset from its descriptor. -/
def State.kernWord (s : State) (core : Nat) (k : Kern) (off : Nat) : Except TRes Word × State :=
  let (r, s) := s.objRead core k.ctx k.kobj (k.koff + off) 4
  match r with
  | .ok v => (.ok (BitVec.ofNat 32 v), s)
  | .error e => (.error e, s)

/-- An epilogue program read up to its EEND (R60): the words, or the offset of the offending word, or the miss. -/
inductive EpiRes where
  | ok (ws : List Word)
  | bad (at_ : Nat)
  | miss (r : TRes) (off : Nat)

def State.epiWords (s : State) (core : Nat) (k : Kern) (base : Nat) (n : Nat) (acc : List Word) : Nat → EpiRes × State
  | 0 => (.bad 64, s)
  | fuel + 1 =>
    let (r, s) := s.kernWord core k (base + 4 * n)
    match r with
    | .error e => (.miss e (base + 4 * n), s)
    | .ok w => match decodeE w with
      | .error _ => (.bad n, s)
      | .ok i => if i == .eend then (.ok (acc ++ [w]), s) else State.epiWords s core k base (n + 1) (acc ++ [w]) fuel

/-- Epilogue program n of a kernel. -/
def State.epiProgram (s : State) (core : Nat) (k : Kern) (n : Nat) : EpiRes × State :=
  let (r, s) := s.kernWord core k (k.epioff + 4 * n)
  match r with
  | .error e => (.miss e (k.epioff + 4 * n), s)
  | .ok base => s.epiWords core k base.toNat 0 [] 64

/-! ### Who enters an array operation -/

/-- The issuer of an array operation: the sequencer of a team (gk 0) through its lead registers, or a group (R208). -/
structure ArrBy where
  tk : Nat
  gk : Nat
  lane : Nat
  core : Nat
  k : Nat
  deriving DecidableEq, Repr

/-- The team's sequencer, on its lowest core (R189). -/
def State.bySeq (s : State) (tk : Nat) : ArrBy := { tk := tk, gk := 0, lane := 0, core := (s.team tk).cores.headD 0, k := 0 }
/-- A posting group. -/
def State.byGroup (s : State) (gk lane : Nat) : ArrBy :=
  { tk := (s.group gk).tk, gk := gk, lane := lane, core := (s.group gk).core, k := s.coreIdx gk }

def ArrBy.regs (b : ArrBy) : Nat := if b.gk = 0 then gkOf b.tk 0 else b.gk
def ArrBy.agent (b : ArrBy) : Nat := if b.gk = 0 then seqAgent b.tk else lkOf b.gk b.lane
def ArrBy.waiter (b : ArrBy) : Waiter := if b.gk = 0 then .seq b.tk else .post b.gk
def State.capOf (s : State) (b : ArrBy) (n : Nat) : Cap := if b.gk = 0 then s.creg b.regs n else s.heldCap b.gk b.lane n
def State.kernOf (s : State) (b : ArrBy) : Kern := (s.team b.tk).kern

/-! ### Pinned pages (R194) -/

/-- The pieces of a run of bytes that lie each in one page. -/
def cutPages (a n : Nat) : List (Nat × Nat) :=
  if n = 0 then []
  else (List.range ((a + n - 1) / 65536 - a / 65536 + 1)).map (fun i =>
    let lo := max a ((a / 65536 + i) * 65536)
    let hi := min (a + n) ((a / 65536 + i + 1) * 65536)
    (lo, hi - lo))

inductive PinRes where
  | ok (pins : List Pin) (s : State)
  | fault (f : FaultInfo)
  | wait (s : State) (w : Wait)

/-- The pages of a run of bytes of capability c (number n of the operation) resolved and pinned. -/
def State.pinRun (s : State) (b : ArrBy) (n : Nat) (c : Cap) (kind : AccKind) (pins : List Pin) : List (Nat × Nat) → PinRes
  | [] => .ok pins s
  | (a, len) :: rest =>
    if pins.any (fun p => p.cap == n && p.page == a / 65536 && p.start ≤ a) then s.pinRun b n c kind pins rest
    else
      let (r, s) := s.resolve b.tk b.core c (a - Cap.base c) len kind false false
      match r with
      | .ok l => State.pinRun s b n c kind (pins ++ [{ cap := n, page := a / 65536, start := a, loc := l, at_ := s.next }]) rest
      | .fault f => .fault f
      | .wait obj page w =>
        let ctx := (s.team b.tk).kern.ctx
        .wait (s.mergeWait b.core ctx obj page w b.waiter kind) (.merge ctx obj page (a - Cap.base c) (Cap.type c))

/-- Types that records of the array may name (R194). -/
def allowArr : List Nat := [1, 2, 3]

/-- One extent of an array operation: capability number in the operation, rights, offset, rows, row bytes, stride. -/
structure Ext where
  cap : Nat
  need : Nat
  kind : AccKind
  off : Nat
  rows : Nat
  bytes : Nat
  stride : Nat
  deriving DecidableEq, Repr

/-- Steps 1 to 4 of R139 for every extent, in order. -/
def State.extsCheck (s : State) (b : ArrBy) (caps : List Cap) : List Ext → Option FaultInfo
  | [] => none
  | e :: es =>
    let c := caps.getD e.cap 0
    match s.capSteps13 (s.team b.tk).kern.ctx c allowArr e.need with
    | some code => some (capFault code c e.off)
    | none =>
      if !capBounds c e.off (rowsExtent e.rows e.bytes e.stride) then some (capFault fcCAP_BOUNDS c e.off)
      else s.extsCheck b caps es

def State.extsPin (s : State) (b : ArrBy) (caps : List Cap) (pins : List Pin) : List Ext → PinRes
  | [] => .ok pins s
  | e :: es =>
    let c := caps.getD e.cap 0
    let runs := (List.range e.rows).flatMap (fun r => cutPages (Cap.base c + e.off + r * e.stride) e.bytes)
    match s.pinRun b e.cap c e.kind pins runs with
    | .ok pins s => State.extsPin s b caps pins es
    | r => r

/-- The location of a byte of an entry's capability. -/
def ArrOp.at (x : ArrOp) (cap off : Nat) : Loc :=
  let a := Cap.base (x.caps.getD cap 0) + off
  match x.pins.find? (fun p => p.cap == cap && p.page == a / 65536) with
  | some p => p.loc.shift (a - p.start)
  | none => .scr x.tk 0

/-! ### Formats and rows (R26-R28, R192) -/

def Fmt.cls (f : Fmt) : ElemClass :=
  match f.kind with | .f16 => .f16 | .bf16 => .bf16 | _ => if f.width ≤ 4 then .narrow4 else .narrow8

/-- The depth of a class (R192). -/
def depthOf : ElemClass → Nat | .narrow4 => 256 | .f16 => 64 | .bf16 => 64 | _ => 128

/-- Bytes of n elements in the layout of a format. -/
def Fmt.rowBytes (f : Fmt) (n : Nat) : Nat :=
  if f.plane then (n + 63) / 64 * 8 * f.width else bytesOf (elemBits f) n

/-- The code of element j of a row; in the PLANE layout, from the first k planes (R27, R28). -/
def Fmt.codeAt (f : Fmt) (row k j : Nat) : Nat :=
  if f.plane then
    ((List.range k).map (fun i => row / 2 ^ (j / 64 * 64 * f.width + 64 * i + j % 64) % 2 * 2 ^ (f.width - 1 - i))).sum
  else row / 2 ^ (elemBits f * j) % 2 ^ codeBits f

/-- A row of codes in the layout of a format. -/
def Fmt.packRow (f : Fmt) (codes : List Nat) : Nat :=
  (List.range codes.length).foldl (fun r j =>
    let c := codes.getD j 0
    if f.plane then
      r + ((List.range f.width).map (fun i =>
        c / 2 ^ (f.width - 1 - i) % 2 * 2 ^ (j / 64 * 64 * f.width + 64 * i + j % 64))).sum
    else r + c * 2 ^ (elemBits f * j)) 0

/-! ### Slots and regions -/

def State.oslot (s : State) (b : ArrBy) (name : Nat) : Option OSlot := tget none s.t.slots (slotKey b.tk b.k name)
def State.setOslot (s : State) (b : ArrBy) (name : Nat) (x : Option OSlot) : State :=
  { s with t := { s.t with slots := tset none s.t.slots (slotKey b.tk b.k name) x } }
def State.region (s : State) (tk k r : Nat) : Region := tget {} s.t.regions (regionKey tk k r)
def State.setRegion (s : State) (tk k r : Nat) (x : Region) : State :=
  { s with t := { s.t with regions := tset {} s.t.regions (regionKey tk k r) x } }

/-- The slot that a name is bound to, or the fault of R190. -/
def State.slotFault (s : State) (b : ArrBy) (name : Nat) : Except FaultInfo OSlot :=
  if name ≥ 64 then .error (.of fcILLEGAL_OPERAND)
  else match s.oslot b name with | some x => .ok x | none => .error (.of fcSLOT_STATE)

/-- Physical slots of a core that are bound (Table 1.3). -/
def State.numsHeld (s : State) (core : Nat) : List Nat :=
  (s.teamsOn core).flatMap (fun p =>
    let k := p.2.cores.idxOf core
    (tslice s.t.slots (slotKey p.1 k 0) (slotKey p.1 k 64)).filterMap (fun q => q.2.map (·.num)))
/-- The slot that a name takes: the lowest that is free in the OPND banks (R196, R216, log 44). -/
def State.freeNum (s : State) (core : Nat) : Nat :=
  ((List.range 256).find? (fun n => bitField (s.bankrole core).toNat (2 * (n / 8)) 2 == 3 && !(s.numsHeld core).contains n)).getD 256
/-- The slots of a resumed team take places on its cores anew (R16). -/
def State.renumberSlots (s : State) (tk : Nat) : State :=
  let all := tslice s.t.slots (slotKey tk 0 0) (slotKey (tk + 1) 0 0)
  let put (s : State) (k : Nat) (x : Option OSlot) (n : Nat) : State :=
    { s with t := { s.t with slots := tset none s.t.slots k (x.map (fun y => { y with num := n })) } }
  let s := all.foldl (fun s p => put s p.1 p.2 256) s
  all.foldl (fun s p => put s p.1 p.2 (s.freeNum ((s.team tk).cores.getD (p.1 / 64 % 4) 0))) s

/-- Slots of the team on the core that are released but not yet returned (R196). -/
def State.unreturned (s : State) (b : ArrBy) : Nat :=
  (s.e.fifo.map (fun p => match p.2 with
    | some x => if x.tk == b.tk && x.core == b.core && !x.finished then (match x.kind with | .release ph => ph.length | _ => 0) else 0
    | none => 0)).sum

def State.boundSlots (s : State) (b : ArrBy) : Nat :=
  (tslice s.t.slots (slotKey b.tk b.k 0) (slotKey b.tk b.k 64)).length

/-- The unfinished entries of a core: those that hold one of the 32 places of its array FIFO, and the posts that wait in the
q3 of their groups (R195, R208). -/
def State.coreFifo (s : State) (core : Nat) : List (Nat × ArrOp) :=
  s.e.fifo.filterMap (fun p => match p.2 with
    | some x => if x.core == core && !x.finished then some (p.1, x) else none | none => none)
def State.fifoUsed (s : State) (core : Nat) : Nat := ((s.coreFifo core).filter (fun p => p.2.ord != 0)).length
/-- The posts that wait in q3s of a core, oldest first. -/
def State.q3Waits (s : State) (core : Nat) : List (Nat × ArrOp) := (s.coreFifo core).filter (fun p => p.2.ord == 0)
/-- Posts held in the q3 of a group. -/
def State.q3Held (s : State) (gk : Nat) : Nat := ((s.q3Waits (s.group gk).core).filter (fun p => p.2.gk == gk)).length

/-- An issuer of array entries: a posting group, or the sequencer of a team (R227). -/
def ArrOp.issuer (x : ArrOp) : Nat := if x.gk = 0 then gkOf x.tk (2 ^ 24 - 1) else x.gk
/-- The post that takes the next place: the oldest of the next group in rotation after the issuer served last (R227). -/
def State.nextPost (s : State) (core : Nat) : Option Nat :=
  let ws := s.q3Waits core
  let after := ws.filter (fun p => p.2.issuer > tget 0 s.e.served core)
  let least (l : List (Nat × ArrOp)) : Nat := l.foldl (fun m p => min m p.2.issuer) (2 ^ 64)
  let who := least (if after.isEmpty then ws else after)
  (ws.find? (fun p => p.2.issuer == who)).map (·.1)

/-! ### Entering an operation (R194-R200) -/

/-- The M-word that an array operation comes from, with the values of its m registers. -/
structure ArrIn where
  a : Word
  b : Word
  c : Word
  bar : Option Nat := none
  deriving DecidableEq, Repr

/-- The entry put in the FIFO when a place is free and no earlier post of its group waits, else in its group's q3. The history of
its issuer is its own (R209). -/
def State.enter (s : State) (b : ArrBy) (x : ArrOp) (f : State → State) : ORes :=
  let now := s.fifoUsed b.core < 32 && s.q3Held b.gk = 0
  if !now && (b.gk = 0 || s.q3Held b.gk ≥ 4) then .wait .place
  else
    let (id, s) := s.fresh
    let s := { s with e := { s.e with
      fifo := tset none s.e.fifo id (some { x with ord := if now then id else 0 })
      served := if now then tset 0 s.e.served b.core x.issuer else s.e.served } }
    .ok (f (s.addHist (thAgent id) (s.hist b.agent)))

def mkOp (b : ArrBy) (kind : ArrKind) (bar : Option Nat) : ArrOp :=
  { tk := b.tk, gk := b.gk, core := b.core, kind := kind, record := 0, prog := [], caps := [], pins := [], started := false
    row := 0, finished := false, bar := bar, agent := b.agent }

/-- The range of names of TCLAIM and TRELEASE. -/
def nameRange (a : Word) (n : Nat) : Option (List Nat) :=
  if n = 0 || n > 64 || a.toNat + n > 64 then none else some ((List.range n).map (a.toNat + ·))

def State.claimIssue (s : State) (b : ArrBy) (m : ArrIn) (n : Nat) : ORes :=
  match nameRange m.a n with
  | none => .fault (.of fcILLEGAL_OPERAND)
  | some ns =>
    let budget := (s.kernOf b).opndb
    if ns.any (fun x => (s.oslot b x).isSome) then .fault (.of fcSLOT_STATE)
    else if s.boundSlots b + n > budget then .fault (.of fcOPND_BUDGET)
    else if s.boundSlots b + s.unreturned b + n > budget then .wait .place
    else s.enter b (mkOp b (.claim n) m.bar) (fun s =>
      ns.foldl (fun s x => let (p, s) := s.fresh; s.setOslot b x (some { phys := p, num := s.freeNum b.core })) s)

def State.releaseIssue (s : State) (b : ArrBy) (m : ArrIn) (n : Nat) : ORes :=
  match nameRange m.a n with
  | none => .fault (.of fcILLEGAL_OPERAND)
  | some ns =>
    if ns.any (fun x => (s.oslot b x).isNone) then .fault (.of fcSLOT_STATE)
    else
      let ph := ns.filterMap (fun x => (s.oslot b x).map (·.phys))
      s.enter b (mkOp b (.release ph) m.bar) (fun s => ns.foldl (fun s x => s.setOslot b x none) s)

/-- A record of n bytes read through c1 at an offset (R189, R192, R193): the bits. -/
inductive RecRes where
  | ok (v : Nat) (s : State)
  | fault (f : FaultInfo)
  | wait (s : State) (w : Wait)

/-- Bytes read one after another at pinned pages. -/
def State.readPins (s : State) (core : Nat) (at_ : Nat → Loc) (off : Nat) : Nat → Nat × State
  | 0 => (0, s)
  | n + 1 =>
    let (v, s) := s.readNow core (at_ off) 1
    let (r, s) := State.readPins s core at_ (off + 1) n
    (v + 256 * r, s)

def State.readRecord (s : State) (b : ArrBy) (off n : Nat) : RecRes :=
  let c := s.capOf b 1
  if off % n != 0 then .fault (capFault fcMISALIGNED c off)
  else
    let e : Ext := { cap := 0, need := rR, kind := .read, off := off, rows := 1, bytes := n, stride := 0 }
    match s.extsCheck b [c] [e] with
    | some f => .fault f
    | none => match s.extsPin b [c] [] [e] with
      | .fault f => .fault f
      | .wait s w => .wait s w
      | .ok pins s =>
        let op : ArrOp := { mkOp b (.claim 0) none with caps := [c], pins := pins }
        -- the issuer's earlier stores to the record come first (R268)
        if s.storePending b.agent s.next (op.at 0 off) n then .wait s .place
        else
          let (v, s) := s.readPins b.core (op.at 0) off n
          .ok v s

/-- TLOAD (R197). Capabilities of the entry: 0 the elements, 1 the scale plane. An offset of the record is checked for its
alignment where it is used (R194, log 53). -/
def State.loadIssue (s : State) (b : ArrBy) (m : ArrIn) (f planes : Nat) : ORes :=
  match s.slotFault b m.a.toNat with
  | .error e => .fault e
  | .ok x => match s.readRecord b m.b.toNat 32 with
    | .fault e => .fault e
    | .wait s w => .hold s w
    | .ok r s =>
      let k := s.kernOf b
      let fm := k.fmt f
      let scaled := fm.blockLen != 0
      let bytes := fm.rowBytes (depthOf fm.cls)
      if bitField r 224 32 != 0 || bitField r 102 26 != 0 then .fault (.of fcILLEGAL_OPERAND)
      else if k.fmtEmpty f then .fault (.of fcILLEGAL_OPERAND)
      else if planes > fm.width || (planes != 0 && !fm.plane) then .fault (.of fcILLEGAL_OPERAND)
      else if bitField r 64 32 < bytes then .fault (.of fcILLEGAL_OPERAND)
      else if scaled && bitField r 128 64 % 2 != 0 then .fault (capFault fcMISALIGNED (s.capOf b (bitField r 99 3)) (bitField r 128 64))
      else
        let caps := [s.capOf b (bitField r 96 3), s.capOf b (bitField r 99 3)]
        let es : List Ext :=
          { cap := 0, need := rR, kind := .read, off := bitField r 0 64, rows := 128, bytes := bytes, stride := bitField r 64 32 } ::
          (if scaled then [{ cap := 1, need := rR, kind := .read, off := bitField r 128 64, rows := 128
                             bytes := 2 * fm.scales (depthOf fm.cls), stride := bitField r 192 32 }] else [])
        match s.extsCheck b caps es with
        | some e => .fault e
        | none => match s.extsPin b caps [] es with
          | .fault e => .fault e
          | .wait s w => .hold s w
          | .ok pins s =>
            s.enter b { mkOp b (.load x.phys f planes) m.bar with record := BitVec.ofNat 512 r, caps := caps, pins := pins }
              (fun s => s.setOslot b m.a.toNat (some { x with cls := fm.cls, fmt := f }))

/-- TZERO of a region and of a slot (R198). -/
def State.zeroRegionIssue (s : State) (b : ArrBy) (m : ArrIn) : ORes :=
  let r := m.c.toNat
  if r ≥ (s.kernOf b).accb then .fault (.of fcILLEGAL_OPERAND)
  else s.enter b (mkOp b (.zeroRegion r) m.bar) (fun s =>
    s.setRegion b.tk b.k r { (s.region b.tk b.k r) with kind := .empty })

def State.zeroSlotIssue (s : State) (b : ArrBy) (m : ArrIn) : ORes :=
  match s.slotFault b m.a.toNat with
  | .error e => .fault e
  | .ok x => s.enter b (mkOp b (.zeroSlot x.phys) m.bar) (fun s =>
      s.setOslot b m.a.toNat (some { x with cls := .free, fmt := 0 }))

/-- INT32 accumulation is open to a slot (R38, R198). -/
def intSlot (k : Kern) (x : OSlot) : Bool :=
  match x.cls with
  | .free => true
  | .narrow8 | .narrow4 => (k.fmt x.fmt).e == 0 && (k.fmt x.fmt).blockLen == 0
  | _ => false

/-- TMMA (R199). -/
def State.mmaIssue (s : State) (b : ArrBy) (m : ArrIn) (int sat : Bool) : ORes :=
  let k := s.kernOf b
  match s.slotFault b m.a.toNat with
  | .error e => .fault e
  | .ok xa => match s.slotFault b m.b.toNat with
    | .error e => .fault e
    | .ok xb =>
      let r := m.c.toNat
      let want : RegionKind := if int then .int32 else .float
      let have_ := (s.region b.tk b.k r).kind
      if r ≥ k.accb then .fault (.of fcILLEGAL_OPERAND)
      else if xa.cls != .free && xb.cls != .free && xa.cls != xb.cls then .fault (.of fcILLEGAL_OPERAND)
      else if int && !(intSlot k xa && intSlot k xb) then .fault (.of fcILLEGAL_OPERAND)
      else if sat && !int then .fault (.of fcILLEGAL_OPERAND)
      else if have_ != .empty && have_ != want then .fault (.of fcILLEGAL_OPERAND)
      else s.enter b (mkOp b (.mma xa.phys xb.phys xa.fmt xb.fmt xa.cls xb.cls r int sat) m.bar) (fun s =>
        s.setRegion b.tk b.k r { (s.region b.tk b.k r) with kind := want })

/-- Whether an epilogue program uses an E-word. -/
def epiUses (ws : List Word) (p : Instr → Bool) : Bool := ws.any (fun w => match decodeE w with | .ok i => p i | .error _ => false)
def isVec : Instr → Bool | .eldrow _ => true | .eldcol _ => true | _ => false
def isAmax : Instr → Bool | .eamax _ => true | _ => false
/-- The format slots of the ECVTs of a program that may not be named (R203). -/
def badEcvt (k : Kern) : Instr → Bool
  | .ecvt _ _ f => k.fmtEmpty f.toNat || (k.fmt f.toNat).kind != .narrow
  | _ => false

/-- TDRAIN (R200). Capabilities of the entry: 0 the destination, 1 c1 for the vector block, 2 the amax word.
An offset of the record is checked for its alignment where it is used (R194, log 53). -/
def State.drainIssue (s : State) (b : ArrBy) (m : ArrIn) (f prog : Nat) : ORes :=
  let k := s.kernOf b
  let r := m.c.toNat
  if r ≥ k.accb || prog ≥ k.epicount then .fault (.of fcILLEGAL_OPERAND)
  else match s.epiProgram b.core k prog with
    | (.bad n, _) => .fault { code := fcILLEGAL_ENCODING, detail := n }
    | (.miss (.wait w) off, s) =>
      let page := (k.koff + off) / 65536
      .hold (s.mergeWait b.core k.ctx k.kobj page w b.waiter .read) (.merge k.ctx k.kobj page 0 0)
    | (.miss _ _, _) => .fault (.of fcFETCH_FAULT)
    | (.ok ws, s) => match s.readRecord b m.b.toNat 64 with
      | .fault e => .fault e
      | .wait s w => .hold s w
      | .ok d s =>
        let dk := bitField d 99 2
        let fm := k.fmt f
        let bytes := if dk = 0 then 512 else if dk = 1 then fm.rowBytes 128 else 0
        let usesV := epiUses ws isVec
        let usesA := epiUses ws isAmax
        if bitField d 224 32 != 0 || bitField d 104 24 != 0 || dk = 3 then .fault (.of fcILLEGAL_OPERAND)
        else if dk = 1 && (k.fmtEmpty f || fm.kind != .narrow || fm.blockLen != 0) then .fault (.of fcILLEGAL_OPERAND)
        else if epiUses ws (badEcvt k) then .fault (.of fcILLEGAL_OPERAND)
        else if dk != 2 && bitField d 64 32 < bytes then .fault (.of fcILLEGAL_OPERAND)
        else if usesV && bitField d 192 32 % 4 != 0 then .fault (capFault fcMISALIGNED (s.capOf b 1) (bitField d 192 32))
        else if usesA && bitField d 128 64 % 4 != 0 then .fault (capFault fcMISALIGNED (s.capOf b (bitField d 101 3)) (bitField d 128 64))
        else
          let caps := [s.capOf b (bitField d 96 3), s.capOf b 1, s.capOf b (bitField d 101 3)]
          let es : List Ext :=
            (if dk != 2 then [{ cap := 0, need := rW, kind := .write, off := bitField d 0 64, rows := 128, bytes := bytes
                                stride := bitField d 64 32 }] else []) ++
            (if usesV then [{ cap := 1, need := rR, kind := .read, off := bitField d 192 32, rows := 1, bytes := 1024, stride := 0 }] else []) ++
            (if usesA then [{ cap := 2, need := rA, kind := .atomic, off := bitField d 128 64, rows := 1, bytes := 4, stride := 0 }] else [])
          match s.extsCheck b caps es with
          | some e => .fault e
          | none => match s.extsPin b caps [] es with
            | .fault e => .fault e
            | .wait s w => .hold s w
            | .ok pins s =>
              s.enter b { mkOp b (.drain r (s.region b.tk b.k r).kind f prog) m.bar with
                record := BitVec.ofNat 512 d, prog := ws, caps := caps, pins := pins } id

/-- The array operation of an M-word (R195, R208); none for an M-word that is no array operation. -/
def State.arrayIssue (s : State) (b : ArrBy) (i : Instr) (m : ArrIn) : Option ORes :=
  match i with
  | .tclaim _ n => some (s.claimIssue b m n.toNat)
  | .trelease _ n => some (s.releaseIssue b m n.toNat)
  | .tload _ _ f k => some (s.loadIssue b m f.toNat k.toNat)
  | .tzero _ => some (s.zeroRegionIssue b m)
  | .tzeroSlot _ => some (s.zeroSlotIssue b m)
  | .tmma _ _ _ u i => some (s.mmaIssue b m i u)
  | .tdrain _ _ f p => some (s.drainIssue b m f.toNat p.toNat)
  | _ => none

/-- A post of five words (R208). -/
def State.post5 (s : State) (gk lane : Nat) (ws : List Word) : ORes :=
  let w0 := ws.getD 0 0
  let w4 := w32 ws 4
  if s.acqPending (lkOf gk lane) then .wait (.order none)
  else if w4 / 32 != 0 || (w0 >>> 14).toNat % 4096 != 0 then .fault (.of fcILLEGAL_OPERAND)
  else
    let bar := if bitField w4 4 1 = 1 then some (w4 % 16) else none
    match decodeM w0 with
    | .error _ => .fault (.of fcILLEGAL_OPERAND)
    | .ok i => (s.arrayIssue (s.byGroup gk lane) i { a := ws.getD 1 0, b := ws.getD 2 0, c := ws.getD 3 0, bar := bar }).getD
        (.fault (.of fcILLEGAL_OPERAND))

/-! ### Running the entries -/

def State.arrOp (s : State) (id : Nat) : Option ArrOp := tget none s.e.fifo id
def State.setArrOp (s : State) (id : Nat) (x : Option ArrOp) : State :=
  { s with e := { s.e with fifo := tset none s.e.fifo id x } }

/-- The physical slots that an entry touches, and its regions. -/
def ArrOp.slots (x : ArrOp) : List Nat :=
  match x.kind with
  | .release ph => ph | .load p _ _ => [p] | .zeroSlot p => [p] | .mma pa pb _ _ _ _ _ _ _ => [pa, pb] | _ => []
def ArrOp.regions (x : ArrOp) : List (Nat × Nat) :=
  match x.kind with
  | .zeroRegion r => [(x.tk, r)] | .mma _ _ _ _ _ _ r _ _ => [(x.tk, r)] | .drain r _ _ _ => [(x.tk, r)] | _ => []

/-- Two entries touch one slot or region, or one page of memory that one of them writes. -/
def ArrOp.clash (x y : ArrOp) : Bool :=
  let drains (z : ArrOp) : Bool := match z.kind with | .drain _ _ _ _ => true | _ => false
  x.slots.any y.slots.contains || x.regions.any y.regions.contains ||
  ((drains x || drains y) && x.pins.any (fun p => y.pins.any (fun q =>
    p.loc.space.1 == q.loc.space.1 && p.loc.space.2 / 65536 == q.loc.space.2 / 65536)))

/-- The array, or the epilogue processor, is one unit of the core. -/
def ArrOp.unitOf (x : ArrOp) : Nat := match x.kind with | .mma .. => 1 | .drain .. => 2 | _ => 0

/-- An entry may start (R195). -/
def State.mayStart (s : State) (id : Nat) (x : ArrOp) : Bool :=
  !x.started && !x.finished && !(s.team x.tk).stops && !(s.team x.tk).saved && x.ord != 0 && s.e.fifo.all (fun p => match p.2 with
    | some y => p.1 == id || y.finished || y.core != x.core || y.ord == 0 ||
        (!(y.ord < x.ord && x.clash y) && !(y.started && y.unitOf == x.unitOf && x.unitOf != 0))
    | none => true)

/-- A post that waits in its q3 takes a place that is free, in rotation (R227). -/
def State.takePlace (s : State) (id : Nat) (x : ArrOp) : State :=
  if s.fifoUsed x.core ≥ 32 || s.nextPost x.core != some id then s
  else
    let (n, s) := s.fresh
    { s.setArrOp id (some { x with ord := n }) with e := { (s.setArrOp id (some { x with ord := n })).e with
      served := tset 0 s.e.served x.core x.issuer } }

/-- ARRAY_OP_START: an entry starts; one that waits for a place takes it first. -/
def State.arrayStart (s : State) (id : Nat) : State :=
  match s.arrOp id with
  | some x =>
    if x.ord == 0 then s.takePlace id x
    else if s.mayStart id x then s.setArrOp id (some { x with started := true }) else s
  | none => s

def codeKey (phys row k : Nat) : Nat := phys * 2 ^ 16 + row * 256 + k

/-- An entry stands, for the rules of deterministic launches, for its team's first group. -/
def ArrOp.detGk (x : ArrOp) : Nat := gkOf x.tk 0

/-- Bytes of an entry's source read one by one at its pinned pages (R294). -/
def State.arrBytes (s : State) (x : ArrOp) (cap off : Nat) : Nat → Nat × State
  | 0 => (0, s)
  | n + 1 =>
    let (v, s) := s.detRead x.core x.detGk (x.at cap off) 1
    let (r, s) := State.arrBytes s x cap (off + 1) n
    (v + 256 * r, s)

/-- A row of an entry's source; a poisoned byte is reported. -/
def State.arrRead (s : State) (x : ArrOp) (cap off n : Nat) : Option Nat × State :=
  if (List.range n).any (fun i => (s.hitsPoison (x.at cap (off + i)) 1).isSome) then (none, s)
  else
    let (v, s) := s.arrBytes x cap off n
    (some v, s)

/-- The locations that a TLOAD reads for its next row. -/
def State.loadLocs (s : State) (x : ArrOp) : List Loc :=
  match x.kind with
  | .load _ f _ =>
    let fm := (s.team x.tk).kern.fmt f
    let r := x.record.toNat
    let depth := depthOf fm.cls
    (List.range (fm.rowBytes depth)).map (fun i => x.at 0 (bitField r 0 64 + x.row * bitField r 64 32 + i)) ++
      (if fm.blockLen = 0 then [] else
        (List.range (2 * fm.scales depth)).map (fun i => x.at 1 (bitField r 128 64 + x.row * bitField r 192 32 + i)))
  | _ => []

/-- The earlier stores of the agent that entered an operation have reached the locations that it accesses (R268). -/
def State.arrClear (s : State) (id : Nat) (x : ArrOp) (ls : List Loc) : Bool :=
  let mine := s.o.pend.any (fun p => match p.2 with | some e => e.agent == x.agent && p.1 < id | none => false) ||
    s.o.cbuf.any (fun p => match p.2 with | some b => b.agent == x.agent && b.ev < id | none => false)
  !mine || ls.all (fun l => !s.storePending x.agent id l 1)

/-- A location of an operation lies in a member's slice that is gone (R254). -/
def State.arrGone (s : State) (x : ArrOp) (ls : List Loc) : Bool :=
  ls.any (fun l => match l with | .scr y _ => y != x.tk && (s.departed y).isSome | _ => false)

/-- The accesses of an entry that a deterministic launch defers are marked; none when none is (R294). -/
def State.deferAll (s : State) (gk : Nat) (ls : List Loc) (kind : EvKind) : Option State :=
  if !(s.kern gk).det || !ls.any (fun l => s.detAct gk l kind == .defer) then none
  else some (ls.foldl (fun s l => if s.detAct gk l kind == .defer then s.detMark gk l true else s) s)

/-- One row of a TLOAD: its codes and its scales. -/
def State.loadRow (s : State) (x : ArrOp) (phys : Nat) (f : Fmt) (planes row : Nat) : Option State :=
  let r := x.record.toNat
  let depth := depthOf f.cls
  match s.arrRead x 0 (bitField r 0 64 + row * bitField r 64 32) (f.rowBytes depth) with
  | (none, _) => none
  | (some bits, s) =>
    let k := if planes = 0 then f.width else planes
    let ck := (List.range depth).map (codeKey phys row)
    let codes := tsetAll 0 s.t.slotCode ck (fun key => f.codeAt bits k (key % 256))
    let s := { s with t := { s.t with slotCode := codes } }
    if f.blockLen = 0 then some s
    else match s.arrRead x 1 (bitField r 128 64 + row * bitField r 192 32) (2 * f.scales depth) with
      | (none, _) => none
      | (some sc, s) =>
        let keys := (List.range (f.scales depth)).map (codeKey phys row)
        let t := tsetAll 0 s.t.slotScale keys (fun key => sc / 2 ^ (16 * (key % 256)) % 65536)
        some { s with t := { s.t with slotScale := t } }

/-- The value of element k of a row of a slot (R31); of a class-free slot, zero. -/
def State.slotVal (s : State) (cls : ElemClass) (f : Fmt) (phys row k : Nat) : Val :=
  if cls == .free then .fin false 0 0
  else
    let scale : Val := if f.blockLen = 0 then .fin false 1 0 else ks16 (tget 0 s.t.slotScale (codeKey phys row (k / f.blockLen)))
    f.value (tget 0 s.t.slotCode (codeKey phys row k)) scale

def State.slotInt (s : State) (cls : ElemClass) (f : Fmt) (phys row k : Nat) : Int :=
  if cls == .free then 0
  else match f.decode (tget 0 s.t.slotCode (codeKey phys row k)) with
    | .fin true m _ => -(m : Int) | .fin false m _ => m | _ => 0

/-- The exact sum of the products of a block (R37). -/
def blockSum : List Val → Val
  | [] => .fin false 0 0
  | p :: ps => ps.foldl (fun a b => (a.add .rne b).getD .nan) p

def accAdd (c : Nat) (v : Val) : Nat :=
  match (f32.val c).add .rne v with | some x => (f32.round .rne x).bits | none => f32.qnan

/-- One cell of a float tile step. -/
def State.cellFloat (s : State) (ca cb : ElemClass) (fa fb : Fmt) (pa pb i j depth c : Nat) : Nat :=
  (List.range (depth / 32)).foldl (fun c kb =>
    accAdd c (blockSum ((List.range 32).map (fun t =>
      ((s.slotVal ca fa pa i (kb * 32 + t)).mul (s.slotVal cb fb pb j (kb * 32 + t))).getD .nan)))) c

/-- One cell of an INT32 tile step: the word and whether it was clamped (R38). -/
def State.cellInt (s : State) (ca cb : ElemClass) (fa fb : Fmt) (pa pb i j depth : Nat) (sat : Bool) (c : Nat) : Nat × Bool :=
  (List.range (depth / 32)).foldl (fun (c, cl) kb =>
    let sum := (List.range 32).foldl (fun a t => a + s.slotInt ca fa pa i (kb * 32 + t) * s.slotInt cb fb pb j (kb * 32 + t)) (0 : Int)
    let v := (BitVec.ofNat 32 c).toInt + sum
    let w := if sat then max (-(2 ^ 31)) (min (2 ^ 31 - 1) v) else v
    ((w % 2 ^ 32).toNat, cl || (sat && w != v))) (c, false)

def wordOff (r i j : Nat) : Nat := r * 65536 + (i * 128 + j) * 4

/-- The position of an entry's core among its team's cores. -/
def State.opIdx (s : State) (x : ArrOp) : Nat := (s.team x.tk).cores.idxOf x.core

/-- A tile step (R199). -/
def State.runMma (s : State) (x : ArrOp) (pa pb fa fb : Nat) (ca cb : ElemClass) (r : Nat) (int sat : Bool) : State :=
  let kn := (s.team x.tk).kern
  let k := s.opIdx x
  let ga := kn.fmt fa
  let gb := kn.fmt fb
  let depth := depthOf (if ca == .free then cb else ca)
  let cells := (List.range 128).flatMap (fun i => (List.range 128).map (fun j => (i, j)))
  cells.foldl (fun s (i, j) =>
    let o := wordOff r i j
    let c := s.accRead x.tk k o 4
    if int then
      let (v, cl) := s.cellInt ca cb ga gb pa pb i j depth sat c
      let s := s.accWrite x.tk k o 4 v
      if cl then s.setRegion x.tk k r { (s.region x.tk k r) with sat := true } else s
    else s.accWrite x.tk k o 4 (s.cellFloat ca cb ga gb pa pb i j depth c)) s

/-- Where what the sequencer's operations have written is kept until it joins them (R209). -/
def seqWrote (tk : Nat) : Nat := 2 ^ 204 + tk

/-- A finished entry leaves the FIFO, making the barrier arrival it was asked for, a release of its writes (R208, R209). -/
def State.arrLeave (s : State) (id : Nat) (x : ArrOp) (arrive : State → Nat → Nat → Nat → State) : State :=
  let s := s.setArrOp id none
  match x.bar with | some n => arrive s x.tk n (thAgent id) | none => s

/-- What an entry other than a drain does when it runs, a TLOAD for its next row; none when poison kills the team (R353). -/
def State.runEntry (s : State) (x : ArrOp) : Option State :=
  match x.kind with
  | .claim _ => some s
  | .release ph => some { s with t := { s.t with slotCode := clearPhys s.t.slotCode ph, slotScale := clearPhys s.t.slotScale ph } }
  | .load p f planes =>
    let s := if x.row = 0 then
        { s with t := { s.t with slotCode := clearPhys s.t.slotCode [p], slotScale := clearPhys s.t.slotScale [p] } } else s
    s.loadRow x p ((s.team x.tk).kern.fmt f) planes x.row
  | .zeroRegion r =>
    let k := s.opIdx x
    let s := { s with t := { s.t with acc := tclear s.t.acc (accKey x.tk k (r * 65536)) (accKey x.tk k ((r + 1) * 65536)) } }
    some (s.setRegion x.tk k r { (s.region x.tk k r) with sat := false })
  | .zeroSlot p => some { s with t := { s.t with slotCode := clearPhys s.t.slotCode [p], slotScale := clearPhys s.t.slotScale [p] } }
  | .mma pa pb fa fb ca cb r int sat => some (s.runMma x pa pb fa fb ca cb r int sat)
  | .drain .. => some s

/-! ### The epilogue (R200-R203) -/

/-- E-register n of column j of the row in progress. -/
def eKey (j n : Nat) : Nat := j * 16 + n
def State.ereg (s : State) (j n : Nat) : Nat := (tget 0 s.e.epi.e (eKey j n)).toNat
def columns : List Nat := List.range 128
/-- One E-register of every column written from a function of the column. -/
def State.setE (s : State) (n : Nat) (f : Nat → Nat) : State :=
  let e := tsetAll 0 s.e.epi.e (columns.map (fun j => eKey j n)) (fun k => BitVec.ofNat 32 (f (k / 16)))
  { s with e := { s.e with epi := { s.e.epi with e := e } } }

/-- The exact FP32 of a natural number below 2^24. -/
def f32OfNat (n : Nat) : Nat := (f32.round .rne (.fin false n 0)).bits
/-- rne_f32 of a signed 32-bit word. -/
def f32OfInt (w : Nat) : Nat := let z := (BitVec.ofNat 32 w).toInt; (f32.round .rne (.fin (z < 0) z.natAbs 0)).bits

/-- The next row of a drain begins: e0 to e15 of every column (R200). -/
def State.rowStart (s : State) (id : Nat) (x : ArrOp) (r : Nat) (kind : RegionKind) : State :=
  let k := s.opIdx x
  let word (j : Nat) : Nat := match kind with
    | .empty => 0
    | .float => let w := s.accRead x.tk k (wordOff r x.row j) 4; if f32.isNan w then f32.qnan else w
    | .int32 => f32OfInt (s.accRead x.tk k (wordOff r x.row j) 4)
  let e0 : Tbl Word := []
  let s1 := { s with e := { s.e with epi := { op := id, prog := x.prog, e := e0 } } }
  let s1 := ((s1.setE 0 word).setE 1 (fun _ => f32OfNat x.row)).setE 2 f32OfNat
  (List.range 8).foldl (fun s n => s.setE (8 + n) (fun _ =>
    let w := bitField x.record.toNat (256 + 32 * n) 32; if f32.isNan w then f32.qnan else w)) s1

/-- A store or atomic of a drain at one of its locations; none when it must wait (R294, R295). -/
def State.drainPut (s : State) (id : Nat) (x : ArrOp) (l : Loc) (size v : Nat) : Option State :=
  let th := mkThread .array x.tk x.detGk 0 x.core 0 [] 0 0
  match s.detAct th.gk l .store with
  | .defer | .full => none
  | _ =>
    let t := s.threadPut id th l size v
    match t.arrOp id with
    | some y => some (t.setArrOp id (some { y with wrote := t.wroteAt x.core l size ++ y.wrote }))
    | none => some t

def State.drainPuts (s : State) (id : Nat) (x : ArrOp) (off v : Nat) : Nat → Option State
  | 0 => some s
  | n + 1 => (s.drainPut id x (x.at 0 off) 1 (v % 256)).bind (fun s => State.drainPuts s id x (off + 1) (v / 256) n)

/-- The locations of the row that a drain writes next. -/
def State.rowLocs (s : State) (x : ArrOp) (f : Nat) : List Loc :=
  let d := x.record.toNat
  let fm := (s.team x.tk).kern.fmt f
  let n := match bitField d 99 2 with | 0 => 512 | 1 => fm.rowBytes 128 | _ => 0
  (List.range n).map (fun i => x.at 0 (bitField d 0 64 + x.row * bitField d 64 32 + i))

/-- Row i written from e0 (R200); a write that covers a poisoned sector whole clears its mark (R353). -/
def State.rowWrite (s : State) (id : Nat) (x : ArrOp) (f : Nat) : Option State :=
  let d := x.record.toNat
  let fm := (s.team x.tk).kern.fmt f
  let off := bitField d 0 64 + x.row * bitField d 64 32
  let (v, n) := match bitField d 99 2 with
    | 0 => (columns.foldl (fun a j => a + s.ereg j 0 * 2 ^ (32 * j)) 0, 512)
    | 1 => (fm.packRow (columns.map (fun j => fm.encode (f32.val (s.ereg j 0)) (.fin false 1 0))), fm.rowBytes 128)
    | _ => (0, 0)
  (s.drainPuts id x off v n).map (fun s =>
    (List.range n).foldl (fun s i => match x.at 0 (off + i) with
      | .dev a _ _ => if a % 64 == 0 && i + 64 ≤ n then s.clearPoison a 64 else s
      | _ => s) s)

end Sys2Proof.Machine
end

