-- ==== Sys2Proof/Machine/PlaceOps.lean ====
section
/-! DEFINITION. Launch records and their checks (R280-R282), acceptance (R283, R284, R288), placement of teams
(R286, R287) with their entry values (R212), and the order in which the arbiter serves records (R285). -/

namespace Sys2Proof.Machine

/-! ### Records (Tables 16.1 and 16.2) -/

def kernRoles (d : Nat) : List Role :=
  (List.range 4).map (fun r =>
    { regs := 8 * bitField d (48 * r + 34) 4, groups := bitField d (48 * r + 24) 10, entry := bitField d (48 * r) 24 })

/-- The record and descriptor as the device keeps them. Absent roles follow the present ones and are dropped. -/
def Kern.ofRecord (ctx r d : Nat) : Kern :=
  { ctx := ctx
    slots := (List.range 8).map (fun k => BitVec.ofNat 128 (bitField r (128 * k + 1024) 128))
    kobj := bitField r 1000 24, koff := bitField r 960 40, aobj := bitField r 936 24, aoff := bitField r 896 40
    alen := bitField r 856 40, lobj := bitField r 832 24, loff := bitField r 792 40, llen := bitField r 752 40
    seed := BitVec.ofNat 64 (bitField r 448 64)
    deps := ((List.range 4).map (fun n => bitField r (32 * n + 320) 32)).filter (· != 0xFFFFFFFF)
    teams := bitField r 288 32, scratch := bitField r 256 32, stack := bitField r 240 16, opndb := bitField r 232 8
    tagb := bitField r 225 7, accb := bitField r 220 5, cores := bitField r 217 3, gang := bitField r 210 7
    dlimit := bitField r 206 4, prio := bitField r 203 3, flags := BitVec.ofNat 5 (bitField r 198 5)
    codeoff := bitField d 480 32, codelen := bitField d 448 32, msoff := bitField d 416 32, mslen := bitField d 384 32
    epioff := bitField d 352 32, epicount := bitField d 346 6, nondet := bitField d 234 1 == 1, nbv := bitField d 230 4
    width := 16 * 2 ^ bitField d 228 2
    handler := if bitField d 227 1 = 1 then some (bitField d 225 2) else none
    pregs := 8 * bitField d 216 4, pentry := bitField d 192 24
    roles := (kernRoles d).filter (fun x => x.groups != 0) }

/-- Groups of a team. -/
def Kern.ngroups (k : Kern) : Nat := (k.roles.map (·.groups)).sum

/-- The role of a group index (R210). -/
def roleAt : List Role → Nat → Nat → Nat
  | [], _, n => n
  | r :: rs, i, n => if i < r.groups then n else roleAt rs (i - r.groups) (n + 1)
def Kern.roleOf (k : Kern) (idx : Nat) : Nat := roleAt k.roles idx 0

/-- The object-table entry of an object. -/
def State.objEnt (s : State) (ctx obj : Nat) : ObjEntry := objEntry (s.devRead (tableAddr (s.root ctx) (32 * obj)) 32)

/-- The argument block of a record is part of a CAPS object (R345). -/
def State.argCaps (s : State) (k : Kern) : Bool := k.aobj != 0 && (s.objEnt k.ctx k.aobj).type == 2

/-- The extent of an object of a context (R282). -/
def State.objHas (s : State) (ctx obj off len : Nat) : Bool :=
  let r := s.root ctx
  let e := s.objEnt ctx obj
  obj != 0 && obj < rootOtCount r && e.v && !e.bad (rootTLen r) obj && off + len ≤ e.size

/-- An extent that a capability register with the G right covers (Table 16.3). -/
def capCovers (obj off len : Nat) (c : Cap) : Bool :=
  capOk c && Cap.type c == tMEM && hasRights c rG && Cap.obj c == obj && Cap.base c ≤ off && off + len ≤ Cap.base c + Cap.len c

/-- A record is fit, is rejected with a reason of Table 18.8, or needs a page that is not there. -/
inductive RecChk where
  | ok (k : Kern)
  | bad (reason : Nat)
  | miss (obj page : Nat) (w : WaitReason)

def rBAD_RECORD : Nat := 1
def rBAD_FORMAT_SLOT : Nat := 2
def rBAD_NBV : Nat := 3
def rBAD_GANG : Nat := 4
def rNO_FIT : Nat := 5

/-! ### Demand on a core (R286, R287) -/

def ceilDiv (a b : Nat) : Nat := (a + b - 1) / b
def roundUp (a b : Nat) : Nat := ceilDiv a b * b

/-- The group indices that run k of a team holds. -/
def Kern.run (k : Kern) (n : Nat) : List Nat :=
  let per := ceilDiv k.ngroups (max 1 k.cores)
  (List.range k.ngroups).filter (fun i => i / max 1 per == n)

def Kern.areaBytes (k : Kern) (role : Nat) : Nat := roundUp (((k.roles.getD role ⟨0, 0, 0⟩).regs) * k.width * 4) 512
def Kern.runRegs (k : Kern) (n : Nat) : Nat := ((k.run n).map (fun i => k.areaBytes (k.roleOf i))).sum
/-- Bytes of SCR on the n-th core of a team: the share, and the fault queue on the lowest (R351). -/
def Kern.runScr (k : Kern) (n : Nat) : Nat := k.scratch / max 1 k.cores + (if n = 0 then 16384 else 0)

/-- The banks for m copies of run n: OPND, REG, SCR (R287). -/
def Kern.banks (k : Kern) (n m : Nat) : Nat × Nat × Nat :=
  (ceilDiv (m * k.opndb) 8, ceilDiv (m * k.runRegs n) bankBytes, ceilDiv (m * k.runScr n) bankBytes)

/-- Runs with the number of each fit an empty core, whatever its banks serve as (R286, R287). -/
def Kern.loadFits (k : Kern) (ls : List (Nat × Nat)) : Bool :=
  let m := (ls.map (·.2)).sum
  let reg := (ls.map (fun p => p.2 * k.runRegs p.1)).sum
  let scr := (ls.map (fun p => p.2 * k.runScr p.1)).sum
  let groups := (ls.map (fun p => p.2 * (k.run p.1).length)).sum
  ceilDiv (m * k.opndb) 8 + ceilDiv reg bankBytes + ceilDiv scr bankBytes ≤ 32 && groups ≤ 4 * (1024 / max 1 k.width) &&
  m * k.accb ≤ 24 && m ≤ 64
/-- m copies of run n fit an empty core. -/
def Kern.fitsEmpty (k : Kern) (n m : Nat) : Bool := k.loadFits [(n, m)]

/-- Copies of run n that one empty core can hold. -/
def Kern.perCore (k : Kern) (n : Nat) : Nat := ((List.range 65).filter (k.fitsEmpty n)).length - 1

/-- Lists of numbers up to given ones. -/
def upTo : List Nat → List (List Nat)
  | [] => [[]]
  | n :: ns => (List.range (n + 1)).flatMap (fun a => (upTo ns).map (a :: ·))

/-- Runs placed so far on the cores of a die, with those of the next core: a team's runs go to ascending cores, so there are
no more of a run than of the run before it on lower cores. -/
def addLoad (prev : Nat) : List Nat → List Nat → List Nat
  | p :: ps, l :: ls => min (p + l) prev :: addLoad p ps ls
  | _, _ => []

/-- The lists of a set that no other is as good as. -/
def bestOf (ps : List (List Nat)) : List (List Nat) :=
  let le (p q : List Nat) : Bool := (p.zip q).all (fun x => x.1 ≤ x.2)
  ps.foldl (fun acc p => if acc.any (le p) then acc else p :: acc.filter (fun q => !le q p)) []

/-- One empty die holds m teams: by a core for each run, by cores of one run each, or by cores of mixed runs. -/
def Kern.dieHolds (k : Kern) (m : Nat) : Bool :=
  let runs := List.range (max 1 k.cores)
  let caps := runs.map (fun n => min m (k.perCore n))
  caps.all (· > 0) && (m * runs.length ≤ 32 || (caps.map (fun c => ceilDiv m c)).sum ≤ 32 ||
    (let loads := (upTo caps).filter (fun l => k.loadFits (runs.zip l))
     ((List.range 32).foldl (fun ps _ => bestOf (ps.flatMap (fun p => loads.map (addLoad m p)))) [runs.map (fun _ => 0)]).any
       (·.all (· == m))))

/-- NO_FIT (Table 16.3): one team on one core of each of its runs, one gang on the four dies. -/
def Kern.noFit (k : Kern) : Bool :=
  !(List.range (max 1 k.cores)).all (fun n => k.fitsEmpty n 1) || !k.dieHolds (ceilDiv k.gang 4)

/-! ### Checks (R282) -/

/-- The bytes of an epilogue program, to its first EEND or its 64th word. -/
def State.epiLen (s : State) (core : Nat) (k : Kern) (base n : Nat) : Nat → Except TRes Nat × State
  | 0 => (.ok n, s)
  | fuel + 1 =>
    match s.kernWord core k (base + 4 * n) with
    | (.error e, s) => (.error e, s)
    | (.ok w, s) => if w == 0x3C000000 then (.ok (n + 1), s) else State.epiLen s core k base (n + 1) fuel

/-- The end of the kernel image (R71, R282). -/
def State.imageEnd (s : State) (core : Nat) (k : Kern) : Except TRes Nat × State :=
  let fixed := max (max 64 (k.codeoff + k.codelen)) (max (k.msoff + k.mslen) (k.epioff + 4 * k.epicount))
  (List.range k.epicount).foldl (fun (r, s) n =>
    match r with
    | .error e => (.error e, s)
    | .ok m => match s.kernWord core k (k.epioff + 4 * n) with
      | (.error e, s) => (.error e, s)
      | (.ok b, s) => match s.epiLen core k b.toNat 0 64 with
        | (.error e, s) => (.error e, s)
        | (.ok len, s) => (.ok (max m (b.toNat + 4 * len)), s)) (.ok fixed, s)

/-- The conditions of BAD_RECORD that need only the record. -/
def recordBad (r : Nat) (k : Kern) : Bool :=
  bitField r 512 240 != 0 || bitField r 0 198 != 0 || k.teams == 0 || k.teams > 16777215 || k.cores == 0 || k.cores > 4 ||
  k.tagb == 0 || k.tagb > 64 || k.accb > 24 || k.dlimit > 8 || k.stack % 16 != 0 || k.scratch % (4096 * max 1 k.cores) != 0 ||
  k.koff % 64 != 0 || k.loff % 512 != 0 || k.llen % 512 != 0 || (k.det && (k.cores != 1 || k.gang != 1))

/-- The conditions of BAD_RECORD that need the descriptor. -/
def descriptorBad (d : Nat) (k : Kern) : Bool :=
  let rs := kernRoles d
  bitField d 235 111 != 0 || bitField d 220 5 != 0 ||
  (List.range 4).any (fun r => bitField d (48 * r + 38) 10 != 0) ||
  bitField d 228 2 == 3 || k.ngroups * k.width * k.stack > k.scratch ||
  (rs.getD 0 ⟨0, 0, 0⟩).groups == 0 || (rs.dropWhile (fun x => x.groups != 0)).any (fun x => x.groups != 0) ||
  rs.any (fun x => x.groups != 0 && (x.regs == 0 || x.regs > 96)) || k.ngroups * k.width > 8192 ||
  (match k.handler with | some h => (rs.getD h ⟨0, 0, 0⟩).groups == 0 | none => false) || k.pregs > 32 ||
  k.codeoff % 16 != 0 || k.codelen == 0 || k.codelen % 12 != 0 || k.msoff % 4 != 0 || k.mslen % 4 != 0

/-- A record checked in the order of Table 16.3; `caps` are the issuing group's for a LAUNCH. -/
def State.checkRecord (s : State) (core ctx r : Nat) (caps : Option (List Cap)) : RecChk × State :=
  let k0 := Kern.ofRecord ctx r 0
  let covered (obj off len : Nat) : Bool :=
    s.objHas ctx obj off len && (match caps with | some cs => cs.any (capCovers obj off len) | none => true)
  if recordBad r k0 || !covered k0.kobj k0.koff 64 || (k0.aobj != 0 && !covered k0.aobj k0.aoff k0.alen) ||
      (k0.lobj != 0 && !covered k0.lobj k0.loff k0.llen) ||
      (s.argCaps k0 && (k0.aoff % 16 != 0 || k0.alen % 16 != 0)) then (.bad rBAD_RECORD, s)
  else match s.objRead core ctx k0.kobj k0.koff 64 with
    | (.error (.wait w), s) => (.miss k0.kobj (k0.koff / 65536) w, s)
    | (.error _, s) => (.bad rBAD_RECORD, s)
    | (.ok d, s) =>
      let k := Kern.ofRecord ctx r d
      if descriptorBad d k || !covered k.kobj k.koff (k.epioff + 4 * k.epicount) then (.bad rBAD_RECORD, s)
      else match s.imageEnd core k with
        | (.error (.wait w), s) => (.miss k.kobj (k.koff / 65536) w, s)
        | (.error _, s) => (.bad rBAD_RECORD, s)
        | (.ok n, s) =>
          if !covered k.kobj k.koff n then (.bad rBAD_RECORD, s)
          else if k.slots.any (fun b => b != 0 && fmtMalformed b) then (.bad rBAD_FORMAT_SLOT, s)
          else if k.nbv != 1 && k.nbv != 2 then (.bad rBAD_NBV, s)
          else if k.gang == 0 || k.gang > 64 || k.teams % k.gang != 0 then (.bad rBAD_GANG, s)
          else if k.noFit then (.bad rNO_FIT, s)
          else (.ok { k with acaps := s.argCaps k }, s)

/-! ### Acceptance (R283, R284, R288) -/

def State.allLaunches (s : State) : List (Nat × Launch) := s.l.launches.filterMap (fun p => p.2.map (p.1, ·))

/-- Records in the queues of a context: those with a team still to place. -/
def State.queued (s : State) (ctx : Nat) : Nat :=
  (s.allLaunches.filter (fun p => p.2.kern.ctx == ctx && p.2.nextTeam < p.2.kern.teams)).length
/-- Launches accepted that still wait for their lane's accesses (R171): those hold their places. -/
def State.accepting (s : State) (ctx : Nat) (all : Bool) : Nat :=
  (s.g.lanes.filter (fun p => p.2.launch.isSome && (all || (s.kern (gkLane p.1)).ctx == ctx))).length
def State.queueFull (s : State) (ctx : Nat) : Bool := s.queued ctx + s.accepting ctx false ≥ 1024
def State.poolUsed (s : State) : Nat := (s.allLaunches.filter (fun p => p.2.pooled)).length

/-- The next serial of a context, and the one after it (R283). -/
def State.serial (s : State) (ctx : Nat) : Nat × State :=
  let n := tget 0 s.l.serials ctx
  (n, { s with l := { s.l with serials := tset 0 s.l.serials ctx (if n + 1 ≥ 0xFFFFFFF0 then 0 else n + 1) } })

/-- The latest launch of a context with a serial. -/
def State.bySerial (s : State) (ctx serial : Nat) : Option (Nat × Launch) :=
  ((s.allLaunches.filter (fun p => p.2.kern.ctx == ctx && p.2.serial == serial)).getLast?)

/-- A record accepted: its key and its serial; the launches that its DEP fields name are those of now (R284). -/
def State.accept (s : State) (x : Launch) : Nat × Nat × State :=
  let deps := x.kern.deps.filterMap (fun d => (s.bySerial x.kern.ctx d).map (·.1))
  let (n, s) := s.serial x.kern.ctx
  let (ln, s) := s.fresh
  (ln, n, s.setLaunch ln { x with serial := n, deps := deps })

def Launch.isComplete (x : Launch) : Bool := match x.st with | .complete _ => true | _ => false

/-- A dependence is met (R284). -/
def State.depMet (s : State) (ln : Nat) : Bool := match tget none s.l.launches ln with | some x => x.isComplete | none => true

/-- Eligible: a team still to place and every dependence met. -/
def State.eligible (s : State) (x : Launch) : Bool :=
  x.nextTeam < x.kern.teams && !x.isComplete && x.deps.all s.depMet

/-- The place of a record in the arbiter's order (R285): priority, then the record whose teams are being placed, then
contexts in rotation, then arrival. -/
def State.rank (s : State) (ln : Nat) (x : Launch) : Nat :=
  let turn := if ln == s.l.serving then 0 else 1 + (x.kern.ctx + 63 - s.l.lastServed % 64) % 64
  ((7 - x.kern.prio) * 65 + turn) * 2 ^ 64 + ln

/-! ### Room on a core -/

/-- A group with a lane that has not exited. -/
def State.groupLive (s : State) (gk : Nat) : Bool := (s.lanesOf gk).any (fun l => (s.lane (lkOf gk l)).st != .exited)

def State.groupsOn (s : State) (core : Nat) : List (Nat × Group) :=
  s.g.groups.filter (fun p => p.2.core == core && (s.team p.2.tk).live && !(s.team p.2.tk).saved)

/-- The register areas in use: those of a team's groups until it ends, those of a pair group until its lanes exit. -/
def State.areas (s : State) (core : Nat) : List (Nat × Nat) :=
  (s.groupsOn core).filterMap (fun p =>
    if p.2.pair && !s.groupLive p.1 then none else some (p.2.regBase, roundUp (p.2.regs * p.2.width * 4) 512))

/-- Lane positions in use on a partition: a group leaves it with its last lane (R226). -/
def State.partUsed (s : State) (core part : Nat) : Nat :=
  (((s.groupsOn core).filter (fun p => p.2.part == part && s.groupLive p.1)).map (fun p => p.2.width)).sum

/-- The lowest free extent of a size in a pool. -/
def freeArea (used : List (Nat × Nat)) (cap size align : Nat) : Option Nat :=
  let free (b : Nat) : Bool := b + size ≤ cap && used.all (fun u => u.1 + u.2 ≤ b || b + size ≤ u.1)
  let cands := (0 :: used.map (fun u => roundUp (u.1 + u.2) align)).filter free
  match cands with | [] => none | c :: cs => some (cs.foldl min c)

/-- The partition with the most free lane positions, the lowest on a tie. -/
def State.bestPart (s : State) (core : Nat) : Nat :=
  (List.range 4).foldl (fun best p => if s.partUsed core p < s.partUsed core best then p else best) 0

/-- A group's place: partition and register area; none when there is no room (R210, R211, R286). -/
def State.groupRoom (s : State) (core width regs : Nat) : Option (Nat × Nat) :=
  let part := s.bestPart core
  if s.partUsed core part + width > 1024 then none
  else (freeArea (s.areas core) (banksOf (s.bankrole core) 2 * bankBytes) (roundUp (regs * width * 4) 512) 512).map (part, ·)

/-- Bytes of a team's share on each of its cores (R213). -/
def Kern.share (k : Kern) : Nat := k.scratch / max 1 k.cores

/-- The share of a team on its n-th core, one extent (Table 18.10), and its accumulator regions; none when they do not fit.
The fault queue takes bytes that are free outside every share (R286, R351). -/
def State.shareRoom (s : State) (k : Kern) (n core : Nat) : Option (Nat × List Nat) :=
  let ts := s.teamsOn core
  let cap := banksOf (s.bankrole core) 1 * bankBytes
  let scr := ts.map (fun p => (p.2.scrBase.getD (p.2.cores.idxOf core) 0, p.2.kern.share))
  let acc := ts.flatMap (fun p => p.2.accRegs.getD (p.2.cores.idxOf core) [])
  let regs := ((List.range 24).filter (fun r => !acc.contains r)).take k.accb
  if ts.length ≥ 64 || (ts.map (fun p => p.2.kern.opndb)).sum + k.opndb > 8 * banksOf (s.bankrole core) 3 ||
      (ts.map (fun p => p.2.kern.runScr (p.2.cores.idxOf core))).sum + k.runScr n > cap || regs.length < k.accb then none
  else (freeArea scr cap k.share 4096).map (·, regs)

/-! ### Entry values (Table 9.1) -/

def State.entryCaps (s : State) (gk : Nat) (k : Kern) (idx : Nat) : State :=
  let t := k.scrBytes
  let slice := k.width * k.stack
  let s := s.setC gk 0 (if k.aobj = 0 then 0 else mkCap tMEM (if k.acaps then rR + rL else rR) k.aobj k.aoff k.alen)
  let s := s.setC gk 1 (mkCap tSCR (rR + rW + rA + rM) 0 0 t)
  let s := s.setC gk 2 (if k.gang > 1 then mkCap tGWIN (rR + rW + rA + rM) 0 0 (k.gang * 2 ^ 24) else 0)
  let s := s.setC gk 3 (mkCap tSCR (rR + rW) 0 (t + idx * slice) slice)
  let s := s.setC gk 4 (if k.accb = 0 then 0 else mkCap tACCW (rR + rW) 0 0 (k.accb * 65536))
  s.setC gk 5 (if k.handler == some (k.roleOf idx) then mkCap tREGW (rR + rW) 0 0 (k.ngroups * 32768) else 0)

/-- A group of a role placed on a core, its lanes at the role's entry. -/
def State.placeGroup (s : State) (tk born : Nat) (k : Kern) (core idx : Nat) : Option State :=
  let role := k.roleOf idx
  let r := k.roles.getD role ⟨0, 0, 0⟩
  (s.groupRoom core k.width r.regs).map (fun (part, base) =>
    let gk := gkOf tk idx
    let s := s.setGroup gk { tk := tk, idx := idx, role := role, width := k.width, regs := r.regs, core := core, part := part, regBase := base, born := born
                             codeView := s.o.stamp }
    let s := (List.range k.width).foldl (fun s l => s.setLane (lkOf gk l) { st := .ready, pkt := r.entry, codeFloor := s.o.stamp }) s
    s.entryCaps gk k idx)

/-! ### Placement (R286) -/

/-- Cores that may hold a team: ascending, of one die, not being drained. -/
def State.coresOk (s : State) (k : Kern) (cores : List Nat) : Bool :=
  cores.length == k.cores && cores.all (fun c => c < 128 && dieOf c == dieOf (cores.headD 0) && !s.l.draining.contains c) &&
  (cores.zip (cores.drop 1)).all (fun p => p.1 < p.2)

/-- The k-th core of each group of a team, in ascending group index. -/
def Kern.groupCores (k : Kern) (cores : List Nat) : List (Nat × Nat) :=
  (List.range cores.length).flatMap (fun n => (k.run n).map (fun i => (i, cores.getD n 0)))

/-- The history that the agents of a launch start with (R272): the parent's at LAUNCH, and those of the launches it names in DEP,
whose completion is an acquire of what they wrote (R284). -/
def State.startHist (s : State) (x : Launch) : List Nat := x.start ++ x.deps.flatMap (fun d => (s.launchOf d).hist)

/-- A team placed: its key and the state; none when it does not fit. Groups placed together are born together (R219). -/
def State.placeTeam (s : State) (ln idx born relaunches : Nat) (cores : List Nat) : Option (Nat × State) :=
  let x := s.launchOf ln
  let k := x.kern
  if !s.coresOk k cores then none
  else
    let rooms := (List.range cores.length).map (fun n => s.shareRoom k n (cores.getD n 0))
    if rooms.any (·.isNone) then none
    else
      let (tk, s) := s.fresh
      let s := s.setTeam tk
        { ln := ln, idx := idx, kern := k, cores := cores, scrBase := rooms.filterMap (·.map (·.1))
          accRegs := rooms.filterMap (·.map (·.2)), ngroups := k.ngroups, relaunches := relaunches, live := true
          seq := { st := if k.mslen = 0 then .exited else .running } }
      let s := (k.groupCores cores).foldl (fun s p => s.bind (fun s => s.placeGroup tk born k p.2 p.1)) (some s)
      s.map (fun s =>
        let s := cores.foldl State.raiseFloor s
        let ids := s.startHist x
        let s := if ids.isEmpty then s
          else ((s.groupsOf tk).flatMap (fun gk => (s.lanesOf gk).map (lkOf gk))).foldl (fun s a => s.addHist a ids) s
        (tk, s.addHist (seqAgent tk) ids))

/-- The teams that are placed together: the next team, or the next gang whole (R247). -/
def State.placeAll (s : State) (ln born relaunches : Nat) : List Nat → List (List Nat) → Option State
  | [], [] => some s
  | i :: is, c :: cs => (s.placeTeam ln i born relaunches c).bind (fun p => State.placeAll p.2 ln born relaunches is cs)
  | _, _ => none

def chunks (n : Nat) (xs : List Nat) : Nat → List (List Nat)
  | 0 => []
  | m + 1 => xs.take n :: chunks n (xs.drop n) m

/-- The next team or gang of a launch on a list of cores, member by member. -/
def State.placeNext (s : State) (ln : Nat) (cores : List Nat) : Option State :=
  let x := s.launchOf ln
  let n := x.kern.gang
  (s.placeAll ln s.next 0 ((List.range n).map (x.nextTeam + ·)) (chunks x.kern.cores cores n)).map (fun s =>
    s.modLaunch ln (fun x => { x with st := .running, nextTeam := x.nextTeam + n, passed := 0, stopFill := false }))

/-- Ascending lists of n cores of a list. -/
def picks : Nat → List Nat → List (List Nat)
  | 0, _ => [[]]
  | _, [] => []
  | n + 1, x :: xs => (picks n xs).map (x :: ·) ++ picks (n + 1) xs

/-- Whether m more teams fit somewhere, one after another. -/
def State.fitsTeams (s : State) (ln idx relaunches : Nat) : Nat → Bool
  | 0 => true
  | m + 1 =>
    let k := (s.launchOf ln).kern
    (List.range 4).any (fun d => (picks k.cores ((List.range 32).map (d * 32 + ·))).any (fun cs =>
      match s.placeTeam ln idx s.next relaunches cs with
      | some (_, s) => State.fitsTeams s ln (idx + 1) relaunches m
      | none => false))

/-- The next team or gang of a launch fits the device as it stands. -/
def State.fitsNow (s : State) (ln : Nat) : Bool :=
  let x := s.launchOf ln
  s.fitsTeams ln x.nextTeam 0 x.kern.gang

/-- The eligible records that stand before one in the arbiter's order. -/
def State.before (s : State) (ln : Nat) : List (Nat × Launch) :=
  let x := s.launchOf ln
  s.allLaunches.filter (fun p => s.eligible p.2 && s.rank p.1 p.2 < s.rank ln x)

/-! ### Banks (R216, R287) -/

/-- A core is drained (R216). -/
def State.drained (s : State) (core : Nat) : Bool :=
  (s.teamsOn core).isEmpty && (s.t.landing.all (fun e => e.core != core)) && (s.coreBuf core).isEmpty

/-- BANKROLE with the fewest banks that fit a run of a record's team, the rest CACHE (R287). -/
def Kern.bankrole (k : Kern) (n : Nat) : DWord :=
  let b := k.banks n 1
  let role (i : Nat) : Nat :=
    if i < b.2.1 then 2 else if i < b.2.1 + b.2.2 then 1 else if i ≥ 32 - b.1 then 3 else 0
  BitVec.ofNat 64 ((List.range 32).foldl (fun n i => n + role i * 2 ^ (2 * i)) 0)

/-- The roles of a core's banks fit a run of a record's team, were the core empty. -/
def State.rolesFit (s : State) (k : Kern) (n core : Nat) : Bool :=
  let r := s.bankrole core
  k.opndb ≤ 8 * banksOf r 3 && k.runRegs n ≤ banksOf r 2 * bankBytes && k.runScr n ≤ banksOf r 1 * bankBytes && k.fitsEmpty n 1

/-- The runs of a team that the cores of a list take in ascending order, each the first core whose roles fit it. -/
def State.runsOn (s : State) (k : Kern) (cores : List Nat) : Nat :=
  cores.foldl (fun n c => if n < k.cores && s.rolesFit k n c then n + 1 else n) 0

/-- BANKROLE_WRITE: the arbiter chooses a core to drain when no cores of its die have roles that fit a record's team, and once
it is drained writes its roles, for the run that comes to it (R287). -/
def State.writeBanks (s : State) (core ln : Nat) : State :=
  let x := s.launchOf ln
  if core ≥ 128 || !s.eligible x then s
  else
    let die := (List.range 32).map (dieOf core * 32 + ·)
    if s.l.draining.contains core then
      if !s.drained core then s
      else
        let n := min (s.runsOn x.kern (die.filter (· < core))) (x.kern.cores - 1)
        { s with l := { s.l with
          bankrole := tset 0 s.l.bankrole core (x.kern.bankrole n), draining := s.l.draining.filter (· != core) } }
    else if s.runsOn x.kern die ≥ x.kern.cores then s
    else { s with l := { s.l with draining := s.l.draining ++ [core] } }

end Sys2Proof.Machine
end

