-- ==== Sys2Proof/Machine/PairOps.lean ====
section
/-! DEFINITION. Pair launches (R178-R188, R228-R245): the record, its checks, binning, pair groups, the two sides,
Beaver's sums, completion, and starting a faulted pair again. -/

namespace Sys2Proof.Machine

/-! ### The pair record (Table 8.1), as a natural number -/

def prTest (r : Nat) : Nat := bitField r 0 2
/-- MODE: 0 NEWTON, 1 BILATERAL, 2 UNILATERAL, 3 SOFTMAX. -/
def prMode (r : Nat) : Nat := bitField r 2 2
/-- SUM: 0 ARRIVAL, 1 CANONICAL, 2 EXACT. -/
def prSum (r : Nat) : Nat := bitField r 4 2
/-- The contribution width w. -/
def prW (r : Nat) : Nat := bitField r 6 3 + 1
def prSame (r : Nat) : Bool := bitField r 9 1 == 1
def prPbox (r : Nat) : Bool := bitField r 10 1 == 1
def prCausal (r : Nat) : Bool := bitField r 11 1 == 1
def prExcl (r : Nat) : Bool := bitField r 12 1 == 1
def prTag (r : Nat) : Nat := bitField r 14 6
def prXexp (r : Nat) : Int := (BitVec.ofNat 8 (bitField r 20 8)).toInt
def prEntry (r : Nat) : Nat := bitField r 32 30
def prParam (r : Nat) : Nat := bitField r 64 32
def prBox (r c : Nat) : Nat := bitField r (96 + 32 * c) 32

/-- A set of the record: capability number, count, stride, key offset. -/
structure PairSet where
  cap : Nat
  count : Nat
  stride : Nat
  key : Nat
  deriving DecidableEq, Repr
def prA (r : Nat) : PairSet := ⟨bitField r 192 3, bitField r 196 24, bitField r 224 16, bitField r 240 16⟩
/-- Set B; under SAME it is set A (R228). -/
def prB (r : Nat) : PairSet :=
  if prSame r then prA r else ⟨bitField r 256 3, bitField r 260 24, bitField r 288 16, bitField r 304 16⟩
def prAccA (r : Nat) : Nat × Nat := (bitField r 320 3, bitField r 352 32)
def prAccB (r : Nat) : Nat × Nat := if prSame r then prAccA r else (bitField r 323 3, bitField r 384 32)
def prX (r : Nat) : Nat := bitField r 326 3
def prXrow (r : Nat) : Nat := bitField r 416 32
def prXidx (r : Nat) : Nat := bitField r 448 32
/-- Modes with a B side. -/
def prHasB (r : Nat) : Bool := prMode r < 2

/-- Slot size (Table 8.2). -/
def prSlot (r : Nat) : Nat :=
  if prMode r = 3 then 4 * (prW r + 2) else if prSum r = 2 then 16 * prW r else 4 * prW r
/-- Words of a staged side: under SOFTMAX the score goes first (R184). -/
def prSideWords (r : Nat) : Nat := if prMode r = 3 then prW r + 1 else prW r

/-- Bytes a record's key needs past its key offset (R180). -/
def prKeyBytes (r : Nat) : Nat := match prTest r with | 0 => 12 | 3 => 0 | _ => 4

def setBad (r : Nat) (p : PairSet) : Bool :=
  p.stride % 4 != 0 || p.key % 4 != 0 || p.stride == 0 || (prTest r != 3 && p.stride < p.key + prKeyBytes r)

/-- Half the smallest box length, squared, against the cutoff (R180). -/
def boxTooSmall (r : Nat) : Bool :=
  (List.range 3).any (fun c =>
    match f32.val (prBox r c), f32.val (prParam r) with
    | .fin _ m e, p => (Val.cmp p (.fin false (m * m) (2 * e - 2))) > 0
    | _, _ => true)

/-- A malformed record (R180), but for the comparison of its tag. -/
def recordMalformed (k : Kern) (r : Nat) : Bool :=
  bitField r 480 32 != 0 || bitField r 329 23 != 0 || bitField r 284 4 != 0 || bitField r 259 1 != 0 || bitField r 220 4 != 0 ||
  bitField r 195 1 != 0 || bitField r 62 2 != 0 || bitField r 28 4 != 0 || bitField r 13 1 != 0 || prSum r == 3 ||
  (prMode r == 3 && prSum r == 2) || (bitField r 20 8 != 0 && prSum r != 2) ||
  (prPbox r && prTest r != 0) || (prCausal r && prTest r != 1) ||
  (!prPbox r && (List.range 3).any (fun c => prBox r c != 0)) ||
  (prPbox r && (List.range 3).any (fun c => prBox r c == 0 || prBox r c ≥ 0x7F800000)) ||
  (prTest r == 0 && prParam r ≥ 0x7F800000 && prParam r != 0x80000000) ||
  (prPbox r && boxTooSmall r) || (prTest r ≥ 2 && prParam r != 0) ||
  (prSame r && (bitField r 256 3 != 0 || bitField r 260 24 != 0 || bitField r 288 32 != 0 || bitField r 323 3 != 0 || bitField r 384 32 != 0)) ||
  (!prHasB r && (bitField r 323 3 != 0 || bitField r 384 32 != 0)) ||
  (!prExcl r && (prX r != 0 || prXrow r != 0 || prXidx r != 0)) ||
  setBad r (prA r) || setBad r (prB r) ||
  prEntry r ≥ k.codelen / 12 || (prEntry r == 0 && k.pregs == 0)

/-! ### Starting a launch (R181, R183) -/

/-- Marten's launch places taken on a core (R182). -/
def State.martenUsed (s : State) (core : Nat) : Nat :=
  (s.e.threads.filter (fun p => match p.2 with
    | some x => x.kind == .pair && x.core == core && x.pair.phase != .queued | none => false)).length
/-- Commands that a group's q2 holds: launches that wait for a place (R183). -/
def State.q2Held (s : State) (gk : Nat) : Nat :=
  (s.e.threads.filter (fun p => match p.2 with
    | some x => x.kind == .pair && x.gk == gk && x.pair.phase == .queued | none => false)).length

/-- Steps 1 to 4 of R139 for a set. -/
def State.setCheck (s : State) (gk : Nat) (p : PairSet) : Option FaultInfo :=
  let c := s.heldCap gk s.low p.cap
  match s.capSteps13 (s.kern gk).ctx c allowArr rR with
  | some e => some (capFault e c 0)
  | none => if capBounds c 0 (p.count * p.stride) && s.gwinIn (s.group gk).tk c 0 (p.count * p.stride) then none else some (capFault fcCAP_BOUNDS c 0)

/-- Check 5 of R181 for a region. -/
def State.regionCheck (s : State) (gk r : Nat) (a : Nat × Nat) (count : Nat) : Option FaultInfo :=
  let c := s.heldCap gk s.low a.1
  let n := count * prSlot r
  match s.capSteps13 (s.kern gk).ctx c [tACCW] (rR + rW) with
  | some e => some (capFault e c a.2)
  | none =>
    if !capBounds c a.2 n || Cap.base c + a.2 + n > (s.kern gk).accb * 65536 then some (capFault fcCAP_BOUNDS c a.2)
    else if a.2 % (if prSum r = 2 then 16 else 4) != 0 then some (capFault fcMISALIGNED c a.2) else none

/-- Check 6 of R181: the row array. -/
def State.exclCheck (s : State) (gk r : Nat) : Option FaultInfo :=
  let c := s.heldCap gk s.low (prX r)
  match s.capSteps13 (s.kern gk).ctx c [tMEM, tSCR] rR with
  | some e => some (capFault e c (prXrow r))
  | none => if capBounds c (prXrow r) (4 * ((prA r).count + 1)) then none else some (capFault fcCAP_BOUNDS c (prXrow r))

/-- Checks 3 (the record itself) to 6 of R181, in order; 297 gives NONDET_OP of an ARRIVAL launch. -/
def State.pairCheck (s : State) (gk : Nat) (r : Nat) (tag : Option Nat) : Option FaultInfo :=
  if recordMalformed (s.kern gk) r || (match tag with | some t => prTag r != t | none => false) then some (.of fcBAD_PAIR_RECORD)
  else if prSum r = 0 && !s.nondetOk gk then some (.of fcNONDET_OP)
  else (s.setCheck gk (prA r)).orElse fun _ =>
    (if prSame r then none else s.setCheck gk (prB r)).orElse fun _ =>
    (s.regionCheck gk r (prAccA r) (prA r).count).orElse fun _ =>
    (if prHasB r && !prSame r then s.regionCheck gk r (prAccB r) (prB r).count else none).orElse fun _ =>
    (if prExcl r then s.exclCheck gk r else none)

/-- The launch forked: its tag Held, its capabilities as they stand (R103, R188). -/
def State.pairFork (s : State) (gk lane tag r : Nat) (queued : Bool) : State :=
  let g := s.group gk
  let cap (n : Nat) : Cap := s.heldCap gk s.low n
  let p : PairLaunch :=
    { record := BitVec.ofNat 512 r, phase := if queued then .queued else .binning
      caps := [cap 0, cap 1, cap 2, cap (prA r).cap, cap (prB r).cap, cap (prAccA r).1, cap (prAccB r).1, cap (prX r)] }
  let s := if prSum r = 0 then s.markNondet gk else s
  (s.fork { mkThread .pair g.tk gk lane g.core tag [] 0 0 with pair := p }).2

/-- The fault that an entry tag check gives without the tag fields (R157 does not list PAIRGO). -/
def State.pairTag (s : State) (gk tag : Nat) : Option FaultInfo := (s.tagCheck gk tag).map (fun f => { f with tag := none })

/-- Stores of a group's lanes that a read of bytes by the group must follow (R260): pending, or in its core's buffer. -/
def State.ownStores (s : State) (gk : Nat) (l : Loc) (n : Nat) : Bool :=
  s.o.pend.any (fun p => match p.2 with | some e => e.gk == gk && (e.tr.isSome || s.common e.loc e.size l n) && e.isStore | none => false) ||
  (s.coreBuf (s.group gk).core).any (fun b => gkLane b.agent == gk && s.common b.loc b.size l n)

/-- A record of 64 bytes read by a word of a group as a relaxed access (R181, R186): after the group's own stores, and in a
deterministic launch as Table 16.6 has it. -/
def State.recordRead (s : State) (gk lane : Nat) (c : Cap) (off : Nat) : RecRes :=
  let g := s.group gk
  match s.resolve g.tk g.core c off 64 .read false false with
  | (.fault f, _) => .fault f
  | (.wait obj page w, s) =>
    .wait (s.mergeWait g.core (s.kern gk).ctx obj page w (.group gk lane) .read) (.merge (s.kern gk).ctx obj page off (Cap.type c))
  | (.ok l, s) =>
    if s.ownStores gk l 64 then .wait s .place
    else match s.hitsPoison l 64 with
      | some f => .fault f
      | none =>
        if s.detAct gk l .load == .defer then .wait (s.detMark gk l true) .phase
        else let (v, s) := s.detRead g.core gk l 64; .ok v s

/-- PAIRGO (R181) at a record offset. -/
def State.pairgoIssue (s : State) (gk lane tag cs off : Nat) : ORes :=
  match s.pairTag gk tag with
  | some f => .fault f
  | none =>
    let c := s.heldCap gk lane cs
    match s.capCheckAll (s.kern gk).ctx c allowArr rR off 64 with
    | some f => .fault f
    | none =>
      if s.acqAny then .wait (.order none)
      else match s.recordRead gk lane c off with
        | .fault f => .fault f
        | .wait s w => .hold s w
        | .ok r s => match s.pairCheck gk r (some tag) with
          | some f => .fault f
          | none => if s.martenUsed (s.group gk).core ≥ 4 then .wait .place else .ok (s.pairFork gk lane tag r false)

/-- A command of q2 (R183): its 17 words. -/
def State.pairCommand (s : State) (gk lane : Nat) (ws : List Word) : ORes :=
  let r := (List.range 16).foldl (fun r i => r + w32 ws (1 + i) * 2 ^ (32 * i)) 0
  let tag := prTag r
  if s.acqPending (lkOf gk lane) then .wait (.order none)
  else if ws.getD 0 0 != 0 then .fault (faultTag fcILLEGAL_OPERAND tag)
  else match s.tagCheck gk tag with
    | some f => .fault f
    | none => match s.pairCheck gk r none with
      | some f => .fault (f.withTag tag)
      | none => .ok (s.pairFork gk lane tag r (s.martenUsed (s.group gk).core ≥ 4))

/-! ### Marten's reads -/

/-- A 32-bit word read by a launch's thread, or what it met. -/
inductive KRes where
  | ok (v : Nat)
  | wait (obj page : Nat) (r : WaitReason)
  | hold
  | fault (f : FaultInfo)

/-- The bytes of a word of a set or of the exclusion arrays. -/
def State.keyBytes (s : State) (th : Nat) (x : Thread) (c : Cap) (off : Nat) : Nat → KRes × State
  | 0 => (.ok 0, s)
  | n + 1 =>
    let (r, s) := s.threadLoc th x c off 1 .read
    match r with
    | .wait o p w => (.wait o p w, s)
    | .fault f => (.fault f, s)
    | .ok l =>
      if !s.pathOpen l || !s.threadClear th x l 1 then (.hold, s)
      else if s.detAct x.gk l .load == .defer then (.hold, s.detMark x.gk l true)
      else match s.hitsPoison l 1 with
        | some f => (.fault f, s)
        | none =>
          let (v, s) := s.detRead x.core x.gk l 1
          match State.keyBytes s th x c (off + 1) n with
          | (.ok r, s) => (.ok (v % 256 + 256 * r), s)
          | e => e

/-- Words at a list of offsets, in order. -/
def State.keyWords (s : State) (th : Nat) (x : Thread) (c : Cap) : List Nat → Except KRes (List Nat) × State
  | [] => (.ok [], s)
  | o :: os =>
    match s.keyBytes th x c o 4 with
    | (.ok v, s) => match State.keyWords s th x c os with
      | (.ok vs, s) => (.ok (v :: vs), s)
      | e => e
    | (e, s) => (.error e, s)

/-- The offsets of the key words of record i (R179). -/
def keyOffs (r : Nat) (p : PairSet) (i : Nat) : List Nat :=
  let b := i * p.stride + p.key
  match prTest r with | 0 => [b, b + 4, b + 8] | 3 => [] | _ => [b]

/-- Words of every record of a set, a fixed number for each. -/
def setOffs (r : Nat) (p : PairSet) : List Nat := (List.range p.count).flatMap (keyOffs r p)

def keyOf (r : Nat) (ks : List Nat) (i : Nat) : List Nat :=
  let n := match prTest r with | 0 => 3 | 3 => 0 | _ => 1
  (ks.drop (i * n)).take n

/-! ### Tests (R229, R230) -/

/-- The difference of one coordinate, with the minimum image. -/
def coord (pbox : Bool) (box a b : Nat) : Nat :=
  let d := engSub b a
  if !pbox then d
  else match f32.val d, f32.val box with
    | .fin s m e, .fin _ bm be =>
      let q := e - be
      let n := m * pow2 q
      let dn := bm * pow2 (-q)
      let k := n / dn + (roundsUp .rne s (n / dn) (n % dn) dn).toNat
      match Val.add .rne (.fin s m e) (.fin (!s) (k * bm) be) with
      | some v => if v.isZero then 0 else (f32.round .rne v).bits
      | none => f32.qnan
    | _, _ => f32.qnan

/-- Whether a <= b for FP32, false on a NaN. -/
def f32Le (a b : Nat) : Bool := !f32.isNan a && !f32.isNan b && (Val.cmp (f32.val a) (f32.val b)) ≤ 0

/-- The test of a candidate: the values of v2 to v5 when it accepts (Table 9.1). -/
def pairTest (r : Nat) (ka kb : List Nat) : Option (List Word) :=
  match prTest r with
  | 0 =>
    let d (c : Nat) : Nat := coord (prPbox r) (prBox r c) (ka.getD c 0) (kb.getD c 0)
    let sq (x : Nat) : Nat := engMul x x
    let d2 := engAdd (engAdd (sq (d 0)) (sq (d 1))) (sq (d 2))
    if f32Le d2 (prParam r) then some [BitVec.ofNat 32 (d 0), BitVec.ofNat 32 (d 1), BitVec.ofNat 32 (d 2), BitVec.ofNat 32 d2] else none
  | 1 =>
    let a := (BitVec.ofNat 32 (ka.getD 0 0)).toInt
    let b := (BitVec.ofNat 32 (kb.getD 0 0)).toInt
    if (a - b).natAbs ≤ prParam r && (!prCausal r || b ≤ a) then
      some [0, 0, 0, BitVec.ofNat 32 (ka.getD 0 0) - BitVec.ofNat 32 (kb.getD 0 0)] else none
  | 2 => if ka.getD 0 0 == kb.getD 0 0 then some [0, 0, 0, 0] else none
  | _ => some [0, 0, 0, 0]

/-- The candidates in generation order (R228). -/
def candidates (r : Nat) : List (Nat × Nat) :=
  (List.range (prA r).count).flatMap (fun a => ((List.range (prB r).count).filter (fun b =>
    if prSame r then (if prMode r = 0 then a < b else a != b) else true)).map (a, ·))

/-- The accepted pairs in generation order (R228, R231). -/
def accepted (r : Nat) (kas kbs : List Nat) (rows : List (List Nat)) : List Pair :=
  (candidates r).filterMap (fun (a, b) =>
    let ex := (rows.getD a []).contains b || (prSame r && (rows.getD b []).contains a)
    if ex then none else (pairTest r (keyOf r kas a) (keyOf r kbs b)).map (fun v => ⟨a, b, v⟩))

/-- The exclusion check of R182 on the rows read: each entry of XROW, the rows. -/
def rowsOk (r : Nat) (xrow : List Nat) (rows : List (List Nat)) : Bool :=
  (xrow.zip (xrow.drop 1)).all (fun p => p.1 ≤ p.2) &&
  rows.all (fun w => w.length ≤ 16 && (w.zip (w.drop 1)).all (fun p => p.1 < p.2) && w.all (· < (prB r).count))

/-- A launch that ends without a pair (R182, R254). -/
def Thread.pairFail (x : Thread) : Thread :=
  { x with got := [], pins := [], pair := { x.pair with phase := .draining, bad := true } }

/-- What a thread does on a read that met a wait or a failure during binning. -/
def State.binMiss (s : State) (th : Nat) (e : KRes) : State :=
  match s.thread th, e with
  | some x, .wait o p r =>
    (s.mergeWait x.core (s.kern x.gk).ctx o p r (.thread th 3) .read).modThread th (fun x => { x with waits := true })
  | some x, .fault _ => s.setThread th (some x.pairFail)
  | _, _ => s

/-! ### Binning (R182, R232) -/

/-- The words that Marten reads, numbered: XROW from 0, XIDX from 2^32, set A's keys from 2 * 2^32, set B's from 3 * 2^32. -/
def binKey (part i : Nat) : Nat := part * 2 ^ 32 + i

/-- Words of a part that have been read, as numbers; none while one is missing. -/
def Thread.binPart (x : Thread) (part n : Nat) : Option (List Nat) :=
  let ws := (List.range n).map (fun i => tget none x.got (binKey part i))
  if ws.all (·.isSome) then some (ws.map (fun w => (w.getD 0).toNat)) else none

/-- The row array as read: not falling, no row above 16 entries, the index entries within XCAP (R182). -/
def xrowOk (c : Cap) (r : Nat) (xrow : List Nat) : Bool :=
  let lo := xrow.headD 0
  let hi := xrow.getLastD 0
  (xrow.zip (xrow.drop 1)).all (fun p => p.1 ≤ p.2 && p.2 - p.1 ≤ 16) && (lo ≥ hi || capBounds c (prXidx r + 4 * lo) (4 * (hi - lo)))

/-- The rows cut from the index entries. -/
def cutRows (xrow idx : List Nat) : List (List Nat) :=
  let lo := xrow.headD 0
  (xrow.zip (xrow.drop 1)).map (fun p => (idx.drop (p.1 - lo)).take (p.2 - p.1))

/-- The XROW entries of a launch: none while one is missing; an empty list without exclusion. -/
def Thread.xrow (x : Thread) : Option (List Nat) :=
  let r := x.pair.record.toNat
  if prExcl r then x.binPart 0 ((prA r).count + 1) else some []
/-- How many index entries follow. -/
def xidxCount (xrow : List Nat) : Nat := xrow.getLastD 0 - xrow.headD 0
/-- Key words of a set. -/
def setWords (r : Nat) (p : PairSet) : Nat := (setOffs r p).length

/-- The capability and offset of a word that binning reads; under SAME set A is read once, for both (R228, R232). -/
def Thread.binItem (x : Thread) (item : Nat) : Option (Cap × Nat) :=
  let r := x.pair.record.toNat
  let cap (n : Nat) : Cap := x.pair.caps.getD n 0
  let i := item % 2 ^ 32
  match item / 2 ^ 32 with
  | 0 => if prExcl r && i ≤ (prA r).count then some (cap 7, prXrow r + 4 * i) else none
  | 1 => match x.xrow with
    | some xrow => if xrowOk (cap 7) r xrow && i < xidxCount xrow then some (cap 7, prXidx r + 4 * (xrow.headD 0 + i)) else none
    | none => none
  | 2 => (setOffs r (prA r))[i]?.map (cap 3, ·)
  | 3 => if prSame r then none else (setOffs r (prB r))[i]?.map (cap 4, ·)
  | _ => none

/-- One read of binning: an access of the launch's thread (R232, R268). -/
def State.binRead (s : State) (th item : Nat) : State :=
  match s.thread th with
  | none => s
  | some x =>
    if x.kind != .pair || x.pair.phase != .binning || x.waits || (s.team x.tk).saved || (tget none x.got item).isSome then s
    else match x.binItem item with
      | none => s
      | some (c, off) => match s.keyBytes th x c off 4 with
        | (.ok v, s) => s.modThread th (fun x => x.took item (BitVec.ofNat 32 v))
        | (e, s) => s.binMiss th e

/-- The accepted pairs are fixed: the words read and the translations go. -/
def Thread.binned (x : Thread) (ps : List Pair) : Thread :=
  { x with got := [], pins := [], pair := { x.pair with pairs := ps, phase := if ps.isEmpty then .draining else .generating } }

/-- The pairs, once every word has been read; none while one is missing; the inner none says that the check of R182 failed. -/
def Thread.bin (x : Thread) : Option (Option (List Pair)) :=
  let r := x.pair.record.toNat
  match x.xrow with
  | none => none
  | some xrow =>
    if !xrowOk (x.pair.caps.getD 7 0) r xrow then some none
    else match x.binPart 1 (xidxCount xrow) with
      | none => none
      | some idx =>
        let rows := cutRows xrow idx
        if !rowsOk r xrow rows then some none
        else match x.binPart 2 (setWords r (prA r)) with
          | none => none
          | some kas => match (if prSame r then some kas else x.binPart 3 (setWords r (prB r))) with
            | none => none
            | some kbs => some (some (accepted r kas kbs rows))

/-- MARTEN_BINNING: a queued command takes a launch place that is free, in order; a launch whose words have all been read
has its accepted pairs fixed (R182, R228-R232). -/
def State.martenBin (s : State) (th : Nat) : State :=
  match s.thread th with
  | none => s
  | some x =>
    if x.kind != .pair || x.waits || (s.team x.tk).saved then s
    else match x.pair.phase with
      | .queued =>
        let earlier := s.e.threads.any (fun p => p.1 < th && (match p.2 with
          | some y => y.kind == .pair && y.core == x.core && y.pair.phase == .queued | none => false))
        if earlier || s.martenUsed x.core ≥ 4 || (s.team x.tk).stops then s
        else s.setThread th (some { x with pair := { x.pair with phase := .binning } })
      | .binning => match x.bin with
        | none => s
        | some none => s.setThread th (some x.pairFail)
        | some (some ps) => s.setThread th (some (x.binned ps))
      | _ => s

/-! ### Pair groups (R224, R233, R234) -/

/-- Pair lanes that hold a place on a core: those that have not exited, and those of pairs to be started again (R233). -/
def State.pairLanes (s : State) (core : Nat) : Nat :=
  (((s.groupsOn core).filter (fun p => p.2.pair)).map (fun p =>
    ((s.lanesOf p.1).filter (fun l => (s.lane (lkOf p.1 l)).st != .exited)).length)).sum +
  (s.e.threads.map (fun p => match p.2 with
    | some x => if x.kind == .pair && x.core == core then x.pair.again.length else 0 | none => 0)).sum

/-- Sides of a launch, by number: those that its pairs have. -/
def sidesUpTo (r seq : Nat) : List Nat :=
  (List.range seq).flatMap (fun q => if prHasB r then [sideNo q false, sideNo q true] else [sideNo q false])

/-- Entries of the reorder window that CANONICAL launches of a core hold (R238). -/
def State.windowUsed (s : State) (core : Nat) : Nat :=
  (s.e.threads.map (fun p => match p.2 with
    | some x =>
      let r := x.pair.record.toNat
      if x.kind == .pair && x.core == core && prSum r == 1 then
        ((sidesUpTo r x.pair.next).filter (fun n => !x.pair.closed.contains n)).length else 0
    | none => 0)).sum

/-- The entry packet of a launch's pair lanes (Table 9.1). -/
def pairEntry (k : Kern) (r : Nat) : Nat := if prEntry r = 0 then k.pentry else prEntry r

/-- A pair lane at its entry, with v0 to v5 (Table 9.1). -/
def State.startPair (s : State) (gk l th seq : Nat) (k : Kern) (r : Nat) (p : Pair) (doneA doneB : Bool) : State :=
  let s := s.setLane (lkOf gk l)
    { st := .ready, pkt := pairEntry k r, codeFloor := s.o.stamp
      pair := { th := th, seq := seq, a := p.a, b := p.b, doneA := doneA, doneB := doneB } }
  let s := { s with g := { s.g with vreg := tclear s.g.vreg (vKey (lkOf gk l) 0) (vKey (lkOf gk l + 1) 0) } }
  s.writeVs gk l 0 ([BitVec.ofNat 32 p.a, BitVec.ofNat 32 p.b] ++ p.v)

/-- A new pair group of a launch on its issuing core, with the launch's capabilities (R212, R224, R233); none when no
partition has room for it. -/
def State.newPairGroup (s : State) (x : Thread) : Option (Nat × State) :=
  let t := s.team x.tk
  let k := t.kern
  (s.groupRoom x.core k.width k.pregs).map (fun (part, base) =>
    let idx := 1024 + t.npair
    let gk := gkOf x.tk idx
    let (born, s) := s.fresh
    let s := s.setGroup gk { tk := x.tk, idx := idx, pair := true, role := 4, width := k.width, regs := k.pregs
                             core := x.core, part := part, regBase := base, born := born, codeView := s.o.stamp }
    let s := s.modTeam x.tk (fun t => { t with npair := t.npair + 1 })
    let cap (n : Nat) : Cap := x.pair.caps.getD n 0
    (gk, ((((s.setC gk 0 (cap 0)).setC gk 1 (cap 1)).setC gk 2 (cap 2)).setC gk 4 (cap 3)).setC gk 5 (cap 4)))

/-- PAIR_GROUP_START: the next run of accepted pairs becomes a pair group. -/
def State.pairGroupStart (s : State) (th : Nat) : State :=
  match s.thread th with
  | none => s
  | some x =>
    let t := s.team x.tk
    let k := t.kern
    let r := x.pair.record.toNat
    let run := (x.pair.pairs.drop x.pair.next).take k.width
    let per := if prHasB r then 2 else 1
    if x.kind != .pair || x.pair.phase != .generating || t.stops || t.saved || s.pairLanes x.core + run.length > 2048 ||
        (prSum r == 1 && s.windowUsed x.core + per * run.length > 4096) then s
    else match s.newPairGroup x with
      | none => s
      | some (gk, s) =>
        let s := (List.range run.length).foldl (fun s i => match run[i]? with
          | some p =>
            let s := s.startPair gk i th (x.pair.next + i) k r p false false
            s.addHist (lkOf gk i) (s.hist (thAgent th))
          | none => s) s
        let n := x.pair.next + run.length
        s.modThread th (fun x => { x with pair := { x.pair with
          next := n, phase := if n ≥ x.pair.pairs.length then .draining else .generating } })

/-! ### The two sides (R184, R235) -/

/-- The byte of a record's slot in its region. -/
def slotByte (x : Thread) (r : Nat) (isB : Bool) (i : Nat) : Nat :=
  let a := if isB then prAccB r else prAccA r
  Cap.base (x.pair.caps.getD (if isB then 6 else 5) 0) + a.2 + i * prSlot r

/-- A staged word negated for NEWTON: its sign bit inverts, a NaN stays a NaN. -/
def negWord (w : Word) : Word := w ^^^ 0x80000000

/-- The words of a side that an exiting pair lane releases: none when it was never staged. -/
def stagedSide (r : Nat) (p : PairLane) (isB : Bool) : Option (List Word) :=
  if !isB then p.sideA else if prMode r = 0 then p.sideA.map (·.map negWord) else p.sideB

/-- One side released at EXIT, or its turn closed as empty; a side applied before is not applied again (R245). -/
def State.releaseSide (s : State) (lk : Nat) (isB : Bool) : State :=
  let p := (s.lane lk).pair
  match s.thread p.th with
  | none => s
  | some x =>
    let r := x.pair.record.toNat
    if isB && !prHasB r then s
    else if (if isB then p.doneB else p.doneA) then s.closeSide p.th p.seq isB
    else match stagedSide r p isB with
      | none => s.closeSide p.th p.seq isB
      | some ws =>
        let (id, s) := s.fresh
        let side : Side := { th := p.th, lane := lk, seq := p.seq, isB := isB, words := ws, tk := x.tk
                             key := slotByte x r isB (if isB then p.b else p.a) }
        { s with e := { s.e with sides := tset none s.e.sides id (some side) } }

/-- The exit of a pair lane: both sides are released (R235). -/
def State.exitPair (s : State) (lk : Nat) : State :=
  let p := (s.lane lk).pair
  let s := s.addHist (thAgent p.th) (s.hist lk)
  ((s.releaseSide lk false).releaseSide lk true).endLane lk

/-- Under CANONICAL a side waits for every earlier side of its launch that reaches its slot (R238). -/
def State.turnCome (s : State) (x : Thread) (sd : Side) : Bool :=
  let r := x.pair.record.toNat
  prSum r != 1 || (List.range sd.seq).all (fun q => match x.pair.pairs[q]? with
    | none => true
    | some p =>
      (slotByte x r false p.a != sd.key || x.pair.closed.contains (sideNo q false)) &&
      (!prHasB r || slotByte x r true p.b != sd.key || x.pair.closed.contains (sideNo q true)))

/-- The running EXACT sum of a slot word of a launch. -/
def exKey (th byte : Nat) : Nat := th * 2 ^ 32 + byte
def State.exactOf (s : State) (th tk k byte : Nat) : Exact :=
  let e := tget {} s.t.exact (exKey th byte)
  if e.live then e
  else
    let n := (BitVec.ofNat 128 (s.accRead tk k byte 16)).toInt
    { e with sum := n, start := n, live := true }

/-- A contribution converted with RNE to the nearest multiple of 2^X, saturated (R40). -/
def exactAdd (e : Exact) (x : Int) (w : Nat) : Exact :=
  match f32.val w with
  | .nan => { e with nan := true }
  | .inf s => { e with sum := e.sum + (if s then -(2 ^ 127) else 2 ^ 127 - 1), sat := true }
  | .fin s m q =>
    let d := q - x
    let n := m * pow2 d
    let dn := pow2 (-d)
    let k : Nat := n / dn + (roundsUp .rne s (n / dn) (n % dn) dn).toNat
    let v : Int := if s then -(k : Int) else k
    let c := max (-(2 ^ 127)) (min (2 ^ 127 - 1) v)
    { e with sum := e.sum + c, sat := e.sat || c != v }

/-- A side added into its slot (R39-R41, R237-R240). -/
def State.addSide (s : State) (x : Thread) (sd : Side) : State :=
  let r := x.pair.record.toNat
  let k := s.coreIdx x.gk
  let rd (s : State) (i : Nat) : Nat := s.accRead x.tk k (sd.key + 4 * i) 4
  if prMode r = 3 then
    let s0 := rd s 1
    -- a slot whose s word is +0 is the empty state of R41: its m is −∞, its value words are 0 (R240)
    let m := if s0 = 0 then f32.inf true else rd s 0
    let word (i : Nat) : Nat := if s0 = 0 then 0 else rd s i
    let g := smxMerge (s.team x.tk).kern.nbv m s0 (w32 sd.words 0) 0x3F800000
    let s1 := (s.accWrite x.tk k sd.key 4 g.1).accWrite x.tk k (sd.key + 4) 4 g.2.1
    (List.range (prW r)).foldl (fun t i =>
      t.accWrite x.tk k (sd.key + 8 + 4 * i) 4
        (engAdd (engMul (word (2 + i)) g.2.2.1) (engMul (w32 sd.words (1 + i)) g.2.2.2))) s1
  else if prSum r = 2 then
    (List.range (prW r)).foldl (fun s i =>
      let b := sd.key + 16 * i
      let e := exactAdd (s.exactOf sd.th x.tk k b) (prXexp r) (w32 sd.words i)
      { s with t := { s.t with exact := tset {} s.t.exact (exKey sd.th b) e } }) s
  else
    (List.range (prW r)).foldl (fun s i => s.accWrite x.tk k (sd.key + 4 * i) 4 (engAdd (rd s i) (w32 sd.words i))) s

/-- SIDE_APPLY: one side applied as one step, and acknowledged. -/
def State.sideApply (s : State) (id : Nat) : State :=
  match tget none s.e.sides id with
  | none => s
  | some sd => match s.thread sd.th with
    | none => s
    | some x =>
      if !s.turnCome x sd then s
      else
        let s := { s with e := { s.e with sides := tset none s.e.sides id none } }
        (s.addSide x sd).closeSide sd.th sd.seq sd.isB

/-! ### Completion (R239, R242) -/

/-- Every pair has started and exited or been abandoned, and every released side is acknowledged. -/
def State.pairsDone (s : State) (th : Nat) (x : Thread) : Bool :=
  x.pair.phase == .draining && x.pair.again.isEmpty &&
  s.e.sides.all (fun p => match p.2 with | some sd => sd.th != th | none => true) &&
  s.g.lanes.all (fun p => p.2.st == .exited || p.2.pair.th != th)

/-- EXACT flags as PAIRSTAT and a slot word report them. -/
def Exact.flags (e : Exact) (sat : Bool) : Nat := (e.sat || sat).toNat + 2 * e.nan.toNat

/-- The finish of one slot word: its 16 bytes, and its flags (R40, R239). -/
def exactFinishWord (e : Exact) (x : Int) : Nat × Nat :=
  let n := max (-(2 ^ 127)) (min (2 ^ 127 - 1) e.sum)
  let fl := e.flags (n != e.sum)
  let w := if e.nan then f32.qnan else (f32.round .rne (.fin (n < 0) n.natAbs x)).bits
  (w + fl * 2 ^ 32, fl)

/-- The slot words of an EXACT launch, each once (R239). -/
def Thread.slotWords (x : Thread) : List Nat :=
  let r := x.pair.record.toNat
  (((List.range (prA r).count).map (slotByte x r false) ++
    (if prHasB r && !prSame r then (List.range (prB r).count).map (slotByte x r true) else [])).flatMap
      (fun b => (List.range (prW r)).map (fun i => b + 16 * i))).eraseDups

/-- A slot word lies in the regions of a launch. -/
def Thread.namesWord (x : Thread) (b : Nat) : Bool :=
  let r := x.pair.record.toNat
  let within (isB : Bool) (n : Nat) : Bool := slotByte x r isB 0 ≤ b && b < slotByte x r isB 0 + n * prSlot r
  within false (prA r).count || (prHasB r && within true (prB r).count)

/-- The other EXACT launches in flight that name a slot word of a launch (R241). -/
def State.exactRivals (s : State) (th : Nat) (x : Thread) (b : Nat) : List Nat :=
  s.e.threads.filterMap (fun p => match p.2 with
    | some y => if p.1 != th && y.kind == .pair && y.tk == x.tk && y.core == x.core && prSum y.pair.record.toNat == 2 &&
        !y.pair.finished && y.namesWord b then some p.1 else none
    | none => none)

/-- A running sum together with what other launches have contributed: those that have finished, and those given. -/
def Exact.together (e : Exact) (os : List Exact) : Exact :=
  os.foldl (fun e o => if o.live then { e with sum := e.sum + (o.sum - o.start), sat := e.sat || o.sat, nan := e.nan || o.nan } else e)
    { e with sum := e.sum + e.other, sat := e.sat || e.osat, nan := e.nan || e.onan }

/-- A rival's sum once a launch has finished a slot word: it goes on from the integer that the word held, and may count the
finished launch's contributions (R241). -/
def Exact.heard (o e : Exact) : Exact :=
  let o := if o.live then o else { o with sum := e.start, start := e.start, live := true }
  { o with other := o.other + (e.sum - e.start), osat := o.osat || e.sat, onan := o.onan || e.nan }

/-- The finish of one slot word of a launch. Where launches meet, whether it counts the others' contributions is a free
value (R241, log 2). -/
def State.finishWordAt (s : State) (th : Nat) (x : Thread) (k b : Nat) : State :=
  let e := s.exactOf th x.tk k b
  let rivals := s.exactRivals th x b
  let all := e.together (rivals.map (fun t => tget {} s.t.exact (exKey t b)))
  let (e', s) := if all.sum == e.sum && all.sat == e.sat && all.nan == e.nan then (e, s)
    else let (v, s) := s.draw; (if v.getLsbD 0 then all else e, s)
  let w := exactFinishWord e' (prXexp x.pair.record.toNat)
  let s := s.modThread th (fun x => { x with pair := { x.pair with
    sat := x.pair.sat || w.2 % 2 == 1, nan := x.pair.nan || w.2 / 2 == 1 } })
  let s := rivals.foldl (fun s t =>
    { s with t := { s.t with exact := tset {} s.t.exact (exKey t b) ((tget {} s.t.exact (exKey t b)).heard e) } }) s
  let s := { s with t := { s.t with exact := tset {} s.t.exact (exKey th b) {} } }
  s.accWrite x.tk k b 16 w.1

/-- EXACT_FINISH: every slot word of the regions of the launch rewritten. -/
def State.exactFinish (s : State) (th : Nat) : State :=
  match s.thread th with
  | none => s
  | some x =>
    if x.kind != .pair || prSum x.pair.record.toNat != 2 || x.pair.finished || !s.pairsDone th x then s
    else
      let s := x.slotWords.foldl (fun s b => s.finishWordAt th x (s.coreIdx x.gk) b) s
      s.modThread th (fun x => { x with pair := { x.pair with finished := true } })

/-- The word of PAIRSTAT (R187). -/
def State.pairWord (s : State) (th : Nat) (x : Thread) (done : Bool) : Word :=
  let st := if done then 0 else match x.pair.phase with | .queued => 1 | .binning => 1 | .generating => 2 | .draining => 3
  let run := s.t.exact.filter (fun p => p.1 / 2 ^ 32 == th)
  let sat := x.pair.sat || run.any (fun p => p.2.sat)
  let nan := x.pair.nan || run.any (fun p => p.2.nan)
  BitVec.ofNat 32 (st + 4 * sat.toNat + 8 * nan.toNat + 256 * min (2 ^ 24 - 1) x.pair.faults)

/-- PAIR_LAUNCH_COMPLETE: the tag becomes Done (R242). -/
def State.pairComplete (s : State) (th : Nat) : State :=
  match s.thread th with
  | none => s
  | some x =>
    if x.kind != .pair || !s.pairsDone th x || (prSum x.pair.record.toNat == 2 && !x.pair.finished) then s
    else
      let w := s.pairWord th x true
      ((s.tagDone x.gk x.tag th x.pair.bad.toNat).setPairDone x.gk x.tag w).setThread th none

/-! ### Starting a faulted pair again (R186, R245) -/

/-- A copy of a pair fault record whose RSV fields are not zero (R245). -/
def pairCopyBad (r : Nat) : Bool :=
  bitField r 448 64 != 0 || bitField r 245 43 != 0 || bitField r 239 1 != 0 || bitField r 231 1 != 0 || bitField r 24 8 != 0

/-- A FID names no parked agent any more. -/
def State.dropFid (s : State) (tk fid : Nat) : State :=
  s.modTeam tk (fun t => { t with parked := tset none t.parked fid none })

/-- The status of PAIRRELAUNCH for a copy of a record, and its effect: the pair is to start again with the history of the
handler; the lane that faulted is out (R186, R245, R275). -/
def State.pairAgain (s : State) (tk r : Nat) (hist : List Nat) : Nat × State :=
  let fid := bitField r 32 32
  match tget none (s.team tk).parked fid with
  | none => (1, s)
  | some p =>
    match p.pair, p.lane with
    | true, some lk =>
      let s := s.dropFid tk fid
      if bitField r 17 1 = 1 then (3, s.abandonPair lk)
      else
        let s := s.modThread (s.lane lk).pair.th (fun x => { x with pair := { x.pair with
          faults := x.pair.faults - 1, again := x.pair.again.filter (·.lane != lk) ++ [{ lane := lk, hist := hist }] } })
        (0, (s.endLane lk).modLane lk (fun l => { l with count := 0, pair :=
          { l.pair with sideA := none, sideB := none, doneA := bitField r 242 1 == 1, doneB := bitField r 243 1 == 1 } }))
    | _, _ => (2, s)

/-- A restart that waits for its reads. -/
def Thread.restart (x : Thread) (lk : Nat) : Option Restart := x.pair.again.find? (fun a => a.lane == lk && !a.failed)

/-- The keys of a pair that starts again, of its records as they stand (R186). -/
def State.restartKeys (s : State) (th : Nat) (x : Thread) (p : PairLane) : Except KRes (List Nat × List Nat) × State :=
  let r := x.pair.record.toNat
  match s.keyWords th x (x.pair.caps.getD 3 0) (keyOffs r (prA r) p.a) with
  | (.error e, s) => (.error e, s)
  | (.ok ka, s) => match s.keyWords th x (x.pair.caps.getD 4 0) (keyOffs r (prB r) p.b) with
    | (.error e, s) => (.error e, s)
    | (.ok kb, s) => (.ok (ka, kb), s)

/-- v2 to v5 of a pair that starts again: the test is not applied, its values are computed as it would. -/
def againVals (r : Nat) (ka kb : List Nat) : List Word :=
  match prTest r with
  | 0 =>
    let d (c : Nat) : Nat := coord (prPbox r) (prBox r c) (ka.getD c 0) (kb.getD c 0)
    let d2 := engAdd (engAdd (engMul (d 0) (d 0)) (engMul (d 1) (d 1))) (engMul (d 2) (d 2))
    [BitVec.ofNat 32 (d 0), BitVec.ofNat 32 (d 1), BitVec.ofNat 32 (d 2), BitVec.ofNat 32 d2]
  | 1 => [0, 0, 0, BitVec.ofNat 32 (ka.getD 0 0) - BitVec.ofNat 32 (kb.getD 0 0)]
  | _ => [0, 0, 0, 0]

/-- A pair whose set records cannot be read takes a new pair fault at its entry (R186). -/
def State.restartFault (s : State) (th lk : Nat) (f : FaultInfo) : State :=
  match s.thread th with
  | none => s
  | some x =>
    let entry : Pc := { pkt := pairEntry (s.team x.tk).kern x.pair.record.toNat, slot := 0 }
    let mark (a : Restart) : Restart := if a.lane == lk then { a with failed := true } else a
    (s.modThread th (fun x => { x with pair := { x.pair with again := x.pair.again.map mark } })).pairFault lk entry f

/-- A pair starts again, alone at position 0 of a new pair group: its lane's first accesses follow an acquire at TEAM scope of
the handler's release (R233, R275). -/
def State.restartPair (s : State) (th : Nat) (x : Thread) (a : Restart) (ka kb : List Nat) : State :=
  let p := (s.lane a.lane).pair
  let r := x.pair.record.toNat
  match s.newPairGroup x with
  | none => s
  | some (gk, s) =>
    let s := s.startPair gk 0 th p.seq (s.team x.tk).kern r ⟨p.a, p.b, againVals r ka kb⟩ p.doneA p.doneB
    let s := (s.addHist (lkOf gk 0) a.hist).acquireView .team (lkOf gk 0)
    s.modThread th (fun x => { x with pair := { x.pair with again := x.pair.again.filter (·.lane != a.lane) } })

/-- The set records of a pair that starts again read by its launch's thread, and the pair started (R186). Its translation
steps are those of these reads alone. -/
def State.pairFetch (s : State) (th lk : Nat) : State :=
  match s.thread th with
  | none => s
  | some x =>
    match x.restart lk with
    | none => s
    | some a =>
      let t := s.team x.tk
      if t.saved || t.stops then s
      else
        let s := match s.restartKeys th x (s.lane lk).pair with
          | (.error (.wait o p w), s) => s.mergeWait x.core t.kern.ctx o p w (.thread th 3) .read
          | (.error (.fault f), s) => s.restartFault th lk f
          | (.error _, s) => s
          | (.ok (ka, kb), s) => s.restartPair th x a ka kb
        s.modThread th (fun x => { x with pins := [] })

/-- PAIR_LIMIT (R185): a pair lane that would run its 4,097th word takes the fault on it. -/
def State.pairLimit (s : State) (lk : Nat) : State :=
  let l := s.lane lk
  if (s.group (gkLane lk)).pair && l.count ≥ 4096 && liveLane l then s.raise lk l.pc (.of fcPAIR_LIMIT) else s

end Sys2Proof.Machine
end

