-- ==== Sys2Proof/Machine/WordOps.lean ====
section
/-! DEFINITION. Writing destinations: v and s registers, pushes to the queue registers (R51, R52, R158, R183, R208),
and the frame of the words that compute one result for each lane (R76). -/

namespace Sys2Proof.Machine

/-- The words of a command of a queue: q0 and q4 nine, q2 seventeen, q3 five. -/
def queueSize (c : Nat) : Nat := match c with | 114 => 17 | 115 => 5 | _ => 9
def Group.queue (g : Group) (c : Nat) : List Word :=
  match c with | 112 => g.q0 | 114 => g.q2 | 115 => g.q3 | 116 => g.q4 | _ => []
def Group.setQueue (g : Group) (c : Nat) (ws : List Word) : Group :=
  match c with
  | 112 => { g with q0 := ws } | 114 => { g with q2 := ws } | 115 => { g with q3 := ws } | 116 => { g with q4 := ws } | _ => g

/-- A queue takes no further word: it holds its commands. Commands of q0 and q4 fork at once and leave no command
behind (R158). -/
def State.queueHeld (s : State) (gk c : Nat) : Bool :=
  match c with | 114 => s.q2Held gk ≥ 2 | 115 => s.q3Held gk ≥ 4 | _ => false

/-- A complete command of a queue. -/
def State.runCommand (s : State) (gk lane c : Nat) (ws : List Word) : ORes :=
  match c with
  | 112 => s.command gk lane false ws
  | 114 => s.pairCommand gk lane ws
  | 115 => s.post5 gk lane ws
  | _ => s.command gk lane true ws

/-- One word pushed to a queue by a lane of a group. A command that faults or waits leaves its last word unpushed. -/
def State.push (s : State) (gk lane c : Nat) (v : Word) : ORes :=
  let g := s.group gk
  let ws := g.queue c ++ [v]
  if c == 114 && g.pair then .fault (.of fcILLEGAL_OPERAND)
  else if s.queueHeld gk c then .wait .place
  else if ws.length < queueSize c then .ok (s.setGroup gk (g.setQueue c ws))
  else match s.runCommand gk lane c ws with
    | .ok s => .ok (s.modGroup gk (fun g => g.setQueue c []))
    | r => r

/-- Results written to a register destination: each lane's own v registers; an s register takes the value of the
lowest-numbered executing lane (Table 3.1), and nothing when that lane traps. -/
def State.writeDst (s : State) (gk : Nat) (d : Opc) (res : List (Nat × LaneRes)) : State :=
  if isV d then
    res.foldl (fun s p => match p.2 with | .val ws => s.writeVs gk p.1 d.toNat ws | .trap _ => s) s
  else match res with
    | (_, .val ws) :: _ => if isS d then s.writeSs gk (d.toNat - 96) ws else s
    | _ => s

/-- The results of a word written to its destination, then another effect of the word, then traps taken and the other
lanes going on. A push to a queue that faults or waits does so for every executing lane, and nothing else happens. -/
def State.deliverWith (s : State) (d : Opc) (res : List (Nat × LaneRes)) (after : State → State) : State :=
  let gk := s.iss.gk
  if isQ d then
    match res with
    | (l, .val ws) :: _ => match s.push gk l d.toNat (ws.headD 0) with
      | .ok s' => (after s').finishWord res
      | .fault f => s.raiseAll f
      | .wait w => s.waitAll w
      | .hold s' w => s'.holdLanes s'.iss.gk s'.iss.lanes w
    | _ => (after s).finishWord res
  else (after (s.writeDst gk d res)).finishWord res

def State.deliver (s : State) (d : Opc) (res : List (Nat × LaneRes)) : State := s.deliverWith d res id

/-- A word that computes a result for each lane from the state before the word (R76): every result is computed, then
written, then traps are taken. -/
def State.compute (s : State) (i : Instr) (d : Opc) (f : Nat → LaneRes) : State :=
  s.laneWord i (fun s => s.deliver d (s.iss.lanes.map (fun l => (l, f l))))

/-- One operand; two; two and the old destination (R75). -/
def State.un (s : State) (i : Instr) (d a : Opc) (f : Word → LaneRes) : State :=
  s.compute i d (fun l => f (s.src s.iss.gk l a))
def State.bin (s : State) (i : Instr) (d a b : Opc) (f : Word → Word → LaneRes) : State :=
  s.compute i d (fun l => f (s.src s.iss.gk l a) (s.src s.iss.gk l b))
def State.tri (s : State) (i : Instr) (d a b : Opc) (f : Word → Word → Word → LaneRes) : State :=
  s.compute i d (fun l => f (s.src s.iss.gk l a) (s.src s.iss.gk l b) (s.src s.iss.gk l d))

/-- The outcome of a word: always a next state. -/
abbrev Out := Host.Outcome State Fault Refusal

/-- The numeric version and the trap mask of the issuing launch. -/
def State.nbv (s : State) : Nat := (s.kern s.iss.gk).nbv
def State.fl (s : State) : BitVec 5 := (s.kern s.iss.gk).flags

/-- A word that writes one value to every executing lane. -/
def State.computeAll (s : State) (i : Instr) (d : Opc) (r : LaneRes) : State := s.compute i d (fun _ => r)

/-- Words that a pair lane may not issue (R224). -/
def State.noPair (s : State) (i : Instr) (body : State → State) : State :=
  s.laneWord i (fun s => if (s.group s.iss.gk).pair then s.raiseAll (.of fcILLEGAL_OPERAND) else body s)

end Sys2Proof.Machine
end

