-- ==== Sys2Proof/Machine/Control.lean ====
section
/-! DEFINITION. Branches, calls, rejoin masks, yield, waits and exit (R117-R123), MAJ 0x30 to 0x32. -/

namespace Sys2Proof.Machine

/-- Every executing lane in turn, in ascending order. -/
def State.each (s : State) (f : State → Nat → State) : State := s.iss.lanes.foldl f s
/-- The PC of the word in issue. -/
def State.here (s : State) : Pc := { pkt := s.iss.pkt, slot := s.iss.slot }

/-- The target packet of an FB word (R55), as a 30-bit packet index. -/
def fbTarget (pkt : Nat) (x : BitVec 15) : Nat := (((pkt : Int) + x.toInt) % 2 ^ 30).toNat
/-- The target packet of BRX and CALLX (R117). -/
def regTarget (v : Word) : Nat := v.toNat % 2 ^ 30

/-- A lane goes to slot 0 of a packet. -/
def State.jump (s : State) (lane pkt : Nat) : State := s.gotoLane (lkOf s.iss.gk lane) { pkt := pkt, slot := 0 }

/-- A branch that each lane takes or not (R44, R117). -/
def State.branch (s : State) (i : Instr) (taken : Nat → Bool) (target : Nat → Nat) : State :=
  s.laneWord i (fun s => s.each (fun x l => if taken l then x.jump l (target l) else x.advLane (lkOf s.iss.gk l)))

/-- The slice of a lane in the region that a capability addresses (R118), and STKSIZE, that of c3. -/
def State.sliceLen (s : State) (gk : Nat) (c : Cap) : Nat := Cap.len c / (s.group gk).width / 16 * 16
def State.stkSize (s : State) (gk : Nat) : Nat := s.sliceLen gk (s.creg gk 3)

/-- The access of a call stack, of a 32-bit word through c3. -/
def stackSpec (issue : Nat) (store : Bool) : MemSpec :=
  { cap := 3, z := 4, acc := if store then .write else .read, allow := allowAll, need := if store then rW else rR
    kind := if store then .store else .load, issue := issue }

/-- A lane's push of the return packet, then its transfer (R118). -/
def State.callLane (s : State) (i : Instr) (issue lane target : Nat) : State :=
  let gk := s.iss.gk
  let lk := lkOf gk lane
  let l := s.lane lk
  let size := s.sliceLen gk (s.heldCap gk lane 3)
  if s.acqPending lk then s.waitLanes gk [lane] (.order none)
  else if l.lanesp.toNat + 4 > size then s.raise lk s.here { code := fcSTACK_FAULT, detail := 0 }
  else
    let r := s.access i (stackSpec issue true) lane (lane * size + l.lanesp.toNat) .store
      (BitVec.ofNat 128 (s.iss.pkt + 1)) .none
    if r.1 then (r.2.jump lane target).modLane lk (fun l => { l with lanesp := l.lanesp + 4 }) else r.2

def State.callWord (s : State) (i : Instr) (target : Nat → Nat) : State :=
  s.laneWord i (fun s => s.each (fun x l => x.callLane i s.next l (target l)))

/-- A lane's RET: the packet is loaded, and the lane waits for it (R118). -/
def State.retLane (s : State) (i : Instr) (issue lane : Nat) : State :=
  let gk := s.iss.gk
  let lk := lkOf gk lane
  let l := s.lane lk
  if s.acqPending lk then s.waitLanes gk [lane] (.order none)
  else if l.lanesp.toNat < 4 then s.raise lk s.here { code := fcSTACK_FAULT, detail := 1 }
  else (s.access i (stackSpec issue false) lane (lane * s.sliceLen gk (s.heldCap gk lane 3) + l.lanesp.toNat - 4) .load 0 .ret).2

def execBr (c : Bool) (x : BitVec 15) (s : State) : Out :=
  .next (s.branch (.br c x) (fun _ => true) (fun _ => fbTarget s.iss.pkt x))
def execBrz (c : Bool) (a : Opc) (x : BitVec 15) (s : State) : Out :=
  .next (s.branch (.brz c a x) (fun l => s.src s.iss.gk l a == 0) (fun _ => fbTarget s.iss.pkt x))
def execBrnz (c : Bool) (a : Opc) (x : BitVec 15) (s : State) : Out :=
  .next (s.branch (.brnz c a x) (fun l => s.src s.iss.gk l a != 0) (fun _ => fbTarget s.iss.pkt x))
def execCall (c : Bool) (x : BitVec 15) (s : State) : Out :=
  .next (s.callWord (.call c x) (fun _ => fbTarget s.iss.pkt x))
def execBrx (c : Bool) (a : Opc) (s : State) : Out :=
  .next (s.branch (.brx c a) (fun _ => true) (fun l => regTarget (s.src s.iss.gk l a)))
def execCallx (c : Bool) (a : Opc) (s : State) : Out :=
  .next (s.callWord (.callx c a) (fun l => regTarget (s.src s.iss.gk l a)))
def execRet (c : Bool) (s : State) : Out :=
  .next (s.laneWord (.ret c) (fun s => s.each (fun x l => x.retLane (.ret c) s.next l)))

/-- YIELD (R121): the issue former is told where the yielding lanes stand. -/
def execYield (c : Bool) (s : State) : Out :=
  .next (s.laneWord (.yield c) (fun s => (s.modGroup s.iss.gk (fun g => { g with yielded := some s.here.next })).advAll))

/-- EXIT (R123, R235). -/
def execExit (c : Bool) (s : State) : Out :=
  .next (s.laneWord (.exit c) (fun s =>
    let pair := (s.group s.iss.gk).pair
    s.each (fun x l => if pair then x.exitPair (lkOf s.iss.gk l) else x.endLane (lkOf s.iss.gk l))))

/-- WAITC (R122): the lane stands after it and issues nothing for min(V(A), 65,535) clocks. -/
def execWaitc (c : Bool) (a : Opc) (s : State) : Out :=
  .next (s.laneWord (.waitc c a) (fun s => s.each (fun x l =>
    let n := min (s.src s.iss.gk l a).toNat 65535
    let x := x.advLane (lkOf s.iss.gk l)
    if n = 0 then x else x.waitLanes s.iss.gk [l] (.clocks n))))

/-- ENROL, REJOIN and STRIKE (R120). -/
def execEnrol (c : Bool) (j : BitVec 3) (s : State) : Out :=
  .next (s.laneWord (.enrol c j) (fun s =>
    (s.setJ s.iss.gk j.toNat (s.jmask s.iss.gk j.toNat ||| maskOf s.iss.lanes)).advAll))
def execRejoin (c : Bool) (j : BitVec 3) (s : State) : Out :=
  .next (s.laneWord (.rejoin c j) (fun s =>
    let gk := s.iss.gk
    let m := s.jmask gk j.toNat
    (s.advAll.waitLanes gk (s.iss.lanes.filter m.getLsbD) (.rejoin j.toNat)).rejoinRelease gk j.toNat))
def execStrike (c : Bool) (j : BitVec 3) (s : State) : Out :=
  .next (s.laneWord (.strike c j) (fun s => s.advAll.strikeLanes s.iss.gk j.toNat s.iss.lanes))

end Sys2Proof.Machine
end

