-- ==== Sys2Proof/Machine/Atomics.lean ====
section
/-! DEFINITION. Atomics and fences (R148, R149, R151, R153), MAJ 0x1C to 0x1F. -/

namespace Sys2Proof.Machine

/-- Order and scope of an ordered atomic (R149). -/
def ordAcq (o : Ord) : Bool := match o with | .acq | .ar => true | _ => false
def ordRel (o : Ord) : Bool := match o with | .rel | .ar => true | _ => false
def scopeOf (p : Scp) : Scope := match p with | .team => .team | .gang => .gang | .dev => .dev | .sys => .sys

/-- What an atomic asks for. -/
def atomSpec (k : BitVec 3) (u : Aop) (need : Nat) : MemSpec :=
  { cap := k.toNat, z := aopSize u, acc := .atomic, allow := allowAtom, need := need, kind := .atomic u 0 0 (need != rA) }
def atomOrd (sp : MemSpec) (o : Ord) (p : Scp) : MemSpec :=
  { sp with acq := if ordAcq o then some (scopeOf p) else none, rel := if ordRel o then some (scopeOf p) else none
            sync := some (scopeOf p) }

/-- The operand of an atomic for a lane: one register, or the pair of ADD.b64; CAS has the new value in V(D + 1). -/
def State.atomV (s : State) (lane : Nat) (u : Aop) (d : Opc) : DWord :=
  if u = .addB64 then s.src64 s.iss.gk lane d else (s.src s.iss.gk lane d).zeroExtend 64
def State.atomV2 (s : State) (lane : Nat) (u : Aop) (d : Opc) : DWord :=
  if u = .cas then (s.src s.iss.gk lane (d + 1)).zeroExtend 64 else 0

/-- An atomic that returns the old value (R148). -/
def State.atomrWord (s : State) (i : Instr) (sp : MemSpec) (d a : Opc) (u : Aop) : State :=
  s.memWord i sp a (isS d) (fun l => .atomic u (s.atomV l u d) (s.atomV2 l u d) true)
    (fun l => (s.atomV l u d).zeroExtend 128) (fun _ => dstOf d (regsOfAop u) 32 false)

def execAtom (c : Bool) (v a : Opc) (k : BitVec 3) (o : Ord) (p : Scp) (u : Aop) (s : State) : Out :=
  .next (s.memWord (.atom c v a k o p u) (atomOrd (atomSpec k u rA) o p) a false
    (fun l => .atomic u (s.atomV l u v) 0 false) (fun l => (s.atomV l u v).zeroExtend 128) (fun _ => .none))
def execAtomr (c : Bool) (d a : Opc) (k : BitVec 3) (l : BitVec 4) (u : Aop) (s : State) : Out :=
  .next (s.atomrWord (.atomr c d a k l u) (atomSpec k u (rA + rR)) d a u)
def execCas (c : Bool) (d a : Opc) (k : BitVec 3) (l : BitVec 4) (s : State) : Out :=
  .next (s.atomrWord (.cas c d a k l) (atomSpec k .cas (rA + rR)) d a .cas)
def execAtomrst (c : Bool) (d a : Opc) (k : BitVec 3) (l : BitVec 4) (s : State) : Out :=
  .next (s.atomrWord (.atomrst c d a k l) (atomSpec k .rst (rA + rR)) d a .rst)
def execAtomrOrdered (c : Bool) (d a : Opc) (k : BitVec 3) (o : Ord) (p : Scp) (u : Aop) (s : State) : Out :=
  .next (s.atomrWord (.atomrOrdered c d a k o p u) (atomOrd (atomSpec k u (rA + rR)) o p) d a u)

/-! ### Fences -/

/-- The event of a fence of a lane: its scope as a release. -/
def State.fenceEv (s : State) (lane : Nat) (kind : EvKind) (sc : Scope) : MemEv :=
  { agent := lkOf s.iss.gk lane, gk := s.iss.gk, lane := lane, kind := kind, loc := .scr (s.group s.iss.gk).tk 0, size := 0
    val := 0, dst := .none, acq := none, rel := some sc, sync := none, nol1 := false, pkt := s.iss.pkt, slot := s.iss.slot
    cap := 0, off := 0, issue := s.next }

def State.fenceWord (s : State) (i : Instr) (kind : EvKind) (sc : Scope) : State :=
  s.laneWord i (fun s => s.each (fun x l => (x.post (s.fenceEv l kind sc)).2.advLane (lkOf s.iss.gk l)))

def execFence (c : Bool) (sc : Scope) (s : State) : Out := .next (s.fenceWord (.fence c sc) .fence sc)
def execOtfence (c : Bool) (sys : Bool) (s : State) : Out :=
  .next (s.fenceWord (.otfence c sys) (.otfence sys) (if sys then .sys else .dev))

end Sys2Proof.Machine
end

