-- ==== Sys2Proof/Machine/Barriers.lean ====
section
/-! DEFINITION. Barriers (R167, R168), gang words (R169, R246-R252) and the serial phase point (R170), MAJ 0x33 and
0x34. -/

namespace Sys2Proof.Machine

/-! ### Barriers -/

def State.bar (s : State) (tk n : Nat) : Barrier := tget {} s.t.bars (barKey tk n)
def State.setBar (s : State) (tk n : Nat) (b : Barrier) : State :=
  { s with t := { s.t with bars := tset {} s.t.bars (barKey tk n) b } }

/-- Where the histories of the arrivals of a generation are kept for its waiters (R168). -/
def barAgent (tk n : Nat) (gen : Word) : Nat := 2 ^ 201 + barKey tk n * 2 ^ 32 + gen.toNat

/-- One arrival, of the agents given: the count rises, and with the expected one the generation advances (R167). -/
def State.arrive (s : State) (tk n : Nat) (agents : List Nat) : State :=
  let b := s.bar tk n
  let s := agents.foldl (fun s a => s.addHist (barAgent tk n b.gen) (s.hist a)) s
  if b.expected = 0 then s
  else if b.arrived + 1 = b.expected then s.setBar tk n { b with arrived := 0, gen := b.gen + 1 }
  else s.setBar tk n { b with arrived := b.arrived + 1 }

/-- The return of an agent from a barrier (R168): an acquire at TEAM scope of the completed generations, and a join of the
array operations that arrived (R209). -/
def State.barReturn (s : State) (tk n : Nat) (a : Nat) : State :=
  let cur := barAgent tk n (s.bar tk n).gen
  let ids := (tslice s.o.hist (barAgent tk n 0) (barAgent tk (n + 1) 0)).flatMap (fun p => if p.1 = cur then [] else p.2)
  let wrote := (tslice s.t.tagWrote (barAgent tk n 0) (barAgent tk (n + 1) 0)).flatMap (fun p => if p.1 = cur then [] else p.2)
  ((s.raiseViews (s.agentCore a) wrote).addHist a ids).acquireView .team a

/-- A lane stands at the barrier it has arrived at. -/
def Lane.arrived (l : Lane) (v : Word) : Lane := { l with token := some v }

/-- BAR for the lanes that come to it: one arrival, then the wait on its token. -/
def State.barArrive (s : State) (n : Nat) (lanes : List Nat) : State :=
  let gk := s.iss.gk
  let tk := (s.group gk).tk
  let b := s.bar tk n
  if lanes.isEmpty then s
  else if b.expected = 0 then s.raiseLanes lanes (.of fcBARRIER_STATE)
  else if !s.allRel .team lanes then s.waitLanes gk lanes (.order (some .team))
  else
    let s := s.arrive tk n (lanes.map (lkOf gk))
    if (s.bar tk n).gen != b.gen then lanes.foldl (fun s l => (s.barReturn tk n (lkOf gk l)).advLane (lkOf gk l)) s
    else (lanes.foldl (fun s l => s.modLane (lkOf gk l) (·.arrived b.gen)) s).waitLanes gk lanes (.bar n b.gen)

/-- BAR for the lanes that wait at it with their token. -/
def State.barLeave (s : State) (n : Nat) (lanes : List Nat) : State :=
  let gk := s.iss.gk
  let tk := (s.group gk).tk
  lanes.foldl (fun s l =>
    let lk := lkOf gk l
    match (s.lane lk).token with
    | some v => if (s.bar tk n).gen != v then (s.barReturn tk n lk).advLane lk else s.waitLanes gk [l] (.bar n v)
    | none => s) s

def State.hasToken (s : State) (l : Nat) : Bool := (s.lane (lkOf s.iss.gk l)).token.isSome

def execBar (c : Bool) (a n : Opc) (s : State) : Out :=
  .next (s.noPair (.bar c a n) (fun s =>
    let old := s.iss.lanes.filter s.hasToken
    let new := s.iss.lanes.filter (fun l => !s.hasToken l)
    (s.barLeave n.toNat old).barArrive n.toNat new))

def execBararr (c : Bool) (d a n : Opc) (s : State) : Out :=
  .next (s.noPair (.bararr c d a n) (fun s =>
    let gk := s.iss.gk
    let tk := (s.group gk).tk
    let b := s.bar tk n.toNat
    if b.expected = 0 then s.raiseAll (.of fcBARRIER_STATE)
    else if !s.allRel .team s.iss.lanes then s.waitAll (.order (some .team))
    else s.deliverWith d (s.iss.lanes.map (fun l => (l, .w b.gen)))
      (fun s => s.arrive tk n.toNat (s.iss.lanes.map (lkOf gk)))))

def execBarwait (c : Bool) (d a n : Opc) (s : State) : Out :=
  .next (s.noPair (.barwait c d a n) (fun s =>
    let gk := s.iss.gk
    let tk := (s.group gk).tk
    s.each (fun x l =>
      let v := s.src gk l a
      if s.acqPending (lkOf gk l) then x.waitLanes gk [l] (.order none)
      else if (s.bar tk n.toNat).gen != v then (x.barReturn tk n.toNat (lkOf gk l)).advLane (lkOf gk l)
      else x.waitLanes gk [l] (.bar n.toNat v))))

def execBarinit (c : Bool) (d a n : Opc) (s : State) : Out :=
  .next (s.noPair (.barinit c d a n) (fun s =>
    let tk := (s.group s.iss.gk).tk
    let v := (s.src s.iss.gk s.low a).toNat
    let b := s.bar tk n.toNat
    if s.acqAny then s.waitAll (.order none)
    else if b.arrived != 0 || v == 0 || v > 65535 then s.raiseAll (.of fcBARRIER_STATE)
    else (s.setBar tk n.toNat { b with expected := v }).advAll))

/-! ### Gangs -/

/-- Where the history of a member's leave is kept for those that acknowledge it (R251). -/
def leaveAgent (tk : Nat) : Nat := 2 ^ 203 + tk
/-- The history that a member's leave releases: that of its GANGLEAVE, or, of a member that left by becoming quiescent, that of
all its agents (R250). -/
def State.leaveHist (s : State) (tk : Nat) : List Nat :=
  if (s.team tk).gst == .resident then s.teamHist tk else s.hist (leaveAgent tk)

/-- GANGLEAVE (R250): a release at GANG scope, whose own write is the change of state. -/
def execGangleave (c : Bool) (d a : Opc) (s : State) : Out :=
  .next (s.noPair (.gangleave c d a) (fun s =>
    let gk := s.iss.gk
    let tk := (s.group gk).tk
    if (s.team tk).kern.gang ≤ 1 then s.deliver d (s.iss.lanes.map (fun l => (l, .w 1)))
    else if s.gangState tk != .resident then s.deliver d (s.iss.lanes.map (fun l => (l, .w 2)))
    else if !s.allRel .gang s.iss.lanes then s.waitAll (.order (some .gang))
    else s.deliverWith d (s.iss.lanes.map (fun l => (l, .w 0))) (fun s =>
      s.each (fun x l => x.addHist (leaveAgent tk) (s.hist (lkOf gk l))) |>.modTeam tk (fun t => { t with gst := .leaving }))))

/-- GANGACK (R251): a release at GANG scope, and an acquire of the leave. -/
def execGangack (c : Bool) (d a : Opc) (s : State) : Out :=
  .next (s.noPair (.gangack c d a) (fun s =>
    let gk := s.iss.gk
    let tk := (s.group gk).tk
    let t := s.team tk
    let m := (s.src gk s.low a).toNat
    let all (v : Word) : List (Nat × LaneRes) := s.iss.lanes.map (fun l => (l, .w v))
    if m ≥ t.kern.gang || m == t.idx % t.kern.gang then s.deliver d (all 2)
    else if t.acks.contains m then s.deliver d (all 0)
    else match s.member tk m with
      | none => s.deliver d (all 2)
      | some x =>
        if s.gangState x != .leaving then s.deliver d (all 1)
        else if !s.allRel .gang s.iss.lanes then s.waitAll (.order (some .gang))
        else s.deliverWith d (all 0) (fun s =>
          (s.each (fun y l => (y.addHist (lkOf gk l) (s.leaveHist x)).acquireView .gang (lkOf gk l))).modTeam tk
            (fun t => { t with acks := t.acks ++ [m] }))))

/-- GSTAT (R169). -/
def State.gstat (s : State) (tk m : Nat) : Word :=
  if m ≥ max 1 (s.team tk).kern.gang then 4
  else match s.member tk m with | some x => BitVec.ofNat 32 (gangNo (s.gangState x)) | none => 4

def execGstat (c : Bool) (d a : Opc) (s : State) : Out :=
  .next (s.laneWord (.gstat c d a) (fun s =>
    let gk := s.iss.gk
    s.deliver d (s.iss.lanes.map (fun l => (l, .w (s.gstat (s.group gk).tk (s.src gk s.low a).toNat))))))

/-! ### The serial phase point -/

/-- DPHASE in a deterministic launch: the group arrives and waits for the serial phase; elsewhere FENCE.dev (R170). -/
def execDphase (c : Bool) (s : State) : Out :=
  .next (s.noPair (.dphase c) (fun s =>
    let gk := s.iss.gk
    if !(s.kern gk).det then s.each (fun x l => (x.post (s.fenceEv l .fence .dev)).2.advLane (lkOf gk l))
    else
      let old := s.iss.lanes.filter s.hasToken
      let new := s.iss.lanes.filter (fun l => !s.hasToken l)
      let s := s.advLanes gk old
      if !s.allRel .team new then s.waitLanes gk new (.order (some .team))
      else (new.foldl (fun s l => s.modLane (lkOf gk l) (·.arrived 0)) s).waitLanes gk new .phase))

end Sys2Proof.Machine
end

