-- ==== Sys2Proof/Machine/FabricWords.lean ====
section
/-! DEFINITION. Arrival counters (R174), MAJ 0x24. -/

namespace Sys2Proof.Machine

/-- The check of an arrival counter through c1: 8 bytes, aligned. -/
def State.counterCheck (s : State) (gk off need : Nat) : Option FaultInfo :=
  s.capCheckAll (s.kern gk).ctx (s.creg gk 1) [tSCR] need off 8

/-- ARRSET stores TARGET, bytes 4 to 7 of the counter. -/
def execArrset (c : Bool) (a b : Opc) (s : State) : Out :=
  .next (s.laneWord (.arrset c a b) (fun s => s.each (fun x l =>
    let gk := s.iss.gk
    let off := (s.src gk l a).toNat
    match s.counterCheck gk off rW with
    | some f => x.raise (lkOf gk l) s.here f
    | none =>
      if s.acqPending (lkOf gk l) then x.waitLanes gk [l] (.order none)
      else (x.access (.arrset c a b)
        { cap := 1, z := 4, acc := .write, allow := [tSCR], need := rW, kind := .store, issue := s.next } l (off + 4) .store
        ((s.src gk l b).zeroExtend 128) .none).2)))

/-- ARRIVED has reached TARGET at a scratch offset of a team. -/
def State.counted (s : State) (tk off : Nat) : Bool := s.scrRead tk off 4 ≥ s.scrRead tk (off + 4) 4

/-- ARRWAIT of a lane: its own accesses to the counter come first; then an acquire at SYSTEM scope. -/
def State.arrwaitLane (s : State) (lane off : Nat) : State :=
  let gk := s.iss.gk
  let tk := (s.group gk).tk
  let lk := lkOf gk lane
  match s.counterCheck gk off rR with
  | some f => s.raise lk s.here f
  | none =>
    let o := Cap.base (s.creg gk 1) + off
    if s.acqPending lk || (s.pendOf lk).any (fun p => p.2.tr.isNone && s.common p.2.loc p.2.size (.scr tk o) 8) then
      s.waitLanes gk [lane] (.order none)
    else if !s.counted tk o then s.waitLanes gk [lane] (.arrive o)
    else (s.acquireView .sys lk).advLane lk

def execArrwait (c : Bool) (a : Opc) (s : State) : Out :=
  .next (s.laneWord (.arrwait c a) (fun s =>
    if !s.nondetOk s.iss.gk then s.raiseAll (.of fcNONDET_OP)
    else (s.markNondet s.iss.gk).each (fun x l => x.arrwaitLane l (s.src s.iss.gk l a).toNat)))

end Sys2Proof.Machine
end

