-- ==== Sys2Proof/Machine/System.lean ====
section
/-! DEFINITION. Traps, breakpoints, events, special registers and fault handling by the handler role (R125-R135), MAJ
0x38 to 0x3A. -/

namespace Sys2Proof.Machine

/-! ### Comparators and breakpoints (R130, R365, Table 23.3) -/

/-- The comparators of a core. -/
def State.comparators (s : State) (core : Nat) : List Nat :=
  (List.range 16).map (fun n => (tget 0 s.w.cmps (core * 16 + n)).toNat)

/-- Breakpoints are enabled for a context on a core: a debugger is attached (log 8). -/
def State.debugged (s : State) (core ctx : Nat) : Bool :=
  (s.comparators core).any (fun c => bitField c 63 1 == 1 && bitField c 55 6 == ctx)

/-- A comparator matches a lane PC (kind 0) or an M-word index (kind 1) of a launch. -/
def State.cmpHit (s : State) (core ctx serial kind pkt slot : Nat) : Bool :=
  (s.comparators core).any (fun c =>
    bitField c 63 1 == 1 && bitField c 62 1 == kind && bitField c 55 6 == ctx &&
    (bitField c 61 1 == 1 || bitField c 32 23 == serial % 2 ^ 23) && bitField c 2 30 == pkt && bitField c 0 2 == slot)

/-- A lane stopped before a chain by a BRK or a match at a PC: it halts, or parks where no debugger is attached. -/
def State.breakLane (s : State) (lk : Nat) (pc : Pc) : State :=
  let gk := gkLane lk
  let g := s.group gk
  if s.debugged g.core (s.kern gk).ctx then
    (s.modLane lk (fun l => { l with st := .halted none, step := false, haltReq := false })).laneTrace lk pc 3 0 0
  else s.park lk pc (.of fcBREAKPOINT)

/-- BRK: NOP for a lane that runs past its breakpoint, else the lane stops. -/
def execBrk (c : Bool) (s : State) : Out :=
  .next (s.laneWord (.brk c) (fun s => s.each (fun x l =>
    if (s.lane (lkOf s.iss.gk l)).past then x.advLane (lkOf s.iss.gk l) else x.breakLane (lkOf s.iss.gk l) s.here)))

/-! ### Traps (R127, R128) -/

def execTrap (c : Bool) (n : Opc) (s : State) : Out :=
  .next (s.laneWord (.trap c n) (fun s => s.raiseAll { code := fcSOFTWARE_TRAP, detail := n.toNat, n := n.toNat }))

def execTrapret (c : Bool) (n : Opc) (s : State) : Out :=
  .next (s.laneWord (.trapret c n) (fun s => s.each (fun x l =>
    let lk := lkOf s.iss.gk l
    if !(s.lane lk).intrap || (s.lane lk).tepc.toNat % 4 == 3 then x.raise lk s.here (.of fcILLEGAL_OPERAND)
    else x.trapReturn lk (n == 1))))

/-! ### Events (R135) -/

/-- Records of the event ring, and whether it has room (R324, Table 18.5). -/
def State.evFull (s : State) : Bool :=
  let n := s.h.evlen.toNat / 128
  n != 0 && (s.h.evprod.toNat % n + n - s.h.evcons.toNat % n) % n == n - 1

/-- The payload of a user event (Table 18.7). -/
def State.userPayload (s : State) (gk lane : Nat) (n : Nat) (v : Word) : Nat :=
  let g := s.group gk
  let t := s.team g.tk
  fld n 0 8 + fld v.toNat 32 32 + fld (launchId t.kern.ctx (s.launchOf t.ln).serial) 64 64 + fld t.idx 128 32 +
    fld g.idx 160 16 + fld lane 176 8 + fld g.core 184 8

/-- EVENT: the arbiter takes it, or the lanes wait; it follows the lanes' fences, and what those release (R135, R138). -/
def execEvent (c : Bool) (a n : Opc) (s : State) : Out :=
  .next (s.laneWord (.event c a n) (fun s =>
    let gk := s.iss.gk
    if s.acqAny then s.waitAll (.order none)
    else if s.evFull then s.waitAll .place
    else (s.sendEvent 5 (s.teamOf gk).ctxWord (s.userPayload gk s.low n.toNat (s.src gk s.low a))).advAll))

/-! ### Special registers (R125, R126, Table 6.3) -/

/-- SAVESZ: the bytes that CTXSAVE writes for a team (log 3). -/
def Kern.saveSize (k : Kern) : Nat := k.scratch + Config.saveOverhead.toNat

/-- The value of a special register for a lane; none where Table 6.3 lists none. -/
def State.special (s : State) (gk lane n : Nat) : Option Word :=
  let l := s.lane (lkOf gk lane)
  let g := s.group gk
  match n with
  | 0 => some l.lanesp
  | 1 => some (BitVec.ofNat 32 (s.stkSize gk))
  | 2 => some l.tvec
  | 3 => some l.tepc
  | 4 => some l.tcause
  | 5 => some (if l.intrap then 1 else 0)
  | 6 => some l.draws
  | 32 => some g.fairctl
  | 33 => some (loW (s.cycles g.core))
  | 34 => some (hiW (s.cycles g.core))
  | 35 => some (BitVec.ofNat 32 g.core)
  | 36 => some (BitVec.ofNat 32 g.part)
  | 37 => some (BitVec.ofNat 32 g.width)
  | 38 => some ((s.kern gk).flags.zeroExtend 32)
  | 39 => some (BitVec.ofNat 32 (s.kern gk).saveSize)
  | n =>
    if 16 ≤ n && n < 32 then
      some (if n % 2 = 0 then loW (s.jmask gk ((n - 16) / 2)) else hiW (s.jmask gk ((n - 16) / 2)))
    else none

/-- A cycle counter, which R126 keeps from a deterministic launch. -/
def isClock (n : Opc) : Bool := n == 33 || n == 34

def execSread (c : Bool) (d n : Opc) (s : State) : Out :=
  .next (s.laneWord (.sread c d n) (fun s =>
    let gk := s.iss.gk
    if (s.special gk s.low n.toNat).isNone then s.raiseAll (.of fcILLEGAL_OPERAND)
    else if isClock n && !s.nondetOk gk then s.raiseAll (.of fcNONDET_OP)
    else s.deliverWith d (s.iss.lanes.map (fun l => (l, .w ((s.special gk l n.toNat).getD 0))))
      (fun s => if isClock n then s.markNondet gk else s)))

/-- FAIRCTL as a write leaves it (Table 6.3). -/
def fairClamp (v : Word) : Word := BitVec.ofNat 32 (max 256 (min 65536 v.toNat))

/-- SWRITE: the lane specials for each lane, FAIRCTL from the lowest; a read-only special ignores the write (R6). -/
def execSwrite (c : Bool) (a n : Opc) (s : State) : Out :=
  .next (s.laneWord (.swrite c a n) (fun s =>
    let gk := s.iss.gk
    let perLane (f : Word → Lane → Lane) : State :=
      s.each (fun x l => x.modLane (lkOf gk l) (f (s.src gk l a)))
    if (s.special gk s.low n.toNat).isNone then s.raiseAll (.of fcILLEGAL_OPERAND)
    else (match n.toNat with
      | 0 => perLane (fun v l => { l with lanesp := v &&& 0xFFFFFFFC })
      | 2 => perLane (fun v l => { l with tvec := v })
      | 3 => perLane (fun v l => { l with tepc := v })
      | 32 => s.modGroup gk (fun g => { g with fairctl := fairClamp (s.src gk s.low a) })
      | _ => s).advAll))

/-! ### The handler role (R132-R134) -/

/-- What a word of the handler role comes to: its status and effect, a fault on the word, or a wait. -/
inductive HRes where
  | done (v : Word) (f : State → State)
  | fault (f : FaultInfo)
  | wait (w : Wait)

/-- A word of the handler role: its status goes to every executing lane (R132). -/
def State.handlerWord (s : State) (i : Instr) (d : Opc) (f : State → HRes) : State :=
  s.laneWord i (fun s =>
    let g := s.group s.iss.gk
    if g.pair || (s.kern s.iss.gk).handler != some g.role then s.raiseAll (.of fcNOT_HANDLER)
    else match f s with
      | .done v eff => s.deliverWith d (s.iss.lanes.map (fun l => (l, .w v))) eff
      | .fault e => s.raiseAll e
      | .wait w => s.waitAll w)

/-- The 64 bytes of a record stored by the lowest-numbered executing lane, 16 at a time (R138). -/
def State.storeRecord (s : State) (l : Loc) (c : Cap) (off : Nat) (r : BitVec 512) : State :=
  let issue := s.next
  (List.range 4).foldl (fun s i => (s.post
    { agent := lkOf s.iss.gk s.low, gk := s.iss.gk, lane := s.low, kind := .store, loc := l.shift (16 * i), size := 16
      val := BitVec.ofNat 128 (r.toNat / 2 ^ (128 * i)), dst := .none, acq := none, rel := none, sync := none, nol1 := false
      pkt := s.iss.pkt, slot := s.iss.slot, cap := c, off := off + 16 * i, issue := issue }).2) s

/-- FAULTREC (R133): the checks of its access come before the look at the queue (log 53). -/
def State.faultrecRes (s : State) (off : Nat) : HRes :=
  let gk := s.iss.gk
  let c := s.creg gk 1
  match s.capSteps13 (s.kern gk).ctx c [tSCR] rW with
  | some e => .fault (capFault e c off)
  | none =>
    if !capBounds c off 64 then .fault (capFault fcCAP_BOUNDS c off)
    else if off % 64 != 0 then .fault (capFault fcMISALIGNED c off)
    else if s.acqPending (lkOf gk s.low) then .wait (.order none)
    else match (s.resolve (s.group gk).tk (s.group gk).core c off 64 .write false false).1, (s.teamOf gk).fq with
      | .fault f, _ => .fault f
      | .wait .., _ => .wait .place
      | .ok _, [] => .done 0 id
      | .ok l, r :: rs =>
        .done (BitVec.ofNat 32 (1 + 65536 * min 65535 rs.length)) (fun s =>
          (s.modTeam (s.group gk).tk (fun t => { t with fq := rs })).storeRecord l c off r)

def execFaultrec (c : Bool) (d a : Opc) (s : State) : Out :=
  .next (s.handlerWord (.faultrec c d a) d (fun s => s.faultrecRes (s.src s.iss.gk s.low a).toNat))

/-- A lane goes on at the word after a position, or where R50 continues it; a wait of a REJOIN or WAITC that it stood in goes
on. -/
def Lane.skipWord (l : Lane) : Lane :=
  match l.after with
  | some w => { l.advance with st := .waiting w, after := none }
  | none => { l.advance with st := .ready }

/-- LRESUME (R134) of an agent of a team. -/
def State.lresume (s : State) (tk fid : Nat) (p : Parked) (skip : Bool) : State :=
  let s := s.dropFid tk fid
  match p.lane with
  | some lk => (s.modLane lk (fun l => if skip then l.skipWord else { l with st := .ready, since := 0 })).rejoinBack lk
  | none => s.modTeam tk (fun t => { t with seq := { t.seq with
      st := .running, idx := if skip then t.seq.idx + 1 else t.seq.idx } })

/-- LKILL (R134); a sequencer stops as at MEXIT, once its operations have finished (R206, R207). -/
def State.lkill (s : State) (tk fid : Nat) (p : Parked) : State :=
  let s := s.dropFid tk fid
  match p.lane with
  | some lk => s.endLane lk
  | none => s.modTeam tk (fun t => { t with seq := { t.seq with st := .running, kill := true, waiting := false, miss := none } })

/-- The status of LRESUME and LKILL, with the effect of 0. -/
def State.byFid (s : State) (fid : Nat) (f : State → Nat → Parked → State) : HRes :=
  let tk := (s.group s.iss.gk).tk
  match tget none (s.team tk).parked fid with
  | none => .done 1 id
  | some p => if p.pair then .done 2 id else .done 0 (fun s => f s tk p)

def execLresume (c : Bool) (d a n : Opc) (s : State) : Out :=
  .next (s.handlerWord (.lresume c d a n) d (fun s =>
    let fid := (s.src s.iss.gk s.low a).toNat
    s.byFid fid (fun s tk p => s.lresume tk fid p (n == 1))))
def execLkill (c : Bool) (d a : Opc) (s : State) : Out :=
  .next (s.handlerWord (.lkill c d a) d (fun s =>
    let fid := (s.src s.iss.gk s.low a).toNat
    s.byFid fid (fun s tk p => s.lkill tk fid p)))

end Sys2Proof.Machine
end

