-- ==== Sys2Proof/Machine/Tags.lean ====
section
/-! DEFINITION. Tag and queue words (R164-R166), MAJ 0x21, each run once per issue. -/

namespace Sys2Proof.Machine

def Tag.isDone : Tag → Bool | .done _ => true | _ => false
def Tag.isHeld : Tag → Bool | .held => true | _ => false
def Tag.status : Tag → Nat | .done n => n | _ => 0

/-- The tags of a mask that meet a condition, ascending. -/
def State.maskTags (s : State) (gk : Nat) (m : DWord) (p : Tag → Bool) : List Nat :=
  (List.range 64).filter (fun t => m.getLsbD t && p (s.tagOf gk t))

/-- Every executing lane joins the threads of the tags observed Done (R165). -/
def State.joinTags (s : State) (ts : List Nat) : State :=
  s.each (fun x l => ts.foldl (fun x t => x.joinTag s.iss.gk l t) x)

/-- One value for every executing lane, with a join of tags. -/
def State.tell (s : State) (d : Opc) (v : Word) (ts : List Nat) : State :=
  s.deliverWith d (s.iss.lanes.map (fun l => (l, .w v))) (fun s => s.joinTags ts)

/-- A tag's index with its status, as TWAIT.any and TFIRST report it (Table 7.10). -/
def State.tagReport (s : State) (gk t : Nat) : Word := BitVec.ofNat 32 (t + 256 * (s.tagOf gk t).status)

/-- TWAIT.any; in a deterministic launch it waits for the lowest Held or Done tag (R166). -/
def State.twaitAny (s : State) (d : Opc) (m : DWord) : State :=
  let gk := s.iss.gk
  let done := s.maskTags gk m Tag.isDone
  let used := s.maskTags gk m (fun t => t.isDone || t.isHeld)
  match used, done with
  | [], _ => s.tell d 64 []
  | u :: _, t :: _ =>
    if (s.kern gk).det && u != t then s.waitAll (.tags true (1 <<< u)) else s.tell d (s.tagReport gk t) [t]
  | u :: _, [] => s.waitAll (.tags true (if (s.kern gk).det then 1 <<< u else m))

/-- TWAIT.all. -/
def State.twaitAll (s : State) (d : Opc) (m : DWord) : State :=
  let gk := s.iss.gk
  let done := s.maskTags gk m Tag.isDone
  if !(s.maskTags gk m Tag.isHeld).isEmpty then s.waitAll (.tags false m)
  else match done.find? (fun t => (s.tagOf gk t).status != 0) with
    | some t => s.tell d (s.tagReport gk t) done
    | none => s.tell d 64 done

def execTwait (c : Bool) (d a : Opc) (w : Bool) (s : State) : Out :=
  .next (s.laneWord (.twait c d a w) (fun s =>
    let m := s.src64 s.iss.gk s.low a
    if w then s.twaitAll d m else s.twaitAny d m))

/-- A word that reads what timing decides: refused or marked in a deterministic launch (R166). -/
def State.timed (s : State) (i : Instr) (body : State → State) : State :=
  s.laneWord i (fun s =>
    if !s.nondetOk s.iss.gk then s.raiseAll (.of fcNONDET_OP) else body (s.markNondet s.iss.gk))

def execTfirst (c : Bool) (d a : Opc) (s : State) : Out :=
  .next (s.timed (.tfirst c d a) (fun s =>
    let gk := s.iss.gk
    match s.maskTags gk (s.src64 gk s.low a) Tag.isDone with
    | t :: _ => s.tell d (s.tagReport gk t) [t]
    | [] => s.tell d 64 []))

def execTtest (c : Bool) (d a : Opc) (s : State) : Out :=
  .next (s.timed (.ttest c d a) (fun s =>
    let gk := s.iss.gk
    let ts := s.maskTags gk (s.src64 gk s.low a) Tag.isDone
    s.deliverWith d (s.iss.lanes.map (fun l => (l, .d (maskOf ts)))) (fun s => s.joinTags ts)))

/-- TCLR: Done tags of the mask become Free, and their pair reports go (R242). -/
def execTclr (c : Bool) (a : Opc) (s : State) : Out :=
  .next (s.laneWord (.tclr c a) (fun s =>
    let gk := s.iss.gk
    ((s.maskTags gk (s.src64 gk s.low a) Tag.isDone).foldl (fun s t => (s.setTag gk t .free).setPairDone gk t 0) s).advAll))

/-- The landing-buffer entries of a tag that target a group. -/
def State.landingOf (s : State) (gk t : Nat) : List Landing :=
  s.t.landing.filter (fun e => e.core == (s.group gk).core && e.gk == gk && e.tag == t)

/-- A register with the bytes of an entry. -/
def Landing.put (e : Landing) (old : Word) : Word :=
  if e.mask = 15 then e.val
  else (List.range 4).foldl (fun w i =>
    if e.mask.getLsbD i then BitVec.ofNat 32 (blockPut w.toNat i 1 (blockGet e.val.toNat i 1)) else w) old

/-- Entries applied in landing order, and freed. -/
def State.applyLanding (s : State) (gk t : Nat) : State :=
  let es := s.landingOf gk t
  let s := { s with t := { s.t with landing := s.t.landing.filter (fun e => !es.contains e) } }
  es.foldl (fun s e => { s with g := { s.g with vreg := tset 0 s.g.vreg e.key (e.put (tget 0 s.g.vreg e.key)) } }) s

/-- An effect of a word, then one value written to every executing lane; a push that faults or waits comes first. -/
def State.deliverLate (s : State) (d : Opc) (v : Word) (f : State → State) : State :=
  if isQ d then s.deliverWith d (s.iss.lanes.map (fun l => (l, .w v))) f else ((f s).writeAll d v).advAll

/-- COMMIT: the entries are applied, then D is written, so that D wins where both name a register. -/
def execCommit (c : Bool) (d a : Opc) (s : State) : Out :=
  .next (s.laneWord (.commit c d a) (fun s =>
    let gk := s.iss.gk
    let t := (s.src gk s.low a).toNat
    if t ≥ (s.kern gk).tagb then s.raiseAll (.of fcILLEGAL_OPERAND)
    else if !(s.tagOf gk t).isDone then s.waitAll (.tags true (1 <<< t))
    else
      let v := BitVec.ofNat 32 (s.landingOf gk t).length
      s.deliverLate d v (fun s => (s.applyLanding gk t).joinTags [t])))

/-- QSTAT (Table 7.10, R183, R208). -/
def State.qstat (s : State) (gk : Nat) (q : Opc) : Word :=
  let g := s.group gk
  let part := 256 * (g.queue q.toNat).length
  BitVec.ofNat 32 (match q.toNat with
    | 113 => g.q1.length
    | 114 => (2 - s.q2Held gk) + part + 65536 * (4 - s.martenUsed g.core)
    | 115 => (4 - s.q3Held gk) + part + 65536 * (32 - s.fifoUsed g.core)
    | _ => 4 + part)

def execQstat (c : Bool) (d a : Opc) (s : State) : Out :=
  .next (s.timed (.qstat c d a) (fun s => s.tell d (s.qstat s.iss.gk a) []))

end Sys2Proof.Machine
end

