-- ==== Sys2Proof/Machine/Former.lean ====
section
/-! DEFINITION. The issue former of a partition (R218-R221, R277, R293), the checks of R62 on the chain it issues, the
frame of each word of a chain, and the clock: waits that end, counts that rise, lane cycles (R368, R369). -/

namespace Sys2Proof.Machine

/-! ### PCs as numbers, and code (R44, R45) -/

def Pc.key (p : Pc) : Nat := p.pkt * 4 + p.slot
def pcOf (k : Nat) : Pc := { pkt := k / 4, slot := k % 4 }

/-- Device memory as it stood at a stamp: of each byte the oldest version that a later store has replaced. -/
def State.devReadAt (s : State) (view addr : Nat) : Nat → Nat
  | 0 => 0
  | n + 1 =>
    let b := match (tget [] s.o.old (granule addr)).find? (fun v => v.stamp ≥ view) with
      | some v => granSlice v.val addr 1
      | none => s.devRead addr 1
    b + 256 * State.devReadAt s view (addr + 1) n

/-- A word of a kernel's code object, as the group's fetches see it (R131). -/
def State.codeWord (s : State) (gk : Nat) (p : Pc) : Except TRes Word × State :=
  let k := s.kern gk
  let core := (s.group gk).core
  let view := (s.group gk).codeView
  let (r, s) := s.translate core k.ctx k.kobj (k.koff + k.codeoff + 12 * p.pkt + 4 * p.slot) .read
  match r with
  | .ok (.dev a pol nc) _ _ =>
    if nc || s.o.stamp ≤ view then let (v, s) := s.readNow core (.dev a pol nc) 4; (.ok (BitVec.ofNat 32 v), s)
    else (.ok (BitVec.ofNat 32 (s.devReadAt view a 4)), s)
  | .ok l _ _ => let (v, s) := s.readNow core l 4; (.ok (BitVec.ofNat 32 v), s)
  | r => (.error r, s)

/-- The stamp that a group's fetches have reached: a lane has acquired it at DEVICE scope and taken a transfer since (R131). -/
def State.codeFloor (s : State) (gk : Nat) : Nat := (s.lanesOf gk).foldl (fun m l => max m (s.lane (lkOf gk l)).codeFloor) 0

/-- What a group's fetches see on a clock: memory as it stands, or, where stores have come since its floor, memory as it
stood at some stamp not below it (R131, log 37). -/
def State.freshView (s : State) (gk : Nat) : State :=
  let lo := s.codeFloor gk
  if s.o.old.all (fun p => p.2.all (fun v => v.stamp < lo)) then s.modGroup gk (fun g => { g with codeView := s.o.stamp })
  else
    let (v, s) := s.draw
    s.modGroup gk (fun g => { g with codeView := lo + v.toNat % (s.o.stamp - lo + 1) })

/-- A word read at a PC: its instruction with the pipe of its opcode and its chain bit, or check 1 of R62. -/
inductive WordRes where
  | ok (i : Instr) (pipe : Pipe) (maj : Nat) (chained : Bool)
  | bad (f : FaultInfo)
  | miss (r : TRes)

/-- The tag that a fault on an engine word carries (Table 22.1). -/
def engineTag (w : Word) : Option Nat :=
  let f := fieldsOf w.toNat
  if (f.maj = 0x20 && f.min6 ≤ 6) || (f.maj = 0x23 && f.min6 ≤ 2) then some f.tag.toNat else none

/-- The format rules of one word: MOVL stands in no slot 2 (R56); with C = 1 it breaks the chain rule (R46). -/
def wordRes (slot : Nat) (w lit : Word) : WordRes :=
  let f := fieldsOf w.toNat
  if f.maj = 0x3E then
    if slot = 2 then .bad (.of fcILLEGAL_ENCODING)
    else match decodeLane (w &&& 0x7FFFFFFF) lit with
      | .ok i => .ok i .v f.maj f.c
      | .error _ => .bad (.of fcILLEGAL_ENCODING)
  else match decodeLane w lit with
    | .ok i => .ok i (pipeOf f.maj f.min) f.maj f.c
    | .error _ => .bad { code := fcILLEGAL_ENCODING, tag := engineTag w }

def State.readWord (s : State) (gk : Nat) (p : Pc) : WordRes × State :=
  match s.codeWord gk p with
  | (.error e, s) => (.miss e, s)
  | (.ok w, s) =>
    if (fieldsOf w.toNat).maj = 0x3E && p.slot < 2 then
      match s.codeWord gk p.next with
      | (.error e, s) => (.miss e, s)
      | (.ok lit, s) => (wordRes p.slot w lit, s)
    else (wordRes p.slot w 0, s)

/-- The chain at a PC (R46): its words, or the fault of checks 1 and 3 with the slot it falls on, or a miss. -/
inductive ChainRes where
  | ok (ws : List CWord) (majs : List Nat)
  | bad (slot : Nat) (f : FaultInfo)
  | miss (r : TRes)

/-- Check 3 of R62 and check 2 before it, on the words of a chain from a slot. -/
def chainChecks (budget width slot : Nat) (ws : List CWord) (majs : List Nat) (broken : Bool) (tag0 : Option Nat) : ChainRes :=
  match (List.range ws.length).find? (fun n => match ws[n]? with | some w => !operandsOk budget w.i | none => false) with
  | some n =>
    let tag := match ws[n]? with | some w => engineTagOf w.i | none => none
    .bad (slot + n) { code := fcILLEGAL_OPERAND, tag := tag }
  | none => if broken || !chainOk width ws then .bad slot { code := fcILLEGAL_ENCODING, tag := tag0 } else .ok ws majs
where
  /-- The tag that an engine word names (Table 7.8). -/
  engineTagOf : Instr → Option Nat
    | .copy _ t _ _ _ | .copy2d _ t _ _ _ | .chain _ t _ _ _ | .gather _ t _ _ | .scatter _ t _ _ | .scatadd _ t _ _ _
    | .fbulk _ t _ _ _ | .frlease _ t _ _ _ | .fred _ t _ _ => some t.toNat
    | _ => none

/-- The words from a PC while C = 1 and the packet has more; `broken` holds for C = 1 in slot 2 or on a MOVL. -/
def State.chainGo (s : State) (gk : Nat) (p : Pc) (acc : List CWord) (majs : List Nat) (start : Nat) :
    Nat → (ChainRes ⊕ (List CWord × List Nat × Bool)) × State
  | 0 => (.inr (acc, majs, true), s)
  | fuel + 1 =>
    match s.readWord gk p with
    | (.bad f, s) => (.inl (.bad p.slot f), s)
    | (.miss e, s) => (.inl (.miss e), s)
    | (.ok i pipe maj c, s) =>
      let acc := acc ++ [{ i := i, pipe := pipe }]
      let majs := majs ++ [maj]
      if !c then (.inr (acc, majs, false), s)
      else if maj = 0x3E || p.slot ≥ 2 then (.inr (acc, majs, true), s)
      else State.chainGo s gk p.next acc majs start fuel

/-- Words a side of the launch that a pair group runs (R184); 1 elsewhere. -/
def State.pairWidth (s : State) (gk : Nat) : Nat :=
  if !(s.group gk).pair then 1
  else ((s.lanesOf gk).findSome? (fun l => (s.thread (s.lane (lkOf gk l)).pair.th).map (fun x => prW x.pair.record.toNat))).getD 1

/-- The chain at a PC of a group: checks 1 to 3 of R62. -/
def State.chainAt (s : State) (gk : Nat) (p : Pc) : ChainRes × State :=
  let k := s.kern gk
  if p.pkt ≥ k.codelen / 12 then (.bad p.slot (.of fcFETCH_FAULT), s)
  else match s.chainGo gk p [] [] p.slot 3 with
    | (.inl r, s) => (r, s)
    | (.inr (ws, majs, broken), s) =>
      let tag0 := match ws with | w :: _ => chainChecks.engineTagOf w.i | [] => none
      (chainChecks (s.group gk).regs (s.pairWidth gk) p.slot ws majs broken tag0, s)

/-! ### Waits that end (R218, R222) -/

/-- The event that a lane's wait is for has come. -/
def State.waitOver (s : State) (gk l : Nat) (w : Wait) : Bool :=
  let lk := lkOf gk l
  let tk := (s.group gk).tk
  match w with
  | .bar n gen => (s.bar tk n).gen != gen
  | .tags any mask =>
    let held := s.maskTags gk mask Tag.isHeld
    if any then held.isEmpty || !(s.maskTags gk mask Tag.isDone).isEmpty else held.isEmpty
  | .launch ln => match tget none s.l.launches ln with | some x => x.isComplete | none => true
  | .arrive off => s.counted tk off
  | .q1 => !(s.group gk).q1.isEmpty
  | .place => true
  | .order none => !s.acqPending lk
  | .order (some sc) => (s.lanesOf gk).all (fun m =>
      let x := s.lane (lkOf gk m)
      x.st != .waiting w || x.pc != (s.lane lk).pc || s.relReady sc (lkOf gk m))
  | .merge ctx obj page _ _ => !s.merging gk ctx obj page
  | .rejoin _ | .clocks _ | .phase | .ret | .answers _ _ _ _ => false

/-- A wait that is over leaves the lane ready to run its word again. -/
def Lane.wake (l : Lane) : Lane := { l with st := .ready, since := 0 }

/-- WAITC's count has run out (R122). -/
def State.waitcDone (s : State) (gk l : Nat) : State :=
  s.modLane (lkOf gk l) (fun x =>
    if x.st == .waiting (.clocks 0) then x.wake else if x.after == some (.clocks 0) then { x with after := none } else x)

/-- The lanes of a group whose wait is over, seen at one moment, wake. -/
def State.wakeGroup (s : State) (gk : Nat) : State :=
  let past := (s.lanesOf gk).filter (fun l => match (s.lane (lkOf gk l)).st with
    | .waiting w => s.waitOver gk l w | _ => false)
  let s := past.foldl (fun s l => s.modLane (lkOf gk l) Lane.wake) s
  (s.lanesOf gk).foldl (fun s l => s.waitcDone gk l) s

/-! ### Ready lanes (R111, R218) -/

/-- The groups of a partition of a core, oldest first (R219). -/
def State.partGroups (s : State) (core part : Nat) : List Nat :=
  let gs := (s.groupsOn core).filter (fun p => p.2.part == part)
  let rank (g : Group) : Nat := (g.born * 2 ^ 24 + g.idx) * 2 ^ 64 + g.tk
  (gs.foldl (fun t p => tins (rank p.2) p.1 t) ([] : Tbl Nat)).map (·.2)

/-- The context of a SOLO grant that holds other contexts' groups back on a core (R361, R362). -/
def State.soloCtx (s : State) (core : Nat) : Option Nat :=
  let g := (s.owl (dieOf core)).grant.toNat
  let ctx := bitField g 8 6
  if bitField g 1 1 = 1 && (s.teamsOn core).any (fun p => p.2.kern.ctx == ctx) then some ctx else none

/-- A group's lanes may issue as far as its team and its core go. While a CTXSAVE or CTXLOAD of a group waits for the team's
tags, its pair groups run on (R136). -/
def State.mayIssue (s : State) (gk : Nat) : Bool :=
  let g := s.group gk
  let t := s.team g.tk
  t.live && !t.saved && (!t.stopping || t.saving.isSome) && (match t.saving with | some x => x == gk || g.pair | none => true) &&
  (match s.soloCtx g.core with | some c => c == t.kern.ctx | none => true)

/-- Words that wait for every live lane of the group: cross-lane words (R111), and the words that stand for all the
lanes that come to them (R167, and DPHASE in a deterministic launch, R170). -/
def converges (det : Bool) : Instr → Bool
  | .shfl .. | .lred .. | .lscan .. | .vote .. | .voteBallot .. | .matcheq .. | .bppack .. | .bpunpack .. => true
  | .bar .. | .bararr .. => true
  | .dphase .. => det
  | _ => false

/-- No pending result holds the next n words of a lane back (R48). The word of R50 runs again inside its own window. -/
def Lane.clear (l : Lane) (n : Nat) : Bool :=
  l.windows.all (fun w => w.ev == 0 || n ≤ w.left || (l.resume.isSome && w.pkt == l.pkt && w.slot == l.slot))

/-- The words of the chain at a PC and whether it converges; a chain that cannot issue counts as one word. -/
def State.chainShape (s : State) (gk : Nat) (p : Pc) : Nat × Bool :=
  match (s.chainAt gk p).1 with
  | .ok ws _ => (ws.length, ws.any (fun w => converges (s.kern gk).det w.i))
  | _ => (1, false)

/-- Lanes that stand ready or not ready. -/
def State.standing (s : State) (gk : Nat) : List Nat :=
  (s.lanesOf gk).filter (fun l => (s.lane (lkOf gk l)).st == .ready && !s.haltWaits (lkOf gk l))

def State.pcKey (s : State) (gk l : Nat) : Nat := (s.lane (lkOf gk l)).pc.key

/-- A number put into an ascending list without repeats. -/
def insNat (n : Nat) : List Nat → List Nat
  | [] => [n]
  | x :: xs => if n < x then n :: x :: xs else if n = x then x :: xs else x :: insNat n xs

/-- The PCs at which a group has ready lanes (R111, R218), ascending, each with those lanes: lanes with a token or that
run a word again issue by themselves. -/
def State.readyAt (s : State) (gk : Nat) : List (Nat × List Nat) :=
  if !s.mayIssue gk then []
  else
    let ls := s.standing gk
    let pcs := ls.foldl (fun ps l => insNat (s.pcKey gk l) ps) []
    let shapes := pcs.map (fun k => (k, s.chainShape gk (pcOf k)))
    let at_ (k : Nat) : List Nat := ls.filter (fun l => s.pcKey gk l == k)
    let lane (l : Nat) : Lane := s.lane (lkOf gk l)
    let alone (k : Nat) : List Nat := (at_ k).filter (fun l => (lane l).token.isSome || (lane l).took.isSome || ((lane l).resume.isSome && (lane l).clear 1))
    let solo := (shapes.filter (fun p => !(alone p.1).isEmpty)).map (fun p => (p.1, alone p.1))
    let plain := (shapes.filter (fun p => !p.2.2 && (alone p.1).isEmpty)).map (fun p =>
      (p.1, (at_ p.1).filter (fun l => (lane l).resume.isNone && (lane l).clear p.2.1)))
    let conv := shapes.filter (fun p => p.2.2 && (alone p.1).isEmpty)
    let join := if !(solo.isEmpty && plain.isEmpty) then [] else match conv with
      | p :: _ => if (at_ p.1).all (fun l => (lane l).clear p.2.1) then [(p.1, at_ p.1)] else []
      | [] => []
    (solo ++ plain ++ join).filter (fun p => !p.2.isEmpty)

def State.readyGroup (s : State) (gk : Nat) : Bool := !(s.readyAt gk).isEmpty

/-! ### The deterministic order (R293) -/

def State.isDet (s : State) (gk : Nat) : Bool := (s.kern gk).det
def State.current (s : State) (core : Nat) : Option Nat := match tget 0 s.l.current core with | 0 => none | n + 1 => some n
def State.setCurrent (s : State) (core : Nat) (gk : Option Nat) : State :=
  { s with l := { s.l with current := tset 0 s.l.current core (match gk with | some g => g + 1 | none => 0) } }

/-- A group's engine threads in flight. A pair launch is none that a switch waits for: its pair groups issue after the switch
(R293, log 55). -/
def State.groupThreads (s : State) (gk : Nat) : Bool :=
  s.e.threads.any (fun p => match p.2 with | some x => x.gk == gk && x.kind != .pair | none => false) ||
  s.e.fifo.any (fun p => match p.2 with | some x => x.gk == gk && !x.finished | none => false)

/-- No lane of a group is ready or waiting. -/
def State.noneLive (s : State) (gk : Nat) : Bool := (s.lanesOf gk).all (fun l => !liveLane (s.lane (lkOf gk l)))

/-- The rank of a group among the deterministic groups of its core: the logical index, a team's pair groups after its ordinary
groups in start order (R293). Launches whose indices meet go by age. -/
def State.detRank (s : State) (gk : Nat) : Nat :=
  let g := s.group gk
  let t := s.team g.tk
  let n := t.ngroups
  let at_ : Nat × Nat := if g.pair then (t.idx * n + (n - 1), 1 + (g.idx - 1024)) else (t.idx * n + g.idx, 0)
  (at_.1 * 2 ^ 32 + at_.2) * 2 ^ 64 + t.ln

/-- A deterministic group issues only as the current group of its core. -/
def State.eligibleGroup (s : State) (gk : Nat) : Bool :=
  let g := s.group gk
  !s.isDet gk || (s.current g.core == some gk && !g.switched)

/-! ### The active set (R221) -/

def State.activeOf (s : State) (core part : Nat) : List Nat := (s.partGroups core part).filter (fun gk => (s.group gk).active)

/-- The member that has gone longest without leading, the younger on a tie. -/
def State.stalest (s : State) : List Nat → Option Nat
  | [] => none
  | g :: gs => match State.stalest s gs with
    | none => some g
    | some h => if (s.group g).lead > (s.group h).lead then some g else some h

/-- A group enters the set; a full set gives up its stalest member. -/
def State.enterActive (s : State) (core part gk : Nat) : State :=
  let act := s.activeOf core part
  let s := if act.length < 8 then s else match s.stalest act with
    | some h => s.modGroup h (fun g => { g with active := false })
    | none => s
  s.modGroup gk (fun g => { g with active := true, outClk := 0, idleClk := 0 })

/-- The current group of a core keeps it: it has reached no switch point, or its threads are still in flight (R293). -/
def State.keepsCurrent (s : State) (core : Nat) : Bool :=
  match s.current core with
  | some gk => (s.team (s.group gk).tk).live && (s.groupThreads gk || (!(s.group gk).switched && !s.noneLive gk))
  | none => false

/-- The current group kept, or the ready group of the lowest rank, which enters the active set of its partition (R221). -/
def State.pickCurrent (s : State) (core : Nat) : State :=
  if s.keepsCurrent core then s
  else
    let gs := ((s.groupsOn core).filter (fun p => s.isDet p.1 && s.readyGroup p.1)).map (·.1)
    let order := gs.foldl (fun t gk => tins (s.detRank gk) gk t) ([] : Tbl Nat)
    match order with
    | (_, gk) :: _ =>
      let s := (s.setCurrent core (some gk)).modGroup gk (fun g => { g with switched := false })
      if (s.group gk).active then s else s.enterActive core (s.group gk).part gk
    | [] => s.setCurrent core none

/-- ACTIVE_SET_IDLE_LEAVE: 16 clocks without a ready lane. -/
def State.idleLeave (s : State) (gk : Nat) : State :=
  let g := s.group gk
  if g.active && g.idleClk ≥ 16 then s.modGroup gk (fun g => { g with active := false }) else s

/-- ACTIVE_SET_REPLACE: ready for 2,048 clocks outside a full set. -/
def State.replaceActive (s : State) (gk : Nat) : State :=
  let g := s.group gk
  if !g.active && g.outClk ≥ 2048 && (s.activeOf g.core g.part).length ≥ 8 && s.readyGroup gk then s.enterActive g.core g.part gk
  else s

/-- The changes of membership at the start of a clock. -/
def State.updateActive (s : State) (core part : Nat) : State :=
  let s := (s.partGroups core part).foldl State.idleLeave s
  let out := (s.partGroups core part).filter (fun gk => !(s.group gk).active && s.groupLive gk)
  let s := if (s.activeOf core part).length ≥ 8 then s else match out.find? s.readyGroup with
    | some gk => s.enterActive core part gk
    | none => s
  out.foldl State.replaceActive s

/-! ### Fairness (R124, R277) -/

def Kern.progress (k : Kern) : Bool := k.flags.getLsbD 0

/-- FAIRNESS_TIMER_EXPIRY: a PC whose count has reached FAIRCTL is forced. -/
def State.forcePc (s : State) (gk k : Nat) : State :=
  let g := s.group gk
  let due := g.fair.any (fun f => f.pc == pcOf k && f.clocks ≥ g.fairctl.toNat)
  if due && (s.kern gk).progress && !g.forced.contains (pcOf k) then
    s.modGroup gk (fun g => { g with forced := g.forced ++ [pcOf k] })
  else s

def State.forceAll (s : State) (gk : Nat) : State :=
  (s.group gk).fair.foldl (fun s f => s.forcePc gk f.pc.key) s

/-- The counts of a group after a clock on which it issued at a PC, or at none. -/
def State.countFair (s : State) (gk : Nat) (at_ : Option Nat) : State :=
  match at_ with
  | none => s
  | some k =>
    let others := ((s.readyAt gk).map (·.1)).filter (· != k)
    s.modGroup gk (fun g =>
      let old (q : Nat) : Nat := match g.fair.find? (fun f => f.pc == pcOf q) with | some f => f.clocks | none => 0
      let kept := g.fair.filter (fun f => f.pc != pcOf k && !others.contains f.pc.key)
      { g with
        fair := kept ++ (if (s.kern gk).progress then others.map (fun q => { pc := pcOf q, clocks := old q + 1 }) else
          g.fair.filter (fun f => others.contains f.pc.key))
        forced := g.forced.filter (· != pcOf k) })

/-! ### The choice of an issue (R219) -/

/-- How long the lanes of a PC have waited: the longest of them. -/
def State.waited (s : State) (gk : Nat) (ls : List Nat) : Nat := ls.foldl (fun m l => max m (s.lane (lkOf gk l)).since) 0

/-- The PC of a list that has waited longest, the lowest on a tie. -/
def State.longest (s : State) (gk : Nat) : List (Nat × List Nat) → Option Nat
  | [] => none
  | p :: ps => match State.longest s gk ps with
    | none => some p.1
    | some k =>
      let ls := match ps.find? (fun q => q.1 == k) with | some q => q.2 | none => []
      if s.waited gk p.2 ≥ s.waited gk ls then some p.1 else some k

/-- The lead PC in steps 2 to 4; the previous issue is the partition's. -/
def State.leadPc (s : State) (gk : Nat) : Option Nat :=
  let g := s.group gk
  let prev := tget 0 s.w.lastPc (g.core * 4 + g.part)
  let pcs := (s.readyAt gk).foldr (fun p t => tins p.1 p.2 t) ([] : Tbl (List Nat))
  let others := match g.yielded with | some y => pcs.filter (fun p => p.1 != y.key) | none => []
  if !others.isEmpty then s.longest gk others
  else match pcs.find? (fun q => q.1 + 1 == prev) with
    | some q => some q.1
    | none => s.longest gk pcs

/-- The forced PC of a group that has ready lanes, the one forced first. -/
def State.forcedPc (s : State) (gk : Nat) : Option Nat :=
  ((s.group gk).forced.find? (fun p => (s.readyAt gk).any (fun q => q.1 == p.key))).map Pc.key

/-- The lead group and PC of a clock; none when no group is ready. -/
def State.choose (s : State) (core part : Nat) : Option (Nat × Nat) :=
  let gs := (s.activeOf core part).filter (fun gk => s.eligibleGroup gk && s.readyGroup gk)
  match gs.find? (fun gk => (s.forcedPc gk).isSome) with
  | some gk => (s.forcedPc gk).map (gk, ·)
  | none =>
    let prev := tget 0 s.w.lead (core * 4 + part)
    let lead := match gs.find? (fun gk => (s.group gk).waitClk ≥ 4096) with
      | some gk => some gk
      | none => match gs.find? (fun gk => gk + 1 == prev) with | some gk => some gk | none => gs.head?
    lead.bind (fun gk => (s.leadPc gk).map (gk, ·))

/-! ### Lane cycles (R368, R369) -/

def lccKey (core b k : Nat) : Nat := core * 64 + 5 * b + k
def State.addLcc (s : State) (core b k n : Nat) : State :=
  { s with w := { s.w with lcc := tset 0 s.w.lcc (lccKey core b k) (tget 0 s.w.lcc (lccKey core b k) + BitVec.ofNat 64 n) } }
def State.addClasses (s : State) (core b : Nat) (cs : List Nat) : State :=
  (List.range 5).foldl (fun s k => s.addLcc core b k (cs.count k)) s

/-- The class of a lane of the lead group that did not issue: 1 DIVERGED, 2 PARKED, 3 IDLE, 4 ABSENT. -/
def State.laneClass (s : State) (gk l : Nat) (ready : List Nat) : Nat :=
  match (s.lane (lkOf gk l)).st with
  | .parked _ | .halted _ => 2
  | .exited => 4
  | _ => if ready.contains l then 1 else 3

/-- The 64 positions of a clock with an issue. -/
def State.classify (s : State) (gk : Nat) (lanes : List Nat) (filled : Nat) : List Nat :=
  let ready := (s.readyAt gk).flatMap (·.2)
  let rest := ((s.lanesOf gk).filter (fun l => !lanes.contains l)).map (fun l => s.laneClass gk l ready)
  ((List.replicate (lanes.length + filled) 0) ++ rest ++ List.replicate 64 4).take 64

/-- The counts of an issue enter the bins that cover it and the total. -/
def State.countIssue (s : State) (gk pkt : Nat) (cs : List Nat) : State :=
  let core := (s.group gk).core
  let bins := (List.range 8).filter (fun b =>
    let r := (tget 0 s.w.bins (core * 8 + b)).toNat
    bitField r 127 1 == 1 && bitField r 121 6 == (s.kern gk).ctx && bitField r 0 30 ≤ pkt && pkt ≤ bitField r 30 30)
  (bins ++ [8]).foldl (fun s b => s.addClasses core b cs) s

/-! ### The clock -/

/-- A wait of WAITC counts one clock down. -/
def Lane.tick (l : Lane) : Lane :=
  let st : LaneSt := match l.st with | .waiting (.clocks n) => .waiting (.clocks (n - 1)) | x => x
  let after : Option Wait := match l.after with | some (.clocks n) => some (.clocks (n - 1)) | x => x
  { l with st := st, after := after }

/-- The counts of a group at the end of a clock: `at_` is the PC it issued at, with the lanes; `full` says that the
active set is full. -/
def State.tickGroup (s : State) (lead full : Bool) (gk : Nat) (at_ : Option Nat) (lanes : List Nat) : State :=
  let ready := s.readyAt gk
  let waiting := (ready.filter (fun p => some p.1 != at_)).flatMap (·.2)
  let s := s.countFair gk at_
  let s := waiting.foldl (fun s l => s.modLane (lkOf gk l) (fun x => { x with since := x.since + 1 })) s
  let s := (s.lanesOf gk).foldl (fun s l => s.modLane (lkOf gk l) Lane.tick) s
  s.modGroup gk (fun g => { g with
    waitClk := if lead || ready.isEmpty then 0 else g.waitClk + 1
    outClk := if g.active || !full || ready.isEmpty then 0 else g.outClk + 1
    idleClk := if g.active && ready.isEmpty then g.idleClk + 1 else 0
    lead := if lead then 0 else g.lead + 1
    issuedNow := at_.isSome
    lastLane := if at_.isSome then lanes.headD 0 else g.lastLane
    last := match at_ with | some k => some (pcOf k) | none => g.last
    yielded := if at_.isSome then none else g.yielded })

/-- One clock of a partition: the core's cycle counter and the counts of every group on it. `issued` lists the groups
that issue, the lead first, with their lanes, at a PC. -/
def State.tick (s : State) (core part : Nat) (k : Nat) (issued : List (Nat × List Nat)) : State :=
  let full := (s.activeOf core part).length ≥ 8
  let s := (s.partGroups core part).foldl (fun s gk =>
    let lead := match issued with | p :: _ => p.1 == gk | [] => false
    match issued.find? (fun p => p.1 == gk) with
    | some p => s.tickGroup lead full gk (some k) p.2
    | none => s.tickGroup lead full gk none []) s
  let part_ := core * 4 + part
  let now := s.cycles core
  -- the partitions of a core share its clock: one that has had its clock of the core's cycle begins the next
  let now := if tget 0 s.w.clocked part_ == now then now + 1 else now
  { s with w := { s.w with
    cycles := tset 0 s.w.cycles core now
    clocked := tset 0 s.w.clocked part_ now
    lead := match issued with | p :: _ => tset 0 s.w.lead (core * 4 + part) (p.1 + 1) | [] => s.w.lead
    lastPc := if issued.isEmpty then s.w.lastPc else tset 0 s.w.lastPc (core * 4 + part) (k + 1) } }

/-- NO_ISSUE_CLOCK: 64 positions IDLE, in the total only. -/
def State.idleClock (s : State) (core part : Nat) : State := (s.addLcc core 8 3 64).tick core part 0 []

/-! ### Beginning an issue -/

/-- Check 4 of R62: the PC of the first word of the chain that is BRK or meets a comparator. -/
def State.breakAt (s : State) (gk : Nat) (p : Pc) (ws : List CWord) : Option Pc :=
  let serial := (s.launchOf (s.teamOf gk).ln).serial
  let hit (n : Nat) : Bool := (match ws[n]? with | some w => (match w.i with | .brk _ => true | _ => false) | none => false) ||
    s.cmpHit (s.group gk).core (s.kern gk).ctx serial 0 p.pkt (p.slot + n)
  ((List.range ws.length).find? hit).map (fun n => { pkt := p.pkt, slot := p.slot + n })

/-- A lane that stands at a MOVL which fails a check goes on, if skipped, after its literal (R56, R134). -/
def State.skipLiteral (s : State) (gk : Nat) (p : Pc) (lanes : List Nat) : State :=
  match (s.codeWord gk p).1 with
  | .ok w => if (fieldsOf w.toNat).maj = 0x3E && p.slot < 2 then
      lanes.foldl (fun s l => s.modLane (lkOf gk l) (fun x => { x with resume := some p.next.next })) s else s
  | .error _ => s

/-- The lanes of a list that are parked. -/
def State.parkedOf (s : State) (gk : Nat) (lanes : List Nat) : List Nat :=
  lanes.filter (fun l => match (s.lane (lkOf gk l)).st with | .parked _ => true | _ => false)

/-- Lanes that a breakpoint stops, and those that go on. -/
def State.stopAtBreaks (s : State) (gk : Nat) (p : Pc) (ws : List CWord) (lanes : List Nat) : List Nat × State :=
  match s.breakAt gk p ws with
  | none => (lanes, s)
  | some b =>
    let past := lanes.filter (fun l => (s.lane (lkOf gk l)).past)
    let halt := lanes.filter (fun l => !past.contains l)
    let s := halt.foldl (fun s l => s.breakLane (lkOf gk l) b) s
    (past, s.skipLiteral gk b (s.parkedOf gk halt))

/-- Lane fill may join a chain (R220). -/
def fillable (ws : List CWord) (majs : List Nat) : Bool :=
  ws.all (fun w => !converges true w.i && ((readsOf w.i) ++ (writesOf w.i)).all (fun r => r < 96 || r ≥ 128) && !popsQ1 w.i) &&
  (ws.zip majs).all (fun p => p.1.pipe == .v || p.1.pipe == .sf ||
    (0x18 ≤ p.2 && p.2 ≤ 0x1A) || (0x1C ≤ p.2 && p.2 ≤ 0x1E))

/-- The groups that lane fill adds, oldest first, up to 64 lanes (R220). It may add the next word of a group that has just
yielded, which R121 does not exclude (log 53). -/
def State.fillFrom (s : State) (gk k : Nat) (lanes : Nat) : List (Nat × List Nat) :=
  let g := s.group gk
  let others := (s.activeOf g.core g.part).filter (fun h =>
    h != gk && (s.group h).tk == g.tk && (s.group h).role == g.role)
  (others.foldl (fun (n, acc) h => match (s.readyAt h).find? (fun p => p.1 == k) with
    | some p => if n + p.2.length ≤ 64 then (n + p.2.length, acc ++ [(h, p.2)]) else (n, acc)
    | none => (n, acc)) (lanes, ([] : List (Nat × List Nat)))).2

/-- A fetch that cannot be made: the lanes wait for the page, or take FETCH_FAULT. -/
def State.fetchMiss (s : State) (gk : Nat) (p : Pc) (lanes : List Nat) (r : TRes) : State :=
  let k := s.kern gk
  let page := (k.koff + k.codeoff + 12 * p.pkt + 4 * p.slot) / 65536
  match r with
  | .wait w =>
    (s.mergeWait (s.group gk).core k.ctx k.kobj page w (.group gk (lanes.headD 0)) .read).waitLanes gk lanes
      (.merge k.ctx k.kobj page 0 0)
  | _ => lanes.foldl (fun s l => s.raise (lkOf gk l) p (.of fcFETCH_FAULT)) s

/-- An issue led by a group at a PC (R219, R62): the checks, then the chain's words are left to run, one at a time. -/
def State.beginIssue (s : State) (gk k : Nat) : State :=
  let g := s.group gk
  let p := pcOf k
  let lanes := match (s.readyAt gk).find? (fun q => q.1 == k) with | some q => q.2 | none => []
  let again := lanes.any (fun l => (s.lane (lkOf gk l)).resume.isSome)
  match s.chainAt gk p with
  | (.miss r, s) => (s.fetchMiss gk p lanes r).idleClock g.core g.part
  | (.bad slot f, s) =>
    let s := s.skipLiteral gk { p with slot := slot } lanes
    ((lanes.foldl (fun s l => s.raise (lkOf gk l) { p with slot := slot } f) s).settleAll gk lanes).idleClock g.core g.part
  | (.ok ws majs, s) =>
    let fill := if again || !fillable ws majs then [] else s.fillFrom gk k lanes.length
    match s.stopAtBreaks gk p ws lanes with
    | ([], s) => (s.settleAll gk lanes).idleClock g.core g.part
    | (go, s) =>
      let s := s.settleAll gk lanes
      let n := if again then 1 else ws.length
      let s := s.countIssue gk p.pkt (s.classify gk go (fill.map (·.2.length)).sum)
      let s := s.tick g.core g.part k ((gk, go) :: fill)
      { s with iss := { gk := gk, pkt := p.pkt, slot := p.slot, lanes := go, words := n, all := go, start := p.slot, size := n
                        fill := fill.map (·.1) } }

/-- The next group that lane fill added, with its ready lanes at the PC. -/
def State.nextFill (s : State) : State :=
  match s.iss.fill with
  | [] => { s with iss := {} }
  | gk :: gs =>
    let p : Pc := { pkt := s.iss.pkt, slot := s.iss.start }
    let lanes := match (s.readyAt gk).find? (fun q => q.1 == p.key) with | some q => q.2 | none => []
    match s.chainAt gk p with
    | (.ok ws _, s) =>
      let (go, s) := s.stopAtBreaks gk p ws lanes
      { s with iss := { s.iss with gk := gk, slot := p.slot, lanes := go, all := go, words := s.iss.size, fill := gs } }
    | (_, s) => { s with iss := { s.iss with fill := gs, words := 0 } }

/-- A clock of a partition: waits end, forced PCs and the active set are renewed, and one issue begins (R219). -/
def State.clockStart (s : State) (core part : Nat) : State :=
  let s := (s.partGroups core part).foldl State.freshView s
  let s := (s.partGroups core part).foldl State.wakeGroup s
  let s := (s.partGroups core part).foldl State.forceAll s
  (s.pickCurrent core).updateActive core part

def State.clock (s : State) (core part : Nat) : State :=
  let s := s.clockStart core part
  match s.choose core part with
  | none => s.idleClock core part
  | some (gk, k) => s.beginIssue gk k

/-! ### The frame of each word of a chain (R47) -/

/-- A lane that stands at the word in issue and may run it: one held behind a REJOIN or WAITC chained before it too. -/
def Lane.runsOn (l : Lane) (p : Pc) : Bool :=
  l.pc == p && (match l.st with | .ready => true | .waiting (.rejoin _) => true | .waiting (.clocks _) => true | _ => false)

/-- Check 5 of R62: the window and register that a word touches against R48. -/
def Lane.lookahead (l : Lane) (width : Nat) (i : Instr) : Option FaultInfo :=
  let own (w : Win) : Bool := l.resume.isSome && w.pkt == l.pkt && w.slot == l.slot
  let hit (w : Win) : Option Nat :=
    if w.left = 0 || own w then none
    else ((if w.reads then (readsIn width i).find? w.regs.contains else none).orElse (fun _ => (writesOf i).find? w.regs.contains))
  match l.windows.findSome? (fun w => (hit w).map (w, ·)) with
  | some (w, r) => some { code := fcLOOKAHEAD, detail := r, aux := w.pkt * 4 + w.slot, tag := chainChecks.engineTagOf i }
  | none => none

/-- The lanes that run the word in issue, after PAIR_LIMIT (R185) and check 5. -/
def State.gate (s : State) (i : Instr) : State :=
  let gk := s.iss.gk
  let p : Pc := { pkt := s.iss.pkt, slot := s.iss.slot }
  let ls := s.iss.lanes.filter (fun l => (s.lane (lkOf gk l)).runsOn p)
  let s := ls.foldl (fun s l => s.pairLimit (lkOf gk l)) s
  let ls := ls.filter (fun l => (s.lane (lkOf gk l)).runsOn p)
  let bad := ls.filter (fun l => ((s.lane (lkOf gk l)).lookahead (s.pairWidth gk) i).isSome)
  let s := bad.foldl (fun s l => match (s.lane (lkOf gk l)).lookahead (s.pairWidth gk) i with
    | some f => s.raise (lkOf gk l) p f | none => s) s
  let s := if bad.isEmpty then s else s.skipLiteral gk p (s.parkedOf gk bad)
  { s with iss := { s.iss with lanes := ls.filter (fun l => !bad.contains l) } }

/-- A lane has run its word: it does not stand parked, halted or waiting at it, and took no trap into its handler. -/
def ranWord (before after : Lane) (p : Pc) : Bool :=
  !(after.intrap && !before.intrap) &&
  (match after.st with
   | .parked _ | .halted _ => false
   | .waiting .ret => true
   | .waiting _ => after.pc != p
   | _ => true)

/-- Words at which the deterministic issue order switches (R293). -/
def switches : Instr → Bool
  | .bar .. | .barwait .. | .dphase .. | .yield .. => true
  | _ => false
def Lane.atSwitch (l : Lane) : Bool :=
  match l.st with
  | .waiting (.tags _ _) | .waiting (.launch _) | .waiting (.arrive _) | .waiting .phase => true
  | _ => false

/-- What follows a word for the lanes that ran it. -/
def State.afterLanes (s0 s : State) (i : Instr) : State :=
  let gk := s0.iss.gk
  let p : Pc := { pkt := s0.iss.pkt, slot := s0.iss.slot }
  let pair := (s0.group gk).pair
  let s := s0.iss.lanes.foldl (fun s l =>
    let before := s0.lane (lkOf gk l)
    let now := s.lane (lkOf gk l)
    if ranWord before now p then
      s.modLane (lkOf gk l) (fun x => x.counted before.windows.length (before.resume.isSome && (lookOf i).isSome) pair)
    else s) s
  let sw := switches i || s.noneLive gk || s0.iss.lanes.any (fun l => (s.lane (lkOf gk l)).atSwitch)
  let s := if s.isDet gk && sw then s.modGroup gk (fun g => { g with switched := true }) else s
  if (s.group gk).yielded == some p && (match i with | .yield _ => false | _ => true) then
    s.modGroup gk (fun g => { g with yielded := some p.next }) else s

/-- The end of a chain for a lane: a wait of a REJOIN or WAITC goes on; OVER has been used; a stepped lane, and one
with a latched request, halts (R364, R129). -/
def State.laneEnd (s : State) (gk l : Nat) : State :=
  let lk := lkOf gk l
  let s := s.modLane lk (fun x =>
    let x := { x with past := false }
    match x.st, x.after with | .ready, some w => { x with st := .waiting w, after := none } | _, _ => x)
  let x := s.lane lk
  if x.step then s.haltLane lk 4 x.intrap else if x.haltReq then s.haltLane lk 2 true else s

/-- The word has run: the chain goes on, or ends for its lanes. -/
def State.afterWord (s0 s : State) (i : Instr) : State :=
  if s.iss.words = 0 then s
  else
    let s := (s0.afterLanes s i).settleAll s0.iss.gk s0.iss.all
    if s0.iss.words ≤ 1 then
      let done : State := { s with iss := { s0.iss with words := 0 } }
      (s0.iss.all.foldl (fun (x : State) l => x.laneEnd s0.iss.gk l) done).nextFill
    else { s with iss := { s0.iss with words := s0.iss.words - 1, slot := s0.iss.slot + 1 } }

end Sys2Proof.Machine
end

