-- ==== Sys2Proof/Machine/ArbOps.lean ====
section
/-! DEFINITION. The launch arbiter beside placement: completion of launches (R289), pre-emption and resumption
(R290-R292, R247), and the serial phase of deterministic launches (R294-R296). -/

namespace Sys2Proof.Machine

/-! ### The serial phase (R296) -/

/-- The teams of a launch, each the latest of its index that has a place. -/
def State.teamsOf (s : State) (ln : Nat) : List (Nat × Team) := s.t.teams.filter (fun p => p.2.ln == ln && p.2.live)

/-- A lane has arrived at the serial phase, or is absent or gone. -/
def Lane.atPhase (l : Lane) : Bool :=
  match l.st with
  | .waiting .phase | .halted (some .phase) | .exited | .parked _ | .halted _ => true
  | _ => false

/-- A group has arrived at DPHASE, waits at a deferred access, or has exited; a group stopped for CTXSAVE counts too. -/
def State.arrivedAt (s : State) (gk : Nat) : Bool :=
  let ls := (s.lanesOf gk).map (fun l => s.lane (lkOf gk l))
  (match (s.teamOf gk).saving with | some x => x != gk | none => false) ||
  (ls.all Lane.atPhase && (ls.all (fun l => l.st == .exited) ||
    ls.any (fun l => l.st == .waiting .phase || l.st == .halted (some .phase))))

/-- A thread that cannot go on before the phase: every access it has left is deferred, or finds the log full. -/
def State.threadHeld (s : State) (th : Nat) (x : Thread) : Bool :=
  match x.kind with
  | .pair =>
    x.pair.phase != .queued && s.g.lanes.any (fun p => p.2.pair.th == th && p.2.st == .waiting .phase) &&
    s.g.lanes.all (fun p => p.2.pair.th != th || p.2.atPhase)
  | _ => !x.waits && (List.range (2 * (s.pieces x).length)).all (fun i => (s.engineStep th i).thread th == some x)

/-- An array entry that cannot go on before the phase. -/
def State.entryHeld (s : State) (x : ArrOp) : Bool :=
  match x.kind with
  | .load .. => (s.deferAll x.detGk (s.loadLocs x) .load).isSome
  | .drain _ _ f _ => x.row < 128 && s.e.epi.prog.isEmpty && (s.deferAll x.detGk (s.rowLocs x f) .store).isSome
  | _ => false

/-- The agents of a launch have nothing pending: the release of step 4 may be performed. -/
def State.gridQuiet (s : State) (ln : Nat) : Bool :=
  s.o.pend.all (fun p => match p.2 with | some e => (s.team (s.agentTk e.agent)).ln != ln | none => true) &&
  s.o.cbuf.all (fun p => match p.2 with | some b => (s.team (s.agentTk b.agent)).ln != ln | none => true)

/-- Something of a team waits for the phase: a lane, or an engine thread or array entry left over when every group has
exited. -/
def State.waitsPhase (s : State) (tk : Nat) : Bool :=
  (s.groupsOf tk).any (fun gk => (s.lanesOf gk).any (fun l => (s.lane (lkOf gk l)).st == .waiting .phase)) ||
  !(s.threadsOf tk).isEmpty || !(s.fifoOf tk).isEmpty

/-- The phase may start: every team of the grid is placed, every group has arrived, and step 1 holds. -/
def State.phaseDue (s : State) (ln : Nat) : Bool :=
  let x := s.launchOf ln
  x.kern.det && x.st == .running && x.nextTeam == x.kern.teams && s.iss.words == 0 && s.gridQuiet ln &&
  s.t.teams.all (fun p => p.2.ln != ln || !p.2.again) &&
  (s.teamsOf ln).all (fun p =>
    ((s.groupsOf p.1).filter (fun gk => !(s.group gk).pair)).all s.arrivedAt &&
    (s.threadsOf p.1).all (fun th => match s.thread th with | some x => s.threadHeld th x | none => true) &&
    (s.fifoOf p.1).all (fun id => match s.arrOp id with | some x => s.entryHeld x | none => true)) &&
  (s.teamsOf ln).any (fun p => s.waitsPhase p.1)

/-- One buffered entry applied, an atomic as an atomic. -/
def State.applyEntry (s : State) (e : DetEntry) : State :=
  let put (s : State) (v : Nat) : State := (s.writeNow e.core e.loc e.size v).setRel e.loc e.size []
  match e.kind with
  | .atomic op _ _ _ => let (old, s) := s.readNow e.core e.loc e.size; put s (atomNew op old e.val.toNat 0).1
  | .red op => let (old, s) := s.readNow e.core e.loc e.size; put s (redNew op old e.val.toNat)
  | _ => put s e.val.toNat

/-- Step 2: the buffers of a launch, team by team in ascending index, each in the order of entry. -/
def State.applyBuffers (s : State) (ln : Nat) : State :=
  let mine := s.l.det.filter (fun e => e.ln == ln)
  let teams := mine.foldl (fun ts e => insNat e.team ts) []
  let s := teams.foldl (fun s t => (mine.filter (fun e => e.team == t)).foldl State.applyEntry s) s
  { s with l := { s.l with det := s.l.det.filter (fun e => e.ln != ln) } }

/-- Step 3 for one line. -/
def Owner.reclassify (o : Owner) : Owner :=
  if o.shared || o.deferred || o.touched.length ≥ 2 then { shared := true }
  else match o.touched with
    | t :: _ => { owner := some t }
    | [] => o

def State.reclassify (s : State) (ln : Nat) : State :=
  (tslice s.l.own (ownKey ln 0) (ownKey (ln + 1) 0)).foldl (fun s p =>
    { s with l := { s.l with own := tset {} s.l.own p.1 p.2.reclassify } }) s

/-- Step 4: every agent of the grid has released and acquired at DEVICE scope. -/
def State.phaseJoin (s : State) (ln : Nat) : State :=
  let agents := (s.teamsOf ln).flatMap (fun p =>
    seqAgent p.1 :: (s.threadsOf p.1).map thAgent ++ (s.groupsOf p.1).flatMap (fun gk => (s.lanesOf gk).map (lkOf gk)))
  let ids := agents.flatMap s.hist
  let s := if ids.isEmpty then s else agents.foldl (fun s a => s.addHist a ids) s
  (s.teamsOf ln).foldl (fun s p => p.2.cores.foldl State.raiseFloor s) s

/-- Step 5: the lanes that wait for the phase go on. -/
def Lane.phaseOver (l : Lane) : Lane :=
  match l.st with
  | .waiting .phase => { l with st := .ready, since := 0 }
  | .halted (some .phase) => { l with st := .halted none }
  | _ => l

def State.phaseRelease (s : State) (ln : Nat) : State :=
  (s.teamsOf ln).foldl (fun s p => (s.groupsOf p.1).foldl (fun s gk => (s.lanesOf gk).foldl (fun s l =>
    if (s.lane (lkOf gk l)).phaseOver == s.lane (lkOf gk l) then s else s.modLane (lkOf gk l) Lane.phaseOver) s) s) s

/-- SERIAL_PHASE. -/
def State.serialPhase (s : State) (ln : Nat) : State :=
  if !s.phaseDue ln then s else (((s.applyBuffers ln).reclassify ln).phaseJoin ln).phaseRelease ln

/-! ### Completion (R289) -/

/-- Every team has ended and every child has completed. -/
def State.launchOver (s : State) (ln : Nat) : Bool :=
  let x := s.launchOf ln
  x.st == .running && x.ended ≥ x.kern.teams &&
  s.allLaunches.all (fun p => p.2.fromHost || p.2.parent != ln || p.2.isComplete)

def Launch.code (x : Launch) : Nat := if x.faulted then 1 else if x.nondet then 2 else 0

/-- The payload of LAUNCH_DONE (Table 18.8). -/
def donePayload (ctx serial code reason : Nat) : Nat := launchId ctx serial + fld code 64 32 + fld reason 96 32

/-- LAUNCH_COMPLETE: the last serial phase of a deterministic launch, the code, and for a host launch its event. -/
def State.launchComplete (s : State) (ln : Nat) : State :=
  if (tget none s.l.launches ln).isNone || !s.launchOver ln then s
  else
    let s := if (s.launchOf ln).kern.det then (s.applyBuffers ln).reclassify ln else s
    let s := { s with l := { s.l with own := tclear s.l.own (ownKey ln 0) (ownKey (ln + 1) 0) } }
    let kids := (s.allLaunches.filter (fun p => !p.2.fromHost && p.2.parent == ln)).flatMap (·.2.hist)
    let s := s.launchHist ln kids
    let x := s.launchOf ln
    let s := s.modLaunch ln (fun x => { x with
      st := .complete x.code, pooled := x.pooled && (s.team x.parentTeam).live })
    if x.fromHost then s.sendEvent 3 (BitVec.ofNat 32 x.kern.ctx) (donePayload x.kern.ctx x.serial x.code 0) x.hist else s

/-! ### Pre-emption (R290-R292) -/

/-- A team waits at LWAIT: a lane of it does, and no lane of it is ready (R290, log 41). -/
def State.atLwait (s : State) (tk : Nat) : Bool :=
  let ls := (s.groupsOf tk).flatMap (fun gk => (s.lanesOf gk).map (fun l => s.lane (lkOf gk l)))
  ls.any (fun l => match l.st with | .waiting (.launch _) => true | _ => false) && ls.all (fun l => l.st != .ready)

/-- Teams that hold their places. -/
def State.resident (s : State) : List (Nat × Team) := s.t.teams.filter (fun p => p.2.live && !p.2.saved)

/-- The youngest team of the lowest priority of a list. -/
def worst : List (Nat × Team) → Option (Nat × Team)
  | [] => none
  | p :: ps => match worst ps with
    | none => some p
    | some q => if p.2.kern.prio < q.2.kern.prio || (p.2.kern.prio == q.2.kern.prio && p.1 > q.1) then some p else some q

/-- The members of a team's gang that have places; the team itself outside a gang. -/
def State.liveGang (s : State) (tk : Nat) : List Nat := (s.gangOf tk).filter (fun y => (s.team y).live)

/-- Teams without the places of some of them. -/
def State.without (s : State) (tks : List Nat) : State := tks.foldl (fun s y => s.modTeam y (fun t => { t with saved := true })) s

/-- The teams of a context that wait at LWAIT, with their whole gangs. -/
def State.lwaiters (s : State) (ctx : Nat) : List Nat :=
  ((s.resident.filter (fun p => p.2.kern.ctx == ctx)).map (·.1)).filter (fun tk => (s.liveGang tk).all s.atLwait)

/-- The team that the arbiter pre-empts for a record that does not fit (R290, R291). For a child it is the youngest of the
context that waits at LWAIT, when the child fits in the room of such teams alone. -/
def State.victim (s : State) (ln : Nat) : Option Nat :=
  let x := s.launchOf ln
  if !s.eligible x || s.fitsNow ln then none
  else
    match worst (s.resident.filter (fun p => p.2.kern.ctx != x.kern.ctx && p.2.kern.prio < x.kern.prio)) with
    | some p => some p.1
    | none =>
      if !x.fromHost && (s.without (s.lwaiters x.kern.ctx)).fitsNow ln then (s.lwaiters x.kern.ctx).getLast? else none

/-- A member that is leaving and quiescent has yet to end. -/
def State.gangEnding (s : State) (tk : Nat) : Bool :=
  (s.team tk).kern.gang > 1 && (s.liveGang tk).any (fun y => s.gangState y == .leaving && s.quiescent y)

/-- A thread that pre-emption waits for: every one but a pair launch, and a launch whose binning reads the gang's slices
(R247). -/
def Thread.holdsSave (x : Thread) : Bool :=
  x.kind != .pair || (x.pair.phase == .binning && [3, 4, 7].any (fun n => Cap.type (x.pair.caps.getD n 0) == tGWIN))

/-- A side that goes to its slot before its team is saved: one that the canonical order does not hold back (R243). -/
def State.sideGoes (s : State) (sd : Side) : Bool :=
  match s.thread sd.th with | some x => s.turnCome x sd | none => true

/-- The pre-emption points of Table 16.5 are reached: nothing of the team runs on. A Marten launch, array entries and
rows not begun, sides that the canonical order holds back, and lanes stand where they are saved (R243); array operations and
posts in the merge table have been resolved (R308). -/
def State.stopped (s : State) (tk : Nat) : Bool :=
  (s.iss.words == 0 || (s.group s.iss.gk).tk != tk) &&
  (s.e.epi.prog.isEmpty || (match s.arrOp s.e.epi.op with | some x => x.tk != tk | none => true)) &&
  (s.team tk).saving.isNone &&
  s.o.pend.all (fun p => match p.2 with
    | some e => s.agentTk e.agent != tk || (e.tr.isSome && s.merging e.gk (s.team tk).kern.ctx (Cap.obj e.cap) e.page)
    | none => true) &&
  s.o.cbuf.all (fun p => match p.2 with | some b => s.agentTk b.agent != tk | none => true) &&
  (s.threadsOf tk).all (fun th => match s.thread th with | some x => !x.holdsSave | none => true) &&
  s.x.merge.all (fun m => !m.seqs.contains tk && m.posts.all (fun gk => tkOfGk gk != tk)) &&
  s.e.sides.all (fun p => match p.2 with | some sd => sd.tk != tk || !s.sideGoes sd | none => true)

/-- A saved lane executes a word that waited for a translation again (R308). -/
def Lane.rewalk (l : Lane) : Lane :=
  match l.st with
  | .waiting (.merge _ _ _ _ _) => { l with st := .ready, held := [] }
  | .halted (some (.merge _ _ _ _ _)) => { l with st := .halted none, held := [] }
  | _ => l

/-- Cores of a saved team's units are kept as their number in the team, from 128 up. -/
def savedCore (cores : List Nat) (core : Nat) : Nat := 128 + cores.idxOf core

/-- The bytes of a context's save area: the manual gives no layout, so each is a free value (R292, log 2). -/
def State.saveBytes (s : State) (tk : Nat) : State :=
  let t := s.team tk
  let r := s.root t.kern.ctx
  (List.range (bitField r 344 40)).foldl (fun s i =>
    match (s.translate (t.cores.headD 0) t.kern.ctx (bitField r 424 24) (bitField r 384 40 + i) .write).1 with
    | .ok l _ _ => let (v, s) := s.draw; (s.writeNow (t.cores.headD 0) l 1 (v.toNat % 256)).setRel l 1 []
    | _ => s) s

/-- A team saved: its resources go back to the arbiter, its kernel-lifetime state stays as it is (R16). -/
def State.saveTeam (s : State) (tk : Nat) : State :=
  let t := s.team tk
  let cur := t.cores.findSome? (fun c => match s.current c with
    | some gk => if (s.group gk).tk == tk then some (c, gk) else none | none => none)
  let s := s.saveBytes tk
  let s := (s.groupsOf tk).foldl (fun s gk =>
    let s := (s.lanesOf gk).foldl (fun s l =>
      if (s.lane (lkOf gk l)).rewalk == s.lane (lkOf gk l) then s else s.modLane (lkOf gk l) Lane.rewalk) s
    (s.unwaitGroup gk).modGroup gk (fun g => { g with core := savedCore t.cores g.core, active := false })) s
  let s := match cur with | some (c, _) => s.setCurrent c none | none => s
  let ths := s.threadsOf tk
  let thread (p : Nat × Option Thread) : Nat × Option Thread :=
    (p.1, p.2.map (fun (x : Thread) => if x.tk == tk then { x with core := savedCore t.cores x.core, waits := false } else x))
  let entry (p : Nat × Option ArrOp) : Nat × Option ArrOp :=
    (p.1, p.2.map (fun (x : ArrOp) => if x.tk == tk then { x with core := savedCore t.cores x.core, started := false } else x))
  let land (e : Landing) : Landing := if e.tk == tk then { e with core := savedCore t.cores e.core } else e
  let wait (m : MergeEntry) : MergeEntry :=
    { m with threads := m.threads.filter (fun th => !ths.contains th), seqs := m.seqs.filter (fun y => y != tk) }
  let s := { s with
    x := { s.x with merge := s.x.merge.map wait }
    e := { s.e with threads := s.e.threads.map thread, fifo := s.e.fifo.map entry }
    t := { s.t with landing := s.t.landing.map land } }
  s.modTeam tk (fun t => { t with
    saved := true, stopping := false, current := match cur with | some (_, gk) => gk + 1 | none => 0 })

/-- PREEMPT_TEAM: a gang is chosen and told to stop; once all its members have stopped they are saved. -/
def State.preempt (s : State) (tk : Nat) : State :=
  let gang := s.liveGang tk
  let t := s.team tk
  if !t.live || t.saved then s
  else if t.stopping then (if gang.all s.stopped then gang.foldl State.saveTeam s else s)
  else if s.t.teams.any (fun p => p.2.stopping) || s.gangEnding tk then s
  else if s.allLaunches.any (fun p => match s.victim p.1 with | some v => gang.contains v | none => false) then
    gang.foldl (fun s y => s.modTeam y (fun t => { t with stopping := true })) s
  else s

/-! ### Resumption -/

/-- A group of a resumed team put on a core: a partition for its lanes, an area for its registers. -/
def State.regroup (s : State) (gk core : Nat) : Option State :=
  let g := s.group gk
  if g.pair && !s.groupLive gk then some (s.modGroup gk (fun g => { g with core := core }))
  else if s.groupLive gk then
    (s.groupRoom core g.width g.regs).map (fun p => s.modGroup gk (fun g => { g with core := core, part := p.1, regBase := p.2 }))
  else
    (freeArea (s.areas core) (banksOf (s.bankrole core) 2 * bankBytes) (roundUp (g.regs * g.width * 4) 512) 512).map
      (fun b => s.modGroup gk (fun g => { g with core := core, regBase := b }))

/-- A saved team back on cores of its die; none when it does not fit (R16, R233, R292). Its agents go on as on their old
cores: what those could no longer read, the new ones cannot. -/
def State.resumeTeam (s : State) (tk : Nat) (cores : List Nat) : Option State :=
  let t := s.team tk
  let k := t.kern
  let rooms := (List.range cores.length).map (fun n => s.shareRoom k n (cores.getD n 0))
  if !t.live || !t.saved || !s.coresOk k cores || dieOf (cores.headD 0) != dieOf (t.cores.headD 0) || rooms.any (·.isNone) then none
  else
    let back (c : Nat) : Nat := cores.getD (c - 128) 0
    let s := s.setTeam tk { t with
      saved := false, current := 0, cores := cores, scrBase := rooms.filterMap (·.map (·.1)), accRegs := rooms.filterMap (·.map (·.2)) }
    let s := s.renumberSlots tk
    let s := (s.groupsOf tk).foldl (fun s gk => s.bind (fun s => s.regroup gk (back (s.group gk).core))) (some s)
    (s.map (fun s =>
      let thread (p : Nat × Option Thread) : Nat × Option Thread :=
        (p.1, p.2.map (fun (x : Thread) => if x.tk == tk then { x with core := back x.core } else x))
      let entry (p : Nat × Option ArrOp) : Nat × Option ArrOp :=
        (p.1, p.2.map (fun (x : ArrOp) => if x.tk == tk then { x with core := back x.core } else x))
      let land (e : Landing) : Landing := if e.tk == tk then { e with core := back e.core } else e
      let s := { s with
        e := { s.e with threads := s.e.threads.map thread, fifo := s.e.fifo.map entry }
        t := { s.t with landing := s.t.landing.map land } }
      let s := if t.current = 0 then s else s.setCurrent (s.group (t.current - 1)).core (some (t.current - 1))
      cores.foldl State.raiseFloor s)).filter (fun s => cores.all (fun c => s.pairLanes c ≤ 2048))

/-- The members of a saved gang back on a list of cores, member by member (R247). -/
def State.resumeAll (s : State) : List Nat → List (List Nat) → Option State
  | [], [] => some s
  | y :: ys, c :: cs => (s.resumeTeam y c).bind (fun s => State.resumeAll s ys cs)
  | _, _ => none

/-- A saved gang fits somewhere, one member after another. -/
def State.resumeFits (s : State) : List Nat → Bool
  | [] => true
  | y :: ys =>
    let t := s.team y
    let die := dieOf (t.cores.headD 0)
    (picks t.kern.cores ((List.range 32).map (die * 32 + ·))).any (fun cs => match s.resumeTeam y cs with
      | some s => State.resumeFits s ys
      | none => false)

/-- A saved team that waits at LWAIT for a child still to be placed stays saved until it is (R290). -/
def State.waitsForChild (s : State) (tk : Nat) : Bool :=
  s.atLwait tk && s.allLaunches.any (fun p => !p.2.fromHost && p.2.kern.ctx == (s.team tk).kern.ctx && s.eligible p.2)

/-- A saved team that is to resume before a record of a priority is placed: a resumption goes ahead of records of equal
priority (R290). -/
def State.resumeFirst (s : State) (prio : Nat) : Bool :=
  s.t.teams.any (fun p => p.2.live && p.2.saved && p.2.kern.prio ≥ prio && !s.waitsForChild p.1 && s.resumeFits (s.liveGang p.1))

/-- Cores named by one number, each in seven bits, the first lowest. -/
def coresOf (n core : Nat) : List Nat := (List.range n).map (fun i => core / 128 ^ i % 128)

/-- TEAM_RESUME: unless a record of a higher priority fits. -/
def State.resume (s : State) (tk core : Nat) : State :=
  let t := s.team tk
  let gang := s.liveGang tk
  if !t.live || !t.saved || s.waitsForChild tk ||
      s.allLaunches.any (fun p => s.eligible p.2 && p.2.kern.prio > t.kern.prio && s.fitsNow p.1) then s
  else (s.resumeAll gang (chunks t.kern.cores (coresOf (gang.length * t.kern.cores) core) gang.length)).getD s

/-! ### Placement of the next team (R285) -/

/-- TEAM_PLACE: the next team or gang of an eligible record, when no record before it fits and none has stopped
backfill (R285). The records passed over are counted. -/
def State.teamPlace (s : State) (ln : Nat) (cores : List Nat) : State :=
  let x := s.launchOf ln
  if !s.eligible x || s.resumeFirst x.kern.prio then s
  else
    let earlier := s.before ln
    if earlier.any (fun p => p.2.stopFill || s.fitsNow p.1) then s
    else match s.placeNext ln cores with
      | none => s
      | some s =>
        let s := earlier.foldl (fun s p => s.modLaunch p.1 (fun x => { x with passed := x.passed + 1 })) s
        { s with l := { s.l with lastServed := x.kern.ctx, serving := ln } }

/-! ### Relaunch from a task record (R354, R255) -/

/-- The members of a killed team's gang of which each ends the gang's attempt: no member runs. -/
def State.gangOver (s : State) (tk : Nat) : Bool := (s.gangOf tk).all (fun y => !(s.team y).live)

/-- TASK_RELAUNCH: the team, or with every member of its gang ended the whole gang, starts afresh. -/
def State.relaunch (s : State) (tk : Nat) (cores : List Nat) : State :=
  let t := s.team tk
  let gang := if t.kern.gang ≤ 1 then [tk] else s.gangOf tk
  if !t.again || !s.gangOver tk then s
  else
    let normal := (gang.filter (fun y => !(s.team y).again)).length
    match s.placeAll t.ln s.next (t.relaunches + 1) (gang.map (fun y => (s.team y).idx)) (chunks t.kern.cores cores gang.length) with
    | none => s
    | some s =>
      let s := gang.foldl (fun s y => s.modTeam y (fun t => { t with again := false })) s
      s.modLaunch t.ln (fun x => { x with ended := x.ended - normal })

end Sys2Proof.Machine
end

