-- ==== Sys2Proof/Machine/Arbiter.lean ====
section
/-! DEFINITION. The events of launch ports and of the launch arbiter (R283-R292, R296, R322, R226, R252). -/

namespace Sys2Proof.Machine

/-! ### Launch ports (R322) -/

def State.lport (s : State) (ctx : Nat) : LPort := tget {} s.l.ports ctx
def State.setLport (s : State) (ctx : Nat) (p : LPort) : State := { s with l := { s.l with ports := tset {} s.l.ports ctx p } }

/-- Eight bytes of the record area. -/
def LPort.put (p : LPort) (off : Nat) (data : DWord) : LPort :=
  { p with bytes := BitVec.ofNat 2048 (blockPut p.bytes.toNat off 8 data.toNat) }

/-- LAUNCH_RECORD_WRITE: an aligned write of eight bytes below the last eight. Before READY it is ignored (R320). -/
def execLaunchRecordWrite (ctx off : Nat) (data : DWord) (s : State) : Out :=
  .next (s.afterHost (fun s =>
    if !s.h.readyBit || ctx ≥ 64 || off % 8 != 0 || off ≥ 248 then s else s.setLport ctx ((s.lport ctx).put off data)))

/-- The end of a check: the status and serial words. -/
def State.portDone (s : State) (ctx status : Nat) (serial : Word) : State :=
  s.setLport ctx { (s.lport ctx) with status := status, serial := serial }

/-- The record of a port submitted: rejected, refused as FULL, or accepted (R282-R284). A page that the check misses
makes the host's write wait. A context that does not exist has no objects. -/
def State.submit (s : State) (ctx : Nat) : State :=
  let r := (s.lport ctx).bytes.toNat
  let reject (s : State) (reason : Nat) : State :=
    (s.portDone ctx 2 0xFFFFFFFF).sendEvent 3 (BitVec.ofNat 32 ctx) (donePayload ctx 0xFFFFFFFF 3 reason)
  if !s.ctxEn ctx then reject s rBAD_RECORD
  else match s.checkRecord 0 ctx r none with
    | (.miss obj page w, s) => s.mergeWait 0 ctx obj page w (.seq 0) .read
    | (.bad reason, s) => reject s reason
    | (.ok k, s) =>
      if s.queueFull ctx then
        let s := s.portDone ctx 1 0xFFFFFFFF
        { s with h := { s.h with lpfull := s.h.lpfull ||| (1 <<< ctx) } }
      else
        let (_, serial, s) := s.accept { kern := k, limit := k.dlimit }
        s.portDone ctx 0 (BitVec.ofNat 32 serial)

/-- LAUNCH_SUBMIT: the write to bytes 248 to 255, which follows every earlier host write (R322). -/
def execLaunchSubmit (ctx : Nat) (data : DWord) (s : State) : Out :=
  .next (s.afterHost (fun s => if !s.h.readyBit || ctx ≥ 64 then s else (s.setLport ctx ((s.lport ctx).put 248 data)).submit ctx))

/-! ### The arbiter -/

def execTeamPlace (ln : Nat) (cores : List Nat) (s : State) : Out := .next (s.teamPlace ln cores)
def execBankroleWrite (core ln : Nat) (s : State) : Out := .next (s.writeBanks core ln)

/-- BACKFILL_STOP (R285): a record has been passed over for the time the manual gives. -/
def execBackfillStop (ln : Nat) (s : State) : Out :=
  .next (if s.eligible (s.launchOf ln) && (s.launchOf ln).passed > 0 then s.modLaunch ln (fun x => { x with stopFill := true }) else s)

/-- TEAM_END (R226) of a team outside a gang, or of a gang's member with the others of its gang (R252). -/
def execTeamEnd (tk : Nat) (s : State) : Out := .next (s.endTeam tk)

/-- SLICE_WITHDRAW (R252): a leaving member that every other member has acknowledged. -/
def execSliceWithdraw (tk : Nat) (s : State) : Out :=
  .next (if (s.team tk).kern.gang > 1 && s.gangState tk == .leaving then s.endTeam tk else s)

def execLaunchComplete (ln : Nat) (s : State) : Out := .next (s.launchComplete ln)
def execPreemptTeam (tk : Nat) (s : State) : Out := .next (s.preempt tk)
def execTeamResume (tk core : Nat) (s : State) : Out := .next (s.resume tk core)
def execSerialPhase (ln : Nat) (s : State) : Out := .next (s.serialPhase ln)

end Sys2Proof.Machine
end

