-- ==== Sys2Proof/Machine/Arith.lean ====
section
/-! DEFINITION. Integer and logic words (R77-R80), MAJ 0x00 to 0x07 and 0x3E. -/

namespace Sys2Proof.Machine

/-! ### Functions of words -/

def mulhW (s : Sgn) (a b : Word) : Word :=
  match s with
  | .i => ((a.signExtend 64 * b.signExtend 64) >>> 32).truncate 32
  | .n => ((a.zeroExtend 64 * b.zeroExtend 64) >>> 32).truncate 32
def minW (s : Sgn) (a b : Word) : Word :=
  match s with | .i => if b.slt a then b else a | .n => if b.ult a then b else a
def maxW (s : Sgn) (a b : Word) : Word :=
  match s with | .i => if a.slt b then b else a | .n => if a.ult b then b else a
/-- B[7:0] of a shift. -/
def shiftN (b : Word) : Nat := b.toNat % 256
def shlW (a b : Word) : Word := if shiftN b ≥ 32 then 0 else a <<< shiftN b
def shrW (a b : Word) : Word := if shiftN b ≥ 32 then 0 else a >>> shiftN b
def sarW (a b : Word) : Word := a.sshiftRight (min (shiftN b) 31)
def clzW (a : Word) : Word := BitVec.ofNat 32 (if a = 0 then 32 else 31 - Nat.log2 a.toNat)
def popcW (a : Word) : Word := BitVec.ofNat 32 ((List.range 32).filter (fun i => a.getLsbD i)).length
def brevW (a : Word) : Word := (List.range 32).foldl (fun r i => if a.getLsbD i then r ||| (1 <<< (31 - i)) else r) 0
def shl64W (a : DWord) (b : Word) : DWord := if shiftN b ≥ 64 then 0 else a <<< shiftN b
def icmpW (o : ICmp) (a b : Word) : Word :=
  boolW (match o with
    | .eq => a == b | .ne => a != b | .ltI => a.slt b | .leI => a.sle b | .ltN => a.ult b | .leN => a.ule b)

/-- Width and mask of a bit field (R78). -/
def fieldW (b : Word) : Nat :=
  let pos := b.toNat % 256
  let len := b.toNat / 256 % 256
  if pos ≥ 32 then 0 else min len (32 - pos)
def fieldMask (w : Nat) : Word := BitVec.ofNat 32 (2 ^ w - 1)
def bfxNW (a b : Word) : Word := if fieldW b = 0 then 0 else (a >>> (b.toNat % 256)) &&& fieldMask (fieldW b)
def bfxIW (a b : Word) : Word :=
  let w := fieldW b
  let v := bfxNW a b
  if w ≠ 0 && v.getLsbD (w - 1) then v ||| ~~~ fieldMask w else v
def bfiW (a b d : Word) : Word :=
  let w := fieldW b
  let pos := b.toNat % 256
  if w = 0 then d else (d &&& ~~~ (fieldMask w <<< pos)) ||| ((a &&& fieldMask w) <<< pos)

/-- Bits and signedness of a byte or half-word type (R79). -/
def subBits (y : SubTy) : Nat := match y with | .i8 | .n8 => 8 | _ => 16
def subSgn (y : SubTy) : Bool := match y with | .i8 | .i16 => true | _ => false
/-- The value of a type in a register, extended to 32 bits (R21). -/
def subExt (y : SubTy) (v : Word) : Word := extendTo v.toNat (subBits y) (subSgn y)
/-- An operation of a byte or half-word form: on the extended operands, its result extended. -/
def subOp (y : SubTy) (f : Word → Word → Word) (a b : Word) : Word := subExt y (f (subExt y a) (subExt y b))
def subKind (y : SubTy) : Sgn := if subSgn y then .i else .n

/-- IMM11 sign-extended (R80). -/
def imm (i : BitVec 11) : Word := i.signExtend 32

/-! ### MAJ 0x00 -/

/-- NOP does nothing (R57). -/
def execNop (c : Bool) (s : State) : Out := .next (s.laneWord (.nop c) State.advAll)
def execIadd (c : Bool) (d a b : Opc) (s : State) : Out := .next (s.bin (.iadd c d a b) d a b (fun x y => .w (x + y)))
def execIsub (c : Bool) (d a b : Opc) (s : State) : Out := .next (s.bin (.isub c d a b) d a b (fun x y => .w (x - y)))
def execImul (c : Bool) (d a b : Opc) (s : State) : Out := .next (s.bin (.imul c d a b) d a b (fun x y => .w (x * y)))
def execImulh (c : Bool) (d a b : Opc) (g : Sgn) (s : State) : Out :=
  .next (s.bin (.imulh c d a b g) d a b (fun x y => .w (mulhW g x y)))
def execIneg (c : Bool) (d a : Opc) (s : State) : Out := .next (s.un (.ineg c d a) d a (fun x => .w (0 - x)))
def execIabs (c : Bool) (d a : Opc) (s : State) : Out :=
  .next (s.un (.iabs c d a) d a (fun x => .w (if x.msb then 0 - x else x)))
def execImin (c : Bool) (d a b : Opc) (g : Sgn) (s : State) : Out :=
  .next (s.bin (.imin c d a b g) d a b (fun x y => .w (minW g x y)))
def execImax (c : Bool) (d a b : Opc) (g : Sgn) (s : State) : Out :=
  .next (s.bin (.imax c d a b g) d a b (fun x y => .w (maxW g x y)))
def execAnd (c : Bool) (d a b : Opc) (s : State) : Out := .next (s.bin (.and c d a b) d a b (fun x y => .w (x &&& y)))
def execOr (c : Bool) (d a b : Opc) (s : State) : Out := .next (s.bin (.or c d a b) d a b (fun x y => .w (x ||| y)))
def execXor (c : Bool) (d a b : Opc) (s : State) : Out := .next (s.bin (.xor c d a b) d a b (fun x y => .w (x ^^^ y)))
def execMov (c : Bool) (d a : Opc) (s : State) : Out := .next (s.un (.mov c d a) d a (fun x => .w x))

/-! ### MAJ 0x01 -/

def execShl (c : Bool) (d a b : Opc) (s : State) : Out := .next (s.bin (.shl c d a b) d a b (fun x y => .w (shlW x y)))
def execShr (c : Bool) (d a b : Opc) (s : State) : Out := .next (s.bin (.shr c d a b) d a b (fun x y => .w (shrW x y)))
def execSar (c : Bool) (d a b : Opc) (s : State) : Out := .next (s.bin (.sar c d a b) d a b (fun x y => .w (sarW x y)))
def execClz (c : Bool) (d a : Opc) (s : State) : Out := .next (s.un (.clz c d a) d a (fun x => .w (clzW x)))
def execPopc (c : Bool) (d a : Opc) (s : State) : Out := .next (s.un (.popc c d a) d a (fun x => .w (popcW x)))
def execBrev (c : Bool) (d a : Opc) (s : State) : Out := .next (s.un (.brev c d a) d a (fun x => .w (brevW x)))
def execIadd64 (c : Bool) (d a b : Opc) (s : State) : Out :=
  .next (s.compute (.iadd64 c d a b) d (fun l => .d (s.src64 s.iss.gk l a + s.src64 s.iss.gk l b)))
def execShl64 (c : Bool) (d a b : Opc) (s : State) : Out :=
  .next (s.compute (.shl64 c d a b) d (fun l => .d (shl64W (s.src64 s.iss.gk l a) (s.src s.iss.gk l b))))
def execIcmp (c : Bool) (d a b : Opc) (o : ICmp) (s : State) : Out :=
  .next (s.bin (.icmp c d a b o) d a b (fun x y => .w (icmpW o x y)))
def execSel (c : Bool) (d a b : Opc) (s : State) : Out :=
  .next (s.tri (.sel c d a b) d a b (fun x y z => .w (if z != 0 then x else y)))

/-! ### MAJ 0x02 and 0x03 -/

def execImad (c : Bool) (d a b : Opc) (s : State) : Out :=
  .next (s.tri (.imad c d a b) d a b (fun x y z => .w (x * y + z)))
def execImadwI (c : Bool) (d a b : Opc) (s : State) : Out :=
  .next (s.compute (.imadwI c d a b) d (fun l =>
    .d ((s.src s.iss.gk l a).signExtend 64 * (s.src s.iss.gk l b).signExtend 64 + s.src64 s.iss.gk l d)))
def execImadwN (c : Bool) (d a b : Opc) (s : State) : Out :=
  .next (s.compute (.imadwN c d a b) d (fun l =>
    .d ((s.src s.iss.gk l a).zeroExtend 64 * (s.src s.iss.gk l b).zeroExtend 64 + s.src64 s.iss.gk l d)))
def execBfxN (c : Bool) (d a b : Opc) (s : State) : Out := .next (s.bin (.bfxN c d a b) d a b (fun x y => .w (bfxNW x y)))
def execBfxI (c : Bool) (d a b : Opc) (s : State) : Out := .next (s.bin (.bfxI c d a b) d a b (fun x y => .w (bfxIW x y)))
def execBfi (c : Bool) (d a b : Opc) (s : State) : Out :=
  .next (s.tri (.bfi c d a b) d a b (fun x y z => .w (bfiW x y z)))
def execIaddBh (c : Bool) (d a b : Opc) (y : SubTy) (s : State) : Out :=
  .next (s.bin (.iaddBh c d a b y) d a b (fun p q => .w (subOp y (· + ·) p q)))
def execIsubBh (c : Bool) (d a b : Opc) (y : SubTy) (s : State) : Out :=
  .next (s.bin (.isubBh c d a b y) d a b (fun p q => .w (subOp y (· - ·) p q)))
def execIminBh (c : Bool) (d a b : Opc) (y : SubTy) (s : State) : Out :=
  .next (s.bin (.iminBh c d a b y) d a b (fun p q => .w (subOp y (minW (subKind y)) p q)))
def execImaxBh (c : Bool) (d a b : Opc) (y : SubTy) (s : State) : Out :=
  .next (s.bin (.imaxBh c d a b y) d a b (fun p q => .w (subOp y (maxW (subKind y)) p q)))

/-! ### Immediates (R80, R56) -/

def execIaddi (c : Bool) (d a : Opc) (i : BitVec 11) (s : State) : Out :=
  .next (s.un (.iaddi c d a i) d a (fun x => .w (x + imm i)))
/-- MOVI is IADDI with A = `zero`. -/
def execMovi (c : Bool) (d : Opc) (i : BitVec 11) (s : State) : Out := .next (s.computeAll (.movi c d i) d (.w (imm i)))
def execAndi (c : Bool) (d a : Opc) (i : BitVec 11) (s : State) : Out :=
  .next (s.un (.andi c d a i) d a (fun x => .w (x &&& imm i)))
def execOri (c : Bool) (d a : Opc) (i : BitVec 11) (s : State) : Out :=
  .next (s.un (.ori c d a i) d a (fun x => .w (x ||| imm i)))
def execXori (c : Bool) (d a : Opc) (i : BitVec 11) (s : State) : Out :=
  .next (s.un (.xori c d a i) d a (fun x => .w (x ^^^ imm i)))
/-- MOVL takes the next word as its literal (R56): the lanes go on after the literal. -/
def State.pastLiteral (s : State) : State :=
  s.iss.lanes.foldl (fun s l => s.modLane (lkOf s.iss.gk l) (fun x =>
    { x with resume := some (Pc.next (Pc.next { pkt := s.iss.pkt, slot := s.iss.slot })) })) s
def execMovl (d : Opc) (lit : Word) (s : State) : Out := .next (s.pastLiteral.computeAll (.movl d lit) d (.w lit))

end Sys2Proof.Machine
end

