-- ==== Sys2Proof/Machine/Caps.lean ====
section
/-! DEFINITION. Capability words (R101-R107), MAJ 0x2C. Each runs once per issue (R103). -/

namespace Sys2Proof.Machine

/-- The checks of R102 for a capability register that a word names. -/
def capUse (c : Cap) : Option FaultInfo :=
  if !capOk c then some (capFault fcCAP_CHECK c 0)
  else if Cap.type c ≥ 9 then some (capFault fcCAP_TYPE c 0) else none

/-- A word that runs once with one capability register checked (R102, R103). -/
def State.capWord (s : State) (i : Instr) (a : Opc) (body : State → Cap → ORes) : State :=
  s.laneWord i (fun s =>
    let c := s.creg s.iss.gk a.toNat
    match capUse c with
    | some f => s.raiseAll f
    | none => s.once (body s c))

/-- A 64-bit group value written to a v pair of every executing lane, or to an s pair (R107). -/
def State.writeAll64 (s : State) (d : Opc) (v : DWord) : State := (s.writeAll d (loW v)).writeAll (d + 1) (hiW v)

/-- CAPSUB (R105). A base of 2^40, which a length of 0 leaves within the bounds, does not fit its 40 bits: the low ones are
kept (log 53). -/
def capSub (c : Cap) (off len : Nat) : Except FaultInfo Cap :=
  if Cap.type c = 0 then .error (capFault fcCAP_NULL c off)
  else if off + len > Cap.len c || Cap.base c + off + len > 2 ^ 40 then .error (capFault fcCAP_BOUNDS c off)
  else .ok (mkCap (Cap.type c) (Cap.rights c).toNat (Cap.obj c) (Cap.base c + off) len)

def execCapsub (c : Bool) (d a b : Opc) (s : State) : Out :=
  .next (s.capWord (.capsub c d a b) a (fun s x =>
    let gk := s.iss.gk
    match capSub x (s.src64 gk 0 b).toNat (s.src64 gk 0 (b + 2)).toNat with
    | .error f => .fault f
    | .ok y => .ok (s.setC gk d.toNat y)))
/-- CAPRESTRICT (R106), with B as the lowest-numbered executing lane reads it (log 53). -/
def execCaprestrict (c : Bool) (d a b : Opc) (s : State) : Out :=
  .next (s.capWord (.caprestrict c d a b) a (fun s x =>
    let m := (s.src s.iss.gk s.low b).toNat % 256
    .ok (s.setC s.iss.gk d.toNat
      (mkCap (Cap.type x) ((Cap.rights x).toNat &&& m) (Cap.obj x) (Cap.base x) (Cap.len x)))))
def execCaplen (c : Bool) (d a : Opc) (s : State) : Out :=
  .next (s.capWord (.caplen c d a) a (fun s x => .ok (s.writeAll64 d (BitVec.ofNat 64 (Cap.len x)))))
def execCaptype (c : Bool) (d a : Opc) (s : State) : Out :=
  .next (s.capWord (.captype c d a) a (fun s x =>
    .ok (s.writeAll64 d (BitVec.ofNat 64 (Cap.type x + (Cap.rights x).toNat * 2 ^ 8 + Cap.obj x * 2 ^ 32)))))
def execCapmov (c : Bool) (d a : Opc) (s : State) : Out :=
  .next (s.capWord (.capmov c d a) a (fun s x => .ok (s.setC s.iss.gk d.toNat x)))

end Sys2Proof.Machine
end

