-- ==== Sys2Proof/Machine/Checkpoint.lean ====
section
/-! DEFINITION. Team checkpoints (R136, R137), MAJ 0x3B. -/

namespace Sys2Proof.Machine

/-! ### A team cut out of the tables, and put back -/

/-- The entries of an interval, with keys that count from its start; and such entries put into a table. -/
def tcut {α : Type} (t : Tbl α) (lo hi : Nat) : Tbl α := (tslice t lo hi).map (fun p => (p.1 - lo, p.2))
def tpaste {α : Type} [DecidableEq α] (d : α) (t : Tbl α) (lo hi : Nat) (xs : Tbl α) : Tbl α :=
  xs.foldl (fun t p => tset d t (lo + p.1) p.2) (tclear t lo hi)

/-- The ordinary groups' keys of a team: pair groups hold no lane once every tag is done. -/
def gLo (tk : Nat) : Nat := gkOf tk 0
def gHi (tk : Nat) : Nat := gkOf tk 1024

/-- A parked agent with its lane counted from the team's first. -/
def Parked.move (p : Parked) (f : Nat → Nat) : Parked := { p with lane := p.lane.map f }
def Team.moveParked (t : Team) (f : Nat → Nat) : Team := { t with parked := t.parked.map (fun p => (p.1, p.2.map (·.move f))) }

def State.snapshot (s : State) (tk : Nat) (bytes : List Byte) : Checkpoint :=
  let t := s.team tk
  let lo := gLo tk
  let hi := gHi tk
  let l0 := lkOf lo 0
  let l1 := lkOf hi 0
  let ph := s.physOf tk
  { ln := t.ln, team := t.idx, bytes := bytes, t := t.moveParked (· - l0)
    lanes := tcut s.g.lanes l0 l1
    groups := tcut s.g.groups lo hi
    vreg := tcut s.g.vreg (vKey l0 0) (vKey l1 0)
    sreg := tcut s.g.sreg (sKey lo 0) (sKey hi 0)
    creg := tcut s.g.creg (cKey lo 0) (cKey hi 0)
    jmask := tcut s.g.jmask (cKey lo 0) (cKey hi 0)
    scratch := tcut s.t.scratch (scrKey tk 0) (scrKey (tk + 1) 0)
    acc := tcut s.t.acc (accKey tk 0 0) (accKey (tk + 1) 0 0)
    regions := tcut s.t.regions (regionKey tk 0 0) (regionKey (tk + 1) 0 0)
    slots := tcut s.t.slots (slotKey tk 0 0) (slotKey (tk + 1) 0 0)
    slotCode := s.t.slotCode.filter (fun p => ph.contains (p.1 / 2 ^ 16))
    slotScale := s.t.slotScale.filter (fun p => ph.contains (p.1 / 2 ^ 16))
    tags := tcut s.t.tags (tagKey tk 0 0) (tagKey (tk + 1) 0 0)
    pairDone := tcut s.t.pairDone (tagKey tk 0 0) (tagKey (tk + 1) 0 0)
    bars := tcut s.t.bars (barKey tk 0) (barKey (tk + 1) 0)
    landing := (s.t.landing.filter (fun e => e.tk == tk)).map (fun e => { e with gk := e.gk - lo, key := e.key - vKey l0 0 }) }

/-- A group of a checkpoint at the place that the team's group has now; its membership of the active set is no state of the
kernel (R221). -/
def Group.replace (now old : Group) (tk : Nat) : Group :=
  { old with
    tk := tk, core := now.core, part := now.part, regBase := now.regBase, born := now.born, active := now.active
    waitClk := now.waitClk, outClk := now.outClk, idleClk := now.idleClk, lead := now.lead, lastLane := now.lastLane
    issuedNow := now.issuedNow, codeView := now.codeView }

/-- A team's kernel-lifetime state replaced by a checkpoint (R137); its own member state and acknowledgements stay as they are
(log 55). -/
def State.restore (s : State) (tk : Nat) (c : Checkpoint) : State :=
  let now := s.team tk
  let lo := gLo tk
  let hi := gHi tk
  let l0 := lkOf lo 0
  let l1 := lkOf hi 0
  let ph := s.physOf tk
  let old := c.t.moveParked (l0 + ·)
  let s := s.setTeam tk { now with
    seq := old.seq, fq := old.fq, fwait := old.fwait, parked := old.parked, nextFid := max now.nextFid old.nextFid, saving := none }
  let s : State := { s with
    g := { s.g with
      lanes := tpaste {} s.g.lanes l0 l1 c.lanes
      groups := tpaste {} s.g.groups lo hi (c.groups.map (fun p => (p.1, (s.group (lo + p.1)).replace p.2 tk)))
      vreg := tpaste 0 s.g.vreg (vKey l0 0) (vKey l1 0) c.vreg
      sreg := tpaste 0 s.g.sreg (sKey lo 0) (sKey hi 0) c.sreg
      creg := tpaste 0 s.g.creg (cKey lo 0) (cKey hi 0) c.creg
      jmask := tpaste 0 s.g.jmask (cKey lo 0) (cKey hi 0) c.jmask }
    t := { s.t with
      scratch := tpaste 0 s.t.scratch (scrKey tk 0) (scrKey (tk + 1) 0) c.scratch
      acc := tpaste 0 s.t.acc (accKey tk 0 0) (accKey (tk + 1) 0 0) c.acc
      regions := tpaste {} s.t.regions (regionKey tk 0 0) (regionKey (tk + 1) 0 0) c.regions
      slots := tpaste none s.t.slots (slotKey tk 0 0) (slotKey (tk + 1) 0 0) c.slots
      slotCode := c.slotCode.foldl (fun t p => tset 0 t p.1 p.2) (clearPhys s.t.slotCode ph)
      slotScale := c.slotScale.foldl (fun t p => tset 0 t p.1 p.2) (clearPhys s.t.slotScale ph)
      tags := tpaste .free s.t.tags (tagKey tk 0 0) (tagKey (tk + 1) 0 0) c.tags
      pairDone := tpaste 0 s.t.pairDone (tagKey tk 0 0) (tagKey (tk + 1) 0 0) c.pairDone
      bars := tpaste {} s.t.bars (barKey tk 0) (barKey (tk + 1) 0) c.bars
      landing := s.t.landing.filter (fun e => e.tk != tk) ++ c.landing.map (fun e =>
        { e with tk := tk, gk := lo + e.gk, key := vKey l0 0 + e.key, core := (s.group (lo + e.gk)).core }) }
    iss := {} }
  s.renumberSlots tk

/-! ### The two words -/

/-- The team stands still: no pending access, engine thread or array entry of it (R136, steps 1 to 3). -/
def State.still (s : State) (tk : Nat) : Bool :=
  (s.threadsOf tk).isEmpty && (s.fifoOf tk).isEmpty &&
  s.o.pend.all (fun p => match p.2 with | some e => s.agentTk e.agent != tk | none => true)

/-- The locations of n bytes of a capability, page by page; or the wait or fault that one meets. -/
def State.extLocs (s : State) (gk : Nat) (c : Cap) (kind : AccKind) : List (Nat × Nat) → Except RRes (List (Loc × Nat)) × State
  | [] => (.ok [], s)
  | (a, n) :: rest =>
    match s.resolve (s.group gk).tk (s.group gk).core c (a - Cap.base c) n kind false false with
    | (.ok l, s) => match State.extLocs s gk c kind rest with
      | (.ok ls, s) => (.ok ((l, n) :: ls), s)
      | r => r
    | (r, s) => (.error r, s)

def byteLocs (ls : List (Loc × Nat)) : List Loc := ls.flatMap (fun p => (List.range p.2).map p.1.shift)

/-- The steps before the bytes move: the checks, the team brought to a stand, the serial phase of a deterministic
launch, the translations. `short` is D for a capability that is too small. -/
def State.ctxWord (s : State) (i : Instr) (d : Opc) (a : Nat) (need : Nat) (kind : AccKind) (short : Word)
    (body : State → List Loc → State) : State :=
  s.noPair i (fun s =>
    let gk := s.iss.gk
    let tk := (s.group gk).tk
    let t := s.team tk
    let c := s.heldCap gk s.low a
    let n := t.kern.saveSize
    let off (s : State) : State := if t.saving == some gk then s.modTeam tk (fun t => { t with saving := none }) else s
    match s.capSteps13 t.kern.ctx c [tMEM] need with
    | some e => (off s).raiseAll (capFault e c 0)
    | none =>
      if Cap.len c < n then (off s).deliver d (s.iss.lanes.map (fun l => (l, .w short)))
      else if t.saving.isSome && t.saving != some gk then s.waitAll .place
      else
        let s := s.modTeam tk (fun t => { t with saving := some gk })
        if !s.still tk then s.waitAll .place
        else if t.kern.det && s.iss.lanes.any (fun l => (s.lane (lkOf gk l)).token.isNone) then
          (s.each (fun x l => x.modLane (lkOf gk l) (fun y => { y with token := some 0 }))).waitAll .phase
        else match s.extLocs gk c kind (cutPages (Cap.base c) n) with
          | (.error (.wait obj page w), s) =>
            (s.mergeWait (s.group gk).core t.kern.ctx obj page w (.group gk s.low) kind).waitPage gk s.iss.lanes
              t.kern.ctx obj page 0 (Cap.type c)
          | (.error (.fault f), s) => (s.modTeam tk (fun t => { t with saving := none })).raiseAll f
          | (.error (.ok _), s) => s.waitAll .place
          | (.ok ls, s) => body (s.modTeam tk (fun t => { t with saving := none })) (byteLocs ls))

/-- A byte of a checkpoint that is written: the manual gives no layout, so each is a free value (log 2). -/
def drawBytes (free n : Nat) : List Byte := (List.range n).map (fun i => (Config.freeValue (free + i)).truncate 8)

def execCtxsave (c : Bool) (d a : Opc) (s : State) : Out :=
  .next (s.ctxWord (.ctxsave c d a) d a.toNat rW .write 2 (fun s locs =>
    let gk := s.iss.gk
    let tk := (s.group gk).tk
    let core := (s.group gk).core
    let bytes := drawBytes s.free locs.length
    -- CTXSAVE counts as a word of the windows that are open (R48)
    let saved := (s.deliver d (s.iss.lanes.map (fun l => (l, .w 1)))).each (fun x l =>
      x.modLane (lkOf gk l) (fun y => y.counted (s.lane (lkOf gk l)).windows.length false false))
    s.deliverWith d (s.iss.lanes.map (fun l => (l, .w 0))) (fun x =>
      let x := (locs.zip bytes).foldl (fun x p => (x.writeNow core p.1 1 p.2.toNat).setRel p.1 1 []) x
      let x := { x with free := x.free + locs.length }
      { x with l := { x.l with checkpoints := x.l.checkpoints ++ [saved.snapshot tk bytes] } }.raiseFloor core)))

/-- The bytes of a list of locations. -/
def State.readLocs (s : State) (core : Nat) : List Loc → List Byte × State
  | [] => ([], s)
  | l :: ls =>
    let (v, s) := s.readNow core l 1
    let (vs, s) := State.readLocs s core ls
    (BitVec.ofNat 8 v :: vs, s)

def execCtxload (c : Bool) (d a : Opc) (s : State) : Out :=
  .next (s.ctxWord (.ctxload c d a) d a.toNat rR .read 3 (fun s locs =>
    let gk := s.iss.gk
    let tk := (s.group gk).tk
    let t := s.team tk
    match locs.findSome? (fun l => s.hitsPoison l 1) with
    | some f => s.raiseAll f
    | none =>
      let (bytes, s) := s.readLocs (s.group gk).core locs
      match (s.l.checkpoints.filter (fun p => p.ln == t.ln && p.team == t.idx && p.bytes == bytes)).getLast? with
      | some p => s.restore tk p
      | none => s.deliver d (s.iss.lanes.map (fun l => (l, .w 3)))))

end Sys2Proof.Machine
end

