-- ==== Sys2Proof/Machine/Float.lean ====
section
/-! DEFINITION. Float and packed 16-bit words (R81-R83), MAJ 0x08 to 0x0A. -/

namespace Sys2Proof.Machine

/-- FP32 operations of one, two and three operands under the launch's version and trap mask. -/
def State.fp1 (s : State) (i : Instr) (d a : Opc) (f : Nat → Nat → FRes) : State :=
  s.un i d a (fun x => fpRes s.fl (f s.nbv x.toNat))
def State.fp2 (s : State) (i : Instr) (d a b : Opc) (f : Nat → Nat → Nat → FRes) : State :=
  s.bin i d a b (fun x y => fpRes s.fl (f s.nbv x.toNat y.toNat))
def State.fp3 (s : State) (i : Instr) (d a b : Opc) (f : Nat → Nat → Nat → Nat → FRes) : State :=
  s.tri i d a b (fun x y z => fpRes s.fl (f s.nbv x.toNat y.toNat z.toNat))

/-- FRND: a value rounded to an integral one in a mode, its sign kept (R82). -/
def fRnd (nbv : Nat) (rm : RMode) (a : Nat) : FRes := unary nbv a fun
  | .fin s m e => f32.roundQ .rne s (m * pow2 e / pow2 (-e) + (roundsUp rm s (m * pow2 e / pow2 (-e)) (m * pow2 e % pow2 (-e)) (pow2 (-e))).toNat) 1
  | v => f32.round .rne v

/-- FCMP (R82): the relation, and the invalid condition of a signalling NaN. -/
def fCmp (o : FCmp) (a b : Nat) : FRes :=
  let un := f32.isNan a || f32.isNan b
  let c := (f32.val a).cmp (f32.val b)
  let r := match o with | .eq => !un && c == 0 | .lt => !un && c < 0 | .le => !un && c ≤ 0 | .un => un
  { bits := r.toNat, iv := f32.isSnan a || f32.isSnan b }

/-- The bit of FCLASS (Table 5.3). -/
def fClass (a : Nat) : Nat :=
  let neg := a / 2 ^ 31 % 2 == 1
  let e := a / 2 ^ 23 % 256
  let m := a % 2 ^ 23
  if e = 255 then (if m = 0 then (if neg then 2 else 9) else if f32.isSnan a then 0 else 1)
  else if e = 0 then (if m = 0 then (if neg then 5 else 6) else if neg then 4 else 7)
  else if neg then 3 else 8

/-- The element format of a packed word, and its two elements (R20). -/
def hFmt : HTy → FFmt | .f16 => Machine.f16 | .bf16 => Machine.bf16
def hLo (w : Word) : Nat := w.toNat % 65536
def hHi (w : Word) : Nat := w.toNat / 65536

/-- A packed operation of two operands, and of three. -/
def State.hp2 (s : State) (i : Instr) (d a b : Opc) (f : Nat → Nat → FRes) : State :=
  s.bin i d a b (fun x y => fpPair s.fl (f (hLo x) (hLo y)) (f (hHi x) (hHi y)))
def State.hp3 (s : State) (i : Instr) (d a b : Opc) (f : Nat → Nat → Nat → FRes) : State :=
  s.tri i d a b (fun x y z => fpPair s.fl (f (hLo x) (hLo y) (hLo z)) (f (hHi x) (hHi y) (hHi z)))

/-- FDOT2H: two products and an FP32 addend, exact and rounded once (R83, R372). -/
def fDot2h (nbv : Nat) (f : FFmt) (a b d : Word) : FRes :=
  let v : Option Val := ((f.val (hLo a)).mul (f.val (hLo b))).bind (fun p =>
    ((f.val (hHi a)).mul (f.val (hHi b))).bind (fun q => (p.add .rne q).bind (fun t => t.add .rne (f32.val d.toNat))))
  finish nbv f32 .rne [(f, hLo a), (f, hHi a), (f, hLo b), (f, hHi b), (f32, d.toNat)] v

def execFadd (c : Bool) (d a b : Opc) (r : RMode) (s : State) : Out :=
  .next (s.fp2 (.fadd c d a b r) d a b (fun n => fAdd n f32 r))
def execFsub (c : Bool) (d a b : Opc) (r : RMode) (s : State) : Out :=
  .next (s.fp2 (.fsub c d a b r) d a b (fun n => fSub n f32 r))
def execFmul (c : Bool) (d a b : Opc) (r : RMode) (s : State) : Out :=
  .next (s.fp2 (.fmul c d a b r) d a b (fun n => fMul n f32 r))
def execFfma (c : Bool) (d a b : Opc) (r : RMode) (s : State) : Out :=
  .next (s.fp3 (.ffma c d a b r) d a b (fun n => fFma n f32 r))
def execFmin (c : Bool) (d a b : Opc) (s : State) : Out :=
  .next (s.fp2 (.fmin c d a b) d a b (fun n => fMinMax n f32 false))
def execFmax (c : Bool) (d a b : Opc) (s : State) : Out :=
  .next (s.fp2 (.fmax c d a b) d a b (fun n => fMinMax n f32 true))
/-- FABS and FNEG change bit 31 only and raise no trap (R82). -/
def execFabs (c : Bool) (d a : Opc) (s : State) : Out :=
  .next (s.un (.fabs c d a) d a (fun x => .w (x &&& 0x7FFFFFFF)))
def execFneg (c : Bool) (d a : Opc) (s : State) : Out :=
  .next (s.un (.fneg c d a) d a (fun x => .w (x ^^^ 0x80000000)))
def execFcmp (c : Bool) (d a b : Opc) (o : FCmp) (s : State) : Out :=
  .next (s.fp2 (.fcmp c d a b o) d a b (fun _ => fCmp o))
def execFrnd (c : Bool) (d a : Opc) (r : RMode) (s : State) : Out :=
  .next (s.fp1 (.frnd c d a r) d a (fun n => fRnd n r))
/-- FCLASS (R82). A signalling NaN is classified and raises no trap, though R82 names only FABS and FNEG so (log 53). -/
def execFclass (c : Bool) (d a : Opc) (s : State) : Out :=
  .next (s.un (.fclass c d a) d a (fun x => .w (BitVec.ofNat 32 (2 ^ fClass x.toNat))))
def execHadd2 (c : Bool) (d a b : Opc) (y : HTy) (s : State) : Out :=
  .next (s.hp2 (.hadd2 c d a b y) d a b (fAdd s.nbv (hFmt y) .rne))
def execHmul2 (c : Bool) (d a b : Opc) (y : HTy) (s : State) : Out :=
  .next (s.hp2 (.hmul2 c d a b y) d a b (fMul s.nbv (hFmt y) .rne))
def execHfma2 (c : Bool) (d a b : Opc) (y : HTy) (s : State) : Out :=
  .next (s.hp3 (.hfma2 c d a b y) d a b (fFma s.nbv (hFmt y) .rne))
def execHmax2 (c : Bool) (d a b : Opc) (y : HTy) (s : State) : Out :=
  .next (s.hp2 (.hmax2 c d a b y) d a b (fMinMax s.nbv (hFmt y) true))
def execFdot2h (c : Bool) (d a b : Opc) (y : HTy) (s : State) : Out :=
  .next (s.tri (.fdot2h c d a b y) d a b (fun p q r => fpRes s.fl (fDot2h s.nbv (hFmt y) p q r)))

end Sys2Proof.Machine
end

