-- ==== Sys2Proof/Machine/Convert.lean ====
section
/-! DEFINITION. Conversions (R88-R93), MAJ 0x11 and 0x12. -/

namespace Sys2Proof.Machine

/-- The float format of a conversion type; none for the integer types (Table 3.3). -/
def cFmt : CTy → Option FFmt | .f32 => some Machine.f32 | .f16 => some Machine.f16 | .bf16 => some Machine.bf16 | _ => none
def cBits : CTy → Nat | .i8 | .n8 => 8 | .i16 | .n16 | .f16 | .bf16 => 16 | .i64 | .n64 => 64 | _ => 32
def cSgn : CTy → Bool | .i8 | .i16 | .i32 | .i64 => true | _ => false

/-- The integer a source holds in its type. -/
def cInt (y : CTy) (w : DWord) : Int :=
  if cSgn y then ((w.truncate (cBits y) : BitVec (cBits y))).toInt else (w.toNat % 2 ^ cBits y : Nat)
/-- The range of an integer type. -/
def cLo (e : CTy) : Int := if cSgn e then -(2 ^ (cBits e - 1)) else 0
def cHi (e : CTy) : Int := if cSgn e then 2 ^ (cBits e - 1) - 1 else 2 ^ cBits e - 1

/-- An integer result in its registers: extended to 32 bits, or a pair (R21). -/
def cOut (e : CTy) (z : Int) : LaneRes :=
  if cBits e = 64 then .d (BitVec.ofInt 64 z)
  else .w (extendTo (z % (2 ^ cBits e : Nat)).toNat (cBits e) (cSgn e))

/-- A finite value rounded to an integer in a mode. -/
def toInt (rm : RMode) (s : Bool) (m : Nat) (e : Int) : Int :=
  let n := m * pow2 e
  let d := pow2 (-e)
  let k : Nat := n / d + (roundsUp rm s (n / d) (n % d) d).toNat
  if s then -(k : Int) else k

/-- Float to integer (R89). -/
def floatToInt (fl : BitVec 5) (e : CTy) (rm : RMode) (sat : Bool) (v : Val) : LaneRes :=
  let wrong : LaneRes := match trapFor fl true false false with
    | some f => .trap f
    | none => cOut e (if cSgn e then cLo e else cHi e)
  let z : Option Int := match v with
    | .nan => none
    | .inf s => some (if s then -(2 ^ 200) else 2 ^ 200)
    | .fin s m q => some (toInt rm s m q)
  match z with
  | none => if sat then cOut e 0 else wrong
  | some z =>
    if sat then cOut e (max (cLo e) (min (cHi e) z))
    else if cLo e ≤ z && z ≤ cHi e then cOut e z else wrong

/-- Integer to float (R89): an overflow gives an infinity in every mode. R89 names it for 64-bit sources only; a 32-bit
integer beyond FP16's range is taken the same way (log 53). -/
def intToFloat (g : FFmt) (rm : RMode) (z : Int) : FRes :=
  let r := g.round rm (.fin (z < 0) z.natAbs 0)
  if r.ovf then { r with bits := g.inf (z < 0) } else r

/-- CVT from type y to type e (R89). -/
def cvtRes (nbv : Nat) (fl : BitVec 5) (e y : CTy) (rm : RMode) (sat : Bool) (w : DWord) : LaneRes :=
  match cFmt e, cFmt y with
  | some g, some f => fpRes fl (finish nbv g rm [(f, w.toNat % 2 ^ cBits y)] (some (f.val (w.toNat % 2 ^ cBits y))))
  | some g, none => fpRes fl (intToFloat g rm (cInt y w))
  | none, some f => floatToInt fl e rm sat (f.val (w.toNat % 2 ^ cBits y))
  | none, none => cOut e (if sat then max (cLo e) (min (cHi e) (cInt y w)) else cInt y w)

/-- The block scale of CVTN and CVTW (R91): bits [15:0] of B, or 1. -/
def State.blockScale (s : State) (lane : Nat) (b : Opc) : Nat :=
  if b == 120 then 0x7F00 else (s.src s.iss.gk lane b).toNat % 65536

/-- CVTN (R91). -/
def cvtnRes (fl : BitVec 5) (f : Fmt) (a z : Nat) : LaneRes :=
  let code :=
    if f32.isNan a || z = 0xFFFF then f.nanCode
    else if z = 0 then f.encode (.fin false 0 0) (.fin false 1 0)
    else f.encode (f32.val a) (ks16 z)
  fpRes fl { bits := code, iv := f32.isSnan a }

/-- CVTW (R92). -/
def cvtwRes (fl : BitVec 5) (f : Fmt) (a z : Nat) : LaneRes :=
  fpRes fl (f32.round .rne (f.value (a % 2 ^ codeBits f) (ks16 z)))

/-- A word that names a format slot: an empty slot raises ILLEGAL_OPERAND (R93). -/
def State.slotWord (s : State) (f : BitVec 3) (body : Fmt → State) : State :=
  let k := s.kern s.iss.gk
  if k.fmtEmpty f.toNat then s.raiseAll (.of fcILLEGAL_OPERAND) else body (k.fmt f.toNat)

def execCvt (c : Bool) (d a : Opc) (e : CTy) (r : RMode) (u : Bool) (y : CTy) (s : State) : Out :=
  .next (s.compute (.cvt c d a e r u y) d (fun l =>
    cvtRes s.nbv s.fl e y r u (if cBits y = 64 then s.src64 s.iss.gk l a else joinW 0 (s.src s.iss.gk l a))))
def execCvtn (c : Bool) (d a b : Opc) (f : BitVec 3) (s : State) : Out :=
  .next (s.slotWord f (fun fm => s.compute (.cvtn c d a b f) d (fun l =>
    cvtnRes s.fl fm (s.src s.iss.gk l a).toNat (s.blockScale l b))))
def execCvtw (c : Bool) (d a b : Opc) (f : BitVec 3) (s : State) : Out :=
  .next (s.slotWord f (fun fm => s.compute (.cvtw c d a b f) d (fun l =>
    cvtwRes s.fl fm (s.src s.iss.gk l a).toNat (s.blockScale l b))))

end Sys2Proof.Machine
end

