-- ==== Sys2Proof/Machine/CrossLane.lean ====
section
/-! DEFINITION. Cross-lane and bit-plane words (R111-R116), MAJ 0x14 to 0x17. The participants are the lanes of the
issue; every other position contributes what R112 says. -/

namespace Sys2Proof.Machine

/-- Lanes of a segment (R113). -/
def segLen (g : Seg) (width : Nat) : Nat := match g with | .gw => width | .s8 => min 8 width | .s16 => min 16 width | .s32 => min 32 width

/-- The lane that SHFL reads for a lane, if its index is in range (R113). -/
def shflSrc (h : ShMode) (s lane k : Nat) : Option Nat :=
  let base := lane / s * s
  match h with
  | .idx => if k < s then some (base + k) else none
  | .up => if k ≤ lane - base then some (lane - k) else none
  | .down => if k < base + s - lane then some (lane + k) else none
  | .xor => if k < s then some (lane ^^^ k) else none

/-! ### Trees (R36) -/

/-- The identity of a lane reduction (R36). -/
def lopId : Lop → Nat
  | .iadd | .or | .xor => 0
  | .fadd => 2 ^ 31
  | .iminI => 0x7FFFFFFF
  | .iminN | .and => 0xFFFFFFFF
  | .imaxI => 0x80000000
  | .imaxN => 0
  | .fmin => f32.inf false
  | .fmax => f32.inf true

/-- One operation of a tree. -/
def lopRes (nbv : Nat) (o : Lop) (x y : Nat) : FRes :=
  let a := BitVec.ofNat 32 x
  let b := BitVec.ofNat 32 y
  match o with
  | .iadd => { bits := (a + b).toNat }
  | .fadd => fAdd nbv f32 .rne x y
  | .iminI => { bits := (minW .i a b).toNat }
  | .iminN => { bits := (minW .n a b).toNat }
  | .imaxI => { bits := (maxW .i a b).toNat }
  | .imaxN => { bits := (maxW .n a b).toNat }
  | .fmin => fMinMax nbv f32 false x y
  | .fmax => fMinMax nbv f32 true x y
  | .and => { bits := (a &&& b).toNat }
  | .or => { bits := (a ||| b).toNat }
  | .xor => { bits := (a ^^^ b).toNat }

/-- The values of a tree by position, and the conditions of Table 2.6 that its steps met. -/
structure Tree where
  xs : List Nat
  iv : Bool := false
  ovf : Bool := false
  deriving DecidableEq, Repr

/-- One step: position i takes its value with the one `pairOf` names, all read from before the step. -/
def Tree.go (nbv : Nat) (o : Lop) (t : Tree) (pairOf : Nat → Option (Nat × Nat)) : Tree :=
  let rs := (List.range t.xs.length).map (fun i => match pairOf i with
    | some p => lopRes nbv o (t.xs.getD p.1 0) (t.xs.getD p.2 0)
    | none => { bits := t.xs.getD i 0 })
  { xs := rs.map (·.bits), iv := t.iv || rs.any (·.iv), ovf := t.ovf || rs.any (·.ovf) }

/-- The distances 1, 2, 4, … below a width. -/
def dists (width : Nat) : List Nat := ((List.range 7).map (2 ^ ·)).filter (· < width)

def lredTree (nbv : Nat) (o : Lop) (xs : List Nat) : Tree :=
  (dists xs.length).foldl (fun t d => t.go nbv o (fun i => if i % (2 * d) = 0 then some (i, i + d) else none)) { xs := xs }
/-- Position 0 of a scan meets no operation: its value is delivered as the word's result, a NaN as the version has it
(R19, Table 2.8, log 53). -/
def lscanFirst (nbv : Nat) (o : Lop) (x : Nat) : Nat :=
  match o with
  | .fadd | .fmin | .fmax => if f32.isNan x then nanOf nbv f32 [(f32, x)] else x
  | _ => x
def lscanTree (nbv : Nat) (o : Lop) (xs : List Nat) : Tree :=
  let t : Tree := (dists xs.length).foldl (fun t d => t.go nbv o (fun i => if d ≤ i then some (i - d, i) else none)) { xs := xs }
  { t with xs := t.xs.zipIdx.map (fun p => if p.2 = 0 then lscanFirst nbv o p.1 else p.1) }

/-- The value of each position of the group: A of a participant, else the identity (R112). -/
def State.laneVals (s : State) (a : Opc) (o : Lop) : List Nat :=
  (s.lanesOf s.iss.gk).map (fun l => if s.iss.lanes.contains l then (s.src s.iss.gk l a).toNat else lopId o)

/-- A condition of a tree whose bit is set traps every participant (R114). -/
def Tree.res (t : Tree) (fl : BitVec 5) (v : Nat) : LaneRes :=
  match trapFor fl t.iv false t.ovf with | some f => .trap f | none => .w (BitVec.ofNat 32 v)

/-- The participants whose value meets a test, as a mask (R115). -/
def State.maskWhere (s : State) (f : Nat → Bool) : DWord := maskOf (s.iss.lanes.filter f)

def execShfl (c : Bool) (d a b : Opc) (g : Seg) (h : ShMode) (s : State) : Out :=
  let gk := s.iss.gk
  .next (s.compute (.shfl c d a b g h) d (fun l =>
    match shflSrc h (segLen g (s.group gk).width) l (s.src gk l b).toNat with
    | some m => .w (if s.iss.lanes.contains m then s.src gk m a else s.src gk l a)
    | none => .w (s.src gk l a)))
def execLred (c : Bool) (d a : Opc) (o : Lop) (s : State) : Out :=
  let t := lredTree s.nbv o (s.laneVals a o)
  .next (s.computeAll (.lred c d a o) d (t.res s.fl (t.xs.getD 0 0)))
def execLscan (c : Bool) (d a : Opc) (x : Bool) (o : Lop) (s : State) : Out :=
  let t := lscanTree s.nbv o (s.laneVals a o)
  .next (s.compute (.lscan c d a x o) d (fun l =>
    t.res s.fl (if !x then t.xs.getD l 0 else if l = 0 then lopId o else t.xs.getD (l - 1) 0)))
/-- VOTE.any when v, else VOTE.all (R115). -/
def execVote (c : Bool) (d a : Opc) (v : Bool) (s : State) : Out :=
  let p (l : Nat) : Bool := s.src s.iss.gk l a != 0
  .next (s.computeAll (.vote c d a v) d (.w (boolW (if v then s.iss.lanes.any p else s.iss.lanes.all p))))
def execVoteBallot (c : Bool) (d a : Opc) (s : State) : Out :=
  .next (s.computeAll (.voteBallot c d a) d (.d (s.maskWhere (fun l => s.src s.iss.gk l a != 0))))
def execMatcheq (c : Bool) (d a : Opc) (s : State) : Out :=
  .next (s.compute (.matcheq c d a) d (fun l =>
    .d (s.maskWhere (fun m => s.src s.iss.gk m a == s.src s.iss.gk l a))))
def execBppack (c : Bool) (d a b : Opc) (s : State) : Out :=
  .next (s.compute (.bppack c d a b) d (fun l =>
    let k := (s.src s.iss.gk l b).toNat
    .d (s.maskWhere (fun j => (s.src s.iss.gk j a).getLsbD k))))
def execBpunpack (c : Bool) (d a b : Opc) (s : State) : Out :=
  .next (s.compute (.bpunpack c d a b) d (fun l =>
    let w := (s.src s.iss.gk l b).toNat
    if w = 0 || w > 8 then .trap (.of fcILLEGAL_OPERAND)
    else .w ((List.range w).foldl (fun v i =>
      if s.iss.lanes.contains i && (s.src64 s.iss.gk i a).getLsbD l then v ||| (1 <<< (w - 1 - i)) else v) 0)))

/-- The one bits of a 64-bit value. -/
def popc64 (v : DWord) : Word := BitVec.ofNat 32 ((List.range 64).filter (fun i => v.getLsbD i)).length

def execBpdot (c : Bool) (d a b : Opc) (s : State) : Out :=
  .next (s.compute (.bpdot c d a b) d (fun l =>
    .w (s.src s.iss.gk l d + popc64 (s.src64 s.iss.gk l a &&& s.src64 s.iss.gk l b))))
def execBpslice (c : Bool) (d a b : Opc) (s : State) : Out :=
  .next (s.compute (.bpslice c d a b) d (fun l =>
    let v := (s.src s.iss.gk l b).toNat
    let o := v % 64
    let n := min (v / 256 % 128) (64 - o)
    .d ((s.src64 s.iss.gk l a >>> o) &&& BitVec.ofNat 64 (2 ^ n - 1))))

end Sys2Proof.Machine
end

