-- ==== Sys2Proof/Machine/Directory.lean ====
section
/-! DEFINITION. The directory of a package and the lines of its L2s (R315-R319, Tables 18.1, 18.2). The protocol moves
lines; the ordering machine says what is read and written (log 9). A line is an aperture address divided by 512. -/

namespace Sys2Proof.Machine

/-- A line of device memory, and a die. -/
def lineOk (line die : Nat) : Bool := devHas (line * 512) 512 && die < 4
def homeOf (line : Nat) : Nat := homeDie (line * 512)

def State.dirSt (s : State) (line : Nat) : DirSt := tget .uncached s.d.dir line

/-- The dies of a directory state. -/
def DirSt.holders : DirSt → List Nat
  | .uncached => []
  | .shared v => (List.range 4).filter v.getLsbD
  | .exclusive o => [o]
def sharedOf (dies : List Nat) : DirSt :=
  if dies.isEmpty then .uncached else .shared (dies.foldl (fun v d => v ||| (1 <<< d)) 0)

/-- A line is in a snoop filter while a die other than its home holds it (R316). -/
def State.setDir (s : State) (line : Nat) (x : DirSt) : State :=
  let others := x.holders.any (· != homeOf line)
  let f := s.d.filter.filter (· != line)
  { s with d := { s.d with dir := tset .uncached s.d.dir line x, filter := if others then f ++ [line] else f } }

/-! ### Requests -/

/-- The request a die has outstanding for a line (R316). -/
def State.dirReq (s : State) (line die : Nat) : Option DirReq :=
  s.d.reqs.find? (fun r => r.line == line && r.die == die && r.kind != .recall)

def ReqKind.isPut : ReqKind → Bool | .puts => true | .pute => true | .putm => true | _ => false

/-- The transaction that keeps a line's home busy. -/
def State.busyReq (s : State) (line : Nat) : Option DirReq :=
  s.d.reqs.find? (fun r => r.line == line && r.active && !r.kind.isPut)

def State.addReq (s : State) (r : DirReq) : State := { s with d := { s.d with reqs := s.d.reqs ++ [r] } }
def State.dropReq (s : State) (r : DirReq) : State := { s with d := { s.d with reqs := s.d.reqs.erase r } }
def State.putReq (s : State) (r r' : DirReq) : State :=
  { s with d := { s.d with reqs := s.d.reqs.map (fun x => if x == r then r' else x) } }

/-- A request's turn at its home: the line is not busy, and no request for it arrived earlier and waits. -/
def State.reqTurn (s : State) (r : DirReq) : Bool :=
  (s.busyReq r.line).isNone && (s.d.reqs.find? (fun x => x.line == r.line && !x.active)) == some r

/-! ### Lines of an L2 (Table 18.2) -/

/-- A line that its die no longer holds. The home's slice keeps the dirty sectors it stands for. -/
def L2Line.gone (x : L2Line) (atHome : Bool) : L2Line := if atHome then { st := .i, valid := x.dirty, dirty := x.dirty } else {}

def State.setLine (s : State) (line die : Nat) (st : L2St) : State :=
  let x := s.l2Line line die
  s.setL2 line die (if st == .i then x.gone (die == homeOf line) else { x with st := st })

/-- Dirty sectors written to the home slice. -/
def State.toHome (s : State) (line : Nat) (dirty : BitVec 8) : State :=
  let x := s.l2Line line (homeOf line)
  s.setL2 line (homeOf line) { x with valid := x.valid ||| dirty, dirty := x.dirty ||| dirty }

/-! ### The snoop filter (R318) -/

/-- Lines of a line's home in its set. -/
def State.filterSet (s : State) (line : Nat) : List Nat :=
  s.d.filter.filter (fun l => homeOf l == homeOf line && Config.filterSet l % 4096 == Config.filterSet line % 4096)

/-- Whether a transaction needs an entry that its set has no room for. -/
def State.needsRecall (s : State) (r : DirReq) : Bool :=
  r.die != homeOf r.line && !s.d.filter.contains r.line && (s.filterSet r.line).length ≥ 16

/-- The recall of the least recently used entry of a set, unless one is under way or the entry's line is busy. -/
def State.recall (s : State) (line : Nat) : State :=
  if s.d.reqs.any (fun r => r.kind == .recall && (s.filterSet line).contains r.line) then s
  else match s.filterSet line with
    | [] => s
    | v :: _ =>
      if (s.busyReq v).isSome then s
      else
        let tgt := (s.dirSt v).holders.filter (· != homeOf v)
        s.addReq { line := v, die := homeOf v, kind := .recall, active := true, msgs := tgt, acks := tgt }

/-- A recall whose acknowledgements are all in. -/
def State.recallDone (s : State) (r : DirReq) : State :=
  if r.kind == .recall && r.acks.isEmpty then
    (s.dropReq r).setDir r.line (sharedOf ((s.dirSt r.line).holders.filter (· == homeOf r.line)))
  else s

/-! ### Requests served (Table 18.1) -/

/-- The dies that an Inv or Downgrade goes to for a request. -/
def DirSt.targets (x : DirSt) (r : DirReq) : List Nat :=
  match x, r.kind with
  | .shared _, .gets => []
  | x, _ => x.holders.filter (· != r.die)

/-- A GetS or GetM whose turn has come is served, or recalls an entry for the room it needs. -/
def State.serve (s : State) (line die : Nat) (kind : ReqKind) : State :=
  match s.dirReq line die with
  | none => s
  | some r =>
    if r.kind != kind || r.active || !s.reqTurn r then s
    else if s.needsRecall r then s.recall line
    else
      let tgt := (s.dirSt line).targets r
      s.putReq r { r with active := true, msgs := tgt, acks := tgt }

/-- A die's read or write of a line that it does not hold so sends its request (Table 18.2); each die has one request
for a line at a time. -/
def State.ask (s : State) (line die sector : Nat) (kind : ReqKind) : State :=
  if (s.dirReq line die).isSome then s
  else
    let ask (s : State) (st : L2St) : State :=
      (s.setL2 line die { (s.l2Line line die) with st := st }).addReq
        { line := line, die := die, kind := kind, sectors := 1 <<< (sector % 8) }
    match kind, (s.l2Line line die).st with
    | .gets, .i => ask s .is
    | .getm, .i => ask s .im
    | .getm, .s => ask s .sm
    | _, _ => s

def execGets (line die sector : Nat) (s : State) : Out :=
  .next (if lineOk line die then (s.ask line die sector .gets).serve line die .gets else s)
def execGetm (line die sector : Nat) (s : State) : Out :=
  .next (if lineOk line die then (s.ask line die sector .getm).serve line die .getm else s)

/-- A PutS, PutE or PutM whose turn has come: the die leaves the state, its dirty sectors go to the home slice; one
from a die that is no holder is stale and its sectors are discarded. -/
def State.takePut (s : State) (line die : Nat) (kind : ReqKind) : State :=
  match s.dirReq line die with
  | none => s
  | some r =>
    if r.kind != kind || r.active || !s.reqTurn r then s
    else
      let s := s.putReq r { r with active := true }
      match s.dirSt line with
      | .exclusive o =>
        if o == die && kind != .puts then (s.setDir line .uncached).toHome line r.dirty else s
      | x => if x.holders.contains die then s.setDir line (sharedOf (x.holders.filter (· != die))) else s

def execPuts (line die : Nat) (s : State) : Out := .next (if lineOk line die then s.takePut line die .puts else s)
def execPute (line die : Nat) (s : State) : Out := .next (if lineOk line die then s.takePut line die .pute else s)
def execPutm (line die : Nat) (s : State) : Out := .next (if lineOk line die then s.takePut line die .putm else s)

/-! ### At a die -/

/-- The transaction whose Inv or Downgrade is on its way to a die; a Downgrade serves a GetS. -/
def State.msgTo (s : State) (line die : Nat) (down : Bool) : Option DirReq :=
  (s.busyReq line).filter (fun r => r.msgs.contains die && (r.kind == .gets) == down)

/-- INV: the die's copy goes, by its state; it acknowledges with its dirty sectors. -/
def execInv (line die : Nat) (s : State) : Out :=
  .next (match s.msgTo line die false with
    | none => s
    | some r =>
      let x := s.l2Line line die
      let s := s.putReq r { r with msgs := r.msgs.erase die, dirty := if x.st == .m || x.st == .mi then r.dirty ||| x.dirty else r.dirty }
      match x.st with
      | .s | .e | .m => s.setLine line die .i
      | .sm => s.setL2 line die { x.gone (die == homeOf line) with st := .im }
      | .mi => s.setLine line die .ii
      | _ => s)

/-- DOWNGRADE: the owner keeps the line in S; its dirty sectors are written to the home slice. -/
def execDowngrade (line die : Nat) (s : State) : Out :=
  .next (match s.msgTo line die true with
    | none => s
    | some r =>
      let x := s.l2Line line die
      let s := s.putReq r { r with msgs := r.msgs.erase die, acks := r.acks.erase die }
      match x.st with
      | .e => s.setLine line die .s
      | .m => (s.setL2 line die { x with st := .s, dirty := 0 }).toHome line x.dirty
      | .mi => (s.setLine line die .ii).toHome line x.dirty
      | _ => s)

/-- INV_ACK: the home has a die's acknowledgement; dirty sectors that came with it are written to its slice. -/
def execInvAck (line die : Nat) (s : State) : Out :=
  .next (match s.busyReq line with
    | none => s
    | some r =>
      if r.kind != .gets && r.acks.contains die && !r.msgs.contains die then
        let r' := { r with acks := r.acks.erase die, dirty := 0 }
        ((s.putReq r r').toHome line r.dirty).recallDone r'
      else s)

/-- The state that a grant leaves at the home (Table 18.1). -/
def DirSt.granted (x : DirSt) (r : DirReq) : DirSt :=
  match x, r.kind with
  | .uncached, _ => .exclusive r.die
  | x, .gets => if x == .exclusive r.die then x else sharedOf ((List.range 4).filter (fun d => d == r.die || x.holders.contains d))
  | _, _ => .exclusive r.die

/-- GRANT: every acknowledgement is in; the requesting die has its data and its grant, and its waiting access
completes. -/
def execGrant (line die : Nat) (s : State) : Out :=
  .next (match s.busyReq line with
    | none => s
    | some r =>
      if r.die == die && r.kind != .recall && r.acks.isEmpty then
        let y := (s.dirSt line).granted r
        let s := (s.dropReq r).setDir line y
        let x := s.l2Line line die
        match x.st with
        | .is => s.setL2 line die { x with st := if y == .exclusive die then .e else .s, valid := x.valid ||| r.sectors }
        | .im | .sm => s.setL2 line die { st := .m, valid := x.valid ||| r.sectors, dirty := x.dirty ||| r.sectors }
        | _ => s
      else s)

/-- PUT_ACK: an evicting die has the home's acknowledgement. -/
def execPutAck (line die : Nat) (s : State) : Out :=
  .next (match s.dirReq line die with
    | none => s
    | some r =>
      if r.kind.isPut && r.active then
        let s := s.dropReq r
        match (s.l2Line line die).st with | .mi | .ii => s.setLine line die .i | _ => s
      else s)

/-- A die's copies of the line's sectors of NC pages written to memory and dropped (R319). -/
def State.ncEvict (s : State) (line die : Nat) : State :=
  (List.range 8).foldl (fun s i => s.ncClean die (line * 512 + 64 * i) true) s

/-- L2_EVICTION, by the line's state. A line that its die does not hold may stand for dirty sectors of its home, which
go to memory. -/
def execL2Eviction (line die : Nat) (s : State) : Out :=
  .next (if !lineOk line die then s
    else
      let s := s.ncEvict line die
      let x := s.l2Line line die
      let put (kind : ReqKind) (st : L2St) : State :=
        (s.setLine line die st).addReq { line := line, die := die, kind := kind, dirty := if kind == .putm then x.dirty else 0 }
      if (s.dirReq line die).isSome then s
      else match x.st with
        | .s => put .puts .i
        | .e => put .pute .i
        | .m => put .putm .mi
        | .i => s.setL2 line die {}
        | _ => s)

/-- SECTOR_FETCH: a holder's absent sector. -/
def execSectorFetch (line die sector : Nat) (s : State) : Out :=
  let x := s.l2Line line die
  .next (if lineOk line die && sector < 8 && (x.st == .s || x.st == .e || x.st == .m) then
      s.setL2 line die { x with valid := x.valid ||| (1 <<< sector) }
    else s)

end Sys2Proof.Machine
end

