-- ==== Sys2Proof/Machine/Epilogue.lean ====
section
/-! DEFINITION. E-words (R200-R203): each acts on the 128 columns of the row in progress. -/

namespace Sys2Proof.Machine

/-- The entry whose row is in progress. -/
def State.epiOp (s : State) : ArrOp := (s.arrOp s.e.epi.op).getD (mkOp ⟨0, 0, 0, 0, 0⟩ (.claim 0) none)
def State.epiKern (s : State) : Kern := (s.team s.epiOp.tk).kern

/-- The program goes on at its next word. -/
def State.enext (s : State) : State :=
  { s with e := { s.e with epi := { s.e.epi with prog := s.e.epi.prog.drop 1 } } }

/-- One register of every column written from a function of the column. -/
def State.ecol (s : State) (d : BitVec 4) (f : Nat → Nat) : Out := .next (s.setE d.toNat f).enext
/-- The register a field names, for a column. -/
def State.er (s : State) (j : Nat) (n : BitVec 4) : Nat := s.ereg j n.toNat

/-- A NaN becomes the canonical one. -/
def ecanon (w : Nat) : Nat := if f32.isNan w then f32.qnan else w

def execEadd (d a b : BitVec 4) (s : State) : Out := s.ecol d (fun j => engAdd (s.er j a) (s.er j b))
def execEsub (d a b : BitVec 4) (s : State) : Out := s.ecol d (fun j => engSub (s.er j a) (s.er j b))
def execEmul (d a b : BitVec 4) (s : State) : Out := s.ecol d (fun j => engMul (s.er j a) (s.er j b))
def execEfma (d a b : BitVec 4) (s : State) : Out := s.ecol d (fun j => engFma (s.er j a) (s.er j b) (s.er j d))
def execEmax (d a b : BitVec 4) (s : State) : Out := s.ecol d (fun j => engMinMax true (s.er j a) (s.er j b))
def execEmin (d a b : BitVec 4) (s : State) : Out := s.ecol d (fun j => engMinMax false (s.er j a) (s.er j b))
def execEtanh (d a : BitVec 4) (s : State) : Out := s.ecol d (fun j => canon (fTanh s.epiKern.nbv (s.er j a)))
def execEexp (d a : BitVec 4) (s : State) : Out := s.ecol d (fun j => canon (fExp2 s.epiKern.nbv (s.er j a)))
def execErcp (d a : BitVec 4) (s : State) : Out := s.ecol d (fun j => canon (fRcp s.epiKern.nbv (s.er j a)))

/-- The team whose entry read a poisoned byte is killed (R353): unit 6 of its core, uncorrectable (Table 22.5). -/
def State.poisonKill (s : State) (x : ArrOp) (l : Loc) : State := s.killTeam x.tk 6 x.core l.space.2 2

/-- Words of the vector block (R193, R200). -/
def State.evec (s : State) (d : BitVec 4) (wordOf : Nat → Nat) : Out :=
  let x := s.epiOp
  let at_ (j : Nat) : Nat := bitField x.record.toNat 192 32 + 4 * wordOf j
  let bad := (columns.flatMap (fun j => (List.range 4).map (fun i => x.at 1 (at_ j + i)))).find? (fun l => (s.hitsPoison l 1).isSome)
  match bad with
  | some l => .next (s.poisonKill x l)
  | none =>
    let r := columns.foldl (fun (p : List Nat × State) j =>
      let (v, s) := p.2.readPins x.core (x.at 1) (at_ j) 4
      (p.1 ++ [ecanon v], s)) ([], s)
    r.2.ecol d (fun j => r.1.getD j 0)

def execEldrow (d : BitVec 4) (s : State) : Out := s.evec d (fun _ => 128 + s.epiOp.row)
def execEldcol (d : BitVec 4) (s : State) : Out := s.evec d (fun j => j)

/-- ECVT: through the encoding of a format slot and back, with a block scale of 1. -/
def execEcvt (d a : BitVec 4) (f : BitVec 3) (s : State) : Out :=
  let fm := s.epiKern.fmt f.toNat
  let one : Val := .fin false 1 0
  s.ecol d (fun j => canon (f32.round .rne (fm.value (fm.encode (f32.val (s.er j a)) one) one)))

/-- The update of the amax word with a value, as atom.max.n32; none when it must wait (R294, R295). -/
def State.amaxPut (s : State) (id : Nat) (x : ArrOp) (v : Nat) : Option State :=
  let l := x.at 2 (bitField x.record.toNat 128 64)
  let gk := x.detGk
  match s.detAct gk l (.atomic .maxN32 0 0 false) with
  | .buffer => some (s.detEnter gk x.core (.atomic .maxN32 0 0 false) l 4 (BitVec.ofNat 128 v))
  | .normal | .overlay =>
    let (old, s) := s.readNow x.core l 4
    let t := ((s.writeNow x.core l 4 (max old v)).setRel l 4 []).detMark gk l false
    match t.arrOp id with
    | some y => some (t.setArrOp id (some { y with wrote := t.wroteAt x.core l 4 ++ y.wrote }))
    | none => some t
  | _ => none

def execEamax (a : BitVec 4) (s : State) : Out :=
  let x := s.epiOp
  let m := columns.foldl (fun m j => max m (ecanon (s.er j a) % 2 ^ 31)) 0
  let l := x.at 2 (bitField x.record.toNat 128 64)
  .next (match s.hitsPoison l 4 with
    | some _ => s.poisonKill x l
    | none => match s.amaxPut s.e.epi.op x m with
      | some s => s.enext
      | none => s)

/-- One level of a pairwise tree (R36). -/
def pairUp (f : Nat → Nat → Nat) : List Nat → List Nat
  | a :: b :: t => f a b :: pairUp f t
  | t => t
/-- The tree of R36 over 128 values. -/
def eTree (f : Nat → Nat → Nat) (xs : List Nat) : Nat :=
  ((List.range 7).foldl (fun xs _ => pairUp f xs) xs).headD 0

/-- ESMX: the softmax of a register over the row. -/
def execEsmx (d a : BitVec 4) (s : State) : Out :=
  let nbv := s.epiKern.nbv
  let m := eTree (engFMax nbv true) (columns.map (fun j => s.er j a))
  let ts := columns.map (fun j => canon (fExp2 nbv (engSub (s.er j a) m)))
  let r := canon (fRcp nbv (eTree engAdd ts))
  s.ecol d (fun j => if m = f32.inf true then 0 else engMul (ts.getD j 0) r)

/-- EEND: the row is written and the next one may begin (R200). -/
def execEend (s : State) : Out :=
  let x := s.epiOp
  let f := match x.kind with | .drain _ _ f _ => f | _ => 0
  .next (match s.rowWrite s.e.epi.op x f with
    | some s =>
      let y := (s.arrOp s.e.epi.op).getD x
      ({ s with e := { s.e with epi := {} } }).setArrOp s.e.epi.op (some { y with row := x.row + 1 })
    | none => s)

end Sys2Proof.Machine
end

