-- ==== Sys2Proof/Machine/EngineEvents.lean ====
section
/-! DEFINITION. The events of the engines, the array FIFO and the epilogue processor (R156, R195, R200), of Marten and
of Beaver (R228-R242). -/

namespace Sys2Proof.Machine

def execEngineComplete (th : Nat) (s : State) : Out := .next (s.engineDone th)

/-- ARRAY_OP_START (R195). -/
def execArrayOpStart (op : Nat) (s : State) : Out := .next (s.arrayStart op)

/-- An entry's reads that meet poison. -/
def State.poisonAt (s : State) (x : ArrOp) : Nat :=
  match x.pins.findSome? (fun p => s.r.poison.find? (fun q => match p.loc with
    | .dev a _ _ => a / 65536 == q * 64 / 65536 | _ => false)) with
  | some q => q * 64
  | none => 0

/-- What an operation has written, added where its join is made (R209). -/
def State.keepWrote (s : State) (key : Nat) (ws : List (Nat × Nat × Nat)) : State :=
  if ws.isEmpty then s else { s with t := { s.t with tagWrote := tset [] s.t.tagWrote key (tget [] s.t.tagWrote key ++ ws) } }

/-- An entry has finished: it leaves the FIFO, with the arrival it was asked for; what the sequencer entered joins its
history, for its next MBARARR or MPOST (R208, R209). -/
def State.arrDone (s : State) (id : Nat) (x : ArrOp) : State :=
  let s := if x.gk = 0 then (s.addHist (seqAgent x.tk) (s.hist (thAgent id))).keepWrote (seqWrote x.tk) x.wrote else s
  s.arrLeave id x (fun s tk n a => (s.keepWrote (barAgent tk n (s.bar tk n).gen) x.wrote).arrive tk n [a])

/-! ### Sides that meet an entry (R217) -/

/-- The words of the region that an entry reads or writes, by byte in its core's accumulators. -/
def ArrOp.meetWords (x : ArrOp) : List Nat :=
  match x.kind with
  | .zeroRegion r | .mma _ _ _ _ _ _ r _ _ => (List.range 16384).map (fun i => r * 65536 + 4 * i)
  | .drain r _ _ _ => columns.map (fun j => wordOff r x.row j)
  | _ => []

/-- The sides on their way to the region of an entry, whose additions no join has put before it or after it. -/
def State.meeting (s : State) (x : ArrOp) : List Nat :=
  let here (b : Nat) : Bool := match x.kind with
    | .zeroRegion r | .mma _ _ _ _ _ _ r _ _ | .drain r _ _ _ => b / 65536 == r | _ => false
  s.e.sides.filterMap (fun p => p.2.bind (fun sd => match s.thread sd.th with
    | some y => if sd.tk == x.tk && y.core == x.core && here sd.key then some p.1 else none
    | none => none))

/-- Those of them that are taken with the entry: a free choice for each (R217, log 2). -/
def State.meetNow (s : State) : List Nat → List Nat × State
  | [] => ([], s)
  | id :: ids =>
    let (v, s) := s.draw
    let (r, s) := State.meetNow s ids
    (if v.getLsbD 0 then id :: r else r, s)

/-- A running EXACT sum of a slot word that an entry has changed goes on from the integer that the word now holds. -/
def State.rebase (old s : State) (x : ArrOp) : State :=
  let k := s.opIdx x
  { s with t := { s.t with exact := s.t.exact.map (fun p =>
    match s.thread (p.1 / 2 ^ 32) with
    | some y =>
      let b := p.1 % 2 ^ 32
      let m := (BitVec.ofNat 128 (old.accRead x.tk k b 16)).toInt
      let n := (BitVec.ofNat 128 (s.accRead x.tk k b 16)).toInt
      if p.2.live && y.tk == x.tk && y.core == x.core && m != n then
        (p.1, { p.2 with sum := p.2.sum - p.2.start + n, start := n }) else p
    | none => p) } }

/-- An entry's effect on its region, met by sides: each word is as though the sides' additions came before the entry's access to
it, or after (R217). -/
def State.mixWords (b a : State) (x : ArrOp) : State :=
  let k := b.opIdx x
  x.meetWords.foldl (fun s o =>
    let v := b.accRead x.tk k o 4
    let w := a.accRead x.tk k o 4
    if v = w then s
    else
      let (f, s) := s.draw
      if f.getLsbD 0 then s.accWrite x.tk k o 4 w else s) b

/-- What an entry does, with the sides that meet it. -/
def State.runMet (s : State) (x : ArrOp) : Option State :=
  let (ids, s) := if s.meeting x = [] then ([], s) else s.meetNow (s.meeting x)
  let put (s : State) : State := ids.foldl State.sideApply s
  (s.runEntry x).bind (fun a =>
    let after := put (s.rebase a x)
    if ids.isEmpty then some after
    else ((put s).runEntry x).map (fun b => ((put s).rebase b x).mixWords after x))

/-- The row of a drain that begins, with the sides that meet it: each word is read before their additions or after. -/
def State.rowMet (s : State) (id : Nat) (x : ArrOp) (r : Nat) (kind : RegionKind) : State :=
  let (ids, s) := if s.meeting x = [] then ([], s) else s.meetNow (s.meeting x)
  if ids.isEmpty then s.rowStart id x r kind
  else
    let b := ids.foldl State.sideApply s
    let t := b.mixWords s x
    let m := t.rowStart id x r kind
    { m with t := { m.t with acc := b.t.acc } }

/-- ARRAY_OP_FINISH (R195-R200): what the entry does takes place, row by row for a TLOAD. An entry that reads poison kills its team
(R353); one that reaches a slice that is gone ends there (R254, log 56). -/
def execArrayOpFinish (op : Nat) (s : State) : Out :=
  .next (match s.arrOp op with
    | some x =>
      if !x.started || x.finished then s
      else match x.kind with
        | .drain .. => if x.row ≥ 128 then s.arrDone op x else s
        | .load .. =>
          if x.row ≥ 128 || s.arrGone x (s.loadLocs x) then s.arrDone op x
          else if !s.arrClear op x (s.loadLocs x) then s
          else match s.deferAll x.detGk (s.loadLocs x) .load with
            | some s => s
            | none => match s.runEntry x with
              | some s => s.setArrOp op (some { x with row := x.row + 1 })
              | none => s.killTeam x.tk 6 x.core (s.poisonAt x) 2
        | _ => match s.runMet x with
          | some s => s.arrDone op x
          | none => s
    | none => s)

/-- The row that is next can be written whole, and its amax update made (R294, R295). -/
def State.rowReady (s : State) (id : Nat) (x : ArrOp) (f : Nat) : Bool :=
  match (if epiUses x.prog isAmax then s.amaxPut id x 0 else some s) with
  | some s => (s.rowWrite id x f).isSome
  | none => false

/-- EPILOGUE_ROW (R200): the next row of a running drain begins; its program then runs word by word. -/
def execEpilogueRow (op : Nat) (s : State) : Out :=
  .next (match s.arrOp op with
    | some x => match x.kind with
      | .drain r kind f _ =>
        let d := x.record.toNat
        let amax := if epiUses x.prog isAmax then (List.range 4).map (fun i => x.at 2 (bitField d 128 64 + i)) else []
        let vec := if epiUses x.prog isVec then (List.range 1024).map (fun i => x.at 1 (bitField d 192 32 + i)) else []
        let ls := s.rowLocs x f ++ amax
        if !(x.started && !x.finished && x.row < 128 && s.e.epi.prog.isEmpty) || (s.team x.tk).stops then s
        else if s.arrGone x ls then s.arrDone op x
        else if !s.arrClear op x (ls ++ vec) then s
        else if s.rowReady op x f then s.rowMet op x r kind
        else (s.deferAll x.detGk (s.rowLocs x f ++ amax.take 1) .store).getD s
      | _ => s
    | none => s)

/-! ### Marten and Beaver -/

def execMartenBinning (th : Nat) (s : State) : Out := .next (s.martenBin th)
def execPairGroupStart (th : Nat) (s : State) : Out := .next (s.pairGroupStart th)
def execSideApply (side : Nat) (s : State) : Out := .next (s.sideApply side)
def execExactFinish (th : Nat) (s : State) : Out := .next (s.exactFinish th)
def execPairLaunchComplete (th : Nat) (s : State) : Out := .next (s.pairComplete th)

end Sys2Proof.Machine
end

