-- ==== Sys2Proof/Machine/Engines.lean ====
section
/-! DEFINITION. Engine words (R157-R163) and fabric engine words (R173, R175, R176), MAJ 0x20 and 0x23. -/

namespace Sys2Proof.Machine

/-- The scalar block of n registers from s(A). -/
def State.block (s : State) (a : Opc) (n : Nat) : List Word :=
  (List.range n).map (fun i => s.sreg s.iss.gk (a.toNat - 96 + i))

/-- An engine word that runs once per issue: every fault at issue carries its tag (Table 22.1). -/
def State.engineWord (s : State) (i : Instr) (tag : BitVec 6) (body : State → ORes) : State :=
  if !operandsOk (s.group s.iss.gk).regs i then s.raiseAll (faultTag fcILLEGAL_OPERAND tag.toNat)
  else s.once (body s)

def execCopy (c : Bool) (t : BitVec 6) (p q : BitVec 3) (a : Opc) (s : State) : Out :=
  .next (s.engineWord (.copy c t p q a) t (fun s =>
    s.copyIssue s.iss.gk s.low t.toNat p.toNat q.toNat (s.block a 6) false))
def execCopy2d (c : Bool) (t : BitVec 6) (p q : BitVec 3) (a : Opc) (s : State) : Out :=
  .next (s.engineWord (.copy2d c t p q a) t (fun s =>
    s.copyIssue s.iss.gk s.low t.toNat p.toNat q.toNat (s.block a 8) true))
def execChain (c : Bool) (t : BitVec 6) (p q : BitVec 3) (a : Opc) (s : State) : Out :=
  .next (s.engineWord (.chain c t p q a) t (fun s =>
    s.chainIssue s.iss.gk s.low t.toNat p.toNat q.toNat (s.block a 8)))
def execFbulk (c : Bool) (t : BitVec 6) (p q : BitVec 3) (a : Opc) (s : State) : Out :=
  .next (s.engineWord (.fbulk c t p q a) t (fun s =>
    s.fbulkIssue s.iss.gk s.low t.toNat p.toNat q.toNat (s.block a 6)))
def execFred (c : Bool) (t : BitVec 6) (p : BitVec 3) (a : Opc) (s : State) : Out :=
  .next (s.engineWord (.fred c t p a) t (fun s => s.fredIssue s.iss.gk s.low t.toNat p.toNat (s.block a 2)))
def execFrlease (c : Bool) (t : BitVec 6) (p q : BitVec 3) (a : Opc) (s : State) : Out :=
  .next (s.engineWord (.frlease c t p q a) t (fun s =>
    s.frleaseIssue s.iss.gk s.low t.toNat p.toNat q.toNat (s.block a 4)))

/-! ### Words that act for each executing lane (R162) -/

/-- Vectors of q1 queued or in flight. -/
def Group.q1Held (g : Group) : Nat := g.q1.length + g.q1fly

/-- The accesses of the executing lanes that pass their checks: (lane, offset, value); the others, with their faults. -/
def State.vecLanes (s : State) (a : Opc) (c : Cap) (need tag : Nat) (val : Nat → Word) :
    List (Nat × Nat × Word) × List (Nat × FaultInfo) :=
  s.iss.lanes.foldr (fun l (ok, bad) =>
    let off := (s.src s.iss.gk l a).toNat * 4
    match s.capCheckAll (s.kern s.iss.gk).ctx c (if need = rA then allowAtom else allowAll) need off 4 with
    | some f => (ok, (l, f.withTag tag) :: bad)
    | none =>
      if s.gwinIn (s.group s.iss.gk).tk c off 4 then ((l, off, val l) :: ok, bad)
      else (ok, (l, (capFault fcCAP_BOUNDS c off).withTag tag) :: bad)) ([], [])

/-- Values that share an index merged in ascending lane order, each index at its first lane (Table 2.7). -/
def mergeDup (f32add : Bool) : List (Nat × Nat × Word) → List (Nat × Nat × Word) → List (Nat × Nat × Word)
  | acc, [] => acc
  | acc, (l, off, v) :: rest =>
    let add (x : Word) : Word := if f32add then BitVec.ofNat 32 (engAdd x.toNat v.toNat) else x + v
    let acc := if acc.any (fun p => p.2.1 == off) then
        acc.map (fun p => if p.2.1 == off then (p.1, off, add p.2.2) else p)
      else acc ++ [(l, off, v)]
    mergeDup f32add acc rest

/-- A thread forked by several lanes carries the history of each (R268). -/
def State.forkLanes (s : State) (gk : Nat) (lanes : List Nat) (x : Thread) : State :=
  let r := s.fork x
  lanes.foldl (fun s l => s.addHist (thAgent r.1) (s.hist (lkOf gk l))) r.2

/-- GATHER, SCATTER and SCATADD: the faulting lanes park, and a thread forks for the others. A GATHER appends its vector
even where every lane faults. -/
def State.vecWord (s : State) (i : Instr) (kind : ThreadKind) (tag : BitVec 6) (cap : BitVec 3) (a : Opc) (need : Nat)
    (val : State → Nat → Word) (merge : List (Nat × Nat × Word) → List (Nat × Nat × Word)) : State :=
  let gk := s.iss.gk
  let g := s.group gk
  let c := s.creg gk cap.toNat
  if !operandsOk g.regs i then s.raiseAll (faultTag fcILLEGAL_OPERAND tag.toNat)
  else if popsQ1 i && g.q1.isEmpty then s.waitAll .q1
  else match s.tagCheck gk tag.toNat with
    | some f => s.raiseAll f
    | none =>
      if kind == .gather && g.q1Held ≥ 8 then s.waitAll .place
      else if s.acqAny then s.waitAll (.order none)
      else
        let r := s.vecLanes a c need tag.toNat (val s)
        let s := if popsQ1 i then s.popQ1 gk else s
        let s := if r.1.isEmpty && kind != .gather then s
          else
            let x := { mkThread kind g.tk gk s.low g.core tag.toNat [] (if kind == .gather then 0 else c)
              (if kind == .gather then c else 0) with lanes := merge r.1 }
            let s := (s.forkLanes gk (r.1.map (·.1)) x)
            if kind == .gather then s.modGroup gk (fun g => { g with q1fly := g.q1fly + 1 }) else s
        let s := r.1.foldl (fun s p => s.advLane (lkOf gk p.1)) s
        r.2.foldl (fun s p => s.raise (lkOf gk p.1) s.here p.2) s

def execGather (c : Bool) (t : BitVec 6) (q : BitVec 3) (a : Opc) (s : State) : Out :=
  .next (s.vecWord (.gather c t q a) .gather t q a rR (fun _ _ => 0) id)
def execScatter (c : Bool) (t : BitVec 6) (p : BitVec 3) (a : Opc) (s : State) : Out :=
  .next (s.vecWord (.scatter c t p a) .scatter t p a rW (fun s l => s.src s.iss.gk l (a + 1)) id)
/-- SCATADD: `z` false adds FP32, true adds integers. -/
def execScatadd (c : Bool) (t : BitVec 6) (p : BitVec 3) (a : Opc) (z : Bool) (s : State) : Out :=
  .next (s.vecWord (.scatadd c t p a z) (if z then .scataddB else .scataddF) t p a rA
    (fun s l => s.src s.iss.gk l (a + 1)) (mergeDup (!z) []))

end Sys2Proof.Machine
end

