-- ==== Sys2Proof/Machine/Errors.lean ====
section
/-! DEFINITION. Soft errors (R352-R356), relaunch (R354), power (R12), bring-up (R357-R360) and updates (R358). -/

namespace Sys2Proof.Machine

/-! ### Corrected errors (R356) -/

/-- A unit's count rises by one; at a multiple of CETHRESH its event is due. -/
def State.countError (s : State) (unit num : Nat) : State :=
  let n : Word := tget 0 s.r.ce (ceKey unit num) + 1
  let thresh := Config.ceThresh s.r.running.config
  let due := thresh != 0 && n.toNat % thresh == 0
  { s with r := { s.r with
    ce := tset 0 s.r.ce (ceKey unit num) n
    ceDue := if due then s.r.ceDue ++ [ceKey unit num] else s.r.ceDue } }

/-- The units that there are (Tables 1.3 and 22.5): cores, L2 slices by die * 384 + slice, HBM stacks; Tier-2 memory and the Ivven
Link are one, and die links count from 0 to 5. -/
def unitIs (unit num : Nat) : Bool :=
  match unit with
  | 1 | 2 | 6 | 7 => num < 128
  | 3 => num < 4 * 384
  | 4 => num < 8
  | 5 | 9 => num = 0
  | 8 => num < 6
  | _ => false

/-- CORRECTED_ERROR; an error of a unit whose event is due comes after it. -/
def execCorrectedError (unit num : Nat) (s : State) : Out :=
  .next (if !s.r.power || !unitIs unit num || s.r.ceDue.contains (ceKey unit num) then s else s.countError unit num)

/-- The die of a unit by its number (Table 1.3): L2 slices count 384 to a die, HBM stacks two. -/
def unitDie (unit num : Nat) : Nat :=
  match unit with | 3 => num / 384 % 4 | 4 => num / 2 % 4 | 5 => 0 | 8 => 0 | 9 => 0 | _ => dieOf num % 4
def unitNo (unit num : Nat) : Nat := if unit = 3 then num % 384 else num

/-- CE_THRESHOLD: the ERROR event of KIND 1. -/
def execCeThreshold (unit num : Nat) (s : State) : Out :=
  .next (if s.r.ceDue.contains (ceKey unit num) then
      let s := { s with r := { s.r with ceDue := s.r.ceDue.erase (ceKey unit num) } }
      s.sendEvent 6 noCtx (ErrorInfo.payload
        { count := s.ceCount unit num, num := unitNo unit num, die := unitDie unit num, unit := unit, kind := 1 })
    else s)

/-! ### Uncorrectable errors (Table 22.3) -/

/-- An ERROR event that names no team. -/
def State.plainError (s : State) (unit num addr action kind : Nat) : State :=
  s.sendEvent 6 noCtx (ErrorInfo.payload
    { addr := addr, count := s.ceCount unit num, num := unitNo unit num, die := unitDie unit num, action := action, unit := unit
      kind := kind })

/-- A clean sector: refetched, and counted as corrected. -/
def State.refetch (s : State) (unit num addr : Nat) : State := (s.countError unit num).plainError unit num addr 2 2

/-- A dirty sector, or a sector of memory: marked poisoned (R353). -/
def State.poison (s : State) (unit num addr : Nat) : State :=
  let s := { s with r := { s.r with poison := if s.r.poison.contains (addr / 64) then s.r.poison else s.r.poison ++ [addr / 64] } }
  s.plainError unit num addr 3 2

/-- An error in storage that only one team holds: the team is killed; storage that no team holds loses nothing. -/
def State.strike (s : State) (tk : Option Nat) (unit num addr kind : Nat) : State :=
  match tk with
  | some tk => if (s.team tk).live then s.killTeam tk unit num addr kind else s.plainError unit num addr 0 kind
  | none => s.plainError unit num addr 0 kind

/-- Banks of a role below a bank of a core. -/
def banksBelow (b : DWord) (role bank : Nat) : Nat := ((List.range bank).filter (fun i => bitField b.toNat (2 * i) 2 == role)).length

/-- An error in a core's local store: `addr` is the byte in it. Above it stand the landing buffer's words, at 2^22, and
the sectors that the L1 holds, by their aperture addresses. -/
def State.localError (s : State) (core addr : Nat) : State :=
  if addr ≥ 2 ^ 40 then
    if (s.coreBuf core).any (fun b => overlaps b.loc b.size (.dev (addr / 64 * 64) .wb false) 64) then s.poison 1 core addr
    else s.refetch 1 core addr
  else if addr ≥ 2 ^ 22 then
    s.strike (((s.t.landing.filter (fun e => e.core == core))[(addr - 2 ^ 22) / 4]?).map (·.tk)) 1 core addr 2
  else
    let bank := addr / bankBytes
    let b := s.bankrole core
    let role := bitField b.toNat (2 * bank) 2
    let o := banksBelow b role bank * bankBytes + addr % bankBytes
    match role with
    | 0 => s.refetch 1 core addr
    | 1 => s.strike ((s.poolScr core o).map (·.1)) 1 core addr 2
    | 2 => s.strike ((s.poolReg core o).map (fun p => (s.group p.1).tk)) 1 core addr 2
    | _ =>
      -- operand slots: slot bank * 8 + position (Table 1.3)
      let n := bank * 8 + addr % bankBytes / 16384
      s.strike (((s.teamsOn core).find? (fun p =>
        let k := p.2.cores.idxOf core
        (tslice s.t.slots (slotKey p.1 k 0) (slotKey p.1 k 64)).any (fun q => q.2.any (·.num == n)))).map (·.1)) 1 core addr 2

/-- A sector held dirty in a die's L2 (R317, R319). -/
def State.l2Dirty (s : State) (die addr : Nat) : Bool :=
  (s.l2Line (addr / 512) die).dirty.getLsbD (sectorNo addr) ||
  (match tget none s.o.nc (ncKey die addr) with | some c => c.dirty != 0 | none => false)

/-- UNCORRECTABLE_ERROR of a unit (Table 22.5's numbers). For the matrix array and the Beaver adders `addr` 0 is a
first mismatch, any other a second. -/
def execUncorrectableError (unit num addr : Nat) (s : State) : Out :=
  .next (if !s.r.power then s
    else match unit with
    | 1 => if num < 128 then s.localError num addr else s
    | 2 => if num < 128 && addr < 24 * 65536 then s.strike ((s.poolAcc num addr).map (·.1)) 2 num addr 2 else s
    | 3 =>
      if num < 4 * 384 && devHas (addr / 64 * 64) 64 && sliceOf (lineNo addr) == num % 384 then
        (if s.l2Dirty (num / 384) addr then s.poison 3 num addr else s.refetch 3 num addr)
      else s
    | 4 => if num < 8 && hbmBase (num / 2) ≤ addr && addr < hbmBase (num / 2) + hbmBytes then s.poison 4 num addr else s
    | 5 => if tier2Base ≤ addr && addr < tier2Base + tier2Bytes then s.poison 5 num addr else s
    | 6 =>
      let run := s.e.fifo.findSome? (fun p => match p.2 with
        | some x => if x.core == num && x.started && !x.finished && x.unitOf == 1 then some x.tk else none | none => none)
      match run with
      | some tk => if addr = 0 then s.errorEvent noCtx { num := num, die := dieOf num, action := 1, unit := 6, kind := 3 }
        else s.killTeam tk 6 num 0 3
      | none => s
    | 7 =>
      let run := s.e.sides.findSome? (fun p => match p.2 with
        | some sd => (match s.thread sd.th with | some x => if x.core == num then some sd.tk else none | none => none)
        | none => none)
      match run with
      | some tk => if addr = 0 then s.errorEvent noCtx { num := num, die := dieOf num, action := 1, unit := 7, kind := 3 }
        else s.killTeam tk 7 num 0 3
      | none => s
    | _ => s)

/-- TASK_RELAUNCH (R354, R255). -/
def execTaskRelaunch (tk : Nat) (cores : List Nat) (s : State) : Out := .next (s.relaunch tk cores)

/-! ### Power (R12, R362) -/

/-- A CLOCK record on every die whose ring is set up, with the count of the fabric unit, whose clocks since it was last looked at
are a free value (R366, log 2). -/
def State.clockRecord (s : State) : State :=
  let (v, s) := s.draw
  let s := { s with f := { s.f with cycles := s.f.cycles + BitVec.ofNat 64 (v.toNat % 2 ^ 32) } }
  (List.range 4).foldl (fun s die =>
    if (s.owl die).trlen == 0 then s
    else s.trace die (fld s.f.cycles.toNat 192 64 + fld 7 56 8 + fld s.r.clock 0 32)) s

/-- The clock that a CLKLOCK grant fixes, where one names a legal clock; else the highest (R361, Table 23.8). -/
def State.clockTop (s : State) : Nat :=
  let locked := (List.range 4).filterMap (fun die =>
    let g := (s.owl die).grant.toNat
    let mhz := bitField g 48 16
    if bitField g 0 1 == 1 && 1500 ≤ mhz && mhz ≤ 3000 && mhz % 100 == 0 then some mhz else none)
  match locked with | m :: _ => m | [] => 3000

/-- POWER_OVER_LIMIT: one step down, not below 1.5 GHz. -/
def execPowerOverLimit (s : State) : Out :=
  .next (if s.r.power && s.r.clock ≥ 1600 then { s with r := { s.r with clock := s.r.clock - 100 } }.clockRecord else s)

/-- POWER_UNDER_LIMIT: one step up, not above the highest or the locked clock. -/
def execPowerUnderLimit (s : State) : Out :=
  .next (if s.r.power && s.r.clock + 100 ≤ s.clockTop then { s with r := { s.r with clock := s.r.clock + 100 } } else s)

/-! ### Bring-up (R357-R360) -/

/-- What a reset leaves of a port: the lane map, the spared and the failed lanes, the keys and the cycle counter last until power
is removed (Tables 0.1 and 1.4). -/
def Port.afterReset (p : Port) : Port :=
  { lanemap := p.lanemap, spares := p.spares, dead := p.dead, key := p.key, nextKey := p.nextKey, cycles := p.cycles }

/-- POWER_UP: the module powered, or its reset input: everything at its reset value, but for what lasts until power is
removed (R358, Table 1.4) and the memories, which stage 9 clears; bring-up starts at stage 1. -/
def execPowerUp (s : State) : Out :=
  let owl (w : Owl) : Owl := { trbase := w.trbase, trlen := w.trlen, trprod := w.trprod, trcons := w.trcons }
  .next { State.reset with
    o := { hostMem := s.o.hostMem, mem := s.o.mem, stamp := s.o.stamp }
    h := { devnum := s.h.devnum }
    f := { ports := s.f.ports.foldl (fun t p => tset {} t p.1 p.2.afterReset) [], cycles := s.f.cycles }
    r := { s.r with power := true, clock := 3000, stage := 0, failed := false }
    w := { lcc := s.w.lcc, cycles := s.w.cycles, owl := s.w.owl.foldl (fun t p => tset {} t p.1 (owl p.2)) [] }
    turns := s.turns, free := s.free, next := s.next }

/-- POWER_REMOVED: all is lost but what flash holds, the host's memory and the module's place on the board. -/
def execPowerRemoved (s : State) : Out :=
  .next { State.reset with
    o := { hostMem := s.o.hostMem }
    h := { devnum := s.h.devnum }
    r := { power := false, bankA := s.r.bankA, bankB := s.r.bankB, boots := s.r.boots }
    turns := s.turns, free := s.free, next := s.next }

/-- The bank that the boot ROM runs: of the verifying pairs the one of higher version, bank A on a tie; without such a
pair, the one whose firmware verifies (R358). -/
def Hours.pick (r : Hours) : Option Bool :=
  let fw (b : Bank) : Bool := Config.verifies b.firmware
  let pair (b : Bank) : Bool := fw b && Config.verifies b.config
  match pair r.bankA, pair r.bankB with
  | true, true => some (r.bankB.version > r.bankA.version)
  | true, false => some false
  | false, true => some true
  | false, false => if fw r.bankA then some false else if fw r.bankB then some true else none

/-- Byte k of frame 0 of D0 (Table 22.7): FORMAT, the boot count, what keys and signatures give, and 0 elsewhere. -/
def identityAt (boots k : Nat) : Byte :=
  if k < 4 then (if k = 0 then 1 else 0)
  else if k < 8 then BitVec.ofNat 8 (boots / 256 ^ (k - 4))
  else if (0xE8 ≤ k && k < 0x100) || k ≥ 0x7FC0 then 0
  else Config.identityByte boots k

/-- IDENTITY_RECORD_WRITE (R359): the boot count rises, and frame 0 of D0 is written. -/
def State.writeIdentity (s : State) : State :=
  let boots := s.r.boots + 1
  { s with
    r := { s.r with boots := boots }
    o := { s.o with mem := (List.range 65536).foldl (fun m k => tset memDefault m (hbmBase 0 + k) (identityAt boots k)) s.o.mem } }

/-- What a stage does when it completes (Table 22.6). -/
def State.stageDone (s : State) (n : Nat) : State :=
  let s := match n with
    -- the sensors' calibration results, and what the training of stages 5 to 8 and 10 found, are free values (log 2)
    | 4 | 5 | 6 | 7 | 8 | 10 => let (v, s) := s.draw; { s with r := { s.r with calib := tset 0 s.r.calib n v } }
    | 9 => { s with o := { hostMem := s.o.hostMem, stamp := s.o.stamp }, r := { s.r with poison := [] } }
    | 11 => s.writeIdentity
    | 12 => { s with h := { s.h with readyBit := true } }
    | _ => s
  { s with h := { s.h with bootstage := BitVec.ofNat 32 n }, r := { s.r with stage := n } }

/-- A stage fails: bit 31, its reason, its number; bring-up stops. -/
def State.stageFails (s : State) (n : Nat) (reason : Byte) : State :=
  { s with
    h := { s.h with bootstage := BitVec.ofNat 32 (2 ^ 31 + reason.toNat * 256 + n) }, r := { s.r with failed := true } }

/-- BRING_UP_STAGE: the next stage completes or fails. Stages 1 and 2 go by what verifies; stages 9 to 12 never fail. -/
def execBringUpStage (ok : Bool) (reason : Byte) (s : State) : Out :=
  let n := s.r.stage + 1
  .next (if !s.r.power || s.r.failed || n > 12 then s
    else match n with
    | 1 => match s.r.pick with
      | some b => ({ s with r := { s.r with runsB := b } }).stageDone 1
      | none => s.stageFails 1 reason
    | 2 => if Config.verifies s.r.running.config then s.stageDone 2 else s.stageFails 2 reason
    | _ => if ok || n ≥ 9 then s.stageDone n else s.stageFails n reason)

/-- SIGNED_UPDATE: an image written to the bank that is not running: firmware for an even `image`, configuration for
an odd one; its identity is the rest. -/
def execSignedUpdate (version image : Nat) (s : State) : Out :=
  let put (b : Bank) : Bank :=
    if image % 2 = 0 then { b with firmware := image / 2, version := version } else { b with config := image / 2, version := version }
  .next (if !s.r.power then s
    else if s.r.runsB then { s with r := { s.r with bankA := put s.r.bankA } }
    else { s with r := { s.r with bankB := put s.r.bankB } })

end Sys2Proof.Machine
end

