-- ==== Sys2Proof/Machine/Fabric.lean ====
section
/-! DEFINITION. The fabric's hardware (R329-R344): flits, lanes, links and keys of the ports; accesses, bulk packets and
reduction words that arrive from peers. How many flits an access takes is not given: the events say which counters a port
has sent (log 10). -/

namespace Sys2Proof.Machine

/-- The last counter value, which is never used (R343). -/
def lastCtr : Nat := 2 ^ 64 - 1

/-! ### Flits (R330, R341) -/

/-- Flits in counter order as far as they have come. -/
def deliverFlits : Nat → Nat → List Nat → Nat × List Nat
  | 0, n, held => (n, held)
  | k + 1, n, held => if held.contains n then deliverFlits k (n + 1) (held.erase n) else (n, held)

/-- FLIT_RECEIVE: a failed flit is sent again; one delivered before is discarded. -/
def execFlitReceive (port ctr : Nat) (good : Bool) (s : State) : Out :=
  let p := s.port port
  .next (if port ≥ 15 || p.state < 2 || !good || ctr < p.rxctr || p.held.contains ctr then s
    else
      let r := deliverFlits (p.held.length + 1) p.rxctr (p.held ++ [ctr])
      s.setPort port { p with rxctr := r.1, held := r.2 })

/-- FLIT_ACK: every flit up to a counter value has been sent and is acknowledged. -/
def execFlitAck (port ctr : Nat) (s : State) : Out :=
  let p := s.port port
  .next (if port ≥ 15 || p.state < 2 || ctr ≥ lastCtr || ctr < p.acked then s
    else s.setPort port { p with acked := ctr + 1, txctr := BitVec.ofNat 64 (max p.txctr.toNat (ctr + 1)) })

/-! ### Lanes and links (R340, R341) -/

/-- The device at a port's far end, and the port to a device (R329). -/
def State.peerOf (s : State) (port : Nat) : Nat := (s.h.devnum + port + 1) % 16
def State.portNo (s : State) (dev : Nat) : Nat := (dev + 16 - s.h.devnum - 1) % 16

/-- A field with one bit set. -/
def oneBit {w : Nat} (n : Nat) : BitVec w := 1#w <<< n

/-- The detour to a peer: the lowest-numbered device whose ports to both ends are UP. Whether another device's port to
the peer is UP is a free value (log 2). -/
def State.findDetour (s : State) (dev : Nat) : Option Nat × State :=
  (List.range 16).foldl (fun (r, s) v =>
    if r.isSome || v == dev || v == s.h.devnum || (s.portTo v).state != 2 then (r, s)
    else let (x, s) := s.draw; (if x.getLsbD 0 then some v else none, s)) (none, s)

/-- A port's traffic takes a detour, if there is one. -/
def State.takeDetour (s : State) (port : Nat) : State :=
  let (v, s) := s.findDetour (s.peerOf port)
  let s := s.setPort port { (s.port port) with detour := v }
  match v with | some v => s.linkEvent port 5 v 0 0 | none => s

/-- A port goes DOWN: its traffic takes a detour, and the detours through its peer are found anew. -/
def State.portDown (s : State) (port : Nat) : State :=
  let s := s.setPort port { (s.port port) with state := 0, held := [] }
  let s := (s.linkEvent port 3 0 0 0).takeDetour port
  let lost := (List.range 15).filter (fun q => (s.port q).detour == some (s.peerOf port))
  lost.foldl (fun s q => s.takeDetour q) s

/-- A link fails; with no link left the port goes DOWN (R341). -/
def State.linkFail (s : State) (port link : Nat) : State :=
  let p := s.port port
  let up := p.linkup &&& ~~~oneBit link
  let s := (s.setPort port { p with linkup := up }).linkEvent port 2 0 link 0
  if up = 0 then s.portDown port else s

/-- LANE_SPARE: a spare lane takes a failing lane's place; where none is free, the lane's link fails. Which lanes are spare, and
which link a lane belongs to, are free values (log 2). -/
def execLaneSpare (port lane : Nat) (s : State) : Out :=
  let p := s.port port
  let free := (List.range 18).filter (fun n => !p.lanemap.getLsbD n && !p.dead.getLsbD n)
  .next (if port ≥ 15 || lane ≥ 18 || !p.lanemap.getLsbD lane then s
    else if p.spares = 0 then
      let (v, s) := s.draw
      let up := (List.range 4).filter p.linkup.getLsbD
      let s := s.setPort port { p with lanemap := p.lanemap &&& ~~~oneBit lane, dead := p.dead ||| oneBit lane }
      match up[v.toNat % max 1 up.length]? with
      | some link => s.linkFail port link
      | none => s
    else
      let (v, s) := s.draw
      let new := free.getD (v.toNat % max 1 free.length) lane
      let s := s.setPort port { p with
        lanemap := (p.lanemap &&& ~~~oneBit lane) ||| oneBit new, dead := p.dead ||| oneBit lane, spares := p.spares - 1 }
      s.linkEvent port 1 0 (v.toNat / 2 ^ 32) lane)

/-- LINK_FAIL. -/
def execLinkFail (port link : Nat) (s : State) : Out :=
  let p := s.port port
  .next (if port ≥ 15 || link ≥ 4 || !p.linkup.getLsbD link then s else s.linkFail port link)

/-- PORT_UP: from stage 10 on (Table 22.6). The first training maps 16 of the 18 lanes; which two stay spare is a free
value. A port that stopped without a key comes up once it has one. -/
def execPortUp (port : Nat) (s : State) : Out :=
  let p := s.port port
  .next (if port ≥ 15 || s.r.stage < 9 || p.state ≥ 2 || p.keyst = 2 then s
    else
      let (v, s) := s.draw
      let a := v.toNat % 18
      let b := (a + 1 + v.toNat / 2 ^ 32 % 17) % 18
      let map : BitVec 18 := if p.lanemap = 0 then ~~~(oneBit a ||| oneBit b) else p.lanemap
      (s.setPort port { p with
        state := 2, linkup := 15, peerdev := s.peerOf port, lanemap := map, detour := none }).linkEvent port 4 0 0 0)

/-- ESCAPE_MOVE: the head of the request channel (0) or of the response channel (1) moves to the escape channel (R342). -/
def execEscapeMove (port chan : Nat) (s : State) : Out :=
  let p := s.port port
  .next (if port ≥ 15 || chan > 1 || p.state < 2 then s else s.setPort port { p with dlcount := p.dlcount + 1 })

/-! ### Keys (R343) -/

/-- KEY_INSTALL: a write of the whole key register. -/
def execKeyInstall (port : Nat) (key : BitVec 256) (s : State) : Out := .next (if port ≥ 15 then s else s.installKey port key)

/-- KEY_SWITCH: both ends change key, the counter restarts, a held port goes on. -/
def execKeySwitch (port : Nat) (s : State) : Out :=
  let p := s.port port
  .next (if port ≥ 15 || p.state < 2 || p.keyst != 1 then s
    else (s.setPort port { p with
      txctr := 0, acked := 0, rxctr := 0, held := [], key := p.nextKey, keyst := 0, state := 2 }).linkEvent port 7 0 0 0)

/-- FLIT_COUNTER_EXHAUSTED: the port holds all traffic. -/
def execFlitCounterExhausted (port : Nat) (s : State) : Out :=
  let p := s.port port
  .next (if port ≥ 15 || p.state != 2 || p.keyst != 0 || p.txctr.toNat != lastCtr then s
    else (s.setPort port { p with state := 3, keyst := 2 }).linkEvent port 6 0 0 0)

/-- REKEY_GRACE_EXPIRY. -/
def execRekeyGraceExpiry (port : Nat) (s : State) : Out :=
  .next (if port ≥ 15 || (s.port port).state != 3 || (s.port port).keyst != 2 then s else s.portDown port)

/-! ### Accesses from peers (R332, R333, R335) -/

/-- This device admits an access of a peer to its memory windows. -/
def State.admits (s : State) (dev addr : Nat) : Bool := s.h.readyBit && dev < 16 && s.f.peeradmit.getLsbD dev && peerWindow addr

/-- An atomic from outside the cores stands as no release at its bytes. -/
def State.outsideWrite (s : State) (addr size v : Nat) : State :=
  ((s.winWrite addr size v false).setRel (.dev addr .wb false) size []).clearPoison addr size

/-- PEER_ACCESS_ARRIVE: a load, a store, or an atomic whose new value goes to CAS as the upper half of its data. -/
def execPeerAccessArrive (dev addr size : Nat) (op : PeerOp) (data : DWord) (s : State) : Out :=
  .next (if !s.admits dev addr || !([1, 2, 4, 8].contains size) || addr % size != 0 then s
    else match op with
    | .load => (s.winRead addr size).2
    -- a store to device memory enters the system buffer (R271)
    | .store => if devHas addr size then s.enterSys (peerAgent dev) addr size data.toNat else s.outsideWrite addr size data.toNat
    | .atom o =>
      if size != aopSize o then s
      else
        let (old, s) := s.winRead addr size
        let n := atomNew o old data.toNat (data.toNat / 2 ^ 32)
        if n.2 then s.outsideWrite addr size n.1 else s)

/-- Bytes of a list, the first lowest. -/
def bytesLE : List Byte → Nat
  | [] => 0
  | b :: bs => b.toNat + 256 * bytesLE bs

/-- BULK_PACKET_ARRIVE: at most 4,096 bytes of one frame; the counter 0xFFFF_FFFF names none. -/
def execBulkPacketArrive (dev addr : Nat) (bytes : List Byte) (counter : Word) (s : State) : Out :=
  let n := bytes.length
  .next (if n = 0 || n > 4096 || addr / 65536 != (addr + n - 1) / 65536 || !s.admits dev addr then s
    else (s.bulkLand addr (bytesLE bytes) n counter).getD s)

/-! ### Reduction slots (R336-R339) -/

/-- REDUCE_LEASE_ARRIVE from a peer; a lease of this device comes with its engine thread. -/
def execReduceLeaseArrive (dev th : Nat) (cfg timeout : Word) (s : State) : Out :=
  .next (if !s.h.readyBit || dev ≥ 16 || dev == s.h.devnum || !s.f.peeradmit.getLsbD dev then s
    else (s.lease (cfg.toNat % 64) dev th 0 cfg timeout 0 0).2)

/-- REDUCE_CONTRIB_ARRIVE from a peer. -/
def execReduceContribArrive (dev _th slot : Nat) (val : Word) (s : State) : Out :=
  .next (if !s.h.readyBit || dev ≥ 16 || dev == s.h.devnum || slot ≥ 64 || !s.f.peeradmit.getLsbD dev then s
    else (s.contribute slot dev val).2)

/-- A counter of the fabric has come to a value: its clocks go on by themselves. -/
def State.cyclesTo (s : State) (n : Nat) (v : DWord) : State :=
  if n < 15 then s.setPort n { (s.port n) with cycles := v } else { s with f := { s.f with cycles := v } }

/-- SLOT_TIMEOUT: the slot's counter has advanced by the timeout since it was armed (R338); a timeout of 0 never expires. -/
def execSlotTimeout (slot : Nat) (s : State) : Out :=
  let r := s.rslot slot
  let due := r.start + r.timeout.zeroExtend 64
  .next (if r.st == .armed && r.timeout != 0 then
      (if (s.fabCycles r.timer).toNat < due.toNat then s.cyclesTo r.timer due else s).setRslot slot (r.finish 3)
    else s)

/-- The result record (R175). -/
def RSlot.record (r : RSlot) : Nat :=
  fld r.value.toNat 0 32 + fld r.status 32 32 + fld r.seen.toNat 64 16 + fld r.nan.toNat 80 8

/-- The record written at a location of this device's leaser: bytes 3 to 0 and 15 to 8, then bytes 7 to 4 as a release at
SYSTEM scope. -/
def State.putResult (s : State) (core : Nat) (l : Loc) (agent : Nat) (n : Nat) : State :=
  let w (s : State) (k : Nat) (r : List Release) : State :=
    (s.writeNow core (l.shift (4 * k)) 4 (n / 2 ^ (32 * k))).setRel (l.shift (4 * k)) 4 r
  w (w (w (w s 0 []) 2 []) 3 []) 1 [{ agent := agent, scope := .sys, hist := [] }]

/-- RESULT_RECORD_DELIVER: the record of a slot that is done; discarded when the leasing team has ended, or its
capability does not reach; a page that it misses makes it wait. A peer's record is written at the peer. -/
def execResultRecordDeliver (slot : Nat) (s : State) : Out :=
  let r := s.rslot slot
  .next (if !r.pending then s
    else
      let s := s.setRslot slot { r with pending := false }
      if r.leaserDev != s.h.devnum || !(s.team r.tk).live then s
      else
        let core := (s.team r.tk).cores.headD 0
        match s.resolve r.tk core r.cap r.off 16 .write false false with
        | (.ok l, s) => s.putResult core l (thAgent r.th) r.record
        | (.wait o p w, s) =>
          (s.setRslot slot r).mergeWait core (s.team r.tk).kern.ctx o p w (.thread r.th 1) .write
        | (.fault _, s) => s)

end Sys2Proof.Machine
end

