-- ==== Sys2Proof/Machine/FormerEvents.lean ====
section
/-! DEFINITION. The events of the issue former, of the fault queue and of the clock. -/

namespace Sys2Proof.Machine

/-- WAITC_EXPIRY (R122): the count has run out. -/
def execWaitcExpiry (gk lane : Nat) (s : State) : Out := .next (s.waitcDone gk lane)

/-- FAIRNESS_TIMER_EXPIRY (R277) of a PC, written as packet * 4 + slot. -/
def execFairnessTimerExpiry (gk pc : Nat) (s : State) : Out := .next (s.forcePc gk pc)

/-- A group of a partition that step 2 of R219 makes lead: the oldest that has been ready for 4,096 clocks without
leading, while no PC is forced. -/
def State.ageDue (s : State) (core part : Nat) : Option Nat :=
  let gs := (s.activeOf core part).filter (fun gk => s.eligibleGroup gk && s.readyGroup gk)
  if gs.any (fun gk => (s.forcedPc gk).isSome) then none else gs.find? (fun gk => (s.group gk).waitClk ≥ 4096)

/-- AGE_LIMIT_EXPIRY (R219): the group leads the issue of this clock. -/
def execAgeLimitExpiry (gk : Nat) (s : State) : Out :=
  let g := s.group gk
  let t := s.clockStart g.core g.part
  .next (if s.iss.words = 0 && t.ageDue g.core g.part == some gk then
      match t.leadPc gk with | some k => t.beginIssue gk k | none => s
    else s)

/-- ACTIVE_SET_REPLACE and ACTIVE_SET_IDLE_LEAVE (R221). -/
def execActiveSetReplace (gk : Nat) (s : State) : Out := .next (s.replaceActive gk)
def execActiveSetIdleLeave (gk : Nat) (s : State) : Out := .next (s.idleLeave gk)

/-- FAULT_QUEUE_ENTER (R351): the record that has waited longest takes a free place. -/
def Team.enterQueue (t : Team) : Team :=
  match t.fwait with
  | r :: rs => if t.fq.length < 256 then { t with fq := t.fq ++ [r], fwait := rs } else t
  | [] => t
def execFaultQueueEnter (tk : Nat) (s : State) : Out := .next (s.modTeam tk Team.enterQueue)

/-- PAIR_LIMIT (R185). -/
def execPairLimit (gk lane : Nat) (s : State) : Out := .next (s.pairLimit (lkOf gk lane))

/-- NO_ISSUE_CLOCK (R368): a clock on which no group of the partition may lead. -/
def execNoIssueClock (core part : Nat) (s : State) : Out :=
  let t := s.clockStart core part
  .next (if s.iss.words = 0 && (t.choose core part).isNone then t.idleClock core part else s)

end Sys2Proof.Machine
end

