-- ==== Sys2Proof/Machine/HostOps.lean ====
section
/-! DEFINITION. The host's side: context roots (R299, R17), translation commands (R309, R310), the aperture's registers
and windows (R320, R321), and the event ring (R324). -/

namespace Sys2Proof.Machine

/-! ### Contexts (R299, R17) -/

/-- RSV fields of a root (Table 17.1). -/
def rootRsv (r : Nat) : Bool :=
  bitField r 448 64 != 0 || bitField r 320 24 != 0 || bitField r 276 4 != 0 || bitField r 256 18 != 0 || bitField r 2 190 != 0

/-- A root as the host reads it: its RSV fields read 0 (R7). What was written to them is kept for the check that setting EN makes
(R299). -/
def rootRead (r : Nat) : Nat :=
  fld (bitField r 344 104) 344 104 + fld (bitField r 280 40) 280 40 + fld (bitField r 274 2) 274 2 + fld (bitField r 192 64) 192 64 + r % 4

/-- A team ended with its context: its lanes, records and state go. -/
def State.dropTeam (s : State) (tk : Nat) : State :=
  let t := s.team tk
  let s := (((s.flushStores tk).exitAll tk).stopSeq tk).dropEngines tk
  (s.clearTeam tk).setTeam tk { t with
    live := false, gst := .killed, seq := {}, fq := [], fwait := [], parked := [], saved := false, stopping := false, again := false }

/-- Threads that wait outside a full merge table translate again once an entry is freed (R307). -/
def State.wakeOutside (s : State) : State :=
  let listed (th : Nat) : Bool := s.x.merge.any (fun m => m.threads.contains th)
  let wake (p : Nat × Option Thread) : Nat × Option Thread :=
    (p.1, p.2.map (fun (x : Thread) => if x.waits && !listed p.1 then { x with waits := false } else x))
  { s with e := { s.e with threads := s.e.threads.map wake } }

/-- CONTEXT_DESTROY: queues, checkpoints, merge-table and Lynx entries of the context go, its teams end, and sectors that
dies hold dirty are written back. -/
def State.destroy (s : State) (ctx : Nat) : State :=
  let tks := (s.t.teams.filter (fun p => (p.2.live || p.2.again) && p.2.kern.ctx == ctx)).map (·.1)
  let lns := (s.allLaunches.filter (fun p => p.2.kern.ctx == ctx)).map (·.1)
  let lynx := s.o.lynx.filter (fun e => (s.team (s.agentTk e.agent)).kern.ctx != ctx)
  let s := { s with o := { s.o with lynx := lynx } }
  let s := tks.foldl State.dropTeam s
  let s := s.o.nc.foldl (fun s p => s.ncClean (p.1 / 2 ^ 48) (p.1 % 2 ^ 48 * 64) false) s
  let clean (x : L2Line) : L2Line := { x with dirty := 0, st := if x.st == .m then .e else x.st }
  let s := { s with d := { s.d with l2 := s.d.l2.map (fun (p : Nat × L2Line) => (p.1, clean p.2)) } }
  let s := s.dropCtx ctx
  let s := { s with
    l := { s.l with
      launches := s.l.launches.filter (fun p => !lns.contains p.1)
      serials := tset 0 s.l.serials ctx 0
      ports := tset {} s.l.ports ctx {}
      det := s.l.det.filter (fun e => !lns.contains e.ln)
      own := s.l.own.filter (fun p => !lns.contains (p.1 / 2 ^ 48))
      checkpoints := s.l.checkpoints.filter (fun c => !lns.contains c.ln) }
    x := { s.x with merge := s.x.merge.filter (fun m => m.ctx != ctx) } }
  s.wakeOutside

/-- A write of 4 or 8 bytes to a context root: while EN = 1 only the clearing of EN acts; setting EN creates the context
unless an RSV field is not zero; PRIV is set only by the hypervisor requester. -/
def State.rootWrite (s : State) (ctx off size v : Nat) (hyper : Bool) : State :=
  let r := s.root ctx
  let n := blockPut r off size v
  let set (s : State) (n : Nat) : State := { s with x := { s.x with roots := tset 0 s.x.roots ctx (BitVec.ofNat 512 n) } }
  if bitField r 0 1 = 1 then
    if bitField n 0 1 = 0 then (set s (r - 1)).destroy ctx else s
  else if bitField n 1 1 = 1 && bitField r 1 1 = 0 && !hyper then s
  else if bitField n 0 1 = 1 && rootRsv n then set s (n - 1)
  else set s n

/-! ### Translation commands (Table 17.6, R309, R310) -/

/-- Every extent-cache entry of a key dropped. -/
def State.dropKey (s : State) (ctx obj page : Nat) : State :=
  { s with x := { s.x with cache := s.x.cache.filter (fun y => !(y.covers y.place ctx obj page)) } }

/-- The merge-table entries of a key, on every die. -/
def State.mergeOf (s : State) (ctx obj page : Nat) : List MergeEntry :=
  s.x.merge.filter (fun m => m.ctx == ctx && m.obj == obj && m.page == page)

/-- The entries of a key freed. -/
def State.freeMerge (s : State) (ctx obj page : Nat) : State :=
  ({ s with x := { s.x with merge := s.x.merge.filter (fun m => !(m.ctx == ctx && m.obj == obj && m.page == page)) } }).wakeOutside

/-- RESOLVE.RETRY: the waiters translate again. -/
def State.resolveRetry (s : State) (ctx obj page : Nat) : State := (s.dropKey ctx obj page).freeMerge ctx obj page

/-- The fault of a failed waiter (R310), for an access at an offset of a capability of a type; 0 for none. -/
def failFault (r : WaitReason) (obj off ty : Nat) : FaultInfo :=
  let o := if ty = 0 then 0 else obj
  match r with
  | .write => { code := fcWRITE_PROTECT, off := off, obj := o, ctype := ty }
  | r => { code := fcNOT_PRESENT, detail := reasonNo r, off := off, obj := o, ctype := ty }

/-- The lanes of a group that wait at their words for a key: at a word that makes one access the lowest of them fails and the
others go on past it (R9, R146), at any other each fails. -/
def State.failLanes (s : State) (m : MergeEntry) (gk : Nat) : State :=
  let key (l : Nat) : Option (Nat × Nat) := match (s.lane (lkOf gk l)).st with
    | .waiting (.merge c o p off ty) | .halted (some (.merge c o p off ty)) =>
      if c == m.ctx && o == m.obj && p == m.page then some (off, ty) else none
    | _ => none
  let at_ := (s.lanesOf gk).filter (fun l => (key l).isSome)
  at_.foldl (fun t l =>
    let x := s.lane (lkOf gk l)
    let one := match (s.readWord gk x.pc).1 with | .ok i _ _ _ => oneAccess i | _ => false
    let (off, ty) := (key l).getD (0, 0)
    let f := failFault m.reason m.obj off ty
    if one && at_.any (fun n => n < l && (s.lane (lkOf gk n)).pc == x.pc) then t.goPast (lkOf gk l)
    else t.raise (lkOf gk l) x.pc { f with win := x.winAgain x.pc f.code }) s

/-- The accesses of a group that wait for a key fail, and its lanes (R310, R50). -/
def State.failGroup (s : State) (m : MergeEntry) (gk : Nat) : State :=
  let evs := s.o.pend.filterMap (fun p => match p.2 with
    | some e => if e.tr.isSome && e.gk == gk && (s.kern gk).ctx == m.ctx && Cap.obj e.cap == m.obj && e.page == m.page
        then some (p.1, e) else none
    | none => none)
  (evs.foldl (fun s p => s.lateFault p.1 p.2 (failFault m.reason m.obj p.2.off (Cap.type p.2.cap))) s).failLanes m gk

/-- A pair that starts again waits for a key (R186). -/
def State.restartWaits (s : State) (m : MergeEntry) (th : Nat) (x : Thread) (a : Restart) : Bool :=
  !a.failed && (match (s.restartKeys th x (s.lane a.lane).pair).1 with
    | .error (.wait o p _) => o == m.obj && p == m.page
    | _ => false)

/-- A thread that waits for a key fails: its tag will complete FAULTED; a pair that starts again takes a new fault. -/
def State.failThread (s : State) (m : MergeEntry) (th : Nat) : State :=
  match s.thread th with
  | none => s
  | some x =>
    if x.kind != .pair then s.setThread th (some { x with status := 1, waits := false })
    else if x.waits then s.setThread th (some { x.pairFail with waits := false })
    else (x.pair.again.filter (s.restartWaits m th x)).foldl (fun s a => s.restartFault th a.lane (failFault m.reason m.obj 0 0)) s

/-- A sequencer that waits for a key faults on its M-word. -/
def State.failSeq (s : State) (m : MergeEntry) (tk : Nat) : State :=
  match (s.team tk).seq.miss with
  | some (.merge c o p off ty) =>
    if (s.team tk).live && c == m.ctx && o == m.obj && p == m.page then s.raiseSeq tk (failFault m.reason m.obj off ty) else s
  | _ => s

/-- RESOLVE.FAIL. -/
def State.resolveFail (s : State) (ctx obj page : Nat) : State :=
  let ms := s.mergeOf ctx obj page
  let s := (s.dropKey ctx obj page).freeMerge ctx obj page
  ms.foldl (fun s m =>
    let s := m.groups.foldl (fun s gk => s.failGroup m gk) s
    let s := m.threads.foldl (fun s th => s.failThread m th) s
    m.seqs.foldl (fun s tk => s.failSeq m tk) s) s

/-- OTFENCE of the host: the context's entries dropped, the wait begun. -/
def State.hostFence (s : State) (ctx : Nat) (seq : Word) (sys : Bool) : State :=
  let s := s.dropCtx ctx
  { s with h := { s.h with fences := s.h.fences ++ [{ ctx := ctx, seq := seq, sys := sys, mark := s.next }] }, next := s.next + 1 }

/-- A command of Table 17.6 taken: performed, or ignored and counted. The staged bytes read 0 after it (R328). -/
def State.hostCommand (s : State) (n : Nat) : State :=
  let op := bitField n 120 8
  let ctx := bitField n 114 6
  let obj := bitField n 90 24
  let page := bitField n 66 24
  let seq : Word := BitVec.ofNat 32 (bitField n 32 32)
  let bad := op == 0 || op > 4 || bitField n 64 2 != 0 || bitField n 0 32 != 0 || !s.ctxEn ctx
  let s := { s with h := { s.h with
    tport := 0, tbusy := false, tignored := bad, tcign := if bad then s.h.tcign + 1 else s.h.tcign } }
  if bad then s
  else match op with
    | 1 => s.resolveRetry ctx obj page
    | 2 => s.resolveFail ctx obj page
    | 3 => s.hostFence ctx seq false
    | _ => s.hostFence ctx seq true

/-- Bytes written to the translation port: a write that covers byte 15 submits (R328). -/
def State.tportWrite (s : State) (off size v : Nat) : State :=
  let n := blockPut s.h.tport.toNat off size v
  if off ≤ 15 && 15 < off + size then s.hostCommand n else { s with h := { s.h with tport := BitVec.ofNat 128 n } }

/-- The completion of a host OTFENCE (R310, Table 18.8). -/
def State.fenceOver (s : State) (seq : Word) : State :=
  match s.h.fences.find? (fun f => f.seq == seq) with
  | none => s
  | some f =>
    if s.otBusy f.ctx f.mark 0 then s
    else
      let s := { s with h := { s.h with fences := s.h.fences.erase f } }
      s.sendEvent 4 (BitVec.ofNat 32 f.ctx) (fld seq.toNat 0 32 + fld (if f.sys then 4 else 3) 32 8)

/-! ### Registers of the aperture (Table 18.4) -/

/-- The status block (Table 18.5). -/
def State.statusBits (s : State) : Nat :=
  let en := ((List.range 64).map (fun c => if s.ctxEn c then 2 ^ c else 0)).sum
  fld s.h.evprod.toNat 416 32 + fld s.h.tcign.toNat 384 32 + fld s.h.lpfull.toNat 320 64 + fld en 256 64 +
  fld s.h.bootstage.toNat 224 32 + fld s.h.errsum.toNat 192 32 + fld s.h.devnum 128 4 + s.h.readyBit.toNat

/-- Event control (Table 18.6). -/
def State.eventBits (s : State) : Nat := fld s.h.evbase.toNat 192 64 + fld s.h.evlen.toNat 160 32 + fld s.h.evcons.toNat 128 32

/-- A launch port (R322). -/
def LPort.bits (p : LPort) : Nat := p.bytes.toNat + fld p.status (8 * 0x100) 32 + fld p.serial.toNat (8 * 0x108) 32

/-- A register read by the host: aligned, of 4 or 8 bytes; an unlisted offset reads 0. TCIGN is cleared by its read. -/
def State.hostReg (s : State) (a size : Nat) : Nat × State :=
  if !(size == 4 || size == 8) || a % size != 0 then (0, s)
  else if a + size ≤ 0x40 then
    let s' := if a < 52 && 48 < a + size then { s with h := { s.h with tcign := 0 } } else s
    (blockGet s.statusBits a size, s')
  else if 0x40 ≤ a && a + size ≤ 0x60 then (blockGet s.eventBits (a - 0x40) size, s)
  else if a == 0x110 && size == 4 then (s.h.tbusy.toNat + 2 * s.h.tignored.toNat, s)
  else if 0x1000 ≤ a && a < 0x2000 then (blockGet (rootRead (s.root ((a - 0x1000) / 64))) (a % 64) size, s)
  else if 0x10000 ≤ a && a < 0x50000 then
    let o := a % 4096
    if o + size ≤ 0x104 || (0x108 ≤ o && o + size ≤ 0x10C) then (blockGet (tget {} s.l.ports ((a - 0x10000) / 4096)).bits o size, s)
    else (0, s)
  else (0, s)

/-- Event control as a write leaves it; the RSV half reads 0 (R7). -/
def State.eventWrite (s : State) (off size v : Nat) : State :=
  let b := blockPut s.eventBits off size v
  { s with h := { s.h with
    evbase := BitVec.ofNat 64 (bitField b 192 64), evlen := BitVec.ofNat 32 (bitField b 160 32)
    evcons := BitVec.ofNat 32 (bitField b 128 32) } }

/-- A register written by the host: LPFULL by ones, event control, the translation port, the roots; every other register
of these regions is read-only. Before READY only the status block is written (R320). -/
def State.hostRegWrite (s : State) (a size v : Nat) (hyper : Bool) : State :=
  if !(size == 4 || size == 8) || a % size != 0 then s
  else if a < 0x40 then
    if 40 ≤ a && a < 48 then { s with h := { s.h with lpfull := s.h.lpfull &&& ~~~ BitVec.ofNat 64 (v % 2 ^ (8 * size) * 2 ^ (8 * (a - 40))) } }
    else s
  else if !s.h.readyBit then s
  else if 0x40 ≤ a && a < 0x60 then s.eventWrite (a - 0x40) size v
  else if 0x100 ≤ a && a < 0x110 then s.tportWrite (a - 0x100) size v
  else if 0x1000 ≤ a && a < 0x2000 then s.rootWrite ((a - 0x1000) / 64) (a % 64) size v hyper
  else s

/-! ### Memory windows (R321) -/

/-- A host write. To device memory it enters the system buffer, from which the host's writes are delivered in order (R271,
R321); to the on-chip map it is performed once those before it have been. -/
def State.hostWrite (s : State) (a size v : Nat) (hyper : Bool) : State :=
  if !s.h.readyBit then s
  else if devHas a size then s.enterSys hostAgent a size v
  else if s.hostQuiet && 2 ^ 42 ≤ a && a < 2 ^ 42 + 2 ^ 40 then
    if size ≤ 8 && size != 0 && a % size == 0 then (s.ocmWrite (a - 2 ^ 42) size v hyper).getD s else s
  else s

end Sys2Proof.Machine
end

