-- ==== Sys2Proof/Machine/Host.lean ====
section
/-! DEFINITION. The events of the host's side (R299, R17, R309, R310, R320-R324, R328). A write before READY is ignored
(R320); one whose condition fails changes nothing. -/

namespace Sys2Proof.Machine

/-- CONTEXT_CREATE: a write to bytes 0 to 7 of a root that sets EN from 0 to 1. -/
def execContextCreate (ctx : Nat) (data : DWord) (hyper : Bool) (s : State) : Out :=
  .next (s.afterHost (fun s =>
    if s.h.readyBit && ctx < 64 && !s.ctxEn ctx && data.getLsbD 0 then s.rootWrite ctx 0 8 data.toNat hyper else s))

/-- CONTEXT_DESTROY: a write that clears EN. -/
def execContextDestroy (ctx : Nat) (s : State) : Out :=
  .next (s.afterHost (fun s =>
    if s.h.readyBit && ctx < 64 && s.ctxEn ctx then s.rootWrite ctx 0 8 (s.root ctx % 2 ^ 64 - 1) false else s))

/-- A translation command with the fields given, over the bytes already staged below them (Table 17.6, R328). -/
def State.hostCmd (s : State) (op ctx obj page seq : Nat) : State :=
  if s.h.readyBit && s.hostQuiet then
    s.hostCommand (fld op 120 8 + fld ctx 114 6 + fld obj 90 24 + fld page 66 24 + fld seq 32 32 + fld s.h.tport.toNat 0 32)
  else s

def execResolveRetry (ctx obj page : Nat) (s : State) : Out := .next (s.hostCmd 1 ctx obj page 0)
def execResolveFail (ctx obj page : Nat) (s : State) : Out := .next (s.hostCmd 2 ctx obj page 0)
def execHostOtfenceDev (ctx : Nat) (seq : Word) (s : State) : Out := .next (s.hostCmd 3 ctx 0 0 seq.toNat)
def execHostOtfenceSys (ctx : Nat) (seq : Word) (s : State) : Out := .next (s.hostCmd 4 ctx 0 0 seq.toNat)

/-- OTFENCE_DONE. -/
def execOtfenceDone (seq : Word) (s : State) : Out := .next (s.fenceOver seq)

/-- COMMAND_PORT_STAGE: eight bytes of the translation port (port 0) or of the Owl port of die `port` - 1, none of them
the byte that holds OP. -/
def execCommandPortStage (port off : Nat) (data : DWord) (s : State) : Out :=
  .next (if !s.h.readyBit || !s.hostQuiet then s
    else if port = 0 then (if off = 0 then s.tportWrite 0 8 data.toNat else s)
    else if port ≤ 4 && off = 8 then s.writeOwl (port - 1) 0x18 8 data.toNat false
    else s)

/-- HOST_MEMORY_WRITE: a write of 1 to 64 bytes through a memory window. -/
def execHostMemoryWrite (addr size : Nat) (data : BitVec 512) (s : State) : Out :=
  .next (if size = 0 || size > 64 then s else s.hostWrite addr size data.toNat false)

/-- A host read of an aperture address: a memory window, the on-chip map, or registers. -/
def State.hostRead (s : State) (addr size : Nat) : Nat × State :=
  if size = 0 || size > 8 then (0, s)
  else if addr < 2 ^ 40 then s.hostReg addr size
  else if 2 ^ 42 ≤ addr && addr % size != 0 then (0, s)
  else s.winRead addr size

/-- What a host read returns. -/
def State.hostGot (p : Nat × State) : State := { p.2 with h := { p.2.h with readData := BitVec.ofNat 64 p.1 } }

/-- HOST_MEMORY_READ: every earlier host write has been performed. -/
def execHostMemoryRead (addr size : Nat) (s : State) : Out := .next (s.afterHost (fun s => State.hostGot (s.hostRead addr size)))

/-- TCIGN_READ: the field lies at bytes 48 to 51 of the status block. -/
def execTcignRead (s : State) : Out := .next (s.afterHost (fun s => State.hostGot (s.hostRead 48 4)))

/-- DLCOUNT_READ: bytes 12 to 15 of a port block, through the on-chip map. -/
def execDlcountRead (port : Nat) (s : State) : Out :=
  .next (s.afterHost (fun s => if port < 15 then State.hostGot (s.hostRead (2 ^ 42 + 2 ^ 37 + 2 ^ 32 + 32 * port + 12) 4) else s))

/-- LPFULL_CLEAR: bytes 40 to 47 of the status block. -/
def execLpfullClear (mask : DWord) (s : State) : Out := .next (s.afterHost (fun s => s.hostRegWrite 40 8 mask.toNat false))

/-- REGISTER_WRITE: 4 or 8 bytes of a register of the aperture or of the on-chip map. -/
def execRegisterWrite (addr size : Nat) (data : DWord) (hyper : Bool) (s : State) : Out :=
  .next (s.afterHost (fun s => if addr < 2 ^ 40 then s.hostRegWrite addr size data.toNat hyper
    else if s.h.readyBit && 2 ^ 42 ≤ addr && addr < 2 ^ 42 + 2 ^ 40 && (size == 4 || size == 8) && addr % size == 0 then
      (s.ocmWrite (addr - 2 ^ 42) size data.toNat hyper).getD s
    else s))

/-- The 128 bytes of a record (R324). -/
def Event.bits (e : Event) (seq : Nat) : Nat :=
  fld e.payload.toNat 128 512 + fld seq 64 64 + fld e.ctx.toNat 32 32 + fld e.kind 0 32

/-- The stores that an event follows are visible at SYSTEM scope (Table 18.7). -/
def State.eventReady (s : State) (e : Event) : Bool :=
  e.need.all (fun i => (tget none s.o.cbuf i).isNone && (tget none s.o.sbuf i).isNone)

/-- EVENT_RING_WRITE: the first event that the arbiter has received goes into the ring at EVPROD. -/
def execEventRingWrite (s : State) : Out :=
  .next (match s.h.events.find? s.eventReady with
    | none => s
    | some e =>
      let n := s.h.evlen.toNat / 128
      if n = 0 || s.evFull then s
      else
        let a := s.h.evbase.toNat + s.h.evprod.toNat % n * 128
        { s with
          o := { s.o with hostMem := writeLE s.o.hostMem a (e.bits s.h.evseq.toNat) 128 }
          h := { s.h with
            events := s.h.events.erase e, evseq := s.h.evseq + 1, evprod := BitVec.ofNat 32 ((s.h.evprod.toNat + 1) % n) } })

end Sys2Proof.Machine
end

