-- ==== Sys2Proof/Machine/Launch.lean ====
section
/-! DEFINITION. Device-side launches (R171, R172, R288), MAJ 0x22. They act for each executing lane in turn. -/

namespace Sys2Proof.Machine

/-- What a word that acts lane by lane comes to for one lane; `hold` holds the later lanes back as well. -/
inductive LOut where
  | val (v : Word)
  | fault (f : FaultInfo)
  | wait (w : Wait)
  | hold (w : Wait)

/-- The value of one lane put in its destination: its v register, or of the lowest lane the s register or queue. -/
def State.putLane (s : State) (d : Opc) (lane : Nat) (v : Word) : ORes :=
  let gk := s.iss.gk
  if isV d then .ok (s.setV gk lane d.toNat v)
  else if lane != s.low then .ok s
  else if isS d then .ok (s.setS gk (d.toNat - 96) v)
  else if isQ d then s.push gk lane d.toNat v
  else .ok s

/-- The executing lanes in ascending order, each with what the word does for it. -/
def State.laneByLane (s : State) (d : Opc) (f : State → Nat → LOut × State) : State :=
  let gk := s.iss.gk
  (s.iss.lanes.foldl (fun (p : Option Wait × State) l =>
    match p with
    | (some w, x) => (some w, x.waitLanes gk [l] w)
    | (none, x) => match f x l with
      | (.val v, y) => match y.putLane d l v with
        | .ok z => (none, z.advLane (lkOf gk l))
        | .fault e => (none, x.raise (lkOf gk l) s.here e)
        | .wait w => (none, x.waitLanes gk [l] w)
        | .hold z w => (none, z.holdLanes gk [l] w)
      | (.fault e, y) => (none, y.raise (lkOf gk l) s.here e)
      | (.wait w, y) => (none, y.waitLanes gk [l] w)
      | (.hold w, y) => (some w, y.holdLanes gk [l] w)) (none, s)).2

/-! ### LAUNCH -/

def stFULL : Word := 0xFFFFFFF0
def stDEPTH : Word := 0xFFFFFFF1
def stBAD : Word := 0xFFFFFFF2

/-- The status of a record that has passed its checks: none when it is accepted (R288). The limit is the child's own
effective limit (Table 7.11, log 52). -/
def State.launchStatus (s : State) (ln : Nat) (k : Kern) : Option Word :=
  let x := s.launchOf ln
  if x.depth + 1 > min k.dlimit x.limit then some stDEPTH
  else if s.poolUsed + s.accepting 0 true ≥ 4096 || s.queueFull x.kern.ctx then some stFULL
  else none

/-- The child enters its context's queue (R283, R288), after the lane's release. -/
def State.launchAccept (s : State) (lane : Nat) (k : Kern) : Word × State :=
  let gk := s.iss.gk
  let tk := (s.group gk).tk
  let ln := (s.team tk).ln
  let x := s.launchOf ln
  let s := s.modLane (lkOf gk lane) (fun l => { l with launch := none })
  let (_, serial, s) := s.accept
    { kern := { k with prio := min k.prio x.kern.prio }, fromHost := false, parent := ln, parentTeam := tk, depth := x.depth + 1
      limit := min k.dlimit x.limit, pooled := true, start := s.hist (lkOf gk lane) }
  (BitVec.ofNat 32 serial, s.markNondet gk)

/-- An accepted LAUNCH of a lane: now, or once its accesses let the release go (R171, R263). -/
def State.launchGo (s : State) (lane : Nat) (k : Kern) : LOut × State :=
  let lk := lkOf s.iss.gk lane
  if s.relReady .dev lk then let (v, s) := s.launchAccept lane k; (.val v, s)
  else (.hold (.order (some .dev)), s.modLane lk (fun l => { l with launch := some k }))

/-- LAUNCH of a lane, from the record's offset in c1. -/
def State.launchLane (s : State) (lane off : Nat) : LOut × State :=
  let gk := s.iss.gk
  let g := s.group gk
  let lk := lkOf gk lane
  match (s.lane lk).launch with
  | some k => s.launchGo lane k
  | none =>
    let c := s.heldCap gk lane 1
    match s.capSteps13 (s.kern gk).ctx c [tSCR] rR with
    | some e => (.fault (capFault e c off), s)
    | none =>
      let a := Cap.base c + off
      if !capBounds c off 256 || a + 256 > (s.kern gk).scratch then (.fault (capFault fcCAP_BOUNDS c off), s)
      else if off % 64 != 0 then (.fault (capFault fcMISALIGNED c off), s)
      -- the lane's own stores into the record come first (R260)
      else if s.acqPending lk || (s.pendOf lk).any (fun p => p.2.tr.isNone && p.2.isStore && s.common p.2.loc p.2.size (.scr g.tk a) 256) then
        (.hold (.order none), s)
      else
        let r := s.scrRead g.tk a 256
        match s.checkRecord g.core (s.kern gk).ctx r (some ((List.range 8).map (s.heldCap gk lane))) with
        | (.miss obj page w, s) =>
          (.hold (.merge (s.kern gk).ctx obj page 0 0), s.mergeWait g.core (s.kern gk).ctx obj page w (.group gk lane) .read)
        | (.bad _, s) => (.val stBAD, s.markNondet gk)
        | (.ok k, s) => match s.launchStatus (s.team g.tk).ln k with
          | some v => (.val v, s.markNondet gk)
          | none => s.launchGo lane k

def execLaunch (c : Bool) (d a : Opc) (s : State) : Out :=
  .next (s.noPair (.launch c d a) (fun s =>
    if !s.nondetOk s.iss.gk then s.raiseAll (.of fcNONDET_OP)
    else s.laneByLane d (fun x l => x.launchLane l (s.src s.iss.gk l a).toNat)))

/-! ### LWAIT and LSTAT -/

/-- The child of a team with a serial: the latest one. -/
def State.childOf (s : State) (tk : Nat) (id : Word) : Option (Nat × Launch) :=
  (s.allLaunches.filter (fun p => !p.2.fromHost && p.2.parentTeam == tk && p.2.serial == id.toNat)).getLast?

/-- A child observed done: its pool entry is free (R288). -/
def State.observe (s : State) (ln : Nat) : State := s.modLaunch ln (fun x => { x with pooled := false })

def State.lwaitLane (s : State) (lane : Nat) (id : Word) : LOut × State :=
  let gk := s.iss.gk
  let lk := lkOf gk lane
  if s.acqPending lk then (.wait (.order none), s)
  else match s.childOf (s.group gk).tk id with
  | none => (.val 3, s)
  | some (ln, x) => match x.st with
    | .complete code => (.val (BitVec.ofNat 32 code), ((s.addHist lk x.hist).raiseFloor (s.group gk).core).observe ln)
    | _ => (.wait (.launch ln), s)

def execLwait (c : Bool) (d a : Opc) (s : State) : Out :=
  .next (s.noPair (.lwait c d a) (fun s => s.laneByLane d (fun x l => x.lwaitLane l (s.src s.iss.gk l a))))

/-- LSTAT of a lane: 0 pending, 1 running, 2 + 256 * code done, 3 no child. -/
def State.lstatLane (s : State) (lane : Nat) (id : Word) : LOut × State :=
  if s.acqPending (lkOf s.iss.gk lane) then (.wait (.order none), s)
  else match s.childOf (s.group s.iss.gk).tk id with
  | none => (.val 3, s)
  | some (ln, x) => match x.st with
    | .complete code => (.val (BitVec.ofNat 32 (2 + 256 * code)), s.observe ln)
    | .running => (.val 1, s)
    | .queued => (.val 0, s)

def execLstat (c : Bool) (d a : Opc) (s : State) : Out :=
  .next (s.laneWord (.lstat c d a) (fun s =>
    if !s.nondetOk s.iss.gk then s.raiseAll (.of fcNONDET_OP)
    else (s.markNondet s.iss.gk).laneByLane d (fun x l => x.lstatLane l (s.src s.iss.gk l a))))

end Sys2Proof.Machine
end

