-- ==== Sys2Proof/Machine/MStream.lean ====
section
/-! DEFINITION. M-words (R191-R207): the sequencer of the team `State.cur` runs the word at its index. -/

namespace Sys2Proof.Machine

def State.seq (s : State) : Seq := (s.team s.cur).seq
def State.modSeq (s : State) (f : Seq → Seq) : State := s.modTeam s.cur (fun t => { t with seq := f t.seq })
def State.mreg (s : State) (n : BitVec 4) : Word := tget 0 s.seq.m n.toNat
def State.setM (s : State) (n : BitVec 4) (v : Word) : State := s.modSeq (fun q => { q with m := tset 0 q.m n.toNat v })
/-- The sequencer goes to the next M-word; waits at this one; faults on it. -/
def State.mnext (s : State) : State := s.modSeq (fun q => { q with idx := q.idx + 1, waiting := false, miss := none })
def State.mwait (s : State) : State := s.modSeq (fun q => { q with waiting := true, miss := none })
def State.mwaitFor (s : State) (w : Wait) : State := s.modSeq (fun q => { q with waiting := true, miss := some w })
def State.mfault (s : State) (f : FaultInfo) : State := s.raiseSeq s.cur f

/-- The outcome of an operation that the sequencer enters. -/
def State.mtake (s : State) : ORes → State
  | .ok s' => s'.mnext
  | .fault f => s.mfault f
  | .wait _ => s.mwait
  | .hold s' w => s'.mwaitFor w

/-- An array operation of the sequencer (R194-R200), with the values of its m registers. -/
def execTclaim (a : BitVec 4) (n : Opc) (s : State) : Out :=
  .next (s.mtake (s.claimIssue (s.bySeq s.cur) { a := s.mreg a, b := 0, c := 0 } n.toNat))
def execTrelease (a : BitVec 4) (n : Opc) (s : State) : Out :=
  .next (s.mtake (s.releaseIssue (s.bySeq s.cur) { a := s.mreg a, b := 0, c := 0 } n.toNat))
def execTload (a b : BitVec 4) (f : BitVec 3) (k : BitVec 4) (s : State) : Out :=
  .next (s.mtake (s.loadIssue (s.bySeq s.cur) { a := s.mreg a, b := s.mreg b, c := 0 } f.toNat k.toNat))
def execTzero (c : BitVec 4) (s : State) : Out :=
  .next (s.mtake (s.zeroRegionIssue (s.bySeq s.cur) { a := 0, b := 0, c := s.mreg c }))
def execTzeroSlot (a : BitVec 4) (s : State) : Out :=
  .next (s.mtake (s.zeroSlotIssue (s.bySeq s.cur) { a := s.mreg a, b := 0, c := 0 }))
/-- TMMA: `u` saturates, `i` accumulates in INT32. -/
def execTmma (a b c : BitVec 4) (u i : Bool) (s : State) : Out :=
  .next (s.mtake (s.mmaIssue (s.bySeq s.cur) { a := s.mreg a, b := s.mreg b, c := s.mreg c } i u))
def execTdrain (b c : BitVec 4) (f : BitVec 3) (p : BitVec 5) (s : State) : Out :=
  .next (s.mtake (s.drainIssue (s.bySeq s.cur) { a := 0, b := s.mreg b, c := s.mreg c } f.toNat p.toNat))

/-! ### Barriers and MPOST (R205) -/

/-- Array operations that the sequencer entered and that have not finished. -/
def State.seqOps (s : State) : Bool :=
  s.e.fifo.any (fun p => match p.2 with | some x => x.tk == s.cur && x.gk == 0 && !x.finished | none => false)

/-- The sequencer may release at TEAM scope: its operations have finished, its accesses are visible. -/
def State.seqMayRelease (s : State) : Bool := !s.seqOps && s.relReady .team (seqAgent s.cur)

/-- The sequencer joins the operations that it entered (R209): the view of its core rises to what they wrote (R268). -/
def State.seqJoin (s : State) : State :=
  let t := s.raiseViews ((s.team s.cur).cores.headD 0) (tget [] s.t.tagWrote (seqWrote s.cur))
  { t with t := { t.t with tagWrote := tset [] t.t.tagWrote (seqWrote s.cur) [] } }

/-- A barrier number of an immediate word. -/
def barNo (i : BitVec 22) : Option Nat := if 0 ≤ i.toInt && i.toInt < 16 then some i.toNat else none

def execMbararr (a : BitVec 4) (i : BitVec 22) (s : State) : Out :=
  .next (match barNo i with
    | none => s.mfault (.of fcILLEGAL_OPERAND)
    | some n =>
      let b := s.bar s.cur n
      if !s.seqMayRelease then s.mwait
      else if b.expected = 0 then s.mfault (.of fcBARRIER_STATE)
      else ((s.seqJoin.arrive s.cur n [seqAgent s.cur]).setM a b.gen).mnext)

/-- Every lane of a team has exited. -/
def State.lanesGone (s : State) (tk : Nat) : Bool :=
  (s.groupsOf tk).all (fun gk => (s.lanesOf gk).all (fun l => (s.lane (lkOf gk l)).st == .exited))

def execMbarwait (a : BitVec 4) (i : BitVec 22) (s : State) : Out :=
  .next (match barNo i with
    | none => s.mfault (.of fcILLEGAL_OPERAND)
    | some n =>
      if (s.bar s.cur n).gen != s.mreg a then (s.barReturn s.cur n (seqAgent s.cur)).mnext
      else if s.lanesGone s.cur then s.mfault (.of fcBARRIER_STATE)
      else s.mwait)

/-- MPOST stores m(A) at byte m(B) through the lead c1, as a release at TEAM scope. -/
def execMpost (a b : BitVec 4) (s : State) : Out :=
  let lead := gkOf s.cur 0
  let c := s.creg lead 1
  let off := (s.mreg b).toNat
  let ctx := (s.team s.cur).kern.ctx
  .next (match s.capSteps13 ctx c [tSCR] rW with
    | some e => s.mfault (capFault e c off)
    | none =>
      if !capBounds c off 4 then s.mfault (capFault fcCAP_BOUNDS c off)
      else if off % 4 != 0 then s.mfault (capFault fcMISALIGNED c off)
      else match (s.resolve s.cur ((s.team s.cur).cores.headD 0) c off 4 .write false false).1 with
        | .fault f => s.mfault f
        | .wait .. => s.mwait
        | .ok l =>
          if s.seqOps then s.mwait
          else
            let s := s.seqJoin
            (s.post { agent := seqAgent s.cur, gk := gkLane (seqAgent s.cur), lane := 0, kind := .store, loc := l, size := 4
                      val := (s.mreg a).zeroExtend 128, dst := .none, acq := none, rel := some .team, sync := some .team
                      nol1 := false, pkt := s.seq.idx, slot := 0, cap := c, off := off, issue := s.next }).2.mnext)

/-! ### Control of the stream (R204, R206) -/

def execMset (a : BitVec 4) (i : BitVec 22) (s : State) : Out := .next (s.setM a (i.signExtend 32)).mnext
def execMadd (a : BitVec 4) (i : BitVec 22) (s : State) : Out := .next (s.setM a (s.mreg a + i.signExtend 32)).mnext

/-- Words of a kernel's M-stream. -/
def Kern.msWords (k : Kern) : Nat := k.mslen / 4
/-- The M-word at an index. -/
def State.mwordAt (s : State) (tk idx : Nat) : Except TRes Word × State :=
  let t := s.team tk
  s.kernWord (t.cores.headD 0) t.kern (t.kern.msoff + 4 * idx)

/-- Where the scan for a matching MEND ends. -/
inductive Scan where
  | at_ (idx : Nat)
  | gone
  | miss (r : TRes) (idx : Nat)

/-- The word after the MEND that matches a loop, from a word inside it at a depth of nested loops. -/
def State.afterMend (s : State) (tk idx depth : Nat) : Nat → Scan × State
  | 0 => (.gone, s)
  | fuel + 1 =>
    match s.mwordAt tk idx with
    | (.error e, s) => (.miss e idx, s)
    | (.ok w, s) =>
      let op := (w >>> 26).toNat
      if op = 0x0A && depth = 0 then (.at_ (idx + 1), s)
      else State.afterMend s tk (idx + 1) (if op = 0x09 then depth + 1 else if op = 0x0A then depth - 1 else depth) fuel

/-- A word of the image that cannot be read: the sequencer waits, or takes FETCH_FAULT. -/
def State.mmiss (s : State) (r : TRes) (off : Nat) : State :=
  let t := s.team s.cur
  match r with
  | .wait w => (s.mergeWait (t.cores.headD 0) t.kern.ctx t.kern.kobj ((t.kern.koff + off) / 65536) w (.seq s.cur) .read).mwaitFor
      (.merge t.kern.ctx t.kern.kobj ((t.kern.koff + off) / 65536) 0 0)
  | _ => s.mfault (.of fcFETCH_FAULT)

def execMloop (a : BitVec 4) (i : BitVec 22) (s : State) : Out :=
  let k := (s.team s.cur).kern
  let q := s.seq
  let n := if i.toInt > 0 then i.toNat else (s.mreg a).toNat
  .next (
    if i.toInt < 0 || q.loops.length ≥ 4 then s.mfault (.of fcILLEGAL_OPERAND)
    else if n = 0 then
      match s.afterMend s.cur (q.idx + 1) 0 (k.msWords - (q.idx + 1)) with
      | (.at_ j, s) => s.modSeq (fun q => { q with idx := j, waiting := false, miss := none })
      | (.gone, s) => (s.modSeq (fun q => { q with idx := k.msWords })).mfault (.of fcFETCH_FAULT)
      | (.miss r j, s) => s.mmiss r (k.msoff + 4 * j)
    else s.modSeq (fun q => { q with loops := { start := q.idx + 1, left := n } :: q.loops, idx := q.idx + 1, waiting := false, miss := none }))

def execMend (s : State) : Out :=
  .next (match s.seq.loops with
    | [] => s.mfault (.of fcILLEGAL_OPERAND)
    | l :: ls =>
      if l.left ≤ 1 then s.modSeq (fun q => { q with loops := ls, idx := q.idx + 1, waiting := false, miss := none })
      else s.modSeq (fun q => { q with loops := { l with left := l.left - 1 } :: ls, idx := l.start, waiting := false, miss := none }))

/-- MEXIT (R206). -/
def execMexit (s : State) : Out := .next (if s.seqOps then s.mwait else s.stopSeq s.cur)

end Sys2Proof.Machine
end

