-- ==== Sys2Proof/Machine/Memory.lean ====
section
/-! DEFINITION. Loads and stores, acquire and release, cache words, multicast and reducing stores, capability loads
and stores (R108, R109, R144-R147, R152, R154, R155), MAJ 0x18 to 0x1B, 0x1F and 0x2D. -/

namespace Sys2Proof.Machine

/-! ### Loads and stores (R144, R146) -/

def loadSpec (k : BitVec 3) (z : Nat) (nol1 : Bool) : MemSpec :=
  { cap := k.toNat, z := z, acc := .read, allow := allowAll, need := rR, kind := .load, nol1 := nol1 }
def storeSpec (k : BitVec 3) (z : Nat) : MemSpec :=
  { cap := k.toNat, z := z, acc := .write, allow := allowAll, need := rW, kind := .store }

def execLd (c : Bool) (d a : Opc) (k : BitVec 3) (l : BitVec 4) (h : Hint) (w : Bool) (s : State) : Out :=
  let regs := if w then 2 else 1
  .next (s.memWord (.ld c d a k l h w) (loadSpec k (4 * regs) (h == .nol1)) a (isS d) (fun _ => .load) (fun _ => 0)
    (fun _ => dstOf d regs 32 false))

def narrowBytes (w : NarrowTy) : Nat := match w with | .n8 | .i8 => 1 | .n16 | .i16 => 2
def narrowSigned (w : NarrowTy) : Bool := match w with | .i8 | .i16 => true | _ => false
def execLdNarrow (c : Bool) (d a : Opc) (k : BitVec 3) (l : BitVec 4) (h : Hint) (w : NarrowTy) (s : State) : Out :=
  let z := narrowBytes w
  .next (s.memWord (.ldNarrow c d a k l h w) (loadSpec k z (h == .nol1)) a (isS d) (fun _ => .load) (fun _ => 0)
    (fun _ => dstOf d 1 (8 * z) (narrowSigned w)))

def stBytes (w : StW) : Nat := match w with | .b8 => 1 | .b16 => 2 | .b32 => 4 | .b64 => 8
def execSt (c : Bool) (v a : Opc) (k : BitVec 3) (l : BitVec 4) (h : Hint) (w : StW) (s : State) : Out :=
  let z := stBytes w
  .next (s.memWord (.st c v a k l h w) (storeSpec k z) a false (fun _ => .store)
    (fun m => BitVec.ofNat 128 (s.storeVal m v (if z = 8 then 2 else 1) % 2 ^ (8 * z))) (fun _ => .none))

/-- LDACQ and STREL (R147): scoped accesses of 32 bits. -/
def execLdacq (c : Bool) (d a : Opc) (k : BitVec 3) (l : BitVec 4) (sc : Scope) (s : State) : Out :=
  .next (s.memWord (.ldacq c d a k l sc) { loadSpec k 4 false with acq := some sc, sync := some sc } a (isS d)
    (fun _ => .load) (fun _ => 0) (fun _ => dstOf d 1 32 false))
def execStrel (c : Bool) (v a : Opc) (k : BitVec 3) (l : BitVec 4) (sc : Scope) (s : State) : Out :=
  .next (s.memWord (.strel c v a k l sc) { storeSpec k 4 with rel := some sc, sync := some sc } a false
    (fun _ => .store) (fun m => BitVec.ofNat 128 (s.storeVal m v 1)) (fun _ => .none))

/-! ### Capability loads and stores (R108, R109): one load per issue; every lane of an STCAP stores -/

def capLoadSpec (k : BitVec 3) : MemSpec :=
  { cap := k.toNat, z := 16, acc := .read, allow := [tMEM], need := rL, caps := true, kind := .load }
def capStoreSpec (k : BitVec 3) : MemSpec :=
  { cap := k.toNat, z := 16, acc := .write, allow := [tMEM], need := rS, caps := true, kind := .store }

/-- LDCAP (R108): one access for each issue, by the lowest-numbered executing lane, as R146 says of LD to an s register
(log 53). -/
def execLdcap (c : Bool) (d a : Opc) (k : BitVec 3) (l : BitVec 4) (s : State) : Out :=
  .next (s.memWord (.ldcap c d a k l) (capLoadSpec k) a true (fun _ => .load) (fun _ => 0) (fun _ => .c d.toNat))

/-- The check of C(S), after those of C(A), before the memory port. -/
def execStcap (c : Bool) (v a : Opc) (k : BitVec 3) (l : BitVec 4) (s : State) : Out :=
  let gk := s.iss.gk
  let sp := capStoreSpec k
  let x := s.heldCap gk s.low v.toNat
  let bad := (s.capCheckAll (s.kern gk).ctx (s.heldCap gk s.low sp.cap) sp.allow sp.need ((s.src gk s.low a).toNat * 16) 16).isSome
  .next (match capUse x with
    | some f => if operandsOk (s.group gk).regs (.stcap c v a k l) && !bad then s.raiseAll f
        else s.memWord (.stcap c v a k l) sp a false (fun _ => .store) (fun _ => x) (fun _ => .none)
    | none => s.memWord (.stcap c v a k l) sp a false (fun _ => .store) (fun _ => x) (fun _ => .none))

/-! ### Cache words (R152) -/

/-- A location widened outward to whole 64-byte sectors: where it starts, and its bytes. -/
def Loc.widen (l : Loc) (n : Nat) : Loc × Nat :=
  let a := l.space.2
  let m := (a + n + 63) / 64 * 64 - a / 64 * 64
  match l with
  | .dev a p nc => (.dev (a / 64 * 64) p nc, m)
  | .host a => (.host (a / 64 * 64), m)
  | .peer d a => (.peer d (a / 64 * 64), m)
  | l => (l, n)

/-- The pieces of a range resolved, each in one page; or the fault or wait that one meets. -/
def State.cacheLocs (s : State) (gk : Nat) (c : Cap) : List (Nat × Nat) → Except RRes (List (Loc × Nat)) × State
  | [] => (.ok [], s)
  | (a, n) :: rest =>
    match s.resolve (s.group gk).tk (s.group gk).core c (a - Cap.base c) n .read false false with
    | (.ok l, s) => match State.cacheLocs s gk c rest with
      | (.ok ls, s) => (.ok (l.widen n :: ls), s)
      | r => r
    | (r, s) => (.error r, s)

/-- CWB or CINV for one lane: a range that a type without an L1 copy names has no effect (Table 7.1). -/
def State.cacheLane (s : State) (i : Instr) (k : BitVec 3) (issue lane off n : Nat) (inval : Bool) : State :=
  let gk := s.iss.gk
  let lk := lkOf gk lane
  let c := s.heldCap gk lane k.toNat
  let done (s : State) : State := (s.openWindow i lane 0).advLane lk
  match s.capSteps13 (s.kern gk).ctx c allowAll rR with
  | some e => s.raise lk s.here (capFault e c off)
  | none =>
    if n = 0 then done s
    else if !capBounds c off n then s.raise lk s.here (capFault fcCAP_BOUNDS c off)
    else if !([tMEM, tPEER, tHOST].contains (Cap.type c)) then done s
    else match s.cacheLocs gk c (cutPages (Cap.base c + off) n) with
      | (.error (.wait obj page w), s) =>
        (s.mergeWait (s.group gk).core (s.kern gk).ctx obj page w (.group gk lane) .read).waitPage gk [lane]
          (s.kern gk).ctx obj page off (Cap.type c)
      | (.error (.fault f), s) => s.raise lk s.here f
      | (.error (.ok _), s) => done s
      | (.ok ls, s) => done (ls.foldl (fun s p => (s.post
          { agent := lk, gk := gk, lane := lane, kind := .clean p.2 inval, loc := p.1, size := p.2, val := 0, dst := .none
            acq := none, rel := none, sync := none, nol1 := false, pkt := s.iss.pkt, slot := s.iss.slot, cap := c, off := off
            issue := issue }).2) s)

def State.cacheWord (s : State) (i : Instr) (v a : Opc) (k : BitVec 3) (inval : Bool) : State :=
  s.laneWord i (fun s => s.each (fun x l =>
    if s.acqPending (lkOf s.iss.gk l) then x.waitLanes s.iss.gk [l] (.order none)
    else x.cacheLane i k s.next l (s.src s.iss.gk l a).toNat (s.src s.iss.gk l v).toNat inval))

def execCwb (c : Bool) (v a : Opc) (k : BitVec 3) (l : BitVec 4) (s : State) : Out :=
  .next (s.cacheWord (.cwb c v a k l) v a k false)
def execCinv (c : Bool) (v a : Opc) (k : BitVec 3) (l : BitVec 4) (s : State) : Out :=
  .next (s.cacheWord (.cinv c v a k l) v a k true)
/-- PREF moves bytes toward the core and changes no value; a check that fails makes it do nothing. -/
def execPref (c : Bool) (v a : Opc) (k : BitVec 3) (l : BitVec 4) (s : State) : Out :=
  .next (s.laneWord (.pref c v a k l) (fun s => s.each (fun x m =>
    (x.openWindow (.pref c v a k l) m 0).advLane (lkOf s.iss.gk m))))

/-! ### Multicast and reducing stores (R154, R155) -/

/-- Where a multicast access of 4 bytes goes, with the mask of refusing destinations. -/
inductive MRes where
  | one (l : Loc)
  | many (ls : List Loc) (refused : Nat)
  | wait (obj page : Nat) (r : WaitReason)
  | fault (f : FaultInfo)

/-- The members of a group's gang whose slice is present. -/
def State.presentMembers (s : State) (tk : Nat) : List Nat :=
  (s.gangOf tk).filter (fun m => s.gangState m == .resident || s.gangState m == .leaving)

def State.mcDests (s : State) (gk : Nat) (c : Cap) (off : Nat) (acc : AccKind) : MRes × State :=
  let tk := (s.group gk).tk
  if Cap.type c == tGWIN then
    let o := (Cap.base c + off) % 2 ^ 24
    if o + 4 > (s.kern gk).scrBytes then (.fault (capFault fcCAP_BOUNDS c off), s)
    else (.many ((s.presentMembers tk).map (fun m => .scr m o)) 0, s)
  else match s.resolve tk (s.group gk).core c off 4 acc false false with
    | (.fault f, s) => (.fault f, s)
    | (.wait o p w, s) => (.wait o p w, s)
    | (.ok (.peer d x), s) =>
      if d < 16 then (.one (.peer d x), s)
      else
        let (no, s) := s.mcRefused (d - 16) x
        (.many ((s.mcMembers (d - 16)).filterMap (fun m => if bitField no m 1 = 1 then none else some (.peer m x))) no, s)
    | (.ok l, s) => (.one l, s)

/-- STMC or STRED for one lane. -/
def State.mcLane (s : State) (i : Instr) (sp : MemSpec) (lane off : Nat) (val : Word) : State :=
  let gk := s.iss.gk
  let lk := lkOf gk lane
  let c := s.heldCap gk lane sp.cap
  let ev (l : Loc) : MemEv :=
    { agent := lk, gk := gk, lane := lane, kind := sp.kind, loc := l, size := 4, val := val.zeroExtend 128, dst := .none
      acq := none, rel := none, sync := none, nol1 := false, pkt := s.iss.pkt, slot := s.iss.slot, cap := c, off := off
      issue := sp.issue, mc := true }
  match s.capCheckAll (s.kern gk).ctx c sp.allow sp.need off 4 with
  | some f => s.raise lk s.here f
  | none => match s.mcDests gk c off sp.acc with
    | (.fault f, s) => s.raise lk s.here f
    | (.wait obj page w, s) =>
      (s.mergeWait (s.group gk).core (s.kern gk).ctx obj page w (.group gk lane) sp.acc).waitPage gk [lane]
        (s.kern gk).ctx obj page off (Cap.type c)
    | (.one l, s) => (s.postAccess i sp { ev l with mc := false }).2
    | (.many ls no, s) =>
      let s := ls.foldl (fun s l => (s.post (ev l)).2) s
      -- where a destination refuses, the lane parks once all have answered (R155)
      if no = 0 then (s.openWindow i lane 0).advLane lk
      else (s.waitLanes gk [lane] (.answers sp.issue no c off)).answered lk

def State.mcWord (s : State) (i : Instr) (v a : Opc) (k : BitVec 3) (acc : AccKind) (allow : List Nat) (need : Nat)
    (kind : EvKind) : State :=
  let sp : MemSpec := { cap := k.toNat, z := 4, acc := acc, allow := allow, need := need, kind := kind, issue := s.next }
  s.laneWord i (fun s => s.each (fun x l =>
    if s.acqPending (lkOf s.iss.gk l) then x.waitLanes s.iss.gk [l] (.order none)
    else x.mcLane i sp l ((s.src s.iss.gk l a).toNat * 4) (s.src s.iss.gk l v)))

def execStmc (c : Bool) (v a : Opc) (k : BitVec 3) (l : BitVec 4) (s : State) : Out :=
  .next (s.mcWord (.stmc c v a k l) v a k .write allowMc (rW + rM) .store)
def execStredAddF32 (c : Bool) (v a : Opc) (k : BitVec 3) (l : BitVec 4) (s : State) : Out :=
  .next (s.mcWord (.stredAddF32 c v a k l) v a k .atomic allowRed (rA + rM) (.red 0))
def execStredAddB32 (c : Bool) (v a : Opc) (k : BitVec 3) (l : BitVec 4) (s : State) : Out :=
  .next (s.mcWord (.stredAddB32 c v a k l) v a k .atomic allowRed (rA + rM) (.red 1))
def execStredMaxF32 (c : Bool) (v a : Opc) (k : BitVec 3) (l : BitVec 4) (s : State) : Out :=
  .next (s.mcWord (.stredMaxF32 c v a k l) v a k .atomic allowRed (rA + rM) (.red 2))

end Sys2Proof.Machine
end

