-- ==== Sys2Proof/Machine/Ordering.lean ====
section
/-! DEFINITION. The steps of the ordering machine as events (R259, Table 12.2). An event whose condition does not hold
changes nothing. -/

namespace Sys2Proof.Machine

/-- What follows an event: the other results of a lane that it parked land (R49), a lane asked to halt does once its results
have landed (R364), and a multicast that is answered parks its lane (R155). -/
def State.afterEvent (s : State) (ev : Nat) (t : State) : State :=
  match tget none s.o.pend ev with
  | some e =>
    ((e.lane :: e.also).foldl (fun t l => t.haltLanded (lkOf e.gk l)) (t.settleAll e.gk (e.lane :: e.also))).answered e.agent
  | none => t

/-- Step 1. -/
def execStorePerform (ev : Nat) (s : State) : Out := .next (s.afterEvent ev (s.performStore ev))

/-- Step 2. -/
def execCoreBufferDrain (store : Nat) (s : State) : Out :=
  .next (match tget none s.o.cbuf store with
    | some b => if s.mayDrain store b then (s.drainStore store b).answered b.agent else s
    | none => s)

/-- Step 3; `pick` says how many stores before the newest it may go. -/
def execLoadPerform (ev pick : Nat) (s : State) : Out := .next (s.afterEvent ev (s.performLoad ev pick))

/-- Step 4. -/
def execAtomicPerform (ev : Nat) (s : State) : Out := .next (s.afterEvent ev (s.performAtomic ev))

/-- No older entry of the system buffer is for the location; the host's are delivered in the order of its writes (R321). -/
def State.mayDeliver (s : State) (b : BufStore) : Bool :=
  s.pathOpen b.loc &&
  s.o.sbuf.all (fun p => match p.2 with
    | some o => o.id ≥ b.id || !(s.common o.loc o.size b.loc b.size || o.agent == hostAgent && b.agent == hostAgent) | none => true)

/-- Step 5; a write that covers a poisoned sector whole clears its mark (R353). -/
def State.deliverStore (s : State) (id : Nat) (b : BufStore) : State :=
  let s := { s with o := { s.o with sbuf := tset none s.o.sbuf id none } }
  let s := (s.writeNow b.core b.loc b.size b.val.toNat).setRel b.loc b.size (releasesOf b.agent b.rel)
  match b.loc with | .dev a _ _ => s.clearPoison a b.size | _ => s
def execSystemBufferDeliver (store : Nat) (s : State) : Out :=
  .next (match tget none s.o.sbuf store with
    | some b => if s.mayDeliver b then (s.deliverStore store b).answered b.agent else s
    | none => s)

/-- Step 6: an item of a thread's work; of a pair launch, a word that binning reads (R232), or the set records of a pair that
starts again (R186). -/
def execEngineAccess (th item : Nat) (s : State) : Out :=
  .next (match s.thread th with
    | some x =>
      if x.kind != .pair then s.engineStep th item
      else if x.pair.phase == .binning then s.binRead th item
      else s.pairFetch th item
    | none => s)

/-- Step 7: the view of the bytes of a granule rises to a later store. -/
def execViewRaise (core granule stamp : Nat) (s : State) : Out :=
  .next (s.raiseView core (16 * granule) 16 (min stamp (s.newest (16 * granule))))

/-- Step 8: an entry dropped. -/
def execExtentCacheDrop (entry : Nat) (s : State) : Out :=
  .next (match s.x.cache[entry]? with | some x => s.dropEntry x | none => s)

/-- Step 8: an entry filled by a walk that translates. No access is made, so neither A nor D is set (R304). -/
def execExtentCacheFill (core ctx obj page : Nat) (kind : AccKind) (s : State) : Out :=
  .next (if core ≥ 128 || !s.ctxEn ctx then s
    else match s.walk core ctx obj (page * 65536) kind with
      | .ok x => if x.otype == 3 then s else s.fillEntry core x
      | .error _ => s)

end Sys2Proof.Machine
end

