-- ==== Sys2Proof/Machine/OwlEvents.lean ====
section
/-! DEFINITION. The events of Owl (R361-R371): its commands as they take effect, grants, samples, the LOST record. A
command on a group that does not exist, or on lanes that are not halted, changes nothing (Table 23.2). -/

namespace Sys2Proof.Machine

/-- A group of a team that runs. -/
def State.groupLives (s : State) (gk : Nat) : Bool := (s.team (s.group gk).tk).live && (s.group gk).width != 0

/-- A command of a die's port on a group. -/
def State.owlRun (s : State) (gk op : Nat) (past : Bool) (mask : DWord) : State :=
  if s.groupLives gk then s.owlDo (dieOf (s.group gk).core) (s.group gk).tk gk op past mask else s

/-- OWL_HALT. -/
def execOwlHalt (gk : Nat) (mask : DWord) (s : State) : Out := .next (s.owlRun gk 1 false mask)

/-- OWL_RESUME. -/
def execOwlResume (gk : Nat) (mask : DWord) (past : Bool) (s : State) : Out :=
  .next (s.owlRun gk 2 past mask)

/-- OWL_STEP. -/
def execOwlStep (gk : Nat) (mask : DWord) (past : Bool) (s : State) : Out :=
  .next (s.owlRun gk 3 past mask)

/-- A command on the sequencer of a team: its first group names it. -/
def State.owlRunSeq (s : State) (tk op : Nat) (past : Bool) : State :=
  if (s.team tk).live then s.owlDo (dieOf ((s.team tk).cores.headD 0)) tk (gkOf tk 0) op past 0 else s

/-- OWL_HALTSEQ, OWL_RESUMESEQ, OWL_STEPSEQ. -/
def execOwlHaltseq (tk : Nat) (s : State) : Out := .next (s.owlRunSeq tk 4 false)
def execOwlResumeseq (tk : Nat) (past : Bool) (s : State) : Out := .next (s.owlRunSeq tk 5 past)
def execOwlStepseq (tk : Nat) (past : Bool) (s : State) : Out := .next (s.owlRunSeq tk 6 past)

/-- GRANT_WRITE: of the hypervisor requester alone (R370). -/
def execGrantWrite (die : Nat) (data : DWord) (hyper : Bool) (s : State) : Out :=
  .next (s.afterHost (fun s => if die < 4 && hyper && s.h.readyBit then s.writeGrant die data else s))

/-- LCCLEAR_WRITE. -/
def execLcclearWrite (core : Nat) (s : State) : Out :=
  .next (s.afterHost (fun s => if core < 128 && s.h.readyBit then s.lcclear core else s))

/-- TRACE_LOST_RECORD. -/
def execTraceLostRecord (die : Nat) (s : State) : Out := .next (if die < 4 then s.traceLost die else s)

/-! ### Sampling (R367) -/

/-- The groups of a context on a partition, in rotation after the one sampled last. -/
def sampleKey (idx gk : Nat) : Nat := idx * 2 ^ 80 + gk
def State.nextSample (s : State) (core part ctx : Nat) : Option Nat :=
  let gs := (s.g.groups.filter (fun p => p.2.core == core && p.2.part == part && (s.team p.2.tk).live &&
    !(s.team p.2.tk).saved && (s.team p.2.tk).kern.ctx == ctx)).map (fun p => (sampleKey p.2.idx p.1, p.1))
  let last := tget 0 s.w.sampled (core * 4 + part)
  let least (l : List (Nat × Nat)) : Option Nat :=
    (l.foldl (fun (m : Option (Nat × Nat)) p => match m with | some q => if p.1 < q.1 then some p else some q | none => some p) none).map (·.2)
  (least (gs.filter (fun p => p.1 ≥ last))).orElse (fun _ => least gs)

/-- The STATE of a sampled lane, with its PC (Table 23.4). -/
def State.sampleState (s : State) (gk : Nat) : Nat × Pc :=
  let g := s.group gk
  let l := s.lane (lkOf gk g.lastLane)
  if g.issuedNow then (0, g.last.getD l.pc)
  else match l.st with
    | .ready => (1, l.pc)
    | .waiting (.merge _ _ _ _ 0) => (4, l.pc)
    | .waiting _ => (2, l.pc)
    | .parked _ | .halted _ => (3, l.pc)
    | .exited => (5, l.pc)

/-- SAMPLE_TIMER. -/
def execSampleTimer (core part : Nat) (s : State) : Out :=
  let n := (s.owl (dieOf core)).sampctl.toNat
  .next (if core ≥ 128 || part ≥ 4 || bitField n 63 1 = 0 then s
    else match s.nextSample core part (bitField n 0 6) with
    | none => s
    | some gk =>
      let g := s.group gk
      let s := { s with w := { s.w with sampled := tset 0 s.w.sampled (core * 4 + part) (sampleKey g.idx gk + 1) } }
      let r := s.sampleState gk
      s.laneTrace (lkOf gk g.lastLane) r.2 1 r.1 0)

end Sys2Proof.Machine
end

