-- ==== Sys2Proof/Machine/PairWords.lean ====
section
/-! DEFINITION. Words of pair launches (R181, R184, R186, R187, R245), MAJ 0x29. -/

namespace Sys2Proof.Machine

/-- PAIRGO: once per issue, never by a pair lane (R224). -/
def execPairgo (c : Bool) (t : BitVec 6) (q : BitVec 3) (a : Opc) (s : State) : Out :=
  .next (s.noPair (.pairgo c t q a) (fun s =>
    s.once (s.pairgoIssue s.iss.gk s.low t.toNat q.toNat (s.src s.iss.gk s.low a).toNat)))

/-- PAIRRELAUNCH reads the record's copy; its status goes to S(A + 1). -/
def State.relaunchIssue (s : State) (cs : Nat) (a : Opc) : ORes :=
  let gk := s.iss.gk
  let g := s.group gk
  let c := s.heldCap gk s.low cs
  let off := (s.src gk s.low a).toNat
  match s.capSteps13 (s.kern gk).ctx c allowAll rR with
  | some e => .fault (capFault e c off)
  | none =>
    if !capBounds c off 64 then .fault (capFault fcCAP_BOUNDS c off)
    else if off % 64 != 0 then .fault (capFault fcMISALIGNED c off)
    else if s.acqAny then .wait (.order none)
    -- a release at TEAM scope of the handler's earlier accesses (R275)
    else if !s.allRel .team s.iss.lanes then .wait (.order (some .team))
    else match s.recordRead gk s.low c off with
      | .fault f => .fault f
      | .wait s w => .hold s w
      | .ok r s =>
        if pairCopyBad r then .fault (.of fcBAD_PAIR_RECORD)
        else
          let (st, s) := s.pairAgain g.tk r (s.iss.lanes.flatMap (fun l => s.hist (lkOf gk l)))
          .ok (s.setS gk (a.toNat - 95) (BitVec.ofNat 32 st))

def execPairrelaunch (c : Bool) (q : BitVec 3) (a : Opc) (s : State) : Out :=
  .next (s.laneWord (.pairrelaunch c q a) (fun s =>
    let g := s.group s.iss.gk
    if g.pair || (s.kern s.iss.gk).handler != some g.role then s.raiseAll (.of fcNOT_HANDLER)
    else s.once (s.relaunchIssue q.toNat a)))

/-- The staged words of a side replaced. -/
def PairLane.stage (p : PairLane) (isB : Bool) (ws : List Word) : PairLane :=
  if isB then { p with sideB := some ws } else { p with sideA := some ws }

/-- PAIROUT of a lane (R184): `b` true stages the B side. -/
def State.pairoutLane (s : State) (lane : Nat) (a : Opc) (b : Bool) : State :=
  let gk := s.iss.gk
  let g := s.group gk
  let lk := lkOf gk lane
  match s.thread (s.lane lk).pair.th with
  | some x =>
    let r := x.pair.record.toNat
    let n := prSideWords r
    if !g.pair || !isV a || a.toNat + n > g.regs || (b && prMode r != 1) then s.raise lk s.here (.of fcILLEGAL_OPERAND)
    else
      let ws := (List.range n).map (fun i => s.vreg gk lane (a.toNat + i))
      (s.modLane lk (fun l => { l with pair := l.pair.stage b ws })).advLane lk
  | none => s.raise lk s.here (.of fcILLEGAL_OPERAND)

def execPairout (c : Bool) (a : Opc) (b : Bool) (s : State) : Out :=
  .next (s.laneWord (.pairout c a b) (fun s => s.each (fun x l => x.pairoutLane l a b)))

/-- PAIRSTAT (R187): the launch that holds the tag on this core, or what its completion left (R242). -/
def State.pairstat (s : State) (gk t : Nat) : Word :=
  let g := s.group gk
  match s.e.threads.find? (fun p => match p.2 with
    | some x => x.kind == .pair && x.tk == g.tk && x.core == g.core && x.tag == t | none => false) with
  | some (th, some x) => s.pairWord th x false
  | _ => s.pairDone gk t

def execPairstat (c : Bool) (d a : Opc) (s : State) : Out :=
  .next (s.laneWord (.pairstat c d a) (fun s =>
    let gk := s.iss.gk
    let one (l : Nat) : LaneRes :=
      let t := (s.src gk l a).toNat
      if t ≥ (s.kern gk).tagb then .trap (.of fcILLEGAL_OPERAND)
      else if !s.nondetOk gk then .trap (.of fcNONDET_OP) else .w (s.pairstat gk t)
    (if s.nondetOk gk then s.markNondet gk else s).deliver d (s.iss.lanes.map (fun l => (l, one l)))))

end Sys2Proof.Machine
end

