-- ==== Sys2Proof/Machine/Softmax.lean ====
section
/-! DEFINITION. Online softmax (R94-R97) and random numbers (R98-R100), MAJ 0x13. -/

namespace Sys2Proof.Machine

/-- The registers a softmax word writes: every one the canonical NaN when an operand or a result is a NaN (R97). -/
def smxOut (ops res : List Nat) : LaneRes :=
  if (ops ++ res).any f32.isNan then .val (res.map (fun _ => BitVec.ofNat 32 f32.qnan)) else .val (res.map (BitVec.ofNat 32))

/-- The merge of two states: the registers D to D + 3 (R94, R95). -/
def smxRes (nbv m1 s1 m2 s2 : Nat) : LaneRes :=
  let r := smxMerge nbv m1 s1 m2 s2
  smxOut [m1, s1, m2, s2] [r.1, r.2.1, r.2.2.1, r.2.2.2]

/-- SMXFIN (R96). -/
def smxFinRes (nbv m s : Nat) : LaneRes := smxOut [m, s] [if s % 2 ^ 31 = 0 then 0 else (fRcp nbv s).bits]

/-- One round of Philox-4x32 and its key schedule (R98). -/
def philoxGo : Nat → Word → Word → Word → Word → Word → Word → List Word
  | 0, x0, x1, x2, x3, _, _ => [x0, x1, x2, x3]
  | n + 1, x0, x1, x2, x3, k0, k1 =>
    let p0 : DWord := (0xD2511F53 : Word).zeroExtend 64 * x0.zeroExtend 64
    let p1 : DWord := (0xCD9E8D57 : Word).zeroExtend 64 * x2.zeroExtend 64
    philoxGo n (hiW p1 ^^^ x1 ^^^ k0) (loW p1) (hiW p0 ^^^ x3 ^^^ k1) (loW p0) (k0 + 0x9E3779B9) (k1 + 0xBB67AE85)
def philox (x0 x1 x2 x3 k0 k1 : Word) : List Word := philoxGo 10 x0 x1 x2 x3 k0 k1

/-- Draw n of a lane (R98). -/
def State.drawOf (s : State) (gk lane n : Nat) : Word :=
  let g := s.group gk
  let t := s.team g.tk
  let seed := t.kern.seed
  let p := (s.lane (lkOf gk lane)).pair
  let x0 : Word := if g.pair then BitVec.ofNat 32 (p.b * 256 + n / 4) else BitVec.ofNat 32 (n / 4)
  let x1 : Word := if g.pair then 0x80000000 ||| BitVec.ofNat 32 p.a else BitVec.ofNat 32 (g.idx * g.width + lane)
  (philox x0 x1 (BitVec.ofNat 32 t.idx) (BitVec.ofNat 32 (s.launchOf t.ln).serial) (loW seed) (hiW seed)).getD (n % 4) 0

/-- RANDN's variate from two draws (R99). -/
def normal (nbv : Nat) (w0 w1 : Word) : Nat :=
  let u1 := (f32.roundQ .rne false (w0.toNat / 256 + 1) (2 ^ 24)).bits
  let u2 := (f32.roundQ .rne false (w1.toNat / 256) (2 ^ 24)).bits
  let t := (fMul nbv f32 .rne (fLog2 nbv u1).bits 0xBFB17218).bits
  (fMul nbv f32 .rne (fSqrt nbv t).bits (fCos nbv (fMul nbv f32 .rne u2 0x40C90FDB).bits).bits).bits

/-- A word that takes k draws of each executing lane: a pair lane's draws are numbered below 1,024 (R100). -/
def State.drawWord (s : State) (i : Instr) (d : Opc) (k : Nat) (f : Nat → Nat → Word) : State :=
  s.laneWord i (fun s =>
    let gk := s.iss.gk
    let n (l : Nat) : Nat := (s.lane (lkOf gk l)).draws.toNat
    let res := s.iss.lanes.map (fun l =>
      (l, if (s.group gk).pair && n l + k > 1024 then LaneRes.trap (.of fcILLEGAL_OPERAND) else .w (f l (n l))))
    s.deliverWith d res (fun t => res.foldl (fun t p => match p.2 with
      | .val _ => t.modLane (lkOf gk p.1) (fun x => { x with draws := x.draws + BitVec.ofNat 32 k })
      | .trap _ => t) t))

def execSmxupd (c : Bool) (d a : Opc) (s : State) : Out :=
  .next (s.compute (.smxupd c d a) d (fun l =>
    let r (o : Opc) : Nat := (s.src s.iss.gk l o).toNat
    smxRes s.nbv (r d) (r (d + 1)) (r a) 0x3F800000))
def execSmxmrg (c : Bool) (d a : Opc) (s : State) : Out :=
  .next (s.compute (.smxmrg c d a) d (fun l =>
    let r (o : Opc) : Nat := (s.src s.iss.gk l o).toNat
    let p := s.src64 s.iss.gk l a
    smxRes s.nbv (r d) (r (d + 1)) (loW p).toNat (hiW p).toNat))
def execSmxfin (c : Bool) (d a : Opc) (s : State) : Out :=
  .next (s.compute (.smxfin c d a) d (fun l =>
    let p := s.src64 s.iss.gk l a
    smxFinRes s.nbv (loW p).toNat (hiW p).toNat))
def execRand (c : Bool) (d : Opc) (s : State) : Out :=
  .next (s.drawWord (.rand c d) d 1 (fun l n => s.drawOf s.iss.gk l n))
def execRandn (c : Bool) (d : Opc) (s : State) : Out :=
  .next (s.drawWord (.randn c d) d 2 (fun l n =>
    BitVec.ofNat 32 (normal s.nbv (s.drawOf s.iss.gk l n) (s.drawOf s.iss.gk l ((n + 1) % 2 ^ 32)))))

end Sys2Proof.Machine
end

