-- ==== Sys2Proof/Machine/Special.lean ====
section
/-! DEFINITION. Special functions and integer division (R84-R87), MAJ 0x10. -/

namespace Sys2Proof.Machine

/-- An integer division or remainder (R87): a zero divisor raises the trap of its bit, else gives its stated result. -/
def divRes (fl : BitVec 5) (b zero res : Word) : LaneRes :=
  if b = 0 then (match trapFor fl false true false with | some f => .trap f | none => .w zero) else .w res

def execRcp (c : Bool) (d a : Opc) (s : State) : Out := .next (s.fp1 (.rcp c d a) d a fRcp)
def execRsq (c : Bool) (d a : Opc) (s : State) : Out := .next (s.fp1 (.rsq c d a) d a fRsq)
def execSqrt (c : Bool) (d a : Opc) (s : State) : Out := .next (s.fp1 (.sqrt c d a) d a fSqrt)
def execDiv (c : Bool) (d a b : Opc) (s : State) : Out := .next (s.fp2 (.div c d a b) d a b (fun n => fDiv n f32))
def execExp2 (c : Bool) (d a : Opc) (s : State) : Out := .next (s.fp1 (.exp2 c d a) d a fExp2)
def execLog2 (c : Bool) (d a : Opc) (s : State) : Out := .next (s.fp1 (.log2 c d a) d a fLog2)
def execSin (c : Bool) (d a : Opc) (s : State) : Out := .next (s.fp1 (.sin c d a) d a fSin)
def execCos (c : Bool) (d a : Opc) (s : State) : Out := .next (s.fp1 (.cos c d a) d a fCos)
def execTanh (c : Bool) (d a : Opc) (s : State) : Out := .next (s.fp1 (.tanh c d a) d a fTanh)
def execIdivI (c : Bool) (d a b : Opc) (s : State) : Out :=
  .next (s.bin (.idivI c d a b) d a b (fun x y => divRes s.fl y 0xFFFFFFFF (x.sdiv y)))
def execIdivN (c : Bool) (d a b : Opc) (s : State) : Out :=
  .next (s.bin (.idivN c d a b) d a b (fun x y => divRes s.fl y 0xFFFFFFFF (x / y)))
def execIremI (c : Bool) (d a b : Opc) (s : State) : Out :=
  .next (s.bin (.iremI c d a b) d a b (fun x y => divRes s.fl y x (x.srem y)))
def execIremN (c : Bool) (d a b : Opc) (s : State) : Out :=
  .next (s.bin (.iremN c d a b) d a b (fun x y => divRes s.fl y x (x % y)))

end Sys2Proof.Machine
end

