-- ==== Sys2Proof/Machine/Dispatch.lean ====
section
/-! DEFINITION. The dispatch of instructions to their meanings. -/

namespace Sys2Proof.Machine

def exec (i : Instr) (s : State) : Host.Outcome State Fault Refusal :=
  match i with
  | .nop c => Sys2Proof.Machine.execNop c s
  | .iadd c d a b => Sys2Proof.Machine.execIadd c d a b s
  | .isub c d a b => Sys2Proof.Machine.execIsub c d a b s
  | .imul c d a b => Sys2Proof.Machine.execImul c d a b s
  | .imulh c d a b s0 => Sys2Proof.Machine.execImulh c d a b s0 s
  | .ineg c d a => Sys2Proof.Machine.execIneg c d a s
  | .iabs c d a => Sys2Proof.Machine.execIabs c d a s
  | .imin c d a b s0 => Sys2Proof.Machine.execImin c d a b s0 s
  | .imax c d a b s0 => Sys2Proof.Machine.execImax c d a b s0 s
  | .and c d a b => Sys2Proof.Machine.execAnd c d a b s
  | .or c d a b => Sys2Proof.Machine.execOr c d a b s
  | .xor c d a b => Sys2Proof.Machine.execXor c d a b s
  | .mov c d a => Sys2Proof.Machine.execMov c d a s
  | .shl c d a b => Sys2Proof.Machine.execShl c d a b s
  | .shr c d a b => Sys2Proof.Machine.execShr c d a b s
  | .sar c d a b => Sys2Proof.Machine.execSar c d a b s
  | .clz c d a => Sys2Proof.Machine.execClz c d a s
  | .popc c d a => Sys2Proof.Machine.execPopc c d a s
  | .brev c d a => Sys2Proof.Machine.execBrev c d a s
  | .iadd64 c d a b => Sys2Proof.Machine.execIadd64 c d a b s
  | .shl64 c d a b => Sys2Proof.Machine.execShl64 c d a b s
  | .icmp c d a b o => Sys2Proof.Machine.execIcmp c d a b o s
  | .sel c d a b => Sys2Proof.Machine.execSel c d a b s
  | .imad c d a b => Sys2Proof.Machine.execImad c d a b s
  | .imadwI c d a b => Sys2Proof.Machine.execImadwI c d a b s
  | .imadwN c d a b => Sys2Proof.Machine.execImadwN c d a b s
  | .bfxN c d a b => Sys2Proof.Machine.execBfxN c d a b s
  | .bfxI c d a b => Sys2Proof.Machine.execBfxI c d a b s
  | .bfi c d a b => Sys2Proof.Machine.execBfi c d a b s
  | .iaddBh c d a b y => Sys2Proof.Machine.execIaddBh c d a b y s
  | .isubBh c d a b y => Sys2Proof.Machine.execIsubBh c d a b y s
  | .iminBh c d a b y => Sys2Proof.Machine.execIminBh c d a b y s
  | .imaxBh c d a b y => Sys2Proof.Machine.execImaxBh c d a b y s
  | .iaddi c d a i0 => Sys2Proof.Machine.execIaddi c d a i0 s
  | .movi c d i0 => Sys2Proof.Machine.execMovi c d i0 s
  | .andi c d a i0 => Sys2Proof.Machine.execAndi c d a i0 s
  | .ori c d a i0 => Sys2Proof.Machine.execOri c d a i0 s
  | .xori c d a i0 => Sys2Proof.Machine.execXori c d a i0 s
  | .movl d lit => Sys2Proof.Machine.execMovl d lit s
  | .fadd c d a b r => Sys2Proof.Machine.execFadd c d a b r s
  | .fsub c d a b r => Sys2Proof.Machine.execFsub c d a b r s
  | .fmul c d a b r => Sys2Proof.Machine.execFmul c d a b r s
  | .ffma c d a b r => Sys2Proof.Machine.execFfma c d a b r s
  | .fmin c d a b => Sys2Proof.Machine.execFmin c d a b s
  | .fmax c d a b => Sys2Proof.Machine.execFmax c d a b s
  | .fabs c d a => Sys2Proof.Machine.execFabs c d a s
  | .fneg c d a => Sys2Proof.Machine.execFneg c d a s
  | .fcmp c d a b o => Sys2Proof.Machine.execFcmp c d a b o s
  | .frnd c d a r => Sys2Proof.Machine.execFrnd c d a r s
  | .fclass c d a => Sys2Proof.Machine.execFclass c d a s
  | .hadd2 c d a b y => Sys2Proof.Machine.execHadd2 c d a b y s
  | .hmul2 c d a b y => Sys2Proof.Machine.execHmul2 c d a b y s
  | .hfma2 c d a b y => Sys2Proof.Machine.execHfma2 c d a b y s
  | .hmax2 c d a b y => Sys2Proof.Machine.execHmax2 c d a b y s
  | .fdot2h c d a b y => Sys2Proof.Machine.execFdot2h c d a b y s
  | .rcp c d a => Sys2Proof.Machine.execRcp c d a s
  | .rsq c d a => Sys2Proof.Machine.execRsq c d a s
  | .sqrt c d a => Sys2Proof.Machine.execSqrt c d a s
  | .div c d a b => Sys2Proof.Machine.execDiv c d a b s
  | .exp2 c d a => Sys2Proof.Machine.execExp2 c d a s
  | .log2 c d a => Sys2Proof.Machine.execLog2 c d a s
  | .sin c d a => Sys2Proof.Machine.execSin c d a s
  | .cos c d a => Sys2Proof.Machine.execCos c d a s
  | .tanh c d a => Sys2Proof.Machine.execTanh c d a s
  | .idivI c d a b => Sys2Proof.Machine.execIdivI c d a b s
  | .idivN c d a b => Sys2Proof.Machine.execIdivN c d a b s
  | .iremI c d a b => Sys2Proof.Machine.execIremI c d a b s
  | .iremN c d a b => Sys2Proof.Machine.execIremN c d a b s
  | .cvt c d a e r u y => Sys2Proof.Machine.execCvt c d a e r u y s
  | .cvtn c d a b f => Sys2Proof.Machine.execCvtn c d a b f s
  | .cvtw c d a b f => Sys2Proof.Machine.execCvtw c d a b f s
  | .smxupd c d a => Sys2Proof.Machine.execSmxupd c d a s
  | .smxmrg c d a => Sys2Proof.Machine.execSmxmrg c d a s
  | .smxfin c d a => Sys2Proof.Machine.execSmxfin c d a s
  | .rand c d => Sys2Proof.Machine.execRand c d s
  | .randn c d => Sys2Proof.Machine.execRandn c d s
  | .shfl c d a b g h => Sys2Proof.Machine.execShfl c d a b g h s
  | .lred c d a o => Sys2Proof.Machine.execLred c d a o s
  | .lscan c d a x o => Sys2Proof.Machine.execLscan c d a x o s
  | .vote c d a v => Sys2Proof.Machine.execVote c d a v s
  | .voteBallot c d a => Sys2Proof.Machine.execVoteBallot c d a s
  | .matcheq c d a => Sys2Proof.Machine.execMatcheq c d a s
  | .bppack c d a b => Sys2Proof.Machine.execBppack c d a b s
  | .bpunpack c d a b => Sys2Proof.Machine.execBpunpack c d a b s
  | .bpdot c d a b => Sys2Proof.Machine.execBpdot c d a b s
  | .bpslice c d a b => Sys2Proof.Machine.execBpslice c d a b s
  | .ld c d a k l h w => Sys2Proof.Machine.execLd c d a k l h w s
  | .ldNarrow c d a k l h w => Sys2Proof.Machine.execLdNarrow c d a k l h w s
  | .st c v a k l h w => Sys2Proof.Machine.execSt c v a k l h w s
  | .ldacq c d a k l s0 => Sys2Proof.Machine.execLdacq c d a k l s0 s
  | .strel c v a k l s0 => Sys2Proof.Machine.execStrel c v a k l s0 s
  | .atom c v a k o p u => Sys2Proof.Machine.execAtom c v a k o p u s
  | .atomr c d a k l u => Sys2Proof.Machine.execAtomr c d a k l u s
  | .cas c d a k l => Sys2Proof.Machine.execCas c d a k l s
  | .atomrst c d a k l => Sys2Proof.Machine.execAtomrst c d a k l s
  | .atomrOrdered c d a k o p u => Sys2Proof.Machine.execAtomrOrdered c d a k o p u s
  | .fence c s0 => Sys2Proof.Machine.execFence c s0 s
  | .otfence c s0 => Sys2Proof.Machine.execOtfence c s0 s
  | .cwb c v a k l => Sys2Proof.Machine.execCwb c v a k l s
  | .cinv c v a k l => Sys2Proof.Machine.execCinv c v a k l s
  | .pref c v a k l => Sys2Proof.Machine.execPref c v a k l s
  | .stmc c v a k l => Sys2Proof.Machine.execStmc c v a k l s
  | .stredAddF32 c v a k l => Sys2Proof.Machine.execStredAddF32 c v a k l s
  | .stredAddB32 c v a k l => Sys2Proof.Machine.execStredAddB32 c v a k l s
  | .stredMaxF32 c v a k l => Sys2Proof.Machine.execStredMaxF32 c v a k l s
  | .copy c t p q a => Sys2Proof.Machine.execCopy c t p q a s
  | .copy2d c t p q a => Sys2Proof.Machine.execCopy2d c t p q a s
  | .gather c t q a => Sys2Proof.Machine.execGather c t q a s
  | .scatter c t p a => Sys2Proof.Machine.execScatter c t p a s
  | .scatadd c t p a z => Sys2Proof.Machine.execScatadd c t p a z s
  | .chain c t p q a => Sys2Proof.Machine.execChain c t p q a s
  | .twait c d a w => Sys2Proof.Machine.execTwait c d a w s
  | .tfirst c d a => Sys2Proof.Machine.execTfirst c d a s
  | .ttest c d a => Sys2Proof.Machine.execTtest c d a s
  | .tclr c a => Sys2Proof.Machine.execTclr c a s
  | .commit c d a => Sys2Proof.Machine.execCommit c d a s
  | .qstat c d a => Sys2Proof.Machine.execQstat c d a s
  | .launch c d a => Sys2Proof.Machine.execLaunch c d a s
  | .lwait c d a => Sys2Proof.Machine.execLwait c d a s
  | .lstat c d a => Sys2Proof.Machine.execLstat c d a s
  | .fbulk c t p q a => Sys2Proof.Machine.execFbulk c t p q a s
  | .fred c t p a => Sys2Proof.Machine.execFred c t p a s
  | .frlease c t p q a => Sys2Proof.Machine.execFrlease c t p q a s
  | .arrset c a b => Sys2Proof.Machine.execArrset c a b s
  | .arrwait c a => Sys2Proof.Machine.execArrwait c a s
  | .pairgo c t q a => Sys2Proof.Machine.execPairgo c t q a s
  | .pairrelaunch c q a => Sys2Proof.Machine.execPairrelaunch c q a s
  | .pairout c a b => Sys2Proof.Machine.execPairout c a b s
  | .pairstat c d a => Sys2Proof.Machine.execPairstat c d a s
  | .capsub c d a b => Sys2Proof.Machine.execCapsub c d a b s
  | .caprestrict c d a b => Sys2Proof.Machine.execCaprestrict c d a b s
  | .caplen c d a => Sys2Proof.Machine.execCaplen c d a s
  | .captype c d a => Sys2Proof.Machine.execCaptype c d a s
  | .capmov c d a => Sys2Proof.Machine.execCapmov c d a s
  | .ldcap c d a k l => Sys2Proof.Machine.execLdcap c d a k l s
  | .stcap c v a k l => Sys2Proof.Machine.execStcap c v a k l s
  | .br c x => Sys2Proof.Machine.execBr c x s
  | .brz c a x => Sys2Proof.Machine.execBrz c a x s
  | .brnz c a x => Sys2Proof.Machine.execBrnz c a x s
  | .call c x => Sys2Proof.Machine.execCall c x s
  | .brx c a => Sys2Proof.Machine.execBrx c a s
  | .callx c a => Sys2Proof.Machine.execCallx c a s
  | .ret c => Sys2Proof.Machine.execRet c s
  | .yield c => Sys2Proof.Machine.execYield c s
  | .exit c => Sys2Proof.Machine.execExit c s
  | .waitc c a => Sys2Proof.Machine.execWaitc c a s
  | .enrol c j => Sys2Proof.Machine.execEnrol c j s
  | .rejoin c j => Sys2Proof.Machine.execRejoin c j s
  | .strike c j => Sys2Proof.Machine.execStrike c j s
  | .bar c a n => Sys2Proof.Machine.execBar c a n s
  | .bararr c d a n => Sys2Proof.Machine.execBararr c d a n s
  | .barwait c d a n => Sys2Proof.Machine.execBarwait c d a n s
  | .barinit c d a n => Sys2Proof.Machine.execBarinit c d a n s
  | .gangleave c d a => Sys2Proof.Machine.execGangleave c d a s
  | .gangack c d a => Sys2Proof.Machine.execGangack c d a s
  | .gstat c d a => Sys2Proof.Machine.execGstat c d a s
  | .dphase c => Sys2Proof.Machine.execDphase c s
  | .brk c => Sys2Proof.Machine.execBrk c s
  | .trap c n => Sys2Proof.Machine.execTrap c n s
  | .trapret c n => Sys2Proof.Machine.execTrapret c n s
  | .event c a n => Sys2Proof.Machine.execEvent c a n s
  | .sread c d n => Sys2Proof.Machine.execSread c d n s
  | .swrite c a n => Sys2Proof.Machine.execSwrite c a n s
  | .faultrec c d a => Sys2Proof.Machine.execFaultrec c d a s
  | .lresume c d a n => Sys2Proof.Machine.execLresume c d a n s
  | .lkill c d a => Sys2Proof.Machine.execLkill c d a s
  | .ctxsave c d a => Sys2Proof.Machine.execCtxsave c d a s
  | .ctxload c d a => Sys2Proof.Machine.execCtxload c d a s
  | .tclaim a n => Sys2Proof.Machine.execTclaim a n s
  | .trelease a n => Sys2Proof.Machine.execTrelease a n s
  | .tload a b f k => Sys2Proof.Machine.execTload a b f k s
  | .tzero c => Sys2Proof.Machine.execTzero c s
  | .tzeroSlot a => Sys2Proof.Machine.execTzeroSlot a s
  | .tmma a b c u i0 => Sys2Proof.Machine.execTmma a b c u i0 s
  | .tdrain b c f p => Sys2Proof.Machine.execTdrain b c f p s
  | .mbararr a i0 => Sys2Proof.Machine.execMbararr a i0 s
  | .mbarwait a i0 => Sys2Proof.Machine.execMbarwait a i0 s
  | .mloop a i0 => Sys2Proof.Machine.execMloop a i0 s
  | .mend => Sys2Proof.Machine.execMend s
  | .mset a i0 => Sys2Proof.Machine.execMset a i0 s
  | .madd a i0 => Sys2Proof.Machine.execMadd a i0 s
  | .mpost a b => Sys2Proof.Machine.execMpost a b s
  | .mexit => Sys2Proof.Machine.execMexit s
  | .eadd d a b => Sys2Proof.Machine.execEadd d a b s
  | .esub d a b => Sys2Proof.Machine.execEsub d a b s
  | .emul d a b => Sys2Proof.Machine.execEmul d a b s
  | .efma d a b => Sys2Proof.Machine.execEfma d a b s
  | .emax d a b => Sys2Proof.Machine.execEmax d a b s
  | .emin d a b => Sys2Proof.Machine.execEmin d a b s
  | .etanh d a => Sys2Proof.Machine.execEtanh d a s
  | .eexp d a => Sys2Proof.Machine.execEexp d a s
  | .ercp d a => Sys2Proof.Machine.execErcp d a s
  | .eldrow d => Sys2Proof.Machine.execEldrow d s
  | .eldcol d => Sys2Proof.Machine.execEldcol d s
  | .ecvt d a f => Sys2Proof.Machine.execEcvt d a f s
  | .eamax a => Sys2Proof.Machine.execEamax a s
  | .esmx d a => Sys2Proof.Machine.execEsmx d a s
  | .eend => Sys2Proof.Machine.execEend s
  | .storePerform ev => Sys2Proof.Machine.execStorePerform ev s
  | .coreBufferDrain store => Sys2Proof.Machine.execCoreBufferDrain store s
  | .loadPerform ev pick => Sys2Proof.Machine.execLoadPerform ev pick s
  | .atomicPerform ev => Sys2Proof.Machine.execAtomicPerform ev s
  | .systemBufferDeliver store => Sys2Proof.Machine.execSystemBufferDeliver store s
  | .engineAccess th item => Sys2Proof.Machine.execEngineAccess th item s
  | .viewRaise core granule stamp => Sys2Proof.Machine.execViewRaise core granule stamp s
  | .extentCacheDrop entry => Sys2Proof.Machine.execExtentCacheDrop entry s
  | .extentCacheFill core ctx obj page kind => Sys2Proof.Machine.execExtentCacheFill core ctx obj page kind s
  | .waitcExpiry gk lane => Sys2Proof.Machine.execWaitcExpiry gk lane s
  | .fairnessTimerExpiry gk pc => Sys2Proof.Machine.execFairnessTimerExpiry gk pc s
  | .ageLimitExpiry gk => Sys2Proof.Machine.execAgeLimitExpiry gk s
  | .activeSetReplace gk => Sys2Proof.Machine.execActiveSetReplace gk s
  | .activeSetIdleLeave gk => Sys2Proof.Machine.execActiveSetIdleLeave gk s
  | .faultQueueEnter tk => Sys2Proof.Machine.execFaultQueueEnter tk s
  | .pairLimit gk lane => Sys2Proof.Machine.execPairLimit gk lane s
  | .engineComplete th => Sys2Proof.Machine.execEngineComplete th s
  | .arrayOpStart op => Sys2Proof.Machine.execArrayOpStart op s
  | .arrayOpFinish op => Sys2Proof.Machine.execArrayOpFinish op s
  | .epilogueRow op => Sys2Proof.Machine.execEpilogueRow op s
  | .martenBinning th => Sys2Proof.Machine.execMartenBinning th s
  | .pairGroupStart th => Sys2Proof.Machine.execPairGroupStart th s
  | .sideApply side => Sys2Proof.Machine.execSideApply side s
  | .exactFinish th => Sys2Proof.Machine.execExactFinish th s
  | .pairLaunchComplete th => Sys2Proof.Machine.execPairLaunchComplete th s
  | .launchRecordWrite ctx off data => Sys2Proof.Machine.execLaunchRecordWrite ctx off data s
  | .launchSubmit ctx data => Sys2Proof.Machine.execLaunchSubmit ctx data s
  | .teamPlace ln cores => Sys2Proof.Machine.execTeamPlace ln cores s
  | .bankroleWrite core ln => Sys2Proof.Machine.execBankroleWrite core ln s
  | .backfillStop ln => Sys2Proof.Machine.execBackfillStop ln s
  | .teamEnd tk => Sys2Proof.Machine.execTeamEnd tk s
  | .launchComplete ln => Sys2Proof.Machine.execLaunchComplete ln s
  | .preemptTeam tk => Sys2Proof.Machine.execPreemptTeam tk s
  | .teamResume tk core => Sys2Proof.Machine.execTeamResume tk core s
  | .serialPhase ln => Sys2Proof.Machine.execSerialPhase ln s
  | .sliceWithdraw tk => Sys2Proof.Machine.execSliceWithdraw tk s
  | .correctedError unit num => Sys2Proof.Machine.execCorrectedError unit num s
  | .ceThreshold unit num => Sys2Proof.Machine.execCeThreshold unit num s
  | .uncorrectableError unit num addr => Sys2Proof.Machine.execUncorrectableError unit num addr s
  | .taskRelaunch tk cores => Sys2Proof.Machine.execTaskRelaunch tk cores s
  | .powerOverLimit => Sys2Proof.Machine.execPowerOverLimit s
  | .powerUnderLimit => Sys2Proof.Machine.execPowerUnderLimit s
  | .powerUp => Sys2Proof.Machine.execPowerUp s
  | .bringUpStage ok reason => Sys2Proof.Machine.execBringUpStage ok reason s
  | .contextCreate ctx data hyper => Sys2Proof.Machine.execContextCreate ctx data hyper s
  | .contextDestroy ctx => Sys2Proof.Machine.execContextDestroy ctx s
  | .resolveRetry ctx obj page => Sys2Proof.Machine.execResolveRetry ctx obj page s
  | .resolveFail ctx obj page => Sys2Proof.Machine.execResolveFail ctx obj page s
  | .hostOtfenceDev ctx seq => Sys2Proof.Machine.execHostOtfenceDev ctx seq s
  | .hostOtfenceSys ctx seq => Sys2Proof.Machine.execHostOtfenceSys ctx seq s
  | .otfenceDone seq => Sys2Proof.Machine.execOtfenceDone seq s
  | .commandPortStage port off data => Sys2Proof.Machine.execCommandPortStage port off data s
  | .hostMemoryWrite addr size data => Sys2Proof.Machine.execHostMemoryWrite addr size data s
  | .hostMemoryRead addr size => Sys2Proof.Machine.execHostMemoryRead addr size s
  | .tcignRead => Sys2Proof.Machine.execTcignRead s
  | .dlcountRead port => Sys2Proof.Machine.execDlcountRead port s
  | .lpfullClear mask => Sys2Proof.Machine.execLpfullClear mask s
  | .registerWrite addr size data hyper => Sys2Proof.Machine.execRegisterWrite addr size data hyper s
  | .eventRingWrite => Sys2Proof.Machine.execEventRingWrite s
  | .gets line die sector => Sys2Proof.Machine.execGets line die sector s
  | .getm line die sector => Sys2Proof.Machine.execGetm line die sector s
  | .puts line die => Sys2Proof.Machine.execPuts line die s
  | .pute line die => Sys2Proof.Machine.execPute line die s
  | .putm line die => Sys2Proof.Machine.execPutm line die s
  | .inv line die => Sys2Proof.Machine.execInv line die s
  | .downgrade line die => Sys2Proof.Machine.execDowngrade line die s
  | .grant line die => Sys2Proof.Machine.execGrant line die s
  | .invAck line die => Sys2Proof.Machine.execInvAck line die s
  | .putAck line die => Sys2Proof.Machine.execPutAck line die s
  | .l2Eviction line die => Sys2Proof.Machine.execL2Eviction line die s
  | .sectorFetch line die sector => Sys2Proof.Machine.execSectorFetch line die sector s
  | .flitReceive port ctr good => Sys2Proof.Machine.execFlitReceive port ctr good s
  | .flitAck port ctr => Sys2Proof.Machine.execFlitAck port ctr s
  | .laneSpare port lane => Sys2Proof.Machine.execLaneSpare port lane s
  | .linkFail port link => Sys2Proof.Machine.execLinkFail port link s
  | .portUp port => Sys2Proof.Machine.execPortUp port s
  | .escapeMove port chan => Sys2Proof.Machine.execEscapeMove port chan s
  | .keyInstall port key => Sys2Proof.Machine.execKeyInstall port key s
  | .keySwitch port => Sys2Proof.Machine.execKeySwitch port s
  | .flitCounterExhausted port => Sys2Proof.Machine.execFlitCounterExhausted port s
  | .rekeyGraceExpiry port => Sys2Proof.Machine.execRekeyGraceExpiry port s
  | .peerAccessArrive dev addr size op data => Sys2Proof.Machine.execPeerAccessArrive dev addr size op data s
  | .bulkPacketArrive dev addr bytes counter => Sys2Proof.Machine.execBulkPacketArrive dev addr bytes counter s
  | .reduceLeaseArrive dev th cfg timeout => Sys2Proof.Machine.execReduceLeaseArrive dev th cfg timeout s
  | .reduceContribArrive dev th slot val => Sys2Proof.Machine.execReduceContribArrive dev th slot val s
  | .slotTimeout slot => Sys2Proof.Machine.execSlotTimeout slot s
  | .resultRecordDeliver slot => Sys2Proof.Machine.execResultRecordDeliver slot s
  | .owlHalt gk mask => Sys2Proof.Machine.execOwlHalt gk mask s
  | .owlResume gk mask past => Sys2Proof.Machine.execOwlResume gk mask past s
  | .owlStep gk mask past => Sys2Proof.Machine.execOwlStep gk mask past s
  | .owlHaltseq tk => Sys2Proof.Machine.execOwlHaltseq tk s
  | .owlResumeseq tk past => Sys2Proof.Machine.execOwlResumeseq tk past s
  | .owlStepseq tk past => Sys2Proof.Machine.execOwlStepseq tk past s
  | .grantWrite die data hyper => Sys2Proof.Machine.execGrantWrite die data hyper s
  | .lcclearWrite core => Sys2Proof.Machine.execLcclearWrite core s
  | .sampleTimer core part => Sys2Proof.Machine.execSampleTimer core part s
  | .traceLostRecord die => Sys2Proof.Machine.execTraceLostRecord die s
  | .powerRemoved => Sys2Proof.Machine.execPowerRemoved s
  | .signedUpdate version image => Sys2Proof.Machine.execSignedUpdate version image s
  | .noIssueClock core part => Sys2Proof.Machine.execNoIssueClock core part s

end Sys2Proof.Machine
end

