-- ==== Sys2Proof/Machine/Schedule.lean ====
section
/-! DEFINITION. What one step of the device is (log 1): the next word of the issue in progress, or the next E-word of
the row in progress, or the next turn: a clock of a partition, an M-word of a sequencer, an event of a unit. -/

namespace Sys2Proof.Machine

/-! ### The words of an issue (R46, R47) -/

/-- An issue whose next word can no longer be read ends: its lanes stay at that word. -/
def State.cutIssue (s : State) : State :=
  let done : State := { s with iss := { s.iss with words := 0 } }
  (s.iss.all.foldl (fun (x : State) l => x.laneEnd s.iss.gk l) done).nextFill

/-- What an issue makes of its next word, once the word is read: the lanes that may run it, its meaning for them, and
what follows it. -/
def State.runInstr (s : State) (i : Instr) : Out :=
  let s0 := s.gate i
  if s0.iss.lanes.isEmpty then .next (s0.afterWord s0 i)
  else match exec i s0 with
    | .next s' => .next (s0.afterWord s' i)
    | o => o

/-- The next word of an issue. -/
def State.runWord (s : State) : Out :=
  match s.readWord s.iss.gk { pkt := s.iss.pkt, slot := s.iss.slot } with
  | (.ok i _ _ _, s) => s.runInstr i
  | (_, s) => .next s.cutIssue

/-- No word is in issue between issues: what happens there leaves none behind. -/
def noIssue : Out → Out
  | .next s => .next { s with iss := {} }
  | o => o

/-- The next E-word of the row in progress (R200). -/
def State.runEWord (s : State) (w : Word) : Out :=
  match decodeE w with
  | .ok i => noIssue (exec i s)
  | .error _ => .next { s with e := { s.e with epi := {} } }

/-! ### The sequencers (R189, R204, R364, R365) -/

/-- A sequencer that runs, and does not wait for a page. -/
def State.seqRuns (s : State) (tk : Nat) : Bool :=
  let t := s.team tk
  let blocked := match t.seq.miss with
    | some (.merge c o p _ _) => s.x.merge.any (fun m => m.ctx == c && m.obj == o && m.page == p && m.seqs.contains tk)
    | _ => false
  t.live && !t.saved && !t.stopping && t.saving.isNone && t.seq.st == .running && !blocked

/-- A comparator of KIND 1 stops the sequencer before an M-word; the record holds the innermost loop's count. -/
def State.seqBreak (s : State) (tk : Nat) : State :=
  let left := match (s.team tk).seq.loops with | l :: _ => l.left | [] => 0
  (s.modTeam tk (fun t => { t with seq := { t.seq with st := .halted, step := false } })).seqTrace tk 5 left

/-- What follows an M-word: OVER has been used; a stepped sequencer halts again. -/
def State.seqAfter (s : State) (tk : Nat) : State :=
  let q := (s.team tk).seq
  if q.waiting then s
  else
    let s := s.modTeam tk (fun t => { t with seq := { t.seq with past := false } })
    if q.step && q.st == .running then
      (s.modTeam tk (fun t => { t with seq := { t.seq with st := .halted, step := false } })).seqTrace tk 4 0
    else s

/-- An M-word of a team's sequencer. -/
def State.seqStep (s : State) (tk : Nat) : Out :=
  if !s.seqRuns tk then .next s
  else
    let t := s.team tk
    let s := { s with cur := tk }
    if t.seq.kill then .next (if s.seqOps then s else s.stopSeq tk)
    else if t.seq.idx ≥ t.kern.msWords then .next (s.mfault (.of fcFETCH_FAULT))
    else match s.mwordAt tk t.seq.idx with
      | (.error e, s) => .next (s.mmiss e (t.kern.msoff + 4 * t.seq.idx))
      | (.ok w, s) => match decodeM w with
        | .error _ => .next (s.mfault (.of fcILLEGAL_ENCODING))
        | .ok i =>
          if !t.seq.past && s.cmpHit (t.cores.headD 0) t.kern.ctx (s.launchOf t.ln).serial 1 t.seq.idx 0 then .next (s.seqBreak tk)
          else match exec i s with
            | .next s' => .next (s'.seqAfter tk)
            | o => o

/-! ### Turns -/

/-- An event of a unit of the device: it has no words. -/
def isEvent (i : Instr) : Bool := (encode i).isEmpty

/-- The events that begin an issue (R219). -/
def startsIssue : Instr → Bool
  | .ageLimitExpiry _ => true
  | _ => false

/-- A turn. Without power nothing but the events of power and flash takes place (R358). -/
def State.runTurn (s : State) : Turn → Out
  | .clock core part => .next (if s.r.power && core < 128 && part < 4 then s.clock core part else s)
  | .mword tk => noIssue (s.seqStep tk)
  | .unit i => if !isEvent i then .fault .badTurn else if startsIssue i then exec i s else noIssue (exec i s)

/-- The partitions on which a group may issue. -/
def State.busyParts (s : State) : List (Nat × Nat) :=
  (s.g.groups.map (fun p => (p.2.core, p.2.part))).filter (fun p => p.1 < 128 && (s.choose p.1 p.2).isSome)

/-- What a pair launch's thread may access next: a word that binning has still to read, or the records of a pair to start
again. -/
def Thread.pairItems (x : Thread) : List Nat :=
  match x.kind, x.pair.phase with
  | .pair, .binning =>
    let r := x.pair.record.toNat
    let unread (part n : Nat) : List Nat := (List.range n).map (binKey part) |>.filter (fun i => (tget none x.got i).isNone)
    let rows := match x.xrow with | some xrow => unread 1 (xidxCount xrow) | none => []
    (unread 0 (if prExcl r then (prA r).count + 1 else 0) ++ rows ++ unread 2 (setWords r (prA r)) ++
      (if prSame r then [] else unread 3 (setWords r (prB r)))).take 1
  | .pair, _ => x.pair.again.map (·.lane)
  | _, _ => []

/-- Turns that may come next when none is listed: the ordering machine, the engines, the array, Marten and Beaver, the
sequencers, the issue formers, teams and launches that end, the event ring. -/
def State.candidates (s : State) : List Turn :=
  let ev (i : Instr) : Turn := .unit i
  s.o.pend.flatMap (fun p => [ev (.storePerform p.1), ev (.loadPerform p.1 0), ev (.atomicPerform p.1)]) ++
  s.o.cbuf.map (fun p => ev (.coreBufferDrain p.1)) ++
  s.o.sbuf.map (fun p => ev (.systemBufferDeliver p.1)) ++
  s.e.threads.flatMap (fun p => match p.2 with
    | some x => (List.range (2 * (s.pieces x).length)).map (fun n => ev (.engineAccess p.1 n)) ++
        x.pairItems.map (fun n => ev (.engineAccess p.1 n)) ++
        [ev (.engineComplete p.1), ev (.martenBinning p.1), ev (.pairGroupStart p.1), ev (.exactFinish p.1), ev (.pairLaunchComplete p.1)]
    | none => []) ++
  s.e.sides.map (fun p => ev (.sideApply p.1)) ++
  s.e.fifo.flatMap (fun p => [ev (.arrayOpStart p.1), ev (.epilogueRow p.1), ev (.arrayOpFinish p.1)]) ++
  s.t.teams.flatMap (fun p => [ev (.faultQueueEnter p.1), .mword p.1]) ++
  s.busyParts.map (fun p => .clock p.1 p.2) ++
  s.t.teams.map (fun p => ev (.teamEnd p.1)) ++
  s.l.launches.map (fun p => ev (.launchComplete p.1)) ++
  [ev .eventRingWrite]

/-- The first of some turns that changes the state. -/
def State.firstTurn (s : State) : List Turn → Option State
  | [] => none
  | t :: ts => match s.runTurn t with
    | .next s' => if s' = s then State.firstTurn s ts else some s'
    | _ => State.firstTurn s ts

/-- The turn taken when none is listed; a clock of the first partition that has a group where no other turn does
anything, for a wait may count it. -/
def State.ownTurn (s : State) : State :=
  match s.firstTurn s.candidates with
  | some s' => s'
  | none =>
    let p := match s.g.groups with | g :: _ => (g.2.core, g.2.part) | [] => (0, 0)
    if s.r.power then s.clock p.1 p.2 else s

/-- The next turn of the list, or the device's own choice. -/
def State.nextTurn (s : State) : Out :=
  match s.turns with
  | [] => .next s.ownTurn
  | t :: ts => State.runTurn { s with turns := ts } t

/-- One step. -/
def State.nextStep (s : State) : Out :=
  if s.iss.words ≠ 0 then s.runWord
  else if !s.iss.fill.isEmpty then .next s.nextFill
  else match s.e.epi.prog with
    | w :: _ => s.runEWord w
    | [] => s.nextTurn

/-! ### An instruction placed for the next step -/

/-- The root of context 0: EN, PRIV 0, a table area of 64 KiB in frame 0 of D0, two object numbers. -/
def placedRoot : BitVec 512 := BitVec.ofNat 512 (fld 65536 216 40 + fld 2 192 24 + 1)

/-- Entry 1 of its object table: the table area itself (R301), 64 KiB, WB. -/
def placedEntry : Nat := fld 65536 216 40 + fld 3 168 8 + fld 1 166 2 + fld 1 164 1

/-- The kernel whose image holds the word: one packet of code, an M-stream of one word at the same place. -/
def placedKern : Kern :=
  { kobj := 1, koff := 64, codelen := 12, mslen := 4, width := 16, accb := 4, opndb := 16, scratch := 4096
    roles := [{ regs := 96, groups := 1, entry := 0 }] }

/-- A word placed in the table area of context 0, in the image of a team on core 0 with one group of one live lane. The
table area, an object of its own (R301), needs no map. -/
def State.withImage (s : State) (w : Nat) (seq : SeqSt) : State :=
  let tk := s.next
  let a := hbmBase 0
  let mem := writeLE (writeLE s.o.mem (a + 32) placedEntry 32) (a + 64) w 12
  let s := { s with
    next := tk + 1
    o := { s.o with mem := mem }
    x := { s.x with roots := tset 0 s.x.roots 0 placedRoot } }
  let s := s.setTeam tk { kern := placedKern, cores := [0], scrBase := [0], accRegs := [[0, 1, 2, 3]], ngroups := 1, live := true
                          seq := { st := seq } }
  let s := s.setGroup (gkOf tk 0) { tk := tk, width := 16, regs := 96, active := true, codeView := s.o.stamp }
  s.setLane (lkOf (gkOf tk 0) 0) { st := .ready }

/-- The word at packet 0, slot 0 of the image is the next word of an issue by lane 0. -/
def State.withLaneWord (s : State) (w : Nat) : State :=
  let gk := gkOf s.next 0
  { s.withImage w .exited with iss := { gk := gk, lanes := [0], words := 1, all := [0], size := 1 } }

/-- The word is the next M-word of the team's sequencer. -/
def State.withMWord (s : State) (w : Nat) : State :=
  let tk := s.next
  let s := s.withImage w .running
  { s with turns := .mword tk :: s.turns, iss := {} }

/-- The word is the next E-word of a drain in progress. -/
def State.withEWord (s : State) (w : Nat) : State :=
  let tk := s.next
  let s := s.withImage w .running
  let (op, s) := s.fresh
  let x : ArrOp := { mkOp ⟨tk, 0, 0, 0, 0⟩ (.drain 0 .float 0 0) none with started := true, prog := [BitVec.ofNat 32 w] }
  let s := s.setArrOp op (some x)
  { s with iss := {}, e := { s.e with epi := { op := op, prog := [BitVec.ofNat 32 w] } } }

/-- A table row's bits placed as the word that the next step fetches and runs. -/
def State.placeWord (s : State) (w : Nat) : State :=
  match decode (bytesOfNat 8 w) with
  | .ok _ => s.withLaneWord w
  | .error _ => match decodeM (BitVec.ofNat 32 w) with
    | .ok _ => s.withMWord w
    | .error _ => match decodeE (BitVec.ofNat 32 w) with
      | .ok _ => s.withEWord w
      | .error _ => s.withLaneWord w

end Sys2Proof.Machine
end

