-- ==== Sys2Proof/Safety.lean ====
section
/-! DEFINITION. What a safe run is, and the terms that the statements use: when a word may issue, what it writes, and
what it leaves as it was. -/

namespace Sys2Proof

open Sys2Proof.Machine

/-! ### Runs -/

/-- A state whose next step is one of the device's: the step answers a next state. -/
def GoesOn (s : State) : Prop := ∃ t, step s = .next t

/-- Device memory stands in its canonical form. -/
def MemoryWf (s : State) : Prop := Memory.wf s.o.mem = true

/-- The lanes of an issue in progress stand in ascending order, each once (R47). -/
def IssueOrdered (s : State) : Prop := s.iss.words ≠ 0 → s.iss.lanes.Pairwise (· < ·)

/-! ### Lane words -/

/-- A lane word is in issue for some lanes, in ascending order; it meets the operand rules of R51 and R53, and if it
takes a vector from q1, one stands there and its lanes do not run the word again after a wait. -/
def Issues (s : State) (i : Instr) : Prop :=
  s.iss.lanes ≠ [] ∧ s.iss.lanes.Pairwise (· < ·) ∧ operandsOk (s.group s.iss.gk).regs i = true ∧
  (popsQ1 i = true → (s.group s.iss.gk).q1 ≠ [] ∧
    ∀ l ∈ s.iss.lanes, (s.lane (lkOf s.iss.gk l)).took = none ∧ (s.lane (lkOf s.iss.gk l)).atWord = false)

/-- The issuing group once the word has taken its vector from q1 (R52). -/
def Popped (s : State) (i : Instr) : Group :=
  if popsQ1 i then { s.group s.iss.gk with q1 := (s.group s.iss.gk).q1.drop 1 } else s.group s.iss.gk

/-- The words that a lane's result puts in its destination. -/
def resWords : LaneRes → List Word
  | .val ws => ws
  | .trap _ => []

/-- A lane that has taken a trap into its in-line handler (R127): TEPC the PC of the word, TCAUSE the kind and number,
INTRAP 1, the PC at (TVEC, 0); the transfer is a taken one (R131). -/
def Handled (pc : Pc) (kind n : Nat) (l : Lane) : Lane :=
  { l with
    tepc := BitVec.ofNat 32 (pc.pkt * 4 + pc.slot), tcause := BitVec.ofNat 32 (kind * 2 ^ 24 + n), intrap := true
    pkt := l.tvec.toNat, slot := 0, st := l.stillWaits, token := none, took := none, held := []
    codeFloor := max l.codeFloor l.acquired }

/-- A lane after its result: at the next word, or in its handler. -/
def LaneAfter (pc : Pc) (r : LaneRes) (l : Lane) : Lane :=
  match r with
  | .val _ => l.advance
  | .trap f => match trapKind f.code with
    | some k => Handled pc k f.n l
    | none => l

/-- Every executing lane whose result is a trap has an in-line handler that it may enter (R127). -/
def InLine (s : State) (res : Nat → LaneRes) : Prop :=
  ∀ l ∈ s.iss.lanes, ∀ f, res l = .trap f →
    (trapKind f.code).isSome = true ∧ (s.lane (lkOf s.iss.gk l)).tvec ≠ 0 ∧ (s.lane (lkOf s.iss.gk l)).intrap = false

/-- Each executing lane becomes what a function makes of it; every other lane is as it was. -/
def LanesBecome (s t : State) (f : Nat → Lane → Lane) : Prop :=
  (∀ l ∈ s.iss.lanes, t.lane (lkOf s.iss.gk l) = f l (s.lane (lkOf s.iss.gk l))) ∧
  (∀ k, (∀ l ∈ s.iss.lanes, k ≠ lkOf s.iss.gk l) → t.lane k = s.lane k)

/-- Only the issuing group changes among the groups, and becomes the one given. -/
def GroupBecomes (s t : State) (g : Group) : Prop := ∀ k, t.group k = if k = s.iss.gk then g else s.group k

/-- The destination holds the results, and no other v or s register has changed: of a v destination each executing
lane's own registers, of an s destination the result of the lowest executing lane (Table 3.1). -/
structure DestHolds (s t : State) (d : Opc) (res : Nat → LaneRes) : Prop where
  vHeld : isV d = true → ∀ l ∈ s.iss.lanes, ∀ j, j < (resWords (res l)).length →
    t.vreg s.iss.gk l (d.toNat + j) = (resWords (res l)).getD j 0
  vKept : ∀ k r, r < 128 → ¬ (isV d = true ∧ ∃ l ∈ s.iss.lanes, k = lkOf s.iss.gk l ∧ d.toNat ≤ r ∧
    r < d.toNat + (resWords (res l)).length) → tget 0 t.g.vreg (vKey k r) = tget 0 s.g.vreg (vKey k r)
  sHeld : isS d = true → ∀ j, j < (resWords (res s.low)).length →
    t.sreg s.iss.gk (d.toNat - 96 + j) = (resWords (res s.low)).getD j 0
  sKept : ∀ k r, r < 16 → ¬ (isS d = true ∧ k = s.iss.gk ∧ d.toNat - 96 ≤ r ∧
    r < d.toNat - 96 + (resWords (res s.low)).length) → t.sreg k r = s.sreg k r

/-- A word has written its results to a register destination and done nothing else: the lanes have gone on, a vector
taken has left q1, and the rest of the device is as it was. -/
structure Wrote (s t : State) (i : Instr) (d : Opc) (res : Nat → LaneRes)
    (after : Nat → Lane → Lane := fun l => LaneAfter s.here (res l)) : Prop where
  frame : t = { s with g := { s.g with lanes := t.g.lanes, groups := t.g.groups, vreg := t.g.vreg, sreg := t.g.sreg } }
  lanes : LanesBecome s t after
  group : GroupBecomes s t (Popped s i)
  dest : DestHolds s t d res

/-- A queue takes a word without completing a command (R51, R158). -/
def Room (s : State) (d : Opc) : Prop :=
  isQ d = true → s.queueHeld s.iss.gk d.toNat = false ∧
    ((s.group s.iss.gk).queue d.toNat).length + 1 < queueSize d.toNat ∧ (d = 114 → (s.group s.iss.gk).pair = false)

/-- The issuing group with the word that the lowest executing lane pushes (Table 3.1). -/
def WithPush (s : State) (d : Opc) (res : Nat → LaneRes) (g : Group) : Group :=
  match res s.low with
  | .val ws => g.setQueue d.toNat ((s.group s.iss.gk).queue d.toNat ++ [ws.headD 0])
  | .trap _ => g

/-- A word has pushed its result to a queue register and done nothing else. -/
structure Pushed (s t : State) (i : Instr) (d : Opc) (res : Nat → LaneRes)
    (after : Nat → Lane → Lane := fun l => LaneAfter s.here (res l)) : Prop where
  frame : t = { s with g := { s.g with lanes := t.g.lanes, groups := t.g.groups } }
  lanes : LanesBecome s t after
  group : GroupBecomes s t (WithPush s d res (Popped s i))

/-- A word that computes a result for each executing lane may run to its end. -/
def Able (s : State) (i : Instr) (d : Opc) (res : Nat → LaneRes) : Prop := Issues s i ∧ InLine s res ∧ Room s d

/-- The word runs, and its whole effect is its results in its destination. -/
def Computes (s : State) (i : Instr) (d : Opc) (res : Nat → LaneRes)
    (after : Nat → Lane → Lane := fun l => LaneAfter s.here (res l)) : Prop :=
  ∃ t, exec i s = .next t ∧ (isQ d = false → Wrote s t i d res after) ∧ (isQ d = true → Pushed s t i d res after)

end Sys2Proof
end

