-- ==== Sys2Proof/WellFormed.lean ====
section
/-! DEFINITION. Which instructions have an encoding of their own. -/

namespace Sys2Proof

/-- The instructions that some word encodes, and every event of the device. IADDI with A = 120 is written MOVI (R80),
relaxed ATOMR with AOP 11 and 12 is written CAS and ATOMRST (R148); CVT takes no SAT with a float destination (R90);
AOP 10 to 12 are unallocated for ATOM and ORD 0 for ordered ATOMR (R148). -/
def Instr.wf : Instr → Bool
  | .iaddi _ _ a _ => a != 120
  | .cvt _ _ _ e _ u _ => !(u && e.isFloat)
  | .atom _ _ _ _ _ _ u => u != .exch && u != .cas && u != .rst
  | .atomr _ _ _ _ _ u => u != .cas && u != .rst
  | .atomrOrdered _ _ _ _ o _ _ => o != .rlx
  | .nop _ => true
  | .iadd _ _ _ _ => true
  | .isub _ _ _ _ => true
  | .imul _ _ _ _ => true
  | .imulh _ _ _ _ _ => true
  | .ineg _ _ _ => true
  | .iabs _ _ _ => true
  | .imin _ _ _ _ _ => true
  | .imax _ _ _ _ _ => true
  | .and _ _ _ _ => true
  | .or _ _ _ _ => true
  | .xor _ _ _ _ => true
  | .mov _ _ _ => true
  | .shl _ _ _ _ => true
  | .shr _ _ _ _ => true
  | .sar _ _ _ _ => true
  | .clz _ _ _ => true
  | .popc _ _ _ => true
  | .brev _ _ _ => true
  | .iadd64 _ _ _ _ => true
  | .shl64 _ _ _ _ => true
  | .icmp _ _ _ _ _ => true
  | .sel _ _ _ _ => true
  | .imad _ _ _ _ => true
  | .imadwI _ _ _ _ => true
  | .imadwN _ _ _ _ => true
  | .bfxN _ _ _ _ => true
  | .bfxI _ _ _ _ => true
  | .bfi _ _ _ _ => true
  | .iaddBh _ _ _ _ _ => true
  | .isubBh _ _ _ _ _ => true
  | .iminBh _ _ _ _ _ => true
  | .imaxBh _ _ _ _ _ => true
  | .movi _ _ _ => true
  | .andi _ _ _ _ => true
  | .ori _ _ _ _ => true
  | .xori _ _ _ _ => true
  | .movl _ _ => true
  | .fadd _ _ _ _ _ => true
  | .fsub _ _ _ _ _ => true
  | .fmul _ _ _ _ _ => true
  | .ffma _ _ _ _ _ => true
  | .fmin _ _ _ _ => true
  | .fmax _ _ _ _ => true
  | .fabs _ _ _ => true
  | .fneg _ _ _ => true
  | .fcmp _ _ _ _ _ => true
  | .frnd _ _ _ _ => true
  | .fclass _ _ _ => true
  | .hadd2 _ _ _ _ _ => true
  | .hmul2 _ _ _ _ _ => true
  | .hfma2 _ _ _ _ _ => true
  | .hmax2 _ _ _ _ _ => true
  | .fdot2h _ _ _ _ _ => true
  | .rcp _ _ _ => true
  | .rsq _ _ _ => true
  | .sqrt _ _ _ => true
  | .div _ _ _ _ => true
  | .exp2 _ _ _ => true
  | .log2 _ _ _ => true
  | .sin _ _ _ => true
  | .cos _ _ _ => true
  | .tanh _ _ _ => true
  | .idivI _ _ _ _ => true
  | .idivN _ _ _ _ => true
  | .iremI _ _ _ _ => true
  | .iremN _ _ _ _ => true
  | .cvtn _ _ _ _ _ => true
  | .cvtw _ _ _ _ _ => true
  | .smxupd _ _ _ => true
  | .smxmrg _ _ _ => true
  | .smxfin _ _ _ => true
  | .rand _ _ => true
  | .randn _ _ => true
  | .shfl _ _ _ _ _ _ => true
  | .lred _ _ _ _ => true
  | .lscan _ _ _ _ _ => true
  | .vote _ _ _ _ => true
  | .voteBallot _ _ _ => true
  | .matcheq _ _ _ => true
  | .bppack _ _ _ _ => true
  | .bpunpack _ _ _ _ => true
  | .bpdot _ _ _ _ => true
  | .bpslice _ _ _ _ => true
  | .ld _ _ _ _ _ _ _ => true
  | .ldNarrow _ _ _ _ _ _ _ => true
  | .st _ _ _ _ _ _ _ => true
  | .ldacq _ _ _ _ _ _ => true
  | .strel _ _ _ _ _ _ => true
  | .cas _ _ _ _ _ => true
  | .atomrst _ _ _ _ _ => true
  | .fence _ _ => true
  | .otfence _ _ => true
  | .cwb _ _ _ _ _ => true
  | .cinv _ _ _ _ _ => true
  | .pref _ _ _ _ _ => true
  | .stmc _ _ _ _ _ => true
  | .stredAddF32 _ _ _ _ _ => true
  | .stredAddB32 _ _ _ _ _ => true
  | .stredMaxF32 _ _ _ _ _ => true
  | .copy _ _ _ _ _ => true
  | .copy2d _ _ _ _ _ => true
  | .gather _ _ _ _ => true
  | .scatter _ _ _ _ => true
  | .scatadd _ _ _ _ _ => true
  | .chain _ _ _ _ _ => true
  | .twait _ _ _ _ => true
  | .tfirst _ _ _ => true
  | .ttest _ _ _ => true
  | .tclr _ _ => true
  | .commit _ _ _ => true
  | .qstat _ _ _ => true
  | .launch _ _ _ => true
  | .lwait _ _ _ => true
  | .lstat _ _ _ => true
  | .fbulk _ _ _ _ _ => true
  | .fred _ _ _ _ => true
  | .frlease _ _ _ _ _ => true
  | .arrset _ _ _ => true
  | .arrwait _ _ => true
  | .pairgo _ _ _ _ => true
  | .pairrelaunch _ _ _ => true
  | .pairout _ _ _ => true
  | .pairstat _ _ _ => true
  | .capsub _ _ _ _ => true
  | .caprestrict _ _ _ _ => true
  | .caplen _ _ _ => true
  | .captype _ _ _ => true
  | .capmov _ _ _ => true
  | .ldcap _ _ _ _ _ => true
  | .stcap _ _ _ _ _ => true
  | .br _ _ => true
  | .brz _ _ _ => true
  | .brnz _ _ _ => true
  | .call _ _ => true
  | .brx _ _ => true
  | .callx _ _ => true
  | .ret _ => true
  | .yield _ => true
  | .exit _ => true
  | .waitc _ _ => true
  | .enrol _ _ => true
  | .rejoin _ _ => true
  | .strike _ _ => true
  | .bar _ _ _ => true
  | .bararr _ _ _ _ => true
  | .barwait _ _ _ _ => true
  | .barinit _ _ _ _ => true
  | .gangleave _ _ _ => true
  | .gangack _ _ _ => true
  | .gstat _ _ _ => true
  | .dphase _ => true
  | .brk _ => true
  | .trap _ _ => true
  | .trapret _ _ => true
  | .event _ _ _ => true
  | .sread _ _ _ => true
  | .swrite _ _ _ => true
  | .faultrec _ _ _ => true
  | .lresume _ _ _ _ => true
  | .lkill _ _ _ => true
  | .ctxsave _ _ _ => true
  | .ctxload _ _ _ => true
  | .tclaim _ _ => true
  | .trelease _ _ => true
  | .tload _ _ _ _ => true
  | .tzero _ => true
  | .tzeroSlot _ => true
  | .tmma _ _ _ _ _ => true
  | .tdrain _ _ _ _ => true
  | .mbararr _ _ => true
  | .mbarwait _ _ => true
  | .mloop _ _ => true
  | .mend => true
  | .mset _ _ => true
  | .madd _ _ => true
  | .mpost _ _ => true
  | .mexit => true
  | .eadd _ _ _ => true
  | .esub _ _ _ => true
  | .emul _ _ _ => true
  | .efma _ _ _ => true
  | .emax _ _ _ => true
  | .emin _ _ _ => true
  | .etanh _ _ => true
  | .eexp _ _ => true
  | .ercp _ _ => true
  | .eldrow _ => true
  | .eldcol _ => true
  | .ecvt _ _ _ => true
  | .eamax _ => true
  | .esmx _ _ => true
  | .eend => true
  | .storePerform _ => true
  | .coreBufferDrain _ => true
  | .loadPerform _ _ => true
  | .atomicPerform _ => true
  | .systemBufferDeliver _ => true
  | .engineAccess _ _ => true
  | .viewRaise _ _ _ => true
  | .extentCacheDrop _ => true
  | .extentCacheFill _ _ _ _ _ => true
  | .waitcExpiry _ _ => true
  | .fairnessTimerExpiry _ _ => true
  | .ageLimitExpiry _ => true
  | .activeSetReplace _ => true
  | .activeSetIdleLeave _ => true
  | .faultQueueEnter _ => true
  | .pairLimit _ _ => true
  | .engineComplete _ => true
  | .arrayOpStart _ => true
  | .arrayOpFinish _ => true
  | .epilogueRow _ => true
  | .martenBinning _ => true
  | .pairGroupStart _ => true
  | .sideApply _ => true
  | .exactFinish _ => true
  | .pairLaunchComplete _ => true
  | .launchRecordWrite _ _ _ => true
  | .launchSubmit _ _ => true
  | .teamPlace _ _ => true
  | .bankroleWrite _ _ => true
  | .backfillStop _ => true
  | .teamEnd _ => true
  | .launchComplete _ => true
  | .preemptTeam _ => true
  | .teamResume _ _ => true
  | .serialPhase _ => true
  | .sliceWithdraw _ => true
  | .correctedError _ _ => true
  | .ceThreshold _ _ => true
  | .uncorrectableError _ _ _ => true
  | .taskRelaunch _ _ => true
  | .powerOverLimit => true
  | .powerUnderLimit => true
  | .powerUp => true
  | .bringUpStage _ _ => true
  | .contextCreate _ _ _ => true
  | .contextDestroy _ => true
  | .resolveRetry _ _ _ => true
  | .resolveFail _ _ _ => true
  | .hostOtfenceDev _ _ => true
  | .hostOtfenceSys _ _ => true
  | .otfenceDone _ => true
  | .commandPortStage _ _ _ => true
  | .hostMemoryWrite _ _ _ => true
  | .hostMemoryRead _ _ => true
  | .tcignRead => true
  | .dlcountRead _ => true
  | .lpfullClear _ => true
  | .registerWrite _ _ _ _ => true
  | .eventRingWrite => true
  | .gets _ _ _ => true
  | .getm _ _ _ => true
  | .puts _ _ => true
  | .pute _ _ => true
  | .putm _ _ => true
  | .inv _ _ => true
  | .downgrade _ _ => true
  | .grant _ _ => true
  | .invAck _ _ => true
  | .putAck _ _ => true
  | .l2Eviction _ _ => true
  | .sectorFetch _ _ _ => true
  | .flitReceive _ _ _ => true
  | .flitAck _ _ => true
  | .laneSpare _ _ => true
  | .linkFail _ _ => true
  | .portUp _ => true
  | .escapeMove _ _ => true
  | .keyInstall _ _ => true
  | .keySwitch _ => true
  | .flitCounterExhausted _ => true
  | .rekeyGraceExpiry _ => true
  | .peerAccessArrive _ _ _ _ _ => true
  | .bulkPacketArrive _ _ _ _ => true
  | .reduceLeaseArrive _ _ _ _ => true
  | .reduceContribArrive _ _ _ _ => true
  | .slotTimeout _ => true
  | .resultRecordDeliver _ => true
  | .owlHalt _ _ => true
  | .owlResume _ _ _ => true
  | .owlStep _ _ _ => true
  | .owlHaltseq _ => true
  | .owlResumeseq _ _ => true
  | .owlStepseq _ _ => true
  | .grantWrite _ _ _ => true
  | .lcclearWrite _ => true
  | .sampleTimer _ _ => true
  | .traceLostRecord _ => true
  | .powerRemoved => true
  | .signedUpdate _ _ => true
  | .noIssueClock _ _ => true

end Sys2Proof
end

