-- ==== Sys2Proof/Certificates/Slice0/Obligations.lean ====
section
/-! DEFINITION. The statements for the provers. Each one's docstring names the rules of spec/ it rests on. -/

open Sys2Proof Sys2Proof.Machine

namespace Sys2Proof.Claims

/-! ### The shapes of the words that compute a result for each lane -/

/-- What a word of the issue comes to, once its vector, if it takes one, has left q1 (R52). -/
def Popping (s : State) (i : Instr) (t : State) : State := if popsQ1 i then t.popQ1 s.iss.gk else t

/-- Every executing lane takes one fault on the word, in ascending order (R9). -/
def Faults (s : State) (i : Instr) (f : FaultInfo) : Prop := exec i s = .next (Popping s i (s.raiseAll f))

/-- Wherever the word may run to its end, it does, and its whole effect is these results in its destination. -/
def Runs (s : State) (i : Instr) (d : Opc) (res : Nat → LaneRes) : Prop := Able s i d res → Computes s i d res

/-- A word of one source, of two sources, and of two sources and the value that the destination held (R75). -/
def Unary (mk : Bool → Opc → Opc → Instr) (f : Word → LaneRes) : Prop :=
  ∀ (s : State) (c : Bool) (d a : Opc), Runs s (mk c d a) d (fun l => f (s.src s.iss.gk l a))
def Binary (mk : Bool → Opc → Opc → Opc → Instr) (f : Word → Word → LaneRes) : Prop :=
  ∀ (s : State) (c : Bool) (d a b : Opc),
    Runs s (mk c d a b) d (fun l => f (s.src s.iss.gk l a) (s.src s.iss.gk l b))
def Ternary (mk : Bool → Opc → Opc → Opc → Instr) (f : Word → Word → Word → LaneRes) : Prop :=
  ∀ (s : State) (c : Bool) (d a b : Opc),
    Runs s (mk c d a b) d (fun l => f (s.src s.iss.gk l a) (s.src s.iss.gk l b) (s.src s.iss.gk l d))

/-- The same for FP32 operations, whose results depend on the launch's numeric version and trap mask (R34). -/
def FpUnary (mk : Bool → Opc → Opc → Instr) (f : Nat → Nat → FRes) : Prop :=
  ∀ (s : State) (c : Bool) (d a : Opc),
    Runs s (mk c d a) d (fun l => fpRes s.fl (f s.nbv (s.src s.iss.gk l a).toNat))
def FpBinary (mk : Bool → Opc → Opc → Opc → Instr) (f : Nat → Nat → Nat → FRes) : Prop :=
  ∀ (s : State) (c : Bool) (d a b : Opc),
    Runs s (mk c d a b) d (fun l => fpRes s.fl (f s.nbv (s.src s.iss.gk l a).toNat (s.src s.iss.gk l b).toNat))
def FpTernary (mk : Bool → Opc → Opc → Opc → Instr) (f : Nat → Nat → Nat → Nat → FRes) : Prop :=
  ∀ (s : State) (c : Bool) (d a b : Opc),
    Runs s (mk c d a b) d (fun l => fpRes s.fl
      (f s.nbv (s.src s.iss.gk l a).toNat (s.src s.iss.gk l b).toNat (s.src s.iss.gk l d).toNat))

/-- A 32-bit result from an exact integer, modulo 2^32; a 64-bit one, modulo 2^64, in a register pair. -/
def I (z : Int) : LaneRes := .w (BitVec.ofInt 32 z)
def I64 (z : Int) : LaneRes := .d (BitVec.ofInt 64 z)

/-- 1 when the condition holds, else 0. -/
def truth (b : Bool) : LaneRes := .w (if b then 1 else 0)

/-- B[7:0]. -/
def low8 (b : Word) : Nat := b.toNat % 256

/-- The width w of the field of R78. -/
def fieldWidth (b : Word) : Nat := if 32 ≤ low8 b then 0 else min (b.toNat / 256 % 256) (32 - low8 b)

/-- The integer that a register holds in a byte or half-word type, and an integer wrapped into that type (R21, R79). -/
def subBitsOf (y : SubTy) : Nat := match y with | .i8 | .n8 => 8 | .i16 | .n16 => 16
def subVal (y : SubTy) (x : Word) : Int :=
  match y with
  | .i8 | .i16 => (x.setWidth (subBitsOf y)).toInt
  | .n8 | .n16 => (x.setWidth (subBitsOf y)).toNat
def subWrap (y : SubTy) (z : Int) : Int :=
  match y with
  | .i8 | .i16 => (BitVec.ofInt (subBitsOf y) z).toInt
  | .n8 | .n16 => (BitVec.ofInt (subBitsOf y) z).toNat

end Sys2Proof.Claims

open Sys2Proof.Claims

/-- R77: the integer and logic forms of MAJ 0x00 have the effects of Table 5.2, modulo 2^32. -/
def Sys2Proof.Claims.IntegerFormsOfMajorZero : Prop :=
  Binary .iadd (fun x y => I (x.toInt + y.toInt)) ∧
  Binary .isub (fun x y => I (x.toInt - y.toInt)) ∧
  Binary .imul (fun x y => I (x.toInt * y.toInt)) ∧
  Binary (fun c d a b => .imulh c d a b .i) (fun x y => I (x.toInt * y.toInt / 2 ^ 32)) ∧
  Binary (fun c d a b => .imulh c d a b .n) (fun x y => I ((x.toNat * y.toNat / 2 ^ 32 : Nat) : Int)) ∧
  Unary .ineg (fun x => I (-x.toInt)) ∧
  Unary .iabs (fun x => I (x.toInt.natAbs : Int)) ∧
  Binary (fun c d a b => .imin c d a b .i) (fun x y => I (min x.toInt y.toInt)) ∧
  Binary (fun c d a b => .imin c d a b .n) (fun x y => I ((min x.toNat y.toNat : Nat) : Int)) ∧
  Binary (fun c d a b => .imax c d a b .i) (fun x y => I (max x.toInt y.toInt)) ∧
  Binary (fun c d a b => .imax c d a b .n) (fun x y => I ((max x.toNat y.toNat : Nat) : Int)) ∧
  Binary .and (fun x y => .w (x &&& y)) ∧
  Binary .or (fun x y => .w (x ||| y)) ∧
  Binary .xor (fun x y => .w (x ^^^ y)) ∧
  Unary .mov (fun x => .w x)

/-- R77: the shifts, counts, comparisons and selection of MAJ 0x01 have the effects of Table 5.2. -/
def Sys2Proof.Claims.IntegerFormsOfMajorOne : Prop :=
  Binary .shl (fun x y => I ((x.toNat * 2 ^ low8 y : Nat) : Int)) ∧
  Binary .shr (fun x y => I ((x.toNat / 2 ^ low8 y : Nat) : Int)) ∧
  Binary .sar (fun x y => I (x.toInt / 2 ^ min (low8 y) 31)) ∧
  Unary .clz (fun x => I (((List.range 32).takeWhile (fun k => !x.getLsbD (31 - k))).length : Int)) ∧
  Unary .popc (fun x => I (((List.range 32).countP (fun k => x.getLsbD k) : Nat) : Int)) ∧
  Unary .brev (fun x => .w x.reverse) ∧
  (∀ (s : State) (c : Bool) (d a b : Opc), Runs s (.iadd64 c d a b) d (fun l =>
    I64 ((s.src64 s.iss.gk l a).toInt + (s.src64 s.iss.gk l b).toInt))) ∧
  (∀ (s : State) (c : Bool) (d a b : Opc), Runs s (.shl64 c d a b) d (fun l =>
    I64 (((s.src64 s.iss.gk l a).toNat * 2 ^ low8 (s.src s.iss.gk l b) : Nat) : Int))) ∧
  Binary (fun c d a b => .icmp c d a b .eq) (fun x y => truth (x.toNat = y.toNat)) ∧
  Binary (fun c d a b => .icmp c d a b .ne) (fun x y => truth (x.toNat ≠ y.toNat)) ∧
  Binary (fun c d a b => .icmp c d a b .ltI) (fun x y => truth (x.toInt < y.toInt)) ∧
  Binary (fun c d a b => .icmp c d a b .leI) (fun x y => truth (x.toInt ≤ y.toInt)) ∧
  Binary (fun c d a b => .icmp c d a b .ltN) (fun x y => truth (x.toNat < y.toNat)) ∧
  Binary (fun c d a b => .icmp c d a b .leN) (fun x y => truth (x.toNat ≤ y.toNat)) ∧
  Ternary .sel (fun x y z => .w (if z.toNat ≠ 0 then x else y))

/-- R77, R78, R79: multiply and add, bit fields, and the byte and half-word forms. -/
def Sys2Proof.Claims.MultiplyAddFieldsAndNarrowForms : Prop :=
  Ternary .imad (fun x y z => I (x.toInt * y.toInt + z.toInt)) ∧
  (∀ (s : State) (c : Bool) (d a b : Opc), Runs s (.imadwI c d a b) d (fun l =>
    I64 ((s.src s.iss.gk l a).toInt * (s.src s.iss.gk l b).toInt + (s.src64 s.iss.gk l d).toInt))) ∧
  (∀ (s : State) (c : Bool) (d a b : Opc), Runs s (.imadwN c d a b) d (fun l =>
    I64 (((s.src s.iss.gk l a).toNat * (s.src s.iss.gk l b).toNat + (s.src64 s.iss.gk l d).toNat : Nat) : Int))) ∧
  Binary .bfxN (fun x y => I ((x.toNat / 2 ^ low8 y % 2 ^ fieldWidth y : Nat) : Int)) ∧
  Binary .bfxI (fun x y => I (BitVec.ofNat (fieldWidth y) (x.toNat / 2 ^ low8 y)).toInt) ∧
  Ternary .bfi (fun x y z => I ((z.toNat % 2 ^ low8 y + x.toNat % 2 ^ fieldWidth y * 2 ^ low8 y +
    z.toNat / 2 ^ (low8 y + fieldWidth y) * 2 ^ (low8 y + fieldWidth y) : Nat) : Int)) ∧
  (∀ y, Binary (fun c d a b => .iaddBh c d a b y) (fun p q => I (subWrap y (subVal y p + subVal y q)))) ∧
  (∀ y, Binary (fun c d a b => .isubBh c d a b y) (fun p q => I (subWrap y (subVal y p - subVal y q)))) ∧
  (∀ y, Binary (fun c d a b => .iminBh c d a b y) (fun p q => I (min (subVal y p) (subVal y q)))) ∧
  (∀ y, Binary (fun c d a b => .imaxBh c d a b y) (fun p q => I (max (subVal y p) (subVal y q))))

/-- R80: the immediate forms add or combine the sign-extended IMM11. -/
def Sys2Proof.Claims.ImmediateForms : Prop :=
  (∀ k : BitVec 11, Unary (fun c d a => .iaddi c d a k) (fun x => I (x.toInt + k.toInt))) ∧
  (∀ (s : State) (c : Bool) (d : Opc) (k : BitVec 11), Runs s (.movi c d k) d (fun _ => I k.toInt)) ∧
  (∀ k : BitVec 11, Unary (fun c d a => .andi c d a k) (fun x => .w (x &&& BitVec.ofInt 32 k.toInt))) ∧
  (∀ k : BitVec 11, Unary (fun c d a => .ori c d a k) (fun x => .w (x ||| BitVec.ofInt 32 k.toInt))) ∧
  (∀ k : BitVec 11, Unary (fun c d a => .xori c d a k) (fun x => .w (x ^^^ BitVec.ofInt 32 k.toInt)))

/-- R80, R56, R57: MOVL writes its literal and the lanes go on after the literal; NOP only goes on. -/
def Sys2Proof.Claims.LiteralAndNop : Prop :=
  (∀ (s : State) (d : Opc) (lit : Word), Able s (.movl d lit) d (fun _ => .w lit) →
    Computes s (.movl d lit) d (fun _ => .w lit) (fun _ l => { l.goto s.here.next.next with resume := none })) ∧
  (∀ (s : State) (c : Bool), Issues s (.nop c) → ∃ t, exec (.nop c) s = .next t ∧
    t = { s with g := { s.g with lanes := t.g.lanes } } ∧ LanesBecome s t (fun _ => Lane.advance))

namespace Sys2Proof.Claims

/-- An exact value rounded once to a format, with NaN operands and invalid operations as Tables 2.6 and 2.8 say. -/
def once (f : FFmt) (rm : RMode) (n : Nat) (ops : List Nat) (v : Option Val) : FRes :=
  finish n f rm (ops.map (fun x => (f, x))) v

/-- One operation on the two 16-bit elements of packed operands; a condition of either element traps the lane (R83). -/
def onHalves (fl : BitVec 5) (lo hi : FRes) : LaneRes :=
  match trapFor fl (lo.iv || hi.iv) (lo.dz || hi.dz) (lo.ovf || hi.ovf) with
  | some f => .trap f
  | none => .w (BitVec.ofNat 32 (lo.bits + 2 ^ 16 * hi.bits))

/-- The packed words of two and of three sources, for both element formats. -/
def HalfBinary (mk : Bool → Opc → Opc → Opc → HTy → Instr) (f : Nat → FFmt → Nat → Nat → FRes) : Prop :=
  ∀ (s : State) (c : Bool) (d a b : Opc) (y : HTy), Runs s (mk c d a b y) d (fun l =>
    let x := (s.src s.iss.gk l a).toNat
    let z := (s.src s.iss.gk l b).toNat
    onHalves s.fl (f s.nbv (hFmt y) (x % 2 ^ 16) (z % 2 ^ 16)) (f s.nbv (hFmt y) (x / 2 ^ 16) (z / 2 ^ 16)))
def HalfTernary (mk : Bool → Opc → Opc → Opc → HTy → Instr) (f : Nat → FFmt → Nat → Nat → Nat → FRes) : Prop :=
  ∀ (s : State) (c : Bool) (d a b : Opc) (y : HTy), Runs s (mk c d a b y) d (fun l =>
    let x := (s.src s.iss.gk l a).toNat
    let z := (s.src s.iss.gk l b).toNat
    let w := (s.src s.iss.gk l d).toNat
    onHalves s.fl (f s.nbv (hFmt y) (x % 2 ^ 16) (z % 2 ^ 16) (w % 2 ^ 16))
      (f s.nbv (hFmt y) (x / 2 ^ 16) (z / 2 ^ 16) (w / 2 ^ 16)))

end Sys2Proof.Claims

/-- R81, R82: the FP32 forms compute exactly and round once in the mode, or compare, classify and change a sign. -/
def Sys2Proof.Claims.FloatForms : Prop :=
  (∀ r, FpBinary (fun c d a b => .fadd c d a b r) (fun n x y => once f32 r n [x, y] ((f32.val x).add r (f32.val y)))) ∧
  (∀ r, FpBinary (fun c d a b => .fsub c d a b r)
    (fun n x y => once f32 r n [x, y] ((f32.val x).add r (f32.val y).neg))) ∧
  (∀ r, FpBinary (fun c d a b => .fmul c d a b r) (fun n x y => once f32 r n [x, y] ((f32.val x).mul (f32.val y)))) ∧
  (∀ r, FpTernary (fun c d a b => .ffma c d a b r) (fun n x y z => once f32 r n [x, y, z]
    (((f32.val x).mul (f32.val y)).bind (fun p => p.add r (f32.val z))))) ∧
  FpBinary .fmin (fun n x y => fMinMax n f32 false x y) ∧
  FpBinary .fmax (fun n x y => fMinMax n f32 true x y) ∧
  Unary .fabs (fun x => I ((x.toNat % 2 ^ 31 : Nat) : Int)) ∧
  Unary .fneg (fun x => I ((x.toNat + 2 ^ 31 : Nat) : Int)) ∧
  (∀ o, FpBinary (fun c d a b => .fcmp c d a b o) (fun _ x y =>
    let ordered : Bool := !f32.isNan x && !f32.isNan y
    let k := (f32.val x).cmp (f32.val y)
    let holds : Bool := match o with
      | .eq => ordered && k == 0 | .lt => ordered && decide (k < 0) | .le => ordered && decide (k ≤ 0) | .un => !ordered
    { bits := if holds then 1 else 0, iv := f32.isSnan x || f32.isSnan y })) ∧
  (∀ r, FpUnary (fun c d a => .frnd c d a r) (fun n x => fRnd n r x)) ∧
  Unary .fclass (fun x => I ((2 ^ fClass x.toNat : Nat) : Int))

/-- R83: the packed 16-bit forms act on both elements, each rounded once to nearest even. -/
def Sys2Proof.Claims.HalfForms : Prop :=
  HalfBinary .hadd2 (fun n f x y => once f .rne n [x, y] ((f.val x).add .rne (f.val y))) ∧
  HalfBinary .hmul2 (fun n f x y => once f .rne n [x, y] ((f.val x).mul (f.val y))) ∧
  HalfTernary .hfma2 (fun n f x y z => once f .rne n [x, y, z]
    (((f.val x).mul (f.val y)).bind (fun p => p.add .rne (f.val z)))) ∧
  HalfBinary .hmax2 (fun n f x y => fMinMax n f true x y) ∧
  (∀ (s : State) (c : Bool) (d a b : Opc) (y : HTy), Runs s (.fdot2h c d a b y) d (fun l =>
    let f := hFmt y
    let x := (s.src s.iss.gk l a).toNat
    let z := (s.src s.iss.gk l b).toNat
    let w := (s.src s.iss.gk l d).toNat
    let sum := ((f.val (x % 2 ^ 16)).mul (f.val (z % 2 ^ 16))).bind (fun p =>
      ((f.val (x / 2 ^ 16)).mul (f.val (z / 2 ^ 16))).bind (fun q =>
        (p.add .rne q).bind (fun u => u.add .rne (f32.val w))))
    fpRes s.fl (finish s.nbv f32 .rne
      [(f, x % 2 ^ 16), (f, x / 2 ^ 16), (f, z % 2 ^ 16), (f, z / 2 ^ 16), (f32, w)] sum)))

/-- R34, R372, Table 2.8: the NaN of a rounded result. A signalling NaN operand meets the invalid condition; under
version 1 the result is the canonical NaN, under version 2 the first NaN operand quieted; an invalid operation without
a NaN operand gives the canonical NaN in both. -/
def Sys2Proof.Claims.NanResults : Prop :=
  ∀ (f : FFmt), f = f32 ∨ f = f16 ∨ f = bf16 → ∀ (rm : RMode) (ops : List Nat) (v : Option Val),
    (∀ x ∈ ops, x < 2 ^ (f.sign + 1)) →
    (∀ n, (once f rm n ops v).iv = true ↔ (∃ x ∈ ops, f.isSnan x = true) ∨ ((∀ x ∈ ops, f.isNan x = false) ∧
      v = none)) ∧
    (∀ x ∈ ops, f.isNan x = true → (once f rm 1 ops v).bits = f.qnan) ∧
    (∀ pre x post, ops = pre ++ x :: post → (∀ y ∈ pre, f.isNan y = false) → f.isNan x = true →
      (once f rm 2 ops v).bits = if f.isSnan x then x + 2 ^ (f.mb - 1) else x) ∧
    (∀ n, (∀ x ∈ ops, f.isNan x = false) → (once f rm n ops none).bits = f.qnan)

/-- R84, R86, R87: special functions, float division and integer division. -/
def Sys2Proof.Claims.SpecialAndDivisionForms : Prop :=
  FpUnary .rcp fRcp ∧ FpUnary .rsq fRsq ∧ FpUnary .sqrt fSqrt ∧ FpUnary .exp2 fExp2 ∧ FpUnary .log2 fLog2 ∧
  FpUnary .sin fSin ∧ FpUnary .cos fCos ∧ FpUnary .tanh fTanh ∧
  FpBinary .div (fun n x y => fDiv n f32 x y)

namespace Sys2Proof.Claims

/-- An integer division whose divisor is zero traps under the DZ bit, or gives a stated value (R87). -/
def divides (fl : BitVec 5) (y : Word) (byZero : Word) (z : Int) : LaneRes :=
  if y.toNat = 0 then (if fl.getLsbD 3 then .trap (.of fcFP_DIVZERO) else .w byZero) else I z

end Sys2Proof.Claims

/-- R87: integer division truncates toward zero and the remainder takes the sign of A; a zero divisor raises
FP_DIVZERO under the DZ bit, and gives 0xFFFF_FFFF and A without it.
Completes (exec answers a next state, under conditions on the state and the operands alone): idivI, idivN, iremI,
iremN. -/
def Obligations.IntegerDivision : Prop :=
  (∀ (s : State) (c : Bool) (d a b : Opc), Runs s (.idivI c d a b) d (fun l =>
    let x := s.src s.iss.gk l a; let y := s.src s.iss.gk l b
    divides s.fl y 0xFFFFFFFF (x.toInt.tdiv y.toInt))) ∧
  (∀ (s : State) (c : Bool) (d a b : Opc), Runs s (.idivN c d a b) d (fun l =>
    let x := s.src s.iss.gk l a; let y := s.src s.iss.gk l b
    divides s.fl y 0xFFFFFFFF ((x.toNat / y.toNat : Nat) : Int))) ∧
  (∀ (s : State) (c : Bool) (d a b : Opc), Runs s (.iremI c d a b) d (fun l =>
    let x := s.src s.iss.gk l a; let y := s.src s.iss.gk l b
    divides s.fl y x (x.toInt.tmod y.toInt))) ∧
  (∀ (s : State) (c : Bool) (d a b : Opc), Runs s (.iremN c d a b) d (fun l =>
    let x := s.src s.iss.gk l a; let y := s.src s.iss.gk l b
    divides s.fl y x ((x.toNat % y.toNat : Nat) : Int)))

/-- R85: the arguments of Table 5.4 give the same results, with the same conditions, in both algorithm sets. -/
def Sys2Proof.Claims.SpecialArguments : Prop :=
  ∀ n, (n = 1 ∨ n = 2) →
    (∀ f ∈ [fRcp, fRsq, fSqrt, fExp2, fLog2, fSin, fCos, fTanh], ∀ x, x < 2 ^ 32 → f32.isNan x = true →
      f n x = { bits := if n = 1 then 0x7FC00000 else x ||| 2 ^ 22, iv := f32.isSnan x }) ∧
    (∀ s : Bool, fRcp n (s.toNat * 2 ^ 31) = { bits := f32.inf s, dz := true }) ∧
    (∀ s : Bool, fRcp n (f32.inf s) = { bits := s.toNat * 2 ^ 31 }) ∧
    (∀ s : Bool, fRsq n (s.toNat * 2 ^ 31) = { bits := f32.inf s, dz := true }) ∧
    (∀ f ∈ [fRsq, fSqrt, fLog2], ∀ x, 2 ^ 31 < x → x ≤ f32.inf true →
      f n x = { bits := 0x7FC00000, iv := true }) ∧
    fRsq n (f32.inf false) = { bits := 0 } ∧
    (∀ s : Bool, fSqrt n (s.toNat * 2 ^ 31) = { bits := s.toNat * 2 ^ 31 }) ∧
    fSqrt n (f32.inf false) = { bits := f32.inf false } ∧
    fExp2 n (f32.inf true) = { bits := 0 } ∧
    fExp2 n (f32.inf false) = { bits := f32.inf false } ∧
    (∀ k : Int, -149 ≤ k → k ≤ 127 →
      fExp2 n (f32.round .rne (.fin (k < 0) k.natAbs 0)).bits = f32.round .rne (.fin false 1 k)) ∧
    (∀ s : Bool, fLog2 n (s.toNat * 2 ^ 31) = { bits := f32.inf true, dz := true }) ∧
    fLog2 n (f32.inf false) = { bits := f32.inf false } ∧
    (∀ k : Int, -149 ≤ k → k ≤ 127 →
      fLog2 n (f32.round .rne (.fin false 1 k)).bits = f32.round .rne (.fin (k < 0) k.natAbs 0)) ∧
    (∀ s : Bool, fSin n (s.toNat * 2 ^ 31) = { bits := s.toNat * 2 ^ 31 }) ∧
    (∀ s : Bool, fSin n (f32.inf s) = { bits := 0x7FC00000, iv := true } ∧
      fCos n (f32.inf s) = { bits := 0x7FC00000, iv := true }) ∧
    (∀ s : Bool, fCos n (s.toNat * 2 ^ 31) = { bits := 0x3F800000 }) ∧
    (∀ s : Bool, fTanh n (s.toNat * 2 ^ 31) = { bits := s.toNat * 2 ^ 31 }) ∧
    (∀ s : Bool, fTanh n (f32.inf s) = { bits := s.toNat * 2 ^ 31 + 0x3F800000 })

namespace Sys2Proof.Claims

/-- The bits of a conversion type, whether it is signed, and the range of an integer type. -/
def tyBits (e : CTy) : Nat :=
  match e with | .i8 | .n8 => 8 | .i16 | .n16 | .f16 | .bf16 => 16 | .i32 | .n32 | .f32 => 32 | .i64 | .n64 => 64
def tySigned (e : CTy) : Bool := match e with | .i8 | .i16 | .i32 | .i64 => true | _ => false
def tyMin (e : CTy) : Int := if tySigned e then -2 ^ (tyBits e - 1) else 0
def tyMax (e : CTy) : Int := if tySigned e then 2 ^ (tyBits e - 1) - 1 else 2 ^ tyBits e - 1
def tyFloat (e : CTy) : Option FFmt := match e with | .f32 => some Machine.f32 | .f16 => some Machine.f16 | .bf16 => some Machine.bf16 | _ => none

/-- The value of an integer type that the low bits of a source hold (R21). -/
def tyInt (y : CTy) (w : DWord) : Int :=
  if tySigned y then (BitVec.ofNat (tyBits y) w.toNat).toInt else ((w.toNat % 2 ^ tyBits y : Nat) : Int)
/-- An integer written in its type: wrapped, then extended to 32 bits, or a pair of registers (R21). -/
def tyOut (e : CTy) (z : Int) : LaneRes :=
  if tyBits e = 64 then I64 z
  else if tySigned e then I (BitVec.ofInt (tyBits e) z).toInt else I ((BitVec.ofInt (tyBits e) z).toNat : Int)

/-- An exact value rounded to an integer in a mode (R89): the quotient of n by d, and one more in magnitude where the
mode takes it away from zero. -/
def roundInt (rm : RMode) (neg : Bool) (m : Nat) (e : Int) : Int :=
  let n := m * 2 ^ e.toNat
  let d := 2 ^ (-e).toNat
  let up : Bool := match rm with
    | .rne => decide (2 * (n % d) > d) || (decide (2 * (n % d) = d) && decide (n / d % 2 = 1))
    | .rz => false
    | .ru => decide (n % d ≠ 0) && !neg
    | .rd => decide (n % d ≠ 0) && neg
  let k : Int := ((n / d + (if up then 1 else 0) : Nat) : Int)
  if neg then -k else k

/-- CVT for one lane (R89). That a 32-bit integer beyond FP16's range overflows as a 64-bit one does is the model's choice (log
53). -/
def convert (n : Nat) (fl : BitVec 5) (e y : CTy) (rm : RMode) (sat : Bool) (w : DWord) : LaneRes :=
  match tyFloat e, tyFloat y with
  | some g, some f => fpRes fl (finish n g rm [(f, w.toNat % 2 ^ tyBits y)] (some (f.val (w.toNat % 2 ^ tyBits y))))
  | some g, none =>
    let r := g.round rm (.fin (tyInt y w < 0) (tyInt y w).natAbs 0)
    fpRes fl (if r.ovf then { r with bits := g.inf (tyInt y w < 0) } else r)
  | none, some f =>
    let invalid : LaneRes :=
      if fl.getLsbD 2 then .trap (.of fcFP_INVALID) else tyOut e (if tySigned e then tyMin e else tyMax e)
    match f.val (w.toNat % 2 ^ tyBits y) with
    | .nan => if sat then tyOut e 0 else invalid
    | .inf neg => if sat then tyOut e (if neg then tyMin e else tyMax e) else invalid
    | .fin neg m q =>
      let z := roundInt rm neg m q
      if sat then tyOut e (max (tyMin e) (min (tyMax e) z))
      else if tyMin e ≤ z ∧ z ≤ tyMax e then tyOut e z else invalid
  | none, none => tyOut e (if sat then max (tyMin e) (min (tyMax e) (tyInt y w)) else tyInt y w)

/-- The block scale of R91. -/
def scaleOf (s : State) (l : Nat) (b : Opc) : Val :=
  if b = 120 then .fin false 1 0 else ks16 ((s.src s.iss.gk l b).toNat % 2 ^ 16)

end Sys2Proof.Claims

/-- R88, R89: CVT converts the exact source value, whatever the types, the mode and SAT. -/
def Sys2Proof.Claims.Conversions : Prop :=
  ∀ (s : State) (c : Bool) (d a : Opc) (e : CTy) (r : RMode) (u : Bool) (y : CTy),
    Runs s (.cvt c d a e r u y) d (fun l =>
      convert s.nbv s.fl e y r u (if tyBits y = 64 then s.src64 s.iss.gk l a else joinW 0 (s.src s.iss.gk l a)))

/-- R91, R92: CVTN encodes, and CVTW decodes, through the format slot of the launch with the block scale of B. -/
def Sys2Proof.Claims.SlotConversions : Prop :=
  ∀ (s : State) (c : Bool) (d a b : Opc) (k : BitVec 3), (s.kern s.iss.gk).fmtEmpty k.toNat = false →
    let f := (s.kern s.iss.gk).fmt k.toNat
    Runs s (.cvtn c d a b k) d (fun l =>
      let x := (s.src s.iss.gk l a).toNat
      let z := scaleOf s l b
      let code := if f32.isNan x ∨ z = .nan then f.nanCode
        else if z = .fin false 0 0 then f.encode (.fin false 0 0) (.fin false 1 0) else f.encode (f32.val x) z
      fpRes s.fl { bits := code, iv := f32.isSnan x }) ∧
    Runs s (.cvtw c d a b k) d (fun l => fpRes s.fl
      (f32.round .rne (f.value ((s.src s.iss.gk l a).toNat % 2 ^ codeBits f) (scaleOf s l b))))

/-- R93: CVTN and CVTW raise ILLEGAL_OPERAND at issue when the slot is empty. -/
def Sys2Proof.Claims.EmptySlotFaults : Prop :=
  ∀ (s : State) (c : Bool) (d a b : Opc) (k : BitVec 3), (s.kern s.iss.gk).fmtEmpty k.toNat = true →
    exec (.cvtn c d a b k) s = .next (s.raiseAll (.of fcILLEGAL_OPERAND)) ∧
    exec (.cvtw c d a b k) s = .next (s.raiseAll (.of fcILLEGAL_OPERAND))

namespace Sys2Proof.Claims

/-- The merge of R41 for one lane, with a NaN anywhere making every register written the canonical NaN (R97). -/
def merged (n m1 s1 m2 s2 : Nat) : LaneRes :=
  let m := if f32.isNan m1 || f32.isNan m2 then f32.qnan else (fMinMax 2 f32 true m1 m2).bits
  let factor (x : Nat) : Nat := if x = f32.inf true then 0 else canon (fExp2 n (engSub x m))
  let r := [m, engAdd (engMul s1 (factor m1)) (engMul s2 (factor m2)), factor m1, factor m2]
  if ([m1, s1, m2, s2] ++ r).any f32.isNan then .val (r.map (fun _ => 0x7FC00000)) else .val (r.map (BitVec.ofNat 32))

/-- Draw n of a lane (R98): the Philox-4x32-10 block for the lane's counter under the launch's seed. -/
def drawAt (s : State) (l n : Nat) : Word :=
  let g := s.group s.iss.gk
  let t := s.team g.tk
  let p := (s.lane (lkOf s.iss.gk l)).pair
  let serial := BitVec.ofNat 32 (s.launchOf t.ln).serial
  let block := if g.pair then
      philox (BitVec.ofNat 32 (p.b * 256 + n / 4)) (0x80000000 ||| BitVec.ofNat 32 p.a) (BitVec.ofNat 32 t.idx) serial
        (loW t.kern.seed) (hiW t.kern.seed)
    else philox (BitVec.ofNat 32 (n / 4)) (BitVec.ofNat 32 (g.idx * g.width + l)) (BitVec.ofNat 32 t.idx) serial
        (loW t.kern.seed) (hiW t.kern.seed)
  block.getD (n % 4) 0

/-- The lane's draw count. -/
def drawn (s : State) (l : Nat) : Nat := (s.lane (lkOf s.iss.gk l)).draws.toNat

/-- A lane that has gone on and taken k draws. -/
def Drew (k : Nat) (_ : Nat) (l : Lane) : Lane := { l.advance with draws := l.draws + BitVec.ofNat 32 k }

/-- Each executing lane may take k draws: a pair lane's are numbered below 1,024 (R100). -/
def MayDraw (s : State) (k : Nat) : Prop := (s.group s.iss.gk).pair = true → ∀ l ∈ s.iss.lanes, drawn s l + k ≤ 1024

/-- The normal variate of two draws, as R99 writes it. -/
def variate (n : Nat) (w0 w1 : Word) : Word :=
  let u1 := (f32.roundQ .rne false (w0.toNat / 2 ^ 8 + 1) (2 ^ 24)).bits
  let u2 := (f32.roundQ .rne false (w1.toNat / 2 ^ 8) (2 ^ 24)).bits
  let t := (fMul n f32 .rne (fLog2 n u1).bits 0xBFB17218).bits
  BitVec.ofNat 32 (fMul n f32 .rne (fSqrt n t).bits (fCos n (fMul n f32 .rne u2 0x40C90FDB).bits).bits).bits

end Sys2Proof.Claims

/-- R94 to R97: the softmax words merge states and finalise them, and a NaN makes every register written canonical. -/
def Sys2Proof.Claims.SoftmaxWords : Prop :=
  ∀ (s : State) (c : Bool) (d a : Opc),
    let r (l : Nat) (o : Opc) : Nat := (s.src s.iss.gk l o).toNat
    Runs s (.smxupd c d a) d (fun l => merged s.nbv (r l d) (r l (d + 1)) (r l a) 0x3F800000) ∧
    Runs s (.smxmrg c d a) d (fun l => merged s.nbv (r l d) (r l (d + 1))
      ((s.src64 s.iss.gk l a).toNat % 2 ^ 32) ((s.src64 s.iss.gk l a).toNat / 2 ^ 32)) ∧
    Runs s (.smxfin c d a) d (fun l =>
      let m := (s.src64 s.iss.gk l a).toNat % 2 ^ 32
      let z := (s.src64 s.iss.gk l a).toNat / 2 ^ 32
      let v := if z % 2 ^ 31 = 0 then 0 else (fRcp s.nbv z).bits
      .w (if f32.isNan m || f32.isNan z || f32.isNan v then 0x7FC00000 else BitVec.ofNat 32 v))

/-- R98, R99, R100: RAND writes the lane's next draw and RANDN the normal variate of its next two; the count goes on
by one or two; a pair lane takes no draw numbered 1,024 or above. -/
def Sys2Proof.Claims.RandomWords : Prop :=
  ∀ (s : State) (c : Bool) (d : Opc),
    (MayDraw s 1 → Able s (.rand c d) d (fun l => .w (drawAt s l (drawn s l))) →
      Computes s (.rand c d) d (fun l => .w (drawAt s l (drawn s l))) (Drew 1)) ∧
    (MayDraw s 2 → Able s (.randn c d) d (fun l => .w (variate s.nbv (drawAt s l (drawn s l))
        (drawAt s l ((drawn s l + 1) % 2 ^ 32)))) →
      Computes s (.randn c d) d (fun l => .w (variate s.nbv (drawAt s l (drawn s l))
        (drawAt s l ((drawn s l + 1) % 2 ^ 32)))) (Drew 2)) ∧
    (∀ l, Issues s (.rand c d) → isQ d = false → s.iss.lanes = [l] → (s.group s.iss.gk).pair = true → drawn s l = 1024 →
      Faults s (.rand c d) (.of fcILLEGAL_OPERAND))

namespace Sys2Proof.Claims

/-- The lane that SHFL reads, as R113 computes it: its index, and whether it is in range. -/
def shuffled (h : ShMode) (S L k : Nat) : Nat × Bool :=
  let base := L / S * S
  match h with
  | .idx => (base + k, decide (k < S))
  | .up => (L - k, decide (k ≤ L - base))
  | .down => (L + k, decide (k < base + S - L))
  | .xor => (L ^^^ k, decide (k < S))

/-- Every lane position of the group: A of a participant, the identity for every other (R112). -/
def contributions (s : State) (a : Opc) (o : Lop) : List Nat :=
  (List.range (s.group s.iss.gk).width).map (fun l =>
    if l ∈ s.iss.lanes then (s.src s.iss.gk l a).toNat else lopId o)

/-- A value of a tree for a lane, or the trap of a condition that the tree met (R114). -/
def treeOut (fl : BitVec 5) (t : Tree) (v : Nat) : LaneRes :=
  if t.iv && fl.getLsbD 2 then .trap (.of fcFP_INVALID)
  else if t.ovf && fl.getLsbD 4 then .trap (.of fcFP_OVERFLOW) else .w (BitVec.ofNat 32 v)

end Sys2Proof.Claims

/-- R112, R113: SHFL moves the bits of the source lane unchanged, and gives a lane its own value where the source is
out of range or no participant. -/
def Sys2Proof.Claims.Shuffle : Prop :=
  ∀ (s : State) (c : Bool) (d a b : Opc) (g : Seg) (h : ShMode),
    let S := match g with
      | .gw => (s.group s.iss.gk).width | .s8 => min 8 (s.group s.iss.gk).width
      | .s16 => min 16 (s.group s.iss.gk).width | .s32 => min 32 (s.group s.iss.gk).width
    Runs s (.shfl c d a b g h) d (fun l =>
      let p := shuffled h S l (s.src s.iss.gk l b).toNat
      .w (if p.2 = true ∧ p.1 ∈ s.iss.lanes then s.src s.iss.gk p.1 a else s.src s.iss.gk l a))

/-- R112, R114: LRED and LSCAN compute by the trees of R36 over all positions; a condition met by a step traps every
participant. -/
def Sys2Proof.Claims.LaneTrees : Prop :=
  ∀ (s : State) (c : Bool) (d a : Opc) (o : Lop),
    Runs s (.lred c d a o) d (fun _ =>
      let t := lredTree s.nbv o (contributions s a o)
      treeOut s.fl t (t.xs.getD 0 0)) ∧
    (∀ x : Bool, Runs s (.lscan c d a x o) d (fun l =>
      let t := lscanTree s.nbv o (contributions s a o)
      treeOut s.fl t (if x then (if l = 0 then lopId o else t.xs.getD (l - 1) 0) else t.xs.getD l 0)))

/-- R115, R116: votes, masks and bit planes. A mask is named by its bits.
Completes (exec answers a next state, under conditions on the state and the operands alone): vote, voteBallot,
matcheq, bppack, bpunpack, bpdot, bpslice. -/
def Obligations.VotesAndBitPlanes : Prop :=
  ∀ (s : State) (c : Bool) (d a b : Opc),
    let A (l : Nat) : Word := s.src s.iss.gk l a
    let A64 (l : Nat) : DWord := s.src64 s.iss.gk l a
    let B (l : Nat) : Word := s.src s.iss.gk l b
    Runs s (.vote c d a false) d (fun _ => truth (∀ l ∈ s.iss.lanes, A l ≠ 0)) ∧
    Runs s (.vote c d a true) d (fun _ => truth (∃ l ∈ s.iss.lanes, A l ≠ 0)) ∧
    (∀ m : DWord, (∀ k, k < 64 → (m.getLsbD k = true ↔ k ∈ s.iss.lanes ∧ A k ≠ 0)) →
      Runs s (.voteBallot c d a) d (fun _ => .d m)) ∧
    (∀ m : Nat → DWord, (∀ l ∈ s.iss.lanes, ∀ k, k < 64 → ((m l).getLsbD k = true ↔ k ∈ s.iss.lanes ∧ A k = A l)) →
      Runs s (.matcheq c d a) d (fun l => .d (m l))) ∧
    (∀ m : Nat → DWord, (∀ l ∈ s.iss.lanes, ∀ k, k < 64 →
        ((m l).getLsbD k = true ↔ k ∈ s.iss.lanes ∧ (A k).getLsbD (B l).toNat = true)) →
      Runs s (.bppack c d a b) d (fun l => .d (m l))) ∧
    (∀ m : Nat → Word, (∀ l ∈ s.iss.lanes, 1 ≤ (B l).toNat ∧ (B l).toNat ≤ 8 ∧ ∀ k, k < 32 →
        ((m l).getLsbD k = true ↔ k < (B l).toNat ∧ (B l).toNat - 1 - k ∈ s.iss.lanes ∧
          (A64 ((B l).toNat - 1 - k)).getLsbD l = true)) →
      Runs s (.bpunpack c d a b) d (fun l => .w (m l))) ∧
    Runs s (.bpdot c d a b) d (fun l => I ((s.src s.iss.gk l d).toInt + (((List.range 64).countP (fun k =>
      (A64 l).getLsbD k && (s.src64 s.iss.gk l b).getLsbD k) : Nat) : Int))) ∧
    Runs s (.bpslice c d a b) d (fun l =>
      let o := (B l).toNat % 2 ^ 6
      let n := (B l).toNat / 2 ^ 8 % 2 ^ 7
      I64 (((A64 l).toNat / 2 ^ o % 2 ^ min n (64 - o) : Nat) : Int))

namespace Sys2Proof.Claims

/-- The word runs to a next state of which this holds. -/
def Goes (s : State) (i : Instr) (P : State → Prop) : Prop := ∃ t, exec i s = .next t ∧ P t

/-- Every executing lane goes to the next word. -/
def AllAdvance (s t : State) : Prop := LanesBecome s t (fun _ => Lane.advance)

/-- A capability with these fields and the check byte of R102. -/
def CapIs (c : Cap) (type : Nat) (rights : BitVec 8) (obj base len : Nat) : Prop :=
  Cap.type c = type ∧ Cap.rights c = rights ∧ Cap.obj c = obj ∧ Cap.base c = base ∧ Cap.len c = len ∧ capOk c = true

/-- A capability register that a word may use (R102). -/
def Usable (c : Cap) : Prop := capOk c = true ∧ Cap.type c < 9

/-- One capability register of the issuing group takes a capability, the lanes go on, and nothing else changes. -/
structure WroteCap (s t : State) (d : Opc) (c : Cap) : Prop where
  frame : t = { s with g := { s.g with lanes := t.g.lanes, creg := t.g.creg } }
  lanes : AllAdvance s t
  held : t.creg s.iss.gk d.toNat = c
  kept : ∀ k r, r < 8 → ¬ (k = s.iss.gk ∧ r = d.toNat) → t.creg k r = s.creg k r

end Sys2Proof.Claims

/-- R102, R103, R105, R106, R107: the capability words on a usable capability. CAPSUB narrows the bounds,
CAPRESTRICT the rights; CAPMOV copies; CAPLEN and CAPTYPE write 64 bits of the fields. -/
def Sys2Proof.Claims.CapabilityWords : Prop :=
  ∀ (s : State) (c : Bool) (d a b : Opc), Usable (s.creg s.iss.gk a.toNat) →
    let x := s.creg s.iss.gk a.toNat
    let off := (s.src64 s.iss.gk 0 b).toNat
    let len := (s.src64 s.iss.gk 0 (b + 2)).toNat
    (Issues s (.capsub c d a b) → Cap.type x ≠ 0 → off + len ≤ Cap.len x → Cap.base x + off + len ≤ 2 ^ 40 →
      Cap.base x + off < 2 ^ 40 →
      Goes s (.capsub c d a b) (fun t => ∃ y, CapIs y (Cap.type x) (Cap.rights x) (Cap.obj x) (Cap.base x + off) len ∧
        WroteCap s t d y)) ∧
    (Issues s (.caprestrict c d a b) →
      Goes s (.caprestrict c d a b) (fun t => ∃ y, CapIs y (Cap.type x)
        (Cap.rights x &&& (s.src s.iss.gk s.low b).setWidth 8) (Cap.obj x) (Cap.base x) (Cap.len x) ∧ WroteCap s t d y)) ∧
    (Issues s (.capmov c d a) → Goes s (.capmov c d a) (fun t => WroteCap s t d x)) ∧
    (Issues s (.caplen c d a) → isQ d = false → Computes s (.caplen c d a) d (fun _ => I64 (Cap.len x))) ∧
    (Issues s (.captype c d a) → isQ d = false → Computes s (.captype c d a) d (fun _ =>
      I64 ((Cap.type x + (Cap.rights x).toNat * 2 ^ 8 + Cap.obj x * 2 ^ 32 : Nat) : Int)))

/-- R102, R105: a capability word raises CAP_CHECK or CAP_TYPE on a register that it may not use, and CAPSUB raises
CAP_NULL and CAP_BOUNDS; the registers keep their values. -/
def Sys2Proof.Claims.CapabilityFaults : Prop :=
  ∀ (s : State) (c : Bool) (d a b : Opc),
    let x := s.creg s.iss.gk a.toNat
    let off := (s.src64 s.iss.gk 0 b).toNat
    let len := (s.src64 s.iss.gk 0 (b + 2)).toNat
    (∀ i ∈ [Instr.capsub c d a b, .caprestrict c d a b, .caplen c d a, .captype c d a, .capmov c d a], Issues s i →
      (capOk x = false → Faults s i (capFault fcCAP_CHECK x 0)) ∧
      (capOk x = true → 9 ≤ Cap.type x → Faults s i (capFault fcCAP_TYPE x 0))) ∧
    (Usable x → Issues s (.capsub c d a b) →
      (Cap.type x = 0 → Faults s (.capsub c d a b) (capFault fcCAP_NULL x off)) ∧
      (Cap.type x ≠ 0 → (Cap.len x < off + len ∨ 2 ^ 40 < Cap.base x + off + len) →
        Faults s (.capsub c d a b) (capFault fcCAP_BOUNDS x off)))

/-- R104: none of the capability instructions widens a capability: every capability register that changes holds, with
its type and object, no right and no byte that the source did not have. -/
def Sys2Proof.Claims.CapabilitiesNeverWiden : Prop :=
  ∀ (s t : State) (c : Bool) (d a b : Opc),
    ∀ i ∈ [Instr.capsub c d a b, .caprestrict c d a b, .caplen c d a, .captype c d a, .capmov c d a],
      exec i s = .next t → ∀ k r, r < 8 → t.creg k r = s.creg k r ∨
        (k = s.iss.gk ∧
          let x := s.creg s.iss.gk a.toNat
          let y := t.creg k r
          Cap.type y = Cap.type x ∧ Cap.obj y = Cap.obj x ∧ Cap.rights y &&& Cap.rights x = Cap.rights y ∧
          (0 < Cap.len y → Cap.base x ≤ Cap.base y ∧ Cap.base y + Cap.len y ≤ Cap.base x + Cap.len x))

/-- R101, R102: the fields of a capability and its check byte: a capability made of fields has those fields and passes
its check, and the all-zero capability is NULL and passes. -/
def Sys2Proof.Claims.CapabilityLayout : Prop :=
  (∀ type rights obj base len : Nat, type < 2 ^ 8 → rights < 2 ^ 8 → obj < 2 ^ 24 → base < 2 ^ 40 → len < 2 ^ 40 →
    CapIs (mkCap type rights obj base len) type (BitVec.ofNat 8 rights) obj base len) ∧
  (∀ c c' : Cap, capOk c = true → capOk c' = true → Cap.type c = Cap.type c' → Cap.rights c = Cap.rights c' →
    Cap.obj c = Cap.obj c' → Cap.base c = Cap.base c' → Cap.len c = Cap.len c' → c = c') ∧
  CapIs 0 0 0 0 0 0

namespace Sys2Proof.Claims

/-- Only the lanes' own records have changed. -/
def OnlyLanes (s t : State) : Prop := t = { s with g := { s.g with lanes := t.g.lanes } }

/-- A lane that has gone to slot 0 of a packet by a taken transfer: it fetches there words as they stood at its last acquire at
DEVICE scope, or later (R131). -/
def toPacket (p : Nat) (l : Lane) : Lane := { (l.goto { pkt := p, slot := 0 }) with codeFloor := max l.codeFloor l.acquired }

/-- The target of an FB word (R55): the packet of the word plus DISP15. -/
def displaced (s : State) (x : BitVec 15) : Nat := (((s.iss.pkt : Int) + x.toInt) % 2 ^ 30).toNat

/-- The lanes have gone on, a vector taken has left q1, and nothing else has changed. -/
structure OnlyWent (s t : State) (i : Instr) (f : Nat → Lane → Lane) : Prop where
  frame : t = { s with g := { s.g with lanes := t.g.lanes, groups := t.g.groups } }
  lanes : LanesBecome s t f
  group : GroupBecomes s t (Popped s i)

/-- A lane that waits at its word, the wait of an earlier word of the chain coming after. -/
def Waits (w : Wait) (l : Lane) : Lane := l.waitAt w

end Sys2Proof.Claims

/-- R55, R117: BR goes to its target, BRZ and BRNZ by each lane's own value, BRX to slot 0 of packet V(A)[29:0]; a
lane that does not transfer goes on. Nothing else changes. -/
def Sys2Proof.Claims.Branches : Prop :=
  ∀ (s : State) (c : Bool) (a : Opc) (x : BitVec 15),
    (Issues s (.br c x) → Goes s (.br c x) (fun t => OnlyWent s t (.br c x) (fun _ => toPacket (displaced s x)))) ∧
    (Issues s (.brz c a x) → Goes s (.brz c a x) (fun t => OnlyWent s t (.brz c a x)
      (fun l => if s.src s.iss.gk l a = 0 then toPacket (displaced s x) else Lane.advance))) ∧
    (Issues s (.brnz c a x) → Goes s (.brnz c a x) (fun t => OnlyWent s t (.brnz c a x)
      (fun l => if s.src s.iss.gk l a ≠ 0 then toPacket (displaced s x) else Lane.advance))) ∧
    (Issues s (.brx c a) → Goes s (.brx c a) (fun t => OnlyWent s t (.brx c a)
      (fun l => toPacket ((s.src s.iss.gk l a).toNat % 2 ^ 30))))

namespace Sys2Proof.Claims

/-- A lane's mask bit, set or clear. -/
def inMask (m : DWord) (l : Nat) : Bool := m.getLsbD l

/-- The mask with the bits of the executing lanes set; with them clear. -/
def SetBits (s : State) (m n : DWord) : Prop := ∀ k, k < 64 → (n.getLsbD k = true ↔ m.getLsbD k = true ∨ k ∈ s.iss.lanes)
def ClearBits (s : State) (m n : DWord) : Prop := ∀ k, k < 64 → (n.getLsbD k = true ↔ m.getLsbD k = true ∧ k ∉ s.iss.lanes)

/-- Every lane of the group whose bit is set in a mask waits at it. -/
def AllParked (u : State) (gk j : Nat) (m : DWord) : Prop :=
  ∀ l, l < (u.group gk).width → m.getLsbD l = true → (u.lane (lkOf gk l)).waitsAt j = true

/-- What the rule of release of R120 makes of a mask jN that now reads m, the lanes standing as in u: with every set
bit's lane waiting, they go on and the mask is 0; otherwise the mask is m and no lane changes. -/
structure Settled (u t : State) (gk j : Nat) (m : DWord) : Prop where
  frame : t = { u with g := { u.g with lanes := t.g.lanes, jmask := t.g.jmask } }
  released : AllParked u gk j m → t.jmask gk j = 0 ∧ ∀ l, l < (u.group gk).width →
    t.lane (lkOf gk l) = if (u.lane (lkOf gk l)).waitsAt j = true then Lane.released j (u.lane (lkOf gk l)) else u.lane (lkOf gk l)
  held : ¬ AllParked u gk j m → t.jmask gk j = m ∧ t.g.lanes = u.g.lanes
  others : ∀ k r, r < 8 → ¬ (k = gk ∧ r = j) → t.jmask k r = u.jmask k r
  apart : ∀ k, (∀ l, l < (u.group gk).width → k ≠ lkOf gk l) → t.lane k = u.lane k

end Sys2Proof.Claims

/-- R120: ENROL sets the executing lanes' bits, STRIKE clears them, and REJOIN parks the lanes whose bits are set; the
release rule follows every change. Bits and lanes lie below the group's width. -/
def Sys2Proof.Claims.RejoinMasks : Prop :=
  ∀ (s : State) (c : Bool) (j : BitVec 3), (s.group s.iss.gk).width ≤ 64 →
    (∀ l ∈ s.iss.lanes, l < (s.group s.iss.gk).width) →
    let gk := s.iss.gk
    let m := s.jmask gk j.toNat
    (Issues s (.enrol c j) → Goes s (.enrol c j) (fun t =>
      t = { s with g := { s.g with lanes := t.g.lanes, jmask := t.g.jmask } } ∧ AllAdvance s t ∧
      SetBits s m (t.jmask gk j.toNat) ∧ ∀ k r, r < 8 → ¬ (k = gk ∧ r = j.toNat) → t.jmask k r = s.jmask k r)) ∧
    (Issues s (.strike c j) → Goes s (.strike c j) (fun t => ∃ u n, OnlyLanes s u ∧ AllAdvance s u ∧ ClearBits s m n ∧
      Settled u t gk j.toNat n)) ∧
    (Issues s (.rejoin c j) → Goes s (.rejoin c j) (fun t => ∃ u, OnlyLanes s u ∧
      LanesBecome s u (fun l x => if m.getLsbD l then Waits (.rejoin j.toNat) x.advance else x.advance) ∧
      Settled u t gk j.toNat m))

/-- R121, R122: YIELD changes nothing of the machine but what the issue former keeps, and WAITC stops each lane for
min(V(A), 65,535) clocks after its word; 0 gives no wait. -/
def Sys2Proof.Claims.YieldAndWait : Prop :=
  ∀ (s : State) (c : Bool) (a : Opc),
    (Issues s (.yield c) → Goes s (.yield c) (fun t =>
      t = { s with g := { s.g with lanes := t.g.lanes, groups := t.g.groups } } ∧ AllAdvance s t ∧
      GroupBecomes s t { s.group s.iss.gk with yielded := some s.here.next })) ∧
    (Issues s (.waitc c a) → Goes s (.waitc c a) (fun t =>
      t = { s with g := { s.g with lanes := t.g.lanes, groups := t.g.groups } } ∧
      GroupBecomes s t (Popped s (.waitc c a)) ∧
      LanesBecome s t (fun l x =>
        let n := min (s.src s.iss.gk l a).toNat 65535
        if n = 0 then x.advance else Waits (.clocks n) x.advance)))

/-- R123, R120: EXIT ends each executing lane of an ordinary group: it is exited, its bits are clear in all eight
masks, and only the group's own lanes, masks and queues and its uncommitted landing entries change. -/
def Sys2Proof.Claims.Exit : Prop :=
  ∀ (s : State) (c : Bool), Issues s (.exit c) → (s.group s.iss.gk).pair = false → (s.group s.iss.gk).width ≤ 64 →
    (∀ l ∈ s.iss.lanes, l < (s.group s.iss.gk).width) →
    Goes s (.exit c) (fun t =>
      t = { s with g := { s.g with lanes := t.g.lanes, groups := t.g.groups, jmask := t.g.jmask }
                   t := { s.t with landing := t.t.landing } } ∧
      (∀ l ∈ s.iss.lanes, (t.lane (lkOf s.iss.gk l)).st = .exited ∧ ∀ r, r < 8 → (t.jmask s.iss.gk r).getLsbD l = false) ∧
      (∀ k, k / 64 ≠ s.iss.gk → t.lane k = s.lane k) ∧
      (∀ k, k ≠ s.iss.gk → t.group k = s.group k ∧ ∀ r, r < 8 → t.jmask k r = s.jmask k r) ∧
      (∀ e, e ∈ t.t.landing ↔ e ∈ s.t.landing ∧ ¬ (e.gk = s.iss.gk ∧ e.key % (64 * 128) / 128 ∈ s.iss.lanes)))

namespace Sys2Proof.Claims

/-- A fault parks the lane in its team's fault queue: the kernel has a handler role that the lane is not of (R350). -/
def QueuesFault (s : State) (gk : Nat) : Prop :=
  ∃ r, (s.kern gk).handler = some r ∧ ((s.group gk).pair = true ∨ r ≠ (s.group gk).role)

/-- Bits [lo + w - 1 : lo] of a record. -/
def field (r : BitVec 512) (lo w : Nat) : Nat := r.toNat / 2 ^ lo % 2 ^ w

/-- What every fault record says (Table 22.1): code, FID, launch, team, slot and packet. -/
def RecordOf (s : State) (gk fid : Nat) (pc : Pc) (code : Nat) (r : BitVec 512) : Prop :=
  field r 0 16 = code % 2 ^ 16 ∧ field r 32 32 = fid % 2 ^ 32 ∧
  field r 64 32 = (s.launchOf (s.teamOf gk).ln).serial % 2 ^ 32 ∧ field r 96 32 = (s.teamOf gk).idx % 2 ^ 32 ∧
  field r 128 2 = pc.slot % 4 ∧ field r 130 30 = pc.pkt % 2 ^ 30

/-- What the record of an ordinary lane adds (Table 22.1): group, lane, core, capability type, object, offset, DETAIL,
AUX, and the tag with its valid bit. -/
def LaneRecordOf (s : State) (lk : Nat) (f : FaultInfo) (r : BitVec 512) : Prop :=
  let g := s.group (lk / 64)
  field r 160 16 = g.idx % 2 ^ 16 ∧ field r 176 6 = lk % 64 ∧ field r 184 7 = g.core % 2 ^ 7 ∧
  field r 192 8 = f.ctype % 2 ^ 8 ∧ field r 200 24 = f.obj % 2 ^ 24 ∧ field r 224 64 = f.off % 2 ^ 64 ∧
  field r 288 32 = f.detail % 2 ^ 32 ∧ field r 320 32 = f.aux % 2 ^ 32 ∧
  field r 24 1 = (if f.tag.isSome then 1 else 0) ∧ field r 18 6 = (f.tag.getD 0) % 2 ^ 6

/-- A lane taken into its in-line handler and nothing else (R127). -/
structure EnteredHandler (s t : State) (lk : Nat) (pc : Pc) (kind n : Nat) : Prop where
  frame : OnlyLanes s t
  lane : t.lane lk = Handled pc kind n (s.lane lk)
  others : ∀ k, k ≠ lk → t.lane k = s.lane k

/-- A lane of an ordinary group parked under a new FID with its record in the team's fault queue, or waiting for a
place in it (R222, R350, R351). -/
structure Queued (s t : State) (lk : Nat) (pc : Pc) (f : FaultInfo) : Prop where
  frame : t = { s with g := { s.g with lanes := t.g.lanes }, t := { s.t with teams := t.t.teams } }
  lane : t.lane lk = { s.lane lk with
    st := .parked (s.teamOf (lk / 64)).nextFid, pkt := pc.pkt, slot := pc.slot, token := none, took := none, held := []
    after := (s.lane lk).keepWait }
  others : ∀ k, k ≠ lk → t.lane k = s.lane k
  team : ∃ r, RecordOf s (lk / 64) (s.teamOf (lk / 64)).nextFid pc f.code r ∧ LaneRecordOf s lk f r ∧
    let T := s.teamOf (lk / 64)
    let T' := { T with parked := tset none T.parked T.nextFid (some { lane := some lk, pair := false }), nextFid := T.nextFid + 1 }
    t.team (s.group (lk / 64)).tk =
      if T.fwait = [] ∧ T.fq.length < 256 then { T' with fq := T.fq ++ [r] } else { T' with fwait := T.fwait ++ [r] }
  teams : ∀ k, k ≠ (s.group (lk / 64)).tk → t.team k = s.team k

/-- A lane of an ordinary group whose record goes to the host as a FAULT event: the lane ends as under LKILL and the
launch is marked (R350). -/
structure Reported (s t : State) (lk : Nat) (pc : Pc) (f : FaultInfo) : Prop where
  event : ∃ r, RecordOf s (lk / 64) (s.teamOf (lk / 64)).nextFid pc f.code r ∧ LaneRecordOf s lk f r ∧
    t.h = { s.h with events := s.h.events ++ [
      { kind := 1, ctx := BitVec.ofNat 32 (s.kern (lk / 64)).ctx, payload := r, need := [] }] }
  lane : (t.lane lk).st = .exited
  masks : ∀ r, r < 8 → (t.jmask (lk / 64) r).getLsbD (lk % 64) = false
  fid : (t.team (s.group (lk / 64)).tk).nextFid = (s.teamOf (lk / 64)).nextFid + 1
  launch : (t.launchOf (s.teamOf (lk / 64)).ln).faulted = true
  regs : t.g.vreg = s.g.vreg ∧ t.g.sreg = s.g.sreg ∧ t.g.creg = s.g.creg
  rest : t.o = s.o ∧ t.e = s.e ∧ t.x = s.x ∧ t.d = s.d ∧ t.f = s.f ∧ t.r = s.r ∧ t.w = s.w ∧ t.iss = s.iss ∧
    t.next = s.next ∧ t.free = s.free ∧ t.turns = s.turns

/-- The kinds of TCAUSE (Table 6.4). -/
def trapNumber (code : Nat) : Option Nat :=
  if code = 0x0301 then some 1 else if code = 0x0302 then some 2 else if code = 0x0303 then some 3
  else if code = 0x0304 then some 4 else none

end Sys2Proof.Claims

/-- R127, R222, R350: taking a trap or fault. A software or numeric trap enters the in-line handler when TVEC is not 0
and INTRAP is 0; every other trap and every fault parks the lane, whose record goes to the team's fault queue where the
kernel has a handler role that the lane is not of, and to the host otherwise. -/
def Sys2Proof.Claims.TakingATrapOrFault : Prop :=
  ∀ (s : State) (lk : Nat) (pc : Pc) (f : FaultInfo), (s.group (lk / 64)).pair = false →
    let inLine := (trapNumber f.code).isSome = true ∧ (s.lane lk).tvec ≠ 0 ∧ (s.lane lk).intrap = false
    (∀ k, trapNumber f.code = some k → inLine → EnteredHandler s (s.raise lk pc f) lk pc k f.n) ∧
    (¬ inLine → QueuesFault s (lk / 64) → Queued s (s.raise lk pc f) lk pc f) ∧
    (¬ inLine → ¬ QueuesFault s (lk / 64) → Reported s (s.raise lk pc f) lk pc f)

/-- R127: TRAP n raises SOFTWARE_TRAP with number n in each executing lane, each taking it in turn; where every lane
has its in-line handler free, each enters it with KIND 1 and N the word's number, and nothing else changes. -/
def Sys2Proof.Claims.TrapWord : Prop :=
  ∀ (s : State) (c : Bool) (n : Opc), Issues s (.trap c n) →
    exec (.trap c n) s = .next (s.iss.lanes.foldl (fun x l =>
      x.raise (lkOf s.iss.gk l) s.here { code := fcSOFTWARE_TRAP, detail := n.toNat, n := n.toNat }) s) ∧
    ((∀ l ∈ s.iss.lanes, (s.lane (lkOf s.iss.gk l)).tvec ≠ 0 ∧ (s.lane (lkOf s.iss.gk l)).intrap = false) →
      Goes s (.trap c n) (fun t => OnlyLanes s t ∧ LanesBecome s t (fun _ => Handled s.here 1 n.toNat)))

namespace Sys2Proof.Claims

/-- The word after a PC: the next slot, or slot 0 of the next packet. -/
def wordAfter (p : Pc) : Pc := if p.slot < 2 then { p with slot := p.slot + 1 } else { pkt := p.pkt + 1, slot := 0 }

/-- TEPC as a PC. -/
def savedPc (l : Lane) : Pc := { pkt := l.tepc.toNat / 4, slot := l.tepc.toNat % 4 }

end Sys2Proof.Claims

/-- R128: TRAPRET with INTRAP 1 clears INTRAP and resumes the lane at TEPC, or at the word after it; with INTRAP 0, or
with 3 in TEPC's slot field, it raises ILLEGAL_OPERAND. -/
def Sys2Proof.Claims.TrapReturn : Prop :=
  ∀ (s : State) (c : Bool) (m : Opc), Issues s (.trapret c m) →
    ((∀ l ∈ s.iss.lanes, (s.lane (lkOf s.iss.gk l)).intrap = true ∧ (s.lane (lkOf s.iss.gk l)).tepc.toNat % 4 ≠ 3) →
      Goes s (.trapret c m) (fun t => OnlyLanes s t ∧ LanesBecome s t (fun _ l =>
        { l.goto (if m = 1 then wordAfter (savedPc l) else savedPc l) with
          intrap := false, codeFloor := max l.codeFloor l.acquired }))) ∧
    ((∀ l ∈ s.iss.lanes, (s.lane (lkOf s.iss.gk l)).intrap = false ∨ (s.lane (lkOf s.iss.gk l)).tepc.toNat % 4 = 3) →
      Faults s (.trapret c m) (.of fcILLEGAL_OPERAND))

/-- Only lanes' own records and Owl's trace rings have changed: what a ring holds in memory, and the free values drawn for it. -/
def Sys2Proof.Claims.Traced (s t : State) : Prop :=
  t = { s with g := { s.g with lanes := t.g.lanes }, w := { s.w with owl := t.w.owl }, free := t.free
               o := { s.o with mem := t.o.mem, old := t.o.old, stamp := t.o.stamp } }

/-- R130, R365: a lane that runs past its breakpoint goes on; where a debugger has enabled breakpoints for the context
every other lane halts at the word, and where none has it takes BREAKPOINT. -/
def Sys2Proof.Claims.BreakpointWord : Prop :=
  ∀ (s : State) (c : Bool), Issues s (.brk c) →
    let debugged := s.debugged (s.group s.iss.gk).core (s.kern s.iss.gk).ctx = true
    ((∀ l ∈ s.iss.lanes, (s.lane (lkOf s.iss.gk l)).past = true) →
      Goes s (.brk c) (fun t => OnlyLanes s t ∧ AllAdvance s t)) ∧
    ((∀ l ∈ s.iss.lanes, l < 64) → debugged →
      (∀ l ∈ s.iss.lanes, (s.lane (lkOf s.iss.gk l)).past = false) →
      Goes s (.brk c) (fun t => Traced s t ∧
        LanesBecome s t (fun _ l => { l with st := .halted none, step := false, haltReq := false }))) ∧
    ((∀ l ∈ s.iss.lanes, l < 64) → ¬ debugged →
      (∀ l ∈ s.iss.lanes, (s.lane (lkOf s.iss.gk l)).past = false) →
      exec (.brk c) s = .next (s.iss.lanes.foldl (fun x l =>
        x.park (lkOf s.iss.gk l) s.here (.of fcBREAKPOINT)) s))

/-- R132, R135: EVENT sends one user event carrying n, V(A), launch, team, group, lane and core of the lowest-numbered
executing lane, and the lanes go on; while the ring is full, or an acquire or fence of a lane is still to be performed (R138),
the lanes wait and nothing is sent. -/
def Sys2Proof.Claims.EventWord : Prop :=
  ∀ (s : State) (c : Bool) (a n : Opc), Issues s (.event c a n) →
    let g := s.group s.iss.gk
    let T := s.teamOf s.iss.gk
    let behind := ∃ l ∈ s.iss.lanes, s.acqPending (lkOf s.iss.gk l) = true
    (¬ behind → s.evFull = false → Goes s (.event c a n) (fun t =>
      t = { s with g := { s.g with lanes := t.g.lanes, groups := t.g.groups }, h := t.h } ∧
      AllAdvance s t ∧ GroupBecomes s t (Popped s (.event c a n)) ∧
      ∃ p : BitVec 512, t.h = { s.h with events := s.h.events ++ [
          { kind := 5, ctx := BitVec.ofNat 32 T.kern.ctx, payload := p, need := [] }] } ∧
        field p 0 8 = n.toNat ∧ field p 32 32 = (s.src s.iss.gk s.low a).toNat ∧
        field p 64 32 = (s.launchOf T.ln).serial % 2 ^ 32 ∧ field p 96 6 = T.kern.ctx % 2 ^ 6 ∧
        field p 128 32 = T.idx % 2 ^ 32 ∧ field p 160 16 = g.idx % 2 ^ 16 ∧ field p 176 8 = s.low % 2 ^ 8 ∧
        field p 184 8 = g.core % 2 ^ 8)) ∧
    (¬ behind → s.evFull = true → Goes s (.event c a n) (fun t => OnlyLanes s t ∧
      LanesBecome s t (fun _ => Waits .place))) ∧
    (behind → Goes s (.event c a n) (fun t => OnlyLanes s t ∧ LanesBecome s t (fun _ => Waits (.order none))))

namespace Sys2Proof.Claims

/-- The value of special register n for a lane (Table 6.3). -/
def specialValue (s : State) (l n : Nat) : Option Word :=
  let gk := s.iss.gk
  let lane := s.lane (lkOf gk l)
  let g := s.group gk
  let k := s.kern gk
  if n = 0 then some lane.lanesp
  else if n = 1 then some (BitVec.ofNat 32 (Cap.len (s.creg gk 3) / g.width / 16 * 16))
  else if n = 2 then some lane.tvec
  else if n = 3 then some lane.tepc
  else if n = 4 then some lane.tcause
  else if n = 5 then some (if lane.intrap then 1 else 0)
  else if n = 6 then some lane.draws
  else if 16 ≤ n ∧ n < 32 then
    some (if n % 2 = 0 then (s.jmask gk ((n - 16) / 2)).setWidth 32 else ((s.jmask gk ((n - 16) / 2)) >>> 32).setWidth 32)
  else if n = 32 then some g.fairctl
  else if n = 33 then some ((s.cycles g.core).setWidth 32)
  else if n = 34 then some (((s.cycles g.core) >>> 32).setWidth 32)
  else if n = 35 then some (BitVec.ofNat 32 g.core)
  else if n = 36 then some (BitVec.ofNat 32 g.part)
  else if n = 37 then some (BitVec.ofNat 32 g.width)
  else if n = 38 then some (k.flags.setWidth 32)
  else if n = 39 then some (BitVec.ofNat 32 k.saveSize)
  else none

/-- The lane's record after SWRITE of special n, for the lane specials that a write reaches. -/
def specialWritten (n : Nat) (v : Word) (l : Lane) : Lane :=
  if n = 0 then { l with lanesp := v &&& 0xFFFFFFFC } else if n = 2 then { l with tvec := v }
  else if n = 3 then { l with tepc := v } else l

end Sys2Proof.Claims

/-- R125, R126, Table 6.3: SREAD gives each executing lane the special's value and changes nothing else; the cycle
counter in a deterministic launch needs `.allow nondet` and marks the launch; an unlisted number faults. -/
def Sys2Proof.Claims.SpecialRead : Prop :=
  ∀ (s : State) (c : Bool) (d n : Opc),
    let k := s.kern s.iss.gk
    (∀ v : Nat → Word, (∀ l ∈ s.iss.lanes, specialValue s l n.toNat = some (v l)) →
      ((n ≠ 33 ∧ n ≠ 34) ∨ k.det = false) → Runs s (.sread c d n) d (fun l => .w (v l))) ∧
    (Issues s (.sread c d n) → specialValue s s.low n.toNat = none →
      Faults s (.sread c d n) (.of fcILLEGAL_OPERAND)) ∧
    (Issues s (.sread c d n) → (n = 33 ∨ n = 34) → k.det = true →
      (k.nondet = false → Faults s (.sread c d n) (.of fcNONDET_OP)) ∧
      (k.nondet = true → isQ d = false → Goes s (.sread c d n) (fun t =>
        DestHolds s t d (fun l => .w ((specialValue s l n.toNat).getD 0)) ∧ AllAdvance s t ∧
        (t.launchOf (s.teamOf s.iss.gk).ln).nondet = true)))

/-- R125, R6, Table 6.3: SWRITE writes LANESP (its low two bits cleared), TVEC and TEPC of each executing lane from the
lane's own value, FAIRCTL from the lowest-numbered lane clamped to 256 to 65,536; a read-only special keeps its value. -/
def Sys2Proof.Claims.SpecialWrite : Prop :=
  ∀ (s : State) (c : Bool) (a n : Opc), Issues s (.swrite c a n) →
    ((specialValue s s.low n.toNat).isSome = true → Goes s (.swrite c a n) (fun t =>
      t = { s with g := { s.g with lanes := t.g.lanes, groups := t.g.groups } } ∧
      LanesBecome s t (fun l x => (specialWritten n.toNat (s.src s.iss.gk l a) x).advance) ∧
      GroupBecomes s t (if n = 32 then
          { Popped s (.swrite c a n) with
            fairctl := BitVec.ofNat 32 (max 256 (min 65536 (s.src s.iss.gk s.low a).toNat)) }
        else Popped s (.swrite c a n)))) ∧
    (specialValue s s.low n.toNat = none →
      Faults s (.swrite c a n) (.of fcILLEGAL_OPERAND))

namespace Sys2Proof.Claims

/-! ### Memory words -/

/-- What a memory word asks for: the capability register, bytes, kind of access for the page, types and rights it needs,
whether it reaches capability objects, its index operand, and what its event carries. -/
structure Access where
  cap : Nat
  z : Nat
  acc : AccKind
  allow : List Nat
  need : BitVec 8
  caps : Bool := false
  idx : Opc
  scale : Option Nat := none
  plus : Nat := 0
  kind : Nat → EvKind
  val : Nat → BitVec 128
  dst : Dst
  acq : Option Scope := none
  rel : Option Scope := none
  sync : Option Scope := none
  nol1 : Bool := false

/-- The byte offset of a lane's access: the index scaled by the access's bytes (R139), or as the word says. -/
def Access.off (q : Access) (s : State) (l : Nat) : Nat := (s.src s.iss.gk l q.idx).toNat * q.scale.getD q.z + q.plus

/-- The five steps of R139 pass: check byte, type, rights, bounds, alignment. -/
def Permitted (s : State) (c : Cap) (allow : List Nat) (need : BitVec 8) (off z : Nat) : Prop :=
  capOk c = true ∧ Cap.type c ≠ 0 ∧ Cap.type c ∈ allow ∧ (Cap.type c = 6 → s.ctxPriv (s.kern s.iss.gk).ctx = true) ∧
  Cap.rights c &&& need = need ∧ off + z ≤ Cap.len c ∧ Cap.base c + off + z ≤ 2 ^ 40 ∧ (Cap.base c + off) % z = 0

/-- The bytes of a lane's access, through the capability as it stood when the word issued (R103), stand at a location, found
without a wait and without a change of the device. -/
def StandsAt (s : State) (q : Access) (l : Nat) (loc : Loc) : Prop :=
  s.resolve (s.group s.iss.gk).tk (s.group s.iss.gk).core (s.heldCap s.iss.gk l q.cap) (q.off s l) q.z q.acc q.caps false =
    (.ok loc, s)

/-- The event that a lane's access posts; the one access of a group destination serves the other lanes as well. -/
def Access.event (q : Access) (s : State) (one : Bool) (l : Nat) (loc : Loc) : MemEv :=
  { agent := lkOf s.iss.gk l, gk := s.iss.gk, lane := l, kind := q.kind l, loc := loc, size := q.z, val := q.val l
    dst := q.dst, acq := q.acq, rel := q.rel, sync := q.sync, nol1 := q.nol1, pkt := s.iss.pkt, slot := s.iss.slot
    cap := s.heldCap s.iss.gk l q.cap, off := q.off s l, issue := s.next, also := if one then s.iss.lanes.drop 1 else [] }

/-- The lanes whose access a word makes: all, or the lowest-numbered one for a group destination (R146). -/
def accessors (s : State) (one : Bool) : List Nat := if one then [s.low] else s.iss.lanes

/-- The accesses of a word may be made: no lane is behind an acquire or fence of its own, each access is permitted and its
bytes stand at a location that takes the operation, which in a deterministic launch is no device memory. -/
structure MayAccess (s : State) (i : Instr) (q : Access) (one : Bool) (loc : Nat → Loc) : Prop where
  issues : Issues s i
  clear : ∀ l ∈ s.iss.lanes, s.acqPending (lkOf s.iss.gk l) = false
  fresh : one = true → ∀ l ∈ s.iss.lanes, (s.lane (lkOf s.iss.gk l)).resume = none
  plain : ∀ l ∈ accessors s one, ∀ a pol nc, loc l = .dev a pol nc → (s.kern s.iss.gk).det = false
  granted : ∀ l ∈ accessors s one, Permitted s (s.heldCap s.iss.gk l q.cap) q.allow q.need (q.off s l) q.z
  stands : ∀ l ∈ accessors s one, StandsAt s q l (loc l)
  takes : ∀ l ∈ accessors s one, ∀ a, loc l = .host a → ∀ v w r, q.kind l ≠ .atomic .addF32 v w r ∧
    q.kind l ≠ .atomic .addB64 v w r ∧ q.kind l ≠ .atomic .rst v w r

/-- The key of the event that a lane's window awaits; 0 where nothing lands. -/
def Access.key (q : Access) (s : State) (one : Bool) (l : Nat) : Nat :=
  if q.dst = .none then 0 else if one then s.next else s.next + s.iss.lanes.idxOf l

/-- One event for each access, in ascending order of lanes; each lane has opened its window and gone on; a vector taken
has left q1; and nothing else has changed. -/
structure Posted (s t : State) (i : Instr) (q : Access) (one : Bool) (loc : Nat → Loc) : Prop where
  frame : t = { s with g := { s.g with lanes := t.g.lanes, groups := t.g.groups }, o := { s.o with pend := t.o.pend }
                       next := s.next + (accessors s one).length }
  posted : ∀ j l, (accessors s one)[j]? = some l → tget none t.o.pend (s.next + j) = some (q.event s one l (loc l))
  older : ∀ k, (k < s.next ∨ s.next + (accessors s one).length ≤ k) → tget none t.o.pend k = tget none s.o.pend k
  lanes : LanesBecome s t (fun l x => (Lane.openWindow s.here i (q.key s one l) x).advance)
  group : GroupBecomes s t (Popped s i)

/-- Wherever its accesses may be made, the word makes them. -/
def Posts (s : State) (i : Instr) (one : Bool) (q : Access) : Prop :=
  ∀ loc, MayAccess s i q one loc → Goes s i (fun t => Posted s t i q one loc)

/-- Where a load of some registers lands: v or s registers from D, each lane's bytes extended from some bits. -/
def landsIn (d : Opc) (regs bits : Nat) (signed : Bool) : Dst :=
  if isV d then .v d.toNat regs bits signed else .s (d.toNat - 96) regs bits signed

/-- Every type of Table 7.1, and those that take atomics. -/
def anyType : List Nat := [1, 2, 3, 4, 5, 6, 7, 8]
def atomTypes : List Nat := [1, 2, 3, 7, 8]

def bytesOf (w : StW) : Nat := match w with | .b8 => 1 | .b16 => 2 | .b32 => 4 | .b64 => 8
def narrowOf (w : NarrowTy) : Nat × Bool :=
  match w with | .n8 => (1, false) | .i8 => (1, true) | .n16 => (2, false) | .i16 => (2, true)

end Sys2Proof.Claims

/-- R139, R144, R146: LD and ST. A load asks for R and lands in D, extended from its width; with an s destination one
access is made, of the lowest-numbered lane. A store asks for W and carries the low bytes of S. -/
def Sys2Proof.Claims.LoadsAndStores : Prop :=
  ∀ (s : State) (c : Bool) (d a : Opc) (k : BitVec 3) (l : BitVec 4) (h : Hint),
    (∀ w : Bool, isV d = true ∨ isS d = true → Posts s (.ld c d a k l h w) (isS d)
      { cap := k.toNat, z := if w then 8 else 4, acc := .read, allow := anyType, need := 1, idx := a, kind := fun _ => .load
        val := fun _ => 0, dst := landsIn d (if w then 2 else 1) 32 false, nol1 := h = .nol1 }) ∧
    (∀ w : NarrowTy, isV d = true ∨ isS d = true → Posts s (.ldNarrow c d a k l h w) (isS d)
      { cap := k.toNat, z := (narrowOf w).1, acc := .read, allow := anyType, need := 1, idx := a, kind := fun _ => .load
        val := fun _ => 0, dst := landsIn d 1 (8 * (narrowOf w).1) (narrowOf w).2, nol1 := h = .nol1 }) ∧
    (∀ w : StW, Posts s (.st c d a k l h w) false
      { cap := k.toNat, z := bytesOf w, acc := .write, allow := anyType, need := 2, idx := a, kind := fun _ => .store
        val := fun m => BitVec.ofNat 128 (if w = .b64 then (s.src64 s.iss.gk m d).toNat
          else (s.src s.iss.gk m d).toNat % 2 ^ (8 * bytesOf w)), dst := .none })

/-- R147: LDACQ posts a load that is an acquire, and STREL a store that is a release, at their scope. -/
def Sys2Proof.Claims.AcquireAndRelease : Prop :=
  ∀ (s : State) (c : Bool) (d a : Opc) (k : BitVec 3) (l : BitVec 4) (sc : Scope),
    (isV d = true ∨ isS d = true → Posts s (.ldacq c d a k l sc) (isS d)
      { cap := k.toNat, z := 4, acc := .read, allow := anyType, need := 1, idx := a, kind := fun _ => .load
        val := fun _ => 0, dst := landsIn d 1 32 false, acq := some sc, sync := some sc }) ∧
    Posts s (.strel c d a k l sc) false
      { cap := k.toNat, z := 4, acc := .write, allow := anyType, need := 2, idx := a, kind := fun _ => .store
        val := fun m => BitVec.ofNat 128 (s.src s.iss.gk m d).toNat, dst := .none, rel := some sc, sync := some sc }

namespace Sys2Proof.Claims

/-- Bytes of an atomic (Table 7.5), its operand, and the new value that CAS takes from V(D + 1). -/
def atomBytes (u : Aop) : Nat := if u = .addB64 then 8 else 4
def operand (s : State) (u : Aop) (d : Opc) (l : Nat) : DWord :=
  if u = .addB64 then s.src64 s.iss.gk l d else (s.src s.iss.gk l d).setWidth 64
def newValue (s : State) (u : Aop) (d : Opc) (l : Nat) : DWord :=
  if u = .cas then (s.src s.iss.gk l (d + 1)).setWidth 64 else 0

/-- Order and scope of an ordered atomic. -/
def scopeNamed (p : Scp) : Scope := match p with | .team => .team | .gang => .gang | .dev => .dev | .sys => .sys
def acquires (o : Ord) : Bool := match o with | .acq | .ar => true | _ => false
def releases (o : Ord) : Bool := match o with | .rel | .ar => true | _ => false

/-- An atomic that returns the old value. -/
def returning (s : State) (d a : Opc) (k : BitVec 3) (u : Aop) (acq rel sync : Option Scope) : Access :=
  { cap := k.toNat, z := atomBytes u, acc := .atomic, allow := atomTypes, need := 9, idx := a
    kind := fun m => .atomic u (operand s u d m) (newValue s u d m) true, val := fun m => (operand s u d m).setWidth 128
    dst := landsIn d (if u = .addB64 ∨ u = .cas then 2 else 1) 32 false, acq := acq, rel := rel, sync := sync }

end Sys2Proof.Claims

/-- R146, R148, R149: the atomics. ATOM asks for A and returns nothing; ATOMR, CAS and ATOMRST ask for A and R and
land the old value in D; ATOM and the ordered ATOMR carry their order and scope.
Completes (exec answers a next state, under conditions on the state and the operands alone): atom, atomr, cas,
atomrst, atomrOrdered. -/
def Obligations.Atomics : Prop :=
  ∀ (s : State) (c : Bool) (d a : Opc) (k : BitVec 3) (l : BitVec 4) (o : Ord) (p : Scp) (u : Aop),
    let acq := if acquires o then some (scopeNamed p) else none
    let rel := if releases o then some (scopeNamed p) else none
    Posts s (.atom c d a k o p u) false
      { cap := k.toNat, z := atomBytes u, acc := .atomic, allow := atomTypes, need := 8, idx := a
        kind := fun m => .atomic u (operand s u d m) 0 false, val := fun m => (operand s u d m).setWidth 128, dst := .none
        acq := acq, rel := rel, sync := some (scopeNamed p) } ∧
    (isV d = true ∨ isS d = true →
      Posts s (.atomr c d a k l u) (isS d) (returning s d a k u none none none) ∧
      Posts s (.cas c d a k l) (isS d) (returning s d a k .cas none none none) ∧
      Posts s (.atomrst c d a k l) (isS d) (returning s d a k .rst none none none) ∧
      Posts s (.atomrOrdered c d a k o p u) (isS d) (returning s d a k u acq rel (some (scopeNamed p))))

/-- R108, R109: LDCAP makes one 16-byte access and STCAP one of each executing lane, through a MEM capability with L or
S, to an object of capabilities; STCAP stores a capability that it may use. -/
def Sys2Proof.Claims.CapabilityLoadsAndStores : Prop :=
  ∀ (s : State) (c : Bool) (d a : Opc) (k : BitVec 3) (l : BitVec 4),
    Posts s (.ldcap c d a k l) true
      { cap := k.toNat, z := 16, acc := .read, allow := [1], need := 16, caps := true, idx := a, kind := fun _ => .load
        val := fun _ => 0, dst := .c d.toNat } ∧
    (Usable (s.heldCap s.iss.gk s.low d.toNat) → Posts s (.stcap c d a k l) false
      { cap := k.toNat, z := 16, acc := .write, allow := [1], need := 32, caps := true, idx := a, kind := fun _ => .store
        val := fun _ => s.heldCap s.iss.gk s.low d.toNat, dst := .none })

namespace Sys2Proof.Claims

/-- The fault of the five steps of R139, in their order. -/
def refused (s : State) (c : Cap) (allow : List Nat) (need : BitVec 8) (off z : Nat) : Option Nat :=
  if capOk c = false then some 0x0201
  else if Cap.type c = 0 then some 0x0203
  else if Cap.type c ∉ allow ∨ (Cap.type c = 6 ∧ s.ctxPriv (s.kern s.iss.gk).ctx = false) then some 0x0202
  else if Cap.rights c &&& need ≠ need then some 0x0204
  else if ¬ (off + z ≤ Cap.len c ∧ Cap.base c + off + z ≤ 2 ^ 40) then some 0x0205
  else if (Cap.base c + off) % z ≠ 0 then some 0x0207
  else none

end Sys2Proof.Claims

/-- R139: the first of the five steps that fails decides the fault, which each executing lane raises on the word. -/
def Sys2Proof.Claims.AccessFaults : Prop :=
  ∀ (s : State) (c : Bool) (d a : Opc) (k : BitVec 3) (l : BitVec 4) (h : Hint) (w : StW),
    Issues s (.st c d a k l h w) → (∀ m ∈ s.iss.lanes, s.acqPending (lkOf s.iss.gk m) = false) →
    let off (m : Nat) : Nat := (s.src s.iss.gk m a).toNat * bytesOf w
    ∀ m e, s.iss.lanes = [m] →
      let x := s.heldCap s.iss.gk m k.toNat
      refused s x anyType 2 (off m) (bytesOf w) = some e →
      Faults s (.st c d a k l h w) { code := e, off := off m, obj := Cap.obj x, ctype := Cap.type x }

/-- R327, R139, R141: where the bytes of a capability stand for an agent of a team. Scratch and accumulator windows lie
in the team's own allocation; a gang window names the scratch of the member that its offset gives, or faults. -/
def Sys2Proof.Claims.WhereBytesStand : Prop :=
  ∀ (s : State) (tk core : Nat) (c : Cap) (off z : Nat) (acc : AccKind),
    let T := s.team tk
    let a := Cap.base c + off
    let fault (code : Nat) : FaultInfo := { code := code, off := off, obj := Cap.obj c, ctype := Cap.type c }
    (Cap.type c = 2 → s.resolve tk core c off z acc false false =
      (if a + z ≤ T.kern.scratch then .ok (.scr tk a) else .fault (fault 0x0205), s)) ∧
    (Cap.type c = 4 → s.resolve tk core c off z acc false false = (.ok (.reg tk a), s)) ∧
    (Cap.type c = 5 → s.resolve tk core c off z acc false false =
      (if a + z ≤ T.kern.accb * 65536 then .ok (.acc tk (T.cores.idxOf core) a) else .fault (fault 0x0205), s)) ∧
    (Cap.type c = 3 → 0 < z → (T.kern.gang ≤ a / 2 ^ 24 ∨ T.kern.scrBytes < a % 2 ^ 24 + z) →
      s.resolve tk core c off z acc false false = (.fault (fault 0x0205), s)) ∧
    (∀ x, Cap.type c = 3 → a / 2 ^ 24 < T.kern.gang → a % 2 ^ 24 + z ≤ T.kern.scrBytes →
      s.member tk (a / 2 ^ 24) = some x →
      s.resolve tk core c off z acc false false = (match (s.team x).gst with
        | .resident | .leaving => .ok (.scr x (a % 2 ^ 24))
        | .left => .fault { fault 0x0701 with detail := 256 + (s.team x).idx % (s.team x).kern.gang }
        | .killed => .fault { fault 0x0701 with detail := 512 + (s.team x).idx % (s.team x).kern.gang }, s))

namespace Sys2Proof.Claims

/-- The event of a fence of a lane. -/
def fenceOf (s : State) (l : Nat) (kind : EvKind) (sc : Scope) : MemEv :=
  { agent := lkOf s.iss.gk l, gk := s.iss.gk, lane := l, kind := kind, loc := .scr (s.group s.iss.gk).tk 0, size := 0, val := 0
    dst := .none, acq := none, rel := some sc, sync := none, nol1 := false, pkt := s.iss.pkt, slot := s.iss.slot
    cap := 0, off := 0, issue := s.next }

/-- A fence of each executing lane stands in its list of events, the lanes have gone on, and nothing else has changed. -/
structure Fenced (s t : State) (kind : EvKind) (sc : Scope) : Prop where
  frame : t = { s with g := { s.g with lanes := t.g.lanes }, o := { s.o with pend := t.o.pend }
                       next := s.next + s.iss.lanes.length }
  posted : ∀ j l, s.iss.lanes[j]? = some l → tget none t.o.pend (s.next + j) = some (fenceOf s l kind sc)
  older : ∀ k, (k < s.next ∨ s.next + s.iss.lanes.length ≤ k) → tget none t.o.pend k = tget none s.o.pend k
  lanes : AllAdvance s t

end Sys2Proof.Claims

/-- R151, R153: FENCE at each scope, and OTFENCE, post one fence for each executing lane. -/
def Sys2Proof.Claims.Fences : Prop :=
  ∀ (s : State) (c : Bool),
    (∀ sc, Issues s (.fence c sc) → Goes s (.fence c sc) (fun t => Fenced s t .fence sc)) ∧
    (∀ sys : Bool, Issues s (.otfence c sys) → Goes s (.otfence c sys) (fun t =>
      Fenced s t (.otfence sys) (if sys then .sys else .dev)))

namespace Sys2Proof.Claims

/-- The lanes of a word open their windows, which await nothing, and go on; nothing else changes but the vector taken. -/
structure OnlyWindows (s t : State) (i : Instr) : Prop where
  frame : t = { s with g := { s.g with lanes := t.g.lanes, groups := t.g.groups } }
  lanes : LanesBecome s t (fun _ x => (Lane.openWindow s.here i 0 x).advance)
  group : GroupBecomes s t (Popped s i)

/-- A cache word's sectors: the range widened outward to whole 64-byte sectors. -/
def sectorStart (a : Nat) : Nat := a / 64 * 64
def sectorBytes (a n : Nat) : Nat := (a + n + 63) / 64 * 64 - a / 64 * 64

end Sys2Proof.Claims

/-- R152: PREF changes no value. CWB and CINV with a length of 0 do nothing; on a range of one lane that lies in one
page of device memory they post one event for its widened sectors; a range past LENGTH raises CAP_BOUNDS. -/
def Sys2Proof.Claims.CacheWords : Prop :=
  ∀ (s : State) (c : Bool) (v a : Opc) (k : BitVec 3) (l : BitVec 4),
    let x (m : Nat) : Cap := s.heldCap s.iss.gk m k.toNat
    let start (m : Nat) : Nat := Cap.base (x m) + (s.src s.iss.gk m a).toNat
    let len (m : Nat) : Nat := (s.src s.iss.gk m v).toNat
    let mayRead (m : Nat) := capOk (x m) = true ∧ Cap.type (x m) ≠ 0 ∧ Cap.type (x m) ≤ 8 ∧ (Cap.type (x m) = 6 →
      s.ctxPriv (s.kern s.iss.gk).ctx = true) ∧ Cap.rights (x m) &&& 1 = 1
    let within (m : Nat) := (s.src s.iss.gk m a).toNat + len m ≤ Cap.len (x m) ∧ start m + len m ≤ 2 ^ 40
    let clear := ∀ m ∈ s.iss.lanes, s.acqPending (lkOf s.iss.gk m) = false ∧ mayRead m
    (Issues s (.pref c v a k l) → Goes s (.pref c v a k l) (fun t => OnlyWindows s t (.pref c v a k l))) ∧
    (∀ p ∈ [(Instr.cwb c v a k l, false), (.cinv c v a k l, true)], Issues s p.1 → clear →
      ((∀ m ∈ s.iss.lanes, len m = 0) → Goes s p.1 (fun t => OnlyWindows s t p.1)) ∧
      ((∀ m ∈ s.iss.lanes, Cap.type (x m) ∉ [1, 7, 8] ∧ within m) → Goes s p.1 (fun t => OnlyWindows s t p.1)) ∧
      (∀ m b pol nc, s.iss.lanes = [m] → Cap.type (x m) = 1 → 0 < len m → within m →
        start m / 65536 = (start m + len m - 1) / 65536 →
        s.resolve (s.group s.iss.gk).tk (s.group s.iss.gk).core (x m) (start m - Cap.base (x m)) (len m) .read false false =
          (.ok (.dev b pol nc), s) →
        Goes s p.1 (fun t =>
          t = { s with g := { s.g with lanes := t.g.lanes, groups := t.g.groups }, o := { s.o with pend := t.o.pend }
                       next := s.next + 1 } ∧
          LanesBecome s t (fun _ y => (Lane.openWindow s.here p.1 0 y).advance) ∧ GroupBecomes s t (Popped s p.1) ∧
          (∃ e, tget none t.o.pend s.next = some e ∧ e.agent = lkOf s.iss.gk m ∧
            e.kind = .clean (sectorBytes b (len m)) p.2 ∧ e.loc = .dev (sectorStart b) pol nc) ∧
          ∀ k, k ≠ s.next → tget none t.o.pend k = tget none s.o.pend k)) ∧
      (∀ m, s.iss.lanes = [m] → 0 < len m → ¬ within m → Faults s p.1
        { code := 0x0205, off := (s.src s.iss.gk m a).toNat, obj := Cap.obj (x m), ctype := Cap.type (x m) }))

/-- R154, R155: STMC and STRED with one destination post one event for each executing lane: a 32-bit store that asks
for W and M, or a reduction that asks for A and M. Through a gang window the word reaches the same offset in the
scratch of every present member. -/
def Sys2Proof.Claims.MulticastWords : Prop :=
  ∀ (s : State) (c : Bool) (v a : Opc) (k : BitVec 3) (l : BitVec 4),
    let post (kind : EvKind) (acc : AccKind) (allow : List Nat) (need : BitVec 8) : Access :=
      { cap := k.toNat, z := 4, acc := acc, allow := allow, need := need, idx := a, kind := fun _ => kind
        val := fun m => (s.src s.iss.gk m v).setWidth 128, dst := .none }
    ∀ p ∈ [(Instr.stmc c v a k l, post .store .write atomTypes 66), (.stredAddF32 c v a k l, post (.red 0) .atomic [1, 2, 3, 7] 72),
        (.stredAddB32 c v a k l, post (.red 1) .atomic [1, 2, 3, 7] 72), (.stredMaxF32 c v a k l, post (.red 2) .atomic [1, 2, 3, 7] 72)],
      (∀ loc, (∀ m ∈ s.iss.lanes, Cap.type (s.heldCap s.iss.gk m k.toNat) ≠ 3 ∧ ∀ d x, loc m ≠ .peer d x) →
        MayAccess s p.1 p.2 false loc → Goes s p.1 (fun t => Posted s t p.1 p.2 false loc)) ∧
      (∀ m, s.iss.lanes = [m] → Issues s p.1 → s.acqPending (lkOf s.iss.gk m) = false → (s.kern s.iss.gk).det = false →
        let x := s.heldCap s.iss.gk m k.toNat
        let o := (Cap.base x + p.2.off s m) % 2 ^ 24
        Cap.type x = 3 → Permitted s x p.2.allow p.2.need (p.2.off s m) 4 → o + 4 ≤ (s.kern s.iss.gk).scrBytes →
        let members := s.presentMembers (s.group s.iss.gk).tk
        Goes s p.1 (fun t =>
          t = { s with g := { s.g with lanes := t.g.lanes, groups := t.g.groups }, o := { s.o with pend := t.o.pend }
                       next := s.next + members.length } ∧
          LanesBecome s t (fun _ y => (Lane.openWindow s.here p.1 0 y).advance) ∧
          (∀ j w, members[j]? = some w → tget none t.o.pend (s.next + j) = 
            some { p.2.event s false m (.scr w o) with mc := true }) ∧
          ∀ q, (q < s.next ∨ s.next + members.length ≤ q) → tget none t.o.pend q = tget none s.o.pend q))

namespace Sys2Proof.Claims

/-- The capability of a lane's stack as its word issued with it, the lane's slice of it (R118), and the offset of a 32-bit access
of the slice. -/
def stackCap (s : State) (l : Nat) : Cap := s.heldCap s.iss.gk l 3
def stackBytes (s : State) (l : Nat) : Nat := Cap.len (stackCap s l) / (s.group s.iss.gk).width / 16 * 16
def stackOff (s : State) (l fill : Nat) : Nat := l * stackBytes s l + fill

/-- Bytes of a lane's stack slice may be accessed and stand at a location. -/
def StackAt (s : State) (l fill : Nat) (acc : AccKind) (need : BitVec 8) (loc : Loc) : Prop :=
  Permitted s (stackCap s l) anyType need (stackOff s l fill) 4 ∧
  s.resolve (s.group s.iss.gk).tk (s.group s.iss.gk).core (stackCap s l) (stackOff s l fill) 4 acc false false = (.ok loc, s)

/-- A relaxed access of a lane's stack. -/
def stackEvent (s : State) (l fill : Nat) (kind : EvKind) (val : BitVec 128) (dst : Dst) (loc : Loc) : MemEv :=
  { agent := lkOf s.iss.gk l, gk := s.iss.gk, lane := l, kind := kind, loc := loc, size := 4, val := val, dst := dst
    acq := none, rel := none, sync := none, nol1 := false, pkt := s.iss.pkt, slot := s.iss.slot, cap := stackCap s l
    off := stackOff s l fill, issue := s.next }

/-- The fill of a lane's stack. -/
def fill (s : State) (l : Nat) : Nat := (s.lane (lkOf s.iss.gk l)).lanesp.toNat

/-- The lanes of a word, none behind an acquire of its own and the launch not deterministic. -/
def Plain (s : State) (i : Instr) : Prop :=
  Issues s i ∧ (∀ l ∈ s.iss.lanes, s.acqPending (lkOf s.iss.gk l) = false) ∧ (s.kern s.iss.gk).det = false

/-- One stack access of each lane stands in its list of events. -/
structure StackPosted (s t : State) (i : Instr) (kind : EvKind) (val : BitVec 128) (dst : Dst) (at_ : Nat → Nat)
    (loc : Nat → Loc) : Prop where
  frame : t = { s with g := { s.g with lanes := t.g.lanes, groups := t.g.groups }, o := { s.o with pend := t.o.pend }
                       next := s.next + s.iss.lanes.length }
  group : GroupBecomes s t (Popped s i)
  posted : ∀ j l, s.iss.lanes[j]? = some l →
    tget none t.o.pend (s.next + j) = some (stackEvent s l (at_ l) kind val dst (loc l))
  older : ∀ k, (k < s.next ∨ s.next + s.iss.lanes.length ≤ k) → tget none t.o.pend k = tget none s.o.pend k

end Sys2Proof.Claims

/-- R117, R118: CALL and CALLX push the packet after the call's and go to slot 0 of their target; with no room in the
lane's stack they raise STACK_FAULT. RET loads the packet below the fill and the lane waits for it; with a fill below
4 it raises STACK_FAULT.
Completes (exec answers a next state, under conditions on the state and the operands alone): call, callx, ret. -/
def Obligations.CallsAndReturns : Prop :=
  ∀ (s : State) (c : Bool) (a : Opc) (x : BitVec 15) (loc : Nat → Loc),
    (∀ p ∈ [(Instr.call c x, fun _ : Nat => displaced s x), (.callx c a, fun l => (s.src s.iss.gk l a).toNat % 2 ^ 30)],
      Plain s p.1 →
      ((∀ l ∈ s.iss.lanes, fill s l + 4 ≤ stackBytes s l ∧ StackAt s l (fill s l) .write 2 (loc l)) →
        Goes s p.1 (fun t => StackPosted s t p.1 .store (BitVec.ofNat 128 (s.iss.pkt + 1)) .none (fill s) loc ∧
          LanesBecome s t (fun l y => { toPacket (p.2 l) y with lanesp := y.lanesp + 4, resume := y.advance.resume }))) ∧
      ((∀ l ∈ s.iss.lanes, stackBytes s l < fill s l + 4) →
        Faults s p.1 { code := fcSTACK_FAULT, detail := 0 })) ∧
    (Plain s (.ret c) →
      ((∀ l ∈ s.iss.lanes, 4 ≤ fill s l ∧ StackAt s l (fill s l - 4) .read 1 (loc l)) →
        Goes s (.ret c) (fun t => StackPosted s t (.ret c) .load 0 .ret (fun l => fill s l - 4) loc ∧
          LanesBecome s t (fun _ => Waits .ret))) ∧
      ((∀ l ∈ s.iss.lanes, fill s l < 4) → Faults s (.ret c) { code := fcSTACK_FAULT, detail := 1 }))

namespace Sys2Proof.Claims

/-! ### The ordering machine -/

/-- The bytes that a write leaves: its own at its place, and every other byte as before. -/
def BytesWritten (before after : Nat → Nat) (a size v : Nat) : Prop :=
  ∀ x, after x = if a ≤ x ∧ x < a + size then v / 2 ^ (8 * (x - a)) % 256 else before x

/-- One byte of device memory; of a team's scratch; of a host address. -/
def devByte (s : State) (x : Nat) : Nat := s.devRead x 1
def scrByte (s : State) (tk x : Nat) : Nat := s.scrRead tk x 1
def hostByte (s : State) (x : Nat) : Nat := readLE s.o.hostMem x 1

/-- The registers of every lane and group are as before. -/
def SameRegs (s t : State) : Prop := t.g.vreg = s.g.vreg ∧ t.g.sreg = s.g.sreg ∧ t.g.creg = s.g.creg ∧ t.g.jmask = s.g.jmask

/-- No lane that an event serves is parked or asked to halt, and its lane awaits the answers of no multicast: what lands for it
ends nothing else (R49, R155, R364). -/
def Undisturbed (s : State) (e : MemEv) : Prop :=
  (∀ l ∈ e.lane :: e.also, (∀ n, (s.lane (lkOf e.gk l)).st ≠ .parked n) ∧ (s.lane (lkOf e.gk l)).haltReq = false) ∧
  ∀ issue mask c off, (s.lane e.agent).st ≠ .waiting (.answers issue mask c off)

/-- An event that has been translated stands at its location and has its turn (R260, R269), and nothing waits for it. -/
def Performs (s : State) (k : Nat) (e : MemEv) : Prop :=
  tget none s.o.pend k = some e ∧ s.mayGo k e = true ∧ e.tr = none ∧ Undisturbed s e

/-- An access through a gang window reaches a slice that is present (R253). -/
def SlicePresent (s : State) (e : MemEv) (tk : Nat) : Prop :=
  Cap.type e.cap = 3 → (s.team tk).gst = .resident ∨ (s.team tk).gst = .leaving

/-- No L1 holds a byte of an access dirty that its mapping would miss (R313, case 2). -/
def NoDirtyCopy (s : State) (a size : Nat) (pol : Pol) : Prop :=
  pol = .wb ∨ ∀ p ∈ s.l1Copies a, p.2.dirty &&& byteMask a size = 0

/-- One pending event has left the lists of its agents and no other event has changed. -/
def Left (s t : State) (k : Nat) : Prop :=
  tget none t.o.pend k = none ∧ ∀ j, j ≠ k → tget none t.o.pend j = tget none s.o.pend j

end Sys2Proof.Claims

/-- R259 step 1, R260: a relaxed store that may go enters its core's buffer where its location is device memory, a peer
or the host, as the newest store, and joins its agent's history; no byte of memory changes yet. Elsewhere its bytes are
written at once. -/
def Sys2Proof.Claims.StoresArePerformed : Prop :=
  ∀ (s : State) (k : Nat) (e : MemEv), Performs s k e → e.kind = .store → e.rel = none →
    (e.loc.buffered = true → Goes s (.storePerform k) (fun t =>
      Left s t k ∧ SameRegs s t ∧ t.o.mem = s.o.mem ∧ t.o.hostMem = s.o.hostMem ∧ t.t = s.t ∧ t.next = s.next + 1 ∧
      (∃ b, tget none t.o.cbuf s.next = some b ∧ b.id = s.next ∧ b.loc = e.loc ∧ b.size = e.size ∧ b.val = e.val.setWidth 512 ∧
        b.agent = e.agent ∧ b.core = s.agentCore e.agent) ∧
      (∀ j, j ≠ s.next → tget none t.o.cbuf j = tget none s.o.cbuf j) ∧ s.next ∈ t.hist e.agent)) ∧
    (∀ tk o, e.loc = .scr tk o → SlicePresent s e tk → o + e.size ≤ 2 ^ 40 → Goes s (.storePerform k) (fun t =>
      Left s t k ∧ SameRegs s t ∧ t.o.mem = s.o.mem ∧ t.o.cbuf = s.o.cbuf ∧
      (∀ tk' x, x < 2 ^ 40 → scrByte t tk' x = if tk' = tk ∧ o ≤ x ∧ x < o + e.size then e.val.toNat / 2 ^ (8 * (x - o)) % 256
        else scrByte s tk' x)))

/-- R259 steps 2 and 5: an entry of a core buffer that may drain is appended to device memory, where the old value stays
as the version before it, or enters the system buffer, which delivers a host store to host memory. -/
def Sys2Proof.Claims.StoresReachMemory : Prop :=
  ∀ (s : State) (k : Nat) (b : BufStore),
    (∀ issue mask c off, (s.lane b.agent).st ≠ .waiting (.answers issue mask c off)) →
    (∀ a pol, tget none s.o.cbuf k = some b → s.mayDrain k b = true → b.loc = .dev a pol false →
      Goes s (.coreBufferDrain k) (fun t =>
        BytesWritten (devByte s) (devByte t) a b.size b.val.toNat ∧ t.newest a = s.newest a + 1 ∧
        tget none t.o.cbuf k = none ∧ (∀ j, j ≠ k → tget none t.o.cbuf j = tget none s.o.cbuf j) ∧
        t.o.sbuf = s.o.sbuf ∧ t.o.pend = s.o.pend ∧ t.g = s.g ∧ t.t = s.t ∧ t.o.hostMem = s.o.hostMem)) ∧
    (tget none s.o.cbuf k = some b → s.mayDrain k b = true → b.loc.leaves = true →
      Goes s (.coreBufferDrain k) (fun t =>
        tget none t.o.cbuf k = none ∧ tget none t.o.sbuf k = some b ∧
        (∀ j, j ≠ k → tget none t.o.cbuf j = tget none s.o.cbuf j ∧ tget none t.o.sbuf j = tget none s.o.sbuf j) ∧
        t = { s with o := { s.o with cbuf := t.o.cbuf, sbuf := t.o.sbuf } })) ∧
    (∀ a, tget none s.o.sbuf k = some b → s.mayDeliver b = true → b.loc = .host a →
      Goes s (.systemBufferDeliver k) (fun t =>
        BytesWritten (hostByte s) (hostByte t) a b.size b.val.toNat ∧ tget none t.o.sbuf k = none ∧
        (∀ j, j ≠ k → tget none t.o.sbuf j = tget none s.o.sbuf j) ∧
        t = { s with o := { s.o with sbuf := t.o.sbuf, hostMem := t.o.hostMem, rels := t.o.rels } }))

namespace Sys2Proof.Claims

/-- The registers that a landed value puts in a destination: each lane's own, extended, or the group's (R21, R146). -/
def Landed (s t : State) (e : MemEv) (v : Nat) : Prop :=
  let words (regs bits : Nat) (signed : Bool) : List Word :=
    if regs = 1 then [if signed then (BitVec.ofNat bits v).signExtend 32 else BitVec.ofNat 32 (v % 2 ^ bits)]
    else [BitVec.ofNat 32 v, BitVec.ofNat 32 (v / 2 ^ 32)]
  match e.dst with
  | .v n regs bits signed => SameRegs s { t with g := { t.g with vreg := s.g.vreg } } ∧ ∀ k r, r < 128 →
      tget 0 t.g.vreg (vKey k r) = if k = lkOf e.gk e.lane ∧ n ≤ r ∧ r < n + (words regs bits signed).length
        then (words regs bits signed).getD (r - n) 0 else tget 0 s.g.vreg (vKey k r)
  | .s n regs bits signed => SameRegs s { t with g := { t.g with sreg := s.g.sreg } } ∧ ∀ k r, r < 16 →
      t.sreg k r = if k = e.gk ∧ n ≤ r ∧ r < n + (words regs bits signed).length
        then (words regs bits signed).getD (r - n) 0 else s.sreg k r
  | .c n => SameRegs s { t with g := { t.g with creg := s.g.creg } } ∧ ∀ k r, r < 8 →
      t.creg k r = if k = e.gk ∧ r = n then BitVec.ofNat 128 v else s.creg k r
  | .none => SameRegs s t
  | .ret => SameRegs s t

/-- A destination whose registers exist. -/
def DstFits : Dst → Prop
  | .v n regs _ _ => n + (if regs = 1 then 1 else 2) ≤ 128
  | .s n regs _ _ => n + (if regs = 1 then 1 else 2) ≤ 16
  | .c n => n < 8
  | _ => True

/-- No byte of a device access is poisoned (R353). -/
def Clean (s : State) (a size : Nat) : Prop := s.poisoned a size = false

end Sys2Proof.Claims

/-- R259 step 3, R21, R146: a relaxed load that may go returns the newest entry of its own core's buffer for its
location, else for device memory (here read without going back) the newest store, else the bytes of scratch; the value
lands, extended, in its destination and in no other register. -/
def Sys2Proof.Claims.LoadsArePerformed : Prop :=
  ∀ (s : State) (k : Nat) (e : MemEv), Performs s k e → e.kind = .load → e.acq = none → DstFits e.dst →
    let loads (v : Nat) := ∀ n, e.dst = .c n → Usable (BitVec.ofNat 128 v)
    (∀ a pol, e.loc = .dev a pol false → Clean s a e.size → NoDirtyCopy s a e.size pol → loads (s.devRead a e.size) →
      (∀ b ∈ s.coreBuf (s.agentCore e.agent), s.common b.loc b.size e.loc e.size = false) →
      Goes s (.loadPerform k 0) (fun t => Left s t k ∧ Landed s t e (s.devRead a e.size) ∧ t.o.mem = s.o.mem ∧ t.t = s.t)) ∧
    (∀ a pol b rest, e.loc = .dev a pol false → Clean s a e.size →
      s.coreBuf (s.agentCore e.agent) = rest ++ [b] → b.loc = e.loc → b.size = e.size → b.val.toNat < 2 ^ (8 * e.size) →
      loads b.val.toNat →
      ∀ pick, Goes s (.loadPerform k pick) (fun t => Left s t k ∧ Landed s t e b.val.toNat ∧ t.o.mem = s.o.mem ∧ t.t = s.t)) ∧
    (∀ tk o pick, e.loc = .scr tk o → SlicePresent s e tk → loads (s.scrRead tk o e.size) →
      (∀ b ∈ s.coreBuf (s.agentCore e.agent), s.common b.loc b.size e.loc e.size = false) →
      Goes s (.loadPerform k pick) (fun t => Left s t k ∧ Landed s t e (s.scrRead tk o e.size) ∧ t.o.mem = s.o.mem ∧ t.t = s.t))

namespace Sys2Proof.Claims

/-- The new value of a location (Table 7.5), and whether it is written. -/
def newBytes (op : Aop) (old v v2 : Nat) : Nat × Bool :=
  let sg (x : Nat) : Int := (BitVec.ofNat 32 x).toInt
  match op with
  | .addB32 => ((old + v) % 2 ^ 32, true)
  | .addF32 => (canon (fAdd 1 f32 .rne old v), true)
  | .addB64 => ((old + v) % 2 ^ 64, true)
  | .minI32 => (if sg old ≤ sg v then old else v, true)
  | .minN32 => (min old v, true)
  | .maxI32 => (if sg v ≤ sg old then old else v, true)
  | .maxN32 => (max old v, true)
  | .andB32 => (old &&& v, true)
  | .orB32 => (old ||| v, true)
  | .xorB32 => (old ^^^ v, true)
  | .exch => (v, true)
  | .cas => if old = v then (v2, true) else (old, false)
  | .rst => (v, true)

end Sys2Proof.Claims

/-- R148, R259 step 4, Table 7.5: a relaxed atomic on device memory that may go reads the newest store, writes the new
value in the same step, and lands the old value; CAS lands 1 or 0 after it. -/
def Sys2Proof.Claims.AtomicsArePerformed : Prop :=
  ∀ (s : State) (k : Nat) (e : MemEv) (op : Aop) (v v2 : DWord) (ret : Bool) (a : Nat) (pol : Pol),
    Performs s k e → e.kind = .atomic op v v2 ret → e.acq = none → e.rel = none → e.sync = none →
    NoDirtyCopy s a e.size pol → e.loc = .dev a pol false → e.size = (if op = .addB64 then 8 else 4) → v.toNat < 2 ^ (8 * e.size) →
    v2.toNat < 2 ^ 32 → Clean s a e.size → DstFits e.dst → (∀ n, e.dst ≠ .c n) → e.dst ≠ .ret →
    (∀ b ∈ s.coreBuf (s.agentCore e.agent), s.common b.loc b.size e.loc e.size = false) →
    let old := s.devRead a e.size
    let n := newBytes op old v.toNat v2.toNat
    Goes s (.atomicPerform k) (fun t => Left s t k ∧
      Landed s t e (if op = .cas then old + (if n.2 then 1 else 0) * 2 ^ 32 else old) ∧
      (if n.2 then BytesWritten (devByte s) (devByte t) a e.size n.1 else t.o.mem = s.o.mem) ∧ t.t = s.t ∧
      t.o.cbuf = s.o.cbuf ∧ t.o.hostMem = s.o.hostMem)

/-- R259, R260: a step whose condition does not hold is no step: nothing changes. -/
def Sys2Proof.Claims.BlockedStepsChangeNothing : Prop :=
  ∀ (s : State) (k pick : Nat),
    ((∀ e, tget none s.o.pend k = some e → s.mayGo k e = false ∧ Undisturbed s e) →
      exec (.storePerform k) s = .next s ∧ exec (.loadPerform k pick) s = .next s ∧ exec (.atomicPerform k) s = .next s) ∧
    ((∀ b, tget none s.o.cbuf k = some b → s.mayDrain k b = false) → exec (.coreBufferDrain k) s = .next s) ∧
    ((∀ b, tget none s.o.sbuf k = some b → s.mayDeliver b = false) → exec (.systemBufferDeliver k) s = .next s)

/-- R263, R265: a release goes only when every store in its agent's history is visible at its scope: while one is not,
a store-release, an atomic with release, and a fence stay pending. -/
def Sys2Proof.Claims.ReleasesWaitForHistory : Prop :=
  ∀ (s : State) (k : Nat) (e : MemEv) (sc : Scope) (id : Nat), tget none s.o.pend k = some e → e.rel = some sc →
    Undisturbed s e → id ∈ s.hist e.agent → s.visible sc e.agent id = false → exec (.atomicPerform k) s = .next s ∧
    (e.kind = .store → exec (.storePerform k) s = .next s)

/-- R259 steps 7 and 8, R304: a core's view of a granule rises to a later store, no further than the newest, and never falls; an
extent-cache entry is dropped; one is filled by a walk that translates, in the core's extent cache and its die's; nothing else changes. -/
def Sys2Proof.Claims.ViewsAndExtentCaches : Prop :=
  ∀ (s : State),
    (∀ core g stamp, Goes s (.viewRaise core g stamp) (fun t =>
      t = { s with o := { s.o with views := t.o.views } } ∧
      ∀ x, let old := tget 0 s.o.views (viewKey core x)
        tget 0 t.o.views (viewKey core x) = if x / 16 = g then max (min stamp (tget [] s.o.old g).length) old else old)) ∧
    (∀ n e, s.x.cache[n]? = some e → Goes s (.extentCacheDrop n) (fun t =>
      t = { s with x := { s.x with cache := t.x.cache } } ∧ e ∉ t.x.cache ∧ ∀ f, f ≠ e → (f ∈ t.x.cache ↔ f ∈ s.x.cache))) ∧
    (∀ n, s.x.cache[n]? = none → exec (.extentCacheDrop n) s = .next s) ∧
    (∀ core ctx obj page kind e, core < 128 → s.ctxEn ctx = true → s.walk core ctx obj (page * 65536) kind = .ok e →
      e.otype ≠ 3 → Goes s (.extentCacheFill core ctx obj page kind) (fun t =>
        t = { s with x := { s.x with cache := t.x.cache } } ∧ { e with place := core } ∈ t.x.cache ∧
        { e with place := 128 + core / 32 } ∈ t.x.cache))

/-- R258: device memory stays in its canonical form through every step of the ordering machine. -/
def Obligations.OrderingKeepsMemoryCanonical : Prop :=
  ∀ (s t : State), MemoryWf s → ∀ i, (∃ k, i = .storePerform k ∨ i = .coreBufferDrain k ∨ i = .atomicPerform k ∨
      i = .systemBufferDeliver k ∨ ∃ p, i = .loadPerform k p) → exec i s = .next t → MemoryWf t

namespace Sys2Proof.Claims

/-! ### Engine words, tags and barriers -/

/-- A capability passes steps 1 to 3 of R139, and step 4 for a whole extent (R157). -/
def Covers (s : State) (c : Cap) (allow : List Nat) (need : BitVec 8) (off n : Nat) : Prop :=
  capOk c = true ∧ Cap.type c ≠ 0 ∧ Cap.type c ∈ allow ∧ (Cap.type c = 6 → s.ctxPriv (s.kern s.iss.gk).ctx = true) ∧
  Cap.rights c &&& need = need ∧ off + n ≤ Cap.len c ∧ Cap.base c + off + n ≤ 2 ^ 40

/-- Bytes of a GWIN capability lie in one member's reachable extent (R141, R248). -/
def InMember (s : State) (c : Cap) (off n : Nat) : Prop :=
  let k := s.kern s.iss.gk
  Cap.type c = 3 → n = 0 ∨ ((Cap.base c + off) / 2 ^ 24 < k.gang ∧ (Cap.base c + off) % 2 ^ 24 + n ≤ k.scrBytes)
/-- So do rows of a copy, each in one member's. -/
def RowsInMembers (s : State) (c : Cap) (off rows bytes stride : Nat) : Prop :=
  ∀ r, r < rows → InMember s c (off + r * stride) bytes

/-- A tag that an operation may take: of the budget, and not Held (R156). -/
def TagFree (s : State) (t : Nat) : Prop := t < (s.kern s.iss.gk).tagb ∧ s.tagOf s.iss.gk t ≠ .held

/-- S(A + i) and S64(A + i) of a scalar block. -/
def sW (s : State) (a : Opc) (i : Nat) : Nat := (s.sreg s.iss.gk (a.toNat - 96 + i)).toNat
def sD (s : State) (a : Opc) (i : Nat) : Nat := sW s a i + sW s a (i + 1) * 2 ^ 32

/-- The key of a tag of the issuing group's core. -/
def tagAt (s : State) (t : Nat) : Nat := tagKey (s.group s.iss.gk).tk (s.coreIdx s.iss.gk) t

/-- A thread as its word forks it: its issuer, tag, block and capabilities, and no progress. -/
def newThread (s : State) (kind : ThreadKind) (t : Nat) (block : List Word) (cd cs : Cap) (ls : List (Nat × Nat × Word)) : Thread :=
  { kind := kind, tk := (s.group s.iss.gk).tk, gk := s.iss.gk, lane := s.low, core := (s.group s.iss.gk).core, tag := t
    block := block, capd := cd, caps := cs, lanes := ls, got := [], put := [], status := 0, waits := false, pair := {} }

/-- The scalar block of n registers. -/
def blockOf (s : State) (a : Opc) (n : Nat) : List Word := (List.range n).map (fun i => s.sreg s.iss.gk (a.toNat - 96 + i))

/-- An engine word has forked its thread: the thread stands under a new key, its tag is Held and keeps no report, the
lanes have gone on, and nothing else has changed but histories (R157, R268). -/
structure Forked (s t : State) (x : Thread) : Prop where
  frame : t = { s with g := { s.g with lanes := t.g.lanes, groups := t.g.groups }
                       e := { s.e with threads := t.e.threads }
                       t := { s.t with tags := t.t.tags, pairDone := t.t.pairDone }
                       o := { s.o with hist := t.o.hist }, next := s.next + 1 }
  thread : tget none t.e.threads s.next = some x
  others : ∀ k, k ≠ s.next → tget none t.e.threads k = tget none s.e.threads k
  held : tget .free t.t.tags (tagAt s x.tag) = .held
  tags : ∀ k, k ≠ tagAt s x.tag → tget .free t.t.tags k = tget .free s.t.tags k

/-- No executing lane is behind an acquire or fence of its own (R147). -/
def NoneBehind (s : State) : Prop := ∀ l ∈ s.iss.lanes, s.acqPending (lkOf s.iss.gk l) = false

/-- An engine word that runs once: lanes in issue, operands that are legal. -/
def EngineIssues (s : State) (i : Instr) : Prop :=
  s.iss.lanes ≠ [] ∧ s.iss.lanes.Pairwise (· < ·) ∧ operandsOk (s.group s.iss.gk).regs i = true ∧ NoneBehind s

/-- The bytes that rows of a copy span (R159). -/
def span (rows bytes stride : Nat) : Nat := if rows = 0 ∨ bytes = 0 then 0 else (rows - 1) * stride + bytes

end Sys2Proof.Claims

/-- R157, R159, R161: COPY, COPY2D and CHAIN that pass their checks fork a thread over the whole extent and free the
lane at once; a CHAIN once the lanes' own stores to its constants have been performed. (A copy into register windows is stated
apart.) -/
def Sys2Proof.Claims.CopyWords : Prop :=
  ∀ (s : State) (c : Bool) (t : BitVec 6) (p q : BitVec 3) (a : Opc), TagFree s t.toNat →
    let cd := s.creg s.iss.gk p.toNat
    let cs := s.creg s.iss.gk q.toNat
    let group (u : State) : Prop := AllAdvance s u ∧ ∀ k, u.group k = s.group k
    (EngineIssues s (.copy c t p q a) → sW s a 5 % 2 ^ 26 = 0 → Cap.type cd ≠ 4 → Covers s cs anyType 1 (sD s a 0) (sW s a 4) →
      Covers s cd anyType 2 (sD s a 2) (sW s a 4) → InMember s cs (sD s a 0) (sW s a 4) → InMember s cd (sD s a 2) (sW s a 4) →
      Goes s (.copy c t p q a) (fun u => Forked s u (newThread s .copy t.toNat (blockOf s a 6) cd cs []) ∧ group u)) ∧
    (EngineIssues s (.copy2d c t p q a) → Cap.type cd ≠ 4 →
      Covers s cs anyType 1 (sD s a 0) (span (sW s a 5 % 2 ^ 26) (sW s a 4) (sW s a 6)) →
      Covers s cd anyType 2 (sD s a 2) (span (sW s a 5 % 2 ^ 26) (sW s a 4) (sW s a 7)) →
      RowsInMembers s cs (sD s a 0) (sW s a 5 % 2 ^ 26) (sW s a 4) (sW s a 6) →
      RowsInMembers s cd (sD s a 2) (sW s a 5 % 2 ^ 26) (sW s a 4) (sW s a 7) →
      Goes s (.copy2d c t p q a) (fun u => Forked s u (newThread s .copy2d t.toNat (blockOf s a 8) cd cs []) ∧ group u)) ∧
    (EngineIssues s (.chain c t p q a) →
      let prog := chainBytes (blockOf s a 8)
      let k := s.kern s.iss.gk
      let bytes (o : Option Nat) : Nat := match o with | some m => Machine.bytesOf (elemBits (k.fmt m)) (sW s a 4) | none => 4 * sW s a 4
      let c1 := s.creg s.iss.gk 1
      chainLegal prog = true → chainSlotBad k (chainIn prog) = false → chainSlotBad k (chainOut prog) = false →
      Covers s cs anyType 1 (sD s a 0) (bytes (chainIn prog)) → Covers s cd anyType 2 (sD s a 2) (bytes (chainOut prog)) →
      InMember s cs (sD s a 0) (bytes (chainIn prog)) → InMember s cd (sD s a 2) (bytes (chainOut prog)) →
      Covers s c1 [2] 1 (sW s a 5) 32 → sW s a 5 % 32 = 0 →
      (∀ l ∈ s.iss.lanes, s.storePending (lkOf s.iss.gk l) s.next
        (.scr (s.group s.iss.gk).tk (Cap.base c1 + sW s a 5)) 32 = false) →
      Goes s (.chain c t p q a) (fun u => Forked s u (newThread s .chain t.toNat (blockOf s a 8) cd cs
        ((List.range 8).map (fun i => (i, 0, BitVec.ofNat 32
          (s.scrRead (s.group s.iss.gk).tk (Cap.base c1 + sW s a 5 + 4 * i) 4))))) ∧ group u))

/-- R163: a COPY into a register window reserves landing space at issue on the core of the group that owns its first byte's
register, and its DTAG, a tag of that group's core, is Held as well as its own; it faults at issue beyond 32 KiB or without the
space, and with a DTAG that may not be taken its thread is FAULTED and holds none. -/
def Sys2Proof.Claims.CopiesIntoRegisters : Prop :=
  ∀ (s : State) (c : Bool) (t : BitVec 6) (p q : BitVec 3) (a : Opc), TagFree s t.toNat →
    EngineIssues s (.copy c t p q a) →
    let cd := s.creg s.iss.gk p.toNat
    let cs := s.creg s.iss.gk q.toNat
    let n := sW s a 4
    let dtag := sW s a 5 / 2 ^ 26
    let tk := (s.group s.iss.gk).tk
    let w := (Cap.base cd + sD s a 2) / 32768
    let gk := gkOf tk w
    let core := (s.group gk).core
    let used := (s.t.landing.filter (fun e => e.core == core)).length + s.landReserved core
    sW s a 5 % 2 ^ 26 = 0 → Cap.type cd = 4 → Covers s cs anyType 1 (sD s a 0) n → Covers s cd anyType 2 (sD s a 2) n →
    InMember s cs (sD s a 0) n → w < (s.team tk).ngroups →
    (32768 < n → Faults s (.copy c t p q a) { code := fcILLEGAL_OPERAND, tag := some t.toNat }) ∧
    (n ≤ 32768 → 8192 < used + (n + 3) / 4 →
      Faults s (.copy c t p q a) { code := fcLANDING_FULL, tag := some t.toNat }) ∧
    (0 < n → n ≤ 32768 → used + (n + 3) / 4 ≤ 8192 →
      let may := dtag < (s.kern gk).tagb ∧ s.tagOf gk dtag ≠ .held
      Goes s (.copy c t p q a) (fun u => AllAdvance s u ∧ u.g.groups = s.g.groups ∧ u.tagOf s.iss.gk t.toNat = .held ∧
        (may → tget none u.e.threads s.next = some (newThread s .copy t.toNat (blockOf s a 6) cd cs []) ∧
          u.tagOf gk dtag = .held) ∧
        (¬ may → tget none u.e.threads s.next = some { newThread s .copy t.toNat (blockOf s a 6) cd cs [] with status := 1 }) ∧
        (∀ k, k ≠ tagAt s t.toNat → ¬ (may ∧ k = tagKey tk (s.coreIdx gk) dtag) →
          tget .free u.t.tags k = tget .free s.t.tags k)))

namespace Sys2Proof.Claims

/-- What R159, R161 and R175 ask of a scalar block's own fields: an operand check, made before that of the tag (R157). -/
def CopyBlock (s : State) (a : Opc) : Prop := sW s a 5 % 2 ^ 26 = 0
def ChainBlock (s : State) (a : Opc) : Prop :=
  let prog := chainBytes (blockOf s a 8)
  chainLegal prog = true ∧ chainSlotBad (s.kern s.iss.gk) (chainIn prog) = false ∧
    chainSlotBad (s.kern s.iss.gk) (chainOut prog) = false
def LeaseBlock (s : State) (a : Opc) : Prop :=
  sW s a 0 / 2 ^ 6 % 2 ^ 2 = 0 ∧ sW s a 0 / 2 ^ 13 % 2 ^ 3 = 0 ∧ sW s a 0 / 2 ^ 8 % 2 ^ 4 ≤ 6 ∧ sW s a 0 / 2 ^ 16 % 2 ^ 16 ≠ 0

end Sys2Proof.Claims

/-- R156, R157: an engine word whose block has an illegal field, or whose tag is at or above the budget, raises
ILLEGAL_OPERAND; one whose tag is Held raises TAG_BUSY; nothing issues. -/
def Sys2Proof.Claims.TagFaults : Prop :=
  ∀ (s : State) (c : Bool) (t : BitVec 6) (p q : BitVec 3) (a : Opc),
    ∀ x ∈ [(Instr.copy c t p q a, CopyBlock s a), (.copy2d c t p q a, True), (.chain c t p q a, ChainBlock s a),
        (.fbulk c t p q a, True), (.frlease c t p q a, LeaseBlock s a), (.fred c t p a, True)],
      operandsOk (s.group s.iss.gk).regs x.1 = true →
      (¬ x.2 ∨ (s.kern s.iss.gk).tagb ≤ t.toNat →
        Faults s x.1 { code := fcILLEGAL_OPERAND, tag := some t.toNat }) ∧
      (x.2 → t.toNat < (s.kern s.iss.gk).tagb → s.tagOf s.iss.gk t.toNat = .held →
        Faults s x.1 { code := fcTAG_BUSY, tag := some t.toNat })

namespace Sys2Proof.Claims

/-- Values that share an offset merged in ascending lane order, at the first lane's place (Table 2.7). -/
def mergedAt (add : Word → Word → Word) : List (Nat × Nat × Word) → List (Nat × Nat × Word) → List (Nat × Nat × Word)
  | acc, [] => acc
  | acc, x :: rest =>
    mergedAt add (if acc.any (fun y => y.2.1 == x.2.1) then
      acc.map (fun y => if y.2.1 = x.2.1 then (y.1, y.2.1, add y.2.2 x.2.2) else y) else acc ++ [x]) rest

/-- The vector words issue: a vector stands in q1 if they take one, and no lane is behind an acquire. -/
def VectorIssues (s : State) (i : Instr) : Prop :=
  s.iss.lanes ≠ [] ∧ s.iss.lanes.Pairwise (· < ·) ∧ operandsOk (s.group s.iss.gk).regs i = true ∧
  (popsQ1 i = true → (s.group s.iss.gk).q1 ≠ []) ∧ ∀ l ∈ s.iss.lanes, s.acqPending (lkOf s.iss.gk l) = false

end Sys2Proof.Claims

/-- R162: GATHER, SCATTER and SCATADD whose lanes all pass their checks fork one thread with each lane's offset and
value, SCATADD merging the values that share an offset; GATHER takes a place of q1. -/
def Sys2Proof.Claims.VectorWords : Prop :=
  ∀ (s : State) (c : Bool) (t : BitVec 6) (k : BitVec 3) (a : Opc), TagFree s t.toNat →
    let x := s.creg s.iss.gk k.toNat
    let off (l : Nat) : Nat := (s.src s.iss.gk l a).toNat * 4
    let passes (allow : List Nat) (need : BitVec 8) : Prop :=
      ∀ l ∈ s.iss.lanes, Covers s x allow need (off l) 4 ∧ (Cap.base x + off l) % 4 = 0 ∧ InMember s x (off l) 4
    let items (v : Nat → Word) := s.iss.lanes.map (fun l => (l, off l, v l))
    let v (l : Nat) : Word := s.src s.iss.gk l (a + 1)
    (VectorIssues s (.gather c t k a) → passes anyType 1 → (s.group s.iss.gk).q1.length + (s.group s.iss.gk).q1fly < 8 →
      Goes s (.gather c t k a) (fun u => Forked s u (newThread s .gather t.toNat [] 0 x (items (fun _ => 0))) ∧ AllAdvance s u ∧
        GroupBecomes s u { Popped s (.gather c t k a) with q1fly := (s.group s.iss.gk).q1fly + 1 })) ∧
    (VectorIssues s (.scatter c t k a) → passes anyType 2 →
      Goes s (.scatter c t k a) (fun u => Forked s u (newThread s .scatter t.toNat [] x 0 (items v)) ∧ AllAdvance s u ∧
        GroupBecomes s u (s.group s.iss.gk))) ∧
    (∀ z : Bool, VectorIssues s (.scatadd c t k a z) → passes atomTypes 8 →
      Goes s (.scatadd c t k a z) (fun u => Forked s u (newThread s (if z then .scataddB else .scataddF) t.toNat [] x 0
          (mergedAt (if z then (· + ·) else fun m n => BitVec.ofNat 32 (canon (fAdd 1 f32 .rne m.toNat n.toNat))) [] (items v))) ∧
        AllAdvance s u ∧ GroupBecomes s u (s.group s.iss.gk)))

/-- R173, R175, R176, R347: the fabric words fork a thread in a launch that is not deterministic: FBULK from memory or
scratch to a peer, FRLEASE and FRED on a reduction object of a peer. -/
def Sys2Proof.Claims.FabricWords : Prop :=
  ∀ (s : State) (c : Bool) (t : BitVec 6) (p q : BitVec 3) (a : Opc), TagFree s t.toNat → (s.kern s.iss.gk).det = false →
    let cd := s.creg s.iss.gk p.toNat
    let cs := s.creg s.iss.gk q.toNat
    let group (u : State) : Prop := AllAdvance s u ∧ ∀ k, u.group k = s.group k
    (EngineIssues s (.fbulk c t p q a) → Covers s cs [1, 2] 1 (sD s a 0) (sW s a 4) → Covers s cd [7] 2 (sD s a 2) (sW s a 4) →
      sW s a 5 = 0xFFFFFFFF → (∃ r, s.resolve (s.group s.iss.gk).tk (s.group s.iss.gk).core cd (sD s a 2) 1 .write false false = (r, s)) →
      Goes s (.fbulk c t p q a) (fun u => Forked s u (newThread s .fbulk t.toNat (blockOf s a 6) cd cs []) ∧ group u)) ∧
    (EngineIssues s (.frlease c t p q a) → Covers s cd [7] 8 0 0 → Covers s cs [1, 2] 2 (sD s a 2) 16 →
      (Cap.base cs + sD s a 2) % 16 = 0 → sW s a 0 / 2 ^ 6 % 2 ^ 2 = 0 → sW s a 0 / 2 ^ 13 % 2 ^ 3 = 0 →
      sW s a 0 / 2 ^ 8 % 2 ^ 4 ≤ 6 → sW s a 0 / 2 ^ 16 % 2 ^ 16 ≠ 0 →
      Goes s (.frlease c t p q a) (fun u => Forked s u (newThread s .frlease t.toNat (blockOf s a 4) cd cs []) ∧ group u)) ∧
    (EngineIssues s (.fred c t p a) → Covers s cd [7] 8 0 0 →
      Goes s (.fred c t p a) (fun u => Forked s u (newThread s .fred t.toNat (blockOf s a 2) cd 0 []) ∧ group u))

namespace Sys2Proof.Claims

/-- Tags of a mask in a state, ascending; whether any is Held. -/
def doneTags (s : State) (m : DWord) : List Nat :=
  (List.range 64).filter (fun t => m.getLsbD t && (match s.tagOf s.iss.gk t with | .done _ => true | _ => false))
def heldTags (s : State) (m : DWord) : List Nat := (List.range 64).filter (fun t => m.getLsbD t && s.tagOf s.iss.gk t == .held)
def statusOf (s : State) (t : Nat) : Nat := match s.tagOf s.iss.gk t with | .done n => n | _ => 0

/-- A tag's index in [7:0] and its status in [15:8] (Table 7.10). -/
def report (s : State) (t : Nat) : Word := BitVec.ofNat 32 (t + 2 ^ 8 * statusOf s t)

/-- A word that gives every executing lane one result and joins what it observes: registers or the queue take the
result, the lanes go on, and nothing else changes but histories and the core's view of what the threads wrote (R165, R268). -/
structure Told (s t : State) (i : Instr) (d : Opc) (r : LaneRes) : Prop where
  frame : t = { s with
    g := { s.g with lanes := t.g.lanes, groups := t.g.groups, vreg := t.g.vreg, sreg := t.g.sreg }
    o := { s.o with hist := t.o.hist, views := t.o.views } }
  lanes : AllAdvance s t
  dest : isQ d = false → DestHolds s t d (fun _ => r) ∧ GroupBecomes s t (Popped s i)
  push : isQ d = true → t.g.vreg = s.g.vreg ∧ t.g.sreg = s.g.sreg ∧ GroupBecomes s t (WithPush s d (fun _ => r) (Popped s i))

/-- The word may run and give its lanes a result. -/
def MayTell (s : State) (i : Instr) (d : Opc) : Prop := Issues s i ∧ Room s d

end Sys2Proof.Claims

/-- R164, R165, R166: TWAIT.any reports the lowest Done tag of its mask, waits while there is none but a Held one, and
answers 64 for a mask of Free tags; TWAIT.all waits for every Held tag; TFIRST and TTEST do not wait. In a
deterministic launch TWAIT.any waits for the lowest tag of its mask that is not Free, and TFIRST and TTEST raise NONDET_OP without
`.allow nondet`. -/
def Sys2Proof.Claims.TagWords : Prop :=
  ∀ (s : State) (c : Bool) (d a : Opc),
    let m := s.src64 s.iss.gk s.low a
    let det := (s.kern s.iss.gk).det
    (det = false → MayTell s (.twait c d a false) d →
      (∀ t ts, doneTags s m = t :: ts → Goes s (.twait c d a false) (fun u => Told s u (.twait c d a false) d (.w (report s t)))) ∧
      (doneTags s m = [] → heldTags s m = [] → Goes s (.twait c d a false) (fun u => Told s u (.twait c d a false) d (.w 64))) ∧
      (doneTags s m = [] → heldTags s m ≠ [] → Goes s (.twait c d a false) (fun u => OnlyLanes s u ∧
        LanesBecome s u (fun _ => Waits (.tags true m))))) ∧
    (det = true → MayTell s (.twait c d a false) d → ∀ t, t ∈ doneTags s m ++ heldTags s m →
      (∀ j ∈ doneTags s m ++ heldTags s m, t ≤ j) →
      (t ∈ doneTags s m → Goes s (.twait c d a false) (fun u => Told s u (.twait c d a false) d (.w (report s t)))) ∧
      (t ∈ heldTags s m → Goes s (.twait c d a false) (fun u => OnlyLanes s u ∧
        LanesBecome s u (fun _ => Waits (.tags true (1 <<< t)))))) ∧
    (MayTell s (.twait c d a true) d →
      (heldTags s m = [] → Goes s (.twait c d a true) (fun u => Told s u (.twait c d a true) d
        (.w (match (doneTags s m).find? (fun t => statusOf s t != 0) with | some t => report s t | none => 64)))) ∧
      (heldTags s m ≠ [] → Goes s (.twait c d a true) (fun u => OnlyLanes s u ∧
        LanesBecome s u (fun _ => Waits (.tags false m))))) ∧
    (det = false → MayTell s (.tfirst c d a) d → Goes s (.tfirst c d a) (fun u => Told s u (.tfirst c d a) d
      (.w (match doneTags s m with | t :: _ => report s t | [] => 64)))) ∧
    (det = false → MayTell s (.ttest c d a) d → ∀ v : DWord, (∀ k, k < 64 → (v.getLsbD k = true ↔ k ∈ doneTags s m)) →
      Goes s (.ttest c d a) (fun u => Told s u (.ttest c d a) d (.d v))) ∧
    (det = true → (s.kern s.iss.gk).nondet = false → ∀ i ∈ [Instr.tfirst c d a, .ttest c d a, .qstat c d a], Issues s i →
      Faults s i (.of fcNONDET_OP))

/-- R156, R164: TCLR frees the Done tags of its mask and no other; COMMIT of a Done tag applies its landing entries for
this group in order, frees them and writes their number; QSTAT tells what the queues hold. -/
def Sys2Proof.Claims.TagClearCommitAndQueueStatus : Prop :=
  ∀ (s : State) (c : Bool) (d a : Opc),
    (Issues s (.tclr c a) → Goes s (.tclr c a) (fun u =>
      u = { s with g := { s.g with lanes := u.g.lanes }, t := { s.t with tags := u.t.tags, pairDone := u.t.pairDone } } ∧
      AllAdvance s u ∧ (∀ t, t < 64 → u.tagOf s.iss.gk t =
        if t ∈ doneTags s (s.src64 s.iss.gk s.low a) then .free else s.tagOf s.iss.gk t) ∧
      ∀ k, (∀ t, t < 64 → k ≠ tagAt s t) → tget .free u.t.tags k = tget .free s.t.tags k)) ∧
    (∀ n, Issues s (.commit c d a) → isV d = true → (s.src s.iss.gk s.low a).toNat < (s.kern s.iss.gk).tagb →
      s.tagOf s.iss.gk (s.src s.iss.gk s.low a).toNat = .done n →
      let mine := s.t.landing.filter (fun e => e.core == (s.group s.iss.gk).core && e.gk == s.iss.gk &&
        e.tag == (s.src s.iss.gk s.low a).toNat)
      Goes s (.commit c d a) (fun u => AllAdvance s u ∧ GroupBecomes s u (Popped s (.commit c d a)) ∧
        (∀ e, e ∈ u.t.landing ↔ e ∈ s.t.landing ∧ e ∉ mine) ∧
        (∀ l ∈ s.iss.lanes, u.vreg s.iss.gk l d.toNat = BitVec.ofNat 32 mine.length) ∧
        (∀ k, (∀ l ∈ s.iss.lanes, k ≠ vKey (lkOf s.iss.gk l) d.toNat) → tget 0 u.g.vreg k =
          (mine.foldl (fun v e => if e.key = k then e.put v else v) (tget 0 s.g.vreg k))) ∧
        u.g.sreg = s.g.sreg ∧ u.g.creg = s.g.creg ∧ u.o.mem = s.o.mem)) ∧
    ((s.kern s.iss.gk).det = false → MayTell s (.qstat c d a) d →
      let g := s.group s.iss.gk
      let part (q : List Word) : Nat := 2 ^ 8 * q.length
      Goes s (.qstat c d a) (fun u => Told s u (.qstat c d a) d (.w (BitVec.ofNat 32
        (if a = 112 then 4 + part g.q0 else if a = 113 then g.q1.length
         else if a = 114 then 2 - s.q2Held s.iss.gk + part g.q2 + 2 ^ 16 * (4 - s.martenUsed g.core)
         else if a = 115 then 4 - s.q3Held s.iss.gk + part g.q3 + 2 ^ 16 * (32 - s.fifoUsed g.core)
         else 4 + part g.q4)))))

namespace Sys2Proof.Claims

/-- Barrier n of the issuing team, and what an arrival makes of it (R167). -/
def barOf (s : State) (n : Opc) : Barrier := s.bar (s.group s.iss.gk).tk n.toNat
def oneMore (b : Barrier) : Barrier :=
  if b.arrived + 1 = b.expected then { b with arrived := 0, gen := b.gen + 1 } else { b with arrived := b.arrived + 1 }

/-- Of the team's barriers only n changes, and becomes b. -/
def BarBecomes (s t : State) (n : Opc) (b : Barrier) : Prop :=
  barOf t n = b ∧ ∀ k m, m < 16 → ¬ (k = (s.group s.iss.gk).tk ∧ m = n.toNat) → t.bar k m = s.bar k m

/-- What a release, an acquire and a join move in the order of memory: histories and views, and the dirty L1 copies that an
acquire's invalidation writes back (R264, R268, R313). -/
def Moved (s t : State) : Order :=
  { s.o with hist := t.o.hist, views := t.o.views, floors := t.o.floors, l1 := t.o.l1, mem := t.o.mem, old := t.o.old
             stamp := t.o.stamp }

/-- A barrier word has changed lanes, queues, destination registers and barriers, and what its release and acquire move. -/
def BarFrame (s t : State) : Prop :=
  t = { s with g := { s.g with lanes := t.g.lanes, groups := t.g.groups, vreg := t.g.vreg, sreg := t.g.sreg }
               t := { s.t with bars := t.t.bars }, o := Moved s t, free := t.free }

/-- Every executing lane may release at a scope: no access of its own is pending, its stores are visible (R263). -/
def MayRelease (s : State) (sc : Scope) : Prop := ∀ l ∈ s.iss.lanes, s.relReady sc (lkOf s.iss.gk l) = true

/-- The tokens of the executing lanes. -/
def tokenOf (s : State) (l : Nat) : Option Word := (s.lane (lkOf s.iss.gk l)).token

/-- Registers are as they were. -/
def RegsKept (s t : State) : Prop := t.g.vreg = s.g.vreg ∧ t.g.sreg = s.g.sreg

end Sys2Proof.Claims

/-- R167, R168: BARINIT sets the expected count of a barrier at which none has arrived. One BAR or BARARR is one arrival;
the last one advances the generation and its lanes go on, an earlier BAR waits with the generation as its token.
BARARR gives the token, and BARWAIT waits on one until the generation differs; BARINIT and BARWAIT come after the lanes'
acquires (R147). -/
def Sys2Proof.Claims.Barriers : Prop :=
  ∀ (s : State) (c : Bool) (d a n : Opc), (s.group s.iss.gk).pair = false →
    let b := barOf s n
    let v := (s.src s.iss.gk s.low a).toNat
    (Issues s (.barinit c d a n) → NoneBehind s → b.arrived = 0 → 0 < v → v ≤ 65535 → Goes s (.barinit c d a n) (fun t =>
      BarFrame s t ∧ RegsKept s t ∧ AllAdvance s t ∧ GroupBecomes s t (Popped s (.barinit c d a n)) ∧
      BarBecomes s t n { b with expected := v })) ∧
    (Issues s (.bar c a n) → b.expected ≠ 0 → MayRelease s .team → (∀ l ∈ s.iss.lanes, tokenOf s l = none) →
      Goes s (.bar c a n) (fun t => BarFrame s t ∧ RegsKept s t ∧ (∀ k, t.group k = s.group k) ∧ BarBecomes s t n (oneMore b) ∧
        (if b.arrived + 1 = b.expected then AllAdvance s t
         else LanesBecome s t (fun _ y => Waits (.bar n.toNat b.gen) { y with token := some b.gen })))) ∧
    (Issues s (.bar c a n) → (∀ l ∈ s.iss.lanes, ∃ w, tokenOf s l = some w ∧ w ≠ b.gen) →
      Goes s (.bar c a n) (fun t => BarFrame s t ∧ RegsKept s t ∧ t.t.bars = s.t.bars ∧ AllAdvance s t)) ∧
    (Issues s (.bar c a n) → (∀ l ∈ s.iss.lanes, tokenOf s l = some b.gen) →
      Goes s (.bar c a n) (fun t => OnlyLanes s t ∧ LanesBecome s t (fun _ => Waits (.bar n.toNat b.gen)))) ∧
    (Issues s (.bararr c d a n) → isQ d = false → b.expected ≠ 0 → MayRelease s .team →
      Goes s (.bararr c d a n) (fun t => BarFrame s t ∧ AllAdvance s t ∧ DestHolds s t d (fun _ => .w b.gen) ∧
        (∀ k, t.group k = s.group k) ∧ BarBecomes s t n (oneMore b))) ∧
    (Issues s (.barwait c d a n) → NoneBehind s → (∀ l ∈ s.iss.lanes, s.src s.iss.gk l a ≠ b.gen) →
      Goes s (.barwait c d a n) (fun t => BarFrame s t ∧ RegsKept s t ∧ t.t.bars = s.t.bars ∧ AllAdvance s t ∧
        GroupBecomes s t (Popped s (.barwait c d a n)))) ∧
    (Issues s (.barwait c d a n) → NoneBehind s → (∀ l ∈ s.iss.lanes, s.src s.iss.gk l a = b.gen) →
      Goes s (.barwait c d a n) (fun t => OnlyLanes s t ∧ LanesBecome s t (fun _ => Waits (.bar n.toNat b.gen))))

/-- R167: BARRIER_STATE of BARINIT with an arrival at the barrier or a count outside 1 to 65,535, and of BAR and BARARR
at a barrier that expects none; nothing arrives. R224: a pair lane's barrier words raise ILLEGAL_OPERAND. -/
def Sys2Proof.Claims.BarrierFaults : Prop :=
  ∀ (s : State) (c : Bool) (d a n : Opc),
    let b := barOf s n
    let v := (s.src s.iss.gk s.low a).toNat
    let i := Instr.barinit c d a n
    ((s.group s.iss.gk).pair = false → Issues s i → NoneBehind s → (b.arrived ≠ 0 ∨ v = 0 ∨ 65535 < v) →
      Faults s i (.of fcBARRIER_STATE)) ∧
    ((s.group s.iss.gk).pair = false → b.expected = 0 → (∀ l ∈ s.iss.lanes, tokenOf s l = none) →
      (Issues s (.bar c a n) → Faults s (.bar c a n) (.of fcBARRIER_STATE)) ∧
      (Issues s (.bararr c d a n) → Faults s (.bararr c d a n) (.of fcBARRIER_STATE))) ∧
    ((s.group s.iss.gk).pair = true → ∀ j ∈ [i, .bar c a n, .bararr c d a n, .barwait c d a n, .dphase c], Issues s j →
      Faults s j (.of fcILLEGAL_OPERAND))

namespace Sys2Proof.Claims

/-- The state of member m of the issuing team's gang (R169): 0 resident, 1 leaving, 2 left, 3 killed, 4 no member. -/
def memberState (s : State) (m : Nat) : Word :=
  let tk := (s.group s.iss.gk).tk
  if max 1 (s.team tk).kern.gang ≤ m then 4
  else match s.member tk m with
    | none => 4
    | some x => match s.gangState x with | .resident => 0 | .leaving => 1 | .left => 2 | .killed => 3

/-- A gang word has changed its team's record and its destination, and histories and views. -/
def GangFrame (s t : State) : Prop :=
  t = { s with g := { s.g with lanes := t.g.lanes, groups := t.g.groups, vreg := t.g.vreg, sreg := t.g.sreg }
               t := { s.t with teams := t.t.teams }, o := Moved s t, free := t.free }

def TeamBecomes (s t : State) (x : Team) : Prop :=
  ∀ k, t.team k = if k = (s.group s.iss.gk).tk then x else s.team k

end Sys2Proof.Claims

/-- R169, R250, R251, R170: GSTAT tells a member's state. GANGLEAVE of a resident team makes it leaving and gives 0;
outside a gang it gives 1, and 2 where the team is leaving already. GANGACK of a leaving member adds it to the team's
acknowledgements. DPHASE is FENCE at DEVICE scope, or in a deterministic launch waits for the serial phase.
Completes (exec answers a next state, under conditions on the state and the operands alone): gangleave, gangack,
gstat, dphase. -/
def Obligations.GangWordsAndPhases : Prop :=
  ∀ (s : State) (c : Bool) (d a : Opc),
    let tk := (s.group s.iss.gk).tk
    let T := s.team tk
    let m := (s.src s.iss.gk s.low a).toNat
    Runs s (.gstat c d a) d (fun l => .w (memberState s (s.src s.iss.gk l a).toNat)) ∧
    ((s.group s.iss.gk).pair = false →
      (T.kern.gang ≤ 1 → Runs s (.gangleave c d a) d (fun _ => .w 1)) ∧
      (1 < T.kern.gang → s.gangState tk ≠ .resident → Runs s (.gangleave c d a) d (fun _ => .w 2)) ∧
      (1 < T.kern.gang → s.gangState tk = .resident → MayRelease s .gang → Issues s (.gangleave c d a) → isQ d = false →
        Goes s (.gangleave c d a) (fun t => GangFrame s t ∧ AllAdvance s t ∧ DestHolds s t d (fun _ => .w 0) ∧
          GroupBecomes s t (Popped s (.gangleave c d a)) ∧ TeamBecomes s t { T with gst := .leaving })) ∧
      (T.kern.gang ≤ m ∨ m = T.idx % T.kern.gang → Runs s (.gangack c d a) d (fun _ => .w 2)) ∧
      (m < T.kern.gang → m ≠ T.idx % T.kern.gang →
        (m ∈ T.acks → Runs s (.gangack c d a) d (fun _ => .w 0)) ∧
        (∀ x, m ∉ T.acks → s.member tk m = some x → s.gangState x ≠ .leaving → Runs s (.gangack c d a) d (fun _ => .w 1)) ∧
        (∀ x, m ∉ T.acks → s.member tk m = some x → s.gangState x = .leaving → MayRelease s .gang → Issues s (.gangack c d a) →
          isQ d = false → Goes s (.gangack c d a) (fun t => GangFrame s t ∧ AllAdvance s t ∧ DestHolds s t d (fun _ => .w 0) ∧
            GroupBecomes s t (Popped s (.gangack c d a)) ∧ TeamBecomes s t { T with acks := T.acks ++ [m] }))) ∧
      (Issues s (.dphase c) →
        (T.kern.det = false → Goes s (.dphase c) (fun t => Fenced s t .fence .dev)) ∧
        (T.kern.det = true → MayRelease s .team → (∀ l ∈ s.iss.lanes, tokenOf s l = none) →
          Goes s (.dphase c) (fun t => OnlyLanes s t ∧ LanesBecome s t (fun _ y => Waits .phase { y with token := some 0 }))) ∧
        (T.kern.det = true → (∀ l ∈ s.iss.lanes, ∃ w, tokenOf s l = some w) →
          Goes s (.dphase c) (fun t => OnlyLanes s t ∧ AllAdvance s t))))

namespace Sys2Proof.Claims

/-- The record that a lane's LAUNCH names: its offset in c1, its bytes (R171). -/
def recordOff (s : State) (a : Opc) (l : Nat) : Nat := (s.src s.iss.gk l a).toNat
def recordByte (s : State) (a : Opc) (l : Nat) : Nat := Cap.base (s.heldCap s.iss.gk l 1) + recordOff s a l
def checkedRecord (s : State) (a : Opc) (l : Nat) : RecChk × State :=
  s.checkRecord (s.group s.iss.gk).core (s.kern s.iss.gk).ctx (s.scrRead (s.group s.iss.gk).tk (recordByte s a l) 256)
    (some ((List.range 8).map (s.heldCap s.iss.gk l)))

/-- A lane's LAUNCH that reads its record: it passes the checks of c1, and no store of the lane into it is pending. -/
structure ReadsRecord (s : State) (a : Opc) (l : Nat) : Prop where
  fresh : (s.lane (lkOf s.iss.gk l)).launch = none
  covers : Covers s (s.heldCap s.iss.gk l 1) [2] 1 (recordOff s a l) 256
  scratch : recordByte s a l + 256 ≤ (s.kern s.iss.gk).scratch
  aligned : recordOff s a l % 64 = 0
  clear : s.acqPending (lkOf s.iss.gk l) = false
  landed : ∀ p ∈ s.pendOf (lkOf s.iss.gk l), p.2.tr = none → p.2.isStore = true →
    s.common p.2.loc p.2.size (.scr (s.group s.iss.gk).tk (recordByte s a l)) 256 = false

/-- The lane's word gives a value and does nothing else. -/
def Gives (s t : State) (i : Instr) (d : Opc) (v : Nat → Word) : Prop :=
  t = { s with g := { s.g with lanes := t.g.lanes, groups := t.g.groups, vreg := t.g.vreg, sreg := t.g.sreg } } ∧
  AllAdvance s t ∧ GroupBecomes s t (Popped s i) ∧ DestHolds s t d (fun l => .w (v l))

end Sys2Proof.Claims

/-- R171, R283, R288: LAUNCH of a lane reads its record; one that fails its checks gives 0xFFFF_FFF2 (BAD), a child
deeper than its limit 0xFFFF_FFF1 (DEPTH), a full pool or queue 0xFFFF_FFF0 (FULL); an accepted one makes a launch under the context's
next serial, whose priority and depth are limited by its parent's, which depends on the launches that its DEP fields name now and
whose agents start with the lane's history, and gives the serial. Of several lanes each acts in turn. -/
def Sys2Proof.Claims.LaunchWord : Prop :=
  ∀ (s : State) (c : Bool) (d a : Opc), let i := Instr.launch c d a
    Issues s i → (s.group s.iss.gk).pair = false → (s.kern s.iss.gk).det = false → isV d = true ∨ isS d = true →
    let tk := (s.group s.iss.gk).tk
    let ln := (s.team tk).ln
    let x := s.launchOf ln
    (∀ m, s.iss.lanes = [m] → ReadsRecord s a m →
      (∀ e, checkedRecord s a m = (.bad e, s) → Goes s i (fun t => Gives s t i d (fun _ => 0xFFFFFFF2))) ∧
      (∀ k, checkedRecord s a m = (.ok k, s) → min k.dlimit x.limit < x.depth + 1 → Goes s i (fun t => Gives s t i d (fun _ => 0xFFFFFFF1))) ∧
      (∀ k, checkedRecord s a m = (.ok k, s) → x.depth + 1 ≤ min k.dlimit x.limit →
        (4096 ≤ s.poolUsed + s.accepting 0 true ∨ 1024 ≤ s.queued x.kern.ctx + s.accepting x.kern.ctx false) →
        Goes s i (fun t => Gives s t i d (fun _ => 0xFFFFFFF0))) ∧
      (∀ k u, checkedRecord s a m = (.ok k, u) → u.launchStatus ln k = none → u.relReady .dev (lkOf s.iss.gk m) = true →
        Goes s i (fun t => AllAdvance s t ∧ GroupBecomes s t (Popped s i) ∧
          DestHolds s t d (fun _ => .w (BitVec.ofNat 32 (tget 0 u.l.serials k.ctx))) ∧
          t = { u with g := { u.g with lanes := t.g.lanes, groups := t.g.groups, vreg := t.g.vreg, sreg := t.g.sreg }
                       l := { u.l with launches := t.l.launches, serials := t.l.serials }, next := u.next + 1 } ∧
          tget none t.l.launches u.next = some {
            kern := { k with prio := min k.prio x.kern.prio }, serial := tget 0 u.l.serials k.ctx, fromHost := false
            parent := ln, parentTeam := tk, depth := x.depth + 1, limit := min k.dlimit x.limit, pooled := true
            start := u.hist (lkOf s.iss.gk m)
            deps := k.deps.filterMap (fun n => (u.bySerial k.ctx n).map (·.1)) } ∧
          (∀ n, n ≠ u.next → tget none t.l.launches n = tget none u.l.launches n)))) ∧
    (∀ m ls t, isV d = true → isV a = true → s.iss.lanes = m :: ls → ls ≠ [] →
      exec i { s with iss := { s.iss with lanes := [m] } } = .next t →
      t.lane (lkOf s.iss.gk m) = ({ s.lane (lkOf s.iss.gk m) with launch := none } : Lane).advance →
      ∀ u, exec i { t with iss := { s.iss with lanes := ls } } = .next u → exec i s = .next { u with iss := s.iss })

namespace Sys2Proof.Claims

/-- The child that a lane's operand names, and those of several lanes that have completed. -/
def childOf (s : State) (a : Opc) (l : Nat) : Option (Nat × Launch) := s.childOf (s.group s.iss.gk).tk (s.src s.iss.gk l a)
def observed (s : State) (a : Opc) (n : Nat) : Prop :=
  ∃ l ∈ s.iss.lanes, ∃ x code, childOf s a l = some (n, x) ∧ x.st = .complete code

/-- A word has given each lane the code of its child; the children observed done free their places in the pool. -/
structure Learned (s t : State) (i : Instr) (d a : Opc) (v : Nat → Word) : Prop where
  frame : t = { s with g := { s.g with lanes := t.g.lanes, groups := t.g.groups, vreg := t.g.vreg, sreg := t.g.sreg }
                       l := { s.l with launches := t.l.launches }, o := Moved s t, free := t.free }
  lanes : AllAdvance s t
  group : GroupBecomes s t (Popped s i)
  dest : DestHolds s t d (fun l => .w (v l))
  done : ∀ n, observed s a n → t.launchOf n = { s.launchOf n with pooled := false }
  kept : ∀ n, ¬ observed s a n → tget none t.l.launches n = tget none s.l.launches n

end Sys2Proof.Claims

/-- R172, R288: LWAIT of a completed child gives its completion code, of no child 3, and waits for a running or queued
one; LSTAT does not wait and gives 0 queued, 1 running, 2 + 256 × code done, 3 none; both follow the lane's acquires (R147). R297: LAUNCH and LSTAT in a
deterministic launch without `.allow nondet` raise NONDET_OP. -/
def Sys2Proof.Claims.ChildLaunchWords : Prop :=
  ∀ (s : State) (c : Bool) (d a : Opc), keysRise s.l.launches = true → isV d = true ∨ isS d = true →
    (∀ v : Nat → Word, Issues s (.lwait c d a) → NoneBehind s → (s.group s.iss.gk).pair = false →
      (∀ l ∈ s.iss.lanes, (childOf s a l = none ∧ v l = 3) ∨
        ∃ n x code, childOf s a l = some (n, x) ∧ x.st = .complete code ∧ v l = BitVec.ofNat 32 code) →
      Goes s (.lwait c d a) (fun t => Learned s t (.lwait c d a) d a v)) ∧
    (∀ w : Nat → Nat, Issues s (.lwait c d a) → NoneBehind s → (s.group s.iss.gk).pair = false →
      (∀ l ∈ s.iss.lanes, ∃ x, childOf s a l = some (w l, x) ∧ (x.st = .queued ∨ x.st = .running)) →
      Goes s (.lwait c d a) (fun t => OnlyLanes s t ∧ LanesBecome s t (fun l => Waits (.launch (w l))))) ∧
    (∀ v : Nat → Word, Issues s (.lstat c d a) → NoneBehind s → (s.kern s.iss.gk).det = false →
      (∀ l ∈ s.iss.lanes, (childOf s a l = none ∧ v l = 3) ∨ ∃ n x, childOf s a l = some (n, x) ∧
        ((x.st = .queued ∧ v l = 0) ∨ (x.st = .running ∧ v l = 1) ∨
          ∃ code, x.st = .complete code ∧ v l = BitVec.ofNat 32 (2 + 256 * code))) →
      Goes s (.lstat c d a) (fun t => Learned s t (.lstat c d a) d a v)) ∧
    ((s.kern s.iss.gk).det = true → (s.kern s.iss.gk).nondet = false → (s.group s.iss.gk).pair = false →
      ∀ i ∈ [Instr.launch c d a, .lstat c d a, .arrwait c a], Issues s i → Faults s i (.of fcNONDET_OP))

/-- R174: ARRSET posts a store of TARGET, bytes 4 to 7 of an aligned counter of c1. ARRWAIT goes on where ARRIVED has
reached TARGET, as an acquire at SYSTEM scope, and waits elsewhere. -/
def Sys2Proof.Claims.ArrivalCounters : Prop :=
  ∀ (s : State) (c : Bool) (a b : Opc),
    let c1 := s.creg s.iss.gk 1
    let counter (need : BitVec 8) (l : Nat) : Prop := Permitted s c1 [2] need (s.src s.iss.gk l a).toNat 8
    let at_ (l : Nat) : Nat := Cap.base c1 + (s.src s.iss.gk l a).toNat
    let tk := (s.group s.iss.gk).tk
    ((∀ l ∈ s.iss.lanes, counter 2 l) → Posts s (.arrset c a b) false
      { cap := 1, z := 4, acc := .write, allow := [2], need := 2, idx := a, scale := some 1, plus := 4, kind := fun _ => .store
        val := fun l => (s.src s.iss.gk l b).setWidth 128, dst := .none }) ∧
    (Issues s (.arrwait c a) → (s.kern s.iss.gk).det = false → (∀ l ∈ s.iss.lanes, counter 1 l ∧
        s.acqPending (lkOf s.iss.gk l) = false ∧ ∀ p ∈ s.pendOf (lkOf s.iss.gk l), p.2.tr = none → s.common p.2.loc p.2.size (.scr tk (at_ l)) 8 = false) →
      ((∀ l ∈ s.iss.lanes, s.scrRead tk (at_ l + 4) 4 ≤ s.scrRead tk (at_ l) 4) →
        Goes s (.arrwait c a) (fun t =>
          t = { s with g := { s.g with lanes := t.g.lanes, groups := t.g.groups }, o := Moved s t, free := t.free } ∧
          (∃ n : Nat → Nat, LanesBecome s t (fun l x => { x.advance with acquired := n l }) ∧
            ∀ l ∈ s.iss.lanes, s.o.stamp ≤ n l ∧ n l ≤ t.o.stamp) ∧
          GroupBecomes s t (Popped s (.arrwait c a)) ∧
          tget 0 t.o.floors (s.agentCore (lkOf s.iss.gk s.low)) = t.o.stamp)) ∧
      ((∀ l ∈ s.iss.lanes, s.scrRead tk (at_ l) 4 < s.scrRead tk (at_ l + 4) 4) →
        Goes s (.arrwait c a) (fun t => OnlyLanes s t ∧ LanesBecome s t (fun l => Waits (.arrive (at_ l))))))

namespace Sys2Proof.Claims

/-- A word of the handler role may run (R132): of the kernel's handler role, and not a pair lane. -/
def OfHandler (s : State) : Prop := (s.group s.iss.gk).pair = false ∧ (s.kern s.iss.gk).handler = some (s.group s.iss.gk).role

/-- FAULTREC may write 64 bytes of c1's scratch at an offset (R133). -/
structure RecordPlace (s : State) (off : Nat) : Prop where
  covers : Covers s (s.creg s.iss.gk 1) [2] 2 off 64
  scratch : Cap.base (s.creg s.iss.gk 1) + off + 64 ≤ (s.kern s.iss.gk).scratch
  aligned : off % 64 = 0
  clear : s.acqPending (lkOf s.iss.gk s.low) = false

/-- The four stores of 16 bytes of a record (R138, R133). -/
def recordStore (s : State) (off : Nat) (r : BitVec 512) (j : Nat) : MemEv :=
  { agent := lkOf s.iss.gk s.low, gk := s.iss.gk, lane := s.low, kind := .store
    loc := .scr (s.group s.iss.gk).tk (Cap.base (s.creg s.iss.gk 1) + off + 16 * j), size := 16
    val := BitVec.ofNat 128 (r.toNat / 2 ^ (128 * j)), dst := .none, acq := none, rel := none, sync := none, nol1 := false
    pkt := s.iss.pkt, slot := s.iss.slot, cap := s.creg s.iss.gk 1, off := off + 16 * j, issue := s.next }

/-- A parked lane that goes on after its word; a wait of a REJOIN or WAITC chained before it, in which it stood, goes on (R222). -/
def Skipped (l : Lane) : Lane := { l.advance with st := match l.after with | some w => .waiting w | none => .ready, after := none }

/-- A handler word that names a FID: its status, the FID gone, one agent changed, and the lanes of the word gone on. -/
structure Dealt (s t : State) (i : Instr) (d : Opc) (T : Team) : Prop where
  dest : DestHolds s t d (fun _ => .w 0)
  lanes : ∀ l ∈ s.iss.lanes, t.lane (lkOf s.iss.gk l) = (s.lane (lkOf s.iss.gk l)).advance
  team : TeamBecomes s t T
  memory : t.o = s.o ∧ t.e = s.e ∧ t.x = s.x ∧ t.h = s.h ∧ t.l = s.l

end Sys2Proof.Claims

/-- R132, R133, R134: the words of the handler role. FAULTREC takes the oldest record of the team's fault queue,
stores its 64 bytes and gives 1 and the number left in [31:16], or 0. LRESUME starts a parked lane or sequencer again
at its word or after it, LKILL ends it (a sequencer once its entries have finished, as MEXIT does, R206, R207); a FID
that names none gives 1, one of a pair 2. Any other role takes NOT_HANDLER.
Completes (exec answers a next state, under conditions on the state and the operands alone): faultrec, lresume, lkill.
-/
def Obligations.HandlerWords : Prop :=
  ∀ (s : State) (c : Bool) (d a n : Opc),
    let tk := (s.group s.iss.gk).tk
    let T := s.team tk
    let v := (s.src s.iss.gk s.low a).toNat
    (OfHandler s → RecordPlace s v →
      (T.fq = [] → Runs s (.faultrec c d a) d (fun _ => .w 0)) ∧
      (∀ r rs, T.fq = r :: rs → Issues s (.faultrec c d a) → isQ d = false → Goes s (.faultrec c d a) (fun t =>
        t = { s with g := { s.g with lanes := t.g.lanes, groups := t.g.groups, vreg := t.g.vreg, sreg := t.g.sreg }
                     t := { s.t with teams := t.t.teams }, o := { s.o with pend := t.o.pend }, next := s.next + 4 } ∧
        AllAdvance s t ∧ GroupBecomes s t (Popped s (.faultrec c d a)) ∧
        DestHolds s t d (fun _ => .w (BitVec.ofNat 32 (1 + 2 ^ 16 * min 65535 rs.length))) ∧
        TeamBecomes s t { T with fq := rs } ∧
        (∀ j, j < 4 → tget none t.o.pend (s.next + j) = some (recordStore s v r j)) ∧
        ∀ k, (k < s.next ∨ s.next + 4 ≤ k) → tget none t.o.pend k = tget none s.o.pend k))) ∧
    (OfHandler s → ∀ i ∈ [Instr.lresume c d a n, .lkill c d a],
      (tget none T.parked v = none → Runs s i d (fun _ => .w 1)) ∧
      (∀ x, tget none T.parked v = some { lane := x, pair := true } → Runs s i d (fun _ => .w 2))) ∧
    (OfHandler s → isQ d = false → (∀ l ∈ s.iss.lanes, l < 64) →
      let gone : Team := { T with parked := tset none T.parked v none }
      (Issues s (.lresume c d a n) →
        (∀ lk, tget none T.parked v = some { lane := some lk, pair := false } → (∀ l ∈ s.iss.lanes, lkOf s.iss.gk l ≠ lk) →
          Goes s (.lresume c d a n) (fun t => Dealt s t (.lresume c d a n) d gone ∧
            (let x : Lane := if n = 1 then Skipped (s.lane lk) else { s.lane lk with st := .ready, since := 0 }
             ((∀ j, (s.lane lk).after ≠ some (.rejoin j)) → t.lane lk = x ∧
               ∀ k, k ≠ lk → (∀ l ∈ s.iss.lanes, k ≠ lkOf s.iss.gk l) → t.lane k = s.lane k) ∧
             (∀ j, (s.lane lk).after = some (.rejoin j) → lk / 64 ≠ s.iss.gk → t.lane lk = x ∨ t.lane lk = Lane.released j x)))) ∧
        (tget none T.parked v = some { lane := none, pair := false } →
          Goes s (.lresume c d a n) (fun t => Dealt s t (.lresume c d a n) d { gone with seq := { T.seq with
              st := .running, idx := if n = 1 then T.seq.idx + 1 else T.seq.idx } }))) ∧
      (Issues s (.lkill c d a) →
        (∀ lk, tget none T.parked v = some { lane := some lk, pair := false } → lk / 64 ≠ s.iss.gk →
          (s.group (lk / 64)).width ≤ 64 →
          Goes s (.lkill c d a) (fun t => Dealt s t (.lkill c d a) d gone ∧ (t.lane lk).st = .exited ∧
            ∀ r, r < 8 → (t.jmask (lk / 64) r).getLsbD (lk % 64) = false)) ∧
        (tget none T.parked v = some { lane := none, pair := false } →
          Goes s (.lkill c d a) (fun t => Dealt s t (.lkill c d a) d { gone with seq := { T.seq with
            st := .running, kill := true, waiting := false, miss := none } })))) ∧
    (¬ OfHandler s → ∀ i ∈ [Instr.faultrec c d a, .lresume c d a n, .lkill c d a, .pairrelaunch c 0 a], Issues s i →
      Faults s i (.of fcNOT_HANDLER))

namespace Sys2Proof.Claims

/-- CTXSAVE or CTXLOAD may move its bytes: the capability is of memory and covers SAVESZ, no other group of the team
saves, the team stands still, and a deterministic launch has had the serial phase that the word waits for (R136). -/
structure MayMove (s : State) (a : Opc) (need : BitVec 8) : Prop where
  alone : (s.group s.iss.gk).pair = false
  covers : Covers s (s.heldCap s.iss.gk s.low a.toNat) [1] need 0 (s.kern s.iss.gk).saveSize
  saving : (s.teamOf s.iss.gk).saving = none ∨ (s.teamOf s.iss.gk).saving = some s.iss.gk
  still : s.still (s.group s.iss.gk).tk = true
  phase : (s.teamOf s.iss.gk).kern.det = true → ∀ l ∈ s.iss.lanes, (s.lane (lkOf s.iss.gk l)).token ≠ none

/-- The bytes of the area stand at locations, found without a wait and without a change of the device. -/
def AreaAt (s : State) (a : Opc) (kind : AccKind) (ls : List (Loc × Nat)) : Prop :=
  let c := s.heldCap s.iss.gk s.low a.toNat
  let u := s.modTeam (s.group s.iss.gk).tk (fun t => { t with saving := some s.iss.gk })
  u.extLocs s.iss.gk c kind (cutPages (Cap.base c) (s.kern s.iss.gk).saveSize) = (.ok ls, u)

/-- The part of a table that a team's keys name, counted from the first. -/
def HoldsPart {α : Type} (z : α) (part whole : Tbl α) (lo hi : Nat) : Prop :=
  ∀ k, lo + k < hi → tget z part k = tget z whole (lo + k)

/-- A checkpoint of a team holds its registers, capabilities, masks, lanes, scratch, tags and barriers (R136). -/
structure Holds (cp : Checkpoint) (s : State) (tk : Nat) : Prop where
  vreg : HoldsPart 0 cp.vreg s.g.vreg (vKey (lkOf (gkOf tk 0) 0) 0) (vKey (lkOf (gkOf tk 1024) 0) 0)
  sreg : HoldsPart 0 cp.sreg s.g.sreg (sKey (gkOf tk 0) 0) (sKey (gkOf tk 1024) 0)
  creg : HoldsPart 0 cp.creg s.g.creg (cKey (gkOf tk 0) 0) (cKey (gkOf tk 1024) 0)
  jmask : HoldsPart 0 cp.jmask s.g.jmask (cKey (gkOf tk 0) 0) (cKey (gkOf tk 1024) 0)
  lanes : HoldsPart {} cp.lanes s.g.lanes (lkOf (gkOf tk 0) 0) (lkOf (gkOf tk 1024) 0)
  scratch : HoldsPart 0 cp.scratch s.t.scratch (scrKey tk 0) (scrKey (tk + 1) 0)
  tags : HoldsPart .free cp.tags s.t.tags (tagKey tk 0 0) (tagKey (tk + 1) 0 0)
  bars : HoldsPart {} cp.bars s.t.bars (barKey tk 0) (barKey (tk + 1) 0)

/-- A lane as its checkpoint holds it: after the word, which counts in the windows that are open (R48, R136). -/
def Resumed (l : Lane) : Lane :=
  let x := l.advance
  let ws := x.windows.map (fun w => { w with left := w.left - 1, issued := w.issued + 1 })
  { x with windows := ws.filter (fun w => !(w.left = 0 && w.ev = 0)) }

/-- The tables of a checkpoint list each key once. -/
def Once (cp : Checkpoint) : Prop :=
  keysRise cp.vreg = true ∧ keysRise cp.sreg = true ∧ keysRise cp.creg = true ∧ keysRise cp.jmask = true ∧
  keysRise cp.lanes = true ∧ keysRise cp.scratch = true ∧ keysRise cp.tags = true ∧ keysRise cp.bars = true

end Sys2Proof.Claims

/-- R136, R137: CTXSAVE writes the team's checkpoint to memory and gives 0; the checkpoint holds the team's state with
1 in D and the lanes after the word. CTXLOAD of bytes that are a checkpoint of this launch and team puts that state
back; of other bytes it gives 3. An area below SAVESZ gives 2 and 3. (The bytes of a checkpoint are free values, log
2.)
Completes (exec answers a next state, under conditions on the state and the operands alone): ctxsave, ctxload. -/
def Obligations.Checkpoints : Prop :=
  ∀ (s : State) (c : Bool) (d a : Opc) (ls : List (Loc × Nat)),
    let tk := (s.group s.iss.gk).tk
    let T := s.team tk
    (∀ p ∈ [(Instr.ctxsave c d a, (2 : BitVec 8), (2 : Word)), (.ctxload c d a, 1, 3)], (s.group s.iss.gk).pair = false →
      Covers s (s.heldCap s.iss.gk s.low a.toNat) [1] p.2.1 0 0 → T.saving = none →
      Cap.len (s.heldCap s.iss.gk s.low a.toNat) < (s.kern s.iss.gk).saveSize → Runs s p.1 d (fun _ => .w p.2.2)) ∧
    (Issues s (.ctxsave c d a) → isQ d = false → MayMove s a 2 → AreaAt s a .write ls →
      (∀ p ∈ ls, ∃ x pol, p.1 = .dev x pol false) →
      Goes s (.ctxsave c d a) (fun t => ∃ cp w, t.l = { s.l with checkpoints := s.l.checkpoints ++ [cp] } ∧
        cp.ln = T.ln ∧ cp.team = T.idx ∧ LanesBecome s w (fun _ => Resumed) ∧ DestHolds s w d (fun _ => .w 1) ∧ Holds cp w tk ∧
        AllAdvance s t ∧ DestHolds s t d (fun _ => .w 0) ∧ t.team tk = { T with saving := none } ∧
        ((∀ p ∈ s.o.l1, p.1 / 2 ^ 48 ≠ (s.group s.iss.gk).core) →
          ∀ x, (∀ l ∈ byteLocs ls, ∀ pol, l ≠ .dev x pol false) → devByte t x = devByte s x))) ∧
    (∀ cp bytes, Issues s (.ctxload c d a) → MayMove s a 1 → AreaAt s a .read ls → (∀ p ∈ ls, ∃ x pol, p.1 = .dev x pol false) →
      (∀ l ∈ byteLocs ls, s.hitsPoison l 1 = none) → (s.readLocs (s.group s.iss.gk).core (byteLocs ls)).1 = bytes →
      (s.l.checkpoints.filter (fun x => x.ln == T.ln && x.team == T.idx && x.bytes == bytes)).getLast? = some cp → Once cp →
      Goes s (.ctxload c d a) (fun t => Holds cp t tk ∧ t.o = s.o ∧ t.e = s.e ∧ t.h = s.h ∧ t.l = s.l ∧
        ∀ k, k ≠ tk → t.team k = s.team k)) ∧
    (Issues s (.ctxload c d a) → isQ d = false → MayMove s a 1 → AreaAt s a .read ls → (∀ p ∈ ls, ∃ x pol, p.1 = .dev x pol false) →
      (∀ l ∈ byteLocs ls, s.hitsPoison l 1 = none) →
      (∀ cp ∈ s.l.checkpoints, cp.ln = T.ln → cp.team = T.idx → cp.bytes ≠ (s.readLocs (s.group s.iss.gk).core (byteLocs ls)).1) →
      Goes s (.ctxload c d a) (fun t => AllAdvance s t ∧ DestHolds s t d (fun _ => .w 3) ∧ t.o = s.o ∧ t.t.scratch = s.t.scratch))

namespace Sys2Proof.Claims

/-- MODE, SUM and width w of a pair record (Table 8.1); the words of a staged side (R184). -/
def pairMode (r : BitVec 512) : Nat := field r 2 2
def pairSum (r : BitVec 512) : Nat := field r 4 2
def pairW (r : BitVec 512) : Nat := field r 6 3 + 1
def sideWords (r : BitVec 512) : Nat := if pairMode r = 3 then pairW r + 1 else pairW r

/-- PAIRGO of the lowest lane reads its record (R181): the tag is free, the 64 bytes may be read and stand at a location
whose earlier stores by the group have landed, and no lane is behind an acquire. -/
structure ReadsPair (s : State) (t : Nat) (c : Cap) (off : Nat) (loc : Loc) (r : BitVec 512) : Prop where
  tag : TagFree s t
  alone : (s.group s.iss.gk).pair = false
  granted : Permitted s c [1, 2, 3] 1 off 64
  stands : s.resolve (s.group s.iss.gk).tk (s.group s.iss.gk).core c off 64 .read false false = (.ok loc, s)
  landed : s.ownStores s.iss.gk loc 64 = false
  clean : s.hitsPoison loc 64 = none
  read : s.readNow (s.group s.iss.gk).core loc 64 = (r.toNat, s)
  plain : (s.kern s.iss.gk).det = false
  clear : NoneBehind s

/-- The thread of a pair launch as PAIRGO forks it: its record and the capabilities that it names (R181, R188). -/
def newPair (s : State) (t : Nat) (r : BitVec 512) : Thread :=
  let same := field r 9 1 = 1
  let held (n : Nat) : Cap := s.heldCap s.iss.gk s.low n
  let at_ (lo : Nat) : Cap := held (field r lo 3)
  { newThread s .pair t [] 0 0 [] with pair := {
      record := r, phase := .binning
      caps := [held 0, held 1, held 2, at_ 192, if same then at_ 192 else at_ 256, at_ 320,
               if same then at_ 320 else at_ 323, at_ 326] } }

/-- What makes a record malformed whatever else it holds (R180). -/
def Malformed (k : Kern) (t : Nat) (r : BitVec 512) : Prop :=
  field r 14 6 ≠ t ∨ pairSum r = 3 ∨ (pairMode r = 3 ∧ pairSum r = 2) ∨ field r 13 1 ≠ 0 ∨ field r 28 4 ≠ 0 ∨ field r 62 2 ≠ 0 ∨
  field r 480 32 ≠ 0 ∨ (field r 20 8 ≠ 0 ∧ pairSum r ≠ 2) ∨ (field r 10 1 = 1 ∧ field r 0 2 ≠ 0) ∨
  (field r 11 1 = 1 ∧ field r 0 2 ≠ 1) ∨ field r 224 16 % 4 ≠ 0 ∨ field r 224 16 = 0 ∨ field r 240 16 % 4 ≠ 0 ∨
  k.codelen / 12 ≤ field r 32 30

/-- What PAIRSTAT tells of a tag (R187): of the launch that holds it, the first of the team's on the core, its phase, its
flags and its pair faults not relaunched; where none holds it, what its completion left (R242). -/
def TellsPairs (s : State) (tag : Nat) (v : Word) : Prop :=
  let mine (y : Option Thread) : Bool := match y with
    | some z => z.kind == .pair && z.tk == (s.group s.iss.gk).tk && z.core == (s.group s.iss.gk).core && z.tag == tag
    | none => false
  (∃ th x pre post, s.e.threads = pre ++ (th, some x) :: post ∧ (∀ p ∈ pre, mine p.2 = false) ∧ mine (some x) = true ∧
    let ran := s.t.exact.filter (fun p => p.1 / 2 ^ 32 == th)
    v = BitVec.ofNat 32 ((match x.pair.phase with | .queued => 1 | .binning => 1 | .generating => 2 | .draining => 3) +
      (if x.pair.sat || ran.any (fun p => p.2.sat) then 4 else 0) + (if x.pair.nan || ran.any (fun p => p.2.nan) then 8 else 0) +
      2 ^ 8 * min (2 ^ 24 - 1) x.pair.faults)) ∨
  ((∀ p ∈ s.e.threads, mine p.2 = false) ∧ v = tget 0 s.t.pairDone (tagAt s tag))

end Sys2Proof.Claims

/-- R180, R181, R187, R188: PAIRGO of a record that passes its checks forks a pair launch, whose tag is Held, when Marten
has one of its four places free, and waits else; a malformed record raises BAD_PAIR_RECORD. PAIRSTAT tells each lane of
its own tag: the launch that holds it, or what its completion left; a pair lane raises ILLEGAL_OPERAND on PAIRGO. -/
def Sys2Proof.Claims.PairLaunchWords : Prop :=
  ∀ (s : State) (c : Bool) (t : BitVec 6) (q : BitVec 3) (d a : Opc) (loc : Loc) (r : BitVec 512), let i := Instr.pairgo c t q a
    (Issues s i → ReadsPair s t.toNat (s.heldCap s.iss.gk s.low q.toNat) (s.src s.iss.gk s.low a).toNat loc r →
      (Malformed (s.kern s.iss.gk) t.toNat r → Faults s i (.of fcBAD_PAIR_RECORD)) ∧
      (s.pairCheck s.iss.gk r.toNat (some t.toNat) = none →
        (s.martenUsed (s.group s.iss.gk).core < 4 → Goes s i (fun u => Forked s u (newPair s t.toNat r) ∧ AllAdvance s u ∧
          GroupBecomes s u (Popped s i))) ∧
        (4 ≤ s.martenUsed (s.group s.iss.gk).core → Goes s i (fun u => OnlyLanes s u ∧
          LanesBecome s u (fun _ => Waits .place))))) ∧
    ((s.group s.iss.gk).pair = true → Issues s i → Faults s i (.of fcILLEGAL_OPERAND)) ∧
    (∀ v : Nat → Word, (s.kern s.iss.gk).det = false →
      (∀ l ∈ s.iss.lanes, (s.src s.iss.gk l a).toNat < (s.kern s.iss.gk).tagb ∧ TellsPairs s (s.src s.iss.gk l a).toNat (v l)) →
      Runs s (.pairstat c d a) d (fun l => .w (v l)))

namespace Sys2Proof.Claims

/-- The words that a lane stages with PAIROUT: consecutive v registers from A. -/
def staged (s : State) (l : Nat) (a : Opc) (n : Nat) : List Word := (List.range n).map (fun i => s.vreg s.iss.gk l (a.toNat + i))

/-- The launch of a pair lane. -/
def launchOfPair (s : State) (l : Nat) : Option Thread := s.thread (s.lane (lkOf s.iss.gk l)).pair.th

/-- The side B that an exiting lane of a mode releases (R184, R235): under NEWTON A's words with their signs inverted. -/
def sideB (r : BitVec 512) (p : PairLane) : Option (List Word) :=
  if pairMode r = 0 then p.sideA.map (fun ws => ws.map (fun w => w ^^^ 0x80000000)) else p.sideB

/-- A side on its way to its slot (R235). -/
def sideOf (s : State) (lk : Nat) (x : Thread) (isB : Bool) (ws : List Word) (key : Nat) : Side :=
  let p := (s.lane lk).pair
  { th := p.th, lane := lk, seq := p.seq, isB := isB, words := ws, tk := x.tk, key := key }

/-- The byte of a slot: its region's capability and offset, and the record's index times the slot's bytes (R236). -/
def slotAt (x : Thread) (capNo lo : Nat) (i : Nat) : Nat :=
  let r := x.pair.record
  let bytes := if pairMode r = 3 then 4 * (pairW r + 2) else if pairSum r = 2 then 16 * pairW r else 4 * pairW r
  Cap.base (x.pair.caps.getD capNo 0) + field r lo 32 + i * bytes

end Sys2Proof.Claims

/-- R184, R235, R123: PAIROUT stages the words of a side of a pair lane; a B side of any mode but BILATERAL raises
ILLEGAL_OPERAND, and so does a lane that is of no pair. EXIT of a pair lane ends it and releases each side that it has
staged to its slot, and closes the turn of one that it has not.
Completes (exec answers a next state, under conditions on the state and the operands alone): pairout, exit. -/
def Obligations.PairLanes : Prop :=
  ∀ (s : State) (c : Bool) (a : Opc),
    (∀ b : Bool, Issues s (.pairout c a b) → (s.group s.iss.gk).pair = true → isV a = true →
      (∀ l ∈ s.iss.lanes, ∃ x, launchOfPair s l = some x ∧ a.toNat + sideWords x.pair.record ≤ (s.group s.iss.gk).regs ∧
        (b = true → pairMode x.pair.record = 1)) →
      Goes s (.pairout c a b) (fun t => OnlyLanes s t ∧ LanesBecome s t (fun l y =>
        let ws := staged s l a (match launchOfPair s l with | some x => sideWords x.pair.record | none => 0)
        { y with pair := if b then { y.pair with sideB := some ws } else { y.pair with sideA := some ws } }.advance))) ∧
    (∀ b : Bool, Issues s (.pairout c a b) → ((s.group s.iss.gk).pair = false ∨ isV a = false ∨
        (b = true ∧ ∀ l ∈ s.iss.lanes, ∀ x, launchOfPair s l = some x → pairMode x.pair.record ≠ 1)) →
      Faults s (.pairout c a b) (.of fcILLEGAL_OPERAND)) ∧
    (∀ m x, Issues s (.exit c) → (s.group s.iss.gk).pair = true → s.iss.lanes = [m] → m < 64 → launchOfPair s m = some x →
      let lk := lkOf s.iss.gk m
      let p := (s.lane lk).pair
      let r := x.pair.record
      p.doneA = false → p.doneB = false →
      Goes s (.exit c) (fun t => (t.lane lk).st = .exited ∧ t.t.scratch = s.t.scratch ∧ t.t.acc = s.t.acc ∧
        t.g.vreg = s.g.vreg ∧ t.g.sreg = s.g.sreg ∧ t.o.mem = s.o.mem ∧
        (∀ ws, p.sideA = some ws → tget none t.e.sides s.next = some (sideOf s lk x false ws (slotAt x 5 352 p.a))) ∧
        (p.sideA = none → ∃ y, t.thread p.th = some y ∧ 2 * p.seq ∈ y.pair.closed) ∧
        (pairMode r < 2 → (∀ ws, sideB r p = some ws → tget none t.e.sides (if p.sideA.isSome then s.next + 1 else s.next) =
            some (sideOf s lk x true ws (slotAt x 6 (if field r 9 1 = 1 then 352 else 384) p.b))) ∧
          (sideB r p = none → ∃ y, t.thread p.th = some y ∧ 2 * p.seq + 1 ∈ y.pair.closed))))

/-- R186, R245: PAIRRELAUNCH of a copy of a pair fault record by the handler role: of a FID that names no parked agent it
gives 1 and of one that is no pair 2; a copy marked DROP abandons the pair, with 3; else the lane that faulted ends and the pair
waits to start again from its record, no side staged, with 0. The word is a release at TEAM scope (R275). The status goes to
S(A + 1). -/
def Sys2Proof.Claims.PairRelaunch : Prop :=
  ∀ (s : State) (c : Bool) (q : BitVec 3) (a : Opc) (loc : Loc) (r : BitVec 512), let i := Instr.pairrelaunch c q a
    let cap := s.heldCap s.iss.gk s.low q.toNat
    let off := (s.src s.iss.gk s.low a).toNat
    let core := (s.group s.iss.gk).core
    let tk := (s.group s.iss.gk).tk
    Issues s i → OfHandler s → (s.kern s.iss.gk).det = false → Covers s cap anyType 1 off 64 → off % 64 = 0 → MayRelease s .team →
    s.resolve tk core cap off 64 .read false false = (.ok loc, s) → s.ownStores s.iss.gk loc 64 = false →
    s.hitsPoison loc 64 = none → s.readNow core loc 64 = (r.toNat, s) → isS a = true → a.toNat ≤ 110 →
    (field r 24 8 ≠ 0 ∨ field r 448 64 ≠ 0 → Faults s i (.of fcBAD_PAIR_RECORD)) ∧
    (field r 24 8 = 0 → field r 231 1 = 0 → field r 239 1 = 0 → field r 245 43 = 0 → field r 448 64 = 0 →
      let status (t : State) (v : Word) : Prop := t.sreg s.iss.gk (a.toNat - 95) = v ∧
        (∀ l ∈ s.iss.lanes, t.lane (lkOf s.iss.gk l) = (s.lane (lkOf s.iss.gk l)).advance) ∧ t.g.vreg = s.g.vreg
      (tget none (s.team tk).parked (field r 32 32) = none → Goes s i (fun t => status t 1 ∧ t.e = s.e ∧ t.t = s.t)) ∧
      (∀ l, tget none (s.team tk).parked (field r 32 32) = some { lane := l, pair := false } →
        Goes s i (fun t => status t 2 ∧ t.e = s.e ∧ t.t = s.t)) ∧
      (∀ lk, tget none (s.team tk).parked (field r 32 32) = some { lane := some lk, pair := true } → lk / 64 ≠ s.iss.gk →
        (s.group (lk / 64)).width ≤ 64 → (∀ l ∈ s.iss.lanes, l < 64) →
        Goes s i (fun t => status t (if field r 17 1 = 1 then 3 else 0) ∧ tget none (t.team tk).parked (field r 32 32) = none ∧
          (t.lane lk).st = .exited ∧
          (field r 17 1 = 0 → (t.lane lk).count = 0 ∧ (t.lane lk).pair = { (s.lane lk).pair with
              sideA := none, sideB := none, doneA := field r 242 1 = 1, doneB := field r 243 1 = 1 } ∧
            ∀ x, s.thread (s.lane lk).pair.th = some x → ∃ y, t.thread (s.lane lk).pair.th = some y ∧
              y.pair.faults = x.pair.faults - 1 ∧ ∃ z ∈ y.pair.again, z.lane = lk ∧ z.failed = false))))

namespace Sys2Proof.Claims

/-- A byte of a location that stores reach at once: device memory as all its agents see it, or a team's scratch. -/
def byteOf (s : State) : Loc → Nat
  | .dev a _ _ => devByte s a
  | .scr tk o => scrByte s tk o
  | _ => 0

/-- Such a location. -/
def Direct : Loc → Prop
  | .dev _ _ nc => nc = false
  | .scr _ o => o < 2 ^ 40
  | _ => False

/-- Bytes of a capability that a thread reaches without a wait and without a change of the device: its page is pinned, or
needs no translation, no earlier store of its lane stands over them (R268, R269), and those that it reads are not in another
mapping's dirty copy (R313). -/
def Reaches (s : State) (th : Nat) (x : Thread) (c : Cap) (off n : Nat) (kind : AccKind) (loc : Nat → Loc) : Prop :=
  ∀ j, j < n → Direct (loc j) ∧ s.threadLoc th x c (off + j) 1 kind = (.ok (loc j), s) ∧ s.threadClear th x (loc j) 1 = true ∧
    (kind = .read → s.hitsPoison (loc j) 1 = none ∧ ∀ a pol nc, loc j = .dev a pol nc → NoDirtyCopy s a 1 pol)

/-- A byte that a read brings as it stands: of device memory or scratch, not poisoned, and in no other mapping's dirty copy. -/
def Readable (s : State) (l : Loc) : Prop :=
  Direct l ∧ s.hitsPoison l 1 = none ∧ ∀ a pol nc, l = .dev a pol nc → NoDirtyCopy s a 1 pol

/-- The little-endian value of n bytes. -/
def valueAt (s : State) (loc : Nat → Loc) : Nat → Nat
  | 0 => 0
  | n + 1 => valueAt s loc n + byteOf s (loc n) * 2 ^ (8 * n)

/-- A thread that may take a step of its work, in a launch that is not deterministic. -/
def Working (s : State) (th : Nat) (x : Thread) : Prop :=
  s.thread th = some x ∧ x.status = 0 ∧ x.waits = false ∧ (s.kern x.gk).det = false

/-- One thread changes among the threads. -/
def ThreadBecomes (s t : State) (th : Nat) (P : Thread → Prop) : Prop :=
  (∃ y, t.thread th = some y ∧ P y) ∧ ∀ k, k ≠ th → t.thread k = s.thread k

/-- Bytes from a location on take a value, and no other byte of device memory or scratch changes. -/
def Stored (s t : State) (l : Loc) (n v : Nat) : Prop :=
  ∀ m, Direct m → byteOf t m = if m.space.1 = l.space.1 ∧ l.space.2 ≤ m.space.2 ∧ m.space.2 < l.space.2 + n
    then v / 2 ^ (8 * (m.space.2 - l.space.2)) % 256 else byteOf s m

end Sys2Proof.Claims

/-- R159, R160, R162, R259 step 6: an access of an engine thread. A piece of a copy is read, and its bytes kept; a piece
that has been read, and of an object that is its own source all of them, is written to its destination. A lane's word of
a GATHER is read, of a SCATTER written in the order of the lanes, of a SCATADD added to, each as its own lane's access. -/
def Sys2Proof.Claims.EngineAccesses : Prop :=
  ∀ (s : State) (th item : Nat) (x : Thread), Working s th x →
    let ps := s.pieces x
    let only (t : State) : Prop := t = { s with e := { s.e with threads := t.e.threads } }
    ((x.kind = .copy ∨ x.kind = .copy2d) →
      (∀ p loc, ps[item]? = some p → gotPiece x item p.n = none → Reaches s th x x.caps p.src p.n .read loc →
        Goes s (.engineAccess th item) (fun t => only t ∧ ThreadBecomes s t th (fun y =>
          gotPiece y item p.n = some (valueAt s loc p.n) ∧ y.put = x.put ∧ y.status = 0))) ∧
      (∀ i p v l, item = ps.length + i → ps[i]? = some p → gotPiece x i p.n = some v → i ∉ x.put → Cap.type x.capd ≠ 4 →
        (Cap.type x.capd = Cap.type x.caps → Cap.obj x.capd = Cap.obj x.caps →
          ∀ j q, ps[j]? = some q → (gotPiece x j q.n).isSome = true) →
        Reaches s th x x.capd p.dst p.n .write (Loc.shift l) →
        Goes s (.engineAccess th item) (fun t => Stored s t l p.n v ∧ t.g = s.g ∧
          ThreadBecomes s t th (fun y => y.put = x.put ++ [i] ∧ y.got = x.got ∧ y.status = 0)))) ∧
    (∀ l off v loc, x.kind = .gather → x.lanes[item]? = some (l, off, v) → tget none x.got l = none → item ∉ x.put →
      Reaches s th { x with lane := l } x.caps off 4 .read loc →
      Goes s (.engineAccess th item) (fun t => only t ∧ ThreadBecomes s t th (fun y =>
        tget none y.got l = some (BitVec.ofNat 32 (valueAt s loc 4)) ∧ y.put = x.put ++ [item]))) ∧
    (∀ l off v loc, x.kind = .scatter → x.lanes[item]? = some (l, off, v) → item ∉ x.put → item ≤ x.put.length →
      Reaches s th { x with lane := l } x.capd off 4 .write (Loc.shift loc) →
      Goes s (.engineAccess th item) (fun t => Stored s t loc 4 v.toNat ∧ t.g = s.g ∧
        ThreadBecomes s t th (fun y => y.put = x.put ++ [item]))) ∧
    (∀ l off v loc, (x.kind = .scataddF ∨ x.kind = .scataddB) → x.lanes[item]? = some (l, off, v) → item ∉ x.put →
      s.threadLoc th { x with lane := l } x.capd off 4 .atomic = (.ok loc, s) → (∀ j, j < 4 → Direct (loc.shift j)) →
      s.threadClear th { x with lane := l } loc 4 = true → s.hitsPoison loc 4 = none →
      (∀ a pol nc, loc = .dev a pol nc → NoDirtyCopy s a 4 pol) →
      let old := valueAt s (Loc.shift loc) 4
      Goes s (.engineAccess th item) (fun t => Stored s t loc 4 (if x.kind = .scataddF then canon (fAdd 1 f32 .rne old v.toNat)
        else (old + v.toNat) % 2 ^ 32) ∧ t.g = s.g ∧ ThreadBecomes s t th (fun y => y.put = x.put ++ [item])))

/-- R156, R157, R159, R162: a thread that has done all its work, or failed, and has no byte on its way to a peer or the host,
makes its tag Done with its status, and is gone; a GATHER, in the order of issue, brings its vector to q1. One that has work left goes on: nothing changes. -/
def Sys2Proof.Claims.EngineCompletion : Prop :=
  ∀ (s : State) (th : Nat) (x : Thread), s.thread th = some x → x.kind ≠ .pair → x.kind ≠ .array →
    let onWay := ∃ p ∈ s.o.sbuf, ∃ b, p.2 = some b ∧ b.agent = thAgent th
    let finished := (x.status ≠ 0 ∨ x.put.length = (s.pieces x).length) ∧ ¬ onWay
    let done (t : State) : Prop :=
      t.tagOf x.gk x.tag = .done (if x.status = 0 ∧ x.part = true then 2 else x.status) ∧ t.thread th = none ∧
      (∀ k, k ≠ th → t.thread k = s.thread k) ∧
      (∀ k, k ≠ tagKey (s.group x.gk).tk (s.coreIdx x.gk) x.tag → tget .free t.t.tags k = tget .free s.t.tags k) ∧
      t.g.lanes = s.g.lanes ∧ t.g.vreg = s.g.vreg ∧ t.g.sreg = s.g.sreg ∧ t.o.mem = s.o.mem ∧ t.t.scratch = s.t.scratch
    (¬ finished → exec (.engineComplete th) s = .next s) ∧
    (finished → (s.teamOf x.gk).live = true →
      (x.kind ≠ .gather → Cap.type x.capd ≠ 4 → Goes s (.engineComplete th) (fun t => done t ∧ t.g.groups = s.g.groups)) ∧
      (x.kind = .gather → (∀ p ∈ s.e.threads, p.1 < th → ∀ y, p.2 = some y → y.kind = .gather → y.gk ≠ x.gk) →
        Goes s (.engineComplete th) (fun t => done t ∧ ∀ k, t.group k = if k = x.gk then
          { s.group k with q1fly := (s.group k).q1fly - 1
                           q1 := (s.group k).q1 ++ [x.got.filterMap (fun p => p.2.map (p.1, ·))] } else s.group k)) ∧
      (∀ r p, (x.kind = .copy ∨ x.kind = .copy2d) → x.status = 0 → x.put ≠ [] → Cap.type x.capd = 4 →
        s.regwAt x.tk (Cap.base x.capd + ((x.block.getD 2 0).toNat + (x.block.getD 3 0).toNat * 2 ^ 32)) = some r →
        (s.teamOf r.1).live = true → s.pieces x = [p] → p.n = 4 → (Cap.base x.capd + p.dst) % 4 = 0 → s.regwAt x.tk (Cap.base x.capd + p.dst) = some r →
        let dtag := (x.block.getD 5 0).toNat / 2 ^ 26
        tagKey (s.group r.1).tk (s.coreIdx r.1) dtag ≠ tagKey (s.group x.gk).tk (s.coreIdx x.gk) x.tag →
        Goes s (.engineComplete th) (fun t => t.tagOf r.1 dtag = .done 0 ∧ t.thread th = none ∧ t.g = s.g ∧
          t.t.landing = s.t.landing ++ [{ core := (s.group r.1).core, tk := x.tk, gk := r.1, tag := dtag
                                          key := vKey (lkOf r.1 r.2.1) r.2.2, val := (tget none x.got 0).getD 0 }])))

namespace Sys2Proof.Claims

/-- Fields of the sets of a record: capability place, count, stride, key offset (Table 8.1). -/
def countA (r : BitVec 512) : Nat := field r 196 24
def countB (r : BitVec 512) : Nat := if field r 9 1 = 1 then countA r else field r 260 24
def sidesOf (r : BitVec 512) : Nat := if pairMode r < 2 then 2 else 1

/-- The candidates in generation order (R228): a ascending, b ascending; with SAME only a < b under NEWTON and a ≠ b
elsewhere. -/
def candidatesOf (r : BitVec 512) : List (Nat × Nat) :=
  (List.range (countA r)).flatMap (fun a => ((List.range (countB r)).map (fun b => (a, b))).filter (fun p =>
    if field r 9 1 = 1 then (if pairMode r = 0 then p.1 < p.2 else p.1 ≠ p.2) else true))

/-- What tests 1 to 3 make of a candidate with these keys: v2 to v5 of an accepted pair (R229, R230, Table 9.1). -/
def accepts (r : BitVec 512) (ka kb : Word) : Option (List Word) :=
  match field r 0 2 with
  | 1 => if (ka.toInt - kb.toInt).natAbs ≤ field r 64 32 ∧ (field r 11 1 = 1 → kb.toInt ≤ ka.toInt) then
      some [0, 0, 0, ka - kb] else none
  | 2 => if ka = kb then some [0, 0, 0, 0] else none
  | _ => some [0, 0, 0, 0]

/-- The entry packet of a launch's pair lanes: ENTRY, or the kernel's own where ENTRY is 0 (Table 9.1). -/
def entryOf (k : Kern) (r : BitVec 512) : Nat := if field r 32 30 = 0 then k.pentry else field r 32 30

/-- A thread of a pair launch in a phase. -/
def Marten (s : State) (th : Nat) (x : Thread) (ph : PairPhase) : Prop :=
  s.thread th = some x ∧ x.kind = .pair ∧ x.waits = false ∧ x.pair.phase = ph ∧ (s.team x.tk).stops = false ∧
  (s.team x.tk).saved = false

end Sys2Proof.Claims

/-- R182, R183, R228-R234, R268: Marten. A queued command takes a launch place in order. A key that binning needs is
read as an access of the launch's thread. Binning, once every word is read, fixes the accepted pairs in generation
order (here tests 1 to 3 without an exclusion object). The next run of accepted pairs, as many as a group is wide,
becomes a pair group: each lane stands at the entry with v0 to v5.
Completes (exec answers a next state, under conditions on the state and the operands alone): engineAccess,
martenBinning, pairGroupStart. -/
def Obligations.MartenSteps : Prop :=
  ∀ (s : State) (th : Nat) (x : Thread),
    let r := x.pair.record
    let T := s.team x.tk
    (Marten s th x .queued → s.martenUsed x.core < 4 → (∀ p ∈ s.e.threads, p.1 < th → ∀ y, p.2 = some y → y.kind = .pair →
        y.core = x.core → y.pair.phase ≠ .queued) →
      Goes s (.martenBinning th) (fun t => t = s.setThread th (some { x with pair := { x.pair with phase := .binning } }))) ∧
    (Marten s th x .binning → field r 12 1 = 0 → field r 0 2 = 3 →
      let ps : List Pair := (candidatesOf r).map (fun p => ⟨p.1, p.2, [0, 0, 0, 0]⟩)
      Goes s (.martenBinning th) (fun t => t = s.setThread th (some { x with got := [], pins := [], pair := { x.pair with
        pairs := ps, phase := if ps = [] then .draining else .generating } }))) ∧
    (∀ i loc, Marten s th x .binning → (field r 0 2 = 1 ∨ field r 0 2 = 2) → i < countA r → (s.kern x.gk).det = false →
      tget none x.got (2 * 2 ^ 32 + i) = none →
      Reaches s th x (x.pair.caps.getD 3 0) (i * field r 224 16 + field r 240 16) 4 .read loc →
      Goes s (.engineAccess th (2 * 2 ^ 32 + i)) (fun t => t = { s with e := { s.e with threads := t.e.threads } } ∧
        ThreadBecomes s t th (fun y => tget none y.got (2 * 2 ^ 32 + i) = some (BitVec.ofNat 32 (valueAt s loc 4)) ∧
          y.pair = x.pair))) ∧
    (∀ ka kb : List Word, Marten s th x .binning → field r 12 1 = 0 → (field r 0 2 = 1 ∨ field r 0 2 = 2) →
      ka.length = countA r → kb.length = countB r →
      (∀ i, i < countA r → tget none x.got (2 * 2 ^ 32 + i) = some (ka.getD i 0)) →
      (field r 9 1 = 1 → kb = ka) → (field r 9 1 = 0 → ∀ i, i < countB r → tget none x.got (3 * 2 ^ 32 + i) = some (kb.getD i 0)) →
      let ps := (candidatesOf r).filterMap (fun p => (accepts r (ka.getD p.1 0) (kb.getD p.2 0)).map (fun v => (⟨p.1, p.2, v⟩ : Pair)))
      Goes s (.martenBinning th) (fun t => t = s.setThread th (some { x with got := [], pins := [], pair := { x.pair with
        pairs := ps, phase := if ps = [] then .draining else .generating } }))) ∧
    (∀ part base, Marten s th x .generating → T.kern.width ≤ 64 → (∀ p ∈ x.pair.pairs, p.v.length = 4) →
      let run := (x.pair.pairs.drop x.pair.next).take T.kern.width
      let gk := gkOf x.tk (1024 + T.npair)
      let cap (n : Nat) : Cap := x.pair.caps.getD n 0
      s.pairLanes x.core + run.length ≤ 2048 → (pairSum r = 1 → s.windowUsed x.core + sidesOf r * run.length ≤ 4096) →
      s.groupRoom x.core T.kern.width T.kern.pregs = some (part, base) →
      Goes s (.pairGroupStart th) (fun t =>
        t.group gk = { tk := x.tk, idx := 1024 + T.npair, pair := true, role := 4, width := T.kern.width, regs := T.kern.pregs
                       core := x.core, part := part, regBase := base, born := s.next, codeView := s.o.stamp } ∧
        (∀ k, k ≠ gk → t.group k = s.group k) ∧ t.team x.tk = { T with npair := T.npair + 1 } ∧
        (∀ i p, run[i]? = some p →
          t.lane (lkOf gk i) = { st := .ready, pkt := entryOf T.kern r, codeFloor := s.o.stamp
                                 pair := { th := th, seq := x.pair.next + i, a := p.a, b := p.b } } ∧
          t.vreg gk i 0 = BitVec.ofNat 32 p.a ∧ t.vreg gk i 1 = BitVec.ofNat 32 p.b ∧
          ∀ j, j < 4 → t.vreg gk i (2 + j) = p.v.getD j 0) ∧
        (∀ k, (∀ i, i < run.length → k ≠ lkOf gk i) → t.lane k = s.lane k) ∧
        (t.creg gk 0 = cap 0 ∧ t.creg gk 1 = cap 1 ∧ t.creg gk 2 = cap 2 ∧ t.creg gk 4 = cap 3 ∧ t.creg gk 5 = cap 4) ∧
        t.thread th = some { x with pair := { x.pair with
          next := x.pair.next + run.length
          phase := if x.pair.pairs.length ≤ x.pair.next + run.length then .draining else .generating } } ∧
        t.o.mem = s.o.mem ∧ t.t.scratch = s.t.scratch ∧ t.t.acc = s.t.acc))

namespace Sys2Proof.Claims

/-- A word of a team's accumulator region on the core of a thread. -/
def accWord (s : State) (x : Thread) (byte : Nat) : Nat := s.accRead x.tk (s.coreIdx x.gk) byte 4

/-- Every pair of a launch has ended and every side is applied (R242). -/
def Drained (s : State) (th : Nat) (x : Thread) : Prop :=
  s.thread th = some x ∧ x.kind = .pair ∧ x.pair.phase = .draining ∧ x.pair.again = [] ∧
  (∀ p ∈ s.e.sides, ∀ sd, p.2 = some sd → sd.th ≠ th) ∧ ∀ p ∈ s.g.lanes, p.2.st = .exited ∨ p.2.pair.th ≠ th

/-- The 16 bytes of a finished EXACT word: the sum saturated, rounded once, with its flags (R40, R239). -/
def exactBytes (e : Exact) (x : Int) : Nat :=
  let n := max (-(2 ^ 127)) (min (2 ^ 127 - 1) e.sum)
  (if e.nan then 0x7FC00000 else (f32.round .rne (.fin (n < 0) n.natAbs x)).bits) +
    2 ^ 32 * ((if e.sat ∨ n ≠ e.sum then 1 else 0) + (if e.nan then 2 else 0))

end Sys2Proof.Claims

/-- R237-R242, R185: Beaver applies a side to its slot, one FP32 add for each word under ARRIVAL, and acknowledges it;
a CANONICAL side waits for the earlier sides of its slot. EXACT_FINISH rewrites each slot word of a drained EXACT
launch (here one that no other EXACT launch has met there, R241). A drained launch makes its tag Done. A pair lane
that would run more than 4,096 words takes PAIR_LIMIT.
Completes (exec answers a next state, under conditions on the state and the operands alone): pairLimit, sideApply,
exactFinish, pairLaunchComplete. -/
def Obligations.BeaverSteps : Prop :=
  ∀ (s : State) (id th gk l : Nat) (sd : Side) (x : Thread),
    let r := x.pair.record
    let key := tagKey (s.group x.gk).tk (s.coreIdx x.gk) x.tag
    (tget none s.e.sides id = some sd → s.thread sd.th = some x → pairSum r = 0 → pairMode r ≠ 3 → sd.key + 4 * pairW r ≤ 2 ^ 24 →
      Goes s (.sideApply id) (fun t =>
        (∀ i, i < pairW r → accWord t x (sd.key + 4 * i) =
          canon (fAdd 1 f32 .rne (accWord s x (sd.key + 4 * i)) (sd.words.getD i 0).toNat)) ∧
        (∀ k b, b < 2 ^ 24 → ¬ (k = coreKey x.tk (s.coreIdx x.gk) ∧ sd.key ≤ b ∧ b < sd.key + 4 * pairW r) →
          tget 0 t.t.acc (k * 2 ^ 24 + b) = tget 0 s.t.acc (k * 2 ^ 24 + b)) ∧
        tget none t.e.sides id = none ∧ (∀ k, k ≠ id → tget none t.e.sides k = tget none s.e.sides k) ∧ t.g = s.g ∧ t.o = s.o ∧
        ∃ y, t.thread sd.th = some y ∧ 2 * sd.seq + (if sd.isB then 1 else 0) ∈ y.pair.closed)) ∧
    (tget none s.e.sides id = some sd → s.thread sd.th = some x → pairSum r = 1 → pairMode r ≥ 2 →
      (∃ q p, q < sd.seq ∧ x.pair.pairs[q]? = some p ∧ slotAt x 5 352 p.a = sd.key ∧ 2 * q ∉ x.pair.closed) →
      exec (.sideApply id) s = .next s) ∧
    (Drained s th x → pairSum r = 2 → x.pair.finished = false → pairMode r = 2 →
      (∀ i j, i < countA r → j < pairW r → let b := slotAt x 5 352 i + 16 * j
        let e := s.exactOf th x.tk (s.coreIdx x.gk) b
        s.exactRivals th x b = [] ∧ e.other = 0 ∧ e.osat = false ∧ e.onan = false) →
      Goes s (.exactFinish th) (fun t => t.g = s.g ∧ t.o = s.o ∧
        (∀ i j, i < countA r → j < pairW r → let b := slotAt x 5 352 i + 16 * j
          t.accRead x.tk (s.coreIdx x.gk) b 16 =
            exactBytes (s.exactOf th x.tk (s.coreIdx x.gk) b) (BitVec.ofNat 8 (field r 20 8)).toInt) ∧
        ∃ y, t.thread th = some y ∧ y.pair.finished = true)) ∧
    (Drained s th x → (pairSum r = 2 → x.pair.finished = true) → (s.teamOf x.gk).live = true →
      Goes s (.pairLaunchComplete th) (fun t => t.thread th = none ∧ (∀ k, k ≠ th → t.thread k = s.thread k) ∧
        tget .free t.t.tags key = .done (if x.pair.bad then 1 else 0) ∧
        (∀ k, k ≠ key → tget .free t.t.tags k = tget .free s.t.tags k) ∧ t.g = s.g ∧ t.o.mem = s.o.mem ∧ t.t.acc = s.t.acc)) ∧
    ((s.group gk).pair = true → l < 64 → 4096 ≤ (s.lane (lkOf gk l)).count → liveLane (s.lane (lkOf gk l)) = true →
      exec (.pairLimit gk l) s = .next (s.raise (lkOf gk l) { pkt := (s.lane (lkOf gk l)).pkt, slot := (s.lane (lkOf gk l)).slot }
        (.of fcPAIR_LIMIT))) ∧
    ((s.lane (lkOf gk l)).count < 4096 → exec (.pairLimit gk l) s = .next s)

namespace Sys2Proof.Claims

/-- Only the sequencer of the running team changes, and becomes q. -/
def SeqBecomes (s t : State) (q : Seq) : Prop :=
  t = { s with t := { s.t with teams := t.t.teams } } ∧ ∀ k, t.team k = if k = s.cur then { s.team k with seq := q } else s.team k

/-- The sequencer stands at an M-word, and waits no more. -/
def standsAt (q : Seq) (idx : Nat) : Seq := { q with idx := idx, waiting := false, miss := none }

/-- M-words that open and that close a loop (R204). -/
def opensLoop (w : Word) : Bool := w.toNat / 2 ^ 26 = 0x09
def closesLoop (w : Word) : Bool := w.toNat / 2 ^ 26 = 0x0A

/-- M-word j closes the loop whose first word is a. -/
def Closes (ws : Nat → Word) (a j : Nat) : Prop :=
  let count (p : Word → Bool) (hi : Nat) : Nat := ((List.range (hi - a)).filter (fun i => p (ws (a + i)))).length
  a ≤ j ∧ closesLoop (ws j) = true ∧ count opensLoop j = count closesLoop j ∧
  ∀ k, a ≤ k → k ≤ j → count closesLoop k ≤ count opensLoop k

/-- An M-word that faults: the sequencer takes the fault (R60, R207), and nothing else happens. -/
def SeqFaults (s : State) (i : Instr) (code : Nat) : Prop := exec i s = .next (s.raiseSeq s.cur (.of code))

/-- The sequencer waits at its word. -/
def SeqWaits (s : State) (i : Instr) : Prop :=
  Goes s i (fun t => SeqBecomes s t { s.seq with waiting := true, miss := none })

end Sys2Proof.Claims

/-- R204, R206: MSET and MADD write m(A); MLOOP runs its body n or m(A) times, none at all for 0, when it goes on after the
matching MEND; at most four loops nest. MEXIT waits for the sequencer's operations, then releases its slot names. -/
def Sys2Proof.Claims.StreamControl : Prop :=
  ∀ (s : State) (a : BitVec 4) (n : BitVec 22),
    let q := s.seq
    let next (m : Tbl Word) : Seq := { standsAt q (q.idx + 1) with m := m }
    let times : Nat := if n.toInt = 0 then (s.mreg a).toNat else n.toNat
    let sets (i : Instr) (v : Word) : Prop := Goes s i (fun t => ∃ m, SeqBecomes s t (next m) ∧
      ∀ r : BitVec 4, t.mreg r = if r = a then v else s.mreg r)
    sets (.mset a n) (BitVec.ofInt 32 n.toInt) ∧
    sets (.madd a n) (BitVec.ofInt 32 ((s.mreg a).toInt + n.toInt)) ∧
    (0 ≤ n.toInt → q.loops.length < 4 → times ≠ 0 → Goes s (.mloop a n) (fun t =>
      SeqBecomes s t { standsAt q (q.idx + 1) with loops := { start := q.idx + 1, left := times } :: q.loops })) ∧
    (∀ ws j, 0 ≤ n.toInt → q.loops.length < 4 → times = 0 → Closes ws (q.idx + 1) j → j < (s.team s.cur).kern.mslen / 4 →
      (∀ k, q.idx < k → k ≤ j → s.mwordAt s.cur k = (.ok (ws k), s)) →
      Goes s (.mloop a n) (fun t => SeqBecomes s t (standsAt q (j + 1)))) ∧
    (n.toInt < 0 ∨ 4 ≤ q.loops.length → SeqFaults s (.mloop a n) fcILLEGAL_OPERAND) ∧
    (q.loops = [] → SeqFaults s .mend fcILLEGAL_OPERAND) ∧
    (∀ l ls, q.loops = l :: ls → Goes s .mend (fun t => SeqBecomes s t (if l.left ≤ 1 then { standsAt q (q.idx + 1) with loops := ls }
      else { standsAt q l.start with loops := { l with left := l.left - 1 } :: ls }))) ∧
    (s.seqOps = true → SeqWaits s .mexit) ∧
    (s.seqOps = false → Goes s .mexit (fun t =>
      t = { s with t := { s.t with teams := t.t.teams, slots := t.t.slots } } ∧
      (∀ k, t.team k = if k = s.cur then { s.team k with seq := { q with st := .exited } } else s.team k) ∧
      ∀ k, tget none t.t.slots k = if k / 64 = 4 * s.cur then none else tget none s.t.slots k))

/-- R205, R209: MBARARR is one arrival at a barrier, and gives its generation, once the sequencer's operations have
finished, which it then joins, and its stores are visible to the team; MBARWAIT goes on when the generation is no longer m(A). MPOST, which waits as MBARARR does, posts the store of m(A) to
byte m(B) of the lead's c1, a scratch capability, as a release at TEAM scope. -/
def Sys2Proof.Claims.StreamBarriers : Prop :=
  ∀ (s : State) (a b : BitVec 4) (n : BitVec 22),
    let q := s.seq
    let k := n.toNat
    let bar := s.bar s.cur k
    let ready := s.seqOps = false ∧ s.relReady .team (seqAgent s.cur) = true
    let onlyBars (t : State) : Prop := t = { s with t := { s.t with teams := t.t.teams, bars := t.t.bars, tagWrote := t.t.tagWrote }
                                                    o := Moved s t, free := t.free }
    let c := s.creg (gkOf s.cur 0) 1
    let off := (s.mreg b).toNat
    (n.toInt < 0 ∨ 16 ≤ n.toInt → SeqFaults s (.mbararr a n) fcILLEGAL_OPERAND ∧ SeqFaults s (.mbarwait a n) fcILLEGAL_OPERAND) ∧
    (0 ≤ n.toInt → n.toInt < 16 →
      (¬ ready → SeqWaits s (.mbararr a n)) ∧
      (ready → bar.expected = 0 → SeqFaults s (.mbararr a n) fcBARRIER_STATE) ∧
      (ready → bar.expected ≠ 0 → Goes s (.mbararr a n) (fun t => onlyBars t ∧ t.bar s.cur k = oneMore bar ∧
        (∀ j m, m < 16 → ¬ (j = s.cur ∧ m = k) → t.bar j m = s.bar j m) ∧ t.seq = { standsAt q (q.idx + 1) with m := t.seq.m } ∧
        ∀ r : BitVec 4, t.mreg r = if r = a then bar.gen else s.mreg r)) ∧
      (bar.gen ≠ s.mreg a → Goes s (.mbarwait a n) (fun t => onlyBars t ∧ t.t.bars = s.t.bars ∧ t.seq = standsAt q (q.idx + 1))) ∧
      (bar.gen = s.mreg a → s.lanesGone s.cur = true → SeqFaults s (.mbarwait a n) fcBARRIER_STATE) ∧
      (bar.gen = s.mreg a → s.lanesGone s.cur = false → SeqWaits s (.mbarwait a n))) ∧
    (∀ loc, Cap.type c = tSCR → capOk c = true → hasRights c rW = true → off + 4 ≤ Cap.len c → Cap.base c + off + 4 ≤ 2 ^ 40 → off % 4 = 0 →
      (s.resolve s.cur ((s.team s.cur).cores.headD 0) c off 4 .write false false).1 = .ok loc →
      (s.seqOps = true → SeqWaits s (.mpost a b)) ∧ (s.seqOps = false → Goes s (.mpost a b) (fun t => t.t.scratch = s.t.scratch ∧ t.g = s.g ∧ t.o.mem = s.o.mem ∧ t.seq = standsAt q (q.idx + 1) ∧
        (∀ j, j ≠ s.next → tget none t.o.pend j = tget none s.o.pend j) ∧
        ∃ e, tget none t.o.pend s.next = some e ∧ e.agent = seqAgent s.cur ∧ e.kind = .store ∧ e.loc = loc ∧ e.size = 4 ∧
          e.val.toNat = (s.mreg a).toNat ∧ e.rel = some .team ∧ e.acq = none))) ∧
    (Cap.type c = tSCR → capOk c = true → hasRights c rW = true → Cap.len c < off + 4 →
      exec (.mpost a b) s = .next (s.raiseSeq s.cur (capFault fcCAP_BOUNDS c off))) ∧
    (Cap.type c = tSCR → capOk c = true → hasRights c rW = true → off + 4 ≤ Cap.len c → Cap.base c + off + 4 ≤ 2 ^ 40 → off % 4 ≠ 0 →
      exec (.mpost a b) s = .next (s.raiseSeq s.cur (capFault fcMISALIGNED c off)))

namespace Sys2Proof.Claims

/-- The lowest core of the running team, where its sequencer works (R189), and a slot name of the sequencer there. -/
def seqCore (s : State) : Nat := (s.team s.cur).cores.headD 0
def nameOf (s : State) (n : Nat) : Option OSlot := tget none s.t.slots (slotKey s.cur 0 n)
/-- An accumulator region of the running team on that core. -/
def regionOf (s : State) (r : Nat) : Region := tget {} s.t.regions (regionKey s.cur 0 r)

/-- A place of the array FIFO is free. -/
def FifoRoom (s : State) : Prop := s.fifoUsed (seqCore s) < 32 ∧ s.q3Held 0 = 0

/-- An entry that the sequencer makes: not started, of no barrier, in the order of the FIFO by its number. -/
def entryOfSeq (s : State) (k : ArrKind) : ArrOp :=
  { tk := s.cur, gk := 0, core := seqCore s, kind := k, record := 0, prog := [], caps := [], pins := [], started := false, row := 0
    finished := false, bar := none, agent := seqAgent s.cur, ord := s.next, wrote := [] }

/-- The sequencer has put an entry in the array FIFO and gone on; names and region kinds may have changed. The entry starts
with the history of its issuer (R209). -/
structure Enters (s t : State) (x : ArrOp) : Prop where
  entry : tget none t.e.fifo s.next = some x
  others : ∀ k, k ≠ s.next → tget none t.e.fifo k = tget none s.e.fifo k
  served : t.e = { s.e with fifo := t.e.fifo, served := t.e.served } ∧
    ∀ c, tget 0 t.e.served c = if c = seqCore s then x.issuer else tget 0 s.e.served c
  seq : ∀ k, t.team k = if k = s.cur then { s.team k with seq := standsAt s.seq (s.seq.idx + 1) } else s.team k
  hist : ∀ i ∈ s.hist (seqAgent s.cur), ((tget none s.o.cbuf i).isSome = true ∨ (tget none s.o.sbuf i).isSome = true) →
    i ∈ t.hist (thAgent s.next)
  rest : t.g = s.g ∧ t.o.mem = s.o.mem ∧ t.t.scratch = s.t.scratch ∧ t.t.acc = s.t.acc ∧ t.t.slotCode = s.t.slotCode ∧
    t.t.slotScale = s.t.slotScale ∧ t.t.tags = s.t.tags ∧ t.t.bars = s.t.bars

/-- Every name is as it was but those from a up, n of them; every region but r. -/
def NamesKept (s t : State) (a n : Nat) : Prop := ∀ k, ¬ (slotKey s.cur 0 a ≤ k ∧ k < slotKey s.cur 0 a + n) →
  tget none t.t.slots k = tget none s.t.slots k
def RegionsKept (s t : State) (r : Option Nat) : Prop := ∀ k, r.map (regionKey s.cur 0) ≠ some k → tget {} t.t.regions k = tget {} s.t.regions k

/-- Integer element formats without a block scale, and class-free slots, may feed INT32 accumulation (R38, R198). -/
def IntReady (k : Kern) (x : OSlot) : Prop :=
  x.cls = .free ∨ ((x.cls = .narrow8 ∨ x.cls = .narrow4) ∧ (k.fmt x.fmt).e = 0 ∧ (k.fmt x.fmt).blockLen = 0)

/-- What TMMA asks of its slots and region (R199). -/
def MmaFits (s : State) (xa xb : OSlot) (r : Nat) (u i : Bool) : Prop :=
  let k := (s.team s.cur).kern
  r < k.accb ∧ (xa.cls = .free ∨ xb.cls = .free ∨ xa.cls = xb.cls) ∧ (i = true → IntReady k xa ∧ IntReady k xb) ∧
  (u = true → i = true) ∧ ((regionOf s r).kind = .empty ∨ (regionOf s r).kind = if i then .int32 else .float)

end Sys2Proof.Claims

/-- R190, R196, R198, R199: TCLAIM binds names to free slots within the budget, TRELEASE unbinds them, TZERO makes a slot
class-free or a region empty, TMMA gives its region a kind; each enters the array FIFO with what its names stand for now,
and the sequencer goes on. It waits while the FIFO is full. -/
def Sys2Proof.Claims.ArrayWords : Prop :=
  ∀ (s : State) (a b c : BitVec 4) (n : Opc) (u i : Bool) (xa xb : OSlot),
    let k := (s.team s.cur).kern
    let na := (s.mreg a).toNat
    let nb := (s.mreg b).toNat
    let r := (s.mreg c).toNat
    let by_ := s.bySeq s.cur
    let names := 0 < n.toNat ∧ na + n.toNat ≤ 64
    (names → (∀ j, j < n.toNat → nameOf s (na + j) = none) → s.boundSlots by_ + s.unreturned by_ + n.toNat ≤ k.opndb →
      (FifoRoom s → Goes s (.tclaim a n) (fun t => Enters s t (entryOfSeq s (.claim n.toNat)) ∧ RegionsKept s t none ∧
        (∀ j, j < n.toNat → ∃ m, nameOf t (na + j) = some { phys := s.next + 1 + j, num := m } ∧
          (j = 0 → m = s.freeNum (seqCore s))) ∧ NamesKept s t na n.toNat)) ∧
      (¬ FifoRoom s → SeqWaits s (.tclaim a n))) ∧
    (names → (∀ j, j < n.toNat → nameOf s (na + j) = none) → s.boundSlots by_ + n.toNat ≤ k.opndb →
      k.opndb < s.boundSlots by_ + s.unreturned by_ + n.toNat → SeqWaits s (.tclaim a n)) ∧
    (∀ f : Nat → OSlot, names → (∀ j, j < n.toNat → nameOf s (na + j) = some (f j)) → FifoRoom s →
      Goes s (.trelease a n) (fun t => Enters s t (entryOfSeq s (.release ((List.range n.toNat).map (fun j => (f j).phys)))) ∧
        RegionsKept s t none ∧ (∀ j, j < n.toNat → nameOf t (na + j) = none) ∧ NamesKept s t na n.toNat)) ∧
    (r < k.accb → r < 32 → FifoRoom s → Goes s (.tzero c) (fun t => Enters s t (entryOfSeq s (.zeroRegion r)) ∧
      regionOf t r = { regionOf s r with kind := .empty } ∧ RegionsKept s t (some r) ∧ t.t.slots = s.t.slots)) ∧
    (na < 64 → nameOf s na = some xa → FifoRoom s → Goes s (.tzeroSlot a) (fun t => Enters s t (entryOfSeq s (.zeroSlot xa.phys)) ∧
      nameOf t na = some { xa with cls := .free, fmt := 0 } ∧ NamesKept s t na 1 ∧ RegionsKept s t none)) ∧
    (na < 64 → nb < 64 → nameOf s na = some xa → nameOf s nb = some xb → MmaFits s xa xb r u i → FifoRoom s →
      Goes s (.tmma a b c u i) (fun t =>
        Enters s t (entryOfSeq s (.mma xa.phys xb.phys xa.fmt xb.fmt xa.cls xb.cls r i u)) ∧ t.t.slots = s.t.slots ∧
        regionOf t r = { regionOf s r with kind := if i then .int32 else .float } ∧ RegionsKept s t (some r)))

/-- R60, R190, R197-R199, R207: the sequencer takes ILLEGAL_OPERAND for names or regions outside their range and for slots
or a region that TMMA may not combine, SLOT_STATE for a name claimed twice or not bound, OPND_BUDGET beyond the budget.
Without a handler role the record goes to the host, the launch is marked and the sequencer stops. -/
def Sys2Proof.Claims.ArrayWordFaults : Prop :=
  ∀ (s : State) (a b c : BitVec 4) (n : Opc) (u i : Bool) (f : BitVec 3) (p : BitVec 5) (kp : BitVec 4) (xa xb : OSlot),
    let k := (s.team s.cur).kern
    let na := (s.mreg a).toNat
    let nb := (s.mreg b).toNat
    let r := (s.mreg c).toNat
    let names := 0 < n.toNat ∧ n.toNat ≤ 64 ∧ na + n.toNat ≤ 64
    (¬ names → SeqFaults s (.tclaim a n) fcILLEGAL_OPERAND ∧ SeqFaults s (.trelease a n) fcILLEGAL_OPERAND) ∧
    (names → (∃ j, j < n.toNat ∧ nameOf s (na + j) ≠ none) → SeqFaults s (.tclaim a n) fcSLOT_STATE) ∧
    (names → (∃ j, j < n.toNat ∧ nameOf s (na + j) = none) → SeqFaults s (.trelease a n) fcSLOT_STATE) ∧
    (names → (∀ j, j < n.toNat → nameOf s (na + j) = none) → k.opndb < s.boundSlots (s.bySeq s.cur) + n.toNat →
      SeqFaults s (.tclaim a n) fcOPND_BUDGET) ∧
    (k.accb ≤ r → SeqFaults s (.tzero c) fcILLEGAL_OPERAND) ∧
    (64 ≤ na → SeqFaults s (.tzeroSlot a) fcILLEGAL_OPERAND ∧ SeqFaults s (.tmma a b c u i) fcILLEGAL_OPERAND ∧
      SeqFaults s (.tload a b f kp) fcILLEGAL_OPERAND) ∧
    (na < 64 → nameOf s na = none → SeqFaults s (.tzeroSlot a) fcSLOT_STATE ∧ SeqFaults s (.tmma a b c u i) fcSLOT_STATE ∧
      SeqFaults s (.tload a b f kp) fcSLOT_STATE) ∧
    (na < 64 → nameOf s na = some xa → 64 ≤ nb → SeqFaults s (.tmma a b c u i) fcILLEGAL_OPERAND) ∧
    (na < 64 → nameOf s na = some xa → nb < 64 → nameOf s nb = none → SeqFaults s (.tmma a b c u i) fcSLOT_STATE) ∧
    (na < 64 → nameOf s na = some xa → nb < 64 → nameOf s nb = some xb → ¬ MmaFits s xa xb r u i →
      SeqFaults s (.tmma a b c u i) fcILLEGAL_OPERAND) ∧
    (k.accb ≤ r ∨ k.epicount ≤ p.toNat → SeqFaults s (.tdrain b c f p) fcILLEGAL_OPERAND) ∧
    (∀ m e, s.epiProgram (seqCore s) k p.toNat = (.bad m, e) → r < k.accb → p.toNat < k.epicount →
      exec (.tdrain b c f p) s = .next (s.raiseSeq s.cur { code := fcILLEGAL_ENCODING, detail := m })) ∧
    (∀ e : FaultInfo, k.handler = none →
      let t := s.raiseSeq s.cur e
      (t.team s.cur).seq.st = .exited ∧ (t.team s.cur).nextFid = (s.team s.cur).nextFid + 1 ∧
      (t.launchOf (s.team s.cur).ln).faulted = true ∧ t.g = s.g ∧ t.o = s.o ∧
      ∃ v, t.h = { s.h with events := s.h.events ++ [{ kind := 1, ctx := BitVec.ofNat 32 k.ctx, payload := v, need := [] }] } ∧
        field v 0 16 = e.code % 2 ^ 16 ∧ field v 32 32 = (s.team s.cur).nextFid % 2 ^ 32 ∧ field v 130 30 = s.seq.idx % 2 ^ 30 ∧
        field v 25 2 = 1 ∧ field v 160 16 = 0xFFFF) ∧
    (∀ e : FaultInfo, k.handler ≠ none →
      let t := s.raiseSeq s.cur e
      let T := s.team s.cur
      t = { s with t := { s.t with teams := t.t.teams } } ∧ (∀ j, j ≠ s.cur → t.team j = s.team j) ∧
      (t.team s.cur).seq = { s.seq with st := .parked T.nextFid } ∧ (t.team s.cur).nextFid = T.nextFid + 1 ∧
      ∃ v : BitVec 512, field v 0 16 = e.code % 2 ^ 16 ∧ field v 32 32 = T.nextFid % 2 ^ 32 ∧ field v 130 30 = s.seq.idx % 2 ^ 30 ∧
        (t.team s.cur).fq ++ (t.team s.cur).fwait = T.fq ++ T.fwait ++ [v])

namespace Sys2Proof.Claims

/-- Bits of a record. -/
def part (r lo w : Nat) : Nat := r / 2 ^ lo % 2 ^ w

/-- Rows of K elements in a format: its bytes (R192); what the operand record and TLOAD must hold (R194, R197). -/
def rowBytesOf (f : Fmt) (n : Nat) : Nat := if f.plane then (n + 63) / 64 * (8 * f.width) else (elemBits f * n + 7) / 8
/-- The scales of a row: one for every block of the format, the last as far as the row goes (R29). -/
def scalesOf (f : Fmt) : Nat := (depthOf f.cls + f.blockLen - 1) / f.blockLen
def LoadFits (k : Kern) (f planes r : Nat) : Prop :=
  let fm := k.fmt f
  part r 224 32 = 0 ∧ part r 102 26 = 0 ∧ k.fmtEmpty f = false ∧ planes ≤ fm.width ∧ (planes ≠ 0 → fm.plane = true) ∧
  rowBytesOf fm (depthOf fm.cls) ≤ part r 64 32

/-- The extents of a TLOAD: 128 rows of elements, and of scales where the format has a block scale. -/
def loadExts (k : Kern) (f r : Nat) : List Ext :=
  let fm := k.fmt f
  { cap := 0, need := rR, kind := .read, off := part r 0 64, rows := 128, bytes := rowBytesOf fm (depthOf fm.cls), stride := part r 64 32 } ::
  if fm.blockLen = 0 then [] else
    [{ cap := 1, need := rR, kind := .read, off := part r 128 64, rows := 128, bytes := 2 * scalesOf fm
       stride := part r 192 32 }]

/-- An E-word of a program. -/
def Uses (ws : List Word) (p : Instr → Prop) : Prop := ∃ w ∈ ws, ∃ i, decodeE w = .ok i ∧ p i

/-- What a drain record and TDRAIN must hold (R194, R200, R203). -/
def DrainFits (k : Kern) (f d : Nat) (ws : List Word) : Prop :=
  let dk := part d 99 2
  let fm := k.fmt f
  part d 224 32 = 0 ∧ part d 104 24 = 0 ∧ dk ≠ 3 ∧ (dk = 1 → k.fmtEmpty f = false ∧ fm.kind = .narrow ∧ fm.blockLen = 0) ∧
  ¬ Uses ws (fun i => ∃ x y g, i = .ecvt x y g ∧ (k.fmtEmpty g.toNat = true ∨ (k.fmt g.toNat).kind ≠ .narrow)) ∧
  (dk = 0 → 512 ≤ part d 64 32) ∧ (dk = 1 → rowBytesOf fm 128 ≤ part d 64 32)

/-- The extents of a TDRAIN: 128 rows of the destination, the vector block, the amax word. -/
def drainExts (k : Kern) (f d : Nat) (v a : Bool) : List Ext :=
  let dk := part d 99 2
  (if dk = 2 then [] else [{ cap := 0, need := rW, kind := .write, off := part d 0 64, rows := 128
                             bytes := if dk = 0 then 512 else rowBytesOf (k.fmt f) 128, stride := part d 64 32 }]) ++
  (if v then [{ cap := 1, need := rR, kind := .read, off := part d 192 32, rows := 1, bytes := 1024, stride := 0 }] else []) ++
  (if a then [{ cap := 2, need := rA, kind := .atomic, off := part d 128 64, rows := 1, bytes := 4, stride := 0 }] else [])

/-- What reading a record and pinning pages leaves as it was. -/
def SameWork (s t : State) : Prop := t.t = s.t ∧ t.g = s.g ∧ t.e = s.e ∧ t.cur = s.cur

end Sys2Proof.Claims

/-- R192-R194, R197, R200: TLOAD and TDRAIN read their record through the lead c1, check it, every capability and
extent, pin every page, and enter the array FIFO with all of it; TLOAD gives its slot the class of fK. A record that
does not fit raises ILLEGAL_OPERAND, a misplaced scale plane, vector block or amax word MISALIGNED, an extent the
fault of its check.
Completes (exec answers a next state, under conditions on the state and the operands alone): tload, tdrain. -/
def Obligations.ArrayRecords : Prop :=
  ∀ (s s1 s2 s3 : State) (a b c : BitVec 4) (f : BitVec 3) (kp : BitVec 4) (p : BitVec 5) (x : OSlot) (r d : Nat) (ws : List Word)
    (pins : List Pin) (uv ua : Bool),
    let k := (s.team s.cur).kern
    let by_ := s.bySeq s.cur
    let na := (s.mreg a).toNat
    let lead (n : Nat) (t : State) : Cap := t.creg (gkOf s.cur 0) n
    let capsL := [lead (part r 96 3) s1, lead (part r 99 3) s1]
    let capsD := [lead (part d 96 3) s2, lead 1 s2, lead (part d 101 3) s2]
    let fm := k.fmt f.toNat
    let load := Instr.tload a b f kp
    let drain := Instr.tdrain b c f p
    (na < 64 → nameOf s na = some x → s.readRecord by_ (s.mreg b).toNat 32 = .ok r s1 → SameWork s s1 →
      (¬ LoadFits k f.toNat kp.toNat r → SeqFaults s load fcILLEGAL_OPERAND) ∧
      (LoadFits k f.toNat kp.toNat r →
        (fm.blockLen ≠ 0 → part r 128 64 % 2 ≠ 0 → exec load s = .next (s.raiseSeq s.cur
          (capFault fcMISALIGNED (lead (part r 99 3) s1) (part r 128 64)))) ∧
        ((fm.blockLen ≠ 0 → part r 128 64 % 2 = 0) →
          (∀ e, s1.extsCheck by_ capsL (loadExts k f.toNat r) = some e → exec load s = .next (s.raiseSeq s.cur e)) ∧
          (s1.extsCheck by_ capsL (loadExts k f.toNat r) = none → s1.extsPin by_ capsL [] (loadExts k f.toNat r) = .ok pins s2 → SameWork s s2 →
            FifoRoom s2 → Goes s load (fun t =>
              Enters s2 t { entryOfSeq s2 (.load x.phys f.toNat kp.toNat) with record := BitVec.ofNat 512 r, caps := capsL, pins := pins } ∧
              nameOf t na = some { x with cls := fm.cls, fmt := f.toNat } ∧ NamesKept s2 t na 1 ∧ RegionsKept s2 t none))))) ∧
    ((s.mreg c).toNat < k.accb → p.toNat < k.epicount → s.epiProgram (seqCore s) k p.toNat = (.ok ws, s1) → SameWork s s1 →
      s1.readRecord by_ (s.mreg b).toNat 64 = .ok d s2 → SameWork s s2 →
      (uv = true ↔ Uses ws (fun i => (∃ e, i = .eldrow e) ∨ ∃ e, i = .eldcol e)) → (ua = true ↔ Uses ws (fun i => ∃ e, i = .eamax e)) →
      (¬ DrainFits k f.toNat d ws → SeqFaults s drain fcILLEGAL_OPERAND) ∧
      (DrainFits k f.toNat d ws →
        (uv = true → part d 192 32 % 4 ≠ 0 → exec drain s = .next (s.raiseSeq s.cur (capFault fcMISALIGNED (lead 1 s2) (part d 192 32)))) ∧
        ((uv = true → part d 192 32 % 4 = 0) → ua = true → part d 128 64 % 4 ≠ 0 →
          exec drain s = .next (s.raiseSeq s.cur (capFault fcMISALIGNED (lead (part d 101 3) s2) (part d 128 64)))) ∧
        ((uv = true → part d 192 32 % 4 = 0) → (ua = true → part d 128 64 % 4 = 0) →
          (∀ e, s2.extsCheck by_ capsD (drainExts k f.toNat d uv ua) = some e → exec drain s = .next (s.raiseSeq s.cur e)) ∧
          (s2.extsCheck by_ capsD (drainExts k f.toNat d uv ua) = none →
            s2.extsPin by_ capsD [] (drainExts k f.toNat d uv ua) = .ok pins s3 → SameWork s s3 → FifoRoom s3 → Goes s drain (fun t =>
              Enters s3 t { entryOfSeq s3 (.drain (s.mreg c).toNat (s3.region s.cur 0 (s.mreg c).toNat).kind f.toNat p.toNat) with
                record := BitVec.ofNat 512 d, prog := ws, caps := capsD, pins := pins } ∧ t.t.slots = s3.t.slots ∧ RegionsKept s3 t none)))))

namespace Sys2Proof.Claims

/-- Two entries that the order of the FIFO binds: one slot, one region, or one page that a drain writes (R195). -/
def Binds (x y : ArrOp) : Prop :=
  let drains (z : ArrOp) : Prop := ∃ r k f p, z.kind = .drain r k f p
  (∃ p ∈ x.slots, p ∈ y.slots) ∨ (∃ r ∈ x.regions, r ∈ y.regions) ∨
  ((drains x ∨ drains y) ∧ ∃ p ∈ x.pins, ∃ q ∈ y.pins, p.loc.space.1 = q.loc.space.1 ∧ p.loc.space.2 / 65536 = q.loc.space.2 / 65536)

/-- Both are tile steps, or both are drains. -/
def SameUnit (x y : ArrOp) : Prop := x.unitOf = y.unitOf ∧ x.unitOf ≠ 0

/-- An entry that runs. -/
def Running (s : State) (id : Nat) (x : ArrOp) : Prop := tget none s.e.fifo id = some x ∧ x.started = true ∧ x.finished = false

/-- No store that its issuer made before it is still on its way (R268); every slice that it reaches is present (R254). -/
def StoresDone (s : State) (id : Nat) (x : ArrOp) : Prop :=
  (∀ p ∈ s.o.pend, ∀ e, p.2 = some e → e.agent = x.agent → id ≤ p.1) ∧
  ∀ p ∈ s.o.cbuf, ∀ b, p.2 = some b → b.agent = x.agent → id ≤ b.ev
def SlicesPresent (s : State) (x : ArrOp) : Prop := ∀ p ∈ x.pins, ∀ y o, p.loc = .scr y o → y = x.tk ∨ s.departed y = none
/-- One of some locations lies in another member's slice that is gone. -/
def SliceGone (s : State) (x : ArrOp) (ls : List Loc) : Prop := ∃ l ∈ ls, ∃ y o, l = .scr y o ∧ y ≠ x.tk ∧ s.departed y ≠ none

/-- A post that waits in its q3 for a place (R208), and the one whose turn it is: the oldest of the issuer that follows, in
rotation, the issuer served last (R227). -/
def WaitsInQ3 (s : State) (core k : Nat) (y : ArrOp) : Prop :=
  tget none s.e.fifo k = some y ∧ y.core = core ∧ y.finished = false ∧ y.ord = 0
def ItsTurn (s : State) (id : Nat) (x : ArrOp) : Prop :=
  let turn (i : Nat) : Nat := if tget 0 s.e.served x.core < i then i else i + 2 ^ 64
  ∀ k y, WaitsInQ3 s x.core k y → (y.issuer = x.issuer → id ≤ k) ∧ (y.issuer ≠ x.issuer → turn x.issuer < turn y.issuer)

/-- A finished entry has left the FIFO with the arrival it was asked for (R208). -/
structure LeftFifo (s t : State) (id : Nat) (x : ArrOp) : Prop where
  gone : tget none t.e.fifo id = none
  others : ∀ k, k ≠ id → tget none t.e.fifo k = tget none s.e.fifo k
  silent : x.bar = none → t.t.bars = s.t.bars
  arrives : ∀ n, x.bar = some n → n < 16 → (s.bar x.tk n).expected ≠ 0 → t.bar x.tk n = oneMore (s.bar x.tk n)
  rest : t.g = s.g ∧ t.o.mem = s.o.mem ∧ t.t.scratch = s.t.scratch ∧ t.t.teams = s.t.teams ∧ t.t.slots = s.t.slots ∧ t.t.tags = s.t.tags

/-- Words of an accumulator region on the core of an entry; the words of a core that are of other regions, or of other
cores and teams, are as they were. -/
def cellOf (s : State) (x : ArrOp) (r i j : Nat) : Nat := s.accRead x.tk (s.opIdx x) (65536 * r + 512 * i + 4 * j) 4
def AccKept (s t : State) (x : ArrOp) (r : Nat) : Prop :=
  ∀ k b, b < 2 ^ 24 → ¬ (k = coreKey x.tk (s.opIdx x) ∧ 65536 * r ≤ b ∧ b < 65536 * (r + 1)) →
    tget 0 t.t.acc (k * 2 ^ 24 + b) = tget 0 s.t.acc (k * 2 ^ 24 + b)

/-- The exact value of an element of a slot, or its integer (R31, R38); a class-free slot holds zeros. -/
def elemOf (s : State) (c : ElemClass) (f : Fmt) (phys i k : Nat) : Val :=
  if c = .free then .fin false 0 0
  else f.value (tget 0 s.t.slotCode (codeKey phys i k))
    (if f.blockLen = 0 then .fin false 1 0 else ks16 (tget 0 s.t.slotScale (codeKey phys i (k / f.blockLen))))
def intOf (s : State) (c : ElemClass) (f : Fmt) (phys i k : Nat) : Int :=
  if c = .free then 0
  else match f.decode (tget 0 s.t.slotCode (codeKey phys i k)) with
    | .fin true m _ => -(m : Int) | .fin false m _ => m | _ => 0

/-- The sum of the products of two rows over n elements from k on. -/
def dotInt (f g : Nat → Int) (k : Nat) : Nat → Int
  | 0 => 0
  | n + 1 => dotInt f g k n + f (k + n) * g (k + n)
def dotVal (f g : Nat → Val) (k : Nat) : Nat → Val
  | 0 => .fin false 0 0
  | 1 => ((f k).mul (g k)).getD .nan
  | n + 1 => ((dotVal f g k n).add .rne (((f (k + n)).mul (g (k + n))).getD .nan)).getD .nan

/-- A cell after n blocks of 32 (R37, R38). -/
def cellInt (sat : Bool) (f g : Nat → Int) (c : Int) : Nat → Int
  | 0 => c
  | n + 1 =>
    let v := cellInt sat f g c n + dotInt f g (32 * n) 32
    if sat then max (-(2 ^ 31)) (min (2 ^ 31 - 1) v) else (BitVec.ofInt 32 v).toInt
def cellFloat (f g : Nat → Val) (c : Nat) : Nat → Nat
  | 0 => c
  | n + 1 => match (f32.val (cellFloat f g c n)).add .rne (dotVal f g (32 * n) 32) with
    | some v => (f32.round .rne v).bits
    | none => f32.qnan

/-- The code of element j of a row, from its bits: as stored, or from the first planes of the PLANE layout (R26-R28). -/
def codeOf (f : Fmt) (row planes j : Nat) : Nat :=
  if f.plane then
    ((List.range (if planes = 0 then f.width else planes)).map (fun i =>
      part row (j / 64 * 64 * f.width + 64 * i + j % 64) 1 * 2 ^ (f.width - 1 - i))).sum
  else part row (elemBits f * j) (codeBits f)

end Sys2Proof.Claims

/-- R195, R208, R227: a post that waits in its q3 takes a place when one is free and it is its turn, in rotation among the
issuers. An entry that has its place starts when no earlier entry that it is bound to is unfinished and its unit is free;
until then it waits. -/
def Sys2Proof.Claims.ArrayOrder : Prop :=
  ∀ (s : State) (id : Nat) (x : ArrOp), tget none s.e.fifo id = some x → x.started = false → x.finished = false → keysRise s.e.fifo = true →
    let free := ∀ k y, tget none s.e.fifo k = some y → k ≠ id → y.core = x.core → y.finished = false → y.ord ≠ 0 →
      ¬ (y.ord < x.ord ∧ Binds x y) ∧ ¬ (y.started = true ∧ SameUnit y x)
    let may := (s.team x.tk).stops = false ∧ (s.team x.tk).saved = false
    (x.ord ≠ 0 → may → free → Goes s (.arrayOpStart id) (fun t => t = { s with e := { s.e with fifo := t.e.fifo } } ∧
      ∀ k, tget none t.e.fifo k = if k = id then some { x with started := true } else tget none s.e.fifo k)) ∧
    (x.ord ≠ 0 → ¬ (may ∧ free) → exec (.arrayOpStart id) s = .next s) ∧
    (x.ord = 0 → (∀ k y, WaitsInQ3 s x.core k y → y.issuer < 2 ^ 64) →
      (s.fifoUsed x.core < 32 → ItsTurn s id x → Goes s (.arrayOpStart id) (fun t =>
        t = { s with e := { s.e with fifo := t.e.fifo, served := t.e.served }, next := s.next + 1 } ∧
        (∀ k, tget none t.e.fifo k = if k = id then some { x with ord := s.next } else tget none s.e.fifo k) ∧
        ∀ c, tget 0 t.e.served c = if c = x.core then x.issuer else tget 0 s.e.served c)) ∧
      (32 ≤ s.fifoUsed x.core ∨ ¬ ItsTurn s id x → exec (.arrayOpStart id) s = .next s))

/-- R31, R37, R38, R196-R199, R208: what an entry does when it runs. A region zeroed has +0 in every word and SAT clear; a TLOAD
brings the codes of one row after another to its slot, the other rows empty until then, and leaves after 128 of them; a tile step has added the products of the slots' rows to each of the 128 by 128 words, in
blocks of 32, rounded once each, or in INT32 modulo 2^32 or saturated. A claim, a release and a drain that is done leave. A side
of a pair launch on its way to a tile step's region is the subject of R217's own statement: here none is. A TLOAD whose next row lies in
a slice that is gone leaves (the model's choice, log 56). -/
def Sys2Proof.Claims.ArrayEntries : Prop :=
  ∀ (s : State) (id : Nat) (x : ArrOp), Running s id x → (s.kern (gkOf x.tk 0)).det = false →
    let k := (s.team x.tk).kern
    let finish := Instr.arrayOpFinish id
    ((∃ n, x.kind = .claim n) ∨ (∃ ph, x.kind = .release ph) → Goes s finish (fun t => LeftFifo s t id x ∧ t.t.acc = s.t.acc)) ∧
    (∀ r kd f p, x.kind = .drain r kd f p →
      (128 ≤ x.row → Goes s finish (fun t => LeftFifo s t id x ∧ t.t.acc = s.t.acc ∧ t.t.regions = s.t.regions)) ∧
      (x.row < 128 → exec finish s = .next s)) ∧
    (∀ r, x.kind = .zeroRegion r → r < 256 → s.meeting x = [] → Goes s finish (fun t => LeftFifo s t id x ∧ AccKept s t x r ∧
      (∀ i j, i < 128 → j < 128 → cellOf t x r i j = 0) ∧ t.region x.tk (s.opIdx x) r = { s.region x.tk (s.opIdx x) r with sat := false })) ∧
    (∀ ph, x.kind = .zeroSlot ph → Goes s finish (fun t => LeftFifo s t id x ∧ t.t.acc = s.t.acc ∧
      ∀ i j, i < 128 → j < 256 → tget 0 t.t.slotCode (codeKey ph i j) = 0)) ∧
    (∀ (ph f planes : Nat) (loc sloc : Nat → Loc), x.kind = .load ph f planes →
      let fm := k.fmt f
      let r := x.record.toNat
      let depth := depthOf fm.cls
      let n := rowBytesOf fm depth
      let i := x.row
      (128 ≤ i → Goes s finish (fun t => LeftFifo s t id x ∧ t.t.acc = s.t.acc ∧ t.t.slotCode = s.t.slotCode)) ∧
      (i < 128 → SliceGone s x (s.loadLocs x) → Goes s finish (fun t => LeftFifo s t id x ∧ t.t.slotCode = s.t.slotCode)) ∧
      (i < 128 → StoresDone s id x → SlicesPresent s x →
        (∀ j, j < n → x.at 0 (part r 0 64 + i * part r 64 32 + j) = loc j ∧ Readable s (loc j)) →
        (fm.blockLen ≠ 0 → ∀ j, j < 2 * scalesOf fm → x.at 1 (part r 128 64 + i * part r 192 32 + j) = sloc j ∧ Readable s (sloc j)) →
        Goes s finish (fun t =>
          t = { s with e := { s.e with fifo := t.e.fifo }, t := { s.t with slotCode := t.t.slotCode, slotScale := t.t.slotScale } } ∧
          (∀ q, tget none t.e.fifo q = if q = id then some { x with row := i + 1 } else tget none s.e.fifo q) ∧
          (∀ j, j < depth → tget 0 t.t.slotCode (codeKey ph i j) = codeOf fm (valueAt s loc n) planes j) ∧
          (fm.blockLen ≠ 0 → ∀ j, j < scalesOf fm →
            tget 0 t.t.slotScale (codeKey ph i j) = part (valueAt s sloc (2 * scalesOf fm)) (16 * j) 16) ∧
          (∀ m j, m ≠ i → m < 256 → j < 256 → tget 0 t.t.slotCode (codeKey ph m j) =
            if i = 0 then 0 else tget 0 s.t.slotCode (codeKey ph m j)) ∧
          ∀ q m j, q ≠ ph → m < 256 → j < 256 → tget 0 t.t.slotCode (codeKey q m j) = tget 0 s.t.slotCode (codeKey q m j)))) ∧
    (∀ pa pb fa fb ca cb r int sat, x.kind = .mma pa pb fa fb ca cb r int sat → r < 256 → s.meeting x = [] →
      let blocks := depthOf (if ca = .free then cb else ca) / 32
      Goes s finish (fun t => LeftFifo s t id x ∧ AccKept s t x r ∧ t.t.slotCode = s.t.slotCode ∧ (∀ i j, i < 128 → j < 128 →
        cellOf t x r i j = if int then
            (BitVec.ofInt 32 (cellInt sat (intOf s ca (k.fmt fa) pa i) (intOf s cb (k.fmt fb) pb j) (BitVec.ofNat 32 (cellOf s x r i j)).toInt
              blocks)).toNat
          else cellFloat (elemOf s ca (k.fmt fa) pa i) (elemOf s cb (k.fmt fb) pb j) (cellOf s x r i j) blocks) ∧
        ((t.region x.tk (s.opIdx x) r).sat = true ↔ (s.region x.tk (s.opIdx x) r).sat = true ∨ (int = true ∧ sat = true ∧
          ∃ i j n, i < 128 ∧ j < 128 ∧ n < blocks ∧
            let f := intOf s ca (k.fmt fa) pa i
            let g := intOf s cb (k.fmt fb) pb j
            let v := cellInt sat f g (BitVec.ofNat 32 (cellOf s x r i j)).toInt n + dotInt f g (32 * n) 32
            v < -(2 ^ 31) ∨ 2 ^ 31 ≤ v))))

namespace Sys2Proof.Claims

/-- E-register n of column j of the row in progress. -/
def eReg (s : State) (j : Nat) (n : BitVec 4) : Nat := (tget 0 s.e.epi.e (16 * j + n.toNat)).toNat

/-- An E-word has written register d of every column, the program goes on, and nothing else has changed. -/
def Columns (s t : State) (d : BitVec 4) (f : Nat → Nat) : Prop :=
  t = { s with e := { s.e with epi := t.e.epi } } ∧ t.e.epi.op = s.e.epi.op ∧ t.e.epi.prog = s.e.epi.prog.drop 1 ∧
  ∀ j, j < 128 → ∀ n : BitVec 4, eReg t j n = if n = d then f j % 2 ^ 32 else eReg s j n

/-- A NaN becomes the canonical one (R201). -/
def quiet (w : Nat) : Nat := if f32.isNan w then 0x7FC00000 else w

/-- The larger and the smaller, with −0 below +0; a NaN gives the canonical one. -/
def larger (x y : Nat) : Nat := if f32.isNan x ∨ f32.isNan y then 0x7FC00000 else if fBelow f32 x y then y else x
def smaller (x y : Nat) : Nat := if f32.isNan x ∨ f32.isNan y then 0x7FC00000 else if fBelow f32 x y then x else y

/-- The pairwise tree of R36 over 2^k values from the i-th group of them on. -/
def treeOf (f : Nat → Nat → Nat) (x : Nat → Nat) : Nat → Nat → Nat
  | 0, i => x i
  | k + 1, i => f (treeOf f x k (2 * i)) (treeOf f x k (2 * i + 1))

/-- The softmax of a row (R203). -/
def rowSoftmax (nbv : Nat) (x : Nat → Nat) (j : Nat) : Nat :=
  let m := treeOf larger x 7 0
  let e (i : Nat) : Nat := canon (fExp2 nbv (canon (fSub 1 f32 .rne (x i) m)))
  let sum := treeOf (fun a b => canon (fAdd 1 f32 .rne a b)) e 7 0
  if m = 0xFF800000 then 0 else canon (fMul 1 f32 .rne (e j) (canon (fRcp nbv sum)))

/-- A drain whose row is in progress, of a launch that is not deterministic. -/
def Draining (s : State) (x : ArrOp) (r : Nat) (kd : RegionKind) (f p : Nat) : Prop :=
  tget none s.e.fifo s.e.epi.op = some x ∧ x.kind = .drain r kd f p ∧ (s.kern (gkOf x.tk 0)).det = false

/-- A row as the drain writes it (R200): 128 FP32 words, or 128 codes of a slot, in its layout. -/
def packed (f : Fmt) (code : Nat → Nat) : Nat → Nat
  | 0 => 0
  | n + 1 => packed f code n + (if f.plane then
      ((List.range f.width).map (fun i => part (code n) (f.width - 1 - i) 1 * 2 ^ (n / 64 * 64 * f.width + 64 * i + n % 64))).sum
    else code n * 2 ^ (elemBits f * n))
def drainedRow (s : State) (x : ArrOp) (f : Fmt) : Nat :=
  if part x.record.toNat 99 2 = 0 then ((List.range 128).map (fun j => eReg s j 0 * 2 ^ (32 * j))).sum
  else packed f (fun j => f.encode (f32.val (eReg s j 0)) (.fin false 1 0)) 128

end Sys2Proof.Claims

/-- R36, R201-R203: the effects of Table 8.7. Each E-word acts on the 128 columns of the row: the arithmetic is FP32, rounded
once to nearest, with the canonical NaN. EAMAX merges the row's largest magnitude into the amax word. -/
def Sys2Proof.Claims.EpilogueWords : Prop :=
  ∀ (s : State) (x : ArrOp) (r : Nat) (kd : RegionKind) (f p : Nat) (d a b : BitVec 4) (g : BitVec 3), Draining s x r kd f p →
    let nbv := (s.team x.tk).kern.nbv
    let fm := (s.team x.tk).kern.fmt g.toNat
    let at_ (j : Nat) (n : BitVec 4) : Nat := eReg s j n
    let gives (i : Instr) (h : Nat → Nat) : Prop := Goes s i (fun t => Columns s t d h)
    gives (.eadd d a b) (fun j => canon (fAdd 1 f32 .rne (at_ j a) (at_ j b))) ∧
    gives (.esub d a b) (fun j => canon (fSub 1 f32 .rne (at_ j a) (at_ j b))) ∧
    gives (.emul d a b) (fun j => canon (fMul 1 f32 .rne (at_ j a) (at_ j b))) ∧
    gives (.efma d a b) (fun j => canon (fFma 1 f32 .rne (at_ j a) (at_ j b) (at_ j d))) ∧
    gives (.emax d a b) (fun j => larger (at_ j a) (at_ j b)) ∧
    gives (.emin d a b) (fun j => smaller (at_ j a) (at_ j b)) ∧
    gives (.etanh d a) (fun j => canon (fTanh nbv (at_ j a))) ∧
    gives (.eexp d a) (fun j => canon (fExp2 nbv (at_ j a))) ∧
    gives (.ercp d a) (fun j => canon (fRcp nbv (at_ j a))) ∧
    gives (.ecvt d a g) (fun j => canon (f32.round .rne (fm.value (fm.encode (f32.val (at_ j a)) (.fin false 1 0)) (.fin false 1 0)))) ∧
    gives (.esmx d a) (rowSoftmax nbv (fun j => at_ j a)) ∧
    (∀ loc : Nat → Loc, (∀ i, i < 1024 → x.at 1 (part x.record.toNat 192 32 + i) = loc i ∧ Readable s (loc i)) →
      gives (.eldcol d) (fun j => quiet (valueAt s (fun i => loc (4 * j + i)) 4)) ∧
      (x.row < 128 → gives (.eldrow d) (fun _ => quiet (valueAt s (fun i => loc (4 * (128 + x.row) + i)) 4)))) ∧
    (∀ l, x.at 2 (part x.record.toNat 128 64) = l → (∀ i, i < 4 → Direct (l.shift i)) → s.hitsPoison l 4 = none →
      (∀ ad pol nc, l = .dev ad pol nc → NoDirtyCopy s ad 4 pol) →
      Goes s (.eamax a) (fun t => t.g = s.g ∧
        t.e = { s.e with epi := { s.e.epi with prog := s.e.epi.prog.drop 1 }, fifo := t.e.fifo } ∧
        (∃ w, ∀ k, tget none t.e.fifo k = if k = s.e.epi.op then some { x with wrote := w } else tget none s.e.fifo k) ∧
        Stored s t l 4 (max (valueAt s (Loc.shift l) 4)
          ((List.range 128).foldl (fun m j => max m (quiet (at_ j a) % 2 ^ 31)) 0))))

/-- R200: a row of a drain begins with its word in e0 of each column, the row and the column in e1 and e2, zeros, and the
record's constants; at EEND row i is written at DOFF + i * DSTRIDE from e0 and the next one may begin. -/
def Sys2Proof.Claims.EpilogueRows : Prop :=
  ∀ (s : State) (x : ArrOp) (r : Nat) (kd : RegionKind) (f p : Nat),
    let rec_ := x.record.toNat
    (∀ id, Running s id x → x.kind = .drain r kd f p → x.row < 128 → s.e.epi.prog = [] → (s.team x.tk).stops = false →
      s.rowReady id x f = true → StoresDone s id x → SlicesPresent s x → s.meeting x = [] →
      Goes s (.epilogueRow id) (fun t => t = { s with e := { s.e with epi := t.e.epi } } ∧ t.e.epi.op = id ∧ t.e.epi.prog = x.prog ∧
        ∀ j, j < 128 →
          eReg t j 0 = (match kd with
            | .empty => 0 | .float => quiet (cellOf s x r x.row j)
            | .int32 => (f32.round .rne (let z := (BitVec.ofNat 32 (cellOf s x r x.row j)).toInt; .fin (z < 0) z.natAbs 0)).bits % 2 ^ 32) ∧
          eReg t j 1 = (f32.round .rne (.fin false x.row 0)).bits % 2 ^ 32 ∧
          eReg t j 2 = (f32.round .rne (.fin false j 0)).bits % 2 ^ 32 ∧
          (∀ n, 3 ≤ n → n < 8 → eReg t j (BitVec.ofNat 4 n) = 0) ∧
          ∀ n, n < 8 → eReg t j (BitVec.ofNat 4 (8 + n)) = quiet (part rec_ (256 + 32 * n) 32))) ∧
    (Draining s x r kd f p →
      let fm := (s.team x.tk).kern.fmt f
      let n := if part rec_ 99 2 = 0 then 512 else if part rec_ 99 2 = 1 then rowBytesOf fm 128 else 0
      let done (t : State) : Prop := t.e.epi = {} ∧ t.g = s.g ∧ t.t.acc = s.t.acc ∧
        ∃ w, ∀ k, tget none t.e.fifo k = if k = s.e.epi.op then some { x with row := x.row + 1, wrote := w } else tget none s.e.fifo k
      ∀ loc : Nat → Loc, (∀ i, i < n → x.at 0 (part rec_ 0 64 + x.row * part rec_ 64 32 + i) = loc i ∧ Direct (loc i)) →
        (∀ i j, i < n → j < n → i ≠ j → (loc i).space ≠ (loc j).space) →
        Goes s .eend (fun t => done t ∧ (∀ i, i < n → byteOf t (loc i) = part (drainedRow s x fm) (8 * i) 8) ∧
          ∀ m, Direct m → (∀ i, i < n → (loc i).space ≠ m.space) → byteOf t m = byteOf s m))

namespace Sys2Proof.Claims

/-- One group changes among the groups. -/
def GroupIs (s t : State) (gk : Nat) (g : Group) : Prop := ∀ k, t.group k = if k = gk then g else s.group k

/-- Registers, memory and the PC of every lane are as they were. -/
def NothingRan (s t : State) : Prop :=
  t.g.vreg = s.g.vreg ∧ t.g.sreg = s.g.sreg ∧ t.g.creg = s.g.creg ∧ t.g.jmask = s.g.jmask ∧ t.o = s.o ∧ t.t = s.t ∧ t.e = s.e ∧
  ∀ k, (t.lane k).pkt = (s.lane k).pkt ∧ (t.lane k).slot = (s.lane k).slot

/-- The member that has gone longest without leading, the younger on a tie (R221). -/
def Stalest (s : State) (act : List Nat) (h : Nat) : Prop :=
  ∃ a b, act = a ++ h :: b ∧ (∀ x ∈ a, (s.group x).lead ≤ (s.group h).lead) ∧ ∀ x ∈ b, (s.group x).lead < (s.group h).lead

/-- The groups of a partition that may issue, oldest first, and the first that has waited 4,096 clocks to lead (R219). -/
def MayLead (s : State) (core part_ : Nat) : List Nat :=
  (s.activeOf core part_).filter (fun gk => s.eligibleGroup gk && s.readyGroup gk)
def Overdue (s : State) (core part_ gk : Nat) : Prop :=
  let gs := MayLead s core part_
  (∀ h ∈ gs, s.forcedPc h = none) ∧ ∃ a b, gs = a ++ gk :: b ∧ 4096 ≤ (s.group gk).waitClk ∧ ∀ h ∈ a, (s.group h).waitClk < 4096

end Sys2Proof.Claims

/-- R122, R219, R221, R277, R351, R368: the timers of the issue former. A WAITC whose count has run out wakes its
lane; a PC whose fairness count has reached FAIRCTL is forced, under PROGRESS; on a clock, once the waits that are
over have ended and the PCs that are due are forced, a group overdue to lead begins the issue of the previous issue's
PC; the active set gives up its stalest member to a group ready for 2,048 clocks, and a member idle for 16; a clock
without a ready group counts 64 lane positions IDLE; the oldest record that waits takes a free place of its fault
queue.
Completes (exec answers a next state, under conditions on the state and the operands alone): waitcExpiry,
fairnessTimerExpiry, ageLimitExpiry, activeSetReplace, activeSetIdleLeave, faultQueueEnter, noIssueClock. -/
def Obligations.IssueTimers : Prop :=
  ∀ (s : State) (gk l pc core part_ : Nat),
    let g := s.group gk
    let lane := s.lane (lkOf gk l)
    (lane.st = .waiting (.clocks 0) → Goes s (.waitcExpiry gk l) (fun t => OnlyLanes s t ∧
      ∀ k, t.lane k = if k = lkOf gk l then { lane with st := .ready, since := 0 } else s.lane k)) ∧
    (∀ n, lane.st = .waiting (.clocks (n + 1)) → lane.after = none → exec (.waitcExpiry gk l) s = .next s) ∧
    (let f : Pc := { pkt := pc / 4, slot := pc % 4 }
     (∀ c, { pc := f, clocks := c } ∈ g.fair → g.fairctl.toNat ≤ c → (s.kern gk).flags.getLsbD 0 = true → f ∉ g.forced →
        Goes s (.fairnessTimerExpiry gk pc) (fun t => t = { s with g := { s.g with groups := t.g.groups } } ∧
          GroupIs s t gk { g with forced := g.forced ++ [f] })) ∧
     ((∀ c, { pc := f, clocks := c } ∈ g.fair → c < g.fairctl.toNat) → exec (.fairnessTimerExpiry gk pc) s = .next s)) ∧
    (let u := s.clockStart g.core g.part
     (∀ p lanes ws majs, s.iss.words = 0 → Overdue u g.core g.part gk → (u.group gk).yielded = none →
       tget 0 u.w.lastPc (4 * g.core + g.part) = 4 * p.pkt + p.slot + 1 → p.slot < 4 →
       (u.readyAt gk).find? (fun q => q.1 == p.pkt * 4 + p.slot) = some (p.pkt * 4 + p.slot, lanes) →
       (∀ l ∈ lanes, (u.lane (lkOf gk l)).resume = none ∧ (u.lane (lkOf gk l)).st = .ready) → lanes ≠ [] →
       u.chainAt gk p = (.ok ws majs, u) → fillable ws majs = false → u.breakAt gk p ws = none →
       (u.group gk).core = g.core → (u.group gk).part = g.part →
       Goes s (.ageLimitExpiry gk) (fun t => NothingRan s t ∧
         t.iss = { gk := gk, pkt := p.pkt, slot := p.slot, lanes := lanes, words := ws.length, all := lanes, start := p.slot
                   size := ws.length, fill := [] })) ∧
     (s.iss.words ≠ 0 ∨ ¬ Overdue u g.core g.part gk → exec (.ageLimitExpiry gk) s = .next s)) ∧
    (∀ h, g.active = false → 2048 ≤ g.outClk → 8 ≤ (s.activeOf g.core g.part).length → s.readyGroup gk = true →
      Stalest s (s.activeOf g.core g.part) h →
      Goes s (.activeSetReplace gk) (fun t => t = { s with g := { s.g with groups := t.g.groups } } ∧
        ∀ k, t.group k = if k = gk then { g with active := true, outClk := 0, idleClk := 0 }
          else if k = h then { s.group k with active := false } else s.group k)) ∧
    (g.active = true ∨ g.outClk < 2048 → exec (.activeSetReplace gk) s = .next s) ∧
    (g.active = true → 16 ≤ g.idleClk → Goes s (.activeSetIdleLeave gk) (fun t =>
      t = { s with g := { s.g with groups := t.g.groups } } ∧ GroupIs s t gk { g with active := false })) ∧
    (g.active = false ∨ g.idleClk < 16 → exec (.activeSetIdleLeave gk) s = .next s) ∧
    (let u := s.clockStart core part_
     s.iss.words = 0 → (∀ gk ∈ MayLead u core part_, False) → Goes s (.noIssueClock core part_) (fun t => NothingRan s t ∧
      t.iss = s.iss ∧ tget 0 t.w.lcc (core * 64 + 43) = tget 0 s.w.lcc (core * 64 + 43) + 64 ∧
      (∀ k, k ≠ core * 64 + 43 → tget 0 t.w.lcc k = tget 0 s.w.lcc k) ∧
      -- a partition that has had its clock of the core's cycle begins the next one
      (let now := tget 0 s.w.cycles core
       tget 0 t.w.cycles core = if tget 0 s.w.clocked (4 * core + part_) = now then now + 1 else now) ∧
      tget 0 t.w.clocked (4 * core + part_) = tget 0 t.w.cycles core ∧
      ∀ k, k ≠ core → tget 0 t.w.cycles k = tget 0 s.w.cycles k)) ∧
    (let T := s.team gk
     (∀ r rs, T.fwait = r :: rs → T.fq.length < 256 → Goes s (.faultQueueEnter gk) (fun t => t = { s with t := { s.t with teams := t.t.teams } } ∧
        ∀ k, t.team k = if k = gk then { T with fq := T.fq ++ [r], fwait := rs } else s.team k)) ∧
     (T.fwait = [] ∨ 256 ≤ T.fq.length → Goes s (.faultQueueEnter gk) (fun t => ∀ k, t.team k = s.team k)))

namespace Sys2Proof.Claims

/-- Launch port of a context, and 64 bits of its record area at a byte offset. -/
def portOf (s : State) (ctx : Nat) : LPort := tget {} s.l.ports ctx
def portWord (p : LPort) (off : Nat) : Nat := p.bytes.toNat / 2 ^ (8 * off) % 2 ^ 64

/-- The event LAUNCH_DONE (Tables 18.7, 18.8): launch id, code, reason; and the stores it follows. -/
def doneEvent (ctx serial code reason : Nat) (need : List Nat) : Event :=
  { kind := 3, ctx := BitVec.ofNat 32 ctx
    payload := BitVec.ofNat 512 (serial % 2 ^ 32 + ctx % 64 * 2 ^ 32 + code % 2 ^ 32 * 2 ^ 64 + reason % 2 ^ 32 * 2 ^ 96), need := need }

/-- A port after a submission: its status and serial. -/
def PortSays (s t : State) (ctx status : Nat) (serial : Word) : Prop :=
  portOf t ctx = { portOf s ctx with status := status, serial := serial } ∧ ∀ k, k ≠ ctx → portOf t k = portOf s k

end Sys2Proof.Claims

/-- R282-R284, R288, R320, R322: a write of eight bytes fills a launch port; the one to its last eight bytes submits
the record: a bad record is rejected with status 2 and a LAUNCH_DONE event of code 3 with its reason, a record that
finds the queue of its context full gives status 1 and sets the context's bit of LPFULL, an accepted one gives status
0 with the next serial and makes a launch, whose DEP fields name the launches of now. Before READY the writes are
ignored; a host write still on its way comes first.
Completes (exec answers a next state, under conditions on the state and the operands alone): launchRecordWrite,
launchSubmit. -/
def Obligations.LaunchPorts : Prop :=
  ∀ (s : State) (ctx off : Nat) (data : DWord),
    let submit := Instr.launchSubmit ctx data
    let s0 : State := { s with l := { s.l with ports := tset {} s.l.ports ctx { portOf s ctx with
      bytes := BitVec.ofNat 2048 ((portOf s ctx).bytes.toNat % 2 ^ 1984 + data.toNat * 2 ^ 1984) } } }
    let r := (portOf s0 ctx).bytes.toNat
    (s.h.readyBit = false ∨ s.hostQuiet = false → exec (.launchRecordWrite ctx off data) s = .next s ∧ exec submit s = .next s) ∧
    (s.h.readyBit = true → s.hostQuiet = true → ctx < 64 → off % 8 = 0 → off < 248 → Goes s (.launchRecordWrite ctx off data) (fun t =>
      t = { s with l := { s.l with ports := t.l.ports } } ∧ (∀ k, k ≠ ctx → portOf t k = portOf s k) ∧
      (portOf t ctx).status = (portOf s ctx).status ∧ (portOf t ctx).serial = (portOf s ctx).serial ∧
      ∀ j, j < 32 → portWord (portOf t ctx) (8 * j) = if 8 * j = off then data.toNat else portWord (portOf s ctx) (8 * j))) ∧
    (s.h.readyBit = true → s.hostQuiet = true → ctx < 64 →
      (∀ e, (s.ctxEn ctx = false ∧ e = 1) ∨ (s.ctxEn ctx = true ∧ s0.checkRecord 0 ctx r none = (.bad e, s0)) →
        Goes s submit (fun t => PortSays s0 t ctx 2 0xFFFFFFFF ∧ t.h = { s.h with events := s.h.events ++ [doneEvent ctx 0xFFFFFFFF 3 e []] } ∧
          t.l.launches = s.l.launches ∧ t.l.serials = s.l.serials ∧ t.g = s.g ∧ t.o = s.o)) ∧
      (∀ k u, s.ctxEn ctx = true → s0.checkRecord 0 ctx r none = (.ok k, u) → k.ctx = ctx →
        (1024 ≤ u.queued ctx + u.accepting ctx false → Goes s submit (fun t => PortSays u t ctx 1 0xFFFFFFFF ∧ t.h = { u.h with lpfull := t.h.lpfull } ∧
          (∀ j, j < 64 → t.h.lpfull.getLsbD j = (u.h.lpfull.getLsbD j || j == ctx)) ∧ t.l.launches = u.l.launches ∧ t.g = u.g)) ∧
        (u.queued ctx + u.accepting ctx false < 1024 →
          let serial := tget 0 u.l.serials ctx
          let named := k.deps.filterMap (fun d => (u.bySerial ctx d).map (·.1))
          Goes s submit (fun t => PortSays u t ctx 0 (BitVec.ofNat 32 serial) ∧ t.h = u.h ∧ t.g = u.g ∧ t.o = u.o ∧
            tget none t.l.launches u.next = some { kern := k, limit := k.dlimit, serial := serial, deps := named } ∧
            (∀ n, n ≠ u.next → tget none t.l.launches n = tget none u.l.launches n) ∧
            tget 0 t.l.serials ctx = (if 0xFFFFFFF0 ≤ serial + 1 then 0 else serial + 1) ∧
            ∀ c, c ≠ ctx → tget 0 t.l.serials c = tget 0 u.l.serials c))))

namespace Sys2Proof.Claims

/-- The role of a group index (R210): the roles hold their groups in order. -/
def InRole (k : Kern) (i r : Nat) : Prop :=
  let upTo (n : Nat) : Nat := ((k.roles.take n).map (·.groups)).sum
  upTo r ≤ i ∧ i < upTo (r + 1)

/-- The cores of a core's die. -/
def cores32 (core : Nat) : List Nat := (List.range 32).map (fun n => core / 32 % 4 * 32 + n)

/-- The first team of a record that is next in the arbiter's order (R285): eligible, no earlier record fits or stops
backfill, no saved team is to resume first. -/
def NextInOrder (s : State) (ln : Nat) : Prop :=
  let x := s.launchOf ln
  s.eligible x = true ∧ s.resumeFirst x.kern.prio = false ∧ ∀ p ∈ s.before ln, p.2.stopFill = false ∧ s.fitsNow p.1 = false

/-- Capabilities of a group at entry (Table 9.1). -/
def entryCap (k : Kern) (i n : Nat) : Cap :=
  let slice := k.width * k.stack
  let below := k.scratch - (k.roles.map (·.groups)).sum * k.width * k.stack
  match n with
  | 0 => if k.aobj = 0 then 0 else mkCap 1 (if k.acaps then rR + rL else rR) k.aobj k.aoff k.alen
  | 1 => mkCap 2 75 0 0 below
  | 2 => if k.gang > 1 then mkCap 3 75 0 0 (k.gang * 2 ^ 24) else 0
  | 3 => mkCap 2 3 0 (below + i * slice) slice
  | 4 => if k.accb = 0 then 0 else mkCap 5 3 0 0 (k.accb * 65536)
  | 5 => if k.handler = some (k.roleOf i) then mkCap 4 3 0 0 (k.ngroups * 32768) else 0
  | _ => 0

end Sys2Proof.Claims

/-- R210-R212, R285, R286: TEAM_PLACE of the next record in order, where its team fits: the team has its record, its
cores, its sequencer at M-word 0; each of its groups stands in its role with every lane ready at the role's entry and
the entry capabilities of Table 9.1, with the history of the launch's parent and of the launches that DEP names (R272,
R284); the launch runs, and every record passed over is counted. A record that is not next places nothing. The roles
of a core are written once it is drained, and one is drained when the roles of its die have no place for the runs of a
record's team (R287).
Completes (exec answers a next state, under conditions on the state and the operands alone): teamPlace, bankroleWrite,
backfillStop. -/
def Obligations.TeamPlacement : Prop :=
  ∀ (s u : State) (ln tk : Nat) (cores : List Nat),
    let x := s.launchOf ln
    let k := x.kern
    (NextInOrder s ln → k.gang = 1 → cores.length = k.cores → k.width ≤ 64 → k.ngroups ≤ 1024 → keysRise s.l.launches = true →
      s.placeTeam ln x.nextTeam s.next 0 cores = some (tk, u) →
      Goes s (.teamPlace ln cores) (fun t => tk = s.next ∧
        (t.launchOf ln).st = .running ∧ (t.launchOf ln).nextTeam = x.nextTeam + 1 ∧ t.l.lastServed = k.ctx ∧ t.l.serving = ln ∧
        (∀ p ∈ s.before ln, p.1 ≠ ln → (t.launchOf p.1).passed = (s.launchOf p.1).passed + 1) ∧
        (let T := t.team tk
         T.ln = ln ∧ T.idx = x.nextTeam ∧ T.kern = k ∧ T.cores = cores ∧ T.live = true ∧ T.saved = false ∧ T.fq = [] ∧ T.nextFid = 1 ∧ T.relaunches = 0 ∧
         T.seq = { st := if k.mslen = 0 then .exited else .running }) ∧
        (∀ j, j ≠ tk → t.team j = s.team j) ∧
        (∀ i r, i < k.ngroups → InRole k i r → i / (max 1 ((k.ngroups + max 1 k.cores - 1) / max 1 k.cores)) < cores.length →
          let g := t.group (gkOf tk i)
          let role := k.roles.getD r ⟨0, 0, 0⟩
          g.tk = tk ∧ g.idx = i ∧ g.role = r ∧ g.pair = false ∧ g.width = k.width ∧ g.regs = role.regs ∧ g.fairctl = 4096 ∧
          g.core = cores.getD (i / (max 1 ((k.ngroups + max 1 k.cores - 1) / max 1 k.cores))) 0 ∧ g.q1 = [] ∧ g.q0 = [] ∧ g.born = s.next ∧
          (∀ l, l < k.width → t.lane (lkOf (gkOf tk i) l) = { st := .ready, pkt := role.entry, codeFloor := s.o.stamp } ∧
            ∀ h ∈ s.startHist x, ((tget none s.o.cbuf h).isSome = true ∨ (tget none s.o.sbuf h).isSome = true) →
              h ∈ t.hist (lkOf (gkOf tk i) l)) ∧
          ∀ n, n < 6 → t.creg (gkOf tk i) n = entryCap k i n) ∧
        (∀ j, j / 2 ^ 30 ≠ tk → t.lane j = s.lane j) ∧ t.t.scratch = s.t.scratch ∧
        ((∀ p ∈ s.o.l1, p.1 / 2 ^ 48 ∉ cores) → t.o.mem = s.o.mem))) ∧
    (¬ NextInOrder s ln → exec (.teamPlace ln cores) s = .next s) ∧
    (s.eligible x = true → 0 < x.passed → Goes s (.backfillStop ln) (fun t => t = { s with l := { s.l with launches := t.l.launches } } ∧
      t.launchOf ln = { x with stopFill := true } ∧ ∀ j, j ≠ ln → tget none t.l.launches j = tget none s.l.launches j)) ∧
    (s.eligible x = false ∨ x.passed = 0 → exec (.backfillStop ln) s = .next s) ∧
    (∀ core, core < 128 → s.eligible x = true → core ∈ s.l.draining →
      (s.drained core = false → exec (.bankroleWrite core ln) s = .next s) ∧
      (s.drained core = true → Goes s (.bankroleWrite core ln) (fun t =>
        t = { s with l := { s.l with bankrole := t.l.bankrole, draining := t.l.draining } } ∧ core ∉ t.l.draining ∧
        (∀ c, c ≠ core → (c ∈ t.l.draining ↔ c ∈ s.l.draining) ∧ tget 0 t.l.bankrole c = tget 0 s.l.bankrole c) ∧
        let b := k.banks (min (s.runsOn k ((cores32 core).filter (· < core))) (k.cores - 1)) 1
        ∀ i, i < 32 → b.1 + b.2.1 + b.2.2 ≤ 32 → (tget 0 t.l.bankrole core).toNat / 4 ^ i % 4 =
          if i < b.2.1 then 2 else if i < b.2.1 + b.2.2 then 1 else if 32 - b.1 ≤ i then 3 else 0))) ∧
    (∀ core, core < 128 → s.eligible x = true → core ∉ s.l.draining →
      let fits := k.cores ≤ s.runsOn k (cores32 core)
      (fits → exec (.bankroleWrite core ln) s = .next s) ∧
      (¬ fits → Goes s (.bankroleWrite core ln) (fun t => t = { s with l := { s.l with draining := s.l.draining ++ [core] } })))

namespace Sys2Proof.Claims

/-- Every lane of a team has exited, its sequencer too, and no engine thread or array entry of it is in flight (R226). -/
def Quiet (s : State) (tk : Nat) : Prop :=
  (∀ gk ∈ s.groupsOf tk, ∀ l, l < (s.group gk).width → (s.lane (lkOf gk l)).st = .exited) ∧ (s.team tk).seq.st = .exited ∧
  (∀ p ∈ s.e.threads, ∀ x, p.2 = some x → x.tk ≠ tk) ∧ (∀ p ∈ s.e.fifo, ∀ x, p.2 = some x → x.tk = tk → x.finished = true)

/-- No access of a team's agents is pending, and no store of theirs is in a core buffer. -/
def StoresGone (s : State) (tk : Nat) : Prop :=
  (∀ p ∈ s.o.pend, ∀ e, p.2 = some e → s.agentTk e.agent ≠ tk) ∧ (∀ p ∈ s.o.cbuf, ∀ b, p.2 = some b → s.agentTk b.agent ≠ tk)

/-- A team may end: R226, and in a gang every other member has acknowledged it (R252). -/
def MayEnd (s : State) (tk : Nat) : Prop :=
  (s.team tk).live = true ∧ (s.team tk).saved = false ∧ Quiet s tk ∧ StoresGone s tk ∧ ∀ y ∈ s.gangOf tk, y = tk ∨ s.acked tk y = true

/-- A team has ended: what it held is gone, and nothing else. -/
structure Ended (s t : State) (tk : Nat) : Prop where
  team : t.team tk = { s.team tk with live := false, gst := .left, fq := [], fwait := [], parked := [] }
  teams : ∀ k, k ≠ tk → t.team k = s.team k
  launch : (t.launchOf (s.team tk).ln).ended = (s.launchOf (s.team tk).ln).ended + 1
  lanes : ∀ k, t.lane k = if k / 2 ^ 30 = tk then {} else s.lane k
  groups : ∀ k, t.group k = if k / 2 ^ 24 = tk then {} else s.group k
  vregs : ∀ k, tget 0 t.g.vreg k = if k / 2 ^ 37 = tk then 0 else tget 0 s.g.vreg k
  sregs : ∀ k, tget 0 t.g.sreg k = if k / 2 ^ 28 = tk then 0 else tget 0 s.g.sreg k
  cregs : ∀ k, tget 0 t.g.creg k = if k / 2 ^ 27 = tk then 0 else tget 0 s.g.creg k
  scratch : ∀ k, tget 0 t.t.scratch k = if k / 2 ^ 40 = tk then 0 else tget 0 s.t.scratch k
  accs : ∀ k, tget 0 t.t.acc k = if k / 2 ^ 26 = tk then 0 else tget 0 s.t.acc k
  slots : ∀ k, tget none t.t.slots k = if k / 2 ^ 8 = tk then none else tget none s.t.slots k
  tags : ∀ k, tget .free t.t.tags k = if k / 2 ^ 8 = tk then .free else tget .free s.t.tags k
  bars : ∀ k, tget {} t.t.bars k = if k / 16 = tk then {} else tget {} s.t.bars k
  rest : t.o = s.o ∧ t.e = s.e ∧ t.h = s.h ∧ t.x = s.x

/-- Every team of a running launch has ended and every child has completed (R289). -/
def Over (s : State) (ln : Nat) : Prop :=
  (tget none s.l.launches ln).isSome = true ∧ (s.launchOf ln).st = .running ∧ (s.launchOf ln).kern.teams ≤ (s.launchOf ln).ended ∧
  ∀ p ∈ s.l.launches, ∀ x, p.2 = some x → x.fromHost = false → x.parent = ln → ∃ c, x.st = .complete c

end Sys2Proof.Claims

/-- R226, R252, R289: a team ends when it may, and its resources are free; a member of a gang that leaves is withdrawn when
the others have acknowledged it. A launch completes with its last team: code 1 when a team of it faulted, 2 when it was
marked, else 0, and a host launch sends LAUNCH_DONE. -/
def Sys2Proof.Claims.TeamEndAndCompletion : Prop :=
  ∀ (s : State) (tk ln : Nat),
    let x := s.launchOf ln
    let code := if x.faulted then 1 else if x.nondet then 2 else 0
    (MayEnd s tk → Goes s (.teamEnd tk) (fun t => Ended s t tk)) ∧
    (¬ MayEnd s tk → exec (.teamEnd tk) s = .next s) ∧
    (MayEnd s tk → 1 < (s.team tk).kern.gang → s.gangState tk = .leaving → Goes s (.sliceWithdraw tk) (fun t => Ended s t tk)) ∧
    ((s.team tk).kern.gang ≤ 1 ∨ s.gangState tk ≠ .leaving → exec (.sliceWithdraw tk) s = .next s) ∧
    (Over s ln → x.kern.det = false → (∀ p ∈ s.l.launches, ∀ y, p.2 = some y → y.fromHost = false → y.parent = ln → y.hist = []) →
      Goes s (.launchComplete ln) (fun t =>
        t.launchOf ln = { x with st := .complete code, pooled := x.pooled && (s.team x.parentTeam).live } ∧
        (∀ k, k ≠ ln → tget none t.l.launches k = tget none s.l.launches k) ∧ t.g = s.g ∧ t.t = s.t ∧ t.o = s.o ∧
        t.h = if x.fromHost then { s.h with events := s.h.events ++ [doneEvent x.kern.ctx x.serial code 0 x.hist] } else s.h)) ∧
    (¬ Over s ln → exec (.launchComplete ln) s = .next s)

namespace Sys2Proof.Claims

/-- A team of no gang that holds its place. -/
def Alone (s : State) (tk : Nat) : Prop := s.liveGang tk = [tk] ∧ (s.team tk).live = true

/-- A record that the team must make room for (R290, R291). -/
def Wanted (s : State) (tk : Nat) : Prop := ∃ p ∈ s.l.launches, (∃ x, p.2 = some x) ∧ s.victim p.1 = some tk

/-- The team on which a record that does not fit falls: of the lowest priority below the record's, the youngest, of
another context. -/
def Falls (s : State) (ln tk : Nat) : Prop :=
  let x := s.launchOf ln
  let low (p : Nat × Team) : Prop := p.2.live = true ∧ p.2.saved = false ∧ p.2.kern.ctx ≠ x.kern.ctx ∧ p.2.kern.prio < x.kern.prio
  s.eligible x = true ∧ s.fitsNow ln = false ∧ ∃ q, (tk, q) ∈ s.t.teams ∧ low (tk, q) ∧
    ∀ p ∈ s.t.teams, low p → q.kern.prio < p.2.kern.prio ∨ (q.kern.prio = p.2.kern.prio ∧ p.1 ≤ tk)

/-- A lane as a save keeps it: one that waits for a translation runs its word again (R308). -/
def savedLane (l : Lane) : Lane :=
  match l.st with
  | .waiting (.merge _ _ _ _ _) => { l with st := .ready, held := [] }
  | .halted (some (.merge _ _ _ _ _)) => { l with st := .halted none, held := [] }
  | _ => l

/-- A team's registers, masks, scratch, accumulators, slots, tags and barriers are as they were (R16); the slots of a team put
back may lie at other places of its core. -/
def HeldKept (s t : State) : Prop :=
  t.g.vreg = s.g.vreg ∧ t.g.sreg = s.g.sreg ∧ t.g.creg = s.g.creg ∧ t.g.jmask = s.g.jmask ∧ t.t.scratch = s.t.scratch ∧
  t.t.acc = s.t.acc ∧ t.t.regions = s.t.regions ∧
  (∀ k, (tget none t.t.slots k).map (fun x => { x with num := 0 }) = (tget none s.t.slots k).map (fun x => { x with num := 0 })) ∧
  t.t.slotCode = s.t.slotCode ∧ t.t.tags = s.t.tags ∧
  t.t.bars = s.t.bars

/-- The entries of a deterministic launch in the order of its serial phase: teams ascending, each team's own order (R296). -/
def PhaseOrder (s : State) (ln : Nat) (es : List DetEntry) : Prop :=
  es.Pairwise (fun a b => a.team ≤ b.team) ∧
  ∀ n, es.filter (fun e => e.team == n) = s.l.det.filter (fun e => e.ln == ln && e.team == n)

/-- A device byte after some entries. -/
def memWord (f : Nat → Nat) (a : Nat) : Nat → Nat
  | 0 => 0
  | n + 1 => memWord f a n + f (a + n) * 2 ^ (8 * n)
def entryValue (f : Nat → Nat) (e : DetEntry) : Nat :=
  let old := memWord f e.loc.space.2 e.size
  match e.kind with
  | .atomic op _ _ _ => (atomNew op old e.val.toNat 0).1
  | .red op => redNew op old e.val.toNat
  | _ => e.val.toNat
def afterEntries (f : Nat → Nat) : List DetEntry → Nat → Nat
  | [] => f
  | e :: es => afterEntries (fun a => if e.loc.space.2 ≤ a ∧ a < e.loc.space.2 + e.size then
      entryValue f e / 2 ^ (8 * (a - e.loc.space.2)) % 256 else f a) es

end Sys2Proof.Claims

/-- R16, R290-R292, R308: PREEMPT_TEAM tells the team to stop that a record needs, the youngest of the lowest priority; once it
has stopped it is saved: it gives its core back and keeps all that it held. TEAM_RESUME puts it back where it fits. -/
def Sys2Proof.Claims.Preemption : Prop :=
  ∀ (s : State) (tk n ln core : Nat),
    let T := s.team tk
    (Falls s ln tk → keysRise s.t.teams = true → s.victim ln = some tk) ∧
    (Alone s tk → T.saved = false → T.stopping = false → (∀ p ∈ s.t.teams, p.2.stopping = false) → s.gangEnding tk = false → Wanted s tk →
      Goes s (.preemptTeam tk) (fun t => t = { s with t := { s.t with teams := t.t.teams } } ∧
        ∀ k, t.team k = if k = tk then { T with stopping := true } else s.team k)) ∧
    (Alone s tk → T.saved = false → T.stopping = false → ¬ Wanted s tk → exec (.preemptTeam tk) s = .next s) ∧
    (Alone s tk → T.saved = false → T.stopping = true → s.stopped tk = false → exec (.preemptTeam tk) s = .next s) ∧
    (Alone s tk → T.saved = false → T.stopping = true → s.stopped tk = true → part (s.root T.kern.ctx) 344 40 = 0 →
      (∀ gk ∈ s.groupsOf tk, ∀ l, l < (s.group gk).width → l < 64) →
      Goes s (.preemptTeam tk) (fun t => HeldKept s t ∧ (t.team tk).saved = true ∧ (t.team tk).stopping = false ∧ (t.team tk).live = true ∧
        (t.team tk).seq = T.seq ∧ (∀ k, k ≠ tk → t.team k = s.team k) ∧ t.o = s.o ∧
        (∀ gk ∈ s.groupsOf tk, ∀ l, l < (s.group gk).width → t.lane (lkOf gk l) = savedLane (s.lane (lkOf gk l))) ∧
        (∀ k, (∀ gk ∈ s.groupsOf tk, ∀ l, l < (s.group gk).width → k ≠ lkOf gk l) → t.lane k = s.lane k) ∧
        (∀ gk ∈ s.groupsOf tk, 128 ≤ (t.group gk).core) ∧ ∀ k, k ∉ s.groupsOf tk → t.group k = s.group k)) ∧
    (∀ u, Alone s tk → T.saved = true → T.kern.cores = 1 → n < 128 → s.waitsForChild tk = false → keysRise s.t.slots = true →
      (∀ p ∈ s.l.launches, ∀ x, p.2 = some x → s.eligible x = true → T.kern.prio < x.kern.prio → s.fitsNow p.1 = false) →
      s.resumeTeam tk [n] = some u →
      Goes s (.teamResume tk n) (fun t => HeldKept s t ∧ (t.team tk).saved = false ∧ (t.team tk).live = true ∧ (t.team tk).cores = [n] ∧
        (∀ k, k ≠ tk → t.team k = s.team k) ∧ t.g.lanes = s.g.lanes ∧ ((∀ p ∈ s.o.l1, p.1 / 2 ^ 48 ≠ n) → t.o.mem = s.o.mem) ∧
        (∀ gk ∈ s.groupsOf tk, (s.group gk).core = 128 → (t.group gk).core = n) ∧ ∀ k, k ∉ s.groupsOf tk → t.group k = s.group k)) ∧
    (T.live = false ∨ T.saved = false ∨ s.waitsForChild tk = true → exec (.teamResume tk core) s = .next s)

/-- R294-R296: the serial phase starts when every group of the grid has arrived; the buffered accesses of the launch are
applied, teams ascending, each in its order, an atomic as an atomic; lines are reclassified; the waiting lanes go on. -/
def Sys2Proof.Claims.SerialPhases : Prop :=
  ∀ (s : State) (ln : Nat),
    let lines (k : Nat) : Owner := tget {} s.l.own k
    (∀ es, s.phaseDue ln = true → PhaseOrder s ln es → s.o.l1 = [] →
      (∀ e ∈ es, 0 < e.size ∧ e.size ≤ 16 ∧ ∃ a pol, e.loc = .dev a pol false) →
      (∀ p ∈ s.t.teams, p.2.ln = ln → p.2.live = true → ∀ gk ∈ s.groupsOf p.1, (s.group gk).width ≤ 64) →
      Goes s (.serialPhase ln) (fun t =>
        (∀ a, byteOf t (.dev a .wb false) = afterEntries (fun a => byteOf s (.dev a .wb false)) es a) ∧
        t.l.det = s.l.det.filter (fun e => e.ln != ln) ∧
        (∀ k, k / 2 ^ 48 = ln → keysRise s.l.own = true → tget {} t.l.own k =
          (let o := lines k
           if o.shared = true ∨ o.deferred = true ∨ 2 ≤ o.touched.length then { shared := true }
           else match o.touched with | w :: _ => { owner := some w } | [] => o)) ∧
        (∀ k, k / 2 ^ 48 ≠ ln → tget {} t.l.own k = tget {} s.l.own k) ∧
        (∀ p ∈ s.t.teams, p.2.ln = ln → p.2.live = true → ∀ gk ∈ s.groupsOf p.1, ∀ l, l < (s.group gk).width →
          t.lane (lkOf gk l) = match (s.lane (lkOf gk l)).st with
            | .waiting .phase => { s.lane (lkOf gk l) with st := .ready, since := 0 }
            | .halted (some .phase) => { s.lane (lkOf gk l) with st := .halted none }
            | _ => s.lane (lkOf gk l)) ∧
        t.g.vreg = s.g.vreg ∧ t.g.sreg = s.g.sreg ∧ t.t = s.t)) ∧
    (s.phaseDue ln = false → exec (.serialPhase ln) s = .next s) ∧
    (∀ p gk, p ∈ s.t.teams → p.2.ln = ln → p.2.live = true → gk ∈ s.groupsOf p.1 → (s.group gk).pair = false →
      (s.teamOf gk).saving = none → (∃ l, l < (s.group gk).width ∧ ((s.lane (lkOf gk l)).st = .ready)) → s.phaseDue ln = false)

namespace Sys2Proof.Claims

/-- What an ERROR event reports (R356): unit, its number and die, action, kind, address, count, launch and team. -/
structure Report where
  unit : Nat
  num : Nat
  die : Nat
  action : Nat
  kind : Nat
  addr : Nat := 0
  count : Nat
  launch : Nat := 0xFFFFFFFF
  team : Nat := 0xFFFFFFFF

/-- One ERROR event has been sent, and ERRSUM counts it (Table 18.5); nothing else of the host interface has changed. -/
def Reports (s t : State) (ctx : Word) (r : Report) : Prop :=
  ∃ v, t.h = { s.h with events := s.h.events ++ [{ kind := 6, ctx := ctx, payload := v, need := [] }], errsum := s.h.errsum + 1 } ∧
    field v 16 8 = r.kind % 2 ^ 8 ∧ field v 24 8 = r.unit % 2 ^ 8 ∧ field v 32 8 = r.action % 2 ^ 8 ∧ field v 40 2 = r.die % 4 ∧
    field v 48 16 = r.num % 2 ^ 16 ∧ field v 352 32 = r.team % 2 ^ 32 ∧ field v 384 32 = r.launch % 2 ^ 32 ∧
    field v 416 32 = r.count % 2 ^ 32 ∧ field v 448 64 = r.addr % 2 ^ 64

/-- The count of a unit's corrected errors, and its key. -/
def errKey (unit num : Nat) : Nat := unit * 65536 + num
def errCount (s : State) (unit num : Nat) : Word := tget 0 s.r.ce (errKey unit num)

/-- The error left memory and every team as they were. -/
def Untouched (s t : State) : Prop := t.g = s.g ∧ t.t = s.t ∧ t.o = s.o ∧ t.e = s.e ∧ t.l = s.l

/-- A team has been killed (R354): its lanes, registers and tables are gone, its sequencer stopped, its records dropped; it
waits for its relaunch, or for the last time ends with its launch FAULTED. -/
structure Killed (s t : State) (tk : Nat) (last : Bool) : Prop where
  team : t.team tk = { s.team tk with live := false, gst := .killed, seq := {}, fq := [], fwait := [], parked := [], saved := false
                                      stopping := false, again := !last }
  teams : ∀ k, k ≠ tk → t.team k = s.team k
  lanes : ∀ k, k / 2 ^ 30 = tk → t.lane k = {}
  vregs : ∀ k, tget 0 t.g.vreg k = if k / 2 ^ 37 = tk then 0 else tget 0 s.g.vreg k
  scratch : ∀ k, tget 0 t.t.scratch k = if k / 2 ^ 40 = tk then 0 else tget 0 s.t.scratch k
  tags : ∀ k, tget .free t.t.tags k = if k / 2 ^ 8 = tk then .free else tget .free s.t.tags k
  entries : ∀ p ∈ t.e.fifo, ∀ x, p.2 = some x → x.tk ≠ tk
  launch : (t.launchOf (s.team tk).ln).faulted = ((s.launchOf (s.team tk).ln).faulted || last) ∧
    (t.launchOf (s.team tk).ln).ended = (s.launchOf (s.team tk).ln).ended + if last then 1 else 0
  memory : t.o.mem = s.o.mem

/-- A team whose kill reaches nothing of others: no access or side of its own is on its way, no thread of another team writes into
its slice, and no halt that names it is open (R236, R355, R364). -/
def KillAlone (s : State) (tk : Nat) : Prop :=
  (∀ p ∈ s.o.pend, ∀ e, p.2 = some e → s.agentTk e.agent ≠ tk) ∧ (∀ p ∈ s.e.sides, ∀ sd, p.2 = some sd → sd.tk ≠ tk) ∧
  (∀ p ∈ s.e.threads, ∀ y, p.2 = some y → y.tk = tk ∨ s.writesInto tk y = false) ∧ ∀ d, d < 4 → s.haltOpen d tk = false

/-- The units that there are, by the numbers of Tables 1.3 and 22.5. -/
def UnitIs (unit num : Nat) : Prop :=
  (unit ∈ [1, 2, 6, 7] ∧ num < 128) ∨ (unit = 3 ∧ num < 1536) ∨ (unit = 4 ∧ num < 8) ∨ (unit ∈ [5, 9] ∧ num = 0) ∨ (unit = 8 ∧ num < 6)

/-- The bytes of HBM stack `num` of Table 18.4, two to a die. -/
def InStack (num a : Nat) : Prop := num < 8 ∧ hbmBase (num / 2) ≤ a ∧ a < hbmBase (num / 2) + hbmBytes

end Sys2Proof.Claims

/-- R352-R356: a corrected error counts, and at each multiple of CETHRESH, which the running image gives, its event follows. An uncorrectable error in memory
poisons its sector; in a clean L2 sector it is refetched and counted; the array's first mismatch is reported; an error in what
only one team holds kills the team, with the report that Table 22.5 gives. -/
def Sys2Proof.Claims.Errors : Prop :=
  ∀ (s : State) (unit num addr : Nat),
    let key := errKey unit num
    let n := errCount s unit num + 1
    let every := Config.ceThresh s.r.running.config
    (s.r.power = true → UnitIs unit num → key ∉ s.r.ceDue → Goes s (.correctedError unit num) (fun t =>
      t = { s with r := { s.r with ce := t.r.ce, ceDue := t.r.ceDue } } ∧ errCount t unit num = n ∧
      (∀ k, k ≠ key → tget 0 t.r.ce k = tget 0 s.r.ce k) ∧
      t.r.ceDue = if every ≠ 0 ∧ n.toNat % every = 0 then s.r.ceDue ++ [key] else s.r.ceDue)) ∧
    (s.r.power = false ∨ ¬ UnitIs unit num ∨ key ∈ s.r.ceDue → exec (.correctedError unit num) s = .next s) ∧
    (key ∈ s.r.ceDue → Goes s (.ceThreshold unit num) (fun t => Untouched s t ∧ t.r = { s.r with ceDue := s.r.ceDue.erase key } ∧
      Reports s t 0xFFFFFFFF { unit := unit, num := unitNo unit num, die := unitDie unit num, action := 0, kind := 1
                               count := (errCount s unit num).toNat })) ∧
    (key ∉ s.r.ceDue → exec (.ceThreshold unit num) s = .next s) ∧
    (s.r.power = false → exec (.uncorrectableError unit num addr) s = .next s) ∧
    (s.r.power = true → unit = 4 → InStack num addr → Goes s (.uncorrectableError unit num addr) (fun t => Untouched s t ∧
      (∀ q, q ∈ t.r.poison ↔ q ∈ s.r.poison ∨ q = addr / 64) ∧
      Reports s t 0xFFFFFFFF { unit := 4, num := num, die := num / 2, action := 3, kind := 2, addr := addr, count := (errCount s 4 num).toNat })) ∧
    (s.r.power = true → unit = 3 → num < 1536 → devHas (addr / 64 * 64) 64 = true → sliceOf (lineNo addr) = num % 384 →
      Goes s (.uncorrectableError unit num addr) (fun t => Untouched s t ∧
        (s.l2Dirty (num / 384) addr = true → ∀ q, q ∈ t.r.poison ↔ q ∈ s.r.poison ∨ q = addr / 64) ∧
        (s.l2Dirty (num / 384) addr = false → t.r.poison = s.r.poison ∧ errCount t 3 num = errCount s 3 num + 1) ∧
        Reports s t 0xFFFFFFFF { unit := 3, num := num % 384, die := num / 384, action := if s.l2Dirty (num / 384) addr then 3 else 2, kind := 2
                                 addr := addr, count := (errCount t 3 num).toNat })) ∧
    (∀ id x, s.r.power = true → unit = 6 → tget none s.e.fifo id = some x → x.core = num → x.started = true → x.finished = false →
      x.unitOf = 1 → (∀ p ∈ s.e.fifo, ∀ y, p.2 = some y → y.core = num → y.started = true → y.finished = false → y.unitOf = 1 → y.tk = x.tk) →
      (addr = 0 → Goes s (.uncorrectableError unit num addr) (fun t => Untouched s t ∧
        Reports s t 0xFFFFFFFF { unit := 6, num := num, die := num / 32, action := 1, kind := 3, count := (errCount s 6 num).toNat })) ∧
      (addr ≠ 0 → (s.team x.tk).live = true → KillAlone s x.tk →
        let last := decide (s.relaunchLimit ≤ (s.team x.tk).relaunches)
        Goes s (.uncorrectableError unit num addr) (fun t => Killed s t x.tk last ∧
          Reports s t (BitVec.ofNat 32 (s.team x.tk).kern.ctx) {
            unit := 6, num := num, die := (s.team x.tk).cores.headD 0 / 32, action := if last then 6 else 4, kind := 3
            count := (errCount s 6 num).toNat, launch := (s.launchOf (s.team x.tk).ln).serial, team := (s.team x.tk).idx }))) ∧
    (∀ owner o, s.r.power = true → unit = 2 → num < 128 → addr < 24 * 65536 → s.poolAcc num addr = some (owner, o) → (s.team owner).live = true →
      KillAlone s owner →
      Goes s (.uncorrectableError unit num addr) (fun t => Killed s t owner (decide (s.relaunchLimit ≤ (s.team owner).relaunches))))

/-- R255, R354: a killed team that may run again is placed afresh from its task record, one attempt later. -/
def Sys2Proof.Claims.Relaunch : Prop :=
  ∀ (s u : State) (tk k : Nat) (cores : List Nat),
    let T := s.team tk
    (T.again = true → T.live = false → T.kern.gang ≤ 1 → s.gangOver tk = true → cores.length = T.kern.cores → k ≠ tk →
      s.placeTeam T.ln T.idx s.next (T.relaunches + 1) cores = some (k, u) →
      Goes s (.taskRelaunch tk cores) (fun t => t.team tk = { T with again := false } ∧
        ((t.team k).relaunches = T.relaunches + 1 ∧ (t.team k).idx = T.idx ∧ (t.team k).ln = T.ln ∧ (t.team k).live = true ∧
          (t.team k).kern = (s.launchOf T.ln).kern) ∧
        (∀ j, j ≠ tk → j ≠ k → t.team j = s.team j) ∧ t.launchOf T.ln = s.launchOf T.ln ∧
        ((∀ p ∈ s.o.l1, p.1 / 2 ^ 48 ∉ cores) → t.o.mem = s.o.mem))) ∧
    (T.again = false → exec (.taskRelaunch tk cores) s = .next s)

namespace Sys2Proof.Claims

/-- Everything but what lasts is at its reset value (R358, Table 1.4, log 48). -/
structure Restarted (s t : State) (mem : List Host.Cell) (stamp : Nat) : Prop where
  lanes : t.g = {} ∧ t.t = {} ∧ t.e = {} ∧ t.x = {} ∧ t.l = {} ∧ t.d = {} ∧ t.iss = {}
  order : t.o = { hostMem := s.o.hostMem, mem := mem, stamp := stamp }
  host : t.h = { devnum := s.h.devnum }
  next : t.turns = s.turns ∧ t.free = s.free ∧ t.next = s.next

/-- The pair of a bank verifies; its firmware does. -/
def fwOk (b : Bank) : Prop := Config.verifies b.firmware = true
def pairOk (b : Bank) : Prop := fwOk b ∧ Config.verifies b.config = true

/-- The bank that runs (R358): bank B when only it verifies, or its version is higher. -/
def Runs_ (r : Hours) (b : Bool) : Prop :=
  (pairOk r.bankA ∧ pairOk r.bankB ∧ (b = true ↔ r.bankA.version < r.bankB.version)) ∨ (pairOk r.bankA ∧ ¬ pairOk r.bankB ∧ b = false) ∨
  (¬ pairOk r.bankA ∧ pairOk r.bankB ∧ b = true) ∨ (¬ pairOk r.bankA ∧ ¬ pairOk r.bankB ∧ fwOk r.bankA ∧ b = false) ∨
  (¬ pairOk r.bankA ∧ ¬ pairOk r.bankB ∧ ¬ fwOk r.bankA ∧ fwOk r.bankB ∧ b = true)

end Sys2Proof.Claims

/-- R12, R357-R362: the clock steps by 100 MHz between 1.5 GHz and its top; a power-up resets all but what lasts;
without power nothing lasts but flash. Bring-up runs its twelve stages in order, each completes or stops it with its
reason; stage 9 clears memory, stage 11 writes the identity record, stage 12 sets READY. An update goes to the bank
that is not running.
Completes (exec answers a next state, under conditions on the state and the operands alone): powerOverLimit,
powerUnderLimit, powerUp, bringUpStage, powerRemoved, signedUpdate. -/
def Obligations.PowerAndBringUp : Prop :=
  ∀ (s : State) (ok : Bool) (reason : Byte) (version image : Nat),
    let n := s.r.stage + 1
    let stage := Instr.bringUpStage ok reason
    let passes (t : State) : Prop := t.h.bootstage = BitVec.ofNat 32 n ∧ t.r.stage = n ∧ t.r.failed = false ∧ t.g = s.g ∧ t.t = s.t
    let fails (t : State) : Prop := t = { s with
      h := { s.h with bootstage := BitVec.ofNat 32 (2 ^ 31 + reason.toNat * 2 ^ 8 + n) }, r := { s.r with failed := true } }
    (s.r.power = true → 1600 ≤ s.r.clock → (∀ d, d < 4 → (s.owl d).trlen = 0) →
      Goes s .powerOverLimit (fun t =>
        t = { s with r := { s.r with clock := s.r.clock - 100 }, f := { s.f with cycles := t.f.cycles }, free := t.free })) ∧
    (s.r.power = false ∨ s.r.clock < 1600 → exec .powerOverLimit s = .next s) ∧
    (s.r.power = true → (∀ d, d < 4 → (s.owl d).grant = 0) → s.r.clock + 100 ≤ 3000 →
      Goes s .powerUnderLimit (fun t => t = { s with r := { s.r with clock := s.r.clock + 100 } })) ∧
    (s.r.power = true → (∀ d, d < 4 → (s.owl d).grant = 0) → 3000 < s.r.clock + 100 → exec .powerUnderLimit s = .next s) ∧
    Goes s .powerUp (fun t => Restarted s t s.o.mem s.o.stamp ∧ t.r.power = true ∧ t.r.clock = 3000 ∧ t.r.stage = 0 ∧ t.r.failed = false ∧
      t.r.bankA = s.r.bankA ∧ t.r.bankB = s.r.bankB ∧ t.r.boots = s.r.boots ∧ t.w.lcc = s.w.lcc ∧ t.w.cycles = s.w.cycles ∧
      t.w.cmps = [] ∧ t.w.bins = [] ∧ t.f.cycles = s.f.cycles ∧
      (keysRise s.f.ports = true → ∀ n,
        let p := s.port n
        t.port n = { lanemap := p.lanemap, spares := p.spares, dead := p.dead, key := p.key, nextKey := p.nextKey, cycles := p.cycles }) ∧
      (keysRise s.w.owl = true → ∀ d,
        let o := s.owl d
        t.owl d = { trbase := o.trbase, trlen := o.trlen, trprod := o.trprod, trcons := o.trcons })) ∧
    Goes s .powerRemoved (fun t => Restarted s t [] 1 ∧ t.w = {} ∧ t.f = {} ∧
      t.r = { power := false, bankA := s.r.bankA, bankB := s.r.bankB, boots := s.r.boots }) ∧
    (s.r.power = false ∨ s.r.failed = true ∨ 12 < n → exec stage s = .next s) ∧
    (s.r.power = true → s.r.failed = false → n ≤ 12 →
      (n = 1 → (∀ b, Runs_ s.r b → Goes s stage (fun t => passes t ∧ t.r.runsB = b)) ∧
        (¬ fwOk s.r.bankA → ¬ fwOk s.r.bankB → Goes s stage fails)) ∧
      (n = 2 → let b := if s.r.runsB then s.r.bankB else s.r.bankA
        (Config.verifies b.config = true → Goes s stage passes) ∧ (Config.verifies b.config = false → Goes s stage fails)) ∧
      (3 ≤ n → n < 9 → (ok = true → Goes s stage passes) ∧ (ok = false → Goes s stage fails)) ∧
      (n = 9 → Goes s stage (fun t => passes t ∧ t.o.mem = [] ∧ t.r.poison = [])) ∧
      (n = 10 → Goes s stage passes) ∧
      (n = 11 → Goes s stage (fun t => passes t ∧ t.r.boots = s.r.boots + 1 ∧ t.r.bankA = s.r.bankA ∧ t.r.bankB = s.r.bankB ∧
        (∀ k, k < 4 → byteOf t (.dev (hbmBase 0 + k) .wb false) = if k = 0 then 1 else 0) ∧
        (∀ k, k < 4 → byteOf t (.dev (hbmBase 0 + 4 + k) .wb false) = (s.r.boots + 1) / 2 ^ (8 * k) % 256) ∧
        ∀ a, ¬ (hbmBase 0 ≤ a ∧ a < hbmBase 0 + 65536) → byteOf t (.dev a .wb false) = byteOf s (.dev a .wb false))) ∧
      (n = 12 → Goes s stage (fun t => passes t ∧ t.h.readyBit = true))) ∧
    (s.r.power = true → Goes s (.signedUpdate version image) (fun t => t = { s with r := t.r } ∧
      let old := if s.r.runsB then s.r.bankA else s.r.bankB
      let new : Bank := if image % 2 = 0 then { old with firmware := image / 2, version := version }
        else { old with config := image / 2, version := version }
      t.r = if s.r.runsB then { s.r with bankA := new } else { s.r with bankB := new })) ∧
    (s.r.power = false → exec (.signedUpdate version image) s = .next s)

namespace Sys2Proof.Claims

/-- An eight-byte number of device memory. -/
def word8 (s : State) (a : Nat) : Nat := valueAt s (fun i => .dev (a + i) .wb false) 8

/-- The tables of a context (R299-R302): the byte of an offset in its table area, the entry of an object. -/
def areaByte (s : State) (ctx o : Nat) : Nat :=
  let r := (tget 0 s.x.roots ctx).toNat
  hbmBase (part r 274 2) + part r 280 40 * 65536 + o
def objectOf (s : State) (ctx obj : Nat) : Nat := valueAt s (fun i => .dev (areaByte s ctx (32 * obj) + i) .wb false) 32
def areaLen (s : State) (ctx : Nat) : Nat := part (tget 0 s.x.roots ctx).toNat 216 40

/-- A valid object whose extent map lies in the table area. -/
structure ObjectOk (s : State) (ctx obj : Nat) : Prop where
  number : 0 < obj ∧ obj < part (tget 0 s.x.roots ctx).toNat 192 24
  valid : part (objectOf s ctx obj) 164 1 = 1
  type : 0 < part (objectOf s ctx obj) 168 8 ∧ part (objectOf s ctx obj) 168 8 ≤ 7 ∧ part (objectOf s ctx obj) 168 8 ≠ 3
  pol : part (objectOf s ctx obj) 166 2 ≠ 0
  reserved : part (objectOf s ctx obj) 165 1 = 0 ∧ part (objectOf s ctx obj) 0 164 = 0
  map : part (objectOf s ctx obj) 176 40 + 8192 ≤ areaLen s ctx

/-- A node entry (R302): valid, LOC 6, L and its RSV field 0, and its node of n bytes inside the table area. -/
def NodeOk (s : State) (ctx e n : Nat) : Prop :=
  part e 63 1 = 1 ∧ part e 60 3 = 6 ∧ part e 53 1 = 0 ∧ part e 44 9 = 0 ∧ 256 * part e 0 40 + n ≤ areaLen s ctx

/-- The offset in the table area of the leaf entry of an offset, where the nodes above it are fit. -/
structure LeafAt (s : State) (ctx obj off leaf : Nat) : Prop where
  top : let e0 := word8 s (areaByte s ctx (part (objectOf s ctx obj) 176 40 + 8 * part off 30 10))
    NodeOk s ctx e0 4096 ∧
    let e1 := word8 s (areaByte s ctx (256 * part e0 0 40 + 8 * part off 21 9))
    NodeOk s ctx e1 256 ∧ leaf = 256 * part e1 0 40 + 8 * part off 16 5

/-- The frame of a leaf entry lies in the memory that it names (Table 17.4). -/
def FrameOk (e : Nat) : Prop :=
  match part e 60 3 with
  | 0 => part e 40 4 ≤ 3 ∧ (part e 0 40 + 1) * 65536 ≤ hbmBytes
  | 1 => (part e 0 40 + 1) * 65536 ≤ tier2Bytes
  | _ => True

/-- Where an entry leads (R303). -/
def leadsTo (e off dpol : Nat) : Loc :=
  let a := part e 0 40 * 65536 + off % 65536
  let pol : Pol := match (if part e 58 2 = 0 then dpol else part e 58 2) with | 2 => .wt | 3 => .uc | _ => .wb
  match part e 60 3 with
  | 0 => .dev (hbmBase (part e 40 4) + a) pol (part e 57 1 == 1)
  | 1 => .dev (tier2Base + a) pol (part e 57 1 == 1)
  | 2 => .peer (part e 40 4) a
  | _ => .host a

end Sys2Proof.Claims

/-- R299-R304: the translation of an offset that no extent cache holds: the object, the three levels of its extent map, the
leaf entry; it sets A, and D for a write or an atomic. An entry that is invalid, absent, migrating, or read-only for a write
makes the access wait; an object that is not there, an offset past its end, or a top entry that is malformed fails. -/
def Sys2Proof.Claims.Translation : Prop :=
  ∀ (s : State) (core ctx obj off leaf : Nat) (kind : AccKind), s.cached core ctx obj (off / 65536) = none →
    let e := word8 s (areaByte s ctx leaf)
    let o := objectOf s ctx obj
    let r := s.translate core ctx obj off kind
    (obj = 0 ∨ part (tget 0 s.x.roots ctx).toNat 192 24 ≤ obj → r = (.fail fcOBJ_INVALID, s)) ∧
    (ObjectOk s ctx obj → off < part o 216 40 →
      let e0 := word8 s (areaByte s ctx (part o 176 40 + 8 * part off 30 10))
      part e0 63 1 = 1 → (part e0 60 3 ≠ 6 ∨ part e0 53 1 = 1 ∨ part e0 44 9 ≠ 0 ∨ areaLen s ctx < 256 * part e0 0 40 + 4096) →
        r = (.fail fcMAP_MALFORMED, s)) ∧
    (ObjectOk s ctx obj → part o 216 40 ≤ off → r = (.fail fcOBJ_BOUNDS, s)) ∧
    (ObjectOk s ctx obj → off < part o 216 40 → LeafAt s ctx obj off leaf →
      (part e 63 1 = 0 → r = (.wait .invalid, s)) ∧
      (part e 63 1 = 1 → part e 44 9 = 0 → part e 53 1 = 0 → FrameOk e →
        (part e 60 3 = 4 → r = (.wait .absent, s)) ∧ (part e 60 3 = 5 → r = (.wait .migrating, s)) ∧
        (part e 60 3 < 4 → kind ≠ .read → part e 56 1 = 0 → r = (.wait .write, s)) ∧
        (part e 60 3 < 4 → (kind ≠ .read → part e 56 1 = 1) →
          r.1 = .ok (leadsTo e off (part o 166 2)) (part o 168 8) (part e 40 4) ∧
          word8 r.2 (areaByte s ctx leaf) = e ||| 2 ^ 54 ||| (if kind = .read then 0 else 2 ^ 55) ∧
          (∀ a, ¬ (areaByte s ctx leaf ≤ a ∧ a < areaByte s ctx leaf + 8) → byteOf r.2 (.dev a .wb false) = byteOf s (.dev a .wb false)) ∧
          r.2.g = s.g ∧ r.2.t = s.t)))

namespace Sys2Proof.Claims

/-- The root of a context as a number, and what a write of its lowest eight bytes makes it (R299). -/
def rootOf (s : State) (ctx : Nat) : Nat := (tget 0 s.x.roots ctx).toNat
def rootPut (s : State) (ctx : Nat) (data : DWord) : Nat := rootOf s ctx / 2 ^ 64 * 2 ^ 64 + data.toNat

/-- A translation command taken (Table 17.6): the port reads 0, not busy, not ignored; nothing else of the host interface. -/
def Taken (s : State) : HostIf := { s.h with tport := 0, tbusy := false, tignored := false }

/-- The merge-table entries of a key are gone, its extent-cache entries too, and each thread that waited in one goes on. -/
structure KeyFreed (s t : State) (ctx obj page : Nat) : Prop where
  merge : t.x.merge = s.x.merge.filter (fun m => !(m.ctx == ctx && m.obj == obj && m.page == page))
  cache : t.x.cache = s.x.cache.filter (fun y => !(y.covers y.place ctx obj page))
  roots : t.x.roots = s.x.roots

end Sys2Proof.Claims

/-- R17, R299, R307-R310, R328: a root's EN makes and ends a context; while EN is 1 the root stands. RESOLVE.RETRY frees the key, and its
waiters translate again; RESOLVE.FAIL gives them NOT_PRESENT, or WRITE_PROTECT. OTFENCE of the host drops the context's cached
entries and is done when the accesses before it are. A command that is not fit is ignored and counted. -/
def Sys2Proof.Claims.ContextsAndCommands : Prop :=
  ∀ (s : State) (ctx obj page : Nat) (data : DWord) (hyper : Bool) (seq : Word), s.h.readyBit = true → ctx < 64 →
    let r := rootOf s ctx
    let n := rootPut s ctx data
    let cmds := [Instr.resolveRetry ctx obj page, .resolveFail ctx obj page, .hostOtfenceDev ctx seq, .hostOtfenceSys ctx seq]
    let missed (r : WaitReason) (o ty n : Nat) : FaultInfo :=
      if r = .write then { code := fcWRITE_PROTECT, off := o, obj := obj, ctype := ty, win := n }
      else { code := fcNOT_PRESENT, off := o, obj := obj, ctype := ty, win := n
             detail := if r = .invalid then 1 else if r = .absent then 2 else 3 }
    let onlyRoot (v : Nat) (t : State) : Prop := t = { s with x := { s.x with roots := t.x.roots } } ∧ rootOf t ctx = v ∧
      ∀ c, c ≠ ctx → rootOf t c = rootOf s c
    -- a host write still on its way comes first
    (s.hostQuiet = false → ∀ i ∈ cmds ++ [.contextCreate ctx data hyper, .contextDestroy ctx, .commandPortStage 0 0 data],
      exec i s = .next s) ∧
    (∀ f, s.h.fences.find? (fun f => f.seq == seq) = some f →
      (s.otBusy f.ctx f.mark 0 = true → exec (.otfenceDone seq) s = .next s) ∧
      (s.otBusy f.ctx f.mark 0 = false → Goes s (.otfenceDone seq) (fun t => ∃ v, field v 0 32 = seq.toNat ∧
        field v 32 8 = (if f.sys then 4 else 3) ∧ t = { s with h := { s.h with fences := s.h.fences.erase f, events := s.h.events ++ [
          { kind := 4, ctx := BitVec.ofNat 32 f.ctx, payload := v, need := [] }] } }))) ∧
    (s.hostQuiet = true →
    (s.ctxEn ctx = false → data.getLsbD 0 = true →
      (data.getLsbD 1 = true → part r 1 1 = 0 → hyper = false → exec (.contextCreate ctx data hyper) s = .next s) ∧
      ((data.getLsbD 1 = true → part r 1 1 = 0 → hyper = true) →
        Goes s (.contextCreate ctx data hyper) (onlyRoot (if part n 448 64 ≠ 0 ∨ part n 320 24 ≠ 0 ∨ part n 276 4 ≠ 0 ∨ part n 256 18 ≠ 0 ∨
          part n 2 190 ≠ 0 then n - 1 else n)))) ∧
    (s.ctxEn ctx = true → exec (.contextCreate ctx data hyper) s = .next s) ∧
    (s.ctxEn ctx = false → exec (.contextDestroy ctx) s = .next s) ∧
    (s.ctxEn ctx = true → keysRise s.t.teams = true → keysRise s.l.launches = true → Goes s (.contextDestroy ctx) (fun t =>
      rootOf t ctx = r - 1 ∧ (∀ c, c ≠ ctx → rootOf t c = rootOf s c) ∧
      (∀ tk, t.team tk = if ((s.team tk).live = true ∨ (s.team tk).again = true) ∧ (s.team tk).kern.ctx = ctx then
        { s.team tk with live := false, gst := .killed, seq := {}, fq := [], fwait := [], parked := [], saved := false, stopping := false
                         again := false } else s.team tk) ∧
      (∀ ln, tget none t.l.launches ln = if (tget none s.l.launches ln).any (fun x => x.kern.ctx == ctx) then none
        else tget none s.l.launches ln) ∧
      tget 0 t.l.serials ctx = 0 ∧ portOf t ctx = {} ∧ (∀ m ∈ t.x.merge, m.ctx ≠ ctx) ∧ ∀ y ∈ t.x.cache, y.ctx ≠ ctx)) ∧
    (s.ctxEn ctx = true → s.h.tport.toNat % 2 ^ 32 = 0 → obj < 2 ^ 24 → page < 2 ^ 24 →
      Goes s (.resolveRetry ctx obj page) (fun t => KeyFreed s t ctx obj page ∧ t.h = Taken s ∧ t.g = s.g ∧ t.t = s.t ∧ t.o = s.o ∧
        ∀ th x, s.thread th = some x → (∀ m ∈ s.x.merge, th ∈ m.threads → m.ctx = ctx ∧ m.obj = obj ∧ m.page = page) →
          t.thread th = some { x with waits := false }) ∧
      (∀ m th x, s.x.merge = [m] → m.ctx = ctx → m.obj = obj → m.page = page → m.groups = [] → m.seqs = [] → m.threads = [th] →
        s.thread th = some x → x.kind ≠ .pair → Goes s (.resolveFail ctx obj page) (fun t => KeyFreed s t ctx obj page ∧
          t.thread th = some { x with status := 1, waits := false } ∧ t.g = s.g ∧ t.t = s.t)) ∧
      (∀ m gk l o ty, s.x.merge = [m] → m.ctx = ctx → m.obj = obj → m.page = page → m.groups = [gk] → m.seqs = [] → m.threads = [] →
        l < (s.group gk).width → (s.group gk).width ≤ 64 → (s.lane (lkOf gk l)).st = .waiting (.merge ctx obj page o ty) → ty ≠ 0 →
        (∀ j, j < (s.group gk).width → j ≠ l → (s.lane (lkOf gk j)).st = .exited) →
        (∀ p ∈ s.o.pend, ∀ e, p.2 = some e → e.tr = none) →
        ∃ u, KeyFreed s u ctx obj page ∧ u.h = Taken s ∧ u.g = s.g ∧ u.t = s.t ∧
          exec (.resolveFail ctx obj page) s = .next (u.raise (lkOf gk l) (s.lane (lkOf gk l)).pc
            (missed m.reason o ty ((s.lane (lkOf gk l)).winAgain (s.lane (lkOf gk l)).pc
              (if m.reason = .write then fcWRITE_PROTECT else fcNOT_PRESENT))))) ∧
      -- an access that waits at the memory port fails as a late fault of its lane (R50)
      (∀ m gk k e tr, s.x.merge = [m] → m.ctx = ctx → m.obj = obj → m.page = page → m.groups = [gk] → m.seqs = [] → m.threads = [] →
        s.o.pend = [(k, some e)] → e.tr = some tr → e.gk = gk → (s.kern gk).ctx = ctx → Cap.obj e.cap = obj → e.page = page →
        Cap.type e.cap ≠ 0 → (∀ j, (s.lane (lkOf gk j)).st = .ready ∨ (s.lane (lkOf gk j)).st = .exited) →
        ∃ u, KeyFreed s u ctx obj page ∧ u.h = Taken s ∧ u.g = s.g ∧ u.t = s.t ∧ u.o = s.o ∧
          exec (.resolveFail ctx obj page) s = .next (u.lateFault k e (missed m.reason e.off (Cap.type e.cap) 0))) ∧
      (∀ sys : Bool, Goes s (if sys then .hostOtfenceSys ctx seq else .hostOtfenceDev ctx seq) (fun t =>
        t.h = { Taken s with fences := s.h.fences ++ [{ ctx := ctx, seq := seq, sys := sys, mark := s.next }] } ∧ t.next = s.next + 1 ∧
        t.x = { s.x with cache := s.x.cache.filter (fun y => y.ctx != ctx) } ∧ t.g = s.g ∧ t.o = s.o))) ∧
    (∀ i ∈ cmds, (s.ctxEn ctx = false ∨ s.h.tport.toNat % 2 ^ 32 ≠ 0) → Goes s i (fun t =>
      t = { s with h := { s.h with tport := 0, tbusy := false, tignored := true, tcign := s.h.tcign + 1 } })) ∧
    Goes s (.commandPortStage 0 0 data) (fun t => t = { s with h := { s.h with tport := t.h.tport } } ∧
      t.h.tport.toNat = s.h.tport.toNat / 2 ^ 64 * 2 ^ 64 + data.toNat) ∧
    (∀ d, d < 4 → Goes s (.commandPortStage (d + 1) 8 data) (fun t => t = { s with w := { s.w with owl := t.w.owl } } ∧
      (let n := (s.owl d).cmd.toNat
       (t.owl d).cmd.toNat = part n 0 32 + part n 42 22 * 2 ^ 42 + data.toNat * 2 ^ 64) ∧ (t.owl d).sampctl = (s.owl d).sampctl ∧
      (t.owl d).grant = (s.owl d).grant ∧ ∀ k, k ≠ d → t.owl k = s.owl k)))

/-- R271, R320, R321, R324, R326, Tables 18.4-18.6: the host writes memory through its windows, by way of the system
buffer, and reads it once its writes have been performed; a read of TCIGN or of a port's DLCOUNT gives it and clears
it; ones written to LPFULL clear its bits; event control is written, by registers of 4 or 8 bytes; the first event
that is ready goes into the ring at EVPROD, unless the ring is full. Before READY writes are ignored.
Completes (exec answers a next state, under conditions on the state and the operands alone): hostMemoryWrite,
hostMemoryRead, tcignRead, dlcountRead, lpfullClear, registerWrite, eventRingWrite. -/
def Obligations.HostInterface : Prop :=
  ∀ (s : State) (addr size port : Nat) (data : BitVec 512) (v : DWord) (hyper : Bool),
    let only (t : State) : Prop := t = { s with h := t.h }
    (s.h.readyBit = false → exec (.hostMemoryWrite addr size data) s = .next s) ∧
    (s.h.readyBit = true → 0 < size → size ≤ 64 → devHas addr size = true → Goes s (.hostMemoryWrite addr size data) (fun t =>
      t = { s with o := { s.o with sbuf := t.o.sbuf }, next := s.next + 1 } ∧
      (∀ k, k ≠ s.next → tget none t.o.sbuf k = tget none s.o.sbuf k) ∧ ∃ b, tget none t.o.sbuf s.next = some b ∧
        b.agent = hostAgent ∧ b.loc = .dev addr .wb false ∧ b.size = size ∧ b.val = data ∧ b.rel = [])) ∧
    (s.hostQuiet = false → ∀ i ∈ [Instr.hostMemoryRead addr size, .tcignRead, .dlcountRead port, .lpfullClear v,
      .registerWrite addr size v hyper], exec i s = .next s) ∧
    (s.hostQuiet = true → 0 < size → size ≤ 8 → 2 ^ 40 ≤ addr → devHas addr size = true → (addr < 2 ^ 42 ∨ addr % size = 0) →
      Goes s (.hostMemoryRead addr size) (fun t => t = { s with h := { s.h with readData := t.h.readData } } ∧
        t.h.readData.toNat = valueAt s (fun i => .dev (addr + i) .wb false) size)) ∧
    (s.hostQuiet = true → Goes s .tcignRead (fun t => t = { s with h := { s.h with tcign := 0, readData := t.h.readData } } ∧ t.h.readData.toNat = s.h.tcign.toNat)) ∧
    (s.hostQuiet = true → port < 15 → Goes s (.dlcountRead port) (fun t =>
      t.h = { s.h with readData := t.h.readData } ∧ t.h.readData.toNat = (s.port port).dlcount.toNat ∧
      t.port port = { s.port port with dlcount := 0 } ∧ (∀ k, k ≠ port → t.port k = s.port k) ∧ t.g = s.g ∧ t.o = s.o)) ∧
    (s.hostQuiet = true → Goes s (.lpfullClear v) (fun t => t = { s with h := { s.h with lpfull := t.h.lpfull } } ∧
      ∀ j, j < 64 → t.h.lpfull.getLsbD j = (s.h.lpfull.getLsbD j && !v.getLsbD j))) ∧
    (s.h.readyBit = true → s.hostQuiet = true → Goes s (.registerWrite 0x58 8 v hyper) (fun t => only t ∧ t.h = { s.h with evbase := v }) ∧
      Goes s (.registerWrite 0x54 4 v hyper) (fun t => only t ∧ t.h = { s.h with evlen := v.truncate 32 }) ∧
      Goes s (.registerWrite 0x50 4 v hyper) (fun t => only t ∧ t.h = { s.h with evcons := v.truncate 32 })) ∧
    (s.h.readyBit = false → addr < 2 ^ 40 → 0x40 ≤ addr → exec (.registerWrite addr size v hyper) s = .next s) ∧
    ((size ≠ 4 ∧ size ≠ 8) ∨ addr % size ≠ 0 → exec (.registerWrite addr size v hyper) s = .next s) ∧
    (∀ e a b, s.h.events = a ++ e :: b → (∀ x ∈ a, s.eventReady x = false) →
      (∀ k ∈ e.need, tget none s.o.cbuf k = none ∧ tget none s.o.sbuf k = none) →
      let n := s.h.evlen.toNat / 128
      let p := s.h.evprod.toNat % n
      (n = 0 ∨ (p + n - s.h.evcons.toNat % n) % n = n - 1 → exec .eventRingWrite s = .next s) ∧
      (0 < n → (p + n - s.h.evcons.toNat % n) % n ≠ n - 1 → Goes s .eventRingWrite (fun t =>
        t = { s with o := { s.o with hostMem := t.o.hostMem }, h := { s.h with
          events := a ++ b, evseq := s.h.evseq + 1, evprod := BitVec.ofNat 32 ((s.h.evprod.toNat + 1) % n) } } ∧
        let at_ := s.h.evbase.toNat + p * 128
        let rec_ := e.kind % 2 ^ 32 + e.ctx.toNat * 2 ^ 32 + s.h.evseq.toNat * 2 ^ 64 + e.payload.toNat * 2 ^ 128
        ∀ k, tget 0 t.o.hostMem k = if at_ ≤ k ∧ k < at_ + 128 then BitVec.ofNat 8 (rec_ / 2 ^ (8 * (k - at_))) else tget 0 s.o.hostMem k)))

namespace Sys2Proof.Claims

/-- Only the directory and the L2 lines move: no byte of memory, no register. -/
def OnlyDir (s t : State) : Prop := t = { s with d := t.d }

/-- The line of one die changes; its home slice may take dirty sectors. -/
def LineBecomes (s t : State) (line die : Nat) (x : L2Line) : Prop :=
  t.l2Line line die = x ∧ ∀ l d, d < 4 → ¬ (l = line ∧ d = die) → t.l2Line l d = s.l2Line l d

/-- The lines of the L2s are as they were, but that the home slice of a line takes dirty sectors. -/
def HomeTakes (s t : State) (line : Nat) (dirty : BitVec 8) : Prop :=
  let x := s.l2Line line (homeOf line)
  LineBecomes s t line (homeOf line) { x with valid := x.valid ||| dirty, dirty := x.dirty ||| dirty }

/-- One request of the home becomes another. -/
def ReqBecomes (s t : State) (r r' : DirReq) : Prop := t.d.reqs = s.d.reqs.map (fun x => if x = r then r' else x)

/-- The dies that hold a line, and the directory state in which a set of dies shares it (R315). -/
def Holds_ (x : DirSt) (d : Nat) : Prop :=
  match x with | .uncached => False | .shared v => v.getLsbD d = true ∧ d < 4 | .exclusive o => d = o
def SharedBy (x : DirSt) (P : Nat → Prop) : Prop :=
  ((∃ d, d < 4 ∧ P d) → ∃ v, x = .shared v ∧ ∀ d, d < 4 → (v.getLsbD d = true ↔ P d)) ∧ ((∀ d, d < 4 → ¬ P d) → x = .uncached)

/-- No request for a line is at its home. -/
def Idle (s : State) (line : Nat) : Prop := ∀ r ∈ s.d.reqs, r.line ≠ line

/-- The snoop filter has room for the line as a request of the die needs it (R318). -/
def FilterRoom (s : State) (line die : Nat) : Prop := die = homeOf line ∨ line ∈ s.d.filter ∨ (s.filterSet line).length < 16

/-- The directory state of one line changes. -/
def DirBecomes (s t : State) (line : Nat) (P : DirSt → Prop) : Prop := P (t.dirSt line) ∧ ∀ l, l ≠ line → t.dirSt l = s.dirSt l

end Sys2Proof.Claims

/-- R315-R318, Tables 18.1, 18.2: a die that does not hold a line so asks for it, and its home serves one request for a line at
a time: a Downgrade goes to another owner for a GetS, an Inv to every other holder for a GetM. With the acknowledgements in, the
grant leaves the state of Table 18.1 and the requester's line in S, E or M. A set of the filter that is full first recalls its
least recently used line. -/
def Sys2Proof.Claims.DirectoryRequests : Prop :=
  ∀ (s : State) (line die sector : Nat) (r : DirReq), lineOk line die = true →
    let x := s.l2Line line die
    let new (k : ReqKind) (tgt : List Nat) : DirReq :=
      { line := line, die := die, kind := k, sectors := 1 <<< (sector % 8), active := true, msgs := tgt, acks := tgt }
    let asks (k : ReqKind) (st : L2St) (tgt : List Nat) (i : Instr) : Prop := Goes s i (fun t => OnlyDir s t ∧
      LineBecomes s t line die { x with st := st } ∧ t.d.reqs = s.d.reqs ++ [new k tgt] ∧ t.d.dir = s.d.dir ∧ t.d.filter = s.d.filter)
    (Idle s line → FilterRoom s line die →
      (x.st = .i →
        (s.dirSt line = .uncached → asks .gets .is [] (.gets line die sector) ∧ asks .getm .im [] (.getm line die sector)) ∧
        (∀ o, s.dirSt line = .exclusive o → o ≠ die →
          asks .gets .is [o] (.gets line die sector) ∧ asks .getm .im [o] (.getm line die sector)) ∧
        (∀ v, s.dirSt line = .shared v → asks .gets .is [] (.gets line die sector) ∧
          asks .getm .im ((List.range 4).filter (fun d => v.getLsbD d && d != die)) (.getm line die sector))) ∧
      (x.st = .s → ∀ v, s.dirSt line = .shared v →
        asks .getm .sm ((List.range 4).filter (fun d => v.getLsbD d && d != die)) (.getm line die sector))) ∧
    (Idle s line → (x.st = .s ∨ x.st = .e ∨ x.st = .m) → exec (.gets line die sector) s = .next s) ∧
    (∀ v rest, Idle s line → Idle s v → ¬ FilterRoom s line die → x.st = .i → s.filterSet line = v :: rest →
      (∀ q ∈ s.d.reqs, q.kind ≠ .recall) → Goes s (.gets line die sector) (fun t => OnlyDir s t ∧ ∃ q, t.d.reqs = s.d.reqs ++
        [{ line := line, die := die, kind := .gets, sectors := 1 <<< (sector % 8) }, q] ∧ q.line = v ∧ q.kind = .recall ∧ q.active = true ∧
        q.acks = q.msgs ∧ ∀ d, d ∈ q.msgs ↔ d ∈ (s.dirSt v).holders ∧ d ≠ homeOf v)) ∧
    (s.busyReq line = some r → r.die = die → r.kind ≠ .recall →
      (r.acks ≠ [] → exec (.grant line die) s = .next s) ∧
      (r.acks = [] → Goes s (.grant line die) (fun t => OnlyDir s t ∧ t.d.reqs = s.d.reqs.erase r ∧
        (r.kind = .getm → DirBecomes s t line (· = .exclusive die)) ∧
        (r.kind = .gets →
          (s.dirSt line = .uncached → DirBecomes s t line (· = .exclusive die)) ∧
          (∀ v, s.dirSt line = .shared v → die < 4 → DirBecomes s t line (fun y => SharedBy y (fun d => d = die ∨ Holds_ (.shared v) d))) ∧
          (∀ o, s.dirSt line = .exclusive o → o ≠ die → o < 4 → DirBecomes s t line (fun y => SharedBy y (fun d => d = die ∨ d = o)))) ∧
        (x.st = .is → LineBecomes s t line die { x with
          st := if t.dirSt line = .exclusive die then .e else .s, valid := x.valid ||| r.sectors }) ∧
        (x.st = .im ∨ x.st = .sm → LineBecomes s t line die { st := .m, valid := x.valid ||| r.sectors, dirty := x.dirty ||| r.sectors }))))

/-- R315-R318, Tables 18.1, 18.2: what an Inv and a Downgrade make of a holder's line; the acknowledgement brings its dirty
sectors to the home slice. An eviction leaves S or E at once and M through MI; the home takes the die out of the state, or
discards what comes from a die that is no holder; its acknowledgement ends MI and II. A holder fetches a sector it lacks. -/
def Sys2Proof.Claims.DirectoryAnswers : Prop :=
  ∀ (s : State) (line die sector : Nat) (r : DirReq), lineOk line die = true →
    let x := s.l2Line line die
    let gone : L2Line := if die = homeOf line then { st := .i, valid := x.dirty, dirty := x.dirty } else {}
    (s.busyReq line = some r → die ∈ r.msgs → r.kind ≠ .gets →
      Goes s (.inv line die) (fun t => OnlyDir s t ∧ t.d.dir = s.d.dir ∧
        ReqBecomes s t r { r with msgs := r.msgs.erase die
                                  dirty := if x.st = .m ∨ x.st = .mi then r.dirty ||| x.dirty else r.dirty } ∧
        (x.st = .s ∨ x.st = .e ∨ x.st = .m → LineBecomes s t line die gone) ∧
        (x.st = .sm → LineBecomes s t line die { gone with st := .im }) ∧
        (x.st = .mi → LineBecomes s t line die { x with st := .ii }))) ∧
    (s.busyReq line = some r → die ∈ r.msgs → r.kind = .gets →
      Goes s (.downgrade line die) (fun t => OnlyDir s t ∧ t.d.dir = s.d.dir ∧
        ReqBecomes s t r { r with msgs := r.msgs.erase die, acks := r.acks.erase die } ∧
        (x.st = .e → LineBecomes s t line die { x with st := .s }) ∧
        (x.st = .m → die ≠ homeOf line → t.l2Line line die = { x with st := .s, dirty := 0 } ∧
          t.l2Line line (homeOf line) = { s.l2Line line (homeOf line) with
            valid := (s.l2Line line (homeOf line)).valid ||| x.dirty, dirty := (s.l2Line line (homeOf line)).dirty ||| x.dirty }))) ∧
    (s.busyReq line = some r → die ∈ r.acks → die ∉ r.msgs → r.kind ≠ .gets → r.kind ≠ .recall →
      Goes s (.invAck line die) (fun t => OnlyDir s t ∧ t.d.dir = s.d.dir ∧ HomeTakes s t line r.dirty ∧
        ReqBecomes s t r { r with acks := r.acks.erase die, dirty := 0 })) ∧
    (s.busyReq line = some r → r.acks = [die] → die ∉ r.msgs → r.kind = .recall →
      Goes s (.invAck line die) (fun t => OnlyDir s t ∧ HomeTakes s t line r.dirty ∧
        DirBecomes s t line (fun y => SharedBy y (fun d => Holds_ (s.dirSt line) d ∧ d = homeOf line)) ∧ line ∉ t.d.filter)) ∧
    (∀ k i, (k, i) ∈ [(ReqKind.puts, Instr.puts line die), (.pute, .pute line die), (.putm, .putm line die)] →
      s.dirReq line die = some r → r.kind = k → r.active = false → s.reqTurn r = true → Goes s i (fun t => OnlyDir s t ∧
        ReqBecomes s t r { r with active := true } ∧
        (∀ v, s.dirSt line = .shared v → v.getLsbD die = true → DirBecomes s t line (fun y => SharedBy y (fun d => Holds_ (.shared v) d ∧ d ≠ die)) ∧
          t.d.l2 = s.d.l2) ∧
        (s.dirSt line = .exclusive die → k ≠ .puts → DirBecomes s t line (· = .uncached) ∧ HomeTakes s t line r.dirty) ∧
        (¬ Holds_ (s.dirSt line) die → t.d.dir = s.d.dir ∧ t.d.l2 = s.d.l2))) ∧
    ((s.dirReq line die = none) → (∀ i, i < 8 → tget none s.o.nc (ncKey die (line * 512 + 64 * i)) = none) →
      let evicts (k : ReqKind) (y : L2Line) (dirty : BitVec 8) : Prop := Goes s (.l2Eviction line die) (fun t => OnlyDir s t ∧
        LineBecomes s t line die y ∧ t.d.reqs = s.d.reqs ++ [{ line := line, die := die, kind := k, dirty := dirty }] ∧ t.d.dir = s.d.dir)
      (x.st = .s → evicts .puts gone 0) ∧ (x.st = .e → evicts .pute gone 0) ∧ (x.st = .m → evicts .putm { x with st := .mi } x.dirty)) ∧
    (s.dirReq line die = some r → (r.kind = .puts ∨ r.kind = .pute ∨ r.kind = .putm) → r.active = true →
      Goes s (.putAck line die) (fun t => OnlyDir s t ∧ t.d.reqs = s.d.reqs.erase r ∧ t.d.dir = s.d.dir ∧
        (x.st = .mi ∨ x.st = .ii → LineBecomes s t line die gone))) ∧
    (sector < 8 → (x.st = .s ∨ x.st = .e ∨ x.st = .m) → Goes s (.sectorFetch line die sector) (fun t => OnlyDir s t ∧
      LineBecomes s t line die { x with valid := x.valid ||| 1 <<< sector } ∧ t.d.reqs = s.d.reqs ∧ t.d.dir = s.d.dir))

namespace Sys2Proof.Claims

/-- One port of the fabric unit changes; the event interface may have moved, and free values may have been drawn. -/
structure PortBecomes (s t : State) (port : Nat) (x : Port) : Prop where
  frame : t = { s with f := { s.f with ports := t.f.ports }, h := { s.h with events := t.h.events }, free := t.free }
  this : t.port port = x
  others : ∀ k, k ≠ port → t.port k = s.port k

/-- What a LINK event reports of a port (Table 19.5), as the port is then. -/
def LinkRecord (t : State) (port cause via link lane : Nat) (v : BitVec 512) : Prop :=
  field v 32 8 = cause ∧ field v 28 4 = port ∧ field v 24 4 = (t.port port).peerdev % 16 ∧ field v 20 4 = via % 16 ∧
    field v 18 2 = link ∧ field v 16 2 = (t.port port).spares % 4 ∧ field v 10 5 = lane ∧
    field v 416 32 = (t.port port).dlcount.toNat ∧ field v 448 64 = (t.port port).txctr.toNat

/-- Exactly one LINK event is sent. -/
def OneLink (s t : State) (port cause link lane : Nat) : Prop :=
  ∃ v, t.h.events = s.h.events ++ [{ kind := 8, ctx := 0xFFFFFFFF, payload := v, need := [] }] ∧ LinkRecord t port cause 0 link lane v

/-- LINK events are sent, the first of them for a cause. -/
def LinkFirst (s t : State) (causes : List Nat) : Prop :=
  ∃ es, t.h.events = s.h.events ++ es ∧ es.map (fun e => field e.payload 32 8) = causes ∧ ∀ e ∈ es, e.kind = 8 ∧ e.ctx = 0xFFFFFFFF

/-- A port that carries traffic, or holds it. -/
def Linked (p : Port) : Prop := 2 ≤ p.state

/-- An access of a peer that this device admits (R332, R333): bit e of PEERADMIT is 1 and the bytes lie in device memory. -/
def Admitted (s : State) (dev addr n : Nat) : Prop :=
  s.h.readyBit = true ∧ dev < 16 ∧ s.f.peeradmit.getLsbD dev = true ∧ 0 < n ∧ devHas addr n = true ∧ 2 ^ 40 ≤ addr

/-- Bytes of device memory from an address on take the bytes of a value; no other byte changes, nor any team or register. -/
def MemoryTakes (s t : State) (addr n v : Nat) : Prop :=
  t = { s with o := { s.o with mem := t.o.mem, old := t.o.old, stamp := t.o.stamp, rels := t.o.rels }, r := { s.r with poison := t.r.poison } } ∧
    ∀ a, devByte t a = if addr ≤ a ∧ a < addr + n then v / 2 ^ (8 * (a - addr)) % 256 else devByte s a

end Sys2Proof.Claims

/-- R330, R340-R343, Table 19.5: a port delivers flits in counter order, each once, and drops a failed one; an
acknowledgement moves the counter on; a spare lane takes a dead lane's place, and where none is free a link fails; a link that
fails, and the last one that takes the port DOWN; a port that comes UP; a packet that moves to the escape channel. -/
def Sys2Proof.Claims.FabricPorts : Prop :=
  ∀ (s : State) (port ctr lane link chan : Nat), port < 15 →
    let p := s.port port
    (∀ good, Linked p → p.held.Nodup → p.rxctr ∉ p.held →
      (good = false ∨ ctr < p.rxctr ∨ ctr ∈ p.held → exec (.flitReceive port ctr good) s = .next s) ∧
      (p.rxctr ≤ ctr → ctr ∉ p.held → Goes s (.flitReceive port ctr true) (fun t =>
        ∃ n h, PortBecomes s t port { p with rxctr := n, held := h } ∧ t.h = s.h ∧
          (ctr ≠ p.rxctr → n = p.rxctr) ∧ p.rxctr ≤ n ∧ n ∉ h ∧ h.Nodup ∧
          (∀ k, p.rxctr ≤ k → k < n → k = ctr ∨ k ∈ p.held) ∧
          (∀ k, k ∈ h ↔ (k = ctr ∨ k ∈ p.held) ∧ ¬ (p.rxctr ≤ k ∧ k < n))))) ∧
    (Linked p → p.acked ≤ ctr → ctr < 2 ^ 64 - 1 → Goes s (.flitAck port ctr) (fun t =>
      PortBecomes s t port { p with acked := ctr + 1, txctr := (t.port port).txctr } ∧ t.h = s.h ∧
      (t.port port).txctr.toNat = max p.txctr.toNat (ctr + 1))) ∧
    (lane < 18 → p.lanemap.getLsbD lane = true → 0 < p.spares → p.spares ≤ 2 →
      (∃ n, n < 18 ∧ p.lanemap.getLsbD n = false ∧ p.dead.getLsbD n = false) → Goes s (.laneSpare port lane) (fun t =>
        ∃ new l, new < 18 ∧ l < 4 ∧ p.lanemap.getLsbD new = false ∧ p.dead.getLsbD new = false ∧
          PortBecomes s t port { p with lanemap := (t.port port).lanemap, dead := (t.port port).dead, spares := p.spares - 1 } ∧
          (∀ k, k < 18 → (t.port port).lanemap.getLsbD k = (decide (k = new) || (p.lanemap.getLsbD k && decide (k ≠ lane)))) ∧
          (∀ k, k < 18 → (t.port port).dead.getLsbD k = (p.dead.getLsbD k || decide (k = lane))) ∧ OneLink s t port 1 l lane)) ∧
    (lane < 18 → p.lanemap.getLsbD lane = true → p.spares = 0 →
      let lanes (t : State) : Prop :=
        (∀ k, k < 18 → (t.port port).lanemap.getLsbD k = (p.lanemap.getLsbD k && decide (k ≠ lane))) ∧
        ∀ k, k < 18 → (t.port port).dead.getLsbD k = (p.dead.getLsbD k || decide (k = lane))
      ((∃ j k, j < k ∧ k < 4 ∧ p.linkup.getLsbD j = true ∧ p.linkup.getLsbD k = true) → Goes s (.laneSpare port lane) (fun t =>
        lanes t ∧ ∃ l, l < 4 ∧ p.linkup.getLsbD l = true ∧
          PortBecomes s t port { p with lanemap := (t.port port).lanemap, dead := (t.port port).dead, linkup := (t.port port).linkup } ∧
          (∀ k, k < 4 → (t.port port).linkup.getLsbD k = (p.linkup.getLsbD k && decide (k ≠ l))) ∧ OneLink s t port 2 l 0)) ∧
      (∀ l, l < 4 → (∀ k, k < 4 → (p.linkup.getLsbD k = true ↔ k = l)) → Goes s (.laneSpare port lane) (fun t =>
        lanes t ∧ (t.port port).state = 0 ∧ (t.port port).linkup = 0 ∧ t.g = s.g ∧ t.o = s.o ∧
        ∃ cs, LinkFirst s t (2 :: 3 :: cs) ∧ ∀ c ∈ cs, c = 5))) ∧
    (link < 4 → p.linkup.getLsbD link = true → (∃ k, k < 4 ∧ k ≠ link ∧ p.linkup.getLsbD k = true) →
      Goes s (.linkFail port link) (fun t => PortBecomes s t port { p with linkup := (t.port port).linkup } ∧
        (∀ k, k < 4 → (t.port port).linkup.getLsbD k = (p.linkup.getLsbD k && decide (k ≠ link))) ∧ OneLink s t port 2 link 0)) ∧
    (link < 4 → (∀ k, k < 4 → (p.linkup.getLsbD k = true ↔ k = link)) → Goes s (.linkFail port link) (fun t =>
      (t.port port).state = 0 ∧ (t.port port).linkup = 0 ∧ (t.port port).held = [] ∧ t.g = s.g ∧ t.o = s.o ∧
      (∀ v, (t.port port).detour = some v → v < 16 ∧ v ≠ s.h.devnum ∧ v ≠ s.peerOf port) ∧
      (∀ k, k ≠ port → t.port k = { s.port k with detour := (t.port k).detour }) ∧
      ∃ cs, LinkFirst s t (2 :: 3 :: cs) ∧ ∀ c ∈ cs, c = 5)) ∧
    (9 ≤ s.r.stage → p.state < 2 → p.keyst ≠ 2 → Goes s (.portUp port) (fun t =>
      PortBecomes s t port { p with state := 2, linkup := 15, peerdev := (s.h.devnum + port + 1) % 16, detour := none
                                    lanemap := (t.port port).lanemap } ∧
      (p.lanemap ≠ 0 → (t.port port).lanemap = p.lanemap) ∧
      (p.lanemap = 0 → ((List.range 18).filter (fun k => (t.port port).lanemap.getLsbD k)).length = 16) ∧ OneLink s t port 4 0 0)) ∧
    (Linked p → chan ≤ 1 → Goes s (.escapeMove port chan) (fun t =>
      PortBecomes s t port { p with dlcount := p.dlcount + 1 } ∧ t.h = s.h))

/-- R343, Table 19.5: a key written to a port is the next key; at the key-switch flit both ends change key, the counter starts
again at 0 and a held port goes on; a port that would take the counter's last value without one holds its traffic, and goes DOWN
when the grace time has passed. -/
def Sys2Proof.Claims.FabricKeys : Prop :=
  ∀ (s : State) (port : Nat) (key : BitVec 256), port < 15 →
    let p := s.port port
    Goes s (.keyInstall port key) (fun t => PortBecomes s t port { p with nextKey := key, keyst := 1 } ∧ t.h = s.h) ∧
    (Linked p → p.keyst = 1 → Goes s (.keySwitch port) (fun t =>
      PortBecomes s t port { p with txctr := 0, acked := 0, rxctr := 0, held := [], key := p.nextKey, keyst := 0, state := 2 } ∧ OneLink s t port 7 0 0)) ∧
    (Linked p → p.keyst ≠ 1 → exec (.keySwitch port) s = .next s) ∧
    (p.state = 2 → p.keyst = 0 → p.txctr.toNat = 2 ^ 64 - 1 → Goes s (.flitCounterExhausted port) (fun t =>
      PortBecomes s t port { p with state := 3, keyst := 2 } ∧ OneLink s t port 6 0 0)) ∧
    (p.txctr.toNat ≠ 2 ^ 64 - 1 ∨ p.keyst ≠ 0 → exec (.flitCounterExhausted port) s = .next s) ∧
    (p.state = 3 → p.keyst = 2 → Goes s (.rekeyGraceExpiry port) (fun t =>
      (t.port port).state = 0 ∧ (t.port port).keyst = 2 ∧ (t.port port).txctr = p.txctr ∧ t.g = s.g ∧ t.o = s.o ∧
      (∀ k, k ≠ port → t.port k = { s.port k with detour := (t.port k).detour }) ∧
      ∃ cs, LinkFirst s t (3 :: cs) ∧ ∀ c ∈ cs, c = 5)) ∧
    (p.state = 3 → p.keyst = 1 → exec (.rekeyGraceExpiry port) s = .next s)

/-- R271, R332, R333, R335: a store of a peer enters the system buffer, an atomic is performed here as this device's memory has it, a load changes nothing,
and a packet of a bulk transfer lands whole; what PEERADMIT does not admit leaves the device as it was. -/
def Sys2Proof.Claims.AccessesOfPeers : Prop :=
  ∀ (s : State) (dev addr size : Nat) (data : DWord) (o : Aop) (bytes : List Byte) (counter : Word),
    (s.h.readyBit = true → dev < 16 → s.f.peeradmit.getLsbD dev = false →
      (∀ op, exec (.peerAccessArrive dev addr size op data) s = .next s) ∧
      exec (.bulkPacketArrive dev addr bytes counter) s = .next s) ∧
    (Admitted s dev addr size → size ∈ [1, 2, 4, 8] → addr % size = 0 →
      Goes s (.peerAccessArrive dev addr size .store data) (fun t =>
        t = { s with o := { s.o with sbuf := t.o.sbuf }, next := s.next + 1 } ∧
        (∀ k, k ≠ s.next → tget none t.o.sbuf k = tget none s.o.sbuf k) ∧ ∃ b, tget none t.o.sbuf s.next = some b ∧
          b.agent = peerAgent dev ∧ b.loc = .dev addr .wb false ∧ b.size = size ∧ b.val.toNat = data.toNat ∧ b.rel = []) ∧
      exec (.peerAccessArrive dev addr size .load data) s = .next s ∧
      (size = atomBytes o →
        let old := valueAt s (fun i => .dev (addr + i) .wb false) size
        let n := newBytes o old data.toNat (data.toNat / 2 ^ 32)
        Goes s (.peerAccessArrive dev addr size (.atom o) data) (fun t =>
          (n.2 = true → MemoryTakes s t addr size n.1) ∧ (n.2 = false → t = s)))) ∧
    (Admitted s dev addr bytes.length → bytes.length ≤ 4096 → addr / 65536 = (addr + bytes.length - 1) / 65536 →
      Goes s (.bulkPacketArrive dev addr bytes counter) (fun t =>
        MemoryTakes s t addr bytes.length (valueAt t (fun i => .dev (addr + i) .wb false) bytes.length) ∧
        ∀ i (h : i < bytes.length), devByte t (addr + i) = bytes[i].toNat))

namespace Sys2Proof.Claims

/-- One reduction slot changes, and nothing else does. -/
def SlotBecomes (s t : State) (n : Nat) (P : RSlot → Prop) : Prop :=
  t = { s with f := { s.f with slots := t.f.slots } } ∧ P (t.rslot n) ∧ ∀ k, k ≠ n → t.rslot k = s.rslot k

/-- The running result of a slot after a value (R337, Table 7.12): op 0 adds, 2 and 3 take the greater and the lesser, 4 the
greater magnitude, as floats; 1 adds, 5 and 6 take the greater and the lesser, as integers. -/
def Combines (r : RSlot) (v : Word) (w : Word) (nan : Bool) : Prop :=
  let isF := r.op = 0 ∨ r.op = 2 ∨ r.op = 3 ∨ r.op = 4
  let x := if r.op = 4 then v.toNat % 2 ^ 31 else v.toNat
  (isF → f32.isNan v.toNat = true → nan = true ∧ (r.nani = false → w = 0x7FC00000) ∧ (r.nani = true → w = r.value)) ∧
  (¬ isF ∨ f32.isNan v.toNat = false → nan = r.nan ∧
    (r.some = false → (isF → r.nan = true → r.nani = true) → w.toNat = x) ∧
    (r.some = true → (isF → r.nan = true → r.nani = true) →
      (r.op = 0 → w = BitVec.ofNat 32 (canon (fAdd 1 f32 .rne r.value.toNat v.toNat))) ∧ (r.op = 2 → w.toNat = larger r.value.toNat v.toNat) ∧
      (r.op = 3 → w.toNat = smaller r.value.toNat v.toNat) ∧ (r.op = 4 → w.toNat = larger r.value.toNat x)) ∧
    (r.some = true → isF → r.nan = true → r.nani = false → w = r.value) ∧
    (r.some = true → r.op = 1 → w = r.value + v) ∧
    (r.some = true → r.op = 5 → w = if r.value.toNat < v.toNat then v else r.value) ∧
    (r.some = true → r.op = 6 → w = if v.toNat < r.value.toNat then v else r.value))

end Sys2Proof.Claims

/-- R336-R339, Tables 19.3, 19.4: a lease that arrives at a slot FREE or DONE begins anew, one at another is refused; an
accepted contribution is combined and counted, the first arms the timer, and the last one that is expected completes the slot with status 0; so does
its timer with status 3, once the counter that it runs on has advanced by the timeout; a contribution that was seen or is not expected is discarded. Of a team that has ended the record is discarded. -/
def Sys2Proof.Claims.ReductionSlots : Prop :=
  ∀ (s : State) (dev th slot : Nat) (cfg timeout val : Word),
    let r := s.rslot slot
    let lease := s.rslot (cfg.toNat % 64)
    (s.h.readyBit = true → dev < 16 → dev ≠ s.h.devnum → s.f.peeradmit.getLsbD dev = true →
      (lease.st = .free ∨ lease.st = .done → Goes s (.reduceLeaseArrive dev th cfg timeout) (fun t => SlotBecomes s t (cfg.toNat % 64) (fun x =>
        x.st = .leased ∧ x.op = part cfg.toNat 8 4 ∧ x.nani = cfg.getLsbD 12 ∧ x.expected.toNat = part cfg.toNat 16 16 ∧ x.seen = 0 ∧
        x.some = false ∧ x.nan = false ∧ x.timeout = timeout ∧ x.leaserDev = dev ∧ x.th = th ∧ x.pending = false))) ∧
      (lease.st = .leased ∨ lease.st = .armed → exec (.reduceLeaseArrive dev th cfg timeout) s = .next s) ∧
      (slot < 64 → (r.st = .leased ∨ r.st = .armed) → r.expected.getLsbD dev = true → r.seen.getLsbD dev = false →
        Goes s (.reduceContribArrive dev th slot val) (fun t => SlotBecomes s t slot (fun x =>
          (∀ k, k < 16 → x.seen.getLsbD k = (r.seen.getLsbD k || decide (k = dev))) ∧
          x.expected = r.expected ∧ x.op = r.op ∧ x.nani = r.nani ∧ x.leaserDev = r.leaserDev ∧ x.tk = r.tk ∧ x.th = r.th ∧ x.cap = r.cap ∧ x.off = r.off ∧
          ((∃ k, k < 16 ∧ x.seen.getLsbD k ≠ r.expected.getLsbD k) → x.st = .armed ∧ x.pending = r.pending ∧ x.status = r.status) ∧
          (x.seen = r.expected → x.st = .done ∧ x.status = 0 ∧ x.pending = true) ∧
          -- the first one that is accepted arms the timer, on the counter of the port that it came by (R338)
          (r.st = .leased → x.timer = (dev + 15 - s.h.devnum) % 16 ∧ x.start = (s.port x.timer).cycles) ∧
          (r.st = .armed → x.timer = r.timer ∧ x.start = r.start) ∧
          (r.op ≤ 6 → ∃ w, (x.some = true → x.value = w) ∧ Combines r val w x.nan ∧
            (x.some = false → x.st = .done → x.value = 0x7FC00000))))) ∧
      (slot < 64 → (r.st = .leased ∨ r.st = .armed) → r.expected.getLsbD dev = false ∨ r.seen.getLsbD dev = true →
        exec (.reduceContribArrive dev th slot val) s = .next s) ∧
      (slot < 64 → (r.st = .free ∨ r.st = .done) → exec (.reduceContribArrive dev th slot val) s = .next s)) ∧
    (r.st = .armed → r.timeout ≠ 0 → Goes s (.slotTimeout slot) (fun t =>
      t = { s with f := { s.f with slots := t.f.slots, ports := t.f.ports, cycles := t.f.cycles } } ∧
      t.rslot slot = { r with st := .done, status := 3, pending := true, value := if r.some then r.value else 0x7FC00000 } ∧
      (∀ k, k ≠ slot → t.rslot k = s.rslot k) ∧ (∀ k, t.port k = { s.port k with cycles := (t.port k).cycles }) ∧
      (∀ k, k ≠ r.timer → t.fabCycles k = s.fabCycles k ∨ (15 ≤ k ∧ 15 ≤ r.timer)) ∧
      (r.start + r.timeout.zeroExtend 64).toNat ≤ (t.fabCycles r.timer).toNat)) ∧
    (r.st ≠ .armed ∨ r.timeout = 0 → exec (.slotTimeout slot) s = .next s) ∧
    (r.pending = false → exec (.resultRecordDeliver slot) s = .next s) ∧
    (r.pending = true → (s.team r.tk).live = false ∨ r.leaserDev ≠ s.h.devnum →
      Goes s (.resultRecordDeliver slot) (fun t => SlotBecomes s t slot (fun x => x = { r with pending := false }))) ∧
    (∀ a pol, r.pending = true → r.leaserDev = s.h.devnum → (s.team r.tk).live = true → a % 16 = 0 → devHas a 16 = true → 2 ^ 40 ≤ a →
      let s' := s.setRslot slot { r with pending := false }
      s'.resolve r.tk ((s.team r.tk).cores.headD 0) r.cap r.off 16 .write false false = (.ok (.dev a pol false), s') →
      Goes s (.resultRecordDeliver slot) (fun t =>
        let v := valueAt t (fun i => .dev (a + i) .wb false) 16
        part v 0 32 = r.value.toNat ∧ part v 32 32 = r.status % 2 ^ 32 ∧ part v 64 16 = r.seen.toNat ∧ part v 80 8 = (if r.nan then 1 else 0) ∧
        (t.rslot slot).pending = false ∧ t.g = s.g ∧ ∀ b, b < a ∨ a + 16 ≤ b → devByte t b = devByte s b))

namespace Sys2Proof.Claims

/-- A lane that a mask selects in a group. -/
def Selected (s : State) (gk : Nat) (mask : DWord) (k : Nat) : Prop := k / 64 = gk ∧ k % 64 < (s.group gk).width ∧ mask.getLsbD (k % 64) = true

/-- The command port of a die after a command: its STATUS, and 0 elsewhere (R6, R328, Table 23.2); a halt is kept in mind with
its group until it has taken effect (R364). -/
def PortReads (s t : State) (die status halts : Nat) : Prop :=
  t.owl die = { s.owl die with cmd := BitVec.ofNat 128 status, halts := halts } ∧ ∀ d, d ≠ die → t.owl d = s.owl d

/-- The selected lanes change, and nothing else does. -/
def SelectedBecome (s t : State) (gk : Nat) (mask : DWord) (f : Nat → Lane → Lane) : Prop :=
  t = { s with g := { s.g with lanes := t.g.lanes }, w := { s.w with owl := t.w.owl } } ∧
  ∀ k, (Selected s gk mask k → t.lane k = f k (s.lane k)) ∧ (¬ Selected s gk mask k → t.lane k = s.lane k)

/-- A group that runs, at most 64 lanes wide. -/
def GroupRuns (s : State) (gk : Nat) : Prop :=
  (s.team (s.group gk).tk).live = true ∧ 0 < (s.group gk).width ∧ (s.group gk).width ≤ 64

/-- R364, R129: a lane that is halted, at once, or when its handler ends or the results of its windows have landed; and one
that is let go, which fetches its packet anew (R365). -/
def haltedLane (landing : Bool) (l : Lane) : Lane :=
  match l.st, l.intrap with
  | .ready, false => if landing then { l with haltReq := true } else { l with st := .halted none, haltReq := false, step := false }
  | .waiting w, false => { l with st := .halted (some w), haltReq := false, step := false }
  | .ready, true | .waiting _, true => { l with haltReq := true }
  | _, _ => l
def freedLane (stamp : Nat) (past step : Bool) (l : Lane) : Lane :=
  match l.st with
  | .halted none => { l with st := .ready, past := past, step := step, codeFloor := stamp }
  | .halted (some w) => { l with st := .waiting w, past := past, step := step, codeFloor := stamp }
  | _ => l

/-- No selected lane was halted in a wait for a rejoin mask (R120). -/
def NoneAtRejoin (s : State) (gk : Nat) (mask : DWord) : Prop :=
  ∀ k, Selected s gk mask k → ∀ n, (s.lane k).st ≠ .halted (some (.rejoin n)) ∧ (s.lane k).after ≠ some (.rejoin n)

/-- One team's sequencer changes, with the port of its die, and nothing else does. -/
def SeqIs (s t : State) (tk : Nat) (q : Seq) (status : Nat) : Prop :=
  t = { s with t := { s.t with teams := t.t.teams }, w := { s.w with owl := t.w.owl } } ∧ t.team tk = { s.team tk with seq := q } ∧
    (∀ k, k ≠ tk → t.team k = s.team k) ∧ PortReads s t (dieOf ((s.team tk).cores.headD 0)) status 0

/-- The ring of a die is in use and has room (R366, R370), and no record was dropped. -/
def RingOpen (s : State) (die : Nat) : Prop :=
  let o := s.owl die
  32 ≤ o.trlen.toNat ∧ (o.trprod.toNat + 1) % (o.trlen.toNat / 32) ≠ o.trcons.toNat
def TracingOff (s : State) (die : Nat) : Prop := (s.owl die).trlen = 0

/-- A record of 32 bytes has been put at TRPROD of a die's ring, and nothing else of memory has changed, nor of the unit but
for what is named. -/
def RingTakes (s t : State) (die lost : Nat) (o : Owl) (r : Nat) : Prop :=
  let a := hbmBase die + o.trbase.toNat + 32 * o.trprod.toNat
  (∀ b, devByte t b = if a ≤ b ∧ b < a + 32 then r / 2 ^ (8 * (b - a)) % 256 else devByte s b) ∧
    t.owl die = { o with trprod := (t.owl die).trprod, lost := lost } ∧
    (t.owl die).trprod.toNat = (o.trprod.toNat + 1) % (o.trlen.toNat / 32) ∧ ∀ d, d ≠ die → t.owl d = s.owl d

/-- Table 23.4: the record of a lane. -/
def LaneEntry (s : State) (lk : Nat) (pc : Pc) (kind st detail r : Nat) : Prop :=
  let g := s.group (lk / 64)
  let t := s.team g.tk
  part r 192 64 = (s.cycles g.core).toNat ∧ part r 160 32 = (s.launchOf t.ln).serial % 2 ^ 32 ∧ part r 128 32 = t.idx % 2 ^ 32 ∧
    part r 98 30 = pc.pkt % 2 ^ 30 ∧ part r 96 2 = pc.slot % 4 ∧ part r 80 16 = g.idx % 2 ^ 16 ∧ part r 74 6 = lk % 64 ∧
    part r 67 7 = g.core % 2 ^ 7 ∧ part r 64 2 = g.part % 4 ∧ part r 56 8 = kind ∧ part r 48 8 = st ∧ part r 42 6 = t.kern.ctx % 64 ∧
    part r 0 32 = detail ∧ r < 2 ^ 256

end Sys2Proof.Claims

/-- R363, R364, R129, R366, Tables 23.2, 23.4: HALT stops each selected lane at its boundary, its wait kept for when it goes
on, and of a lane in its handler, or with results still to land, latches the request; RESUME and STEP free the lanes it selects when all of them are halted
(STATUS 2 otherwise), and one halted in a rejoin may be the last that its mask waits for (R120);
sequencers alike. While the ring is in use a halt writes its record. -/
def Sys2Proof.Claims.HaltsAndSteps : Prop :=
  ∀ (s : State) (gk tk l : Nat) (mask : DWord) (past : Bool),
    let die := dieOf (s.group gk).core
    let q := (s.team tk).seq
    let seqDie := dieOf ((s.team tk).cores.headD 0)
    (GroupRuns s gk → TracingOff s die → Goes s (.owlHalt gk mask) (fun t =>
      SelectedBecome s t gk mask (fun k => haltedLane (s.looksPending k)) ∧ PortReads s t die 0 (gk + 1))) ∧
    (GroupRuns s gk → RingOpen s die → (s.owl die).lost = 0 → (∀ k, Selected s gk mask k ↔ k = lkOf gk l) → l < 64 → (s.lane (lkOf gk l)).intrap = false →
      s.looksPending (lkOf gk l) = false → (s.lane (lkOf gk l)).st = .ready → Goes s (.owlHalt gk mask) (fun t =>
        t.lane (lkOf gk l) = haltedLane false (s.lane (lkOf gk l)) ∧ (∀ k, k ≠ lkOf gk l → t.lane k = s.lane k) ∧
        ∃ r, LaneEntry s (lkOf gk l) (s.lane (lkOf gk l)).pc 2 0 0 r ∧
          RingTakes s t die 0 { s.owl die with cmd := 0, halts := gk + 1 } r)) ∧
    (GroupRuns s gk → NoneAtRejoin s gk mask → (∀ k, Selected s gk mask k → ∃ w, (s.lane k).st = .halted w) →
      Goes s (.owlResume gk mask past) (fun t =>
        SelectedBecome s t gk mask (fun _ => freedLane s.o.stamp past false) ∧ PortReads s t die 0 0) ∧
      Goes s (.owlStep gk mask past) (fun t =>
        SelectedBecome s t gk mask (fun _ => freedLane s.o.stamp past true) ∧ PortReads s t die 0 0)) ∧
    (∀ n, GroupRuns s gk → l < 64 → (∀ k, Selected s gk mask k ↔ k = lkOf gk l) → (s.lane (lkOf gk l)).st = .halted (some (.rejoin n)) →
      (∀ k, k < (s.group gk).width → k ≠ l → (s.jmask gk n).getLsbD k = true → (s.lane (lkOf gk k)).st = .waiting (.rejoin n)) →
      Goes s (.owlResume gk mask past) (fun t => t.jmask gk n = 0 ∧ (t.lane (lkOf gk l)).st = .ready ∧ PortReads s t die 0 0 ∧
        ∀ k, k < (s.group gk).width → (s.jmask gk n).getLsbD k = true → (t.lane (lkOf gk k)).st = .ready)) ∧
    (GroupRuns s gk → (∃ k, Selected s gk mask k ∧ ∀ w, (s.lane k).st ≠ .halted w) →
      Goes s (.owlResume gk mask past) (fun t => t = { s with w := { s.w with owl := t.w.owl } } ∧ PortReads s t die 2 0) ∧
      Goes s (.owlStep gk mask past) (fun t => t = { s with w := { s.w with owl := t.w.owl } } ∧ PortReads s t die 2 0)) ∧
    ((s.team (s.group gk).tk).live = false ∨ (s.group gk).width = 0 →
      exec (.owlHalt gk mask) s = .next s ∧ exec (.owlResume gk mask past) s = .next s ∧ exec (.owlStep gk mask past) s = .next s) ∧
    ((s.team tk).live = true → q.st = .running → TracingOff s seqDie → Goes s (.owlHaltseq tk) (fun t => SeqIs s t tk { q with st := .halted } 0)) ∧
    ((s.team tk).live = true → q.st ≠ .running → Goes s (.owlHaltseq tk) (fun t => SeqIs s t tk q 0)) ∧
    ((s.team tk).live = true → q.st = .halted →
      Goes s (.owlResumeseq tk past) (fun t => SeqIs s t tk { q with st := .running, past := past, step := false } 0) ∧
      Goes s (.owlStepseq tk past) (fun t => SeqIs s t tk { q with st := .running, past := past, step := true } 0)) ∧
    ((s.team tk).live = true → q.st ≠ .halted →
      Goes s (.owlResumeseq tk past) (fun t => SeqIs s t tk q 2) ∧ Goes s (.owlStepseq tk past) (fun t => SeqIs s t tk q 2)) ∧
    ((s.team tk).live = false → exec (.owlHaltseq tk) s = .next s ∧ exec (.owlResumeseq tk past) s = .next s ∧
      exec (.owlStepseq tk past) s = .next s)

namespace Sys2Proof.Claims

/-- The next group of a context on a partition, in rotation by group index after the one sampled last (R367). -/
def NextSample (s : State) (core p ctx gk : Nat) : Prop :=
  let of_ (x : Nat × Group) : Prop := x.2.core = core ∧ x.2.part = p ∧ (s.team x.2.tk).live = true ∧ (s.team x.2.tk).saved = false ∧
    (s.team x.2.tk).kern.ctx = ctx
  let key (x : Nat × Group) : Nat := x.2.idx * 2 ^ 80 + x.1
  let last := tget 0 s.w.sampled (core * 4 + p)
  ∃ x ∈ s.g.groups, x.1 = gk ∧ of_ x ∧
    ((last ≤ key x ∧ ∀ y ∈ s.g.groups, of_ y → last ≤ key y → key x < key y ∨ y.1 = gk) ∨
     ((∀ y ∈ s.g.groups, of_ y → key y < last) ∧ ∀ y ∈ s.g.groups, of_ y → key x < key y ∨ y.1 = gk))

/-- The state and the PC of a sample of a lane (Table 23.4). -/
def sampled (s : State) (gk : Nat) : Nat × Pc :=
  let g := s.group gk
  let l := s.lane (lkOf gk g.lastLane)
  if g.issuedNow = true then (0, g.last.getD l.pc)
  else match l.st with
    | .ready => (1, l.pc)
    | .waiting w => ((match w with | .merge _ _ _ _ 0 => 4 | _ => 2), l.pc)
    | .parked _ | .halted _ => (3, l.pc)
    | .exited => (5, l.pc)

end Sys2Proof.Claims

/-- R361, R362, R366-R368, R370, Tables 23.1, 23.5-23.9: GRANT takes a write of the hypervisor requester alone, and a change of
it is told to every other context that exists; LCCLEAR clears a core's bins; a full ring's lost records are told once there is
room; a sample takes the next group in rotation. -/
def Sys2Proof.Claims.GrantsAndTraces : Prop :=
  ∀ (s : State) (die core p : Nat) (data : DWord) (hyper : Bool),
    let o := s.owl die
    let n := data.toNat
    let ctx (d : DWord) : Nat := part d.toNat 8 6
    let asks (d : DWord) : Nat := part d.toNat 0 2
    let src := if asks data = 0 then o.grant else data
    let told := (List.range 64).filter (fun c => s.ctxEn c && c != ctx src)
    (die < 4 → exec (.grantWrite die data false) s = .next s) ∧
    -- a packet of the host finds the writes before it performed (R271)
    (s.hostQuiet = false → exec (.grantWrite die data true) s = .next s ∧ exec (.lcclearWrite core) s = .next s) ∧
    (die < 4 → s.h.readyBit = true → s.hostQuiet = true → ctx data = ctx o.grant → asks data = asks o.grant →
      Goes s (.grantWrite die data true) (fun t => t = { s with w := { s.w with owl := t.w.owl }, r := { s.r with clock := t.r.clock } } ∧
        (part n 0 1 = 1 → 1500 ≤ part n 48 16 → part n 48 16 ≤ 3000 → part n 48 16 % 100 = 0 → t.r.clock = part n 48 16) ∧
        (part n 0 1 = 0 → t.r.clock = s.r.clock) ∧ t.owl die = { o with grant := (t.owl die).grant } ∧ part (t.owl die).grant.toNat 48 16 = part n 48 16 ∧
        ctx (t.owl die).grant = ctx data ∧ asks (t.owl die).grant = asks data ∧ ∀ d, d ≠ die → t.owl d = s.owl d)) ∧
    (die < 4 → s.h.readyBit = true → s.hostQuiet = true → ctx data ≠ ctx o.grant ∨ asks data ≠ asks o.grant →
      Goes s (.grantWrite die data true) (fun t =>
        t = { s with w := { s.w with owl := t.w.owl }, h := { s.h with events := t.h.events }, r := { s.r with clock := t.r.clock } } ∧
        t.owl die = { o with grant := (t.owl die).grant, gseq := o.gseq + 1 } ∧ (∀ d, d ≠ die → t.owl d = s.owl d) ∧
        ctx (t.owl die).grant = ctx data ∧ asks (t.owl die).grant = asks data ∧
        (∃ es, t.h.events = s.h.events ++ es ∧ es.map (·.ctx) = told.map (BitVec.ofNat 32) ∧ ∀ e ∈ es, e.kind = 7 ∧ e.need = [] ∧
          field e.payload 32 32 = (o.gseq + 1).toNat ∧ field e.payload 20 4 = 2 ^ die ∧ field e.payload 18 2 = asks src ∧
          field e.payload 17 1 = (if asks data = 0 then 1 else 0) ∧ field e.payload 0 6 = ctx src) ∧
        (part n 0 1 = 1 → 1500 ≤ part n 48 16 → part n 48 16 ≤ 3000 → part n 48 16 % 100 = 0 → t.r.clock = part n 48 16) ∧
        (part n 0 1 = 0 → t.r.clock = s.r.clock))) ∧
    (core < 128 → s.h.readyBit = true → s.hostQuiet = true → Goes s (.lcclearWrite core) (fun t => t = { s with w := { s.w with lcc := t.w.lcc } } ∧
      ∀ k, tget 0 t.w.lcc k = if k / 64 = core then 0 else tget 0 s.w.lcc k)) ∧
    (die < 4 → RingOpen s die → o.lost ≠ 0 → Goes s (.traceLostRecord die) (fun t =>
      ∃ r, RingTakes s t die 0 o r ∧ part r 56 8 = 6 ∧ part r 0 32 = o.lost % 2 ^ 32 ∧ t.g = s.g ∧ t.t = s.t)) ∧
    (TracingOff s die ∨ o.lost = 0 → exec (.traceLostRecord die) s = .next s) ∧
    (part (s.owl (dieOf core)).sampctl.toNat 63 1 = 0 → exec (.sampleTimer core p) s = .next s) ∧
    (core < 128 → p < 4 → part (s.owl (dieOf core)).sampctl.toNat 63 1 = 1 → RingOpen s (dieOf core) → (s.owl (dieOf core)).lost = 0 →
      ∀ gk, NextSample s core p (part (s.owl (dieOf core)).sampctl.toNat 0 6) gk → (s.group gk).lastLane < 64 → (s.group gk).core = core →
        Goes s (.sampleTimer core p) (fun t => t.g = s.g ∧ t.t = s.t ∧
          ∃ r, RingTakes s t (dieOf core) 0 (s.owl (dieOf core)) r ∧ LaneEntry s (lkOf gk (s.group gk).lastLane) (sampled s gk).2 1 (sampled s gk).1 0 r))

namespace Sys2Proof.Claims

/-- A lane of a deterministic launch accesses a device line alone: the word issues, the access is permitted, and its bytes
stand at an address. -/
structure DetReady (s : State) (i : Instr) (q : Access) (m a : Nat) (pol : Pol) : Prop where
  issues : Issues s i
  lane : s.iss.lanes = [m] ∧ m < 64
  plain : popsQ1 i = false
  clear : s.acqPending (lkOf s.iss.gk m) = false
  det : (s.teamOf s.iss.gk).kern.det = true ∧ (s.kern s.iss.gk).det = true
  granted : Permitted s (s.heldCap s.iss.gk m q.cap) q.allow q.need (q.off s m) q.z
  stands : StandsAt s q m (.dev a pol false)

/-- The ownership of the line of an address in the launch of the issuing group (R294). -/
def lineKey (s : State) (a : Nat) : Nat := (s.teamOf s.iss.gk).ln * 2 ^ 48 + a / 512
def ownership (s : State) (a : Nat) : Owner := tget {} s.l.own (lineKey s a)
def Mine (s : State) (a : Nat) : Prop := (ownership s a).shared = false ∧ (ownership s a).owner = some (s.teamOf s.iss.gk).idx
def Others (s : State) (a : Nat) : Prop :=
  (ownership s a).shared = false ∧ ∃ u, (ownership s a).owner = some u ∧ u ≠ (s.teamOf s.iss.gk).idx
def Open (s : State) (a : Nat) : Prop := (ownership s a).shared = true ∨ (ownership s a).owner = none

/-- The access marks its line as touched by the team, or as met by a deferred access; no other line changes. -/
def Marks (s t : State) (a : Nat) (deferred : Bool) : Prop :=
  let o := ownership s a
  let n := (s.teamOf s.iss.gk).idx
  (∀ k, k ≠ lineKey s a → tget {} t.l.own k = tget {} s.l.own k) ∧
  (tget {} t.l.own (lineKey s a)).shared = o.shared ∧ (tget {} t.l.own (lineKey s a)).owner = o.owner ∧
  (∀ x, x ∈ (tget {} t.l.own (lineKey s a)).touched ↔ x = n ∨ x ∈ o.touched) ∧
  (tget {} t.l.own (lineKey s a)).deferred = (o.deferred || deferred)

/-- The one lane changes; memory, the other lanes and the groups stay. -/
def LaneIs (s t : State) (m : Nat) (x : Lane) : Prop :=
  t.lane (lkOf s.iss.gk m) = x ∧ (∀ k, k ≠ lkOf s.iss.gk m → t.lane k = s.lane k) ∧ (∀ k, t.group k = s.group k) ∧
  t.o.mem = s.o.mem ∧ t.t = s.t

/-- The room of R295: 4,096 entries to a core, and then the log extent of the launch, at 16 bytes an entry. -/
def BufferFull (s : State) : Prop :=
  4096 ≤ (s.l.det.filter (fun e => e.core == (s.group s.iss.gk).core && !e.spill)).length
def LogRoom (s : State) : Prop :=
  let T := s.teamOf s.iss.gk
  let K := (s.launchOf T.ln).kern
  ¬ BufferFull s ∨ (s.l.det.filter (fun e => e.ln == T.ln && e.spill)).length < if K.lobj = 0 then 0 else K.llen / 16

/-- Every entry lies in one granule of 16 bytes, as an aligned access of at most 16 bytes does. -/
def InGranules (s : State) : Prop := ∀ e ∈ s.l.det, 0 < e.size ∧ e.loc.space.2 / 16 = (e.loc.space.2 + e.size - 1) / 16

/-- Entries of the issuing team over some bytes. -/
def OverBytes (s : State) (a n : Nat) (e : DetEntry) : Prop :=
  e.ln = (s.teamOf s.iss.gk).ln ∧ e.team = (s.teamOf s.iss.gk).idx ∧ overlaps e.loc e.size (.dev a .wb false) n = true

end Sys2Proof.Claims

/-- R294, R295, Table 16.6: in a phase of a deterministic launch an access to a line that is private to the team is made as in
any other; a store to a line that no team owns is entered in the team's buffer and a load reads memory with the team's own newest
store over it, while an atomic that returns raises NONDET_OP; an access to another team's line waits for the serial phase; with
the buffer and its log full a store raises DET_LOG_FULL. -/
def Sys2Proof.Claims.DeterministicAccesses : Prop :=
  ∀ (s : State) (c : Bool) (d x : Opc) (k : BitVec 3) (o : BitVec 4) (h : Hint) (u : Aop) (m a : Nat) (pol : Pol),
    let T := s.teamOf s.iss.gk
    let lk := lkOf s.iss.gk m
    let st : Access := { cap := k.toNat, z := 4, acc := .write, allow := anyType, need := 2, idx := x, kind := fun _ => .store
                         val := fun m => BitVec.ofNat 128 (s.src s.iss.gk m d).toNat, dst := .none }
    let ld : Access := { cap := k.toNat, z := 4, acc := .read, allow := anyType, need := 1, idx := x, kind := fun _ => .load
                         val := fun _ => 0, dst := landsIn d 1 32 false, nol1 := h = .nol1 }
    let at_ := returning s d x k u none none none
    (DetReady s (.st c d x k o h .b32) st m a pol →
      (Mine s a → Goes s (.st c d x k o h .b32) (fun t => Marks s t a false ∧ t.l.det = s.l.det ∧
        LaneIs s t m ((Lane.openWindow s.here (.st c d x k o h .b32) 0 (s.lane lk)).advance) ∧
        tget none t.o.pend s.next = some (st.event s false m (.dev a pol false)))) ∧
      (Open s a → LogRoom s → Goes s (.st c d x k o h .b32) (fun t => Marks s t a false ∧ t.o.pend = s.o.pend ∧
        LaneIs s t m ((Lane.openWindow s.here (.st c d x k o h .b32) 0 (s.lane lk)).advance) ∧
        ∃ e, t.l.det = s.l.det ++ [e] ∧ (e.spill = true ↔ BufferFull s) ∧
          e = { ln := T.ln, team := T.idx, tk := (s.group s.iss.gk).tk, core := (s.group s.iss.gk).core, kind := .store
                loc := .dev a pol false, size := 4, val := BitVec.ofNat 128 (s.src s.iss.gk m d).toNat, at_ := s.next, spill := e.spill })) ∧
      (Open s a → ¬ LogRoom s → exec (.st c d x k o h .b32) s = .next (s.raise lk s.here (.of fcDET_LOG_FULL))) ∧
      (Others s a → Goes s (.st c d x k o h .b32) (fun t => Marks s t a true ∧ t.o = s.o ∧ t.l.det = s.l.det ∧
        LaneIs s t m ((s.lane lk).waitAt .phase)))) ∧
    (isV d = true → DetReady s (.ld c d x k o h false) ld m a pol →
      (Open s a → Goes s (.ld c d x k o h false) (fun t => Marks s t a false ∧ t.o = s.o ∧ t.l.det = s.l.det ∧
        LaneIs s t m (Lane.openWindow s.here (.ld c d x k o h false) 0 (s.lane lk).advance) ∧
        (∀ j r, r < 128 → ¬ (j = lk ∧ r = d.toNat) → tget 0 t.g.vreg (vKey j r) = tget 0 s.g.vreg (vKey j r)) ∧
        (NoDirtyCopy s (a - a % 16) ((a % 16 + 19) / 16 * 16) pol → InGranules s → (∀ e ∈ s.l.det, ¬ OverBytes s a 4 e) → (t.vreg s.iss.gk m d.toNat).toNat = s.devRead a 4) ∧
        (∀ before e after, s.l.det = before ++ e :: after → InGranules s → (∀ y ∈ after, ¬ OverBytes s a 4 y) → OverBytes s a 4 e → e.kind = .store →
          e.loc = .dev a pol false → e.size = 4 → (t.vreg s.iss.gk m d.toNat).toNat = e.val.toNat % 2 ^ 32))) ∧
      (Others s a → Goes s (.ld c d x k o h false) (fun t => Marks s t a true ∧ t.o = s.o ∧ t.l.det = s.l.det ∧ t.g.vreg = s.g.vreg ∧
        LaneIs s t m ((s.lane lk).waitAt .phase)))) ∧
    (isV d = true → DetReady s (.atomr c d x k o u) at_ m a pol →
      (Open s a ∨ Others s a → exec (.atomr c d x k o u) s = .next (s.raise lk s.here (.of fcNONDET_OP))) ∧
      (Mine s a → Goes s (.atomr c d x k o u) (fun t => Marks s t a false ∧ t.l.det = s.l.det ∧
        LaneIs s t m ((Lane.openWindow s.here (.atomr c d x k o u) s.next (s.lane lk)).advance) ∧
        tget none t.o.pend s.next = some (at_.event s false m (.dev a pol false)))))

namespace Sys2Proof.Claims

/-! ### Steps, decoding, reset -/

/-- Four bytes of an object, found in device memory without a change of the device, as a word (R3, R43), where no L1 holds one
of them dirty that the mapping would miss (R313). -/
def FetchedAt (s : State) (core ctx obj off a : Nat) (w : Word) : Prop :=
  ∃ pol ot unit, s.translate core ctx obj off .read = (.ok (.dev a pol false) ot unit, s) ∧ NoDirtyCopy s a 4 pol ∧
    w.toNat = valueAt s (fun i => .dev (a + i) .wb false) 4

/-- A device byte as it stood at a stamp: of the versions that later stores have replaced the oldest that is no older. -/
def byteSince (s : State) (view a : Nat) : Nat :=
  match (tget [] s.o.old (a / 16)).find? (fun v => v.stamp ≥ view) with
  | some v => part v.val.toNat (8 * (a % 16)) 8
  | none => devByte s a

/-- The word of a group's code object at a PC (R44): as it stands now, or, where the group's fetches have not reached the
newest stores, as it stood when they last did (R131). -/
def CodeAt (s : State) (gk : Nat) (p : Pc) (w : Word) : Prop :=
  let k := s.kern gk
  let view := (s.group gk).codeView
  let off := k.koff + (k.codeoff + 12 * p.pkt + 4 * p.slot)
  (s.o.stamp ≤ view ∧ ∃ a, FetchedAt s (s.group gk).core k.ctx k.kobj off a w) ∨
  (view < s.o.stamp ∧ ∃ a pol ot unit, s.translate (s.group gk).core k.ctx k.kobj off .read = (.ok (.dev a pol false) ot unit, s) ∧
    ∀ j, j < 4 → part w.toNat (8 * j) 8 = byteSince s view (a + j))

/-- The M-word of a team's stream at its index (R189). -/
def MWordAt (s : State) (tk : Nat) (w : Word) : Prop :=
  let T := s.team tk
  ∃ a, FetchedAt s (T.cores.headD 0) T.kern.ctx T.kern.kobj (T.kern.koff + (T.kern.msoff + 4 * T.seq.idx)) a w

/-- Every lane of the issue stands at its word, ready, with no lookahead window that the word touches (R48, R62), and is no
pair lane (R185). -/
def AllRun (s : State) (i : Instr) : Prop :=
  s.iss.lanes ≠ [] ∧ (s.group s.iss.gk).pair = false ∧
  ∀ l ∈ s.iss.lanes, l < 64 ∧ (s.lane (lkOf s.iss.gk l)).pc = s.here ∧ (s.lane (lkOf s.iss.gk l)).st = .ready ∧
    (s.lane (lkOf s.iss.gk l)).lookahead (s.pairWidth s.iss.gk) i = none

/-- A step that a word of an issue makes: the meaning of its instruction, and then what follows a word (R46, R47). -/
def StepsBy (s : State) (i : Instr) : Prop := ∃ t, exec i s = .next t ∧ step s = .next (s.afterWord t i)

/-- No word of an issue or of a row is under way: the next step takes the next turn. -/
def BetweenTurns (s : State) : Prop := s.iss.words = 0 ∧ s.iss.fill = [] ∧ s.e.epi.prog = []

/-- A sequencer that runs its next M-word: of a team that is resident, running and within its stream, with no comparator. -/
structure SeqMayRun (s : State) (tk : Nat) : Prop where
  team : (s.team tk).live = true ∧ (s.team tk).saved = false ∧ (s.team tk).stopping = false ∧ (s.team tk).saving = none
  seq : (s.team tk).seq.st = .running ∧ (s.team tk).seq.miss = none ∧ (s.team tk).seq.kill = false ∧
    ((s.team tk).seq.past = true ∨ ∀ c ∈ s.comparators ((s.team tk).cores.headD 0), part c 63 1 = 0)
  within : (s.team tk).seq.idx < (s.team tk).kern.mslen / 4

/-- An issue ends nowhere but at its words. -/
def Settles (t : State) : State := { t with iss := {} }

end Sys2Proof.Claims

/-- A step runs the decoded instruction: the word that an issue stands at, once its bytes decode (MOVL with its literal), runs
for the lanes in issue, and what follows a word is added (the windows it counts, the next word, the next group). -/
def Sys2Proof.Claims.StepRunsTheLaneWord : Prop :=
  ∀ (s : State) (i : Instr) (w lit : Word), s.iss.words ≠ 0 → CodeAt s s.iss.gk s.here w → AllRun s i →
    (w.toNat / 2 ^ 25 % 64 ≠ 0x3E → decodeLane w 0 = .ok i → StepsBy s i) ∧
    (w.toNat / 2 ^ 25 % 64 = 0x3E → s.iss.slot < 2 → CodeAt s s.iss.gk s.here.next lit → decodeLane w lit = .ok i → StepsBy s i)

/-- Between issues a step is the next E-word of the row in progress, or the next turn: an M-word of a sequencer, a clock of a
partition, an event of a unit. What runs is what decodes; a word among the events stops the step. -/
def Sys2Proof.Claims.StepRunsTheTurn : Prop :=
  ∀ (s : State) (i : Instr) (w : Word) (rest : List Word) (tk core p : Nat) (ts : List Turn),
    let s' := { s with turns := ts }
    (s.iss.words = 0 → s.iss.fill = [] → s.e.epi.prog = w :: rest → decodeE w = .ok i →
      ∃ t, exec i s = .next t ∧ step s = .next (Settles t)) ∧
    (BetweenTurns s → s.turns = .mword tk :: ts → SeqMayRun s tk → MWordAt { s' with cur := tk } tk w → decodeM w = .ok i →
      ∃ t, exec i { s' with cur := tk } = .next t ∧ step s = .next (Settles (t.seqAfter tk))) ∧
    (BetweenTurns s → s.turns = .unit i :: ts → encode i = [] → (∀ n, i ≠ .ageLimitExpiry n) →
      ∃ t, exec i s' = .next t ∧ step s = .next (Settles t)) ∧
    (∀ n, BetweenTurns s → s.turns = .unit (.ageLimitExpiry n) :: ts → step s = exec (.ageLimitExpiry n) s') ∧
    (BetweenTurns s → s.turns = .unit i :: ts → encode i ≠ [] → step s = .fault .badTurn) ∧
    (BetweenTurns s → s.turns = .clock core p :: ts → s.r.power = true → core < 128 → p < 4 → step s = .next (s'.clock core p)) ∧
    (BetweenTurns s → s.turns = .clock core p :: ts → s.r.power = false → step s = .next s')

/-- R46, R47, R49: after a word that is not the last of its chain the issue goes on to the next slot, and after the last one of the
last group it is over; the windows of the lanes
that ran a word count it, and, where no lane of the issue stands parked with results to land (R49), no register, memory or other lane
is touched. -/
def Obligations.WordsOfAnIssue : Prop :=
  (∀ (s t : State) (i : Instr), t.iss.words ≠ 0 → 1 < s.iss.words →
    (s.afterWord t i).iss = { s.iss with words := s.iss.words - 1, slot := s.iss.slot + 1 }) ∧
  (∀ (s t : State) (i : Instr), t.iss.words ≠ 0 → s.iss.words ≤ 1 → s.iss.fill = [] → (s.afterWord t i).iss = {}) ∧
  ∀ (s t : State) (i : Instr), t.iss.words ≠ 0 → 1 < s.iss.words → s.iss.lanes.Pairwise (· < ·) →
    (∀ l ∈ s.iss.all, ∀ f, (t.lane (lkOf s.iss.gk l)).st ≠ .parked f) →
    let u := s.afterWord t i
    u.g.vreg = t.g.vreg ∧ u.g.sreg = t.g.sreg ∧ u.g.creg = t.g.creg ∧ u.g.jmask = t.g.jmask ∧ u.o = t.o ∧ u.t = t.t ∧ u.e = t.e ∧
    (∀ k, (∀ l ∈ s.iss.lanes, k ≠ lkOf s.iss.gk l) → u.lane k = t.lane k) ∧
    ∀ l ∈ s.iss.lanes, let x := t.lane (lkOf s.iss.gk l)
      x.st = .ready → x.intrap = (s.lane (lkOf s.iss.gk l)).intrap → (s.lane (lkOf s.iss.gk l)).resume = none →
      (s.group s.iss.gk).pair = false → x.windows.length = (s.lane (lkOf s.iss.gk l)).windows.length →
      ∃ ws, u.lane (lkOf s.iss.gk l) = { x with windows := ws } ∧
        ws = (x.windows.map (fun w => { w with left := w.left - 1, issued := w.issued + 1 })).filter (fun w => w.left ≠ 0 || w.ev ≠ 0)

/-- Every instruction answers a next state: none of the meanings stops. A step never refuses, and it faults on nothing but a
turn that names a word as an event. -/
def Sys2Proof.Claims.OnlyBadTurnsStop : Prop :=
  (∀ (i : Instr) (s : State), ∃ t, exec i s = .next t) ∧
  ∀ s : State, (∀ r, step s ≠ .refused r) ∧ ∀ f, step s = .fault f → f = .badTurn ∧ ∃ i ts, s.turns = .unit i :: ts ∧ encode i ≠ []

/-- The model's form of R47 (log 1): the lanes of an issue stand in ascending order, each once, and every step keeps it so. -/
def Obligations.IssuesStayOrdered : Prop := ∀ s t : State, IssueOrdered s → step s = .next t → IssueOrdered t

/-- What holds right after reset: memory in its canonical form, no issue under way. -/
def Sys2Proof.Claims.ResetIsOrdered : Prop := MemoryWf State.reset ∧ IssueOrdered State.reset ∧ BetweenTurns State.reset

/-- The reset values of the tables: R5 and R11 (the clock), R299 (roots), R215 (BANKROLE), Tables 18.5 and 18.6 (the host's
registers), 19.1 and 19.2 (fabric), 19.3 (slots), 23.7 to 23.9 and 23.3 (Owl); R358: memory reads 0. -/
def Sys2Proof.Claims.ResetValues : Prop :=
  let s := State.reset
  (∀ a, byteOf s (.dev a .wb false) = 0) ∧ (∀ c, tget 0 s.x.roots c = 0) ∧ (∀ c, s.bankrole c = 0) ∧ s.r.clock = 3000 ∧
  s.h.readyBit = false ∧ s.h.bootstage = 0 ∧ s.h.evprod = 0 ∧ s.h.tcign = 0 ∧ s.h.lpfull = 0 ∧ s.h.errsum = 0 ∧ s.h.evbase = 0 ∧
  s.h.evlen = 0 ∧ s.h.evcons = 0 ∧ s.h.events = [] ∧ s.h.tport = 0 ∧ s.h.tbusy = false ∧
  (∀ p, (s.port p).state = 0 ∧ (s.port p).keyst = 0 ∧ (s.port p).spares = 2 ∧ (s.port p).linkup = 0 ∧ (s.port p).dlcount = 0 ∧ (s.port p).txctr = 0) ∧
  s.f.peeradmit = 0 ∧ (∀ g, tget 0 s.f.mcgroup g = 0) ∧ (∀ n, (s.rslot n).st = .free) ∧
  (∀ d, (s.owl d).grant = 0 ∧ part (s.owl d).sampctl.toNat 63 1 = 0 ∧ part (s.owl d).sampctl.toNat 32 21 = 4096) ∧
  (∀ k, tget 0 s.w.cmps k = 0) ∧ (∀ k, (s.team k).live = false) ∧ (∀ k, tget .free s.t.tags k = .free)

/-- R43, R44, R54-R59, Tables 3.2 to 3.6: words written out from their encodings decode to what they stand for, one or more of
each family; a reserved bit, an unallocated opcode, a MOVL with C set are refused. -/
def Obligations.WordsDecode : Prop :=
  decodeLane 0x800C0821 0 = .ok (.iadd true 3 1 2) ∧
  decodeLane 0x30201920 0 = .ok (.ld false 8 3 1 2 .dflt false) ∧
  decodeLane 0x10102868 0 = .ok (.fmul false 4 5 6 .rne) ∧
  decodeLane 0x0A0FD003 0 = .ok (.andi false 3 122 3) ∧
  decodeLane 0x080C1801 0 = .ok (.iaddi false 3 3 1) ∧
  decodeLane 0x600D0000 0 = .ok (.brnz false 3 0) ∧
  decodeLane 0x340BD102 0 = .ok (.st false 2 122 1 0 .dflt .b32) ∧
  decodeLane 0x62000004 0 = .ok (.exit false) ∧
  decodeLane 0x0204103A 0 = .ok (.icmp false 1 2 3 .ltI) ∧
  decodeLane 0x1014307D 0 = .ok (.ffma false 5 6 7 .rz) ∧
  decodeLane 0x22081880 0 = .ok (.cvt false 2 3 .f16 .rne false .f32) ∧
  decodeLane 0x24080F81 0 = .ok (.cvtn false 2 1 120 1) ∧
  decodeLane 0x26200800 0 = .ok (.smxupd false 8 1) ∧
  decodeLane 0x26304002 0 = .ok (.smxfin false 12 8) ∧
  decodeLane 0x58100E20 0 = .ok (.capsub false 4 1 98) ∧
  decodeLane 0x2810182A 0 = .ok (.shfl false 4 3 2 .s16 .down) ∧
  decodeLane 0x2A182801 0 = .ok (.lred false 6 5 .fadd) ∧
  decodeLane 0x2E200803 0 = .ok (.matcheq false 8 1) ∧
  decodeLane 0x64000000 0 = .ok (.enrol false 0) ∧
  decodeLane 0x64040000 0 = .ok (.rejoin false 0) ∧
  decodeLane 0x40191800 0 = .ok (.copy false 3 1 0 96) ∧
  decodeLane 0x42073001 0 = .ok (.twait false 1 102 true) ∧
  decodeLane 0x38081920 0 = .ok (.atom false 2 3 1 .rlx .dev .addB32) ∧
  decodeLane 0x50283800 0 = .ok (.pairgo false 5 1 96) ∧
  decodeLane 0x52004000 0 = .ok (.pairout false 8 false) ∧
  decodeLane 0x66000803 0 = .ok (.barinit false 0 1 0) ∧
  decodeLane 0x36041909 0 = .ok (.strel false 1 3 1 0 .team) ∧
  decodeLane 0x36081901 0 = .ok (.ldacq false 2 3 1 0 .team) ∧
  decodeLane 0x2C488010 0 = .ok (.lscan false 18 16 true .iadd) ∧
  decodeLane 0x3A605900 0 = .ok (.atomr false 24 11 1 0 .addB32) ∧
  decodeLane 0x20488802 0 = .ok (.sqrt false 18 17) ∧
  decodeLane 0x5A0BC000 0 = .ok (.ldcap false 2 120 0 0) ∧
  decodeLane 0x5A174301 0 = .ok (.stcap false 5 104 3 0) ∧
  decodeLane 0x4460A800 0 = .ok (.launch false 24 21) ∧
  decodeLane 0x12080802 0 = .ok (.fabs false 2 1) ∧
  decodeLane 0x460BB902 0 = .ok (.frlease false 1 3 5 100) ∧
  decodeLane 0x46131A01 0 = .ok (.fred false 2 3 104) ∧
  decodeLane 0x3E301C0A 0 = .ok (.stmc false 12 3 4 0) ∧
  decodeM 0x2C800001 = .ok (.mset 2 1) ∧
  decodeM 0x04400002 = .ok (.tclaim 1 2) ∧
  decodeM 0x20000000 = .ok (.mbarwait 0 0) ∧
  decodeM 0x0C4C0000 = .ok (.tload 1 3 0 0) ∧
  decodeM 0x10010000 = .ok (.tzero 4) ∧
  decodeM 0x14490001 = .ok (.tmma 1 2 4 false true) ∧
  decodeM 0x18150000 = .ok (.tdrain 5 4 0 0) ∧
  decodeM 0x1D800001 = .ok (.mbararr 6 1) ∧
  decodeM 0x38000000 = .ok (.mexit) ∧
  decodeE 0x04004000 = .ok (.eadd 0 0 1) ∧
  decodeE 0x3C000000 = .ok (.eend) ∧
  decodeLane 0x7C200000 0xFF800000 = .ok (.movl 8 0xFF800000) ∧ (decodeLane 0xFC000000 0).toOption = none ∧
  (decodeLane 0x00040000 0).toOption = none

namespace Sys2Proof.Claims

/-- The M-words and the E-words (R59). -/
def isM : Instr → Bool
  | .tclaim .. | .trelease .. | .tload .. | .tzeroSlot .. | .tzero .. | .tmma .. | .tdrain .. | .mbararr .. | .mbarwait .. | .mloop ..
  | .mend | .mset .. | .madd .. | .mpost .. | .mexit => true
  | _ => false
def isE : Instr → Bool
  | .eadd .. | .esub .. | .emul .. | .efma .. | .emax .. | .emin .. | .etanh .. | .eexp .. | .ercp .. | .eldrow .. | .eldcol ..
  | .ecvt .. | .eamax .. | .esmx .. | .eend => true
  | _ => false

end Sys2Proof.Claims

/-- R43, R54-R59: decoding what encodes a well-formed instruction gives it back with every operand: a lane word, MOVL with its
literal, an M-word, an E-word. An event of the device has no words. -/
def Sys2Proof.Claims.EncodingsAreRead : Prop :=
  ∀ i : Instr, i.wf = true →
    (isM i = true → ∃ w, encode i = [w] ∧ decodeM w = .ok i) ∧
    (isE i = true → ∃ w, encode i = [w] ∧ decodeE w = .ok i) ∧
    (isM i = false → isE i = false → encode i ≠ [] →
      (∃ w, encode i = [w] ∧ w.toNat / 2 ^ 25 % 64 ≠ 0x3E ∧ decodeLane w 0 = .ok i) ∨
      (∃ w lit, encode i = [w, lit] ∧ w.toNat / 2 ^ 25 % 64 = 0x3E ∧ decodeLane w lit = .ok i))

/-- R54, R56-R59: no two words stand for one instruction: what decodes is well formed, and its encoding is the word. -/
def Sys2Proof.Claims.OneWordEach : Prop :=
  ∀ (w lit : Word) (i : Instr),
    (w.toNat / 2 ^ 25 % 64 ≠ 0x3E → decodeLane w 0 = .ok i → i.wf = true ∧ encode i = [w]) ∧
    (w.toNat / 2 ^ 25 % 64 = 0x3E → decodeLane w lit = .ok i → i.wf = true ∧ encode i = [w, lit]) ∧
    (decodeM w = .ok i → i.wf = true ∧ encode i = [w]) ∧ (decodeE w = .ok i → i.wf = true ∧ encode i = [w])

/-! ### The statements of several parts -/

/-- R77, R78, R79, R80, R56, R57: The integer words. Its parts say what each states.
Completes (exec answers a next state, under conditions on the state and the operands alone): nop, iadd, isub, imul,
imulh, ineg, iabs, imin, imax, and, or, xor, mov, shl, shr, sar, clz, popc, brev, iadd64, shl64, icmp, sel, imad,
imadwI, imadwN, bfxN, bfxI, bfi, iaddBh, isubBh, iminBh, imaxBh, iaddi, movi, andi, ori, xori, movl. -/
def Obligations.IntegerForms : Prop :=
  Claims.IntegerFormsOfMajorZero ∧ Claims.IntegerFormsOfMajorOne ∧ Claims.MultiplyAddFieldsAndNarrowForms ∧
  Claims.ImmediateForms ∧ Claims.LiteralAndNop

/-- R81, R82, R83, R84, R86, R87: The float words. Its parts say what each states.
Completes (exec answers a next state, under conditions on the state and the operands alone): fadd, fsub, fmul, ffma,
fmin, fmax, fabs, fneg, fcmp, frnd, fclass, hadd2, hmul2, hfma2, hmax2, fdot2h, rcp, rsq, sqrt, div, exp2, log2, sin,
cos, tanh. -/
def Obligations.FloatForms : Prop :=
  Claims.FloatForms ∧ Claims.HalfForms ∧ Claims.SpecialAndDivisionForms

/-- R85: NaN results and the arguments of Table 5.4. Its parts say what each states. -/
def Obligations.SpecialArgumentResults : Prop :=
  Claims.NanResults ∧ Claims.SpecialArguments

/-- R93: CVT, CVTN and CVTW. Its parts say what each states.
Completes (exec answers a next state, under conditions on the state and the operands alone): cvt, cvtn, cvtw. -/
def Obligations.ConversionForms : Prop :=
  Claims.Conversions ∧ Claims.SlotConversions ∧ Claims.EmptySlotFaults

/-- R94, R97, R98, R99, R100: The softmax and random words. Its parts say what each states.
Completes (exec answers a next state, under conditions on the state and the operands alone): smxupd, smxmrg, smxfin,
rand, randn. -/
def Obligations.SoftmaxAndRandomWords : Prop :=
  Claims.SoftmaxWords ∧ Claims.RandomWords

/-- R112, R113, R114, R36: SHFL, LRED and LSCAN. Its parts say what each states.
Completes (exec answers a next state, under conditions on the state and the operands alone): shfl, lred, lscan. -/
def Obligations.CrossLaneWords : Prop :=
  Claims.Shuffle ∧ Claims.LaneTrees

/-- R107: The capability words. Its parts say what each states.
Completes (exec answers a next state, under conditions on the state and the operands alone): capsub, caprestrict,
caplen, captype, capmov. -/
def Obligations.CapabilityWords : Prop :=
  Claims.CapabilityWords ∧ Claims.CapabilitiesNeverWiden

/-- R102, R105, R101: Faults of the capability words, and the fields of a capability. Its parts say what each states.
-/
def Obligations.CapabilityFaultsAndLayout : Prop :=
  Claims.CapabilityFaults ∧ Claims.CapabilityLayout

/-- R55, R117, R120, R121, R122, R123: Branches, rejoin masks, YIELD, WAITC and EXIT. Its parts say what each states.
Completes (exec answers a next state, under conditions on the state and the operands alone): br, brz, brnz, brx,
yield, exit, waitc, enrol, rejoin, strike. -/
def Obligations.BranchesAndRejoin : Prop :=
  Claims.Branches ∧ Claims.RejoinMasks ∧ Claims.YieldAndWait ∧ Claims.Exit

/-- R127, R222, R350, R128: Taking a trap or a fault, and returning. Its parts say what each states.
Completes (exec answers a next state, under conditions on the state and the operands alone): trap, trapret. -/
def Obligations.TakingTraps : Prop :=
  Claims.TakingATrapOrFault ∧ Claims.TrapWord ∧ Claims.TrapReturn

/-- R130, R365, R132, R135, R125, R126, R6: BRK, EVENT, SREAD and SWRITE. Its parts say what each states.
Completes (exec answers a next state, under conditions on the state and the operands alone): brk, event, sread,
swrite. -/
def Obligations.SystemWords : Prop :=
  Claims.BreakpointWord ∧ Claims.EventWord ∧ Claims.SpecialRead ∧ Claims.SpecialWrite

/-- R139, R144, R146, R147, R108, R109: Loads and stores. Its parts say what each states.
Completes (exec answers a next state, under conditions on the state and the operands alone): ld, ldNarrow, st, ldacq,
strel, ldcap, stcap. -/
def Obligations.LoadsAndStores : Prop :=
  Claims.LoadsAndStores ∧ Claims.AcquireAndRelease ∧ Claims.CapabilityLoadsAndStores

/-- R139, R327, R141: The checks of an access, and where its bytes stand. Its parts say what each states. -/
def Obligations.AccessFaultsAndPlaces : Prop :=
  Claims.AccessFaults ∧ Claims.WhereBytesStand

/-- R151, R153, R152: Fences and cache words. Its parts say what each states.
Completes (exec answers a next state, under conditions on the state and the operands alone): fence, otfence, cwb,
cinv, pref. -/
def Obligations.FencesAndCacheWords : Prop :=
  Claims.Fences ∧ Claims.CacheWords

/-- R154, R155, R173, R175, R176, R347: Multicast stores and the engine words of the fabric. Its parts say what each
states.
Completes (exec answers a next state, under conditions on the state and the operands alone): stmc, stredAddF32,
stredAddB32, stredMaxF32, fbulk, fred, frlease. -/
def Obligations.MulticastAndFabricWords : Prop :=
  Claims.MulticastWords ∧ Claims.FabricWords

/-- R259, R260: Stores are performed. Its parts say what each states.
Completes (exec answers a next state, under conditions on the state and the operands alone): storePerform,
coreBufferDrain, systemBufferDeliver. -/
def Obligations.StoresReachMemory : Prop :=
  Claims.StoresArePerformed ∧ Claims.StoresReachMemory

/-- R259, R21, R146, R148: Loads and atomics are performed. Its parts say what each states.
Completes (exec answers a next state, under conditions on the state and the operands alone): loadPerform,
atomicPerform. -/
def Obligations.LoadsAndAtomicsArePerformed : Prop :=
  Claims.LoadsArePerformed ∧ Claims.AtomicsArePerformed

/-- R259, R260, R263, R265, R304: What holds an access back, and what a view may lose. Its parts say what each states.
Completes (exec answers a next state, under conditions on the state and the operands alone): viewRaise,
extentCacheDrop, extentCacheFill. -/
def Obligations.OrderingSteps : Prop :=
  Claims.BlockedStepsChangeNothing ∧ Claims.ReleasesWaitForHistory ∧ Claims.ViewsAndExtentCaches

/-- R157, R159, R161, R163: COPY, COPY2D and CHAIN. Its parts say what each states.
Completes (exec answers a next state, under conditions on the state and the operands alone): copy, copy2d, chain. -/
def Obligations.CopyWords : Prop :=
  Claims.CopyWords ∧ Claims.CopiesIntoRegisters

/-- R162, R156, R157: GATHER, SCATTER, SCATADD and tags. Its parts say what each states.
Completes (exec answers a next state, under conditions on the state and the operands alone): gather, scatter, scatadd.
-/
def Obligations.VectorWords : Prop :=
  Claims.VectorWords ∧ Claims.TagFaults

/-- R164, R165, R166, R156: The tag words and the command queues. Its parts say what each states.
Completes (exec answers a next state, under conditions on the state and the operands alone): twait, tfirst, ttest,
tclr, commit, qstat. -/
def Obligations.TagWords : Prop :=
  Claims.TagWords ∧ Claims.TagClearCommitAndQueueStatus

/-- R167, R168, R224, R174: Barriers and arrival counters. Its parts say what each states.
Completes (exec answers a next state, under conditions on the state and the operands alone): arrset, arrwait, bar,
bararr, barwait, barinit. -/
def Obligations.BarriersAndArrivals : Prop :=
  Claims.Barriers ∧ Claims.BarrierFaults ∧ Claims.ArrivalCounters

/-- R171, R283, R288, R172, R297: LAUNCH, LWAIT and LSTAT. Its parts say what each states.
Completes (exec answers a next state, under conditions on the state and the operands alone): launch, lwait, lstat. -/
def Obligations.LaunchWords : Prop :=
  Claims.LaunchWord ∧ Claims.ChildLaunchWords

/-- R180, R181, R187, R188, R186, R245: PAIRGO and PAIRRELAUNCH. Its parts say what each states.
Completes (exec answers a next state, under conditions on the state and the operands alone): pairgo, pairrelaunch,
pairstat. -/
def Obligations.PairLaunchWords : Prop :=
  Claims.PairLaunchWords ∧ Claims.PairRelaunch

/-- R159, R160, R162, R259, R156, R157: What an engine thread does. Its parts say what each states.
Completes (exec answers a next state, under conditions on the state and the operands alone): engineAccess,
engineComplete. -/
def Obligations.EngineWork : Prop :=
  Claims.EngineAccesses ∧ Claims.EngineCompletion

/-- R204, R206, R205, R209: M-words of control and of barriers. Its parts say what each states.
Completes (exec answers a next state, under conditions on the state and the operands alone): mbararr, mbarwait, mloop,
mend, mset, madd, mpost, mexit. -/
def Obligations.StreamWords : Prop :=
  Claims.StreamControl ∧ Claims.StreamBarriers

/-- R190, R196, R198, R199, R60, R197, R207: M-words that enter the array. Its parts say what each states.
Completes (exec answers a next state, under conditions on the state and the operands alone): tclaim, trelease, tzero,
tzeroSlot, tmma. -/
def Obligations.ArrayWords : Prop :=
  Claims.ArrayWords ∧ Claims.ArrayWordFaults

/-- R195, R31, R37, R38, R196, R197, R198, R199, R208: What an array entry does. Its parts say what each states.
Completes (exec answers a next state, under conditions on the state and the operands alone): arrayOpStart,
arrayOpFinish. -/
def Obligations.ArrayEntries : Prop :=
  Claims.ArrayOrder ∧ Claims.ArrayEntries

/-- R36, R201, R202, R203, R200: The epilogue. Its parts say what each states.
Completes (exec answers a next state, under conditions on the state and the operands alone): eadd, esub, emul, efma,
emax, emin, etanh, eexp, ercp, eldrow, eldcol, ecvt, eamax, esmx, eend, epilogueRow. -/
def Obligations.EpilogueSteps : Prop :=
  Claims.EpilogueWords ∧ Claims.EpilogueRows

/-- R226, R252, R289, R16, R290, R291, R292, R308: Teams end, and are pre-empted. Its parts say what each states.
Completes (exec answers a next state, under conditions on the state and the operands alone): teamEnd, launchComplete,
preemptTeam, teamResume, sliceWithdraw. -/
def Obligations.TeamsEndAndYield : Prop :=
  Claims.TeamEndAndCompletion ∧ Claims.Preemption

/-- R294, R295, R296: Deterministic launches. Its parts say what each states.
Completes (exec answers a next state, under conditions on the state and the operands alone): ld, st, atomr,
serialPhase. -/
def Obligations.DeterministicLaunches : Prop :=
  Claims.SerialPhases ∧ Claims.DeterministicAccesses

/-- R352, R353, R354, R355, R356, R255: Errors, team kills and relaunch. Its parts say what each states.
Completes (exec answers a next state, under conditions on the state and the operands alone): correctedError,
ceThreshold, uncorrectableError, taskRelaunch. -/
def Obligations.ErrorsAndRelaunch : Prop :=
  Claims.Errors ∧ Claims.Relaunch

/-- R299, R300, R301, R302, R303, R304, R17, R307, R308, R309, R310, R328: Translation, contexts and the command port.
Its parts say what each states.
Completes (exec answers a next state, under conditions on the state and the operands alone): contextCreate,
contextDestroy, resolveRetry, resolveFail, hostOtfenceDev, hostOtfenceSys, otfenceDone, commandPortStage. -/
def Obligations.TranslationAndContexts : Prop :=
  Claims.Translation ∧ Claims.ContextsAndCommands

/-- R315, R316, R317, R318: The directory of the L2s. Its parts say what each states.
Completes (exec answers a next state, under conditions on the state and the operands alone): gets, getm, puts, pute,
putm, inv, downgrade, grant, invAck, putAck, l2Eviction, sectorFetch. -/
def Obligations.Directory : Prop :=
  Claims.DirectoryRequests ∧ Claims.DirectoryAnswers

/-- R330, R340, R341, R342, R343: Ports of the fabric and their keys. Its parts say what each states.
Completes (exec answers a next state, under conditions on the state and the operands alone): flitReceive, flitAck,
laneSpare, linkFail, portUp, escapeMove, keyInstall, keySwitch, flitCounterExhausted, rekeyGraceExpiry. -/
def Obligations.FabricPorts : Prop :=
  Claims.FabricPorts ∧ Claims.FabricKeys

/-- R332, R333, R335, R336, R337, R338, R339: Accesses of peers and reduction slots. Its parts say what each states.
Completes (exec answers a next state, under conditions on the state and the operands alone): peerAccessArrive,
bulkPacketArrive, reduceLeaseArrive, reduceContribArrive, slotTimeout, resultRecordDeliver. -/
def Obligations.FabricArrivals : Prop :=
  Claims.AccessesOfPeers ∧ Claims.ReductionSlots

/-- R363, R364, R129, R366, R361, R362, R367, R368, R370: Owl. Its parts say what each states.
Completes (exec answers a next state, under conditions on the state and the operands alone): owlHalt, owlResume,
owlStep, owlHaltseq, owlResumeseq, owlStepseq, grantWrite, lcclearWrite, sampleTimer, traceLostRecord. -/
def Obligations.OwlSteps : Prop :=
  Claims.HaltsAndSteps ∧ Claims.GrantsAndTraces

/-- R44, R46, R47, R189, R200: A step runs the decoded instruction. Its parts say what each states. -/
def Obligations.StepsRunWhatDecodes : Prop :=
  Claims.StepRunsTheLaneWord ∧ Claims.StepRunsTheTurn ∧ Claims.OnlyBadTurnsStop

/-- R5, R11, R299, R215, R358: The state after reset. Its parts say what each states. -/
def Obligations.ResetState : Prop :=
  Claims.ResetIsOrdered ∧ Claims.ResetValues

/-- R43, R54, R55, R56, R57, R58, R59: Decode and encode agree. Its parts say what each states. -/
def Obligations.EncodingsRoundTrip : Prop :=
  Claims.EncodingsAreRead ∧ Claims.OneWordEach
end

