-- ==== Sys2Proof/Laws/Table.lean ====
section
/-! SUPPORT. Laws of the sparse tables: a read after a write, and the canonical form that every write keeps. -/

namespace Sys2Proof.Machine

variable {α : Type}

@[simp] theorem tget_nil (d : α) (n : Nat) : tget d [] n = d := rfl

theorem tget_filter (d : α) (p : Nat → Bool) (t : Tbl α) (n : Nat) :
    tget d (t.filter (fun q => p q.1)) n = if p n then tget d t n else d := by
  induction t with
  | nil => simp [tget]
  | cons q t ih =>
    obtain ⟨k, v⟩ := q
    by_cases hk : p k = true
    · by_cases hn : k = n
      · subst hn; simp [List.filter, hk, tget]
      · simp [List.filter, hk, tget, hn, ih]
    · by_cases hn : k = n
      · subst hn
        have hk' : p k = false := by simpa using hk
        simp [List.filter, hk', ih]
      · have hk' : p k = false := by simpa using hk
        simp [List.filter, hk', ih, tget, hn]

theorem tget_tdel (d : α) (t : Tbl α) (k n : Nat) : tget d (tdel t k) n = if n = k then d else tget d t n := by
  unfold tdel
  rw [tget_filter d (fun m => m != k)]
  by_cases h : n = k <;> simp [h]

theorem tget_tclear (d : α) (t : Tbl α) (lo hi n : Nat) :
    tget d (tclear t lo hi) n = if lo ≤ n ∧ n < hi then d else tget d t n := by
  unfold tclear
  rw [tget_filter d (fun m => m < lo || hi ≤ m)]
  by_cases h : lo ≤ n ∧ n < hi
  · have h1 : ¬ n < lo := by omega
    have h2 : ¬ hi ≤ n := by omega
    simp [h1, h2, h]
  · have h1 : n < lo ∨ hi ≤ n := by omega
    rcases h1 with h1 | h1 <;> simp [h1, h]

/-- No entry of a key. -/
def hasNoKey (t : Tbl α) (k : Nat) : Prop := ∀ p ∈ t, p.1 ≠ k

theorem hasNoKey_tdel (t : Tbl α) (k : Nat) : hasNoKey (tdel t k) k := by
  intro p hp
  simp [tdel] at hp
  exact hp.2

theorem tget_of_hasNoKey (d : α) (t : Tbl α) (k : Nat) (h : hasNoKey t k) : tget d t k = d := by
  induction t with
  | nil => rfl
  | cons p t ih =>
    obtain ⟨k', v⟩ := p
    have h1 : k' ≠ k := h (k', v) (by simp)
    simp only [tget, h1, if_false]
    exact ih (fun q hq => h q (by simp [hq]))

theorem tget_tins (d : α) (t : Tbl α) (k : Nat) (v : α) (n : Nat) (h : hasNoKey t k) :
    tget d (tins k v t) n = if n = k then v else tget d t n := by
  induction t with
  | nil => by_cases hn : k = n <;> simp [tins, tget, hn, eq_comm]
  | cons p t ih =>
    obtain ⟨k', v'⟩ := p
    have h1 : k' ≠ k := h (k', v') (by simp)
    have ih := ih (fun q hq => h q (by simp [hq]))
    unfold tins
    by_cases hlt : k < k'
    · by_cases hn : k = n
      · subst hn; simp [hlt, tget]
      · have hn' : ¬ n = k := fun e => hn e.symm
        simp [hlt, tget, hn, hn']
    · by_cases hn : k' = n
      · subst hn; simp [hlt, tget, h1]
      · simp [hlt, tget, hn, ih]

theorem tget_tset [DecidableEq α] (d : α) (t : Tbl α) (k : Nat) (v : α) (n : Nat) :
    tget d (tset d t k v) n = if n = k then v else tget d t n := by
  unfold tset
  by_cases hv : v = d
  · subst hv; simp [tget_tdel]
  · rw [if_neg hv, tget_tins d _ k v n (hasNoKey_tdel t k), tget_tdel]
    by_cases h : n = k <;> simp [h]

@[simp] theorem tget_tset_same [DecidableEq α] (d : α) (t : Tbl α) (k : Nat) (v : α) : tget d (tset d t k v) k = v := by
  simp [tget_tset]

theorem tget_tset_ne [DecidableEq α] (d : α) (t : Tbl α) (k : Nat) (v : α) (n : Nat) (h : n ≠ k) :
    tget d (tset d t k v) n = tget d t n := by
  simp [tget_tset, h]

theorem tget_tsetAll [DecidableEq α] (d : α) (ks : List Nat) (f : Nat → α) (t : Tbl α) (n : Nat) :
    tget d (tsetAll d t ks f) n = if n ∈ ks then f n else tget d t n := by
  unfold tsetAll
  induction ks generalizing t with
  | nil => simp
  | cons k ks ih =>
    rw [List.foldl_cons, ih, tget_tset]
    by_cases h : n ∈ ks
    · simp [h]
    · by_cases hk : n = k <;> simp [h, hk]

/-! ### The canonical form -/

/-- Every key of a table is above a bound. -/
def above (b : Nat) (t : Tbl α) : Prop := ∀ p ∈ t, b < p.1

theorem keysRise_cons (p : Nat × α) (t : Tbl α) : keysRise (p :: t) = true ↔ above p.1 t ∧ keysRise t = true := by
  induction t generalizing p with
  | nil => simp [keysRise, above]
  | cons q t ih =>
    have e : keysRise (p :: q :: t) = true ↔ p.1 < q.1 ∧ keysRise (q :: t) = true := by simp [keysRise]
    rw [e, ih]
    constructor
    · rintro ⟨h1, h2, h3⟩
      refine ⟨?_, h2, h3⟩
      intro r hr
      rcases List.mem_cons.mp hr with rfl | hr
      · exact h1
      · exact lt_trans h1 (h2 r hr)
    · rintro ⟨h1, h2, h3⟩
      exact ⟨h1 q (by simp), h2, h3⟩

theorem above_filter (b : Nat) (p : Nat × α → Bool) (t : Tbl α) (h : above b t) : above b (t.filter p) :=
  fun q hq => h q (List.mem_filter.mp hq).1

theorem keysRise_filter (p : Nat × α → Bool) (t : Tbl α) (h : keysRise t = true) : keysRise (t.filter p) = true := by
  induction t with
  | nil => simpa using h
  | cons q t ih =>
    rw [keysRise_cons] at h
    by_cases hq : p q = true
    · rw [List.filter_cons_of_pos hq, keysRise_cons]
      exact ⟨above_filter _ _ _ h.1, ih h.2⟩
    · rw [List.filter_cons_of_neg hq]
      exact ih h.2

theorem mem_tins (k : Nat) (v : α) (t : Tbl α) (p : Nat × α) : p ∈ tins k v t ↔ p = (k, v) ∨ p ∈ t := by
  induction t with
  | nil => simp [tins]
  | cons q t ih =>
    obtain ⟨k', v'⟩ := q
    unfold tins
    by_cases h : k < k'
    · simp [h]
    · simp [h, ih]
      tauto

theorem keysRise_tins (k : Nat) (v : α) (t : Tbl α) (h : keysRise t = true) (hk : hasNoKey t k) :
    keysRise (tins k v t) = true := by
  induction t with
  | nil => rfl
  | cons q t ih =>
    obtain ⟨k', v'⟩ := q
    have h0 := h
    rw [keysRise_cons] at h
    have h1 : k' ≠ k := hk (k', v') (by simp)
    unfold tins
    by_cases hlt : k < k'
    · rw [if_pos hlt, keysRise_cons]
      refine ⟨?_, h0⟩
      intro r hr
      rcases List.mem_cons.mp hr with rfl | hr
      · exact hlt
      · exact lt_trans hlt (h.1 r hr)
    · rw [if_neg hlt, keysRise_cons]
      refine ⟨?_, ih h.2 (fun r hr => hk r (by simp [hr]))⟩
      intro r hr
      rcases (mem_tins k v t r).mp hr with rfl | hr
      · show k' < k; omega
      · exact h.1 r hr

theorem twf_iff [DecidableEq α] (d : α) (t : Tbl α) : twf d t = true ↔ keysRise t = true ∧ ∀ p ∈ t, p.2 ≠ d := by
  simp [twf]

theorem twf_filter [DecidableEq α] (d : α) (p : Nat × α → Bool) (t : Tbl α) (h : twf d t = true) :
    twf d (t.filter p) = true := by
  rw [twf_iff] at *
  exact ⟨keysRise_filter p t h.1, fun q hq => h.2 q (List.mem_filter.mp hq).1⟩

theorem twf_tset [DecidableEq α] (d : α) (t : Tbl α) (k : Nat) (v : α) (h : twf d t = true) : twf d (tset d t k v) = true := by
  have hd : twf d (tdel t k) = true := twf_filter d _ t h
  unfold tset
  by_cases hv : v = d
  · simpa [hv] using hd
  · rw [if_neg hv]
    rw [twf_iff] at hd ⊢
    refine ⟨keysRise_tins k v _ hd.1 (hasNoKey_tdel t k), ?_⟩
    intro p hp
    rcases (mem_tins k v _ p).mp hp with rfl | hp
    · exact hv
    · exact hd.2 p hp

theorem twf_tclear [DecidableEq α] (d : α) (t : Tbl α) (lo hi : Nat) (h : twf d t = true) : twf d (tclear t lo hi) = true :=
  twf_filter d _ t h

/-- Canonical tables with the same entries are equal: a write of what stands there changes nothing. -/
theorem twf_ext [DecidableEq α] (d : α) (t u : Tbl α) (ht : twf d t = true) (hu : twf d u = true)
    (h : ∀ n, tget d t n = tget d u n) : t = u := by
  have key : ∀ (t : Tbl α) (b : Nat), above b t → tget d t b = d := by
    intro t b hb
    exact tget_of_hasNoKey d t b (fun p hp => by have := hb p hp; omega)
  induction t generalizing u with
  | nil =>
    cases u with
    | nil => rfl
    | cons q u =>
      have h1 := h q.1
      rw [twf_iff] at hu
      have h2 := hu.2 q (by simp)
      simp [tget] at h1
      exact absurd h1.symm h2
  | cons p t ih =>
    cases u with
    | nil =>
      have h1 := h p.1
      rw [twf_iff] at ht
      have h2 := ht.2 p (by simp)
      simp [tget] at h1
      exact absurd h1 h2
    | cons q u =>
      obtain ⟨k, v⟩ := p
      obtain ⟨k', v'⟩ := q
      rw [twf_iff, keysRise_cons] at ht hu
      obtain ⟨⟨ha, hr⟩, hn⟩ := ht
      obtain ⟨⟨ha', hr'⟩, hn'⟩ := hu
      have hv : v ≠ d := hn (k, v) (by simp)
      have hv' : v' ≠ d := hn' (k', v') (by simp)
      have hk : k = k' := by
        by_contra hne
        rcases Nat.lt_or_gt_of_ne hne with hlt | hgt
        · have := h k
          have hu0 : tget d u k = d := key u k (fun r hr => lt_trans hlt (ha' r hr))
          simp [tget, hu0, (show k' ≠ k by omega)] at this
          exact hv this
        · have := h k'
          have ht0 : tget d t k' = d := key t k' (fun r hr => lt_trans hgt (ha r hr))
          simp [tget, ht0, (show k ≠ k' by omega)] at this
          exact hv' this.symm
      subst hk
      have hvv : v = v' := by
        have := h k
        simpa [tget] using this
      subst hvv
      congr 1
      apply ih u
      · rw [twf_iff]; exact ⟨hr, fun r hr => hn r (by simp [hr])⟩
      · rw [twf_iff]; exact ⟨hr', fun r hr => hn' r (by simp [hr])⟩
      · intro n
        by_cases hkn : k = n
        · subst hkn
          rw [key t k ha, key u k ha']
        · have := h n
          simpa [tget, hkn] using this

theorem tset_self [DecidableEq α] (d : α) (t : Tbl α) (k : Nat) (h : twf d t = true) : tset d t k (tget d t k) = t := by
  apply twf_ext d _ _ (twf_tset d t k _ h) h
  intro n
  rw [tget_tset]
  by_cases hn : n = k <;> simp [hn]

/-! ### Bytes -/

theorem tget_writeLE (n : Nat) (t : Tbl Byte) (a v b : Nat) :
    tget memDefault (writeLE t a v n) b =
      if a ≤ b ∧ b < a + n then BitVec.ofNat 8 (v / 256 ^ (b - a)) else tget memDefault t b := by
  induction n generalizing t a v with
  | zero =>
    have : ¬ (a ≤ b ∧ b < a + 0) := by omega
    simp [writeLE, this]
  | succ n ih =>
    rw [writeLE, ih, tget_tset]
    by_cases h0 : b = a
    · subst h0
      have : ¬ (b + 1 ≤ b ∧ b < b + 1 + n) := by omega
      simp [this]
    · by_cases h1 : a ≤ b ∧ b < a + (n + 1)
      · have h2 : a + 1 ≤ b ∧ b < a + 1 + n := by omega
        rw [if_pos h2, if_pos h1]
        obtain ⟨c, hc⟩ : ∃ c, b - a = c + 1 := ⟨b - a - 1, by omega⟩
        have hc' : b - (a + 1) = c := by omega
        rw [hc, hc', pow_succ, Nat.div_div_eq_div_mul, Nat.mul_comm (256 ^ c) 256]
      · have h2 : ¬ (a + 1 ≤ b ∧ b < a + 1 + n) := by omega
        rw [if_neg h2, if_neg h0, if_neg h1]

theorem readLE_congr (n : Nat) (t u : Tbl Byte) (a : Nat)
    (h : ∀ i, i < n → tget memDefault t (a + i) = tget memDefault u (a + i)) : readLE t a n = readLE u a n := by
  induction n generalizing a with
  | zero => rfl
  | succ n ih =>
    have h0 := h 0 (by omega)
    simp only [Nat.add_zero] at h0
    rw [readLE, readLE, h0, ih (a + 1) (fun i hi => by
      have := h (i + 1) (by omega)
      rwa [show a + 1 + i = a + (i + 1) by omega])]

/-- Reading what was written gives it back. -/
theorem readLE_writeLE (n : Nat) (t : Tbl Byte) (a v : Nat) : readLE (writeLE t a v n) a n = v % 256 ^ n := by
  have key : ∀ (n : Nat) (t u : Tbl Byte) (a v : Nat), (∀ i, i < n → tget memDefault u (a + i) = BitVec.ofNat 8 (v / 256 ^ i)) →
      readLE u a n = v % 256 ^ n := by
    intro n
    induction n with
    | zero => intro t u a v h; simp [readLE, Nat.mod_one]
    | succ n ih =>
      intro t u a v h
      have h0 := h 0 (by omega)
      simp only [Nat.add_zero, pow_zero, Nat.div_one] at h0
      rw [readLE, h0, ih t u (a + 1) (v / 256) (fun i hi => by
        have := h (i + 1) (by omega)
        rw [show a + 1 + i = a + (i + 1) by omega, this, Nat.div_div_eq_div_mul, pow_succ, Nat.mul_comm (256 ^ i) 256])]
      have hb : (BitVec.ofNat 8 v).toNat = v % 256 := by simp
      rw [hb, pow_succ, Nat.mul_comm (256 ^ n) 256, Nat.mod_mul]
  exact key n t _ a v (fun i hi => by
    rw [tget_writeLE, if_pos (by omega)]
    congr 2
    simp)

/-- Reading bytes that a write does not touch gives what they were. -/
theorem readLE_writeLE_ne (n m : Nat) (t : Tbl Byte) (a v b : Nat) (h : b + m ≤ a ∨ a + n ≤ b) :
    readLE (writeLE t a v n) b m = readLE t b m := by
  apply readLE_congr
  intro i hi
  rw [tget_writeLE, if_neg (by omega)]

theorem wf_writeLE (n : Nat) (t : Tbl Byte) (a v : Nat) (h : Memory.wf t = true) : Memory.wf (writeLE t a v n) = true := by
  induction n generalizing t a v with
  | zero => exact h
  | succ n ih => exact ih _ _ _ (twf_tset memDefault t a _ h)

theorem readLE_lt (n : Nat) (t : Tbl Byte) (a : Nat) : readLE t a n < 256 ^ n := by
  induction n generalizing a with
  | zero => simp [readLE]
  | succ n ih =>
    have h1 := ih (a + 1)
    have h2 := (tget memDefault t a).isLt
    rw [readLE, pow_succ]
    omega

end Sys2Proof.Machine
end

