-- ==== Sys2Proof/Laws/Memory.lean ====
section
/-! SUPPORT. Every operation that writes device memory keeps its canonical form: the writes of stores, of the NC copies, of
the on-chip map and of Owl's records. -/

namespace Sys2Proof.Machine

/-- Device memory in canonical form. -/
def State.memOk (s : State) : Prop := Memory.wf s.o.mem = true

theorem State.memOk_of_eq {s t : State} (h : t.o.mem = s.o.mem) (hs : s.memOk) : t.memOk := by
  unfold State.memOk at *; rw [h]; exact hs

/-- What a fold keeps. -/
theorem foldl_keeps {α σ : Type} (P : σ → Prop) (f : σ → α → σ) (h : ∀ s x, P s → P (f s x)) (l : List α) (s : σ) (hs : P s) :
    P (l.foldl f s) := by
  induction l generalizing s with
  | nil => exact hs
  | cons x l ih => exact ih _ (h _ _ hs)

theorem writeBytes_keeps (P : State → Prop) (f : State → Nat → Nat → State) (h : ∀ s a v, P s → P (f s a v)) (n : Nat)
    (s : State) (a v : Nat) (hs : P s) : P (writeBytes f s a v n) := by
  induction n generalizing s a v with
  | zero => exact hs
  | succ n ih => exact ih _ _ _ (h _ _ _ hs)

/-! ### Stores -/

theorem State.devWrite_memOk (s : State) (a size v : Nat) (h : s.memOk) : (s.devWrite a size v).memOk :=
  wf_writeLE size s.o.mem a v h

theorem State.devWriteAll_memOk (s : State) (a size v : Nat) (h : s.memOk) : (s.devWriteAll a size v).memOk :=
  foldl_keeps State.memOk _ (fun _ _ hs => State.devWrite_memOk _ _ _ _ hs) _ _ h

theorem State.ncWrite_memOk (s : State) (die a size v : Nat) (h : s.memOk) : (s.ncWrite die a size v).memOk := h
theorem State.ncRead_memOk (s : State) (die a size : Nat) (h : s.memOk) : (s.ncRead die a size).2.memOk := h

theorem State.ncKeep_memOk (s : State) (die a : Nat) (h : s.memOk) : (s.ncKeep die a).memOk := h

theorem State.ncClean_memOk (s : State) (die a : Nat) (drop : Bool) (h : s.memOk) : (s.ncClean die a drop).memOk := by
  unfold State.ncClean
  split
  · exact h
  · extract_lets b put lost
    split
    rename_i all s1 hs
    have h1 : s1.memOk := by
      split at hs
      · cases hs; exact h
      · cases hs; exact h
    extract_lets s2 s3
    have h2 : s2.memOk := foldl_keeps State.memOk _ (fun x i hx => by
      split
      · exact State.devWrite_memOk _ _ _ _ hx
      · exact hx) _ _ h1
    have h3 : s3.memOk := by
      unfold s3
      split
      · exact foldl_keeps State.memOk _ (fun x i hx => State.ncKeep_memOk _ _ _ hx) _ _ h2
      · exact h2
    exact h3

/-- A copy written back and dropped. -/
theorem State.l1Clean_memOk (s : State) (core a : Nat) (h : s.memOk) : (s.l1Clean core a).memOk := by
  unfold State.l1Clean
  split
  · exact h
  · dsimp only
    split
    · exact h
    · split
      · refine foldl_keeps State.memOk _ (fun x i hx => ?_) _ _ h
        split
        · exact State.devWrite_memOk _ _ _ _ hx
        · exact hx
      · exact h

theorem State.l1Stored_memOk (s : State) (a size v : Nat) (wb : Bool) (h : s.memOk) : (s.l1Stored a size v wb).memOk := by
  refine foldl_keeps State.memOk _ (fun x p hx => ?_) _ _ h
  exact hx

theorem State.devPut_memOk (s : State) (a size v : Nat) (h : s.memOk) : (s.devPut a size v).memOk := by
  unfold State.devPut
  split
  · exact State.devWrite_memOk _ _ _ _ h
  · exact State.devWriteAll_memOk _ _ _ _ h

theorem State.l2Wrote_o (s : State) (die a : Nat) : (s.l2Wrote die a).o = s.o := by
  unfold State.l2Wrote
  dsimp only
  split <;> rfl

/-! ### Owl's records -/

theorem State.putTrace_memOk (s : State) (die r : Nat) (h : s.memOk) : (s.putTrace die r).memOk :=
  State.devWrite_memOk _ _ _ _ (State.devWrite_memOk _ _ _ _ h)

theorem State.traceLost_memOk (s : State) (die : Nat) (h : s.memOk) : (s.traceLost die).memOk := by
  unfold State.traceLost
  dsimp only
  split
  · exact h
  · exact State.putTrace_memOk (State.setOwl _ _ _) _ _ h

theorem State.trace_memOk (s : State) (die r : Nat) (h : s.memOk) : (s.trace die r).memOk := by
  unfold State.trace
  dsimp only
  split
  · exact h
  · split
    · exact State.traceLost_memOk s die h
    · exact State.putTrace_memOk _ _ _ (State.traceLost_memOk s die h)

theorem State.laneTrace_memOk (s : State) (lk : Nat) (pc : Pc) (k st d : Nat) (h : s.memOk) : (s.laneTrace lk pc k st d).memOk :=
  State.trace_memOk _ _ _ h
theorem State.seqTrace_memOk (s : State) (tk k d : Nat) (h : s.memOk) : (s.seqTrace tk k d).memOk := State.trace_memOk _ _ _ h

theorem State.haltLane_memOk (s : State) (lk kind : Nat) (b : Bool) (h : s.memOk) : (s.haltLane lk kind b).memOk := by
  unfold State.haltLane
  dsimp only
  split
  · exact State.laneTrace_memOk _ _ _ _ _ _ h
  · exact State.laneTrace_memOk _ _ _ _ _ _ h
  · exact h

theorem State.owlHaltLanes_memOk (s : State) (gk : Nat) (m : DWord) (h : s.memOk) : (s.owlHaltLanes gk m).memOk := by
  refine foldl_keeps State.memOk _ (fun x l hx => ?_) _ _ h
  dsimp only
  split
  · exact hx
  · exact State.haltLane_memOk _ _ _ _ hx

theorem foldl_o {α : Type} (f : State → α → State) (h : ∀ s x, (f s x).o = s.o) (l : List α) (s : State) : (l.foldl f s).o = s.o := by
  induction l generalizing s with
  | nil => rfl
  | cons x l ih => rw [List.foldl_cons, ih, h]

theorem State.rejoinRelease_o (s : State) (gk n : Nat) : (s.rejoinRelease gk n).o = s.o := by
  unfold State.rejoinRelease
  dsimp only
  split
  · refine (foldl_o _ (fun x l => ?_) _ _ : _ = s.o)
    split <;> rfl
  · rfl

theorem State.rejoinBack_o (s : State) (lk : Nat) : (s.rejoinBack lk).o = s.o := by
  unfold State.rejoinBack
  split <;> first | exact State.rejoinRelease_o _ _ _ | rfl

theorem State.owlFree_memOk (s : State) (gk : Nat) (m : DWord) (o st : Bool) (h : s.memOk) : (s.owlFree gk m o st).memOk := by
  unfold State.owlFree
  refine foldl_keeps State.memOk _ (fun x l hx => ?_) _ _ h
  exact State.memOk_of_eq (s := x) (congrArg Order.mem (State.rejoinBack_o _ _)) hx

theorem State.owlSeqHalt_memOk (s : State) (tk : Nat) (h : s.memOk) : (s.owlSeqHalt tk).memOk := by
  unfold State.owlSeqHalt
  dsimp only
  split
  · exact State.seqTrace_memOk _ _ _ _ h
  · exact h

theorem State.owlAct_memOk (s : State) (tk gk op : Nat) (past : Bool) (m : DWord) (h : s.memOk) :
    (s.owlAct tk gk op past m).2.2.memOk := by
  unfold State.owlAct
  dsimp only
  split
  · exact State.owlHaltLanes_memOk _ _ _ h
  · split
    · exact State.owlFree_memOk _ _ _ _ _ h
    · exact h
  · split
    · exact State.owlFree_memOk _ _ _ _ _ h
    · exact h
  · exact State.owlSeqHalt_memOk _ _ h
  · split <;> exact h
  · split <;> exact h
  · exact h

theorem State.owlDo_memOk (s : State) (die tk gk op : Nat) (past : Bool) (m : DWord) (h : s.memOk) :
    (s.owlDo die tk gk op past m).memOk := State.owlAct_memOk s tk gk op past m h

theorem State.owlCommand_memOk (s : State) (die : Nat) (c : BitVec 128) (h : s.memOk) : (s.owlCommand die c).memOk := by
  unfold State.owlCommand
  dsimp only
  split
  · exact h
  · exact State.owlDo_memOk _ _ _ _ _ _ _ h

theorem memOk_ite (c : Prop) [Decidable c] (a b : State) (ha : a.memOk) (hb : b.memOk) : (if c then a else b).memOk := by
  split
  · exact ha
  · exact hb

theorem sendEvents_o (cs : List Nat) (k p : Nat) (s : State) :
    (cs.foldl (fun (s : State) c => s.sendEvent k (BitVec.ofNat 32 c) p) s).o = s.o := by
  induction cs generalizing s with
  | nil => rfl
  | cons c cs ih => rw [List.foldl_cons, ih]; rfl

theorem State.setOwl_memOk (s : State) (die : Nat) (x : Owl) (h : s.memOk) : (s.setOwl die x).memOk := h

theorem State.lockClock_memOk (s : State) (n : Nat) (h : s.memOk) : (s.lockClock n).memOk := by
  unfold State.lockClock
  dsimp only
  split <;> exact h

theorem State.writeGrant_memOk (s : State) (die : Nat) (d : DWord) (h : s.memOk) : (s.writeGrant die d).memOk := by
  unfold State.writeGrant
  extract_lets o n v key s1 gseq s2 ended src payload
  have h1 : s1.memOk := State.lockClock_memOk _ _ h
  have h2 : s2.memOk := State.setOwl_memOk _ _ _ h1
  clear_value s1 s2 v payload
  split
  · exact State.setOwl_memOk _ _ _ h1
  · exact State.memOk_of_eq (s := s2) (congrArg Order.mem (sendEvents_o _ _ _ _)) h2

/-! ### The on-chip map -/

theorem State.writeCore_memOk (s : State) (core o size v : Nat) (h : s.memOk) : (s.writeCore core o size v).memOk := by
  unfold State.writeCore
  dsimp only
  split
  · exact State.memOk_of_eq (s := s) rfl h
  · split
    · exact State.memOk_of_eq (s := s) rfl h
    · split <;> exact State.memOk_of_eq (s := s) rfl h

theorem State.writeOwl_memOk (s : State) (die o size v : Nat) (hy : Bool) (h : s.memOk) : (s.writeOwl die o size v hy).memOk := by
  unfold State.writeOwl
  dsimp only
  split
  · split
    · exact State.writeGrant_memOk _ _ _ h
    · exact State.memOk_of_eq (s := s) rfl h
  · split
    · split
      · exact State.owlCommand_memOk _ _ _ h
      · exact State.memOk_of_eq (s := s) rfl h
    · repeat' split
      all_goals exact State.memOk_of_eq (s := s) rfl h

theorem State.fabWrite_memOk (s t : State) (o size v : Nat) (h : s.memOk) (ht : s.fabWrite o size v = some t) : t.memOk := by
  unfold State.fabWrite at ht
  dsimp only at ht
  repeat' split at ht
  all_goals first | (cases ht; exact State.memOk_of_eq (s := s) rfl h) | cases ht

theorem State.ocmWrite_memOk (s t : State) (a size v : Nat) (hy : Bool) (h : s.memOk) (ht : s.ocmWrite a size v hy = some t) :
    t.memOk := by
  unfold State.ocmWrite at ht
  dsimp only at ht
  split at ht
  · split at ht
    · split at ht
      · cases ht
        refine writeBytes_keeps State.memOk _ (fun x b y hx => ?_) _ _ _ _ h
        split <;> exact State.memOk_of_eq (s := x) rfl hx
      · cases ht
    · split at ht
      · cases ht
        refine writeBytes_keeps State.memOk _ (fun x b y hx => ?_) _ _ _ _ h
        split <;> exact State.memOk_of_eq (s := x) rfl hx
      · cases ht
    · split at ht
      · cases ht
        refine writeBytes_keeps State.memOk _ (fun x b y hx => ?_) _ _ _ _ h
        split <;> exact State.memOk_of_eq (s := x) rfl hx
      · cases ht
    · split at ht
      · cases ht; exact State.writeCore_memOk _ _ _ _ _ h
      · cases ht
    · cases ht
  · split at ht
    · split at ht
      · cases ht; exact State.writeOwl_memOk _ _ _ _ _ _ h
      · cases ht
    · split at ht
      · exact State.fabWrite_memOk _ _ _ _ _ h ht
      · cases ht
    · cases ht

theorem State.ocmWrite_getD_memOk (s : State) (a size v : Nat) (hy : Bool) (h : s.memOk) :
    ((s.ocmWrite a size v hy).getD s).memOk := by
  cases ht : s.ocmWrite a size v hy with
  | none => exact h
  | some t => exact State.ocmWrite_memOk s t a size v hy h ht

theorem State.winWrite_memOk (s : State) (a size v : Nat) (hy : Bool) (h : s.memOk) : (s.winWrite a size v hy).memOk := by
  unfold State.winWrite
  split
  · exact State.devWrite_memOk _ _ _ _ h
  · split
    · exact State.ocmWrite_getD_memOk _ _ _ _ _ h
    · exact h

theorem State.setRegByte_o (s : State) (tk off v : Nat) : (s.setRegByte tk off v).o = s.o := by
  unfold State.setRegByte
  dsimp only
  repeat' split
  all_goals rfl
theorem State.regWrite_o (n : Nat) (s : State) (tk off v : Nat) : (s.regWrite tk off v n).o = s.o := by
  induction n generalizing s off v with
  | zero => rfl
  | succ n ih => rw [State.regWrite, ih, State.setRegByte_o]

/-- A write at any location. -/
theorem State.writeNow_memOk (s : State) (core : Nat) (l : Loc) (size v : Nat) (h : s.memOk) : (s.writeNow core l size v).memOk := by
  unfold State.writeNow
  cases l with
  | dev a p nc =>
    dsimp only
    split
    · exact h
    · exact State.memOk_of_eq (congrArg Order.mem (State.l2Wrote_o _ _ _)) (State.devPut_memOk _ _ _ _ (State.l1Stored_memOk _ _ _ _ _ h))
  | scr _ _ => exact h
  | reg _ _ =>
    exact State.memOk_of_eq (s := s) (congrArg Order.mem (State.regWrite_o _ _ _ _ _)) h
  | acc _ _ _ => exact h
  | ocm _ => exact State.ocmWrite_getD_memOk _ _ _ _ _ h
  | peer _ _ =>
    dsimp only
    split
    · exact State.winWrite_memOk _ _ _ _ _ h
    · exact h
  | host _ => exact h

/-- A write of the host. -/
theorem State.hostWrite_memOk (s : State) (a size v : Nat) (hy : Bool) (h : s.memOk) : (s.hostWrite a size v hy).memOk := by
  unfold State.hostWrite
  split
  · exact h
  · split
    · exact h
    · split
      · split
        · exact State.ocmWrite_getD_memOk _ _ _ _ _ h
        · exact h
      · exact h

/-- After reset memory has the form. -/
theorem State.reset_memOk : State.reset.memOk := rfl

end Sys2Proof.Machine
end

