-- ==== Sys2Proof/Laws/PerInstr.lean ====
section
/-! SUPPORT. Statements about every instruction as syntax. -/

namespace Sys2Proof.Laws

/-- An instruction is one word, MOVL two, an event of the device none (R43, R56). -/
def WordCount.Statement (i : Instr) : Prop := (encode i).length ≤ 2 ∧ ((encode i).length = 2 → ∃ d l, i = .movl d l)

theorem WordCount.nop (x0 : Bool) : WordCount.Statement (.nop x0) := ⟨(by decide : 1 ≤ 2), fun h => absurd (show 1 = 2 from h) (by decide)⟩
theorem WordCount.iadd (x0 : Bool) (x1 : Opc) (x2 : Opc) (x3 : Opc) : WordCount.Statement (.iadd x0 x1 x2 x3) := ⟨(by decide : 1 ≤ 2), fun h => absurd (show 1 = 2 from h) (by decide)⟩
theorem WordCount.isub (x0 : Bool) (x1 : Opc) (x2 : Opc) (x3 : Opc) : WordCount.Statement (.isub x0 x1 x2 x3) := ⟨(by decide : 1 ≤ 2), fun h => absurd (show 1 = 2 from h) (by decide)⟩
theorem WordCount.imul (x0 : Bool) (x1 : Opc) (x2 : Opc) (x3 : Opc) : WordCount.Statement (.imul x0 x1 x2 x3) := ⟨(by decide : 1 ≤ 2), fun h => absurd (show 1 = 2 from h) (by decide)⟩
theorem WordCount.imulh (x0 : Bool) (x1 : Opc) (x2 : Opc) (x3 : Opc) (x4 : Sgn) : WordCount.Statement (.imulh x0 x1 x2 x3 x4) := ⟨(by decide : 1 ≤ 2), fun h => absurd (show 1 = 2 from h) (by decide)⟩
theorem WordCount.ineg (x0 : Bool) (x1 : Opc) (x2 : Opc) : WordCount.Statement (.ineg x0 x1 x2) := ⟨(by decide : 1 ≤ 2), fun h => absurd (show 1 = 2 from h) (by decide)⟩
theorem WordCount.iabs (x0 : Bool) (x1 : Opc) (x2 : Opc) : WordCount.Statement (.iabs x0 x1 x2) := ⟨(by decide : 1 ≤ 2), fun h => absurd (show 1 = 2 from h) (by decide)⟩
theorem WordCount.imin (x0 : Bool) (x1 : Opc) (x2 : Opc) (x3 : Opc) (x4 : Sgn) : WordCount.Statement (.imin x0 x1 x2 x3 x4) := ⟨(by decide : 1 ≤ 2), fun h => absurd (show 1 = 2 from h) (by decide)⟩
theorem WordCount.imax (x0 : Bool) (x1 : Opc) (x2 : Opc) (x3 : Opc) (x4 : Sgn) : WordCount.Statement (.imax x0 x1 x2 x3 x4) := ⟨(by decide : 1 ≤ 2), fun h => absurd (show 1 = 2 from h) (by decide)⟩
theorem WordCount.and (x0 : Bool) (x1 : Opc) (x2 : Opc) (x3 : Opc) : WordCount.Statement (.and x0 x1 x2 x3) := ⟨(by decide : 1 ≤ 2), fun h => absurd (show 1 = 2 from h) (by decide)⟩
theorem WordCount.or (x0 : Bool) (x1 : Opc) (x2 : Opc) (x3 : Opc) : WordCount.Statement (.or x0 x1 x2 x3) := ⟨(by decide : 1 ≤ 2), fun h => absurd (show 1 = 2 from h) (by decide)⟩
theorem WordCount.xor (x0 : Bool) (x1 : Opc) (x2 : Opc) (x3 : Opc) : WordCount.Statement (.xor x0 x1 x2 x3) := ⟨(by decide : 1 ≤ 2), fun h => absurd (show 1 = 2 from h) (by decide)⟩
theorem WordCount.mov (x0 : Bool) (x1 : Opc) (x2 : Opc) : WordCount.Statement (.mov x0 x1 x2) := ⟨(by decide : 1 ≤ 2), fun h => absurd (show 1 = 2 from h) (by decide)⟩
theorem WordCount.shl (x0 : Bool) (x1 : Opc) (x2 : Opc) (x3 : Opc) : WordCount.Statement (.shl x0 x1 x2 x3) := ⟨(by decide : 1 ≤ 2), fun h => absurd (show 1 = 2 from h) (by decide)⟩
theorem WordCount.shr (x0 : Bool) (x1 : Opc) (x2 : Opc) (x3 : Opc) : WordCount.Statement (.shr x0 x1 x2 x3) := ⟨(by decide : 1 ≤ 2), fun h => absurd (show 1 = 2 from h) (by decide)⟩
theorem WordCount.sar (x0 : Bool) (x1 : Opc) (x2 : Opc) (x3 : Opc) : WordCount.Statement (.sar x0 x1 x2 x3) := ⟨(by decide : 1 ≤ 2), fun h => absurd (show 1 = 2 from h) (by decide)⟩
theorem WordCount.clz (x0 : Bool) (x1 : Opc) (x2 : Opc) : WordCount.Statement (.clz x0 x1 x2) := ⟨(by decide : 1 ≤ 2), fun h => absurd (show 1 = 2 from h) (by decide)⟩
theorem WordCount.popc (x0 : Bool) (x1 : Opc) (x2 : Opc) : WordCount.Statement (.popc x0 x1 x2) := ⟨(by decide : 1 ≤ 2), fun h => absurd (show 1 = 2 from h) (by decide)⟩
theorem WordCount.brev (x0 : Bool) (x1 : Opc) (x2 : Opc) : WordCount.Statement (.brev x0 x1 x2) := ⟨(by decide : 1 ≤ 2), fun h => absurd (show 1 = 2 from h) (by decide)⟩
theorem WordCount.iadd64 (x0 : Bool) (x1 : Opc) (x2 : Opc) (x3 : Opc) : WordCount.Statement (.iadd64 x0 x1 x2 x3) := ⟨(by decide : 1 ≤ 2), fun h => absurd (show 1 = 2 from h) (by decide)⟩
theorem WordCount.shl64 (x0 : Bool) (x1 : Opc) (x2 : Opc) (x3 : Opc) : WordCount.Statement (.shl64 x0 x1 x2 x3) := ⟨(by decide : 1 ≤ 2), fun h => absurd (show 1 = 2 from h) (by decide)⟩
theorem WordCount.icmp (x0 : Bool) (x1 : Opc) (x2 : Opc) (x3 : Opc) (x4 : ICmp) : WordCount.Statement (.icmp x0 x1 x2 x3 x4) := ⟨(by decide : 1 ≤ 2), fun h => absurd (show 1 = 2 from h) (by decide)⟩
theorem WordCount.sel (x0 : Bool) (x1 : Opc) (x2 : Opc) (x3 : Opc) : WordCount.Statement (.sel x0 x1 x2 x3) := ⟨(by decide : 1 ≤ 2), fun h => absurd (show 1 = 2 from h) (by decide)⟩
theorem WordCount.imad (x0 : Bool) (x1 : Opc) (x2 : Opc) (x3 : Opc) : WordCount.Statement (.imad x0 x1 x2 x3) := ⟨(by decide : 1 ≤ 2), fun h => absurd (show 1 = 2 from h) (by decide)⟩
theorem WordCount.imadwI (x0 : Bool) (x1 : Opc) (x2 : Opc) (x3 : Opc) : WordCount.Statement (.imadwI x0 x1 x2 x3) := ⟨(by decide : 1 ≤ 2), fun h => absurd (show 1 = 2 from h) (by decide)⟩
theorem WordCount.imadwN (x0 : Bool) (x1 : Opc) (x2 : Opc) (x3 : Opc) : WordCount.Statement (.imadwN x0 x1 x2 x3) := ⟨(by decide : 1 ≤ 2), fun h => absurd (show 1 = 2 from h) (by decide)⟩
theorem WordCount.bfxN (x0 : Bool) (x1 : Opc) (x2 : Opc) (x3 : Opc) : WordCount.Statement (.bfxN x0 x1 x2 x3) := ⟨(by decide : 1 ≤ 2), fun h => absurd (show 1 = 2 from h) (by decide)⟩
theorem WordCount.bfxI (x0 : Bool) (x1 : Opc) (x2 : Opc) (x3 : Opc) : WordCount.Statement (.bfxI x0 x1 x2 x3) := ⟨(by decide : 1 ≤ 2), fun h => absurd (show 1 = 2 from h) (by decide)⟩
theorem WordCount.bfi (x0 : Bool) (x1 : Opc) (x2 : Opc) (x3 : Opc) : WordCount.Statement (.bfi x0 x1 x2 x3) := ⟨(by decide : 1 ≤ 2), fun h => absurd (show 1 = 2 from h) (by decide)⟩
theorem WordCount.iaddBh (x0 : Bool) (x1 : Opc) (x2 : Opc) (x3 : Opc) (x4 : SubTy) : WordCount.Statement (.iaddBh x0 x1 x2 x3 x4) := ⟨(by decide : 1 ≤ 2), fun h => absurd (show 1 = 2 from h) (by decide)⟩
theorem WordCount.isubBh (x0 : Bool) (x1 : Opc) (x2 : Opc) (x3 : Opc) (x4 : SubTy) : WordCount.Statement (.isubBh x0 x1 x2 x3 x4) := ⟨(by decide : 1 ≤ 2), fun h => absurd (show 1 = 2 from h) (by decide)⟩
theorem WordCount.iminBh (x0 : Bool) (x1 : Opc) (x2 : Opc) (x3 : Opc) (x4 : SubTy) : WordCount.Statement (.iminBh x0 x1 x2 x3 x4) := ⟨(by decide : 1 ≤ 2), fun h => absurd (show 1 = 2 from h) (by decide)⟩
theorem WordCount.imaxBh (x0 : Bool) (x1 : Opc) (x2 : Opc) (x3 : Opc) (x4 : SubTy) : WordCount.Statement (.imaxBh x0 x1 x2 x3 x4) := ⟨(by decide : 1 ≤ 2), fun h => absurd (show 1 = 2 from h) (by decide)⟩
theorem WordCount.iaddi (x0 : Bool) (x1 : Opc) (x2 : Opc) (x3 : BitVec 11) : WordCount.Statement (.iaddi x0 x1 x2 x3) := ⟨(by decide : 1 ≤ 2), fun h => absurd (show 1 = 2 from h) (by decide)⟩
theorem WordCount.movi (x0 : Bool) (x1 : Opc) (x2 : BitVec 11) : WordCount.Statement (.movi x0 x1 x2) := ⟨(by decide : 1 ≤ 2), fun h => absurd (show 1 = 2 from h) (by decide)⟩
theorem WordCount.andi (x0 : Bool) (x1 : Opc) (x2 : Opc) (x3 : BitVec 11) : WordCount.Statement (.andi x0 x1 x2 x3) := ⟨(by decide : 1 ≤ 2), fun h => absurd (show 1 = 2 from h) (by decide)⟩
theorem WordCount.ori (x0 : Bool) (x1 : Opc) (x2 : Opc) (x3 : BitVec 11) : WordCount.Statement (.ori x0 x1 x2 x3) := ⟨(by decide : 1 ≤ 2), fun h => absurd (show 1 = 2 from h) (by decide)⟩
theorem WordCount.xori (x0 : Bool) (x1 : Opc) (x2 : Opc) (x3 : BitVec 11) : WordCount.Statement (.xori x0 x1 x2 x3) := ⟨(by decide : 1 ≤ 2), fun h => absurd (show 1 = 2 from h) (by decide)⟩
theorem WordCount.movl (x0 : Opc) (x1 : Word) : WordCount.Statement (.movl x0 x1) := ⟨(by decide : 2 ≤ 2), fun _ => ⟨x0, x1, rfl⟩⟩
theorem WordCount.fadd (x0 : Bool) (x1 : Opc) (x2 : Opc) (x3 : Opc) (x4 : RMode) : WordCount.Statement (.fadd x0 x1 x2 x3 x4) := ⟨(by decide : 1 ≤ 2), fun h => absurd (show 1 = 2 from h) (by decide)⟩
theorem WordCount.fsub (x0 : Bool) (x1 : Opc) (x2 : Opc) (x3 : Opc) (x4 : RMode) : WordCount.Statement (.fsub x0 x1 x2 x3 x4) := ⟨(by decide : 1 ≤ 2), fun h => absurd (show 1 = 2 from h) (by decide)⟩
theorem WordCount.fmul (x0 : Bool) (x1 : Opc) (x2 : Opc) (x3 : Opc) (x4 : RMode) : WordCount.Statement (.fmul x0 x1 x2 x3 x4) := ⟨(by decide : 1 ≤ 2), fun h => absurd (show 1 = 2 from h) (by decide)⟩
theorem WordCount.ffma (x0 : Bool) (x1 : Opc) (x2 : Opc) (x3 : Opc) (x4 : RMode) : WordCount.Statement (.ffma x0 x1 x2 x3 x4) := ⟨(by decide : 1 ≤ 2), fun h => absurd (show 1 = 2 from h) (by decide)⟩
theorem WordCount.fmin (x0 : Bool) (x1 : Opc) (x2 : Opc) (x3 : Opc) : WordCount.Statement (.fmin x0 x1 x2 x3) := ⟨(by decide : 1 ≤ 2), fun h => absurd (show 1 = 2 from h) (by decide)⟩
theorem WordCount.fmax (x0 : Bool) (x1 : Opc) (x2 : Opc) (x3 : Opc) : WordCount.Statement (.fmax x0 x1 x2 x3) := ⟨(by decide : 1 ≤ 2), fun h => absurd (show 1 = 2 from h) (by decide)⟩
theorem WordCount.fabs (x0 : Bool) (x1 : Opc) (x2 : Opc) : WordCount.Statement (.fabs x0 x1 x2) := ⟨(by decide : 1 ≤ 2), fun h => absurd (show 1 = 2 from h) (by decide)⟩
theorem WordCount.fneg (x0 : Bool) (x1 : Opc) (x2 : Opc) : WordCount.Statement (.fneg x0 x1 x2) := ⟨(by decide : 1 ≤ 2), fun h => absurd (show 1 = 2 from h) (by decide)⟩
theorem WordCount.fcmp (x0 : Bool) (x1 : Opc) (x2 : Opc) (x3 : Opc) (x4 : FCmp) : WordCount.Statement (.fcmp x0 x1 x2 x3 x4) := ⟨(by decide : 1 ≤ 2), fun h => absurd (show 1 = 2 from h) (by decide)⟩
theorem WordCount.frnd (x0 : Bool) (x1 : Opc) (x2 : Opc) (x3 : RMode) : WordCount.Statement (.frnd x0 x1 x2 x3) := ⟨(by decide : 1 ≤ 2), fun h => absurd (show 1 = 2 from h) (by decide)⟩
theorem WordCount.fclass (x0 : Bool) (x1 : Opc) (x2 : Opc) : WordCount.Statement (.fclass x0 x1 x2) := ⟨(by decide : 1 ≤ 2), fun h => absurd (show 1 = 2 from h) (by decide)⟩
theorem WordCount.hadd2 (x0 : Bool) (x1 : Opc) (x2 : Opc) (x3 : Opc) (x4 : HTy) : WordCount.Statement (.hadd2 x0 x1 x2 x3 x4) := ⟨(by decide : 1 ≤ 2), fun h => absurd (show 1 = 2 from h) (by decide)⟩
theorem WordCount.hmul2 (x0 : Bool) (x1 : Opc) (x2 : Opc) (x3 : Opc) (x4 : HTy) : WordCount.Statement (.hmul2 x0 x1 x2 x3 x4) := ⟨(by decide : 1 ≤ 2), fun h => absurd (show 1 = 2 from h) (by decide)⟩
theorem WordCount.hfma2 (x0 : Bool) (x1 : Opc) (x2 : Opc) (x3 : Opc) (x4 : HTy) : WordCount.Statement (.hfma2 x0 x1 x2 x3 x4) := ⟨(by decide : 1 ≤ 2), fun h => absurd (show 1 = 2 from h) (by decide)⟩
theorem WordCount.hmax2 (x0 : Bool) (x1 : Opc) (x2 : Opc) (x3 : Opc) (x4 : HTy) : WordCount.Statement (.hmax2 x0 x1 x2 x3 x4) := ⟨(by decide : 1 ≤ 2), fun h => absurd (show 1 = 2 from h) (by decide)⟩
theorem WordCount.fdot2h (x0 : Bool) (x1 : Opc) (x2 : Opc) (x3 : Opc) (x4 : HTy) : WordCount.Statement (.fdot2h x0 x1 x2 x3 x4) := ⟨(by decide : 1 ≤ 2), fun h => absurd (show 1 = 2 from h) (by decide)⟩
theorem WordCount.rcp (x0 : Bool) (x1 : Opc) (x2 : Opc) : WordCount.Statement (.rcp x0 x1 x2) := ⟨(by decide : 1 ≤ 2), fun h => absurd (show 1 = 2 from h) (by decide)⟩
theorem WordCount.rsq (x0 : Bool) (x1 : Opc) (x2 : Opc) : WordCount.Statement (.rsq x0 x1 x2) := ⟨(by decide : 1 ≤ 2), fun h => absurd (show 1 = 2 from h) (by decide)⟩
theorem WordCount.sqrt (x0 : Bool) (x1 : Opc) (x2 : Opc) : WordCount.Statement (.sqrt x0 x1 x2) := ⟨(by decide : 1 ≤ 2), fun h => absurd (show 1 = 2 from h) (by decide)⟩
theorem WordCount.div (x0 : Bool) (x1 : Opc) (x2 : Opc) (x3 : Opc) : WordCount.Statement (.div x0 x1 x2 x3) := ⟨(by decide : 1 ≤ 2), fun h => absurd (show 1 = 2 from h) (by decide)⟩
theorem WordCount.exp2 (x0 : Bool) (x1 : Opc) (x2 : Opc) : WordCount.Statement (.exp2 x0 x1 x2) := ⟨(by decide : 1 ≤ 2), fun h => absurd (show 1 = 2 from h) (by decide)⟩
theorem WordCount.log2 (x0 : Bool) (x1 : Opc) (x2 : Opc) : WordCount.Statement (.log2 x0 x1 x2) := ⟨(by decide : 1 ≤ 2), fun h => absurd (show 1 = 2 from h) (by decide)⟩
theorem WordCount.sin (x0 : Bool) (x1 : Opc) (x2 : Opc) : WordCount.Statement (.sin x0 x1 x2) := ⟨(by decide : 1 ≤ 2), fun h => absurd (show 1 = 2 from h) (by decide)⟩
theorem WordCount.cos (x0 : Bool) (x1 : Opc) (x2 : Opc) : WordCount.Statement (.cos x0 x1 x2) := ⟨(by decide : 1 ≤ 2), fun h => absurd (show 1 = 2 from h) (by decide)⟩
theorem WordCount.tanh (x0 : Bool) (x1 : Opc) (x2 : Opc) : WordCount.Statement (.tanh x0 x1 x2) := ⟨(by decide : 1 ≤ 2), fun h => absurd (show 1 = 2 from h) (by decide)⟩
theorem WordCount.idivI (x0 : Bool) (x1 : Opc) (x2 : Opc) (x3 : Opc) : WordCount.Statement (.idivI x0 x1 x2 x3) := ⟨(by decide : 1 ≤ 2), fun h => absurd (show 1 = 2 from h) (by decide)⟩
theorem WordCount.idivN (x0 : Bool) (x1 : Opc) (x2 : Opc) (x3 : Opc) : WordCount.Statement (.idivN x0 x1 x2 x3) := ⟨(by decide : 1 ≤ 2), fun h => absurd (show 1 = 2 from h) (by decide)⟩
theorem WordCount.iremI (x0 : Bool) (x1 : Opc) (x2 : Opc) (x3 : Opc) : WordCount.Statement (.iremI x0 x1 x2 x3) := ⟨(by decide : 1 ≤ 2), fun h => absurd (show 1 = 2 from h) (by decide)⟩
theorem WordCount.iremN (x0 : Bool) (x1 : Opc) (x2 : Opc) (x3 : Opc) : WordCount.Statement (.iremN x0 x1 x2 x3) := ⟨(by decide : 1 ≤ 2), fun h => absurd (show 1 = 2 from h) (by decide)⟩
theorem WordCount.cvt (x0 : Bool) (x1 : Opc) (x2 : Opc) (x3 : CTy) (x4 : RMode) (x5 : Bool) (x6 : CTy) : WordCount.Statement (.cvt x0 x1 x2 x3 x4 x5 x6) := ⟨(by decide : 1 ≤ 2), fun h => absurd (show 1 = 2 from h) (by decide)⟩
theorem WordCount.cvtn (x0 : Bool) (x1 : Opc) (x2 : Opc) (x3 : Opc) (x4 : BitVec 3) : WordCount.Statement (.cvtn x0 x1 x2 x3 x4) := ⟨(by decide : 1 ≤ 2), fun h => absurd (show 1 = 2 from h) (by decide)⟩
theorem WordCount.cvtw (x0 : Bool) (x1 : Opc) (x2 : Opc) (x3 : Opc) (x4 : BitVec 3) : WordCount.Statement (.cvtw x0 x1 x2 x3 x4) := ⟨(by decide : 1 ≤ 2), fun h => absurd (show 1 = 2 from h) (by decide)⟩
theorem WordCount.smxupd (x0 : Bool) (x1 : Opc) (x2 : Opc) : WordCount.Statement (.smxupd x0 x1 x2) := ⟨(by decide : 1 ≤ 2), fun h => absurd (show 1 = 2 from h) (by decide)⟩
theorem WordCount.smxmrg (x0 : Bool) (x1 : Opc) (x2 : Opc) : WordCount.Statement (.smxmrg x0 x1 x2) := ⟨(by decide : 1 ≤ 2), fun h => absurd (show 1 = 2 from h) (by decide)⟩
theorem WordCount.smxfin (x0 : Bool) (x1 : Opc) (x2 : Opc) : WordCount.Statement (.smxfin x0 x1 x2) := ⟨(by decide : 1 ≤ 2), fun h => absurd (show 1 = 2 from h) (by decide)⟩
theorem WordCount.rand (x0 : Bool) (x1 : Opc) : WordCount.Statement (.rand x0 x1) := ⟨(by decide : 1 ≤ 2), fun h => absurd (show 1 = 2 from h) (by decide)⟩
theorem WordCount.randn (x0 : Bool) (x1 : Opc) : WordCount.Statement (.randn x0 x1) := ⟨(by decide : 1 ≤ 2), fun h => absurd (show 1 = 2 from h) (by decide)⟩
theorem WordCount.shfl (x0 : Bool) (x1 : Opc) (x2 : Opc) (x3 : Opc) (x4 : Seg) (x5 : ShMode) : WordCount.Statement (.shfl x0 x1 x2 x3 x4 x5) := ⟨(by decide : 1 ≤ 2), fun h => absurd (show 1 = 2 from h) (by decide)⟩
theorem WordCount.lred (x0 : Bool) (x1 : Opc) (x2 : Opc) (x3 : Lop) : WordCount.Statement (.lred x0 x1 x2 x3) := ⟨(by decide : 1 ≤ 2), fun h => absurd (show 1 = 2 from h) (by decide)⟩
theorem WordCount.lscan (x0 : Bool) (x1 : Opc) (x2 : Opc) (x3 : Bool) (x4 : Lop) : WordCount.Statement (.lscan x0 x1 x2 x3 x4) := ⟨(by decide : 1 ≤ 2), fun h => absurd (show 1 = 2 from h) (by decide)⟩
theorem WordCount.vote (x0 : Bool) (x1 : Opc) (x2 : Opc) (x3 : Bool) : WordCount.Statement (.vote x0 x1 x2 x3) := ⟨(by decide : 1 ≤ 2), fun h => absurd (show 1 = 2 from h) (by decide)⟩
theorem WordCount.voteBallot (x0 : Bool) (x1 : Opc) (x2 : Opc) : WordCount.Statement (.voteBallot x0 x1 x2) := ⟨(by decide : 1 ≤ 2), fun h => absurd (show 1 = 2 from h) (by decide)⟩
theorem WordCount.matcheq (x0 : Bool) (x1 : Opc) (x2 : Opc) : WordCount.Statement (.matcheq x0 x1 x2) := ⟨(by decide : 1 ≤ 2), fun h => absurd (show 1 = 2 from h) (by decide)⟩
theorem WordCount.bppack (x0 : Bool) (x1 : Opc) (x2 : Opc) (x3 : Opc) : WordCount.Statement (.bppack x0 x1 x2 x3) := ⟨(by decide : 1 ≤ 2), fun h => absurd (show 1 = 2 from h) (by decide)⟩
theorem WordCount.bpunpack (x0 : Bool) (x1 : Opc) (x2 : Opc) (x3 : Opc) : WordCount.Statement (.bpunpack x0 x1 x2 x3) := ⟨(by decide : 1 ≤ 2), fun h => absurd (show 1 = 2 from h) (by decide)⟩
theorem WordCount.bpdot (x0 : Bool) (x1 : Opc) (x2 : Opc) (x3 : Opc) : WordCount.Statement (.bpdot x0 x1 x2 x3) := ⟨(by decide : 1 ≤ 2), fun h => absurd (show 1 = 2 from h) (by decide)⟩
theorem WordCount.bpslice (x0 : Bool) (x1 : Opc) (x2 : Opc) (x3 : Opc) : WordCount.Statement (.bpslice x0 x1 x2 x3) := ⟨(by decide : 1 ≤ 2), fun h => absurd (show 1 = 2 from h) (by decide)⟩
theorem WordCount.ld (x0 : Bool) (x1 : Opc) (x2 : Opc) (x3 : BitVec 3) (x4 : BitVec 4) (x5 : Hint) (x6 : Bool) : WordCount.Statement (.ld x0 x1 x2 x3 x4 x5 x6) := ⟨(by decide : 1 ≤ 2), fun h => absurd (show 1 = 2 from h) (by decide)⟩
theorem WordCount.ldNarrow (x0 : Bool) (x1 : Opc) (x2 : Opc) (x3 : BitVec 3) (x4 : BitVec 4) (x5 : Hint) (x6 : NarrowTy) : WordCount.Statement (.ldNarrow x0 x1 x2 x3 x4 x5 x6) := ⟨(by decide : 1 ≤ 2), fun h => absurd (show 1 = 2 from h) (by decide)⟩
theorem WordCount.st (x0 : Bool) (x1 : Opc) (x2 : Opc) (x3 : BitVec 3) (x4 : BitVec 4) (x5 : Hint) (x6 : StW) : WordCount.Statement (.st x0 x1 x2 x3 x4 x5 x6) := ⟨(by decide : 1 ≤ 2), fun h => absurd (show 1 = 2 from h) (by decide)⟩
theorem WordCount.ldacq (x0 : Bool) (x1 : Opc) (x2 : Opc) (x3 : BitVec 3) (x4 : BitVec 4) (x5 : Scope) : WordCount.Statement (.ldacq x0 x1 x2 x3 x4 x5) := ⟨(by decide : 1 ≤ 2), fun h => absurd (show 1 = 2 from h) (by decide)⟩
theorem WordCount.strel (x0 : Bool) (x1 : Opc) (x2 : Opc) (x3 : BitVec 3) (x4 : BitVec 4) (x5 : Scope) : WordCount.Statement (.strel x0 x1 x2 x3 x4 x5) := ⟨(by decide : 1 ≤ 2), fun h => absurd (show 1 = 2 from h) (by decide)⟩
theorem WordCount.atom (x0 : Bool) (x1 : Opc) (x2 : Opc) (x3 : BitVec 3) (x4 : Ord) (x5 : Scp) (x6 : Aop) : WordCount.Statement (.atom x0 x1 x2 x3 x4 x5 x6) := ⟨(by decide : 1 ≤ 2), fun h => absurd (show 1 = 2 from h) (by decide)⟩
theorem WordCount.atomr (x0 : Bool) (x1 : Opc) (x2 : Opc) (x3 : BitVec 3) (x4 : BitVec 4) (x5 : Aop) : WordCount.Statement (.atomr x0 x1 x2 x3 x4 x5) := ⟨(by decide : 1 ≤ 2), fun h => absurd (show 1 = 2 from h) (by decide)⟩
theorem WordCount.cas (x0 : Bool) (x1 : Opc) (x2 : Opc) (x3 : BitVec 3) (x4 : BitVec 4) : WordCount.Statement (.cas x0 x1 x2 x3 x4) := ⟨(by decide : 1 ≤ 2), fun h => absurd (show 1 = 2 from h) (by decide)⟩
theorem WordCount.atomrst (x0 : Bool) (x1 : Opc) (x2 : Opc) (x3 : BitVec 3) (x4 : BitVec 4) : WordCount.Statement (.atomrst x0 x1 x2 x3 x4) := ⟨(by decide : 1 ≤ 2), fun h => absurd (show 1 = 2 from h) (by decide)⟩
theorem WordCount.atomrOrdered (x0 : Bool) (x1 : Opc) (x2 : Opc) (x3 : BitVec 3) (x4 : Ord) (x5 : Scp) (x6 : Aop) : WordCount.Statement (.atomrOrdered x0 x1 x2 x3 x4 x5 x6) := ⟨(by decide : 1 ≤ 2), fun h => absurd (show 1 = 2 from h) (by decide)⟩
theorem WordCount.fence (x0 : Bool) (x1 : Scope) : WordCount.Statement (.fence x0 x1) := ⟨(by decide : 1 ≤ 2), fun h => absurd (show 1 = 2 from h) (by decide)⟩
theorem WordCount.otfence (x0 : Bool) (x1 : Bool) : WordCount.Statement (.otfence x0 x1) := ⟨(by decide : 1 ≤ 2), fun h => absurd (show 1 = 2 from h) (by decide)⟩
theorem WordCount.cwb (x0 : Bool) (x1 : Opc) (x2 : Opc) (x3 : BitVec 3) (x4 : BitVec 4) : WordCount.Statement (.cwb x0 x1 x2 x3 x4) := ⟨(by decide : 1 ≤ 2), fun h => absurd (show 1 = 2 from h) (by decide)⟩
theorem WordCount.cinv (x0 : Bool) (x1 : Opc) (x2 : Opc) (x3 : BitVec 3) (x4 : BitVec 4) : WordCount.Statement (.cinv x0 x1 x2 x3 x4) := ⟨(by decide : 1 ≤ 2), fun h => absurd (show 1 = 2 from h) (by decide)⟩
theorem WordCount.pref (x0 : Bool) (x1 : Opc) (x2 : Opc) (x3 : BitVec 3) (x4 : BitVec 4) : WordCount.Statement (.pref x0 x1 x2 x3 x4) := ⟨(by decide : 1 ≤ 2), fun h => absurd (show 1 = 2 from h) (by decide)⟩
theorem WordCount.stmc (x0 : Bool) (x1 : Opc) (x2 : Opc) (x3 : BitVec 3) (x4 : BitVec 4) : WordCount.Statement (.stmc x0 x1 x2 x3 x4) := ⟨(by decide : 1 ≤ 2), fun h => absurd (show 1 = 2 from h) (by decide)⟩
theorem WordCount.stredAddF32 (x0 : Bool) (x1 : Opc) (x2 : Opc) (x3 : BitVec 3) (x4 : BitVec 4) : WordCount.Statement (.stredAddF32 x0 x1 x2 x3 x4) := ⟨(by decide : 1 ≤ 2), fun h => absurd (show 1 = 2 from h) (by decide)⟩
theorem WordCount.stredAddB32 (x0 : Bool) (x1 : Opc) (x2 : Opc) (x3 : BitVec 3) (x4 : BitVec 4) : WordCount.Statement (.stredAddB32 x0 x1 x2 x3 x4) := ⟨(by decide : 1 ≤ 2), fun h => absurd (show 1 = 2 from h) (by decide)⟩
theorem WordCount.stredMaxF32 (x0 : Bool) (x1 : Opc) (x2 : Opc) (x3 : BitVec 3) (x4 : BitVec 4) : WordCount.Statement (.stredMaxF32 x0 x1 x2 x3 x4) := ⟨(by decide : 1 ≤ 2), fun h => absurd (show 1 = 2 from h) (by decide)⟩
theorem WordCount.copy (x0 : Bool) (x1 : BitVec 6) (x2 : BitVec 3) (x3 : BitVec 3) (x4 : Opc) : WordCount.Statement (.copy x0 x1 x2 x3 x4) := ⟨(by decide : 1 ≤ 2), fun h => absurd (show 1 = 2 from h) (by decide)⟩
theorem WordCount.copy2d (x0 : Bool) (x1 : BitVec 6) (x2 : BitVec 3) (x3 : BitVec 3) (x4 : Opc) : WordCount.Statement (.copy2d x0 x1 x2 x3 x4) := ⟨(by decide : 1 ≤ 2), fun h => absurd (show 1 = 2 from h) (by decide)⟩
theorem WordCount.gather (x0 : Bool) (x1 : BitVec 6) (x2 : BitVec 3) (x3 : Opc) : WordCount.Statement (.gather x0 x1 x2 x3) := ⟨(by decide : 1 ≤ 2), fun h => absurd (show 1 = 2 from h) (by decide)⟩
theorem WordCount.scatter (x0 : Bool) (x1 : BitVec 6) (x2 : BitVec 3) (x3 : Opc) : WordCount.Statement (.scatter x0 x1 x2 x3) := ⟨(by decide : 1 ≤ 2), fun h => absurd (show 1 = 2 from h) (by decide)⟩
theorem WordCount.scatadd (x0 : Bool) (x1 : BitVec 6) (x2 : BitVec 3) (x3 : Opc) (x4 : Bool) : WordCount.Statement (.scatadd x0 x1 x2 x3 x4) := ⟨(by decide : 1 ≤ 2), fun h => absurd (show 1 = 2 from h) (by decide)⟩
theorem WordCount.chain (x0 : Bool) (x1 : BitVec 6) (x2 : BitVec 3) (x3 : BitVec 3) (x4 : Opc) : WordCount.Statement (.chain x0 x1 x2 x3 x4) := ⟨(by decide : 1 ≤ 2), fun h => absurd (show 1 = 2 from h) (by decide)⟩
theorem WordCount.twait (x0 : Bool) (x1 : Opc) (x2 : Opc) (x3 : Bool) : WordCount.Statement (.twait x0 x1 x2 x3) := ⟨(by decide : 1 ≤ 2), fun h => absurd (show 1 = 2 from h) (by decide)⟩
theorem WordCount.tfirst (x0 : Bool) (x1 : Opc) (x2 : Opc) : WordCount.Statement (.tfirst x0 x1 x2) := ⟨(by decide : 1 ≤ 2), fun h => absurd (show 1 = 2 from h) (by decide)⟩
theorem WordCount.ttest (x0 : Bool) (x1 : Opc) (x2 : Opc) : WordCount.Statement (.ttest x0 x1 x2) := ⟨(by decide : 1 ≤ 2), fun h => absurd (show 1 = 2 from h) (by decide)⟩
theorem WordCount.tclr (x0 : Bool) (x1 : Opc) : WordCount.Statement (.tclr x0 x1) := ⟨(by decide : 1 ≤ 2), fun h => absurd (show 1 = 2 from h) (by decide)⟩
theorem WordCount.commit (x0 : Bool) (x1 : Opc) (x2 : Opc) : WordCount.Statement (.commit x0 x1 x2) := ⟨(by decide : 1 ≤ 2), fun h => absurd (show 1 = 2 from h) (by decide)⟩
theorem WordCount.qstat (x0 : Bool) (x1 : Opc) (x2 : Opc) : WordCount.Statement (.qstat x0 x1 x2) := ⟨(by decide : 1 ≤ 2), fun h => absurd (show 1 = 2 from h) (by decide)⟩
theorem WordCount.launch (x0 : Bool) (x1 : Opc) (x2 : Opc) : WordCount.Statement (.launch x0 x1 x2) := ⟨(by decide : 1 ≤ 2), fun h => absurd (show 1 = 2 from h) (by decide)⟩
theorem WordCount.lwait (x0 : Bool) (x1 : Opc) (x2 : Opc) : WordCount.Statement (.lwait x0 x1 x2) := ⟨(by decide : 1 ≤ 2), fun h => absurd (show 1 = 2 from h) (by decide)⟩
theorem WordCount.lstat (x0 : Bool) (x1 : Opc) (x2 : Opc) : WordCount.Statement (.lstat x0 x1 x2) := ⟨(by decide : 1 ≤ 2), fun h => absurd (show 1 = 2 from h) (by decide)⟩
theorem WordCount.fbulk (x0 : Bool) (x1 : BitVec 6) (x2 : BitVec 3) (x3 : BitVec 3) (x4 : Opc) : WordCount.Statement (.fbulk x0 x1 x2 x3 x4) := ⟨(by decide : 1 ≤ 2), fun h => absurd (show 1 = 2 from h) (by decide)⟩
theorem WordCount.fred (x0 : Bool) (x1 : BitVec 6) (x2 : BitVec 3) (x3 : Opc) : WordCount.Statement (.fred x0 x1 x2 x3) := ⟨(by decide : 1 ≤ 2), fun h => absurd (show 1 = 2 from h) (by decide)⟩
theorem WordCount.frlease (x0 : Bool) (x1 : BitVec 6) (x2 : BitVec 3) (x3 : BitVec 3) (x4 : Opc) : WordCount.Statement (.frlease x0 x1 x2 x3 x4) := ⟨(by decide : 1 ≤ 2), fun h => absurd (show 1 = 2 from h) (by decide)⟩
theorem WordCount.arrset (x0 : Bool) (x1 : Opc) (x2 : Opc) : WordCount.Statement (.arrset x0 x1 x2) := ⟨(by decide : 1 ≤ 2), fun h => absurd (show 1 = 2 from h) (by decide)⟩
theorem WordCount.arrwait (x0 : Bool) (x1 : Opc) : WordCount.Statement (.arrwait x0 x1) := ⟨(by decide : 1 ≤ 2), fun h => absurd (show 1 = 2 from h) (by decide)⟩
theorem WordCount.pairgo (x0 : Bool) (x1 : BitVec 6) (x2 : BitVec 3) (x3 : Opc) : WordCount.Statement (.pairgo x0 x1 x2 x3) := ⟨(by decide : 1 ≤ 2), fun h => absurd (show 1 = 2 from h) (by decide)⟩
theorem WordCount.pairrelaunch (x0 : Bool) (x1 : BitVec 3) (x2 : Opc) : WordCount.Statement (.pairrelaunch x0 x1 x2) := ⟨(by decide : 1 ≤ 2), fun h => absurd (show 1 = 2 from h) (by decide)⟩
theorem WordCount.pairout (x0 : Bool) (x1 : Opc) (x2 : Bool) : WordCount.Statement (.pairout x0 x1 x2) := ⟨(by decide : 1 ≤ 2), fun h => absurd (show 1 = 2 from h) (by decide)⟩
theorem WordCount.pairstat (x0 : Bool) (x1 : Opc) (x2 : Opc) : WordCount.Statement (.pairstat x0 x1 x2) := ⟨(by decide : 1 ≤ 2), fun h => absurd (show 1 = 2 from h) (by decide)⟩
theorem WordCount.capsub (x0 : Bool) (x1 : Opc) (x2 : Opc) (x3 : Opc) : WordCount.Statement (.capsub x0 x1 x2 x3) := ⟨(by decide : 1 ≤ 2), fun h => absurd (show 1 = 2 from h) (by decide)⟩
theorem WordCount.caprestrict (x0 : Bool) (x1 : Opc) (x2 : Opc) (x3 : Opc) : WordCount.Statement (.caprestrict x0 x1 x2 x3) := ⟨(by decide : 1 ≤ 2), fun h => absurd (show 1 = 2 from h) (by decide)⟩
theorem WordCount.caplen (x0 : Bool) (x1 : Opc) (x2 : Opc) : WordCount.Statement (.caplen x0 x1 x2) := ⟨(by decide : 1 ≤ 2), fun h => absurd (show 1 = 2 from h) (by decide)⟩
theorem WordCount.captype (x0 : Bool) (x1 : Opc) (x2 : Opc) : WordCount.Statement (.captype x0 x1 x2) := ⟨(by decide : 1 ≤ 2), fun h => absurd (show 1 = 2 from h) (by decide)⟩
theorem WordCount.capmov (x0 : Bool) (x1 : Opc) (x2 : Opc) : WordCount.Statement (.capmov x0 x1 x2) := ⟨(by decide : 1 ≤ 2), fun h => absurd (show 1 = 2 from h) (by decide)⟩
theorem WordCount.ldcap (x0 : Bool) (x1 : Opc) (x2 : Opc) (x3 : BitVec 3) (x4 : BitVec 4) : WordCount.Statement (.ldcap x0 x1 x2 x3 x4) := ⟨(by decide : 1 ≤ 2), fun h => absurd (show 1 = 2 from h) (by decide)⟩
theorem WordCount.stcap (x0 : Bool) (x1 : Opc) (x2 : Opc) (x3 : BitVec 3) (x4 : BitVec 4) : WordCount.Statement (.stcap x0 x1 x2 x3 x4) := ⟨(by decide : 1 ≤ 2), fun h => absurd (show 1 = 2 from h) (by decide)⟩
theorem WordCount.br (x0 : Bool) (x1 : BitVec 15) : WordCount.Statement (.br x0 x1) := ⟨(by decide : 1 ≤ 2), fun h => absurd (show 1 = 2 from h) (by decide)⟩
theorem WordCount.brz (x0 : Bool) (x1 : Opc) (x2 : BitVec 15) : WordCount.Statement (.brz x0 x1 x2) := ⟨(by decide : 1 ≤ 2), fun h => absurd (show 1 = 2 from h) (by decide)⟩
theorem WordCount.brnz (x0 : Bool) (x1 : Opc) (x2 : BitVec 15) : WordCount.Statement (.brnz x0 x1 x2) := ⟨(by decide : 1 ≤ 2), fun h => absurd (show 1 = 2 from h) (by decide)⟩
theorem WordCount.call (x0 : Bool) (x1 : BitVec 15) : WordCount.Statement (.call x0 x1) := ⟨(by decide : 1 ≤ 2), fun h => absurd (show 1 = 2 from h) (by decide)⟩
theorem WordCount.brx (x0 : Bool) (x1 : Opc) : WordCount.Statement (.brx x0 x1) := ⟨(by decide : 1 ≤ 2), fun h => absurd (show 1 = 2 from h) (by decide)⟩
theorem WordCount.callx (x0 : Bool) (x1 : Opc) : WordCount.Statement (.callx x0 x1) := ⟨(by decide : 1 ≤ 2), fun h => absurd (show 1 = 2 from h) (by decide)⟩
theorem WordCount.ret (x0 : Bool) : WordCount.Statement (.ret x0) := ⟨(by decide : 1 ≤ 2), fun h => absurd (show 1 = 2 from h) (by decide)⟩
theorem WordCount.yield (x0 : Bool) : WordCount.Statement (.yield x0) := ⟨(by decide : 1 ≤ 2), fun h => absurd (show 1 = 2 from h) (by decide)⟩
theorem WordCount.exit (x0 : Bool) : WordCount.Statement (.exit x0) := ⟨(by decide : 1 ≤ 2), fun h => absurd (show 1 = 2 from h) (by decide)⟩
theorem WordCount.waitc (x0 : Bool) (x1 : Opc) : WordCount.Statement (.waitc x0 x1) := ⟨(by decide : 1 ≤ 2), fun h => absurd (show 1 = 2 from h) (by decide)⟩
theorem WordCount.enrol (x0 : Bool) (x1 : BitVec 3) : WordCount.Statement (.enrol x0 x1) := ⟨(by decide : 1 ≤ 2), fun h => absurd (show 1 = 2 from h) (by decide)⟩
theorem WordCount.rejoin (x0 : Bool) (x1 : BitVec 3) : WordCount.Statement (.rejoin x0 x1) := ⟨(by decide : 1 ≤ 2), fun h => absurd (show 1 = 2 from h) (by decide)⟩
theorem WordCount.strike (x0 : Bool) (x1 : BitVec 3) : WordCount.Statement (.strike x0 x1) := ⟨(by decide : 1 ≤ 2), fun h => absurd (show 1 = 2 from h) (by decide)⟩
theorem WordCount.bar (x0 : Bool) (x1 : Opc) (x2 : Opc) : WordCount.Statement (.bar x0 x1 x2) := ⟨(by decide : 1 ≤ 2), fun h => absurd (show 1 = 2 from h) (by decide)⟩
theorem WordCount.bararr (x0 : Bool) (x1 : Opc) (x2 : Opc) (x3 : Opc) : WordCount.Statement (.bararr x0 x1 x2 x3) := ⟨(by decide : 1 ≤ 2), fun h => absurd (show 1 = 2 from h) (by decide)⟩
theorem WordCount.barwait (x0 : Bool) (x1 : Opc) (x2 : Opc) (x3 : Opc) : WordCount.Statement (.barwait x0 x1 x2 x3) := ⟨(by decide : 1 ≤ 2), fun h => absurd (show 1 = 2 from h) (by decide)⟩
theorem WordCount.barinit (x0 : Bool) (x1 : Opc) (x2 : Opc) (x3 : Opc) : WordCount.Statement (.barinit x0 x1 x2 x3) := ⟨(by decide : 1 ≤ 2), fun h => absurd (show 1 = 2 from h) (by decide)⟩
theorem WordCount.gangleave (x0 : Bool) (x1 : Opc) (x2 : Opc) : WordCount.Statement (.gangleave x0 x1 x2) := ⟨(by decide : 1 ≤ 2), fun h => absurd (show 1 = 2 from h) (by decide)⟩
theorem WordCount.gangack (x0 : Bool) (x1 : Opc) (x2 : Opc) : WordCount.Statement (.gangack x0 x1 x2) := ⟨(by decide : 1 ≤ 2), fun h => absurd (show 1 = 2 from h) (by decide)⟩
theorem WordCount.gstat (x0 : Bool) (x1 : Opc) (x2 : Opc) : WordCount.Statement (.gstat x0 x1 x2) := ⟨(by decide : 1 ≤ 2), fun h => absurd (show 1 = 2 from h) (by decide)⟩
theorem WordCount.dphase (x0 : Bool) : WordCount.Statement (.dphase x0) := ⟨(by decide : 1 ≤ 2), fun h => absurd (show 1 = 2 from h) (by decide)⟩
theorem WordCount.brk (x0 : Bool) : WordCount.Statement (.brk x0) := ⟨(by decide : 1 ≤ 2), fun h => absurd (show 1 = 2 from h) (by decide)⟩
theorem WordCount.trap (x0 : Bool) (x1 : Opc) : WordCount.Statement (.trap x0 x1) := ⟨(by decide : 1 ≤ 2), fun h => absurd (show 1 = 2 from h) (by decide)⟩
theorem WordCount.trapret (x0 : Bool) (x1 : Opc) : WordCount.Statement (.trapret x0 x1) := ⟨(by decide : 1 ≤ 2), fun h => absurd (show 1 = 2 from h) (by decide)⟩
theorem WordCount.event (x0 : Bool) (x1 : Opc) (x2 : Opc) : WordCount.Statement (.event x0 x1 x2) := ⟨(by decide : 1 ≤ 2), fun h => absurd (show 1 = 2 from h) (by decide)⟩
theorem WordCount.sread (x0 : Bool) (x1 : Opc) (x2 : Opc) : WordCount.Statement (.sread x0 x1 x2) := ⟨(by decide : 1 ≤ 2), fun h => absurd (show 1 = 2 from h) (by decide)⟩
theorem WordCount.swrite (x0 : Bool) (x1 : Opc) (x2 : Opc) : WordCount.Statement (.swrite x0 x1 x2) := ⟨(by decide : 1 ≤ 2), fun h => absurd (show 1 = 2 from h) (by decide)⟩
theorem WordCount.faultrec (x0 : Bool) (x1 : Opc) (x2 : Opc) : WordCount.Statement (.faultrec x0 x1 x2) := ⟨(by decide : 1 ≤ 2), fun h => absurd (show 1 = 2 from h) (by decide)⟩
theorem WordCount.lresume (x0 : Bool) (x1 : Opc) (x2 : Opc) (x3 : Opc) : WordCount.Statement (.lresume x0 x1 x2 x3) := ⟨(by decide : 1 ≤ 2), fun h => absurd (show 1 = 2 from h) (by decide)⟩
theorem WordCount.lkill (x0 : Bool) (x1 : Opc) (x2 : Opc) : WordCount.Statement (.lkill x0 x1 x2) := ⟨(by decide : 1 ≤ 2), fun h => absurd (show 1 = 2 from h) (by decide)⟩
theorem WordCount.ctxsave (x0 : Bool) (x1 : Opc) (x2 : Opc) : WordCount.Statement (.ctxsave x0 x1 x2) := ⟨(by decide : 1 ≤ 2), fun h => absurd (show 1 = 2 from h) (by decide)⟩
theorem WordCount.ctxload (x0 : Bool) (x1 : Opc) (x2 : Opc) : WordCount.Statement (.ctxload x0 x1 x2) := ⟨(by decide : 1 ≤ 2), fun h => absurd (show 1 = 2 from h) (by decide)⟩
theorem WordCount.tclaim (x0 : BitVec 4) (x1 : Opc) : WordCount.Statement (.tclaim x0 x1) := ⟨(by decide : 1 ≤ 2), fun h => absurd (show 1 = 2 from h) (by decide)⟩
theorem WordCount.trelease (x0 : BitVec 4) (x1 : Opc) : WordCount.Statement (.trelease x0 x1) := ⟨(by decide : 1 ≤ 2), fun h => absurd (show 1 = 2 from h) (by decide)⟩
theorem WordCount.tload (x0 : BitVec 4) (x1 : BitVec 4) (x2 : BitVec 3) (x3 : BitVec 4) : WordCount.Statement (.tload x0 x1 x2 x3) := ⟨(by decide : 1 ≤ 2), fun h => absurd (show 1 = 2 from h) (by decide)⟩
theorem WordCount.tzero (x0 : BitVec 4) : WordCount.Statement (.tzero x0) := ⟨(by decide : 1 ≤ 2), fun h => absurd (show 1 = 2 from h) (by decide)⟩
theorem WordCount.tzeroSlot (x0 : BitVec 4) : WordCount.Statement (.tzeroSlot x0) := ⟨(by decide : 1 ≤ 2), fun h => absurd (show 1 = 2 from h) (by decide)⟩
theorem WordCount.tmma (x0 : BitVec 4) (x1 : BitVec 4) (x2 : BitVec 4) (x3 : Bool) (x4 : Bool) : WordCount.Statement (.tmma x0 x1 x2 x3 x4) := ⟨(by decide : 1 ≤ 2), fun h => absurd (show 1 = 2 from h) (by decide)⟩
theorem WordCount.tdrain (x0 : BitVec 4) (x1 : BitVec 4) (x2 : BitVec 3) (x3 : BitVec 5) : WordCount.Statement (.tdrain x0 x1 x2 x3) := ⟨(by decide : 1 ≤ 2), fun h => absurd (show 1 = 2 from h) (by decide)⟩
theorem WordCount.mbararr (x0 : BitVec 4) (x1 : BitVec 22) : WordCount.Statement (.mbararr x0 x1) := ⟨(by decide : 1 ≤ 2), fun h => absurd (show 1 = 2 from h) (by decide)⟩
theorem WordCount.mbarwait (x0 : BitVec 4) (x1 : BitVec 22) : WordCount.Statement (.mbarwait x0 x1) := ⟨(by decide : 1 ≤ 2), fun h => absurd (show 1 = 2 from h) (by decide)⟩
theorem WordCount.mloop (x0 : BitVec 4) (x1 : BitVec 22) : WordCount.Statement (.mloop x0 x1) := ⟨(by decide : 1 ≤ 2), fun h => absurd (show 1 = 2 from h) (by decide)⟩
theorem WordCount.mend : WordCount.Statement (.mend) := ⟨(by decide : 1 ≤ 2), fun h => absurd (show 1 = 2 from h) (by decide)⟩
theorem WordCount.mset (x0 : BitVec 4) (x1 : BitVec 22) : WordCount.Statement (.mset x0 x1) := ⟨(by decide : 1 ≤ 2), fun h => absurd (show 1 = 2 from h) (by decide)⟩
theorem WordCount.madd (x0 : BitVec 4) (x1 : BitVec 22) : WordCount.Statement (.madd x0 x1) := ⟨(by decide : 1 ≤ 2), fun h => absurd (show 1 = 2 from h) (by decide)⟩
theorem WordCount.mpost (x0 : BitVec 4) (x1 : BitVec 4) : WordCount.Statement (.mpost x0 x1) := ⟨(by decide : 1 ≤ 2), fun h => absurd (show 1 = 2 from h) (by decide)⟩
theorem WordCount.mexit : WordCount.Statement (.mexit) := ⟨(by decide : 1 ≤ 2), fun h => absurd (show 1 = 2 from h) (by decide)⟩
theorem WordCount.eadd (x0 : BitVec 4) (x1 : BitVec 4) (x2 : BitVec 4) : WordCount.Statement (.eadd x0 x1 x2) := ⟨(by decide : 1 ≤ 2), fun h => absurd (show 1 = 2 from h) (by decide)⟩
theorem WordCount.esub (x0 : BitVec 4) (x1 : BitVec 4) (x2 : BitVec 4) : WordCount.Statement (.esub x0 x1 x2) := ⟨(by decide : 1 ≤ 2), fun h => absurd (show 1 = 2 from h) (by decide)⟩
theorem WordCount.emul (x0 : BitVec 4) (x1 : BitVec 4) (x2 : BitVec 4) : WordCount.Statement (.emul x0 x1 x2) := ⟨(by decide : 1 ≤ 2), fun h => absurd (show 1 = 2 from h) (by decide)⟩
theorem WordCount.efma (x0 : BitVec 4) (x1 : BitVec 4) (x2 : BitVec 4) : WordCount.Statement (.efma x0 x1 x2) := ⟨(by decide : 1 ≤ 2), fun h => absurd (show 1 = 2 from h) (by decide)⟩
theorem WordCount.emax (x0 : BitVec 4) (x1 : BitVec 4) (x2 : BitVec 4) : WordCount.Statement (.emax x0 x1 x2) := ⟨(by decide : 1 ≤ 2), fun h => absurd (show 1 = 2 from h) (by decide)⟩
theorem WordCount.emin (x0 : BitVec 4) (x1 : BitVec 4) (x2 : BitVec 4) : WordCount.Statement (.emin x0 x1 x2) := ⟨(by decide : 1 ≤ 2), fun h => absurd (show 1 = 2 from h) (by decide)⟩
theorem WordCount.etanh (x0 : BitVec 4) (x1 : BitVec 4) : WordCount.Statement (.etanh x0 x1) := ⟨(by decide : 1 ≤ 2), fun h => absurd (show 1 = 2 from h) (by decide)⟩
theorem WordCount.eexp (x0 : BitVec 4) (x1 : BitVec 4) : WordCount.Statement (.eexp x0 x1) := ⟨(by decide : 1 ≤ 2), fun h => absurd (show 1 = 2 from h) (by decide)⟩
theorem WordCount.ercp (x0 : BitVec 4) (x1 : BitVec 4) : WordCount.Statement (.ercp x0 x1) := ⟨(by decide : 1 ≤ 2), fun h => absurd (show 1 = 2 from h) (by decide)⟩
theorem WordCount.eldrow (x0 : BitVec 4) : WordCount.Statement (.eldrow x0) := ⟨(by decide : 1 ≤ 2), fun h => absurd (show 1 = 2 from h) (by decide)⟩
theorem WordCount.eldcol (x0 : BitVec 4) : WordCount.Statement (.eldcol x0) := ⟨(by decide : 1 ≤ 2), fun h => absurd (show 1 = 2 from h) (by decide)⟩
theorem WordCount.ecvt (x0 : BitVec 4) (x1 : BitVec 4) (x2 : BitVec 3) : WordCount.Statement (.ecvt x0 x1 x2) := ⟨(by decide : 1 ≤ 2), fun h => absurd (show 1 = 2 from h) (by decide)⟩
theorem WordCount.eamax (x0 : BitVec 4) : WordCount.Statement (.eamax x0) := ⟨(by decide : 1 ≤ 2), fun h => absurd (show 1 = 2 from h) (by decide)⟩
theorem WordCount.esmx (x0 : BitVec 4) (x1 : BitVec 4) : WordCount.Statement (.esmx x0 x1) := ⟨(by decide : 1 ≤ 2), fun h => absurd (show 1 = 2 from h) (by decide)⟩
theorem WordCount.eend : WordCount.Statement (.eend) := ⟨(by decide : 1 ≤ 2), fun h => absurd (show 1 = 2 from h) (by decide)⟩
theorem WordCount.storePerform (x0 : Nat) : WordCount.Statement (.storePerform x0) := ⟨(by decide : 0 ≤ 2), fun h => absurd (show 0 = 2 from h) (by decide)⟩
theorem WordCount.coreBufferDrain (x0 : Nat) : WordCount.Statement (.coreBufferDrain x0) := ⟨(by decide : 0 ≤ 2), fun h => absurd (show 0 = 2 from h) (by decide)⟩
theorem WordCount.loadPerform (x0 : Nat) (x1 : Nat) : WordCount.Statement (.loadPerform x0 x1) := ⟨(by decide : 0 ≤ 2), fun h => absurd (show 0 = 2 from h) (by decide)⟩
theorem WordCount.atomicPerform (x0 : Nat) : WordCount.Statement (.atomicPerform x0) := ⟨(by decide : 0 ≤ 2), fun h => absurd (show 0 = 2 from h) (by decide)⟩
theorem WordCount.systemBufferDeliver (x0 : Nat) : WordCount.Statement (.systemBufferDeliver x0) := ⟨(by decide : 0 ≤ 2), fun h => absurd (show 0 = 2 from h) (by decide)⟩
theorem WordCount.engineAccess (x0 : Nat) (x1 : Nat) : WordCount.Statement (.engineAccess x0 x1) := ⟨(by decide : 0 ≤ 2), fun h => absurd (show 0 = 2 from h) (by decide)⟩
theorem WordCount.viewRaise (x0 : Nat) (x1 : Nat) (x2 : Nat) : WordCount.Statement (.viewRaise x0 x1 x2) := ⟨(by decide : 0 ≤ 2), fun h => absurd (show 0 = 2 from h) (by decide)⟩
theorem WordCount.extentCacheDrop (x0 : Nat) : WordCount.Statement (.extentCacheDrop x0) := ⟨(by decide : 0 ≤ 2), fun h => absurd (show 0 = 2 from h) (by decide)⟩
theorem WordCount.extentCacheFill (x0 : Nat) (x1 : Nat) (x2 : Nat) (x3 : Nat) (x4 : AccKind) : WordCount.Statement (.extentCacheFill x0 x1 x2 x3 x4) := ⟨(by decide : 0 ≤ 2), fun h => absurd (show 0 = 2 from h) (by decide)⟩
theorem WordCount.waitcExpiry (x0 : Nat) (x1 : Nat) : WordCount.Statement (.waitcExpiry x0 x1) := ⟨(by decide : 0 ≤ 2), fun h => absurd (show 0 = 2 from h) (by decide)⟩
theorem WordCount.fairnessTimerExpiry (x0 : Nat) (x1 : Nat) : WordCount.Statement (.fairnessTimerExpiry x0 x1) := ⟨(by decide : 0 ≤ 2), fun h => absurd (show 0 = 2 from h) (by decide)⟩
theorem WordCount.ageLimitExpiry (x0 : Nat) : WordCount.Statement (.ageLimitExpiry x0) := ⟨(by decide : 0 ≤ 2), fun h => absurd (show 0 = 2 from h) (by decide)⟩
theorem WordCount.activeSetReplace (x0 : Nat) : WordCount.Statement (.activeSetReplace x0) := ⟨(by decide : 0 ≤ 2), fun h => absurd (show 0 = 2 from h) (by decide)⟩
theorem WordCount.activeSetIdleLeave (x0 : Nat) : WordCount.Statement (.activeSetIdleLeave x0) := ⟨(by decide : 0 ≤ 2), fun h => absurd (show 0 = 2 from h) (by decide)⟩
theorem WordCount.faultQueueEnter (x0 : Nat) : WordCount.Statement (.faultQueueEnter x0) := ⟨(by decide : 0 ≤ 2), fun h => absurd (show 0 = 2 from h) (by decide)⟩
theorem WordCount.pairLimit (x0 : Nat) (x1 : Nat) : WordCount.Statement (.pairLimit x0 x1) := ⟨(by decide : 0 ≤ 2), fun h => absurd (show 0 = 2 from h) (by decide)⟩
theorem WordCount.engineComplete (x0 : Nat) : WordCount.Statement (.engineComplete x0) := ⟨(by decide : 0 ≤ 2), fun h => absurd (show 0 = 2 from h) (by decide)⟩
theorem WordCount.arrayOpStart (x0 : Nat) : WordCount.Statement (.arrayOpStart x0) := ⟨(by decide : 0 ≤ 2), fun h => absurd (show 0 = 2 from h) (by decide)⟩
theorem WordCount.arrayOpFinish (x0 : Nat) : WordCount.Statement (.arrayOpFinish x0) := ⟨(by decide : 0 ≤ 2), fun h => absurd (show 0 = 2 from h) (by decide)⟩
theorem WordCount.epilogueRow (x0 : Nat) : WordCount.Statement (.epilogueRow x0) := ⟨(by decide : 0 ≤ 2), fun h => absurd (show 0 = 2 from h) (by decide)⟩
theorem WordCount.martenBinning (x0 : Nat) : WordCount.Statement (.martenBinning x0) := ⟨(by decide : 0 ≤ 2), fun h => absurd (show 0 = 2 from h) (by decide)⟩
theorem WordCount.pairGroupStart (x0 : Nat) : WordCount.Statement (.pairGroupStart x0) := ⟨(by decide : 0 ≤ 2), fun h => absurd (show 0 = 2 from h) (by decide)⟩
theorem WordCount.sideApply (x0 : Nat) : WordCount.Statement (.sideApply x0) := ⟨(by decide : 0 ≤ 2), fun h => absurd (show 0 = 2 from h) (by decide)⟩
theorem WordCount.exactFinish (x0 : Nat) : WordCount.Statement (.exactFinish x0) := ⟨(by decide : 0 ≤ 2), fun h => absurd (show 0 = 2 from h) (by decide)⟩
theorem WordCount.pairLaunchComplete (x0 : Nat) : WordCount.Statement (.pairLaunchComplete x0) := ⟨(by decide : 0 ≤ 2), fun h => absurd (show 0 = 2 from h) (by decide)⟩
theorem WordCount.launchRecordWrite (x0 : Nat) (x1 : Nat) (x2 : DWord) : WordCount.Statement (.launchRecordWrite x0 x1 x2) := ⟨(by decide : 0 ≤ 2), fun h => absurd (show 0 = 2 from h) (by decide)⟩
theorem WordCount.launchSubmit (x0 : Nat) (x1 : DWord) : WordCount.Statement (.launchSubmit x0 x1) := ⟨(by decide : 0 ≤ 2), fun h => absurd (show 0 = 2 from h) (by decide)⟩
theorem WordCount.teamPlace (x0 : Nat) (x1 : (List Nat)) : WordCount.Statement (.teamPlace x0 x1) := ⟨(by decide : 0 ≤ 2), fun h => absurd (show 0 = 2 from h) (by decide)⟩
theorem WordCount.bankroleWrite (x0 : Nat) (x1 : Nat) : WordCount.Statement (.bankroleWrite x0 x1) := ⟨(by decide : 0 ≤ 2), fun h => absurd (show 0 = 2 from h) (by decide)⟩
theorem WordCount.backfillStop (x0 : Nat) : WordCount.Statement (.backfillStop x0) := ⟨(by decide : 0 ≤ 2), fun h => absurd (show 0 = 2 from h) (by decide)⟩
theorem WordCount.teamEnd (x0 : Nat) : WordCount.Statement (.teamEnd x0) := ⟨(by decide : 0 ≤ 2), fun h => absurd (show 0 = 2 from h) (by decide)⟩
theorem WordCount.launchComplete (x0 : Nat) : WordCount.Statement (.launchComplete x0) := ⟨(by decide : 0 ≤ 2), fun h => absurd (show 0 = 2 from h) (by decide)⟩
theorem WordCount.preemptTeam (x0 : Nat) : WordCount.Statement (.preemptTeam x0) := ⟨(by decide : 0 ≤ 2), fun h => absurd (show 0 = 2 from h) (by decide)⟩
theorem WordCount.teamResume (x0 : Nat) (x1 : Nat) : WordCount.Statement (.teamResume x0 x1) := ⟨(by decide : 0 ≤ 2), fun h => absurd (show 0 = 2 from h) (by decide)⟩
theorem WordCount.serialPhase (x0 : Nat) : WordCount.Statement (.serialPhase x0) := ⟨(by decide : 0 ≤ 2), fun h => absurd (show 0 = 2 from h) (by decide)⟩
theorem WordCount.sliceWithdraw (x0 : Nat) : WordCount.Statement (.sliceWithdraw x0) := ⟨(by decide : 0 ≤ 2), fun h => absurd (show 0 = 2 from h) (by decide)⟩
theorem WordCount.correctedError (x0 : Nat) (x1 : Nat) : WordCount.Statement (.correctedError x0 x1) := ⟨(by decide : 0 ≤ 2), fun h => absurd (show 0 = 2 from h) (by decide)⟩
theorem WordCount.ceThreshold (x0 : Nat) (x1 : Nat) : WordCount.Statement (.ceThreshold x0 x1) := ⟨(by decide : 0 ≤ 2), fun h => absurd (show 0 = 2 from h) (by decide)⟩
theorem WordCount.uncorrectableError (x0 : Nat) (x1 : Nat) (x2 : Nat) : WordCount.Statement (.uncorrectableError x0 x1 x2) := ⟨(by decide : 0 ≤ 2), fun h => absurd (show 0 = 2 from h) (by decide)⟩
theorem WordCount.taskRelaunch (x0 : Nat) (x1 : (List Nat)) : WordCount.Statement (.taskRelaunch x0 x1) := ⟨(by decide : 0 ≤ 2), fun h => absurd (show 0 = 2 from h) (by decide)⟩
theorem WordCount.powerOverLimit : WordCount.Statement (.powerOverLimit) := ⟨(by decide : 0 ≤ 2), fun h => absurd (show 0 = 2 from h) (by decide)⟩
theorem WordCount.powerUnderLimit : WordCount.Statement (.powerUnderLimit) := ⟨(by decide : 0 ≤ 2), fun h => absurd (show 0 = 2 from h) (by decide)⟩
theorem WordCount.powerUp : WordCount.Statement (.powerUp) := ⟨(by decide : 0 ≤ 2), fun h => absurd (show 0 = 2 from h) (by decide)⟩
theorem WordCount.bringUpStage (x0 : Bool) (x1 : Byte) : WordCount.Statement (.bringUpStage x0 x1) := ⟨(by decide : 0 ≤ 2), fun h => absurd (show 0 = 2 from h) (by decide)⟩
theorem WordCount.contextCreate (x0 : Nat) (x1 : DWord) (x2 : Bool) : WordCount.Statement (.contextCreate x0 x1 x2) := ⟨(by decide : 0 ≤ 2), fun h => absurd (show 0 = 2 from h) (by decide)⟩
theorem WordCount.contextDestroy (x0 : Nat) : WordCount.Statement (.contextDestroy x0) := ⟨(by decide : 0 ≤ 2), fun h => absurd (show 0 = 2 from h) (by decide)⟩
theorem WordCount.resolveRetry (x0 : Nat) (x1 : Nat) (x2 : Nat) : WordCount.Statement (.resolveRetry x0 x1 x2) := ⟨(by decide : 0 ≤ 2), fun h => absurd (show 0 = 2 from h) (by decide)⟩
theorem WordCount.resolveFail (x0 : Nat) (x1 : Nat) (x2 : Nat) : WordCount.Statement (.resolveFail x0 x1 x2) := ⟨(by decide : 0 ≤ 2), fun h => absurd (show 0 = 2 from h) (by decide)⟩
theorem WordCount.hostOtfenceDev (x0 : Nat) (x1 : Word) : WordCount.Statement (.hostOtfenceDev x0 x1) := ⟨(by decide : 0 ≤ 2), fun h => absurd (show 0 = 2 from h) (by decide)⟩
theorem WordCount.hostOtfenceSys (x0 : Nat) (x1 : Word) : WordCount.Statement (.hostOtfenceSys x0 x1) := ⟨(by decide : 0 ≤ 2), fun h => absurd (show 0 = 2 from h) (by decide)⟩
theorem WordCount.otfenceDone (x0 : Word) : WordCount.Statement (.otfenceDone x0) := ⟨(by decide : 0 ≤ 2), fun h => absurd (show 0 = 2 from h) (by decide)⟩
theorem WordCount.commandPortStage (x0 : Nat) (x1 : Nat) (x2 : DWord) : WordCount.Statement (.commandPortStage x0 x1 x2) := ⟨(by decide : 0 ≤ 2), fun h => absurd (show 0 = 2 from h) (by decide)⟩
theorem WordCount.hostMemoryWrite (x0 : Nat) (x1 : Nat) (x2 : BitVec 512) : WordCount.Statement (.hostMemoryWrite x0 x1 x2) := ⟨(by decide : 0 ≤ 2), fun h => absurd (show 0 = 2 from h) (by decide)⟩
theorem WordCount.hostMemoryRead (x0 : Nat) (x1 : Nat) : WordCount.Statement (.hostMemoryRead x0 x1) := ⟨(by decide : 0 ≤ 2), fun h => absurd (show 0 = 2 from h) (by decide)⟩
theorem WordCount.tcignRead : WordCount.Statement (.tcignRead) := ⟨(by decide : 0 ≤ 2), fun h => absurd (show 0 = 2 from h) (by decide)⟩
theorem WordCount.dlcountRead (x0 : Nat) : WordCount.Statement (.dlcountRead x0) := ⟨(by decide : 0 ≤ 2), fun h => absurd (show 0 = 2 from h) (by decide)⟩
theorem WordCount.lpfullClear (x0 : DWord) : WordCount.Statement (.lpfullClear x0) := ⟨(by decide : 0 ≤ 2), fun h => absurd (show 0 = 2 from h) (by decide)⟩
theorem WordCount.registerWrite (x0 : Nat) (x1 : Nat) (x2 : DWord) (x3 : Bool) : WordCount.Statement (.registerWrite x0 x1 x2 x3) := ⟨(by decide : 0 ≤ 2), fun h => absurd (show 0 = 2 from h) (by decide)⟩
theorem WordCount.eventRingWrite : WordCount.Statement (.eventRingWrite) := ⟨(by decide : 0 ≤ 2), fun h => absurd (show 0 = 2 from h) (by decide)⟩
theorem WordCount.gets (x0 : Nat) (x1 : Nat) (x2 : Nat) : WordCount.Statement (.gets x0 x1 x2) := ⟨(by decide : 0 ≤ 2), fun h => absurd (show 0 = 2 from h) (by decide)⟩
theorem WordCount.getm (x0 : Nat) (x1 : Nat) (x2 : Nat) : WordCount.Statement (.getm x0 x1 x2) := ⟨(by decide : 0 ≤ 2), fun h => absurd (show 0 = 2 from h) (by decide)⟩
theorem WordCount.puts (x0 : Nat) (x1 : Nat) : WordCount.Statement (.puts x0 x1) := ⟨(by decide : 0 ≤ 2), fun h => absurd (show 0 = 2 from h) (by decide)⟩
theorem WordCount.pute (x0 : Nat) (x1 : Nat) : WordCount.Statement (.pute x0 x1) := ⟨(by decide : 0 ≤ 2), fun h => absurd (show 0 = 2 from h) (by decide)⟩
theorem WordCount.putm (x0 : Nat) (x1 : Nat) : WordCount.Statement (.putm x0 x1) := ⟨(by decide : 0 ≤ 2), fun h => absurd (show 0 = 2 from h) (by decide)⟩
theorem WordCount.inv (x0 : Nat) (x1 : Nat) : WordCount.Statement (.inv x0 x1) := ⟨(by decide : 0 ≤ 2), fun h => absurd (show 0 = 2 from h) (by decide)⟩
theorem WordCount.downgrade (x0 : Nat) (x1 : Nat) : WordCount.Statement (.downgrade x0 x1) := ⟨(by decide : 0 ≤ 2), fun h => absurd (show 0 = 2 from h) (by decide)⟩
theorem WordCount.grant (x0 : Nat) (x1 : Nat) : WordCount.Statement (.grant x0 x1) := ⟨(by decide : 0 ≤ 2), fun h => absurd (show 0 = 2 from h) (by decide)⟩
theorem WordCount.invAck (x0 : Nat) (x1 : Nat) : WordCount.Statement (.invAck x0 x1) := ⟨(by decide : 0 ≤ 2), fun h => absurd (show 0 = 2 from h) (by decide)⟩
theorem WordCount.putAck (x0 : Nat) (x1 : Nat) : WordCount.Statement (.putAck x0 x1) := ⟨(by decide : 0 ≤ 2), fun h => absurd (show 0 = 2 from h) (by decide)⟩
theorem WordCount.l2Eviction (x0 : Nat) (x1 : Nat) : WordCount.Statement (.l2Eviction x0 x1) := ⟨(by decide : 0 ≤ 2), fun h => absurd (show 0 = 2 from h) (by decide)⟩
theorem WordCount.sectorFetch (x0 : Nat) (x1 : Nat) (x2 : Nat) : WordCount.Statement (.sectorFetch x0 x1 x2) := ⟨(by decide : 0 ≤ 2), fun h => absurd (show 0 = 2 from h) (by decide)⟩
theorem WordCount.flitReceive (x0 : Nat) (x1 : Nat) (x2 : Bool) : WordCount.Statement (.flitReceive x0 x1 x2) := ⟨(by decide : 0 ≤ 2), fun h => absurd (show 0 = 2 from h) (by decide)⟩
theorem WordCount.flitAck (x0 : Nat) (x1 : Nat) : WordCount.Statement (.flitAck x0 x1) := ⟨(by decide : 0 ≤ 2), fun h => absurd (show 0 = 2 from h) (by decide)⟩
theorem WordCount.laneSpare (x0 : Nat) (x1 : Nat) : WordCount.Statement (.laneSpare x0 x1) := ⟨(by decide : 0 ≤ 2), fun h => absurd (show 0 = 2 from h) (by decide)⟩
theorem WordCount.linkFail (x0 : Nat) (x1 : Nat) : WordCount.Statement (.linkFail x0 x1) := ⟨(by decide : 0 ≤ 2), fun h => absurd (show 0 = 2 from h) (by decide)⟩
theorem WordCount.portUp (x0 : Nat) : WordCount.Statement (.portUp x0) := ⟨(by decide : 0 ≤ 2), fun h => absurd (show 0 = 2 from h) (by decide)⟩
theorem WordCount.escapeMove (x0 : Nat) (x1 : Nat) : WordCount.Statement (.escapeMove x0 x1) := ⟨(by decide : 0 ≤ 2), fun h => absurd (show 0 = 2 from h) (by decide)⟩
theorem WordCount.keyInstall (x0 : Nat) (x1 : (BitVec 256)) : WordCount.Statement (.keyInstall x0 x1) := ⟨(by decide : 0 ≤ 2), fun h => absurd (show 0 = 2 from h) (by decide)⟩
theorem WordCount.keySwitch (x0 : Nat) : WordCount.Statement (.keySwitch x0) := ⟨(by decide : 0 ≤ 2), fun h => absurd (show 0 = 2 from h) (by decide)⟩
theorem WordCount.flitCounterExhausted (x0 : Nat) : WordCount.Statement (.flitCounterExhausted x0) := ⟨(by decide : 0 ≤ 2), fun h => absurd (show 0 = 2 from h) (by decide)⟩
theorem WordCount.rekeyGraceExpiry (x0 : Nat) : WordCount.Statement (.rekeyGraceExpiry x0) := ⟨(by decide : 0 ≤ 2), fun h => absurd (show 0 = 2 from h) (by decide)⟩
theorem WordCount.peerAccessArrive (x0 : Nat) (x1 : Nat) (x2 : Nat) (x3 : PeerOp) (x4 : DWord) : WordCount.Statement (.peerAccessArrive x0 x1 x2 x3 x4) := ⟨(by decide : 0 ≤ 2), fun h => absurd (show 0 = 2 from h) (by decide)⟩
theorem WordCount.bulkPacketArrive (x0 : Nat) (x1 : Nat) (x2 : (List Byte)) (x3 : Word) : WordCount.Statement (.bulkPacketArrive x0 x1 x2 x3) := ⟨(by decide : 0 ≤ 2), fun h => absurd (show 0 = 2 from h) (by decide)⟩
theorem WordCount.reduceLeaseArrive (x0 : Nat) (x1 : Nat) (x2 : Word) (x3 : Word) : WordCount.Statement (.reduceLeaseArrive x0 x1 x2 x3) := ⟨(by decide : 0 ≤ 2), fun h => absurd (show 0 = 2 from h) (by decide)⟩
theorem WordCount.reduceContribArrive (x0 : Nat) (x1 : Nat) (x2 : Nat) (x3 : Word) : WordCount.Statement (.reduceContribArrive x0 x1 x2 x3) := ⟨(by decide : 0 ≤ 2), fun h => absurd (show 0 = 2 from h) (by decide)⟩
theorem WordCount.slotTimeout (x0 : Nat) : WordCount.Statement (.slotTimeout x0) := ⟨(by decide : 0 ≤ 2), fun h => absurd (show 0 = 2 from h) (by decide)⟩
theorem WordCount.resultRecordDeliver (x0 : Nat) : WordCount.Statement (.resultRecordDeliver x0) := ⟨(by decide : 0 ≤ 2), fun h => absurd (show 0 = 2 from h) (by decide)⟩
theorem WordCount.owlHalt (x0 : Nat) (x1 : DWord) : WordCount.Statement (.owlHalt x0 x1) := ⟨(by decide : 0 ≤ 2), fun h => absurd (show 0 = 2 from h) (by decide)⟩
theorem WordCount.owlResume (x0 : Nat) (x1 : DWord) (x2 : Bool) : WordCount.Statement (.owlResume x0 x1 x2) := ⟨(by decide : 0 ≤ 2), fun h => absurd (show 0 = 2 from h) (by decide)⟩
theorem WordCount.owlStep (x0 : Nat) (x1 : DWord) (x2 : Bool) : WordCount.Statement (.owlStep x0 x1 x2) := ⟨(by decide : 0 ≤ 2), fun h => absurd (show 0 = 2 from h) (by decide)⟩
theorem WordCount.owlHaltseq (x0 : Nat) : WordCount.Statement (.owlHaltseq x0) := ⟨(by decide : 0 ≤ 2), fun h => absurd (show 0 = 2 from h) (by decide)⟩
theorem WordCount.owlResumeseq (x0 : Nat) (x1 : Bool) : WordCount.Statement (.owlResumeseq x0 x1) := ⟨(by decide : 0 ≤ 2), fun h => absurd (show 0 = 2 from h) (by decide)⟩
theorem WordCount.owlStepseq (x0 : Nat) (x1 : Bool) : WordCount.Statement (.owlStepseq x0 x1) := ⟨(by decide : 0 ≤ 2), fun h => absurd (show 0 = 2 from h) (by decide)⟩
theorem WordCount.grantWrite (x0 : Nat) (x1 : DWord) (x2 : Bool) : WordCount.Statement (.grantWrite x0 x1 x2) := ⟨(by decide : 0 ≤ 2), fun h => absurd (show 0 = 2 from h) (by decide)⟩
theorem WordCount.lcclearWrite (x0 : Nat) : WordCount.Statement (.lcclearWrite x0) := ⟨(by decide : 0 ≤ 2), fun h => absurd (show 0 = 2 from h) (by decide)⟩
theorem WordCount.sampleTimer (x0 : Nat) (x1 : Nat) : WordCount.Statement (.sampleTimer x0 x1) := ⟨(by decide : 0 ≤ 2), fun h => absurd (show 0 = 2 from h) (by decide)⟩
theorem WordCount.traceLostRecord (x0 : Nat) : WordCount.Statement (.traceLostRecord x0) := ⟨(by decide : 0 ≤ 2), fun h => absurd (show 0 = 2 from h) (by decide)⟩
theorem WordCount.powerRemoved : WordCount.Statement (.powerRemoved) := ⟨(by decide : 0 ≤ 2), fun h => absurd (show 0 = 2 from h) (by decide)⟩
theorem WordCount.signedUpdate (x0 : Nat) (x1 : Nat) : WordCount.Statement (.signedUpdate x0 x1) := ⟨(by decide : 0 ≤ 2), fun h => absurd (show 0 = 2 from h) (by decide)⟩
theorem WordCount.noIssueClock (x0 : Nat) (x1 : Nat) : WordCount.Statement (.noIssueClock x0 x1) := ⟨(by decide : 0 ≤ 2), fun h => absurd (show 0 = 2 from h) (by decide)⟩

end Sys2Proof.Laws
end

