-- ==== Sys2Proof/Laws/State.lean ====
section
/-! SUPPORT. What each update of a table of the state leaves as it was, and what it changes: one lemma for each field
and each reader, true by rfl but for the table that is written. -/

namespace Sys2Proof.Machine


/-! ### setLane -/

@[simp] theorem State.setLane_t (s : State) (k : Nat) (v : Lane) : (s.setLane k v).t = s.t := rfl
@[simp] theorem State.setLane_e (s : State) (k : Nat) (v : Lane) : (s.setLane k v).e = s.e := rfl
@[simp] theorem State.setLane_o (s : State) (k : Nat) (v : Lane) : (s.setLane k v).o = s.o := rfl
@[simp] theorem State.setLane_x (s : State) (k : Nat) (v : Lane) : (s.setLane k v).x = s.x := rfl
@[simp] theorem State.setLane_l (s : State) (k : Nat) (v : Lane) : (s.setLane k v).l = s.l := rfl
@[simp] theorem State.setLane_h (s : State) (k : Nat) (v : Lane) : (s.setLane k v).h = s.h := rfl
@[simp] theorem State.setLane_d (s : State) (k : Nat) (v : Lane) : (s.setLane k v).d = s.d := rfl
@[simp] theorem State.setLane_f (s : State) (k : Nat) (v : Lane) : (s.setLane k v).f = s.f := rfl
@[simp] theorem State.setLane_r (s : State) (k : Nat) (v : Lane) : (s.setLane k v).r = s.r := rfl
@[simp] theorem State.setLane_w (s : State) (k : Nat) (v : Lane) : (s.setLane k v).w = s.w := rfl
@[simp] theorem State.setLane_iss (s : State) (k : Nat) (v : Lane) : (s.setLane k v).iss = s.iss := rfl
@[simp] theorem State.setLane_cur (s : State) (k : Nat) (v : Lane) : (s.setLane k v).cur = s.cur := rfl
@[simp] theorem State.setLane_turns (s : State) (k : Nat) (v : Lane) : (s.setLane k v).turns = s.turns := rfl
@[simp] theorem State.setLane_free (s : State) (k : Nat) (v : Lane) : (s.setLane k v).free = s.free := rfl
@[simp] theorem State.setLane_next (s : State) (k : Nat) (v : Lane) : (s.setLane k v).next = s.next := rfl
@[simp] theorem State.setLane_g_groups (s : State) (k : Nat) (v : Lane) : (s.setLane k v).g.groups = s.g.groups := rfl
@[simp] theorem State.setLane_g_vreg (s : State) (k : Nat) (v : Lane) : (s.setLane k v).g.vreg = s.g.vreg := rfl
@[simp] theorem State.setLane_g_sreg (s : State) (k : Nat) (v : Lane) : (s.setLane k v).g.sreg = s.g.sreg := rfl
@[simp] theorem State.setLane_g_creg (s : State) (k : Nat) (v : Lane) : (s.setLane k v).g.creg = s.g.creg := rfl
@[simp] theorem State.setLane_g_jmask (s : State) (k : Nat) (v : Lane) : (s.setLane k v).g.jmask = s.g.jmask := rfl
@[simp] theorem State.setLane_group (s : State) (k : Nat) (v : Lane) (a : Nat) : (s.setLane k v).group a = s.group a := rfl
@[simp] theorem State.setLane_team (s : State) (k : Nat) (v : Lane) (a : Nat) : (s.setLane k v).team a = s.team a := rfl
@[simp] theorem State.setLane_launchOf (s : State) (k : Nat) (v : Lane) (a : Nat) : (s.setLane k v).launchOf a = s.launchOf a := rfl
@[simp] theorem State.setLane_vreg (s : State) (k : Nat) (v : Lane) (a b c : Nat) : (s.setLane k v).vreg a b c = s.vreg a b c := rfl
@[simp] theorem State.setLane_sreg (s : State) (k : Nat) (v : Lane) (a b : Nat) : (s.setLane k v).sreg a b = s.sreg a b := rfl
@[simp] theorem State.setLane_creg (s : State) (k : Nat) (v : Lane) (a b : Nat) : (s.setLane k v).creg a b = s.creg a b := rfl
@[simp] theorem State.setLane_jmask (s : State) (k : Nat) (v : Lane) (a b : Nat) : (s.setLane k v).jmask a b = s.jmask a b := rfl
@[simp] theorem State.setLane_thread (s : State) (k : Nat) (v : Lane) (a : Nat) : (s.setLane k v).thread a = s.thread a := rfl
@[simp] theorem State.setLane_teamOf (s : State) (k : Nat) (v : Lane) (a : Nat) : (s.setLane k v).teamOf a = s.teamOf a := rfl
@[simp] theorem State.setLane_kern (s : State) (k : Nat) (v : Lane) (a : Nat) : (s.setLane k v).kern a = s.kern a := rfl
@[simp] theorem State.setLane_coreIdx (s : State) (k : Nat) (v : Lane) (a : Nat) : (s.setLane k v).coreIdx a = s.coreIdx a := rfl
@[simp] theorem State.setLane_lanesOf (s : State) (k : Nat) (v : Lane) (a : Nat) : (s.setLane k v).lanesOf a = s.lanesOf a := rfl
@[simp] theorem State.setLane_groupsOf (s : State) (k : Nat) (v : Lane) (a : Nat) : (s.setLane k v).groupsOf a = s.groupsOf a := rfl
@[simp] theorem State.setLane_tagOf (s : State) (k : Nat) (v : Lane) (a b : Nat) : (s.setLane k v).tagOf a b = s.tagOf a b := rfl
@[simp] theorem State.setLane_pairDone (s : State) (k : Nat) (v : Lane) (a b : Nat) : (s.setLane k v).pairDone a b = s.pairDone a b := rfl
@[simp] theorem State.setLane_nondetOk (s : State) (k : Nat) (v : Lane) (a : Nat) : (s.setLane k v).nondetOk a = s.nondetOk a := rfl

/-! ### setGroup -/

@[simp] theorem State.setGroup_t (s : State) (k : Nat) (v : Group) : (s.setGroup k v).t = s.t := rfl
@[simp] theorem State.setGroup_e (s : State) (k : Nat) (v : Group) : (s.setGroup k v).e = s.e := rfl
@[simp] theorem State.setGroup_o (s : State) (k : Nat) (v : Group) : (s.setGroup k v).o = s.o := rfl
@[simp] theorem State.setGroup_x (s : State) (k : Nat) (v : Group) : (s.setGroup k v).x = s.x := rfl
@[simp] theorem State.setGroup_l (s : State) (k : Nat) (v : Group) : (s.setGroup k v).l = s.l := rfl
@[simp] theorem State.setGroup_h (s : State) (k : Nat) (v : Group) : (s.setGroup k v).h = s.h := rfl
@[simp] theorem State.setGroup_d (s : State) (k : Nat) (v : Group) : (s.setGroup k v).d = s.d := rfl
@[simp] theorem State.setGroup_f (s : State) (k : Nat) (v : Group) : (s.setGroup k v).f = s.f := rfl
@[simp] theorem State.setGroup_r (s : State) (k : Nat) (v : Group) : (s.setGroup k v).r = s.r := rfl
@[simp] theorem State.setGroup_w (s : State) (k : Nat) (v : Group) : (s.setGroup k v).w = s.w := rfl
@[simp] theorem State.setGroup_iss (s : State) (k : Nat) (v : Group) : (s.setGroup k v).iss = s.iss := rfl
@[simp] theorem State.setGroup_cur (s : State) (k : Nat) (v : Group) : (s.setGroup k v).cur = s.cur := rfl
@[simp] theorem State.setGroup_turns (s : State) (k : Nat) (v : Group) : (s.setGroup k v).turns = s.turns := rfl
@[simp] theorem State.setGroup_free (s : State) (k : Nat) (v : Group) : (s.setGroup k v).free = s.free := rfl
@[simp] theorem State.setGroup_next (s : State) (k : Nat) (v : Group) : (s.setGroup k v).next = s.next := rfl
@[simp] theorem State.setGroup_g_lanes (s : State) (k : Nat) (v : Group) : (s.setGroup k v).g.lanes = s.g.lanes := rfl
@[simp] theorem State.setGroup_g_vreg (s : State) (k : Nat) (v : Group) : (s.setGroup k v).g.vreg = s.g.vreg := rfl
@[simp] theorem State.setGroup_g_sreg (s : State) (k : Nat) (v : Group) : (s.setGroup k v).g.sreg = s.g.sreg := rfl
@[simp] theorem State.setGroup_g_creg (s : State) (k : Nat) (v : Group) : (s.setGroup k v).g.creg = s.g.creg := rfl
@[simp] theorem State.setGroup_g_jmask (s : State) (k : Nat) (v : Group) : (s.setGroup k v).g.jmask = s.g.jmask := rfl
@[simp] theorem State.setGroup_lane (s : State) (k : Nat) (v : Group) (a : Nat) : (s.setGroup k v).lane a = s.lane a := rfl
@[simp] theorem State.setGroup_team (s : State) (k : Nat) (v : Group) (a : Nat) : (s.setGroup k v).team a = s.team a := rfl
@[simp] theorem State.setGroup_launchOf (s : State) (k : Nat) (v : Group) (a : Nat) : (s.setGroup k v).launchOf a = s.launchOf a := rfl
@[simp] theorem State.setGroup_vreg (s : State) (k : Nat) (v : Group) (a b c : Nat) : (s.setGroup k v).vreg a b c = s.vreg a b c := rfl
@[simp] theorem State.setGroup_sreg (s : State) (k : Nat) (v : Group) (a b : Nat) : (s.setGroup k v).sreg a b = s.sreg a b := rfl
@[simp] theorem State.setGroup_creg (s : State) (k : Nat) (v : Group) (a b : Nat) : (s.setGroup k v).creg a b = s.creg a b := rfl
@[simp] theorem State.setGroup_jmask (s : State) (k : Nat) (v : Group) (a b : Nat) : (s.setGroup k v).jmask a b = s.jmask a b := rfl
@[simp] theorem State.setGroup_thread (s : State) (k : Nat) (v : Group) (a : Nat) : (s.setGroup k v).thread a = s.thread a := rfl

/-! ### setTeam -/

@[simp] theorem State.setTeam_g (s : State) (k : Nat) (v : Team) : (s.setTeam k v).g = s.g := rfl
@[simp] theorem State.setTeam_e (s : State) (k : Nat) (v : Team) : (s.setTeam k v).e = s.e := rfl
@[simp] theorem State.setTeam_o (s : State) (k : Nat) (v : Team) : (s.setTeam k v).o = s.o := rfl
@[simp] theorem State.setTeam_x (s : State) (k : Nat) (v : Team) : (s.setTeam k v).x = s.x := rfl
@[simp] theorem State.setTeam_l (s : State) (k : Nat) (v : Team) : (s.setTeam k v).l = s.l := rfl
@[simp] theorem State.setTeam_h (s : State) (k : Nat) (v : Team) : (s.setTeam k v).h = s.h := rfl
@[simp] theorem State.setTeam_d (s : State) (k : Nat) (v : Team) : (s.setTeam k v).d = s.d := rfl
@[simp] theorem State.setTeam_f (s : State) (k : Nat) (v : Team) : (s.setTeam k v).f = s.f := rfl
@[simp] theorem State.setTeam_r (s : State) (k : Nat) (v : Team) : (s.setTeam k v).r = s.r := rfl
@[simp] theorem State.setTeam_w (s : State) (k : Nat) (v : Team) : (s.setTeam k v).w = s.w := rfl
@[simp] theorem State.setTeam_iss (s : State) (k : Nat) (v : Team) : (s.setTeam k v).iss = s.iss := rfl
@[simp] theorem State.setTeam_cur (s : State) (k : Nat) (v : Team) : (s.setTeam k v).cur = s.cur := rfl
@[simp] theorem State.setTeam_turns (s : State) (k : Nat) (v : Team) : (s.setTeam k v).turns = s.turns := rfl
@[simp] theorem State.setTeam_free (s : State) (k : Nat) (v : Team) : (s.setTeam k v).free = s.free := rfl
@[simp] theorem State.setTeam_next (s : State) (k : Nat) (v : Team) : (s.setTeam k v).next = s.next := rfl
@[simp] theorem State.setTeam_t_scratch (s : State) (k : Nat) (v : Team) : (s.setTeam k v).t.scratch = s.t.scratch := rfl
@[simp] theorem State.setTeam_t_acc (s : State) (k : Nat) (v : Team) : (s.setTeam k v).t.acc = s.t.acc := rfl
@[simp] theorem State.setTeam_t_regions (s : State) (k : Nat) (v : Team) : (s.setTeam k v).t.regions = s.t.regions := rfl
@[simp] theorem State.setTeam_t_slots (s : State) (k : Nat) (v : Team) : (s.setTeam k v).t.slots = s.t.slots := rfl
@[simp] theorem State.setTeam_t_slotCode (s : State) (k : Nat) (v : Team) : (s.setTeam k v).t.slotCode = s.t.slotCode := rfl
@[simp] theorem State.setTeam_t_slotScale (s : State) (k : Nat) (v : Team) : (s.setTeam k v).t.slotScale = s.t.slotScale := rfl
@[simp] theorem State.setTeam_t_tags (s : State) (k : Nat) (v : Team) : (s.setTeam k v).t.tags = s.t.tags := rfl
@[simp] theorem State.setTeam_t_bars (s : State) (k : Nat) (v : Team) : (s.setTeam k v).t.bars = s.t.bars := rfl
@[simp] theorem State.setTeam_t_landing (s : State) (k : Nat) (v : Team) : (s.setTeam k v).t.landing = s.t.landing := rfl
@[simp] theorem State.setTeam_t_exact (s : State) (k : Nat) (v : Team) : (s.setTeam k v).t.exact = s.t.exact := rfl
@[simp] theorem State.setTeam_t_pairDone (s : State) (k : Nat) (v : Team) : (s.setTeam k v).t.pairDone = s.t.pairDone := rfl
@[simp] theorem State.setTeam_t_tagWrote (s : State) (k : Nat) (v : Team) : (s.setTeam k v).t.tagWrote = s.t.tagWrote := rfl
@[simp] theorem State.setTeam_lane (s : State) (k : Nat) (v : Team) (a : Nat) : (s.setTeam k v).lane a = s.lane a := rfl
@[simp] theorem State.setTeam_group (s : State) (k : Nat) (v : Team) (a : Nat) : (s.setTeam k v).group a = s.group a := rfl
@[simp] theorem State.setTeam_launchOf (s : State) (k : Nat) (v : Team) (a : Nat) : (s.setTeam k v).launchOf a = s.launchOf a := rfl
@[simp] theorem State.setTeam_vreg (s : State) (k : Nat) (v : Team) (a b c : Nat) : (s.setTeam k v).vreg a b c = s.vreg a b c := rfl
@[simp] theorem State.setTeam_sreg (s : State) (k : Nat) (v : Team) (a b : Nat) : (s.setTeam k v).sreg a b = s.sreg a b := rfl
@[simp] theorem State.setTeam_creg (s : State) (k : Nat) (v : Team) (a b : Nat) : (s.setTeam k v).creg a b = s.creg a b := rfl
@[simp] theorem State.setTeam_jmask (s : State) (k : Nat) (v : Team) (a b : Nat) : (s.setTeam k v).jmask a b = s.jmask a b := rfl
@[simp] theorem State.setTeam_thread (s : State) (k : Nat) (v : Team) (a : Nat) : (s.setTeam k v).thread a = s.thread a := rfl
@[simp] theorem State.setTeam_lanesOf (s : State) (k : Nat) (v : Team) (a : Nat) : (s.setTeam k v).lanesOf a = s.lanesOf a := rfl
@[simp] theorem State.setTeam_groupsOf (s : State) (k : Nat) (v : Team) (a : Nat) : (s.setTeam k v).groupsOf a = s.groupsOf a := rfl

/-! ### setLaunch -/

@[simp] theorem State.setLaunch_g (s : State) (k : Nat) (v : Launch) : (s.setLaunch k v).g = s.g := rfl
@[simp] theorem State.setLaunch_t (s : State) (k : Nat) (v : Launch) : (s.setLaunch k v).t = s.t := rfl
@[simp] theorem State.setLaunch_e (s : State) (k : Nat) (v : Launch) : (s.setLaunch k v).e = s.e := rfl
@[simp] theorem State.setLaunch_o (s : State) (k : Nat) (v : Launch) : (s.setLaunch k v).o = s.o := rfl
@[simp] theorem State.setLaunch_x (s : State) (k : Nat) (v : Launch) : (s.setLaunch k v).x = s.x := rfl
@[simp] theorem State.setLaunch_h (s : State) (k : Nat) (v : Launch) : (s.setLaunch k v).h = s.h := rfl
@[simp] theorem State.setLaunch_d (s : State) (k : Nat) (v : Launch) : (s.setLaunch k v).d = s.d := rfl
@[simp] theorem State.setLaunch_f (s : State) (k : Nat) (v : Launch) : (s.setLaunch k v).f = s.f := rfl
@[simp] theorem State.setLaunch_r (s : State) (k : Nat) (v : Launch) : (s.setLaunch k v).r = s.r := rfl
@[simp] theorem State.setLaunch_w (s : State) (k : Nat) (v : Launch) : (s.setLaunch k v).w = s.w := rfl
@[simp] theorem State.setLaunch_iss (s : State) (k : Nat) (v : Launch) : (s.setLaunch k v).iss = s.iss := rfl
@[simp] theorem State.setLaunch_cur (s : State) (k : Nat) (v : Launch) : (s.setLaunch k v).cur = s.cur := rfl
@[simp] theorem State.setLaunch_turns (s : State) (k : Nat) (v : Launch) : (s.setLaunch k v).turns = s.turns := rfl
@[simp] theorem State.setLaunch_free (s : State) (k : Nat) (v : Launch) : (s.setLaunch k v).free = s.free := rfl
@[simp] theorem State.setLaunch_next (s : State) (k : Nat) (v : Launch) : (s.setLaunch k v).next = s.next := rfl
@[simp] theorem State.setLaunch_l_serials (s : State) (k : Nat) (v : Launch) : (s.setLaunch k v).l.serials = s.l.serials := rfl
@[simp] theorem State.setLaunch_l_ports (s : State) (k : Nat) (v : Launch) : (s.setLaunch k v).l.ports = s.l.ports := rfl
@[simp] theorem State.setLaunch_l_lastServed (s : State) (k : Nat) (v : Launch) : (s.setLaunch k v).l.lastServed = s.l.lastServed := rfl
@[simp] theorem State.setLaunch_l_bankrole (s : State) (k : Nat) (v : Launch) : (s.setLaunch k v).l.bankrole = s.l.bankrole := rfl
@[simp] theorem State.setLaunch_l_draining (s : State) (k : Nat) (v : Launch) : (s.setLaunch k v).l.draining = s.l.draining := rfl
@[simp] theorem State.setLaunch_l_det (s : State) (k : Nat) (v : Launch) : (s.setLaunch k v).l.det = s.l.det := rfl
@[simp] theorem State.setLaunch_l_own (s : State) (k : Nat) (v : Launch) : (s.setLaunch k v).l.own = s.l.own := rfl
@[simp] theorem State.setLaunch_l_checkpoints (s : State) (k : Nat) (v : Launch) : (s.setLaunch k v).l.checkpoints = s.l.checkpoints := rfl
@[simp] theorem State.setLaunch_l_current (s : State) (k : Nat) (v : Launch) : (s.setLaunch k v).l.current = s.l.current := rfl
@[simp] theorem State.setLaunch_l_serving (s : State) (k : Nat) (v : Launch) : (s.setLaunch k v).l.serving = s.l.serving := rfl
@[simp] theorem State.setLaunch_lane (s : State) (k : Nat) (v : Launch) (a : Nat) : (s.setLaunch k v).lane a = s.lane a := rfl
@[simp] theorem State.setLaunch_group (s : State) (k : Nat) (v : Launch) (a : Nat) : (s.setLaunch k v).group a = s.group a := rfl
@[simp] theorem State.setLaunch_team (s : State) (k : Nat) (v : Launch) (a : Nat) : (s.setLaunch k v).team a = s.team a := rfl
@[simp] theorem State.setLaunch_vreg (s : State) (k : Nat) (v : Launch) (a b c : Nat) : (s.setLaunch k v).vreg a b c = s.vreg a b c := rfl
@[simp] theorem State.setLaunch_sreg (s : State) (k : Nat) (v : Launch) (a b : Nat) : (s.setLaunch k v).sreg a b = s.sreg a b := rfl
@[simp] theorem State.setLaunch_creg (s : State) (k : Nat) (v : Launch) (a b : Nat) : (s.setLaunch k v).creg a b = s.creg a b := rfl
@[simp] theorem State.setLaunch_jmask (s : State) (k : Nat) (v : Launch) (a b : Nat) : (s.setLaunch k v).jmask a b = s.jmask a b := rfl
@[simp] theorem State.setLaunch_thread (s : State) (k : Nat) (v : Launch) (a : Nat) : (s.setLaunch k v).thread a = s.thread a := rfl
@[simp] theorem State.setLaunch_teamOf (s : State) (k : Nat) (v : Launch) (a : Nat) : (s.setLaunch k v).teamOf a = s.teamOf a := rfl
@[simp] theorem State.setLaunch_kern (s : State) (k : Nat) (v : Launch) (a : Nat) : (s.setLaunch k v).kern a = s.kern a := rfl
@[simp] theorem State.setLaunch_coreIdx (s : State) (k : Nat) (v : Launch) (a : Nat) : (s.setLaunch k v).coreIdx a = s.coreIdx a := rfl
@[simp] theorem State.setLaunch_lanesOf (s : State) (k : Nat) (v : Launch) (a : Nat) : (s.setLaunch k v).lanesOf a = s.lanesOf a := rfl
@[simp] theorem State.setLaunch_groupsOf (s : State) (k : Nat) (v : Launch) (a : Nat) : (s.setLaunch k v).groupsOf a = s.groupsOf a := rfl
@[simp] theorem State.setLaunch_tagOf (s : State) (k : Nat) (v : Launch) (a b : Nat) : (s.setLaunch k v).tagOf a b = s.tagOf a b := rfl
@[simp] theorem State.setLaunch_pairDone (s : State) (k : Nat) (v : Launch) (a b : Nat) : (s.setLaunch k v).pairDone a b = s.pairDone a b := rfl
@[simp] theorem State.setLaunch_nondetOk (s : State) (k : Nat) (v : Launch) (a : Nat) : (s.setLaunch k v).nondetOk a = s.nondetOk a := rfl

/-! ### setV -/

@[simp] theorem State.setV_t (s : State) (gk l n : Nat) (v : Word) : (s.setV gk l n v).t = s.t := rfl
@[simp] theorem State.setV_e (s : State) (gk l n : Nat) (v : Word) : (s.setV gk l n v).e = s.e := rfl
@[simp] theorem State.setV_o (s : State) (gk l n : Nat) (v : Word) : (s.setV gk l n v).o = s.o := rfl
@[simp] theorem State.setV_x (s : State) (gk l n : Nat) (v : Word) : (s.setV gk l n v).x = s.x := rfl
@[simp] theorem State.setV_l (s : State) (gk l n : Nat) (v : Word) : (s.setV gk l n v).l = s.l := rfl
@[simp] theorem State.setV_h (s : State) (gk l n : Nat) (v : Word) : (s.setV gk l n v).h = s.h := rfl
@[simp] theorem State.setV_d (s : State) (gk l n : Nat) (v : Word) : (s.setV gk l n v).d = s.d := rfl
@[simp] theorem State.setV_f (s : State) (gk l n : Nat) (v : Word) : (s.setV gk l n v).f = s.f := rfl
@[simp] theorem State.setV_r (s : State) (gk l n : Nat) (v : Word) : (s.setV gk l n v).r = s.r := rfl
@[simp] theorem State.setV_w (s : State) (gk l n : Nat) (v : Word) : (s.setV gk l n v).w = s.w := rfl
@[simp] theorem State.setV_iss (s : State) (gk l n : Nat) (v : Word) : (s.setV gk l n v).iss = s.iss := rfl
@[simp] theorem State.setV_cur (s : State) (gk l n : Nat) (v : Word) : (s.setV gk l n v).cur = s.cur := rfl
@[simp] theorem State.setV_turns (s : State) (gk l n : Nat) (v : Word) : (s.setV gk l n v).turns = s.turns := rfl
@[simp] theorem State.setV_free (s : State) (gk l n : Nat) (v : Word) : (s.setV gk l n v).free = s.free := rfl
@[simp] theorem State.setV_next (s : State) (gk l n : Nat) (v : Word) : (s.setV gk l n v).next = s.next := rfl
@[simp] theorem State.setV_g_lanes (s : State) (gk l n : Nat) (v : Word) : (s.setV gk l n v).g.lanes = s.g.lanes := rfl
@[simp] theorem State.setV_g_groups (s : State) (gk l n : Nat) (v : Word) : (s.setV gk l n v).g.groups = s.g.groups := rfl
@[simp] theorem State.setV_g_sreg (s : State) (gk l n : Nat) (v : Word) : (s.setV gk l n v).g.sreg = s.g.sreg := rfl
@[simp] theorem State.setV_g_creg (s : State) (gk l n : Nat) (v : Word) : (s.setV gk l n v).g.creg = s.g.creg := rfl
@[simp] theorem State.setV_g_jmask (s : State) (gk l n : Nat) (v : Word) : (s.setV gk l n v).g.jmask = s.g.jmask := rfl
@[simp] theorem State.setV_lane (s : State) (gk l n : Nat) (v : Word) (a : Nat) : (s.setV gk l n v).lane a = s.lane a := rfl
@[simp] theorem State.setV_group (s : State) (gk l n : Nat) (v : Word) (a : Nat) : (s.setV gk l n v).group a = s.group a := rfl
@[simp] theorem State.setV_team (s : State) (gk l n : Nat) (v : Word) (a : Nat) : (s.setV gk l n v).team a = s.team a := rfl
@[simp] theorem State.setV_launchOf (s : State) (gk l n : Nat) (v : Word) (a : Nat) : (s.setV gk l n v).launchOf a = s.launchOf a := rfl
@[simp] theorem State.setV_sreg (s : State) (gk l n : Nat) (v : Word) (a b : Nat) : (s.setV gk l n v).sreg a b = s.sreg a b := rfl
@[simp] theorem State.setV_creg (s : State) (gk l n : Nat) (v : Word) (a b : Nat) : (s.setV gk l n v).creg a b = s.creg a b := rfl
@[simp] theorem State.setV_jmask (s : State) (gk l n : Nat) (v : Word) (a b : Nat) : (s.setV gk l n v).jmask a b = s.jmask a b := rfl
@[simp] theorem State.setV_thread (s : State) (gk l n : Nat) (v : Word) (a : Nat) : (s.setV gk l n v).thread a = s.thread a := rfl
@[simp] theorem State.setV_teamOf (s : State) (gk l n : Nat) (v : Word) (a : Nat) : (s.setV gk l n v).teamOf a = s.teamOf a := rfl
@[simp] theorem State.setV_kern (s : State) (gk l n : Nat) (v : Word) (a : Nat) : (s.setV gk l n v).kern a = s.kern a := rfl
@[simp] theorem State.setV_coreIdx (s : State) (gk l n : Nat) (v : Word) (a : Nat) : (s.setV gk l n v).coreIdx a = s.coreIdx a := rfl
@[simp] theorem State.setV_lanesOf (s : State) (gk l n : Nat) (v : Word) (a : Nat) : (s.setV gk l n v).lanesOf a = s.lanesOf a := rfl
@[simp] theorem State.setV_groupsOf (s : State) (gk l n : Nat) (v : Word) (a : Nat) : (s.setV gk l n v).groupsOf a = s.groupsOf a := rfl
@[simp] theorem State.setV_tagOf (s : State) (gk l n : Nat) (v : Word) (a b : Nat) : (s.setV gk l n v).tagOf a b = s.tagOf a b := rfl
@[simp] theorem State.setV_pairDone (s : State) (gk l n : Nat) (v : Word) (a b : Nat) : (s.setV gk l n v).pairDone a b = s.pairDone a b := rfl
@[simp] theorem State.setV_nondetOk (s : State) (gk l n : Nat) (v : Word) (a : Nat) : (s.setV gk l n v).nondetOk a = s.nondetOk a := rfl

/-! ### setS -/

@[simp] theorem State.setS_t (s : State) (gk n : Nat) (v : Word) : (s.setS gk n v).t = s.t := rfl
@[simp] theorem State.setS_e (s : State) (gk n : Nat) (v : Word) : (s.setS gk n v).e = s.e := rfl
@[simp] theorem State.setS_o (s : State) (gk n : Nat) (v : Word) : (s.setS gk n v).o = s.o := rfl
@[simp] theorem State.setS_x (s : State) (gk n : Nat) (v : Word) : (s.setS gk n v).x = s.x := rfl
@[simp] theorem State.setS_l (s : State) (gk n : Nat) (v : Word) : (s.setS gk n v).l = s.l := rfl
@[simp] theorem State.setS_h (s : State) (gk n : Nat) (v : Word) : (s.setS gk n v).h = s.h := rfl
@[simp] theorem State.setS_d (s : State) (gk n : Nat) (v : Word) : (s.setS gk n v).d = s.d := rfl
@[simp] theorem State.setS_f (s : State) (gk n : Nat) (v : Word) : (s.setS gk n v).f = s.f := rfl
@[simp] theorem State.setS_r (s : State) (gk n : Nat) (v : Word) : (s.setS gk n v).r = s.r := rfl
@[simp] theorem State.setS_w (s : State) (gk n : Nat) (v : Word) : (s.setS gk n v).w = s.w := rfl
@[simp] theorem State.setS_iss (s : State) (gk n : Nat) (v : Word) : (s.setS gk n v).iss = s.iss := rfl
@[simp] theorem State.setS_cur (s : State) (gk n : Nat) (v : Word) : (s.setS gk n v).cur = s.cur := rfl
@[simp] theorem State.setS_turns (s : State) (gk n : Nat) (v : Word) : (s.setS gk n v).turns = s.turns := rfl
@[simp] theorem State.setS_free (s : State) (gk n : Nat) (v : Word) : (s.setS gk n v).free = s.free := rfl
@[simp] theorem State.setS_next (s : State) (gk n : Nat) (v : Word) : (s.setS gk n v).next = s.next := rfl
@[simp] theorem State.setS_g_lanes (s : State) (gk n : Nat) (v : Word) : (s.setS gk n v).g.lanes = s.g.lanes := rfl
@[simp] theorem State.setS_g_groups (s : State) (gk n : Nat) (v : Word) : (s.setS gk n v).g.groups = s.g.groups := rfl
@[simp] theorem State.setS_g_vreg (s : State) (gk n : Nat) (v : Word) : (s.setS gk n v).g.vreg = s.g.vreg := rfl
@[simp] theorem State.setS_g_creg (s : State) (gk n : Nat) (v : Word) : (s.setS gk n v).g.creg = s.g.creg := rfl
@[simp] theorem State.setS_g_jmask (s : State) (gk n : Nat) (v : Word) : (s.setS gk n v).g.jmask = s.g.jmask := rfl
@[simp] theorem State.setS_lane (s : State) (gk n : Nat) (v : Word) (a : Nat) : (s.setS gk n v).lane a = s.lane a := rfl
@[simp] theorem State.setS_group (s : State) (gk n : Nat) (v : Word) (a : Nat) : (s.setS gk n v).group a = s.group a := rfl
@[simp] theorem State.setS_team (s : State) (gk n : Nat) (v : Word) (a : Nat) : (s.setS gk n v).team a = s.team a := rfl
@[simp] theorem State.setS_launchOf (s : State) (gk n : Nat) (v : Word) (a : Nat) : (s.setS gk n v).launchOf a = s.launchOf a := rfl
@[simp] theorem State.setS_vreg (s : State) (gk n : Nat) (v : Word) (a b c : Nat) : (s.setS gk n v).vreg a b c = s.vreg a b c := rfl
@[simp] theorem State.setS_creg (s : State) (gk n : Nat) (v : Word) (a b : Nat) : (s.setS gk n v).creg a b = s.creg a b := rfl
@[simp] theorem State.setS_jmask (s : State) (gk n : Nat) (v : Word) (a b : Nat) : (s.setS gk n v).jmask a b = s.jmask a b := rfl
@[simp] theorem State.setS_thread (s : State) (gk n : Nat) (v : Word) (a : Nat) : (s.setS gk n v).thread a = s.thread a := rfl
@[simp] theorem State.setS_teamOf (s : State) (gk n : Nat) (v : Word) (a : Nat) : (s.setS gk n v).teamOf a = s.teamOf a := rfl
@[simp] theorem State.setS_kern (s : State) (gk n : Nat) (v : Word) (a : Nat) : (s.setS gk n v).kern a = s.kern a := rfl
@[simp] theorem State.setS_coreIdx (s : State) (gk n : Nat) (v : Word) (a : Nat) : (s.setS gk n v).coreIdx a = s.coreIdx a := rfl
@[simp] theorem State.setS_lanesOf (s : State) (gk n : Nat) (v : Word) (a : Nat) : (s.setS gk n v).lanesOf a = s.lanesOf a := rfl
@[simp] theorem State.setS_groupsOf (s : State) (gk n : Nat) (v : Word) (a : Nat) : (s.setS gk n v).groupsOf a = s.groupsOf a := rfl
@[simp] theorem State.setS_tagOf (s : State) (gk n : Nat) (v : Word) (a b : Nat) : (s.setS gk n v).tagOf a b = s.tagOf a b := rfl
@[simp] theorem State.setS_pairDone (s : State) (gk n : Nat) (v : Word) (a b : Nat) : (s.setS gk n v).pairDone a b = s.pairDone a b := rfl
@[simp] theorem State.setS_nondetOk (s : State) (gk n : Nat) (v : Word) (a : Nat) : (s.setS gk n v).nondetOk a = s.nondetOk a := rfl

/-! ### setC -/

@[simp] theorem State.setC_t (s : State) (gk n : Nat) (v : Cap) : (s.setC gk n v).t = s.t := rfl
@[simp] theorem State.setC_e (s : State) (gk n : Nat) (v : Cap) : (s.setC gk n v).e = s.e := rfl
@[simp] theorem State.setC_o (s : State) (gk n : Nat) (v : Cap) : (s.setC gk n v).o = s.o := rfl
@[simp] theorem State.setC_x (s : State) (gk n : Nat) (v : Cap) : (s.setC gk n v).x = s.x := rfl
@[simp] theorem State.setC_l (s : State) (gk n : Nat) (v : Cap) : (s.setC gk n v).l = s.l := rfl
@[simp] theorem State.setC_h (s : State) (gk n : Nat) (v : Cap) : (s.setC gk n v).h = s.h := rfl
@[simp] theorem State.setC_d (s : State) (gk n : Nat) (v : Cap) : (s.setC gk n v).d = s.d := rfl
@[simp] theorem State.setC_f (s : State) (gk n : Nat) (v : Cap) : (s.setC gk n v).f = s.f := rfl
@[simp] theorem State.setC_r (s : State) (gk n : Nat) (v : Cap) : (s.setC gk n v).r = s.r := rfl
@[simp] theorem State.setC_w (s : State) (gk n : Nat) (v : Cap) : (s.setC gk n v).w = s.w := rfl
@[simp] theorem State.setC_iss (s : State) (gk n : Nat) (v : Cap) : (s.setC gk n v).iss = s.iss := rfl
@[simp] theorem State.setC_cur (s : State) (gk n : Nat) (v : Cap) : (s.setC gk n v).cur = s.cur := rfl
@[simp] theorem State.setC_turns (s : State) (gk n : Nat) (v : Cap) : (s.setC gk n v).turns = s.turns := rfl
@[simp] theorem State.setC_free (s : State) (gk n : Nat) (v : Cap) : (s.setC gk n v).free = s.free := rfl
@[simp] theorem State.setC_next (s : State) (gk n : Nat) (v : Cap) : (s.setC gk n v).next = s.next := rfl
@[simp] theorem State.setC_g_lanes (s : State) (gk n : Nat) (v : Cap) : (s.setC gk n v).g.lanes = s.g.lanes := rfl
@[simp] theorem State.setC_g_groups (s : State) (gk n : Nat) (v : Cap) : (s.setC gk n v).g.groups = s.g.groups := rfl
@[simp] theorem State.setC_g_vreg (s : State) (gk n : Nat) (v : Cap) : (s.setC gk n v).g.vreg = s.g.vreg := rfl
@[simp] theorem State.setC_g_sreg (s : State) (gk n : Nat) (v : Cap) : (s.setC gk n v).g.sreg = s.g.sreg := rfl
@[simp] theorem State.setC_g_jmask (s : State) (gk n : Nat) (v : Cap) : (s.setC gk n v).g.jmask = s.g.jmask := rfl
@[simp] theorem State.setC_lane (s : State) (gk n : Nat) (v : Cap) (a : Nat) : (s.setC gk n v).lane a = s.lane a := rfl
@[simp] theorem State.setC_group (s : State) (gk n : Nat) (v : Cap) (a : Nat) : (s.setC gk n v).group a = s.group a := rfl
@[simp] theorem State.setC_team (s : State) (gk n : Nat) (v : Cap) (a : Nat) : (s.setC gk n v).team a = s.team a := rfl
@[simp] theorem State.setC_launchOf (s : State) (gk n : Nat) (v : Cap) (a : Nat) : (s.setC gk n v).launchOf a = s.launchOf a := rfl
@[simp] theorem State.setC_vreg (s : State) (gk n : Nat) (v : Cap) (a b c : Nat) : (s.setC gk n v).vreg a b c = s.vreg a b c := rfl
@[simp] theorem State.setC_sreg (s : State) (gk n : Nat) (v : Cap) (a b : Nat) : (s.setC gk n v).sreg a b = s.sreg a b := rfl
@[simp] theorem State.setC_jmask (s : State) (gk n : Nat) (v : Cap) (a b : Nat) : (s.setC gk n v).jmask a b = s.jmask a b := rfl
@[simp] theorem State.setC_thread (s : State) (gk n : Nat) (v : Cap) (a : Nat) : (s.setC gk n v).thread a = s.thread a := rfl
@[simp] theorem State.setC_teamOf (s : State) (gk n : Nat) (v : Cap) (a : Nat) : (s.setC gk n v).teamOf a = s.teamOf a := rfl
@[simp] theorem State.setC_kern (s : State) (gk n : Nat) (v : Cap) (a : Nat) : (s.setC gk n v).kern a = s.kern a := rfl
@[simp] theorem State.setC_coreIdx (s : State) (gk n : Nat) (v : Cap) (a : Nat) : (s.setC gk n v).coreIdx a = s.coreIdx a := rfl
@[simp] theorem State.setC_lanesOf (s : State) (gk n : Nat) (v : Cap) (a : Nat) : (s.setC gk n v).lanesOf a = s.lanesOf a := rfl
@[simp] theorem State.setC_groupsOf (s : State) (gk n : Nat) (v : Cap) (a : Nat) : (s.setC gk n v).groupsOf a = s.groupsOf a := rfl
@[simp] theorem State.setC_tagOf (s : State) (gk n : Nat) (v : Cap) (a b : Nat) : (s.setC gk n v).tagOf a b = s.tagOf a b := rfl
@[simp] theorem State.setC_pairDone (s : State) (gk n : Nat) (v : Cap) (a b : Nat) : (s.setC gk n v).pairDone a b = s.pairDone a b := rfl
@[simp] theorem State.setC_nondetOk (s : State) (gk n : Nat) (v : Cap) (a : Nat) : (s.setC gk n v).nondetOk a = s.nondetOk a := rfl

/-! ### setJ -/

@[simp] theorem State.setJ_t (s : State) (gk n : Nat) (v : DWord) : (s.setJ gk n v).t = s.t := rfl
@[simp] theorem State.setJ_e (s : State) (gk n : Nat) (v : DWord) : (s.setJ gk n v).e = s.e := rfl
@[simp] theorem State.setJ_o (s : State) (gk n : Nat) (v : DWord) : (s.setJ gk n v).o = s.o := rfl
@[simp] theorem State.setJ_x (s : State) (gk n : Nat) (v : DWord) : (s.setJ gk n v).x = s.x := rfl
@[simp] theorem State.setJ_l (s : State) (gk n : Nat) (v : DWord) : (s.setJ gk n v).l = s.l := rfl
@[simp] theorem State.setJ_h (s : State) (gk n : Nat) (v : DWord) : (s.setJ gk n v).h = s.h := rfl
@[simp] theorem State.setJ_d (s : State) (gk n : Nat) (v : DWord) : (s.setJ gk n v).d = s.d := rfl
@[simp] theorem State.setJ_f (s : State) (gk n : Nat) (v : DWord) : (s.setJ gk n v).f = s.f := rfl
@[simp] theorem State.setJ_r (s : State) (gk n : Nat) (v : DWord) : (s.setJ gk n v).r = s.r := rfl
@[simp] theorem State.setJ_w (s : State) (gk n : Nat) (v : DWord) : (s.setJ gk n v).w = s.w := rfl
@[simp] theorem State.setJ_iss (s : State) (gk n : Nat) (v : DWord) : (s.setJ gk n v).iss = s.iss := rfl
@[simp] theorem State.setJ_cur (s : State) (gk n : Nat) (v : DWord) : (s.setJ gk n v).cur = s.cur := rfl
@[simp] theorem State.setJ_turns (s : State) (gk n : Nat) (v : DWord) : (s.setJ gk n v).turns = s.turns := rfl
@[simp] theorem State.setJ_free (s : State) (gk n : Nat) (v : DWord) : (s.setJ gk n v).free = s.free := rfl
@[simp] theorem State.setJ_next (s : State) (gk n : Nat) (v : DWord) : (s.setJ gk n v).next = s.next := rfl
@[simp] theorem State.setJ_g_lanes (s : State) (gk n : Nat) (v : DWord) : (s.setJ gk n v).g.lanes = s.g.lanes := rfl
@[simp] theorem State.setJ_g_groups (s : State) (gk n : Nat) (v : DWord) : (s.setJ gk n v).g.groups = s.g.groups := rfl
@[simp] theorem State.setJ_g_vreg (s : State) (gk n : Nat) (v : DWord) : (s.setJ gk n v).g.vreg = s.g.vreg := rfl
@[simp] theorem State.setJ_g_sreg (s : State) (gk n : Nat) (v : DWord) : (s.setJ gk n v).g.sreg = s.g.sreg := rfl
@[simp] theorem State.setJ_g_creg (s : State) (gk n : Nat) (v : DWord) : (s.setJ gk n v).g.creg = s.g.creg := rfl
@[simp] theorem State.setJ_lane (s : State) (gk n : Nat) (v : DWord) (a : Nat) : (s.setJ gk n v).lane a = s.lane a := rfl
@[simp] theorem State.setJ_group (s : State) (gk n : Nat) (v : DWord) (a : Nat) : (s.setJ gk n v).group a = s.group a := rfl
@[simp] theorem State.setJ_team (s : State) (gk n : Nat) (v : DWord) (a : Nat) : (s.setJ gk n v).team a = s.team a := rfl
@[simp] theorem State.setJ_launchOf (s : State) (gk n : Nat) (v : DWord) (a : Nat) : (s.setJ gk n v).launchOf a = s.launchOf a := rfl
@[simp] theorem State.setJ_vreg (s : State) (gk n : Nat) (v : DWord) (a b c : Nat) : (s.setJ gk n v).vreg a b c = s.vreg a b c := rfl
@[simp] theorem State.setJ_sreg (s : State) (gk n : Nat) (v : DWord) (a b : Nat) : (s.setJ gk n v).sreg a b = s.sreg a b := rfl
@[simp] theorem State.setJ_creg (s : State) (gk n : Nat) (v : DWord) (a b : Nat) : (s.setJ gk n v).creg a b = s.creg a b := rfl
@[simp] theorem State.setJ_thread (s : State) (gk n : Nat) (v : DWord) (a : Nat) : (s.setJ gk n v).thread a = s.thread a := rfl
@[simp] theorem State.setJ_teamOf (s : State) (gk n : Nat) (v : DWord) (a : Nat) : (s.setJ gk n v).teamOf a = s.teamOf a := rfl
@[simp] theorem State.setJ_kern (s : State) (gk n : Nat) (v : DWord) (a : Nat) : (s.setJ gk n v).kern a = s.kern a := rfl
@[simp] theorem State.setJ_coreIdx (s : State) (gk n : Nat) (v : DWord) (a : Nat) : (s.setJ gk n v).coreIdx a = s.coreIdx a := rfl
@[simp] theorem State.setJ_lanesOf (s : State) (gk n : Nat) (v : DWord) (a : Nat) : (s.setJ gk n v).lanesOf a = s.lanesOf a := rfl
@[simp] theorem State.setJ_groupsOf (s : State) (gk n : Nat) (v : DWord) (a : Nat) : (s.setJ gk n v).groupsOf a = s.groupsOf a := rfl
@[simp] theorem State.setJ_tagOf (s : State) (gk n : Nat) (v : DWord) (a b : Nat) : (s.setJ gk n v).tagOf a b = s.tagOf a b := rfl
@[simp] theorem State.setJ_pairDone (s : State) (gk n : Nat) (v : DWord) (a b : Nat) : (s.setJ gk n v).pairDone a b = s.pairDone a b := rfl
@[simp] theorem State.setJ_nondetOk (s : State) (gk n : Nat) (v : DWord) (a : Nat) : (s.setJ gk n v).nondetOk a = s.nondetOk a := rfl

/-! ### setThread -/

@[simp] theorem State.setThread_g (s : State) (k : Nat) (v : Option Thread) : (s.setThread k v).g = s.g := rfl
@[simp] theorem State.setThread_t (s : State) (k : Nat) (v : Option Thread) : (s.setThread k v).t = s.t := rfl
@[simp] theorem State.setThread_o (s : State) (k : Nat) (v : Option Thread) : (s.setThread k v).o = s.o := rfl
@[simp] theorem State.setThread_x (s : State) (k : Nat) (v : Option Thread) : (s.setThread k v).x = s.x := rfl
@[simp] theorem State.setThread_l (s : State) (k : Nat) (v : Option Thread) : (s.setThread k v).l = s.l := rfl
@[simp] theorem State.setThread_h (s : State) (k : Nat) (v : Option Thread) : (s.setThread k v).h = s.h := rfl
@[simp] theorem State.setThread_d (s : State) (k : Nat) (v : Option Thread) : (s.setThread k v).d = s.d := rfl
@[simp] theorem State.setThread_f (s : State) (k : Nat) (v : Option Thread) : (s.setThread k v).f = s.f := rfl
@[simp] theorem State.setThread_r (s : State) (k : Nat) (v : Option Thread) : (s.setThread k v).r = s.r := rfl
@[simp] theorem State.setThread_w (s : State) (k : Nat) (v : Option Thread) : (s.setThread k v).w = s.w := rfl
@[simp] theorem State.setThread_iss (s : State) (k : Nat) (v : Option Thread) : (s.setThread k v).iss = s.iss := rfl
@[simp] theorem State.setThread_cur (s : State) (k : Nat) (v : Option Thread) : (s.setThread k v).cur = s.cur := rfl
@[simp] theorem State.setThread_turns (s : State) (k : Nat) (v : Option Thread) : (s.setThread k v).turns = s.turns := rfl
@[simp] theorem State.setThread_free (s : State) (k : Nat) (v : Option Thread) : (s.setThread k v).free = s.free := rfl
@[simp] theorem State.setThread_next (s : State) (k : Nat) (v : Option Thread) : (s.setThread k v).next = s.next := rfl
@[simp] theorem State.setThread_e_sides (s : State) (k : Nat) (v : Option Thread) : (s.setThread k v).e.sides = s.e.sides := rfl
@[simp] theorem State.setThread_e_fifo (s : State) (k : Nat) (v : Option Thread) : (s.setThread k v).e.fifo = s.e.fifo := rfl
@[simp] theorem State.setThread_e_epi (s : State) (k : Nat) (v : Option Thread) : (s.setThread k v).e.epi = s.e.epi := rfl
@[simp] theorem State.setThread_e_served (s : State) (k : Nat) (v : Option Thread) : (s.setThread k v).e.served = s.e.served := rfl
@[simp] theorem State.setThread_lane (s : State) (k : Nat) (v : Option Thread) (a : Nat) : (s.setThread k v).lane a = s.lane a := rfl
@[simp] theorem State.setThread_group (s : State) (k : Nat) (v : Option Thread) (a : Nat) : (s.setThread k v).group a = s.group a := rfl
@[simp] theorem State.setThread_team (s : State) (k : Nat) (v : Option Thread) (a : Nat) : (s.setThread k v).team a = s.team a := rfl
@[simp] theorem State.setThread_launchOf (s : State) (k : Nat) (v : Option Thread) (a : Nat) : (s.setThread k v).launchOf a = s.launchOf a := rfl
@[simp] theorem State.setThread_vreg (s : State) (k : Nat) (v : Option Thread) (a b c : Nat) : (s.setThread k v).vreg a b c = s.vreg a b c := rfl
@[simp] theorem State.setThread_sreg (s : State) (k : Nat) (v : Option Thread) (a b : Nat) : (s.setThread k v).sreg a b = s.sreg a b := rfl
@[simp] theorem State.setThread_creg (s : State) (k : Nat) (v : Option Thread) (a b : Nat) : (s.setThread k v).creg a b = s.creg a b := rfl
@[simp] theorem State.setThread_jmask (s : State) (k : Nat) (v : Option Thread) (a b : Nat) : (s.setThread k v).jmask a b = s.jmask a b := rfl
@[simp] theorem State.setThread_teamOf (s : State) (k : Nat) (v : Option Thread) (a : Nat) : (s.setThread k v).teamOf a = s.teamOf a := rfl
@[simp] theorem State.setThread_kern (s : State) (k : Nat) (v : Option Thread) (a : Nat) : (s.setThread k v).kern a = s.kern a := rfl
@[simp] theorem State.setThread_coreIdx (s : State) (k : Nat) (v : Option Thread) (a : Nat) : (s.setThread k v).coreIdx a = s.coreIdx a := rfl
@[simp] theorem State.setThread_lanesOf (s : State) (k : Nat) (v : Option Thread) (a : Nat) : (s.setThread k v).lanesOf a = s.lanesOf a := rfl
@[simp] theorem State.setThread_groupsOf (s : State) (k : Nat) (v : Option Thread) (a : Nat) : (s.setThread k v).groupsOf a = s.groupsOf a := rfl
@[simp] theorem State.setThread_tagOf (s : State) (k : Nat) (v : Option Thread) (a b : Nat) : (s.setThread k v).tagOf a b = s.tagOf a b := rfl
@[simp] theorem State.setThread_pairDone (s : State) (k : Nat) (v : Option Thread) (a b : Nat) : (s.setThread k v).pairDone a b = s.pairDone a b := rfl
@[simp] theorem State.setThread_nondetOk (s : State) (k : Nat) (v : Option Thread) (a : Nat) : (s.setThread k v).nondetOk a = s.nondetOk a := rfl

/-! ### setTag -/

@[simp] theorem State.setTag_g (s : State) (gk n : Nat) (v : Tag) : (s.setTag gk n v).g = s.g := rfl
@[simp] theorem State.setTag_e (s : State) (gk n : Nat) (v : Tag) : (s.setTag gk n v).e = s.e := rfl
@[simp] theorem State.setTag_o (s : State) (gk n : Nat) (v : Tag) : (s.setTag gk n v).o = s.o := rfl
@[simp] theorem State.setTag_x (s : State) (gk n : Nat) (v : Tag) : (s.setTag gk n v).x = s.x := rfl
@[simp] theorem State.setTag_l (s : State) (gk n : Nat) (v : Tag) : (s.setTag gk n v).l = s.l := rfl
@[simp] theorem State.setTag_h (s : State) (gk n : Nat) (v : Tag) : (s.setTag gk n v).h = s.h := rfl
@[simp] theorem State.setTag_d (s : State) (gk n : Nat) (v : Tag) : (s.setTag gk n v).d = s.d := rfl
@[simp] theorem State.setTag_f (s : State) (gk n : Nat) (v : Tag) : (s.setTag gk n v).f = s.f := rfl
@[simp] theorem State.setTag_r (s : State) (gk n : Nat) (v : Tag) : (s.setTag gk n v).r = s.r := rfl
@[simp] theorem State.setTag_w (s : State) (gk n : Nat) (v : Tag) : (s.setTag gk n v).w = s.w := rfl
@[simp] theorem State.setTag_iss (s : State) (gk n : Nat) (v : Tag) : (s.setTag gk n v).iss = s.iss := rfl
@[simp] theorem State.setTag_cur (s : State) (gk n : Nat) (v : Tag) : (s.setTag gk n v).cur = s.cur := rfl
@[simp] theorem State.setTag_turns (s : State) (gk n : Nat) (v : Tag) : (s.setTag gk n v).turns = s.turns := rfl
@[simp] theorem State.setTag_free (s : State) (gk n : Nat) (v : Tag) : (s.setTag gk n v).free = s.free := rfl
@[simp] theorem State.setTag_next (s : State) (gk n : Nat) (v : Tag) : (s.setTag gk n v).next = s.next := rfl
@[simp] theorem State.setTag_t_teams (s : State) (gk n : Nat) (v : Tag) : (s.setTag gk n v).t.teams = s.t.teams := rfl
@[simp] theorem State.setTag_t_scratch (s : State) (gk n : Nat) (v : Tag) : (s.setTag gk n v).t.scratch = s.t.scratch := rfl
@[simp] theorem State.setTag_t_acc (s : State) (gk n : Nat) (v : Tag) : (s.setTag gk n v).t.acc = s.t.acc := rfl
@[simp] theorem State.setTag_t_regions (s : State) (gk n : Nat) (v : Tag) : (s.setTag gk n v).t.regions = s.t.regions := rfl
@[simp] theorem State.setTag_t_slots (s : State) (gk n : Nat) (v : Tag) : (s.setTag gk n v).t.slots = s.t.slots := rfl
@[simp] theorem State.setTag_t_slotCode (s : State) (gk n : Nat) (v : Tag) : (s.setTag gk n v).t.slotCode = s.t.slotCode := rfl
@[simp] theorem State.setTag_t_slotScale (s : State) (gk n : Nat) (v : Tag) : (s.setTag gk n v).t.slotScale = s.t.slotScale := rfl
@[simp] theorem State.setTag_t_bars (s : State) (gk n : Nat) (v : Tag) : (s.setTag gk n v).t.bars = s.t.bars := rfl
@[simp] theorem State.setTag_t_landing (s : State) (gk n : Nat) (v : Tag) : (s.setTag gk n v).t.landing = s.t.landing := rfl
@[simp] theorem State.setTag_t_exact (s : State) (gk n : Nat) (v : Tag) : (s.setTag gk n v).t.exact = s.t.exact := rfl
@[simp] theorem State.setTag_t_pairDone (s : State) (gk n : Nat) (v : Tag) : (s.setTag gk n v).t.pairDone = s.t.pairDone := rfl
@[simp] theorem State.setTag_t_tagWrote (s : State) (gk n : Nat) (v : Tag) : (s.setTag gk n v).t.tagWrote = s.t.tagWrote := rfl
@[simp] theorem State.setTag_lane (s : State) (gk n : Nat) (v : Tag) (a : Nat) : (s.setTag gk n v).lane a = s.lane a := rfl
@[simp] theorem State.setTag_group (s : State) (gk n : Nat) (v : Tag) (a : Nat) : (s.setTag gk n v).group a = s.group a := rfl
@[simp] theorem State.setTag_team (s : State) (gk n : Nat) (v : Tag) (a : Nat) : (s.setTag gk n v).team a = s.team a := rfl
@[simp] theorem State.setTag_launchOf (s : State) (gk n : Nat) (v : Tag) (a : Nat) : (s.setTag gk n v).launchOf a = s.launchOf a := rfl
@[simp] theorem State.setTag_vreg (s : State) (gk n : Nat) (v : Tag) (a b c : Nat) : (s.setTag gk n v).vreg a b c = s.vreg a b c := rfl
@[simp] theorem State.setTag_sreg (s : State) (gk n : Nat) (v : Tag) (a b : Nat) : (s.setTag gk n v).sreg a b = s.sreg a b := rfl
@[simp] theorem State.setTag_creg (s : State) (gk n : Nat) (v : Tag) (a b : Nat) : (s.setTag gk n v).creg a b = s.creg a b := rfl
@[simp] theorem State.setTag_jmask (s : State) (gk n : Nat) (v : Tag) (a b : Nat) : (s.setTag gk n v).jmask a b = s.jmask a b := rfl
@[simp] theorem State.setTag_thread (s : State) (gk n : Nat) (v : Tag) (a : Nat) : (s.setTag gk n v).thread a = s.thread a := rfl
@[simp] theorem State.setTag_teamOf (s : State) (gk n : Nat) (v : Tag) (a : Nat) : (s.setTag gk n v).teamOf a = s.teamOf a := rfl
@[simp] theorem State.setTag_kern (s : State) (gk n : Nat) (v : Tag) (a : Nat) : (s.setTag gk n v).kern a = s.kern a := rfl
@[simp] theorem State.setTag_coreIdx (s : State) (gk n : Nat) (v : Tag) (a : Nat) : (s.setTag gk n v).coreIdx a = s.coreIdx a := rfl
@[simp] theorem State.setTag_lanesOf (s : State) (gk n : Nat) (v : Tag) (a : Nat) : (s.setTag gk n v).lanesOf a = s.lanesOf a := rfl
@[simp] theorem State.setTag_groupsOf (s : State) (gk n : Nat) (v : Tag) (a : Nat) : (s.setTag gk n v).groupsOf a = s.groupsOf a := rfl
@[simp] theorem State.setTag_pairDone (s : State) (gk n : Nat) (v : Tag) (a b : Nat) : (s.setTag gk n v).pairDone a b = s.pairDone a b := rfl
@[simp] theorem State.setTag_nondetOk (s : State) (gk n : Nat) (v : Tag) (a : Nat) : (s.setTag gk n v).nondetOk a = s.nondetOk a := rfl

/-! ### setPairDone -/

@[simp] theorem State.setPairDone_g (s : State) (gk n : Nat) (v : Word) : (s.setPairDone gk n v).g = s.g := rfl
@[simp] theorem State.setPairDone_e (s : State) (gk n : Nat) (v : Word) : (s.setPairDone gk n v).e = s.e := rfl
@[simp] theorem State.setPairDone_o (s : State) (gk n : Nat) (v : Word) : (s.setPairDone gk n v).o = s.o := rfl
@[simp] theorem State.setPairDone_x (s : State) (gk n : Nat) (v : Word) : (s.setPairDone gk n v).x = s.x := rfl
@[simp] theorem State.setPairDone_l (s : State) (gk n : Nat) (v : Word) : (s.setPairDone gk n v).l = s.l := rfl
@[simp] theorem State.setPairDone_h (s : State) (gk n : Nat) (v : Word) : (s.setPairDone gk n v).h = s.h := rfl
@[simp] theorem State.setPairDone_d (s : State) (gk n : Nat) (v : Word) : (s.setPairDone gk n v).d = s.d := rfl
@[simp] theorem State.setPairDone_f (s : State) (gk n : Nat) (v : Word) : (s.setPairDone gk n v).f = s.f := rfl
@[simp] theorem State.setPairDone_r (s : State) (gk n : Nat) (v : Word) : (s.setPairDone gk n v).r = s.r := rfl
@[simp] theorem State.setPairDone_w (s : State) (gk n : Nat) (v : Word) : (s.setPairDone gk n v).w = s.w := rfl
@[simp] theorem State.setPairDone_iss (s : State) (gk n : Nat) (v : Word) : (s.setPairDone gk n v).iss = s.iss := rfl
@[simp] theorem State.setPairDone_cur (s : State) (gk n : Nat) (v : Word) : (s.setPairDone gk n v).cur = s.cur := rfl
@[simp] theorem State.setPairDone_turns (s : State) (gk n : Nat) (v : Word) : (s.setPairDone gk n v).turns = s.turns := rfl
@[simp] theorem State.setPairDone_free (s : State) (gk n : Nat) (v : Word) : (s.setPairDone gk n v).free = s.free := rfl
@[simp] theorem State.setPairDone_next (s : State) (gk n : Nat) (v : Word) : (s.setPairDone gk n v).next = s.next := rfl
@[simp] theorem State.setPairDone_t_teams (s : State) (gk n : Nat) (v : Word) : (s.setPairDone gk n v).t.teams = s.t.teams := rfl
@[simp] theorem State.setPairDone_t_scratch (s : State) (gk n : Nat) (v : Word) : (s.setPairDone gk n v).t.scratch = s.t.scratch := rfl
@[simp] theorem State.setPairDone_t_acc (s : State) (gk n : Nat) (v : Word) : (s.setPairDone gk n v).t.acc = s.t.acc := rfl
@[simp] theorem State.setPairDone_t_regions (s : State) (gk n : Nat) (v : Word) : (s.setPairDone gk n v).t.regions = s.t.regions := rfl
@[simp] theorem State.setPairDone_t_slots (s : State) (gk n : Nat) (v : Word) : (s.setPairDone gk n v).t.slots = s.t.slots := rfl
@[simp] theorem State.setPairDone_t_slotCode (s : State) (gk n : Nat) (v : Word) : (s.setPairDone gk n v).t.slotCode = s.t.slotCode := rfl
@[simp] theorem State.setPairDone_t_slotScale (s : State) (gk n : Nat) (v : Word) : (s.setPairDone gk n v).t.slotScale = s.t.slotScale := rfl
@[simp] theorem State.setPairDone_t_tags (s : State) (gk n : Nat) (v : Word) : (s.setPairDone gk n v).t.tags = s.t.tags := rfl
@[simp] theorem State.setPairDone_t_bars (s : State) (gk n : Nat) (v : Word) : (s.setPairDone gk n v).t.bars = s.t.bars := rfl
@[simp] theorem State.setPairDone_t_landing (s : State) (gk n : Nat) (v : Word) : (s.setPairDone gk n v).t.landing = s.t.landing := rfl
@[simp] theorem State.setPairDone_t_exact (s : State) (gk n : Nat) (v : Word) : (s.setPairDone gk n v).t.exact = s.t.exact := rfl
@[simp] theorem State.setPairDone_t_tagWrote (s : State) (gk n : Nat) (v : Word) : (s.setPairDone gk n v).t.tagWrote = s.t.tagWrote := rfl
@[simp] theorem State.setPairDone_lane (s : State) (gk n : Nat) (v : Word) (a : Nat) : (s.setPairDone gk n v).lane a = s.lane a := rfl
@[simp] theorem State.setPairDone_group (s : State) (gk n : Nat) (v : Word) (a : Nat) : (s.setPairDone gk n v).group a = s.group a := rfl
@[simp] theorem State.setPairDone_team (s : State) (gk n : Nat) (v : Word) (a : Nat) : (s.setPairDone gk n v).team a = s.team a := rfl
@[simp] theorem State.setPairDone_launchOf (s : State) (gk n : Nat) (v : Word) (a : Nat) : (s.setPairDone gk n v).launchOf a = s.launchOf a := rfl
@[simp] theorem State.setPairDone_vreg (s : State) (gk n : Nat) (v : Word) (a b c : Nat) : (s.setPairDone gk n v).vreg a b c = s.vreg a b c := rfl
@[simp] theorem State.setPairDone_sreg (s : State) (gk n : Nat) (v : Word) (a b : Nat) : (s.setPairDone gk n v).sreg a b = s.sreg a b := rfl
@[simp] theorem State.setPairDone_creg (s : State) (gk n : Nat) (v : Word) (a b : Nat) : (s.setPairDone gk n v).creg a b = s.creg a b := rfl
@[simp] theorem State.setPairDone_jmask (s : State) (gk n : Nat) (v : Word) (a b : Nat) : (s.setPairDone gk n v).jmask a b = s.jmask a b := rfl
@[simp] theorem State.setPairDone_thread (s : State) (gk n : Nat) (v : Word) (a : Nat) : (s.setPairDone gk n v).thread a = s.thread a := rfl
@[simp] theorem State.setPairDone_teamOf (s : State) (gk n : Nat) (v : Word) (a : Nat) : (s.setPairDone gk n v).teamOf a = s.teamOf a := rfl
@[simp] theorem State.setPairDone_kern (s : State) (gk n : Nat) (v : Word) (a : Nat) : (s.setPairDone gk n v).kern a = s.kern a := rfl
@[simp] theorem State.setPairDone_coreIdx (s : State) (gk n : Nat) (v : Word) (a : Nat) : (s.setPairDone gk n v).coreIdx a = s.coreIdx a := rfl
@[simp] theorem State.setPairDone_lanesOf (s : State) (gk n : Nat) (v : Word) (a : Nat) : (s.setPairDone gk n v).lanesOf a = s.lanesOf a := rfl
@[simp] theorem State.setPairDone_groupsOf (s : State) (gk n : Nat) (v : Word) (a : Nat) : (s.setPairDone gk n v).groupsOf a = s.groupsOf a := rfl
@[simp] theorem State.setPairDone_tagOf (s : State) (gk n : Nat) (v : Word) (a b : Nat) : (s.setPairDone gk n v).tagOf a b = s.tagOf a b := rfl
@[simp] theorem State.setPairDone_nondetOk (s : State) (gk n : Nat) (v : Word) (a : Nat) : (s.setPairDone gk n v).nondetOk a = s.nondetOk a := rfl

/-! ### modLane -/

@[simp] theorem State.modLane_t (s : State) (k : Nat) (f : Lane → Lane) : (s.modLane k f).t = s.t := rfl
@[simp] theorem State.modLane_e (s : State) (k : Nat) (f : Lane → Lane) : (s.modLane k f).e = s.e := rfl
@[simp] theorem State.modLane_o (s : State) (k : Nat) (f : Lane → Lane) : (s.modLane k f).o = s.o := rfl
@[simp] theorem State.modLane_x (s : State) (k : Nat) (f : Lane → Lane) : (s.modLane k f).x = s.x := rfl
@[simp] theorem State.modLane_l (s : State) (k : Nat) (f : Lane → Lane) : (s.modLane k f).l = s.l := rfl
@[simp] theorem State.modLane_h (s : State) (k : Nat) (f : Lane → Lane) : (s.modLane k f).h = s.h := rfl
@[simp] theorem State.modLane_d (s : State) (k : Nat) (f : Lane → Lane) : (s.modLane k f).d = s.d := rfl
@[simp] theorem State.modLane_f (s : State) (k : Nat) (f : Lane → Lane) : (s.modLane k f).f = s.f := rfl
@[simp] theorem State.modLane_r (s : State) (k : Nat) (f : Lane → Lane) : (s.modLane k f).r = s.r := rfl
@[simp] theorem State.modLane_w (s : State) (k : Nat) (f : Lane → Lane) : (s.modLane k f).w = s.w := rfl
@[simp] theorem State.modLane_iss (s : State) (k : Nat) (f : Lane → Lane) : (s.modLane k f).iss = s.iss := rfl
@[simp] theorem State.modLane_cur (s : State) (k : Nat) (f : Lane → Lane) : (s.modLane k f).cur = s.cur := rfl
@[simp] theorem State.modLane_turns (s : State) (k : Nat) (f : Lane → Lane) : (s.modLane k f).turns = s.turns := rfl
@[simp] theorem State.modLane_free (s : State) (k : Nat) (f : Lane → Lane) : (s.modLane k f).free = s.free := rfl
@[simp] theorem State.modLane_next (s : State) (k : Nat) (f : Lane → Lane) : (s.modLane k f).next = s.next := rfl
@[simp] theorem State.modLane_g_groups (s : State) (k : Nat) (f : Lane → Lane) : (s.modLane k f).g.groups = s.g.groups := rfl
@[simp] theorem State.modLane_g_vreg (s : State) (k : Nat) (f : Lane → Lane) : (s.modLane k f).g.vreg = s.g.vreg := rfl
@[simp] theorem State.modLane_g_sreg (s : State) (k : Nat) (f : Lane → Lane) : (s.modLane k f).g.sreg = s.g.sreg := rfl
@[simp] theorem State.modLane_g_creg (s : State) (k : Nat) (f : Lane → Lane) : (s.modLane k f).g.creg = s.g.creg := rfl
@[simp] theorem State.modLane_g_jmask (s : State) (k : Nat) (f : Lane → Lane) : (s.modLane k f).g.jmask = s.g.jmask := rfl
@[simp] theorem State.modLane_group (s : State) (k : Nat) (f : Lane → Lane) (a : Nat) : (s.modLane k f).group a = s.group a := rfl
@[simp] theorem State.modLane_team (s : State) (k : Nat) (f : Lane → Lane) (a : Nat) : (s.modLane k f).team a = s.team a := rfl
@[simp] theorem State.modLane_launchOf (s : State) (k : Nat) (f : Lane → Lane) (a : Nat) : (s.modLane k f).launchOf a = s.launchOf a := rfl
@[simp] theorem State.modLane_vreg (s : State) (k : Nat) (f : Lane → Lane) (a b c : Nat) : (s.modLane k f).vreg a b c = s.vreg a b c := rfl
@[simp] theorem State.modLane_sreg (s : State) (k : Nat) (f : Lane → Lane) (a b : Nat) : (s.modLane k f).sreg a b = s.sreg a b := rfl
@[simp] theorem State.modLane_creg (s : State) (k : Nat) (f : Lane → Lane) (a b : Nat) : (s.modLane k f).creg a b = s.creg a b := rfl
@[simp] theorem State.modLane_jmask (s : State) (k : Nat) (f : Lane → Lane) (a b : Nat) : (s.modLane k f).jmask a b = s.jmask a b := rfl
@[simp] theorem State.modLane_thread (s : State) (k : Nat) (f : Lane → Lane) (a : Nat) : (s.modLane k f).thread a = s.thread a := rfl
@[simp] theorem State.modLane_teamOf (s : State) (k : Nat) (f : Lane → Lane) (a : Nat) : (s.modLane k f).teamOf a = s.teamOf a := rfl
@[simp] theorem State.modLane_kern (s : State) (k : Nat) (f : Lane → Lane) (a : Nat) : (s.modLane k f).kern a = s.kern a := rfl
@[simp] theorem State.modLane_coreIdx (s : State) (k : Nat) (f : Lane → Lane) (a : Nat) : (s.modLane k f).coreIdx a = s.coreIdx a := rfl
@[simp] theorem State.modLane_lanesOf (s : State) (k : Nat) (f : Lane → Lane) (a : Nat) : (s.modLane k f).lanesOf a = s.lanesOf a := rfl
@[simp] theorem State.modLane_groupsOf (s : State) (k : Nat) (f : Lane → Lane) (a : Nat) : (s.modLane k f).groupsOf a = s.groupsOf a := rfl
@[simp] theorem State.modLane_tagOf (s : State) (k : Nat) (f : Lane → Lane) (a b : Nat) : (s.modLane k f).tagOf a b = s.tagOf a b := rfl
@[simp] theorem State.modLane_pairDone (s : State) (k : Nat) (f : Lane → Lane) (a b : Nat) : (s.modLane k f).pairDone a b = s.pairDone a b := rfl
@[simp] theorem State.modLane_nondetOk (s : State) (k : Nat) (f : Lane → Lane) (a : Nat) : (s.modLane k f).nondetOk a = s.nondetOk a := rfl

/-! ### modGroup -/

@[simp] theorem State.modGroup_t (s : State) (k : Nat) (f : Group → Group) : (s.modGroup k f).t = s.t := rfl
@[simp] theorem State.modGroup_e (s : State) (k : Nat) (f : Group → Group) : (s.modGroup k f).e = s.e := rfl
@[simp] theorem State.modGroup_o (s : State) (k : Nat) (f : Group → Group) : (s.modGroup k f).o = s.o := rfl
@[simp] theorem State.modGroup_x (s : State) (k : Nat) (f : Group → Group) : (s.modGroup k f).x = s.x := rfl
@[simp] theorem State.modGroup_l (s : State) (k : Nat) (f : Group → Group) : (s.modGroup k f).l = s.l := rfl
@[simp] theorem State.modGroup_h (s : State) (k : Nat) (f : Group → Group) : (s.modGroup k f).h = s.h := rfl
@[simp] theorem State.modGroup_d (s : State) (k : Nat) (f : Group → Group) : (s.modGroup k f).d = s.d := rfl
@[simp] theorem State.modGroup_f (s : State) (k : Nat) (f : Group → Group) : (s.modGroup k f).f = s.f := rfl
@[simp] theorem State.modGroup_r (s : State) (k : Nat) (f : Group → Group) : (s.modGroup k f).r = s.r := rfl
@[simp] theorem State.modGroup_w (s : State) (k : Nat) (f : Group → Group) : (s.modGroup k f).w = s.w := rfl
@[simp] theorem State.modGroup_iss (s : State) (k : Nat) (f : Group → Group) : (s.modGroup k f).iss = s.iss := rfl
@[simp] theorem State.modGroup_cur (s : State) (k : Nat) (f : Group → Group) : (s.modGroup k f).cur = s.cur := rfl
@[simp] theorem State.modGroup_turns (s : State) (k : Nat) (f : Group → Group) : (s.modGroup k f).turns = s.turns := rfl
@[simp] theorem State.modGroup_free (s : State) (k : Nat) (f : Group → Group) : (s.modGroup k f).free = s.free := rfl
@[simp] theorem State.modGroup_next (s : State) (k : Nat) (f : Group → Group) : (s.modGroup k f).next = s.next := rfl
@[simp] theorem State.modGroup_g_lanes (s : State) (k : Nat) (f : Group → Group) : (s.modGroup k f).g.lanes = s.g.lanes := rfl
@[simp] theorem State.modGroup_g_vreg (s : State) (k : Nat) (f : Group → Group) : (s.modGroup k f).g.vreg = s.g.vreg := rfl
@[simp] theorem State.modGroup_g_sreg (s : State) (k : Nat) (f : Group → Group) : (s.modGroup k f).g.sreg = s.g.sreg := rfl
@[simp] theorem State.modGroup_g_creg (s : State) (k : Nat) (f : Group → Group) : (s.modGroup k f).g.creg = s.g.creg := rfl
@[simp] theorem State.modGroup_g_jmask (s : State) (k : Nat) (f : Group → Group) : (s.modGroup k f).g.jmask = s.g.jmask := rfl
@[simp] theorem State.modGroup_lane (s : State) (k : Nat) (f : Group → Group) (a : Nat) : (s.modGroup k f).lane a = s.lane a := rfl
@[simp] theorem State.modGroup_team (s : State) (k : Nat) (f : Group → Group) (a : Nat) : (s.modGroup k f).team a = s.team a := rfl
@[simp] theorem State.modGroup_launchOf (s : State) (k : Nat) (f : Group → Group) (a : Nat) : (s.modGroup k f).launchOf a = s.launchOf a := rfl
@[simp] theorem State.modGroup_vreg (s : State) (k : Nat) (f : Group → Group) (a b c : Nat) : (s.modGroup k f).vreg a b c = s.vreg a b c := rfl
@[simp] theorem State.modGroup_sreg (s : State) (k : Nat) (f : Group → Group) (a b : Nat) : (s.modGroup k f).sreg a b = s.sreg a b := rfl
@[simp] theorem State.modGroup_creg (s : State) (k : Nat) (f : Group → Group) (a b : Nat) : (s.modGroup k f).creg a b = s.creg a b := rfl
@[simp] theorem State.modGroup_jmask (s : State) (k : Nat) (f : Group → Group) (a b : Nat) : (s.modGroup k f).jmask a b = s.jmask a b := rfl
@[simp] theorem State.modGroup_thread (s : State) (k : Nat) (f : Group → Group) (a : Nat) : (s.modGroup k f).thread a = s.thread a := rfl

/-! ### modTeam -/

@[simp] theorem State.modTeam_g (s : State) (k : Nat) (f : Team → Team) : (s.modTeam k f).g = s.g := rfl
@[simp] theorem State.modTeam_e (s : State) (k : Nat) (f : Team → Team) : (s.modTeam k f).e = s.e := rfl
@[simp] theorem State.modTeam_o (s : State) (k : Nat) (f : Team → Team) : (s.modTeam k f).o = s.o := rfl
@[simp] theorem State.modTeam_x (s : State) (k : Nat) (f : Team → Team) : (s.modTeam k f).x = s.x := rfl
@[simp] theorem State.modTeam_l (s : State) (k : Nat) (f : Team → Team) : (s.modTeam k f).l = s.l := rfl
@[simp] theorem State.modTeam_h (s : State) (k : Nat) (f : Team → Team) : (s.modTeam k f).h = s.h := rfl
@[simp] theorem State.modTeam_d (s : State) (k : Nat) (f : Team → Team) : (s.modTeam k f).d = s.d := rfl
@[simp] theorem State.modTeam_f (s : State) (k : Nat) (f : Team → Team) : (s.modTeam k f).f = s.f := rfl
@[simp] theorem State.modTeam_r (s : State) (k : Nat) (f : Team → Team) : (s.modTeam k f).r = s.r := rfl
@[simp] theorem State.modTeam_w (s : State) (k : Nat) (f : Team → Team) : (s.modTeam k f).w = s.w := rfl
@[simp] theorem State.modTeam_iss (s : State) (k : Nat) (f : Team → Team) : (s.modTeam k f).iss = s.iss := rfl
@[simp] theorem State.modTeam_cur (s : State) (k : Nat) (f : Team → Team) : (s.modTeam k f).cur = s.cur := rfl
@[simp] theorem State.modTeam_turns (s : State) (k : Nat) (f : Team → Team) : (s.modTeam k f).turns = s.turns := rfl
@[simp] theorem State.modTeam_free (s : State) (k : Nat) (f : Team → Team) : (s.modTeam k f).free = s.free := rfl
@[simp] theorem State.modTeam_next (s : State) (k : Nat) (f : Team → Team) : (s.modTeam k f).next = s.next := rfl
@[simp] theorem State.modTeam_t_scratch (s : State) (k : Nat) (f : Team → Team) : (s.modTeam k f).t.scratch = s.t.scratch := rfl
@[simp] theorem State.modTeam_t_acc (s : State) (k : Nat) (f : Team → Team) : (s.modTeam k f).t.acc = s.t.acc := rfl
@[simp] theorem State.modTeam_t_regions (s : State) (k : Nat) (f : Team → Team) : (s.modTeam k f).t.regions = s.t.regions := rfl
@[simp] theorem State.modTeam_t_slots (s : State) (k : Nat) (f : Team → Team) : (s.modTeam k f).t.slots = s.t.slots := rfl
@[simp] theorem State.modTeam_t_slotCode (s : State) (k : Nat) (f : Team → Team) : (s.modTeam k f).t.slotCode = s.t.slotCode := rfl
@[simp] theorem State.modTeam_t_slotScale (s : State) (k : Nat) (f : Team → Team) : (s.modTeam k f).t.slotScale = s.t.slotScale := rfl
@[simp] theorem State.modTeam_t_tags (s : State) (k : Nat) (f : Team → Team) : (s.modTeam k f).t.tags = s.t.tags := rfl
@[simp] theorem State.modTeam_t_bars (s : State) (k : Nat) (f : Team → Team) : (s.modTeam k f).t.bars = s.t.bars := rfl
@[simp] theorem State.modTeam_t_landing (s : State) (k : Nat) (f : Team → Team) : (s.modTeam k f).t.landing = s.t.landing := rfl
@[simp] theorem State.modTeam_t_exact (s : State) (k : Nat) (f : Team → Team) : (s.modTeam k f).t.exact = s.t.exact := rfl
@[simp] theorem State.modTeam_t_pairDone (s : State) (k : Nat) (f : Team → Team) : (s.modTeam k f).t.pairDone = s.t.pairDone := rfl
@[simp] theorem State.modTeam_t_tagWrote (s : State) (k : Nat) (f : Team → Team) : (s.modTeam k f).t.tagWrote = s.t.tagWrote := rfl
@[simp] theorem State.modTeam_lane (s : State) (k : Nat) (f : Team → Team) (a : Nat) : (s.modTeam k f).lane a = s.lane a := rfl
@[simp] theorem State.modTeam_group (s : State) (k : Nat) (f : Team → Team) (a : Nat) : (s.modTeam k f).group a = s.group a := rfl
@[simp] theorem State.modTeam_launchOf (s : State) (k : Nat) (f : Team → Team) (a : Nat) : (s.modTeam k f).launchOf a = s.launchOf a := rfl
@[simp] theorem State.modTeam_vreg (s : State) (k : Nat) (f : Team → Team) (a b c : Nat) : (s.modTeam k f).vreg a b c = s.vreg a b c := rfl
@[simp] theorem State.modTeam_sreg (s : State) (k : Nat) (f : Team → Team) (a b : Nat) : (s.modTeam k f).sreg a b = s.sreg a b := rfl
@[simp] theorem State.modTeam_creg (s : State) (k : Nat) (f : Team → Team) (a b : Nat) : (s.modTeam k f).creg a b = s.creg a b := rfl
@[simp] theorem State.modTeam_jmask (s : State) (k : Nat) (f : Team → Team) (a b : Nat) : (s.modTeam k f).jmask a b = s.jmask a b := rfl
@[simp] theorem State.modTeam_thread (s : State) (k : Nat) (f : Team → Team) (a : Nat) : (s.modTeam k f).thread a = s.thread a := rfl
@[simp] theorem State.modTeam_lanesOf (s : State) (k : Nat) (f : Team → Team) (a : Nat) : (s.modTeam k f).lanesOf a = s.lanesOf a := rfl
@[simp] theorem State.modTeam_groupsOf (s : State) (k : Nat) (f : Team → Team) (a : Nat) : (s.modTeam k f).groupsOf a = s.groupsOf a := rfl

/-! ### modLaunch -/

@[simp] theorem State.modLaunch_g (s : State) (k : Nat) (f : Launch → Launch) : (s.modLaunch k f).g = s.g := rfl
@[simp] theorem State.modLaunch_t (s : State) (k : Nat) (f : Launch → Launch) : (s.modLaunch k f).t = s.t := rfl
@[simp] theorem State.modLaunch_e (s : State) (k : Nat) (f : Launch → Launch) : (s.modLaunch k f).e = s.e := rfl
@[simp] theorem State.modLaunch_o (s : State) (k : Nat) (f : Launch → Launch) : (s.modLaunch k f).o = s.o := rfl
@[simp] theorem State.modLaunch_x (s : State) (k : Nat) (f : Launch → Launch) : (s.modLaunch k f).x = s.x := rfl
@[simp] theorem State.modLaunch_h (s : State) (k : Nat) (f : Launch → Launch) : (s.modLaunch k f).h = s.h := rfl
@[simp] theorem State.modLaunch_d (s : State) (k : Nat) (f : Launch → Launch) : (s.modLaunch k f).d = s.d := rfl
@[simp] theorem State.modLaunch_f (s : State) (k : Nat) (f : Launch → Launch) : (s.modLaunch k f).f = s.f := rfl
@[simp] theorem State.modLaunch_r (s : State) (k : Nat) (f : Launch → Launch) : (s.modLaunch k f).r = s.r := rfl
@[simp] theorem State.modLaunch_w (s : State) (k : Nat) (f : Launch → Launch) : (s.modLaunch k f).w = s.w := rfl
@[simp] theorem State.modLaunch_iss (s : State) (k : Nat) (f : Launch → Launch) : (s.modLaunch k f).iss = s.iss := rfl
@[simp] theorem State.modLaunch_cur (s : State) (k : Nat) (f : Launch → Launch) : (s.modLaunch k f).cur = s.cur := rfl
@[simp] theorem State.modLaunch_turns (s : State) (k : Nat) (f : Launch → Launch) : (s.modLaunch k f).turns = s.turns := rfl
@[simp] theorem State.modLaunch_free (s : State) (k : Nat) (f : Launch → Launch) : (s.modLaunch k f).free = s.free := rfl
@[simp] theorem State.modLaunch_next (s : State) (k : Nat) (f : Launch → Launch) : (s.modLaunch k f).next = s.next := rfl
@[simp] theorem State.modLaunch_l_serials (s : State) (k : Nat) (f : Launch → Launch) : (s.modLaunch k f).l.serials = s.l.serials := rfl
@[simp] theorem State.modLaunch_l_ports (s : State) (k : Nat) (f : Launch → Launch) : (s.modLaunch k f).l.ports = s.l.ports := rfl
@[simp] theorem State.modLaunch_l_lastServed (s : State) (k : Nat) (f : Launch → Launch) : (s.modLaunch k f).l.lastServed = s.l.lastServed := rfl
@[simp] theorem State.modLaunch_l_bankrole (s : State) (k : Nat) (f : Launch → Launch) : (s.modLaunch k f).l.bankrole = s.l.bankrole := rfl
@[simp] theorem State.modLaunch_l_draining (s : State) (k : Nat) (f : Launch → Launch) : (s.modLaunch k f).l.draining = s.l.draining := rfl
@[simp] theorem State.modLaunch_l_det (s : State) (k : Nat) (f : Launch → Launch) : (s.modLaunch k f).l.det = s.l.det := rfl
@[simp] theorem State.modLaunch_l_own (s : State) (k : Nat) (f : Launch → Launch) : (s.modLaunch k f).l.own = s.l.own := rfl
@[simp] theorem State.modLaunch_l_checkpoints (s : State) (k : Nat) (f : Launch → Launch) : (s.modLaunch k f).l.checkpoints = s.l.checkpoints := rfl
@[simp] theorem State.modLaunch_l_current (s : State) (k : Nat) (f : Launch → Launch) : (s.modLaunch k f).l.current = s.l.current := rfl
@[simp] theorem State.modLaunch_l_serving (s : State) (k : Nat) (f : Launch → Launch) : (s.modLaunch k f).l.serving = s.l.serving := rfl
@[simp] theorem State.modLaunch_lane (s : State) (k : Nat) (f : Launch → Launch) (a : Nat) : (s.modLaunch k f).lane a = s.lane a := rfl
@[simp] theorem State.modLaunch_group (s : State) (k : Nat) (f : Launch → Launch) (a : Nat) : (s.modLaunch k f).group a = s.group a := rfl
@[simp] theorem State.modLaunch_team (s : State) (k : Nat) (f : Launch → Launch) (a : Nat) : (s.modLaunch k f).team a = s.team a := rfl
@[simp] theorem State.modLaunch_vreg (s : State) (k : Nat) (f : Launch → Launch) (a b c : Nat) : (s.modLaunch k f).vreg a b c = s.vreg a b c := rfl
@[simp] theorem State.modLaunch_sreg (s : State) (k : Nat) (f : Launch → Launch) (a b : Nat) : (s.modLaunch k f).sreg a b = s.sreg a b := rfl
@[simp] theorem State.modLaunch_creg (s : State) (k : Nat) (f : Launch → Launch) (a b : Nat) : (s.modLaunch k f).creg a b = s.creg a b := rfl
@[simp] theorem State.modLaunch_jmask (s : State) (k : Nat) (f : Launch → Launch) (a b : Nat) : (s.modLaunch k f).jmask a b = s.jmask a b := rfl
@[simp] theorem State.modLaunch_thread (s : State) (k : Nat) (f : Launch → Launch) (a : Nat) : (s.modLaunch k f).thread a = s.thread a := rfl
@[simp] theorem State.modLaunch_teamOf (s : State) (k : Nat) (f : Launch → Launch) (a : Nat) : (s.modLaunch k f).teamOf a = s.teamOf a := rfl
@[simp] theorem State.modLaunch_kern (s : State) (k : Nat) (f : Launch → Launch) (a : Nat) : (s.modLaunch k f).kern a = s.kern a := rfl
@[simp] theorem State.modLaunch_coreIdx (s : State) (k : Nat) (f : Launch → Launch) (a : Nat) : (s.modLaunch k f).coreIdx a = s.coreIdx a := rfl
@[simp] theorem State.modLaunch_lanesOf (s : State) (k : Nat) (f : Launch → Launch) (a : Nat) : (s.modLaunch k f).lanesOf a = s.lanesOf a := rfl
@[simp] theorem State.modLaunch_groupsOf (s : State) (k : Nat) (f : Launch → Launch) (a : Nat) : (s.modLaunch k f).groupsOf a = s.groupsOf a := rfl
@[simp] theorem State.modLaunch_tagOf (s : State) (k : Nat) (f : Launch → Launch) (a b : Nat) : (s.modLaunch k f).tagOf a b = s.tagOf a b := rfl
@[simp] theorem State.modLaunch_pairDone (s : State) (k : Nat) (f : Launch → Launch) (a b : Nat) : (s.modLaunch k f).pairDone a b = s.pairDone a b := rfl
@[simp] theorem State.modLaunch_nondetOk (s : State) (k : Nat) (f : Launch → Launch) (a : Nat) : (s.modLaunch k f).nondetOk a = s.nondetOk a := rfl

/-! ### What is written -/

theorem State.lane_setLane (s : State) (k : Nat) (v : Lane) (a : Nat) : (s.setLane k v).lane a = if a = k then v else s.lane a :=
  tget_tset _ _ _ _ _
theorem State.group_setGroup (s : State) (k : Nat) (v : Group) (a : Nat) :
    (s.setGroup k v).group a = if a = k then v else s.group a := tget_tset _ _ _ _ _
theorem State.team_setTeam (s : State) (k : Nat) (v : Team) (a : Nat) : (s.setTeam k v).team a = if a = k then v else s.team a :=
  tget_tset _ _ _ _ _
theorem State.launchOf_setLaunch (s : State) (k : Nat) (v : Launch) (a : Nat) :
    (s.setLaunch k v).launchOf a = if a = k then v else s.launchOf a := by
  unfold State.launchOf State.setLaunch
  simp only [tget_tset]
  by_cases h : a = k <;> simp [h]
theorem State.thread_setThread (s : State) (k : Nat) (v : Option Thread) (a : Nat) :
    (s.setThread k v).thread a = if a = k then v else s.thread a := tget_tset _ _ _ _ _
@[simp] theorem State.lane_setLane_same (s : State) (k : Nat) (v : Lane) : (s.setLane k v).lane k = v := by simp [lane_setLane]
@[simp] theorem State.group_setGroup_same (s : State) (k : Nat) (v : Group) : (s.setGroup k v).group k = v := by simp [group_setGroup]
@[simp] theorem State.team_setTeam_same (s : State) (k : Nat) (v : Team) : (s.setTeam k v).team k = v := by simp [team_setTeam]
@[simp] theorem State.launchOf_setLaunch_same (s : State) (k : Nat) (v : Launch) : (s.setLaunch k v).launchOf k = v := by
  simp [launchOf_setLaunch]
@[simp] theorem State.thread_setThread_same (s : State) (k : Nat) (v : Option Thread) : (s.setThread k v).thread k = v := by
  simp [thread_setThread]

theorem State.lane_modLane (s : State) (k : Nat) (f : Lane → Lane) (a : Nat) :
    (s.modLane k f).lane a = if a = k then f (s.lane a) else s.lane a := by
  unfold State.modLane
  rw [lane_setLane]
  by_cases h : a = k <;> simp [h]
theorem State.group_modGroup (s : State) (k : Nat) (f : Group → Group) (a : Nat) :
    (s.modGroup k f).group a = if a = k then f (s.group a) else s.group a := by
  unfold State.modGroup
  rw [group_setGroup]
  by_cases h : a = k <;> simp [h]
theorem State.team_modTeam (s : State) (k : Nat) (f : Team → Team) (a : Nat) :
    (s.modTeam k f).team a = if a = k then f (s.team a) else s.team a := by
  unfold State.modTeam
  rw [team_setTeam]
  by_cases h : a = k <;> simp [h]
theorem State.launchOf_modLaunch (s : State) (k : Nat) (f : Launch → Launch) (a : Nat) :
    (s.modLaunch k f).launchOf a = if a = k then f (s.launchOf a) else s.launchOf a := by
  unfold State.modLaunch
  rw [launchOf_setLaunch]
  by_cases h : a = k <;> simp [h]
@[simp] theorem State.lane_modLane_same (s : State) (k : Nat) (f : Lane → Lane) : (s.modLane k f).lane k = f (s.lane k) := by
  simp [lane_modLane]
@[simp] theorem State.group_modGroup_same (s : State) (k : Nat) (f : Group → Group) : (s.modGroup k f).group k = f (s.group k) := by
  simp [group_modGroup]
@[simp] theorem State.team_modTeam_same (s : State) (k : Nat) (f : Team → Team) : (s.modTeam k f).team k = f (s.team k) := by
  simp [team_modTeam]
@[simp] theorem State.launchOf_modLaunch_same (s : State) (k : Nat) (f : Launch → Launch) :
    (s.modLaunch k f).launchOf k = f (s.launchOf k) := by simp [launchOf_modLaunch]

/-! ### Keys -/

theorem vKey_inj (a n b m : Nat) (hn : n < 128) (hm : m < 128) : vKey a n = vKey b m ↔ a = b ∧ n = m := by
  unfold vKey; omega
theorem sKey_inj (a n b m : Nat) (hn : n < 16) (hm : m < 16) : sKey a n = sKey b m ↔ a = b ∧ n = m := by
  unfold sKey; omega
theorem cKey_inj (a n b m : Nat) (hn : n < 8) (hm : m < 8) : cKey a n = cKey b m ↔ a = b ∧ n = m := by
  unfold cKey; omega
theorem lkOf_inj (gk a b : Nat) : lkOf gk a = lkOf gk b ↔ a = b := by
  unfold lkOf; omega

theorem State.vreg_setV (s : State) (gk l n : Nat) (v : Word) (k : Nat) :
    tget 0 (s.setV gk l n v).g.vreg k = if k = vKey (lkOf gk l) n then v else tget 0 s.g.vreg k := tget_tset _ _ _ _ _
theorem State.sreg_setS (s : State) (gk n : Nat) (v : Word) (k : Nat) :
    tget 0 (s.setS gk n v).g.sreg k = if k = sKey gk n then v else tget 0 s.g.sreg k := tget_tset _ _ _ _ _
theorem State.creg_setC (s : State) (gk n : Nat) (v : Cap) (k : Nat) :
    tget 0 (s.setC gk n v).g.creg k = if k = cKey gk n then v else tget 0 s.g.creg k := tget_tset _ _ _ _ _
theorem State.jmask_setJ (s : State) (gk n : Nat) (v : DWord) (k : Nat) :
    tget 0 (s.setJ gk n v).g.jmask k = if k = cKey gk n then v else tget 0 s.g.jmask k := tget_tset _ _ _ _ _
@[simp] theorem State.vreg_setV_same (s : State) (gk l n : Nat) (v : Word) : (s.setV gk l n v).vreg gk l n = v :=
  tget_tset_same _ _ _ _
@[simp] theorem State.sreg_setS_same (s : State) (gk n : Nat) (v : Word) : (s.setS gk n v).sreg gk n = v := tget_tset_same _ _ _ _
@[simp] theorem State.creg_setC_same (s : State) (gk n : Nat) (v : Cap) : (s.setC gk n v).creg gk n = v := tget_tset_same _ _ _ _
@[simp] theorem State.jmask_setJ_same (s : State) (gk n : Nat) (v : DWord) : (s.setJ gk n v).jmask gk n = v := tget_tset_same _ _ _ _

end Sys2Proof.Machine
end

