-- ==== Sys2Proof/Laws/Words.lean ====
section
/-! SUPPORT. What the shared operations of lane words do: taking a trap in line, going on, writing a destination,
pushing a queue, and the words that compute a result for each lane. -/

namespace Sys2Proof.Machine

open Sys2Proof

/-! ### Changes of lanes -/

/-- A state with another table of lanes. -/
theorem State.modLane_eq (s : State) (k : Nat) (f : Lane → Lane) :
    s.modLane k f = { s with g := { s.g with lanes := (s.modLane k f).g.lanes } } := rfl

/-- Lanes of a group changed one after another. -/
def State.modLanes (s : State) (gk : Nat) (ls : List Nat) (f : Nat → Lane → Lane) : State :=
  ls.foldl (fun x l => x.modLane (lkOf gk l) (f l)) s

theorem State.modLanes_cons (s : State) (gk l : Nat) (ls : List Nat) (f : Nat → Lane → Lane) :
    s.modLanes gk (l :: ls) f = (s.modLane (lkOf gk l) (f l)).modLanes gk ls f := rfl

theorem State.modLanes_frame (s : State) (gk : Nat) (ls : List Nat) (f : Nat → Lane → Lane) :
    s.modLanes gk ls f = { s with g := { s.g with lanes := (s.modLanes gk ls f).g.lanes } } := by
  induction ls generalizing s with
  | nil => rfl
  | cons l ls ih => rw [modLanes_cons, ih]; rfl

theorem State.lane_modLanes (s : State) (gk : Nat) (ls : List Nat) (f : Nat → Lane → Lane) (h : ls.Nodup) (k : Nat) :
    (∀ l ∈ ls, k = lkOf gk l → (s.modLanes gk ls f).lane k = f l (s.lane k)) ∧
    ((∀ l ∈ ls, k ≠ lkOf gk l) → (s.modLanes gk ls f).lane k = s.lane k) := by
  induction ls generalizing s with
  | nil => simp [modLanes]
  | cons l ls ih =>
    rw [List.nodup_cons] at h
    obtain ⟨h1, h2⟩ := ih (s.modLane (lkOf gk l) (f l)) h.2
    rw [modLanes_cons]
    constructor
    · intro m hm hk
      rcases List.mem_cons.mp hm with rfl | hm
      · rw [h2 (fun m' hm' e => h.1 (by rw [(lkOf_inj gk _ _).mp (hk.symm.trans e)]; exact hm')), hk]
        simp
      · rw [h1 m hm hk, State.lane_modLane]
        have : k ≠ lkOf gk l := fun e => h.1 (by rw [(lkOf_inj gk _ _).mp (e.symm.trans hk)]; exact hm)
        simp [this]
    · intro hk
      rw [h2 (fun m hm => hk m (List.mem_cons_of_mem _ hm)), State.lane_modLane]
      simp [hk l (by simp)]

theorem lanes_nodup {ls : List Nat} (h : ls.Pairwise (· < ·)) : ls.Nodup := h.imp (fun h => Nat.ne_of_lt h)

/-- The lanes of an issue changed: what LanesBecome says. -/
theorem State.modLanes_become (s : State) (f : Nat → Lane → Lane) (h : s.iss.lanes.Pairwise (· < ·)) :
    LanesBecome s (s.modLanes s.iss.gk s.iss.lanes f) f :=
  ⟨fun l hl => (lane_modLanes s s.iss.gk s.iss.lanes f (lanes_nodup h) _).1 l hl rfl,
   fun k hk => (lane_modLanes s s.iss.gk s.iss.lanes f (lanes_nodup h) k).2 hk⟩

theorem State.advAll_eq (s : State) : s.advAll = s.modLanes s.iss.gk s.iss.lanes (fun _ => Lane.advance) := rfl

/-! ### Traps taken in line (R127) -/

theorem State.enterHandler_eq (s : State) (lk : Nat) (pc : Pc) (kind n : Nat) :
    s.enterHandler lk pc kind n = s.modLane lk (Handled pc kind n) := rfl

/-- A trap of a lane with a handler that it is not in enters that handler. -/
theorem State.raise_inLine (s : State) (lk : Nat) (pc : Pc) (f : FaultInfo) (k : Nat) (hk : trapKind f.code = some k)
    (hv : (s.lane lk).tvec ≠ 0) (hi : (s.lane lk).intrap = false) : s.raise lk pc f = s.modLane lk (Handled pc k f.n) := by
  unfold State.raise
  have hv' : ((s.lane lk).tvec != 0) = true := by simpa using hv
  simp only [hk, hi, hv', enterHandler_eq]
  rfl

/-- Every other fault parks the lane. -/
theorem State.raise_parks (s : State) (lk : Nat) (pc : Pc) (f : FaultInfo)
    (h : trapKind f.code = none ∨ (s.lane lk).tvec = 0 ∨ (s.lane lk).intrap = true) : s.raise lk pc f = s.park lk pc f := by
  unfold State.raise
  rcases h with h | h | h
  · simp [h]
  · cases hk : trapKind f.code <;> simp [h]
  · cases hk : trapKind f.code <;> simp [h]

/-- The results of a word taken by its lanes, when every trap is taken in line. -/
theorem State.finishWord_eq (s : State) (ls : List Nat) (res : Nat → LaneRes) (h : ls.Nodup)
    (hin : ∀ l ∈ ls, ∀ f, res l = .trap f → (trapKind f.code).isSome = true ∧ (s.lane (lkOf s.iss.gk l)).tvec ≠ 0 ∧
      (s.lane (lkOf s.iss.gk l)).intrap = false) :
    s.finishWord (ls.map (fun l => (l, res l))) = s.modLanes s.iss.gk ls (fun l => LaneAfter s.here (res l)) := by
  have gen : ∀ (ls : List Nat) (x : State), ls.Nodup → (∀ l ∈ ls, ∀ f, res l = .trap f → (trapKind f.code).isSome = true ∧
      (x.lane (lkOf s.iss.gk l)).tvec ≠ 0 ∧ (x.lane (lkOf s.iss.gk l)).intrap = false) →
      (ls.map (fun l => (l, res l))).foldl (fun x p => match p.2 with
        | .val _ => x.advLane (lkOf s.iss.gk p.1)
        | .trap f => x.raise (lkOf s.iss.gk p.1) { pkt := s.iss.pkt, slot := s.iss.slot } f) x =
      x.modLanes s.iss.gk ls (fun l => LaneAfter s.here (res l)) := by
    intro ls
    induction ls with
    | nil => intro x _ _; rfl
    | cons l ls ih =>
      intro x h hin
      rw [List.nodup_cons] at h
      rw [List.map_cons, List.foldl_cons, modLanes_cons]
      have step : (match (l, res l).2 with
          | .val _ => x.advLane (lkOf s.iss.gk (l, res l).1)
          | .trap f => x.raise (lkOf s.iss.gk (l, res l).1) { pkt := s.iss.pkt, slot := s.iss.slot } f) =
          x.modLane (lkOf s.iss.gk l) (LaneAfter s.here (res l)) := by
        cases hr : res l with
        | val ws => rfl
        | trap f =>
          obtain ⟨h1, h2, h3⟩ := hin l (by simp) f hr
          obtain ⟨k, hk⟩ := Option.isSome_iff_exists.mp h1
          have e := State.raise_inLine x (lkOf s.iss.gk l) s.here f k hk h2 h3
          show x.raise (lkOf s.iss.gk l) s.here f = _
          rw [e]
          congr 1
          funext y
          simp [LaneAfter, hk]
      rw [step]
      apply ih _ h.2
      intro m hm f hf
      have hne : lkOf s.iss.gk m ≠ lkOf s.iss.gk l := fun e => h.1 (by rw [← (lkOf_inj _ _ _).mp e]; exact hm)
      rw [State.lane_modLane, if_neg hne]
      exact hin m (by simp [hm]) f hf
  exact gen ls s h hin

/-! ### Destinations -/

theorem State.writeVs_frame (s : State) (gk l n : Nat) (ws : List Word) :
    s.writeVs gk l n ws = { s with g := { s.g with vreg := (s.writeVs gk l n ws).g.vreg } } := by
  induction ws generalizing s n with
  | nil => rfl
  | cons w ws ih => unfold State.writeVs; rw [ih]; rfl

theorem State.writeSs_frame (s : State) (gk n : Nat) (ws : List Word) :
    s.writeSs gk n ws = { s with g := { s.g with sreg := (s.writeSs gk n ws).g.sreg } } := by
  induction ws generalizing s n with
  | nil => rfl
  | cons w ws ih => unfold State.writeSs; rw [ih]; rfl

theorem State.vreg_writeVs (s : State) (gk l n : Nat) (ws : List Word) (hn : n + ws.length ≤ 128) (k r : Nat) (hr : r < 128) :
    tget 0 (s.writeVs gk l n ws).g.vreg (vKey k r) =
      if k = lkOf gk l ∧ n ≤ r ∧ r < n + ws.length then ws.getD (r - n) 0 else tget 0 s.g.vreg (vKey k r) := by
  induction ws generalizing s n with
  | nil =>
    have h0 : ¬ (k = lkOf gk l ∧ n ≤ r ∧ r < n + ([] : List Word).length) := by simp only [List.length_nil]; omega
    rw [if_neg h0]
    rfl
  | cons w ws ih =>
    simp only [List.length_cons] at hn
    unfold State.writeVs
    rw [ih _ _ (by omega), State.vreg_setV]
    by_cases hk : k = lkOf gk l
    · by_cases h0 : r = n
      · subst h0
        have h1 : ¬ (r + 1 ≤ r ∧ r < r + 1 + ws.length) := by omega
        simp [hk]
      · have hne : vKey (lkOf gk l) r ≠ vKey (lkOf gk l) n := by
          intro e; exact h0 ((vKey_inj _ _ _ _ hr (by omega)).mp e).2
        by_cases h1 : n ≤ r ∧ r < n + (ws.length + 1)
        · have h2 : n + 1 ≤ r ∧ r < n + 1 + ws.length := by omega
          obtain ⟨c, hc⟩ : ∃ c, r - n = c + 1 := ⟨r - n - 1, by omega⟩
          have hc' : r - (n + 1) = c := by omega
          simp [hk, h1, h2, hc, hc']
        · have h2 : ¬ (k = lkOf gk l ∧ n + 1 ≤ r ∧ r < n + 1 + ws.length) := by omega
          have h3 : ¬ (k = lkOf gk l ∧ n ≤ r ∧ r < n + (w :: ws).length) := by simp only [List.length_cons]; omega
          rw [if_neg h2, if_neg h3, hk, if_neg hne]
    · have hne : vKey k r ≠ vKey (lkOf gk l) n := by
        intro e; exact hk ((vKey_inj _ _ _ _ hr (by omega)).mp e).1
      simp [hk, hne]

theorem State.sreg_writeSs (s : State) (gk n : Nat) (ws : List Word) (hn : n + ws.length ≤ 16) (k r : Nat) (hr : r < 16) :
    (s.writeSs gk n ws).sreg k r =
      if k = gk ∧ n ≤ r ∧ r < n + ws.length then ws.getD (r - n) 0 else s.sreg k r := by
  induction ws generalizing s n with
  | nil =>
    have h0 : ¬ (k = gk ∧ n ≤ r ∧ r < n + ([] : List Word).length) := by simp only [List.length_nil]; omega
    rw [if_neg h0]
    rfl
  | cons w ws ih =>
    simp only [List.length_cons] at hn
    unfold State.writeSs
    rw [ih _ _ (by omega)]
    have hset : (s.setS gk n w).sreg k r = if sKey k r = sKey gk n then w else s.sreg k r := State.sreg_setS s gk n w _
    rw [hset]
    by_cases hk : k = gk
    · by_cases h0 : r = n
      · subst h0
        have h1 : ¬ (r + 1 ≤ r ∧ r < r + 1 + ws.length) := by omega
        simp [hk]
      · have hne : sKey gk r ≠ sKey gk n := by
          intro e; exact h0 ((sKey_inj _ _ _ _ hr (by omega)).mp e).2
        by_cases h1 : n ≤ r ∧ r < n + (ws.length + 1)
        · have h2 : n + 1 ≤ r ∧ r < n + 1 + ws.length := by omega
          obtain ⟨c, hc⟩ : ∃ c, r - n = c + 1 := ⟨r - n - 1, by omega⟩
          have hc' : r - (n + 1) = c := by omega
          simp [hk, h1, h2, hc, hc']
        · have h2 : ¬ (k = gk ∧ n + 1 ≤ r ∧ r < n + 1 + ws.length) := by omega
          have h3 : ¬ (k = gk ∧ n ≤ r ∧ r < n + (w :: ws).length) := by simp only [List.length_cons]; omega
          rw [if_neg h2, if_neg h3, hk, if_neg hne]
    · have hne : sKey k r ≠ sKey gk n := by
        intro e; exact hk ((sKey_inj _ _ _ _ hr (by omega)).mp e).1
      simp [hk, hne]

/-- Writing the v registers of several lanes. -/
theorem State.foldV (s : State) (gk n : Nat) (ls : List Nat) (res : Nat → LaneRes)
    (hn : ∀ l ∈ ls, n + (resWords (res l)).length ≤ 128) :
    let x := (ls.map (fun l => (l, res l))).foldl
      (fun s p => match p.2 with | .val ws => s.writeVs gk p.1 n ws | .trap _ => s) s
    x = { s with g := { s.g with vreg := x.g.vreg } } ∧
    (∀ l ∈ ls, ∀ j, j < (resWords (res l)).length → x.vreg gk l (n + j) = (resWords (res l)).getD j 0) ∧
    (∀ k r, r < 128 → ¬ (∃ l ∈ ls, k = lkOf gk l ∧ n ≤ r ∧ r < n + (resWords (res l)).length) →
      tget 0 x.g.vreg (vKey k r) = tget 0 s.g.vreg (vKey k r)) := by
  induction ls generalizing s with
  | nil => exact ⟨rfl, by simp, fun _ _ _ _ => rfl⟩
  | cons l ls ih =>
    rw [List.map_cons]
    simp only [List.foldl_cons]
    have hw : (match res l with | .val ws => s.writeVs gk l n ws | .trap _ => s) = s.writeVs gk l n (resWords (res l)) := by
      cases res l <;> rfl
    rw [hw]
    obtain ⟨h1, h2, h3⟩ := ih (s.writeVs gk l n (resWords (res l))) (fun m hm => hn m (by simp [hm]))
    have hv := State.vreg_writeVs s gk l n (resWords (res l)) (hn l (by simp))
    refine ⟨?_, ?_, ?_⟩
    · rw [h1, State.writeVs_frame]
    · intro m hm j hj
      by_cases hml : m ∈ ls
      · exact h2 m hml j hj
      · have hm' : m = l := by simpa [hml] using hm
        subst hm'
        have hlen := hn m (by simp)
        have := h3 (lkOf gk m) (n + j) (by omega) (by
          rintro ⟨l', hl', e, _⟩
          exact hml (by rw [(lkOf_inj _ _ _).mp e]; exact hl'))
        show tget 0 _ (vKey (lkOf gk m) (n + j)) = _
        rw [this, hv _ _ (by omega)]
        simp [hj]
    · intro k r hr hk
      rw [h3 k r hr (fun ⟨l', hl', e⟩ => hk ⟨l', by simp [hl'], e⟩), hv k r hr]
      have h0 : ¬ (k = lkOf gk l ∧ n ≤ r ∧ r < n + (resWords (res l)).length) := fun e => hk ⟨l, by simp, e⟩
      rw [if_neg h0]

/-- A destination's registers lie within the v or s registers for results of at most `n` words. -/
def Fits (d : Opc) (n : Nat) : Prop := (isV d = true → d.toNat + n ≤ 128) ∧ (isS d = true → d.toNat - 96 + n ≤ 16)

theorem fits_one (d : Opc) : Fits d 1 := by
  unfold Fits isV isS
  constructor <;> intro h <;> simp at h <;> omega

theorem isS_of_isV {d : Opc} (h : isV d = true) : isS d = false := by
  unfold isV at h; unfold isS; simp at *; omega

/-- Writing a register destination. -/
theorem State.writeDst_holds (s : State) (d : Opc) (res : Nat → LaneRes) (n : Nat) (hn : s.iss.lanes ≠ [])
    (hf : Fits d n) (hl : ∀ l ∈ s.iss.lanes, (resWords (res l)).length ≤ n) :
    let x := s.writeDst s.iss.gk d (s.iss.lanes.map (fun l => (l, res l)))
    x = { s with g := { s.g with vreg := x.g.vreg, sreg := x.g.sreg } } ∧ DestHolds s x d res := by
  intro x
  by_cases hv : isV d = true
  · have hs := isS_of_isV hv
    have hx : x = (s.iss.lanes.map (fun l => (l, res l))).foldl
        (fun s' p => match p.2 with | .val ws => s'.writeVs s.iss.gk p.1 d.toNat ws | .trap _ => s') s := by
      show s.writeDst _ _ _ = _
      unfold State.writeDst
      exact if_pos hv
    obtain ⟨h1, h2, h3⟩ := State.foldV s s.iss.gk d.toNat s.iss.lanes res (fun l hm => by have := hf.1 hv; have := hl l hm; omega)
    rw [← hx] at h1 h2 h3
    refine ⟨?_, ?_, ?_, ?_, ?_⟩
    · rw [h1]
    · intro _ l hm j hj; exact h2 l hm j hj
    · intro k r hr hk
      apply h3 k r hr
      rintro ⟨l, hm, e⟩
      exact hk ⟨hv, l, hm, e⟩
    · intro hs'; rw [hs] at hs'; cases hs'
    · intro k r _ _
      show tget 0 x.g.sreg _ = tget 0 s.g.sreg _
      rw [h1]
  · have hv' : isV d = false := by simpa using hv
    cases hls : s.iss.lanes with
    | nil => exact absurd hls hn
    | cons a ls =>
      have hlow : s.low = a := by simp [State.low, hls]
      have hx : x = if isS d = true then s.writeSs s.iss.gk (d.toNat - 96) (resWords (res a)) else s := by
        show s.writeDst _ _ _ = _
        unfold State.writeDst
        rw [if_neg hv, hls, List.map_cons]
        cases hr : res a with
        | val ws => simp [resWords]
        | trap f => simp [resWords, State.writeSs]
      by_cases hs : isS d = true
      · rw [if_pos hs] at hx
        have hfit := hf.2 hs
        have hlen := hl a (by simp [hls])
        have hw := State.sreg_writeSs s s.iss.gk (d.toNat - 96) (resWords (res a)) (by omega)
        have hfr := State.writeSs_frame s s.iss.gk (d.toNat - 96) (resWords (res a))
        rw [← hx] at hfr
        refine ⟨?_, ?_, ?_, ?_, ?_⟩
        · rw [hfr]
        · intro h; rw [hv'] at h; cases h
        · intro k r _ _; rw [hfr]
        · intro _ j hj
          rw [hlow] at hj ⊢
          rw [hx, hw _ _ (by omega)]
          simp [hj]
        · intro k r hr hk
          rw [hx, hw k r hr]
          rw [hlow] at hk
          have h0 : ¬ (k = s.iss.gk ∧ d.toNat - 96 ≤ r ∧ r < d.toNat - 96 + (resWords (res a)).length) := fun e => hk ⟨hs, e⟩
          rw [if_neg h0]
      · rw [if_neg hs] at hx
        have hs' : isS d = false := by simpa using hs
        rw [hx]
        refine ⟨rfl, ?_, fun _ _ _ _ => rfl, ?_, fun _ _ _ _ => rfl⟩
        · intro h; rw [hv'] at h; cases h
        · intro h; rw [hs'] at h; cases h

/-! ### The frame of a lane word -/

/-- A lane word that meets its checks does its own effect, and takes its vector from q1. -/
theorem State.laneWord_eq (s : State) (i : Instr) (body : State → State) (h : Issues s i)
    (hb : popsQ1 i = true → ∀ l ∈ s.iss.lanes, ((body s).lane (lkOf s.iss.gk l)).atWord = false) :
    s.laneWord i body = if popsQ1 i then (body s).popQ1 s.iss.gk else body s := by
  obtain ⟨h0, _, h1, h2⟩ := h
  unfold State.laneWord
  by_cases hp : popsQ1 i = true
  · obtain ⟨hq, ht⟩ := h2 hp
    have he : (s.group s.iss.gk).q1.isEmpty = false := by
      cases hc : (s.group s.iss.gk).q1 with
      | nil => exact absurd hc hq
      | cons => rfl
    obtain ⟨a, ls, hls⟩ : ∃ a ls, s.iss.lanes = a :: ls := by
      cases hc : s.iss.lanes with
      | nil => exact absurd hc h0
      | cons a ls => exact ⟨a, ls, rfl⟩
    have ha : a ∈ s.iss.lanes := by simp [hls]
    have hall : s.iss.lanes.all (fun l => (s.lane (lkOf s.iss.gk l)).took.isSome) = false := by
      rw [hls]; simp [(ht a ha).1]
    have hall2 : s.iss.lanes.all (fun l => ((body s).lane (lkOf s.iss.gk l)).atWord) = false := by
      rw [hls]; simp [hb hp a ha]
    have hf : s.iss.lanes.filter (fun l => ((body s).lane (lkOf s.iss.gk l)).atWord) = [] := by
      rw [List.filter_eq_nil_iff]
      intro l hl
      simp [hb hp l hl]
    simp [h1, hp, he, hall, State.afterPop, hall2, hf]
  · simp [h1, hp]

theorem Lane.advance_atWord (l : Lane) : l.advance.atWord = l.atWord := by
  unfold Lane.advance
  cases l.resume <;> rfl

theorem laneAfter_atWord (pc : Pc) (r : LaneRes) (l : Lane) (h : l.atWord = false) : (LaneAfter pc r l).atWord = false := by
  unfold LaneAfter
  split
  · rw [Lane.advance_atWord, h]
  · split
    · unfold Handled Lane.atWord Lane.stillWaits
      rcases hs : l.st with _ | w | _ | _ | _ <;> simp
      cases w <;> simp
    · exact h

/-- Taking the vector changes the issuing group only. -/
theorem popped_group (s t : State) (i : Instr) (g : Group → Group) (hq : ∀ x : Group, ∀ q, (g { x with q1 := q }) = { g x with q1 := q })
    (hq1 : ∀ x : Group, (g x).q1 = x.q1) (h : GroupBecomes s t (g (s.group s.iss.gk))) :
    GroupBecomes s (if popsQ1 i then t.popQ1 s.iss.gk else t) (g (Popped s i)) := by
  intro k
  unfold Popped
  by_cases hp : popsQ1 i = true
  · rw [if_pos hp, if_pos hp]
    unfold State.popQ1
    rw [State.group_modGroup, h k]
    by_cases hk : k = s.iss.gk
    · simp only [hk, if_true]
      rw [hq1]
      exact (hq _ _).symm
    · simp [hk]
  · rw [if_neg hp, if_neg hp]
    exact h k

theorem popQ1_frame (t : State) (i : Instr) (gk : Nat) :
    (if popsQ1 i then t.popQ1 gk else t) =
      { t with g := { t.g with groups := (if popsQ1 i then t.popQ1 gk else t).g.groups } } := by
  by_cases h : popsQ1 i = true <;> simp [h] <;> rfl

theorem popQ1_lane (t : State) (i : Instr) (gk k : Nat) : (if popsQ1 i then t.popQ1 gk else t).lane k = t.lane k := by
  by_cases h : popsQ1 i = true <;> simp [h] <;> rfl

/-- A word that computes a result for each lane, with a register destination. -/
theorem State.compute_wrote (s : State) (i : Instr) (d : Opc) (res : Nat → LaneRes) (n : Nat) (h : Issues s i)
    (hin : InLine s res) (hd : isQ d = false) (hf : Fits d n) (hl : ∀ l ∈ s.iss.lanes, (resWords (res l)).length ≤ n) :
    Wrote s (s.compute i d res) i d res := by
  have hb : s.deliver d (s.iss.lanes.map (fun l => (l, res l))) =
      (s.writeDst s.iss.gk d (s.iss.lanes.map (fun l => (l, res l)))).finishWord (s.iss.lanes.map (fun l => (l, res l))) := by
    simp [State.deliver, State.deliverWith, hd]
  obtain ⟨hx, hdst⟩ := State.writeDst_holds s d res n h.1 hf hl
  generalize s.writeDst s.iss.gk d (s.iss.lanes.map (fun l => (l, res l))) = x at hb hx hdst
  have hiss : x.iss = s.iss := by rw [hx]
  have hlane : ∀ k, x.lane k = s.lane k := by intro k; rw [hx]; rfl
  have hgrp : ∀ k, x.group k = s.group k := by intro k; rw [hx]; rfl
  have hfin : x.finishWord (s.iss.lanes.map (fun l => (l, res l))) =
      x.modLanes s.iss.gk s.iss.lanes (fun l => LaneAfter s.here (res l)) := by
    have := State.finishWord_eq x s.iss.lanes res (lanes_nodup h.2.1) (by
      intro l hm f hf'
      rw [hiss, hlane]
      exact hin l hm f hf')
    have hh : x.here = s.here := by unfold State.here; rw [hiss]
    rw [this, hiss, hh]
  rw [hfin] at hb
  generalize hy : x.modLanes s.iss.gk s.iss.lanes (fun l => LaneAfter s.here (res l)) = y at hb
  have hyf : y = { x with g := { x.g with lanes := y.g.lanes } } := by rw [← hy]; exact State.modLanes_frame _ _ _ _
  have hyl : LanesBecome s y (fun l => LaneAfter s.here (res l)) := by
    rw [← hy]
    constructor
    · intro l hm
      rw [(State.lane_modLanes x s.iss.gk s.iss.lanes _ (lanes_nodup h.2.1) _).1 l hm rfl, hlane]
    · intro k hk
      rw [(State.lane_modLanes x s.iss.gk s.iss.lanes _ (lanes_nodup h.2.1) k).2 hk, hlane]
  have hyg : GroupBecomes s y (s.group s.iss.gk) := by
    intro k
    have : y.group k = x.group k := by rw [hyf]; rfl
    rw [this, hgrp]
    by_cases hk : k = s.iss.gk <;> simp [hk]
  have hw : s.compute i d res = if popsQ1 i then y.popQ1 s.iss.gk else y := by
    unfold State.compute
    rw [State.laneWord_eq s i _ h ?_, hb]
    intro hp l hm
    show ((s.deliver d _).lane _).atWord = false
    rw [hb, hyl.1 l hm]
    exact laneAfter_atWord _ _ _ ((h.2.2.2 hp).2 l hm).2
  rw [hw]
  have hv : ∀ k : Nat, (if popsQ1 i then y.popQ1 s.iss.gk else y).g.vreg = x.g.vreg := by
    intro _; rw [popQ1_frame, hyf]
  have hsr : (if popsQ1 i then y.popQ1 s.iss.gk else y).g.sreg = x.g.sreg := by rw [popQ1_frame, hyf]
  refine ⟨?_, ?_, ?_, ?_⟩
  · obtain ⟨D, hz⟩ : ∃ D, (if popsQ1 i then y.popQ1 s.iss.gk else y) = { y with g := { y.g with groups := D } } :=
      ⟨_, popQ1_frame y i s.iss.gk⟩
    obtain ⟨A, hyA⟩ : ∃ A, y = { x with g := { x.g with lanes := A } } := ⟨_, hyf⟩
    obtain ⟨B, C, hxB⟩ : ∃ B C, x = { s with g := { s.g with vreg := B, sreg := C } } := ⟨_, _, hx⟩
    rw [hz, hyA, hxB]
  · exact ⟨fun l hm => by rw [popQ1_lane]; exact hyl.1 l hm, fun k hk => by rw [popQ1_lane]; exact hyl.2 k hk⟩
  · exact popped_group s y i id (fun _ _ => rfl) (fun _ => rfl) hyg
  · refine ⟨?_, ?_, ?_, ?_⟩
    · intro h1 l hm j hj
      show tget 0 _ _ = _
      rw [hv 0]
      exact hdst.vHeld h1 l hm j hj
    · intro k r hr hk
      rw [hv 0]
      exact hdst.vKept k r hr hk
    · intro h1 j hj
      show tget 0 _ _ = _
      rw [hsr]
      exact hdst.sHeld h1 j hj
    · intro k r hr hk
      show tget 0 _ _ = _
      rw [hsr]
      exact hdst.sKept k r hr hk

theorem setQueue_q1 (g : Group) (c : Nat) (ws : List Word) : (g.setQueue c ws).q1 = g.q1 := by
  unfold Group.setQueue
  split <;> rfl

theorem setQueue_comm (g : Group) (c : Nat) (ws : List Word) (q : List (Tbl Word)) :
    ({ g with q1 := q } : Group).setQueue c ws = { g.setQueue c ws with q1 := q } := by
  unfold Group.setQueue
  split <;> rfl

/-- A push that completes no command. -/
theorem State.push_room (s : State) (d : Opc) (l : Nat) (v : Word) (hd : isQ d = true) (h : Room s d) :
    s.push s.iss.gk l d.toNat v = .ok (s.setGroup s.iss.gk ((s.group s.iss.gk).setQueue d.toNat
      ((s.group s.iss.gk).queue d.toNat ++ [v]))) := by
  obtain ⟨h1, h2, h3⟩ := h hd
  unfold State.push
  have h4 : (d.toNat == 114 && (s.group s.iss.gk).pair) = false := by
    by_cases e : d.toNat = 114
    · have : d = 114 := by apply BitVec.eq_of_toNat_eq; simpa using e
      simp [h3 this]
    · simp [e]
  have h5 : ((s.group s.iss.gk).queue d.toNat ++ [v]).length < queueSize d.toNat := by simpa using h2
  simp only [h4, h1, h5]
  simp

/-- A word that computes a result for each lane, with a queue register as its destination. -/
theorem State.compute_pushed (s : State) (i : Instr) (d : Opc) (res : Nat → LaneRes) (h : Issues s i)
    (hin : InLine s res) (hd : isQ d = true) (hr : Room s d) : Pushed s (s.compute i d res) i d res := by
  have key : ∃ x : State, x = { s with g := { s.g with groups := x.g.groups } } ∧
      GroupBecomes s x (WithPush s d res (s.group s.iss.gk)) ∧
      s.deliver d (s.iss.lanes.map (fun l => (l, res l))) = x.finishWord (s.iss.lanes.map (fun l => (l, res l))) := by
    cases hls : s.iss.lanes with
    | nil => exact absurd hls h.1
    | cons a ls =>
      have hlow : s.low = a := by simp [State.low, hls]
      cases hra : res a with
      | val ws =>
        refine ⟨s.setGroup s.iss.gk ((s.group s.iss.gk).setQueue d.toNat ((s.group s.iss.gk).queue d.toNat ++ [ws.headD 0])),
          rfl, ?_, ?_⟩
        · intro k
          rw [State.group_setGroup]
          simp [WithPush, hlow, hra]
        · simp only [State.deliver, State.deliverWith, hd, if_true, hls, List.map_cons, hra]
          rw [State.push_room s d a (ws.headD 0) hd hr]
          rfl
      | trap f =>
        refine ⟨s, rfl, ?_, ?_⟩
        · intro k
          simp only [WithPush, hlow, hra]
          by_cases hk : k = s.iss.gk <;> simp [hk]
        · simp only [State.deliver, State.deliverWith, hd, if_true, hls, List.map_cons, hra]
          rfl
  obtain ⟨x, hx, hgx, hb⟩ := key
  have hiss : x.iss = s.iss := by rw [hx]
  have hlane : ∀ k, x.lane k = s.lane k := by intro k; rw [hx]; rfl
  have hfin : x.finishWord (s.iss.lanes.map (fun l => (l, res l))) =
      x.modLanes s.iss.gk s.iss.lanes (fun l => LaneAfter s.here (res l)) := by
    have := State.finishWord_eq x s.iss.lanes res (lanes_nodup h.2.1) (by
      intro l hm f hf'
      rw [hiss, hlane]
      exact hin l hm f hf')
    have hh : x.here = s.here := by unfold State.here; rw [hiss]
    rw [this, hiss, hh]
  rw [hfin] at hb
  generalize hy : x.modLanes s.iss.gk s.iss.lanes (fun l => LaneAfter s.here (res l)) = y at hb
  have hyf : y = { x with g := { x.g with lanes := y.g.lanes } } := by rw [← hy]; exact State.modLanes_frame _ _ _ _
  have hyl : LanesBecome s y (fun l => LaneAfter s.here (res l)) := by
    rw [← hy]
    constructor
    · intro l hm
      rw [(State.lane_modLanes x s.iss.gk s.iss.lanes _ (lanes_nodup h.2.1) _).1 l hm rfl, hlane]
    · intro k hk
      rw [(State.lane_modLanes x s.iss.gk s.iss.lanes _ (lanes_nodup h.2.1) k).2 hk, hlane]
  have hyg : GroupBecomes s y (WithPush s d res (s.group s.iss.gk)) := by
    intro k
    have : y.group k = x.group k := by rw [hyf]; rfl
    rw [this]
    exact hgx k
  have hw : s.compute i d res = if popsQ1 i then y.popQ1 s.iss.gk else y := by
    unfold State.compute
    rw [State.laneWord_eq s i _ h ?_, hb]
    intro hp l hm
    show ((s.deliver d _).lane _).atWord = false
    rw [hb, hyl.1 l hm]
    exact laneAfter_atWord _ _ _ ((h.2.2.2 hp).2 l hm).2
  rw [hw]
  refine ⟨?_, ?_, ?_⟩
  · obtain ⟨D, hz⟩ : ∃ D, (if popsQ1 i then y.popQ1 s.iss.gk else y) = { y with g := { y.g with groups := D } } :=
      ⟨_, popQ1_frame y i s.iss.gk⟩
    obtain ⟨A, hyA⟩ : ∃ A, y = { x with g := { x.g with lanes := A } } := ⟨_, hyf⟩
    obtain ⟨B, hxB⟩ : ∃ B, x = { s with g := { s.g with groups := B } } := ⟨_, hx⟩
    rw [hz, hyA, hxB]
  · exact ⟨fun l hm => by rw [popQ1_lane]; exact hyl.1 l hm, fun k hk => by rw [popQ1_lane]; exact hyl.2 k hk⟩
  · refine popped_group s y i (WithPush s d res) ?_ ?_ hyg
    · intro g q
      unfold WithPush
      split
      · exact setQueue_comm _ _ _ _
      · rfl
    · intro g
      unfold WithPush
      split
      · exact setQueue_q1 _ _ _
      · rfl

/-- The words that compute one result for each lane run to their end. -/
theorem State.compute_computes (s : State) (i : Instr) (d : Opc) (res : Nat → LaneRes) (n : Nat) (h : Able s i d res)
    (he : exec i s = .next (s.compute i d res)) (hf : Fits d n) (hl : ∀ l ∈ s.iss.lanes, (resWords (res l)).length ≤ n) :
    Computes s i d res :=
  ⟨_, he, fun hd => State.compute_wrote s i d res n h.1 h.2.1 hd hf hl,
    fun hd => State.compute_pushed s i d res h.1 h.2.1 hd h.2.2⟩

end Sys2Proof.Machine
end

