-- ==== Sys2Proof/Tests/Slice0.lean ====
section
/-! SUPPORT. Tests: a word for every encoding, ill-formed terms, and for the statements with premises concrete states that
meet them. -/

set_option maxRecDepth 20000
set_option Elab.async false

namespace Sys2Proof.Tests

open Sys2Proof Sys2Proof.Machine

/-! ### Small states -/

/-- The group of the tests. -/
abbrev gk0 : Nat := gkOf 1 0

/-- A device with one team on core 0, of one group of 16 lanes; the given lanes are in issue. -/
def dev (lanes : List Nat) (g : Group) (l : Lane) (t : Team := {}) (k : Kern := {}) : State :=
  { State.reset with
    g := { lanes := lanes.map (fun n => (lkOf gk0 n, l)), groups := [(gk0, { g with tk := 1, width := 16, regs := 96 })] }
    t := { teams := [(1, { t with ln := 1, kern := k, cores := [0], scrBase := [0], accRegs := [[0, 1, 2, 3]], ngroups := 1, live := true })] }
    l := { launches := [(1, some { kern := k, st := .running, nextTeam := 1 })] }
    iss := { gk := gk0, lanes := lanes, words := 1, all := lanes, size := 1 }
    next := 100 }

/-- Two lanes in issue; the same with an in-line handler; with a vector in q1. -/
def two : State := dev [0, 1] {} { st := .ready }
def handled : State := dev [0, 1] {} { st := .ready, tvec := 64 } {} { flags := 31 }
def vector : State := dev [0, 1] { q1 := [[(0, 5)]] } { st := .ready }

/-- What Issues asks, as a value. -/
def issuesB (s : State) (i : Instr) : Bool := decide (s.iss.lanes ≠ [] ∧ s.iss.lanes.Pairwise (· < ·) ∧
  operandsOk (s.group s.iss.gk).regs i = true ∧ (popsQ1 i = true → (s.group s.iss.gk).q1 ≠ [] ∧
    ∀ l ∈ s.iss.lanes, (s.lane (lkOf s.iss.gk l)).took = none ∧ (s.lane (lkOf s.iss.gk l)).atWord = false))

theorem issues_of {s : State} {i : Instr} (h : issuesB s i = true) : Issues s i := by
  unfold Issues; exact of_decide_eq_true h

def roomB (s : State) (d : Opc) : Bool := decide (isQ d = true → s.queueHeld s.iss.gk d.toNat = false ∧
    ((s.group s.iss.gk).queue d.toNat).length + 1 < queueSize d.toNat ∧ (d = 114 → (s.group s.iss.gk).pair = false))

/-- A lane's result stays with the lane: a value, or a trap that its handler takes. -/
def inLineB (s : State) (res : Nat → LaneRes) : Bool := s.iss.lanes.all fun l => match res l with
  | .val _ => true
  | .trap f => (trapKind f.code).isSome && decide ((s.lane (lkOf s.iss.gk l)).tvec ≠ 0) &&
      !(s.lane (lkOf s.iss.gk l)).intrap

theorem inLine_of {s : State} {res : Nat → LaneRes} (h : inLineB s res = true) : InLine s res := by
  intro l hl f hf
  have := List.all_eq_true.mp h l hl
  simp only [hf, Bool.and_eq_true, decide_eq_true_eq, Bool.not_eq_true'] at this
  exact ⟨this.1.1, this.1.2, this.2⟩

theorem able_of {s : State} {i : Instr} {d : Opc} {res : Nat → LaneRes}
    (h : (issuesB s i && inLineB s res && roomB s d) = true) : Able s i d res := by
  simp only [Bool.and_eq_true] at h
  exact ⟨issues_of h.1.1, inLine_of h.1.2, by unfold Room; exact of_decide_eq_true h.2⟩

/-! ### Decoding: one word for every encoded instruction, from the places of its fields in Tables 3.2 to 3.5 -/

/-- Each lane word decodes to its instruction (no literal word follows). -/
def laneReads (l : List (Word × Instr)) : Bool := l.all fun p => (decodeLane p.1 0).toOption == some p.2
/-- Each M-word decodes to its instruction. -/
def mReads (l : List (Word × Instr)) : Bool := l.all fun p => (decodeM p.1).toOption == some p.2
/-- Each E-word decodes to its instruction. -/
def eReads (l : List (Word × Instr)) : Bool := l.all fun p => (decodeE p.1).toOption == some p.2

/-- Lane words with MAJ 0x00 to 0x03 (Tables 3.3, 3.4). -/
theorem test_decode_integer : laneReads [
  (0x80000000, .nop true), (0x00CEA071, .iadd false 51 84 7), (0x01146AF2, .isub false 69 13 47),
  (0x0104E053, .imul false 65 28 5), (0x00E1B094, .imulh false 56 54 9 .i), (0x011DB806, .ineg false 71 55),
  (0x01248007, .iabs false 73 16), (0x01468CB8, .imin false 81 81 75 .i), (0x801CE86A, .imax true 7 29 6 .i),
  (0x80D89C6C, .and true 54 19 70), (0x0129448D, .or false 74 40 72), (0x003A5CAE, .xor false 14 75 74),
  (0x00C0680F, .mov false 48 13), (0x03244500, .shl false 73 8 80), (0x0302C451, .shr false 64 88 69),
  (0x82A5E4B2, .sar true 41 60 75), (0x82BD3803, .clz true 47 39), (0x0262D004, .popc false 24 90)] = true := by decide +kernel

/-- Lane words with MAJ 0x00 to 0x03 (Tables 3.3, 3.4). -/
theorem test_decode_integer_2 : laneReads [
  (0x022E5005, .brev false 11 74), (0x831202C6, .iadd64 true 68 64 44), (0x829670A7, .shl64 true 37 78 10),
  (0x0309B16A, .icmp false 66 54 22 .ltI), (0x02FDB06E, .sel false 63 54 6), (0x05225290, .imad false 72 74 41),
  (0x85656CD1, .imadwI true 89 45 77), (0x852DD892, .imadwN true 75 59 9), (0x048DEDA3, .bfxN false 35 61 90),
  (0x0422F5A4, .bfxI false 8 94 90), (0x854E5585, .bfi true 83 74 88), (0x8696E322, .iaddBh true 37 92 50 .i16),
  (0x06F17164, .isubBh false 60 46 22 .i8), (0x8620E259, .iminBh true 8 28 37 .n8),
  (0x06CD9C0C, .imaxBh false 51 51 64 .i8)] = true := by decide +kernel

/-- Lane words with MAJ 0x04 to 0x07 (Tables 3.3, 3.4). -/
theorem test_decode_immediates : laneReads [
  (0x08E9A466, .iaddi false 58 52 1126), (0x884BC68E, .movi true 18 1678), (0x8B1D25A7, .andi true 71 36 1447),
  (0x8CBAC713, .ori true 46 88 1811), (0x8E78A0AA, .xori true 30 20 170)] = true := by decide +kernel

/-- Lane words with MAJ 0x08 to 0x0A (Tables 3.3, 3.4). -/
theorem test_decode_float : laneReads [
  (0x1050F551, .fadd false 20 30 85 .rz), (0x10FE6186, .fsub false 63 76 24 .ru),
  (0x90049B6A, .fmul true 1 19 54 .ru), (0x9046CC2C, .ffma true 17 89 66 .rne), (0x93624330, .fmin true 88 72 51),
  (0x92D198E1, .fmax true 52 51 14), (0x9349A002, .fabs true 82 52), (0x12644803, .fneg false 25 9),
  (0x12E4A8F6, .fcmp false 57 21 15 .le), (0x12380809, .frnd false 14 1 .rz), (0x12BE780C, .fclass false 47 79),
  (0x1428DCF8, .hadd2 false 10 27 79 .bf16), (0x15490AD9, .hmul2 false 82 33 45 .bf16),
  (0x94407BFA, .hfma2 true 16 15 63 .bf16), (0x94F940B3, .hmax2 true 62 40 11 .f16),
  (0x14B2FA2C, .fdot2h false 44 95 34 .bf16)] = true := by decide +kernel

/-- Lane words with MAJ 0x10 to 0x13 (Tables 3.3, 3.4). -/
theorem test_decode_special : laneReads [
  (0x210C1800, .rcp false 67 3), (0x21117801, .rsq false 68 47), (0x21663002, .sqrt false 89 70),
  (0x21113D33, .div false 68 39 83), (0x21691004, .exp2 false 90 34), (0xA0597005, .log2 true 22 46),
  (0x21163006, .sin false 69 70), (0xA148E807, .cos true 82 29), (0x207DA008, .tanh false 31 52),
  (0x206A1C09, .idivI false 26 67 64), (0xA178204A, .idivN true 94 4 4), (0xA0F5119B, .iremI true 61 34 25),
  (0xA0EAEADC, .iremN true 58 93 45), (0xA22CEA3A, .cvt true 11 29 .n8 .rz true .n64),
  (0x24B0DBE5, .cvtn false 44 27 62 5), (0x24FAA2DF, .cvtw false 62 84 45 7), (0x27548000, .smxupd false 85 16),
  (0xA770D001, .smxmrg true 92 26)] = true := by decide +kernel

/-- Lane words with MAJ 0x10 to 0x13 (Tables 3.3, 3.4). -/
theorem test_decode_special_2 : laneReads [
  (0xA65DC002, .smxfin true 23 56), (0xA6300003, .rand true 12), (0xA6F00004, .randn true 60)] = true := by decide +kernel

/-- Lane words with MAJ 0x14 to 0x17 (Tables 3.3, 3.4). -/
theorem test_decode_cross_lane : laneReads [
  (0xA82EE955, .shfl true 11 93 21 .s8 .up), (0x2A526007, .lred false 20 76 .fmax),
  (0x2D3E6817, .lscan false 79 77 true .fmax), (0xAE523801, .vote true 20 71 true),
  (0x2E0C1002, .voteBallot false 3 2), (0x2F109003, .matcheq false 68 18), (0xAE64E044, .bppack true 25 28 4),
  (0xAE713415, .bpunpack true 28 38 65), (0x2F315226, .bpdot false 76 42 34), (0xAE4445F7, .bpslice true 17 8 95)] = true := by decide +kernel

/-- Lane words with MAJ 0x18 to 0x1F (Tables 3.3, 3.4). -/
theorem test_decode_memory : laneReads [
  (0xB0EEADED, .ld true 59 85 5 14 .nol1 true), (0x3314A593, .ldNarrow false 69 20 5 9 .dflt .i16),
  (0x35380FD5, .st false 78 1 7 13 .stream .b16), (0x36F68624, .ldacq false 61 80 6 2 .sys),
  (0x36AAC59C, .strel false 42 88 5 9 .sys), (0xB83A4154, .atom true 14 72 1 .acq .gang .minN32),
  (0x3A360C90, .atomr false 13 65 4 9 .addB32), (0x3AE5559B, .cas false 57 42 5 9),
  (0x3B65249C, .atomrst false 89 36 4 9), (0xBD0506E8, .atomrOrdered true 65 32 6 .ar .dev .orB32),
  (0x3E000003, .fence false .dev), (0x3E000006, .otfence false true), (0xBE419C67, .cwb true 16 51 4 6),
  (0x3F58FC28, .cinv false 86 31 4 2), (0x3F593F29, .pref false 86 39 7 2), (0x3F729E6A, .stmc false 92 83 6 6),
  (0x3E84944B, .stredAddF32 false 33 18 4 4), (0x3ECDFABC, .stredAddB32 false 51 63 2 11)] = true := by decide +kernel

/-- Lane words with MAJ 0x18 to 0x1F (Tables 3.3, 3.4). -/
theorem test_decode_memory_2 : laneReads [
  (0x3E56DC9D, .stredMaxF32 false 21 91 4 9)] = true := by decide +kernel

/-- Lane words with MAJ 0x20 to 0x29 (Tables 3.3, 3.4). -/
theorem test_decode_engine : laneReads [
  (0xC0B44B80, .copy true 22 4 2 46), (0xC03660C1, .copy2d true 6 6 3 3), (0xC1208E42, .gather true 36 4 57),
  (0x40CB10C3, .scatter false 25 3 67), (0xC10903C5, .scatadd true 33 1 15 true),
  (0x41F92886, .chain false 63 1 1 34), (0xC218C001, .twait true 6 24 true), (0xC245B802, .tfirst true 17 55),
  (0xC2D0A003, .ttest true 52 20), (0xC202D004, .tclr true 90), (0xC2312005, .commit true 12 36),
  (0x4364C006, .qstat false 89 24), (0xC4291800, .launch true 10 35), (0x45486001, .lwait false 82 12),
  (0xC42E7002, .lstat true 11 78), (0x462BE400, .fbulk false 5 3 7 16), (0xC60B11C1, .fred true 1 3 71),
  (0xC7E3A442, .frlease true 60 3 5 17)] = true := by decide +kernel

/-- Lane words with MAJ 0x20 to 0x29 (Tables 3.3, 3.4). -/
theorem test_decode_engine_2 : laneReads [
  (0x480225B0, .arrset false 68 91), (0x48007801, .arrwait false 15), (0x50882600, .pairgo false 17 1 24),
  (0x50007441, .pairrelaunch false 3 81), (0xD2022001, .pairout true 68 true), (0x5299D002, .pairstat false 38 58)] = true := by decide +kernel

/-- Lane words with MAJ 0x2C to 0x2D (Tables 3.3, 3.4). -/
theorem test_decode_capability : laneReads [
  (0x580C1830, .capsub false 3 3 3), (0xD8040831, .caprestrict true 1 1 3), (0x59082002, .caplen false 66 4),
  (0x58E80803, .captype false 58 1), (0xD8182004, .capmov true 6 4), (0xDA154640, .ldcap true 5 40 6 4),
  (0x5A0CD7F1, .stcap false 3 26 7 15)] = true := by decide +kernel

/-- Lane words with MAJ 0x30 to 0x34 (Tables 3.3, 3.4). -/
theorem test_decode_control : laneReads [
  (0x600033CE, .br false 13262), (0xE01CEB23, .brz true 7 27427), (0x6009090E, .brnz false 2 2318),
  (0xE001B723, .call true 14115), (0x62004000, .brx false 8), (0x6202B001, .callx false 86), (0xE2000002, .ret true),
  (0xE2000003, .yield true), (0x62000004, .exit false), (0xE2003005, .waitc true 6), (0xE4010000, .enrol true 2),
  (0x64058000, .rejoin false 3), (0xE4088000, .strike true 1), (0xE6017AB0, .bar true 47 43),
  (0xE6802A81, .bararr true 32 5 40), (0x66B8C012, .barwait false 46 24 1), (0xE6C45BD3, .barinit true 49 11 61),
  (0xE906A000, .gangleave true 65 84)] = true := by decide +kernel

/-- Lane words with MAJ 0x30 to 0x34 (Tables 3.3, 3.4). -/
theorem test_decode_control_2 : laneReads [
  (0x68820801, .gangack false 32 65), (0x68311002, .gstat false 12 34), (0x68000003, .dphase false)] = true := by decide +kernel

/-- Lane words with MAJ 0x38 to 0x3E (Tables 3.3, 3.4). -/
theorem test_decode_system : laneReads [
  (0x70000000, .brk false), (0xF00004C1, .trap true 76), (0x70000332, .trapret false 51),
  (0x70013A73, .event false 39 39), (0x722C04B0, .sread false 11 75), (0x7202ADC1, .swrite false 85 92),
  (0xF4AAE800, .faultrec true 42 93), (0xF4512DD1, .lresume true 20 37 93), (0x741AE002, .lkill false 6 92),
  (0xF7783000, .ctxsave true 94 6), (0x77103801, .ctxload false 68 7)] = true := by decide +kernel

/-- M-words (Table 3.5, Table 8.4). -/
theorem test_decode_m_words : mReads [
  (0x06400049, .tclaim 9 73), (0x0B800003, .trelease 14 3), (0x0FAC280D, .tload 14 11 5 13),
  (0x1003C000, .tzero 15), (0x13000001, .tzeroSlot 12), (0x16F2C003, .tmma 11 12 11 true true),
  (0x18108802, .tdrain 4 2 1 2), (0x1CFFFFFF, .mbararr 3 4194303), (0x21AAAAAB, .mbarwait 6 2796203),
  (0x25C00001, .mloop 7 1), (0x28000000, .mend), (0x2E6AAAAB, .mset 9 2796203), (0x32EAAAAB, .madd 11 2796203),
  (0x36E40000, .mpost 11 9), (0x38000000, .mexit)] = true := by decide +kernel

/-- E-words (Table 3.5, Table 8.7). -/
theorem test_decode_e_words : eReads [
  (0x06D20000, .eadd 11 4 8), (0x09460000, .esub 5 1 8), (0x0F4B0000, .emul 13 2 12), (0x13E7C000, .efma 15 9 15),
  (0x164AC000, .emax 9 2 11), (0x1A4B0000, .emin 9 2 12), (0x1F200000, .etanh 12 8), (0x21740000, .eexp 5 13),
  (0x24B80000, .ercp 2 14), (0x29400000, .eldrow 5), (0x2D000000, .eldcol 4), (0x33341000, .ecvt 12 13 2),
  (0x34100000, .eamax 4), (0x3B2C0000, .esmx 12 11), (0x3C000000, .eend)] = true := by decide +kernel

/-- MOVL takes the literal word after it (R58, R61). -/
theorem test_decode_movl : (decodeLane 0x7C200000 0xFF800000).toOption = some (.movl 8 0xFF800000) := by decide +kernel

/-- Words that the manual's own program tables print (chapters 3 to 8, 13 to 15, 20, 21). -/
theorem test_decode_programs : laneReads [
  (0x800C0821, .iadd true 3 1 2), (0x30201920, .ld false 8 3 1 2 .dflt false), (0x10102868, .fmul false 4 5 6 .rne),
  (0x101C2050, .fadd false 7 4 5 .rne), (0x0A0FD003, .andi false 3 122 3), (0x080C1801, .iaddi false 3 3 1),
  (0x880C1FFF, .iaddi true 3 3 2047), (0x600D0000, .brnz false 3 0), (0x340BD102, .st false 2 122 1 0 .dflt .b32),
  (0x62000004, .exit false), (0x0204103A, .icmp false 1 2 3 .ltI), (0x1014307D, .ffma false 5 6 7 .rz),
  (0x22081880, .cvt false 2 3 .f16 .rne false .f32), (0x22100BB0, .cvt false 4 1 .i32 .rz true .f32),
  (0x24080F81, .cvtn false 2 1 120 1), (0x26200800, .smxupd false 8 1), (0x26304002, .smxfin false 12 8),
  (0x58100E20, .capsub false 4 1 98), (0x2810182A, .shfl false 4 3 2 .s16 .down),
  (0x2A182801, .lred false 6 5 .fadd), (0x2E200803, .matcheq false 8 1), (0x64000000, .enrol false 0)] = true := by decide +kernel

/-- Words that the manual's own program tables print (chapters 3 to 8, 13 to 15, 20, 21). -/
theorem test_decode_programs_2 : laneReads [
  (0x60050002, .brnz false 1 2), (0x2A0C1000, .lred false 3 2 .iadd), (0x64040000, .rejoin false 0),
  (0x0993C040, .movi false 100 64), (0x40191800, .copy false 3 1 0 96), (0x42073001, .twait false 1 102 true),
  (0x300BC900, .ld false 2 121 1 0 .dflt false), (0x38081920, .atom false 2 3 1 .rlx .dev .addB32),
  (0x50283800, .pairgo false 5 1 96), (0x52004000, .pairout false 8 false), (0x61ED0002, .brnz false 123 2),
  (0x66000803, .barinit false 0 1 0), (0x36041909, .strel false 1 3 1 0 .team),
  (0x36081901, .ldacq false 2 3 1 0 .team), (0x2C488010, .lscan false 18 16 true .iadd),
  (0x3A605900, .atomr false 24 11 1 0 .addB32), (0x3604120A, .strel false 1 2 2 0 .gang),
  (0x36101102, .ldacq false 4 2 1 0 .gang), (0x58180E80, .capsub false 6 1 104), (0x50103800, .pairgo false 2 1 96),
  (0x74041000, .faultrec false 1 2), (0x62003005, .waitc false 6)] = true := by decide +kernel

/-- Words that the manual's own program tables print (chapters 3 to 8, 13 to 15, 20, 21). -/
theorem test_decode_programs_3 : laneReads [
  (0x50003A01, .pairrelaunch false 1 104), (0x58282802, .caplen false 10 5), (0x204480F3, .div false 17 16 15),
  (0x20488802, .sqrt false 18 17), (0x5200A000, .pairout false 20 false), (0x62000003, .yield false),
  (0x61948000, .brz false 101 0), (0x35E7C902, .st false 121 121 1 0 .dflt .b32),
  (0x5A0BC000, .ldcap false 2 120 0 0), (0x40019A01, .copy2d false 0 1 4 104), (0x5A174301, .stcap false 5 104 3 0),
  (0x4460A800, .launch false 24 21), (0x4458C001, .lwait false 22 24), (0x12080802, .fabs false 2 1),
  (0x2BA01007, .lred false 104 2 .fmax), (0x460BB902, .frlease false 1 3 5 100), (0x46131A01, .fred false 2 3 104),
  (0x36201D04, .ldacq false 8 3 5 0 .sys), (0x023870DC, .icmp false 14 14 13 .ltN),
  (0x003060EA, .imax false 12 12 14 .i), (0x3E301C0A, .stmc false 12 3 4 0)] = true := by decide +kernel

/-- M-words that the manual's kernel image prints. -/
theorem test_decode_kernel_image : mReads [
  (0x2C800001, .mset 2 1), (0x04400002, .tclaim 1 2), (0x20000000, .mbarwait 0 0), (0x0C4C0000, .tload 1 3 0 0),
  (0x10010000, .tzero 4), (0x14490001, .tmma 1 2 4 false true), (0x18150000, .tdrain 5 4 0 0),
  (0x1D800001, .mbararr 6 1), (0x38000000, .mexit)] = true := by decide +kernel

/-- E-words that the manual's kernel image prints. -/
theorem test_decode_epilogue : eReads [
  (0x04004000, .eadd 0 0 1), (0x3C000000, .eend)] = true := by decide +kernel

/-- Words the manual leaves unallocated are refused: an empty MAJ, a MIN with no row, a fixed field that is not 0, a float
format as the destination of a saturating CVT (R54, R62 check 1, R90). -/
theorem test_decode_refuses : [0x7A000000, 0x0000001F, 0x00040000, 0x620000FF, 0x22000010].all
    (fun w => (decodeLane w 0).toOption == none) = true := by decide +kernel
theorem test_decode_refuses_m : [0x3C000000, 0x28000001, 0x38000001].all (fun w => (decodeM w).toOption == none) = true := by
  decide +kernel
theorem test_decode_refuses_e : [0x40000000, 0x3C000001].all (fun w => (decodeE w).toOption == none) = true := by
  decide +kernel

/-! ### Well-formed instructions -/

/-- IADDI with A = 120 is written MOVI (R80). -/
theorem test_wf_iaddi : Instr.wf (.iaddi false 3 120 7) = false ∧ Instr.wf (.iaddi false 3 119 7) = true := by decide
/-- CVT takes no SAT with a float destination (R90). -/
theorem test_wf_cvt : Instr.wf (.cvt false 3 1 .f16 .rne true .f32) = false ∧
    Instr.wf (.cvt false 3 1 .i8 .rne true .f32) = true := by decide
/-- ATOM has no EXCH, CAS and RST (R148). -/
theorem test_wf_atom : Instr.wf (.atom false 2 3 1 .rlx .dev .exch) = false ∧
    Instr.wf (.atom false 2 3 1 .rlx .dev .cas) = false ∧ Instr.wf (.atom false 2 3 1 .rlx .dev .rst) = false ∧
    Instr.wf (.atom false 2 3 1 .rlx .dev .addB32) = true := by decide
/-- A relaxed ATOMR with AOP 11 or 12 is written CAS or ATOMRST (R148). -/
theorem test_wf_atomr : Instr.wf (.atomr false 2 3 1 0 .cas) = false ∧ Instr.wf (.atomr false 2 3 1 0 .rst) = false ∧
    Instr.wf (.atomr false 2 3 1 0 .exch) = true := by decide
/-- An ordered ATOMR has an order (R148). -/
theorem test_wf_atomr_ordered : Instr.wf (.atomrOrdered false 2 3 1 .rlx .dev .addB32) = false ∧
    Instr.wf (.atomrOrdered false 2 3 1 .acq .dev .cas) = true := by decide

/-! ### Words that compute a result for each lane: the premises of Runs -/

open Sys2Proof.Claims

/-- The premises of the integer statements: a v destination, an s destination, a queue with room, a vector from q1. -/
theorem test_integer_forms_met :
    Able two (.iadd true 3 1 2) 3 (fun l => I ((two.src gk0 l 1).toInt + (two.src gk0 l 2).toInt)) ∧
    Able two (.sel false 96 97 98) 96 (fun l => .w (if (two.src gk0 l 96).toNat ≠ 0 then two.src gk0 l 97 else two.src gk0 l 98)) ∧
    Able two (.mov false 112 5) 112 (fun l => .w (two.src gk0 l 5)) ∧
    Able vector (.iabs false 94 113) 94 (fun l => I ((vector.src gk0 l 113).toInt.natAbs : Int)) ∧
    Able two (.iadd64 false 94 0 2) 94 (fun l => I64 ((two.src64 gk0 l 0).toInt + (two.src64 gk0 l 2).toInt)) ∧
    Able two (.imad false 3 1 2) 3 (fun l => I ((two.src gk0 l 1).toInt * (two.src gk0 l 2).toInt + (two.src gk0 l 3).toInt)) ∧
    Able two (.iaddi false 3 1 7) 3 (fun l => I ((two.src gk0 l 1).toInt + (7 : BitVec 11).toInt)) ∧
    Able two (.movl 3 9) 3 (fun _ => .w 9) ∧ Issues two (.nop true) :=
  ⟨able_of (by decide +kernel), able_of (by decide +kernel), able_of (by decide +kernel), able_of (by decide +kernel),
   able_of (by decide +kernel), able_of (by decide +kernel), able_of (by decide +kernel), able_of (by decide +kernel),
   issues_of (by decide +kernel)⟩

/-- The premises of the float statements: no trap with the mask clear, and a trap that a handler takes (R34, R127). -/
theorem test_float_forms_met :
    Able two (.fadd false 3 1 2 .rne) 3 (fun l => fpRes two.fl (once f32 .rne two.nbv
      [(two.src gk0 l 1).toNat, (two.src gk0 l 2).toNat]
      ((f32.val (two.src gk0 l 1).toNat).add .rne (f32.val (two.src gk0 l 2).toNat)))) ∧
    Able handled (.rcp false 3 1) 3 (fun l => fpRes handled.fl (fRcp handled.nbv (handled.src gk0 l 1).toNat)) ∧
    fpRes handled.fl (fRcp handled.nbv (handled.src gk0 0 1).toNat) = .trap (.of fcFP_DIVZERO) :=
  ⟨able_of (by decide +kernel), able_of (by decide +kernel), by decide +kernel⟩

theorem test_half_forms_met : Able two (.hadd2 false 3 1 2 .f16) 3 (fun l => onHalves two.fl
    (once f16 .rne two.nbv [(two.src gk0 l 1).toNat % 2 ^ 16, (two.src gk0 l 2).toNat % 2 ^ 16]
      ((f16.val ((two.src gk0 l 1).toNat % 2 ^ 16)).add .rne (f16.val ((two.src gk0 l 2).toNat % 2 ^ 16))))
    (once f16 .rne two.nbv [(two.src gk0 l 1).toNat / 2 ^ 16, (two.src gk0 l 2).toNat / 2 ^ 16]
      ((f16.val ((two.src gk0 l 1).toNat / 2 ^ 16)).add .rne (f16.val ((two.src gk0 l 2).toNat / 2 ^ 16))))) :=
  able_of (by decide +kernel)

/-- NaN operands of each kind, and no NaN operand (Table 2.8). -/
theorem test_nan_results_met : (f32.isNan 0x7FC00001 = true ∧ f32.isSnan 0x7F800001 = true ∧ f32.isNan 0x3F800000 = false) ∧
    (f16.isNan 0x7E01 = true ∧ f16.isSnan 0x7C01 = true) ∧ (bf16.isNan 0x7FC1 = true ∧ bf16.isSnan 0x7F81 = true) ∧
    (∀ x ∈ [0x7FC00001, 0x3F800000], x < 2 ^ (f32.sign + 1)) ∧
    ([0x3F800000, 0x7FC00001] = [0x3F800000] ++ 0x7FC00001 :: [] ∧ ∀ y ∈ [0x3F800000], f32.isNan y = false) := by decide +kernel

/-- A zero divisor under the DZ bit, and another divisor (R87). -/
theorem test_integer_division_met :
    Able handled (.idivI false 3 1 2) 3 (fun l => divides handled.fl (handled.src gk0 l 2) 0xFFFFFFFF
      ((handled.src gk0 l 1).toInt.tdiv (handled.src gk0 l 2).toInt)) ∧
    divides handled.fl (handled.src gk0 0 2) 0xFFFFFFFF 0 = .trap (.of fcFP_DIVZERO) ∧
    Able two (.iremN false 3 1 2) 3 (fun l => divides two.fl (two.src gk0 l 2) (two.src gk0 l 1)
      (((two.src gk0 l 1).toNat % (two.src gk0 l 2).toNat : Nat) : Int)) :=
  ⟨able_of (by decide +kernel), by decide +kernel, able_of (by decide +kernel)⟩

theorem test_special_arguments_met : (f32.isNan 0x7FC00000 = true ∧ 0x7FC00000 < 2 ^ 32) ∧
    (2 ^ 31 < 0x80000001 ∧ 0xFF800000 ≤ f32.inf true) := by decide +kernel

/-- CVT from a float and between wide integers (R89). -/
theorem test_conversions_met :
    Able two (.cvt false 2 3 .i8 .rz true .f32) 2 (fun l => convert two.nbv two.fl .i8 .f32 .rz true (joinW 0 (two.src gk0 l 3))) ∧
    Able two (.cvt false 2 4 .i64 .rz false .i64) 2 (fun l => convert two.nbv two.fl .i64 .i64 .rz false (two.src64 gk0 l 4)) :=
  ⟨able_of (by decide +kernel), able_of (by decide +kernel)⟩

/-- Format slot f1 holds E4M3 with bias 7 (Table 2.3); f2 is empty. -/
def slotted : State := dev [0] {} { st := .ready } {} { slots := [0, 0xF430] }
theorem test_slot_conversions_met :
    (slotted.kern slotted.iss.gk).fmtEmpty 1 = false ∧ (slotted.kern slotted.iss.gk).fmtEmpty 2 = true ∧
    issuesB slotted (.cvtn false 2 1 120 1) = true ∧
    Able slotted (.cvtw false 2 1 120 1) 2 (fun l => fpRes slotted.fl (f32.round .rne
      (((slotted.kern gk0).fmt 1).value ((slotted.src gk0 l 1).toNat % 2 ^ codeBits ((slotted.kern gk0).fmt 1))
        (scaleOf slotted l 120)))) :=
  ⟨by decide +kernel, by decide +kernel, by decide +kernel, able_of (by decide +kernel)⟩

theorem test_softmax_met : Able two (.smxupd false 8 1) 8 (fun l => merged two.nbv (two.src gk0 l 8).toNat
    (two.src gk0 l 9).toNat (two.src gk0 l 1).toNat 0x3F800000) := able_of (by decide +kernel)

/-- A pair lane whose next draw is its last, and one that has taken all (R100). -/
def drawsState (n : Word) : State := dev [0] { pair := true } { st := .ready, draws := n }
theorem test_random_met :
    (MayDraw (drawsState 1023) 1 ∧ MayDraw (drawsState 1022) 2 ∧ MayDraw two 2) ∧
    Able (drawsState 1023) (.rand false 3) 3 (fun l => .w (drawAt (drawsState 1023) l (drawn (drawsState 1023) l))) ∧
    (Issues (drawsState 1024) (.rand false 3) ∧ (drawsState 1024).iss.lanes = [0] ∧
      ((drawsState 1024).group gk0).pair = true ∧ drawn (drawsState 1024) 0 = 1024) :=
  ⟨by unfold MayDraw; decide +kernel, able_of (by decide +kernel),
   issues_of (by decide +kernel), by decide +kernel, by decide +kernel, by decide +kernel⟩

theorem test_shuffle_met : Able two (.shfl false 4 3 2 .s16 .down) 4 (fun l =>
    .w (if (shuffled .down 16 l (two.src gk0 l 2).toNat).2 = true ∧ (shuffled .down 16 l (two.src gk0 l 2).toNat).1 ∈ two.iss.lanes
      then two.src gk0 (shuffled .down 16 l (two.src gk0 l 2).toNat).1 3 else two.src gk0 l 3)) := able_of (by decide +kernel)

theorem test_lane_trees_met : Able two (.lred false 3 2 .iadd) 3 (fun _ =>
    treeOut two.fl (lredTree two.nbv .iadd (contributions two 2 .iadd))
      ((lredTree two.nbv .iadd (contributions two 2 .iadd)).xs.getD 0 0)) := able_of (by decide +kernel)

/-- Two lanes of which only lane 1 holds a value, and a mask that says so; plane counts of 1 (R115, R116). -/
def voters : State := { two with g := { two.g with vreg := [(vKey (lkOf gk0 0) 2, 1), (vKey (lkOf gk0 1) 1, 4), (vKey (lkOf gk0 1) 2, 1)] } }
theorem test_votes_met :
    Able voters (.vote false 3 1 true) 3 (fun _ => truth (∃ l ∈ voters.iss.lanes, voters.src gk0 l 1 ≠ 0)) ∧
    (∀ k, k < 64 → ((2 : DWord).getLsbD k = true ↔ k ∈ voters.iss.lanes ∧ voters.src gk0 k 1 ≠ 0)) ∧
    Able voters (.voteBallot false 4 1) 4 (fun _ => .d 2) ∧
    (∀ l ∈ voters.iss.lanes, 1 ≤ (voters.src gk0 l 2).toNat ∧ (voters.src gk0 l 2).toNat ≤ 8 ∧ ∀ k, k < 32 →
      ((0 : Word).getLsbD k = true ↔ k < (voters.src gk0 l 2).toNat ∧ (voters.src gk0 l 2).toNat - 1 - k ∈ voters.iss.lanes ∧
        (voters.src64 gk0 ((voters.src gk0 l 2).toNat - 1 - k) 4).getLsbD l = true)) :=
  ⟨able_of (by decide +kernel), by decide +kernel, able_of (by decide +kernel), by decide +kernel⟩

/-! ### Capability, control and system words -/

/-- A capability register c1 of the testing group. -/
def withCap (s : State) (n : Nat) (c : Cap) : State := { s with g := { s.g with creg := tset 0 s.g.creg (cKey gk0 n) c } }
def withV (s : State) (l n : Nat) (v : Word) : State := { s with g := { s.g with vreg := tset 0 s.g.vreg (vKey (lkOf gk0 l) n) v } }

def withS (s : State) (n : Nat) (v : Word) : State := { s with g := { s.g with sreg := tset 0 s.g.sreg (sKey gk0 n) v } }

/-- A memory capability to 4,096 bytes at 0 of object 5; a corrupted one; one of the unused type 9; one at the top of
an object's address space. -/
def memCap : Cap := mkCap 1 255 5 0 4096
def capped : State := withCap two 1 memCap
theorem test_capability_words_met : Usable (capped.creg gk0 1) ∧
    (Issues capped (.capsub false 2 1 98) ∧ Cap.type (capped.creg gk0 1) ≠ 0 ∧
      (capped.src64 gk0 0 98).toNat + (capped.src64 gk0 0 100).toNat ≤ Cap.len (capped.creg gk0 1) ∧
      Cap.base (capped.creg gk0 1) + (capped.src64 gk0 0 98).toNat + (capped.src64 gk0 0 100).toNat ≤ 2 ^ 40 ∧
      Cap.base (capped.creg gk0 1) + (capped.src64 gk0 0 98).toNat < 2 ^ 40) ∧
    Issues capped (.caprestrict false 2 1 98) ∧ Issues capped (.capmov false 2 1) ∧ Issues capped (.caplen false 10 1) ∧
    Issues capped (.captype false 96 1) ∧ isQ 10 = false ∧ isQ 96 = false :=
  ⟨by unfold Usable; decide +kernel, ⟨issues_of (by decide +kernel), by decide +kernel⟩, issues_of (by decide +kernel),
   issues_of (by decide +kernel), issues_of (by decide +kernel), issues_of (by decide +kernel), by decide, by decide⟩

theorem test_capability_faults_met :
    (capOk ((withCap two 1 (memCap ^^^ 1)).creg gk0 1) = false ∧ issuesB (withCap two 1 (memCap ^^^ 1)) (.capmov false 2 1) = true) ∧
    (capOk ((withCap two 1 (mkCap 9 0 0 0 0)).creg gk0 1) = true ∧ 9 ≤ Cap.type ((withCap two 1 (mkCap 9 0 0 0 0)).creg gk0 1) ∧
      issuesB (withCap two 1 (mkCap 9 0 0 0 0)) (.caplen false 10 1) = true) ∧
    (Cap.type (two.creg gk0 1) = 0 ∧ issuesB two (.capsub false 2 1 98) = true) ∧
    (Cap.len ((withS capped 4 4097).creg gk0 1) < ((withS capped 4 4097).src64 gk0 0 98).toNat +
      ((withS capped 4 4097).src64 gk0 0 100).toNat) := by decide +kernel
theorem test_capabilities_never_widen_met : ∃ t, exec (.capmov false 2 1) capped = .next t := ⟨_, rfl⟩
theorem test_capability_layout_met : capOk memCap = true ∧ (255 < 2 ^ 8 ∧ 5 < 2 ^ 24 ∧ 2 ^ 40 - 1 < 2 ^ 40) := by decide +kernel

theorem test_branches_met : issuesB two (.br false 3) = true ∧ issuesB two (.brz false 1 3) = true ∧
    issuesB two (.brnz false 101 3) = true ∧ issuesB two (.brx false 1) = true := by decide +kernel
/-- Lane 1 waits at j2, lane 0 does not; both bits are set. -/
theorem test_rejoin_met : ((two.group two.iss.gk).width ≤ 64 ∧ ∀ l ∈ two.iss.lanes, l < (two.group two.iss.gk).width) ∧
    issuesB two (.enrol false 2) = true ∧ issuesB two (.strike false 2) = true ∧ issuesB two (.rejoin false 2) = true := by
  decide +kernel
/-- Both cases of the release rule: no bit set, and a bit whose lane does not wait. -/
theorem test_release_met : AllParked two gk0 2 0 ∧ ¬ AllParked two gk0 2 1 := by
  refine ⟨fun l _ h => by simp at h, fun h => ?_⟩
  have := h 0 (by decide +kernel) (by decide)
  exact absurd this (by decide +kernel)
theorem test_yield_met : issuesB two (.yield false) = true ∧ issuesB two (.waitc false 6) = true := by decide +kernel
theorem test_exit_met : issuesB two (.exit false) = true ∧ (two.group two.iss.gk).pair = false ∧
    (two.group two.iss.gk).width ≤ 64 ∧ ∀ l ∈ two.iss.lanes, l < (two.group two.iss.gk).width := by decide +kernel

/-- A kernel with a handler role 1; the testing group is of role 0. -/
def guarded : State := dev [0, 1] {} { st := .ready } {} { handler := some 1, roles := [{ regs := 96, groups := 1, entry := 0 }, { regs := 8, groups := 1, entry := 9 }] }
theorem test_traps_met : (two.group (lkOf gk0 0 / 64)).pair = false ∧
    (trapNumber fcFP_DIVZERO = some 3 ∧ (handled.lane (lkOf gk0 0)).tvec ≠ 0 ∧ (handled.lane (lkOf gk0 0)).intrap = false) ∧
    (trapNumber fcCAP_NULL).isSome = false ∧ (two.lane (lkOf gk0 0)).tvec = 0 ∧
    QueuesFault guarded (lkOf gk0 0 / 64) ∧ ¬ QueuesFault two (lkOf gk0 0 / 64) := by
  refine ⟨by decide +kernel, by decide +kernel, by decide +kernel, by decide +kernel,
    ⟨1, by decide +kernel, by decide +kernel⟩, ?_⟩
  rintro ⟨r, h, -⟩
  have e : (two.kern (lkOf gk0 0 / 64)).handler = none := by decide +kernel
  rw [e] at h; cases h
theorem test_trap_word_met : issuesB handled (.trap false 9) = true ∧ ∀ l ∈ handled.iss.lanes,
    (handled.lane (lkOf handled.iss.gk l)).tvec ≠ 0 ∧ (handled.lane (lkOf handled.iss.gk l)).intrap = false := by decide +kernel
/-- Lanes in their handler with a saved PC; lanes outside one; a saved slot of 3. -/
def inTrap (tepc : Word) : State := dev [0, 1] {} { st := .ready, tvec := 64, tepc := tepc, intrap := true }
theorem test_trap_return_met : issuesB (inTrap 9) (.trapret false 1) = true ∧
    (∀ l ∈ (inTrap 9).iss.lanes, ((inTrap 9).lane (lkOf gk0 l)).intrap = true ∧ ((inTrap 9).lane (lkOf gk0 l)).tepc.toNat % 4 ≠ 3) ∧
    (∀ l ∈ two.iss.lanes, (two.lane (lkOf gk0 l)).intrap = false) ∧
    (∀ l ∈ (inTrap 3).iss.lanes, ((inTrap 3).lane (lkOf gk0 l)).tepc.toNat % 4 = 3) := by decide +kernel
/-- A comparator of core 0 enabled for context 0 makes the context debugged. -/
def debugged : State := { two with w := { two.w with cmps := [(0, BitVec.ofNat 64 (2 ^ 63))] } }
theorem test_brk_met : issuesB two (.brk false) = true ∧ two.debugged (two.group two.iss.gk).core (two.kern two.iss.gk).ctx = false ∧
    (∀ l ∈ two.iss.lanes, (two.lane (lkOf two.iss.gk l)).past = false ∧ l < 64) ∧
    debugged.debugged (debugged.group debugged.iss.gk).core (debugged.kern debugged.iss.gk).ctx = true ∧
    (∀ l ∈ (dev [0] {} { st := .ready, past := true }).iss.lanes,
      ((dev [0] {} { st := .ready, past := true }).lane (lkOf gk0 l)).past = true) := by decide +kernel
/-- An empty ring and a full one: two records, the producer one ahead. -/
def fullRing : State := { two with h := { two.h with evlen := 256, evprod := 1 } }
theorem test_event_met : issuesB two (.event false 1 5) = true ∧ two.evFull = false ∧ fullRing.evFull = true := by decide +kernel
/-- A listed special and an unlisted one, and the cycle counter of a deterministic launch with and without `.allow nondet`. -/
def deterministic (nondet : Bool) : State := dev [0] {} { st := .ready } {} { flags := 2, nondet := nondet }
theorem test_special_read_met :
    Able two (.sread false 3 37) 3 (fun _ => .w 16) ∧ (∀ l ∈ two.iss.lanes, specialValue two l 37 = some 16) ∧
    specialValue two two.low 8 = none ∧
    (issuesB (deterministic false) (.sread false 3 33) = true ∧ ((deterministic false).kern gk0).det = true ∧
      ((deterministic false).kern gk0).nondet = false) ∧ ((deterministic true).kern gk0).nondet = true := 
  ⟨able_of (by decide +kernel), by decide +kernel, by decide +kernel, by decide +kernel, by decide +kernel⟩
theorem test_special_write_met : issuesB two (.swrite false 1 32) = true ∧ (specialValue two two.low 32).isSome = true ∧
    specialValue two two.low 8 = none ∧ popsQ1 (.swrite false 1 8) = false := by decide +kernel

/-! ### Memory words -/

/-- A page entry that is valid, writable, accessed and written: frame 1 of D0. -/
def pageEntry : DWord := BitVec.ofNat 64 (2 ^ 63 + 2 ^ 56 + 2 ^ 55 + 2 ^ 54 + 1)
/-- Cached entries for object 5 of data and object 6 of capabilities, and capabilities: c1 to object 5, c2 to scratch, c3 to
the stacks in scratch, c4 to object 6, c5 to the gang's scratch. -/
def mapped (s : State) : State :=
  { s with
    x := { s.x with cache := [
      { place := 0, ctx := 0, obj := 5, page := 0, large := false, entry := pageEntry, addr := 0, otype := 1, dpol := 1, osize := 65536 },
      { place := 0, ctx := 0, obj := 6, page := 0, large := false, entry := pageEntry, addr := 0, otype := 2, dpol := 1, osize := 65536 }] }
    g := { s.g with creg := [(cKey gk0 1, memCap), (cKey gk0 2, mkCap 2 255 0 0 4096), (cKey gk0 3, mkCap 2 255 0 0 1024),
      (cKey gk0 4, mkCap 1 255 6 0 4096), (cKey gk0 5, mkCap 3 255 0 0 4096)] } }
def scratchy : Kern := { scratch := 4096, codelen := 12 }
def reach : State := mapped (dev [0, 1] {} { st := .ready } {} scratchy)
def alone : State := mapped (dev [0] {} { st := .ready } {} scratchy)

theorem mayAccess_of {s : State} {i : Instr} {q : Access} {one : Bool} {loc : Loc}
    (h : (issuesB s i && decide (∀ l ∈ s.iss.lanes, s.acqPending (lkOf s.iss.gk l) = false ∧
      (s.lane (lkOf s.iss.gk l)).resume = none) && !(s.kern s.iss.gk).det) = true)
    (hp : ∀ l ∈ accessors s one, Permitted s (s.heldCap s.iss.gk l q.cap) q.allow q.need (q.off s l) q.z)
    (hs : ∀ l ∈ accessors s one, StandsAt s q l loc) (hl : ∀ a, loc ≠ .host a) : MayAccess s i q one (fun _ => loc) := by
  simp only [Bool.and_eq_true, decide_eq_true_eq, Bool.not_eq_true'] at h
  exact ⟨issues_of h.1.1, fun l m => (h.1.2 l m).1, fun _ l m => (h.1.2 l m).2, fun _ _ _ _ _ _ => h.2, hp, hs,
    fun _ _ a e => absurd e (hl a)⟩

/-- A load of device memory and one of scratch; with an s destination one access is made; a narrow load; a store. -/
theorem test_loads_stores_met :
    MayAccess reach (.ld false 8 97 1 0 .dflt false)
      { cap := 1, z := 4, acc := .read, allow := anyType, need := 1, idx := 97, kind := fun _ => .load, val := fun _ => 0
        dst := landsIn 8 1 32 false } false (fun _ => .dev (hbmBase 0 + 65536) .wb false) ∧
    MayAccess reach (.ld false 100 97 2 0 .dflt true)
      { cap := 2, z := 8, acc := .read, allow := anyType, need := 1, idx := 97, kind := fun _ => .load, val := fun _ => 0
        dst := landsIn 100 2 32 false } true (fun _ => .scr 1 0) ∧
    MayAccess reach (.ldNarrow false 8 97 2 0 .nol1 .i8)
      { cap := 2, z := 1, acc := .read, allow := anyType, need := 1, idx := 97, kind := fun _ => .load, val := fun _ => 0
        dst := landsIn 8 1 8 true, nol1 := true } false (fun _ => .scr 1 0) ∧
    MayAccess alone (.st false 8 9 2 0 .dflt .b32)
      { cap := 2, z := 4, acc := .write, allow := anyType, need := 2, idx := 9, kind := fun _ => .store
        val := fun m => BitVec.ofNat 128 ((alone.src gk0 m 8).toNat % 2 ^ 32), dst := .none } false (fun _ => .scr 1 0) :=
  ⟨mayAccess_of (by decide +kernel) (by unfold Permitted; decide +kernel) (by unfold StandsAt; decide +kernel) (by simp),
   mayAccess_of (by decide +kernel) (by unfold Permitted; decide +kernel) (by unfold StandsAt; decide +kernel) (by simp),
   mayAccess_of (by decide +kernel) (by unfold Permitted; decide +kernel) (by unfold StandsAt; decide +kernel) (by simp),
   mayAccess_of (by decide +kernel) (by unfold Permitted; decide +kernel) (by unfold StandsAt; decide +kernel) (by simp)⟩

theorem test_acquire_release_met :
    MayAccess reach (.ldacq false 8 97 2 0 .team)
      { cap := 2, z := 4, acc := .read, allow := anyType, need := 1, idx := 97, kind := fun _ => .load, val := fun _ => 0
        dst := landsIn 8 1 32 false, acq := some .team, sync := some .team } false (fun _ => .scr 1 0) ∧
    MayAccess reach (.strel false 8 97 2 0 .sys)
      { cap := 2, z := 4, acc := .write, allow := anyType, need := 2, idx := 97, kind := fun _ => .store
        val := fun m => BitVec.ofNat 128 (reach.src gk0 m 8).toNat, dst := .none, rel := some .sys, sync := some .sys }
      false (fun _ => .scr 1 0) :=
  ⟨mayAccess_of (by decide +kernel) (by unfold Permitted; decide +kernel) (by unfold StandsAt; decide +kernel) (by simp),
   mayAccess_of (by decide +kernel) (by unfold Permitted; decide +kernel) (by unfold StandsAt; decide +kernel) (by simp)⟩

theorem test_atomics_met :
    MayAccess reach (.atom false 8 97 1 .rel .dev .addB64)
      { cap := 1, z := 8, acc := .atomic, allow := atomTypes, need := 8, idx := 97
        kind := fun m => .atomic .addB64 (operand reach .addB64 8 m) 0 false, val := fun m => (operand reach .addB64 8 m).setWidth 128
        dst := .none, rel := some .dev, sync := some .dev } false (fun _ => .dev (hbmBase 0 + 65536) .wb false) ∧
    MayAccess reach (.atomr false 8 97 2 0 .maxN32) (returning reach 8 97 2 .maxN32 none none none) false (fun _ => .scr 1 0) ∧
    MayAccess reach (.cas false 100 97 2 0) (returning reach 100 97 2 .cas none none none) true (fun _ => .scr 1 0) ∧
    MayAccess reach (.atomrst false 8 97 2 0) (returning reach 8 97 2 .rst none none none) false (fun _ => .scr 1 0) ∧
    MayAccess reach (.atomrOrdered false 8 97 2 .acq .team .exch) (returning reach 8 97 2 .exch (some .team) none (some .team))
      false (fun _ => .scr 1 0) := by
  refine ⟨?_, ?_, ?_, ?_, ?_⟩ <;>
    exact mayAccess_of (by decide +kernel) (by unfold Permitted; decide +kernel) (by unfold StandsAt; decide +kernel) (by simp)

theorem test_capability_memory_met :
    MayAccess reach (.ldcap false 6 97 4 0)
      { cap := 4, z := 16, acc := .read, allow := [1], need := 16, caps := true, idx := 97, kind := fun _ => .load
        val := fun _ => 0, dst := .c 6 } true (fun _ => .dev (hbmBase 0 + 65536) .wb false) ∧
    Usable (reach.creg gk0 1) ∧
    MayAccess reach (.stcap false 1 97 4 0)
      { cap := 4, z := 16, acc := .write, allow := [1], need := 32, caps := true, idx := 97, kind := fun _ => .store
        val := fun _ => reach.creg gk0 1, dst := .none } false (fun _ => .dev (hbmBase 0 + 65536) .wb false) := by
  refine ⟨?_, by unfold Usable; decide +kernel, ?_⟩ <;>
    exact mayAccess_of (by decide +kernel) (by unfold Permitted; decide +kernel) (by unfold StandsAt; decide +kernel) (by simp)

/-- Each step of R139 refuses some access of one lane: check byte, NULL, type, rights, bounds, alignment; the last byte is
granted. -/
theorem test_access_faults_met :
    (issuesB alone (.st false 8 97 1 0 .dflt .b32) = true ∧ popsQ1 (.st false 8 97 1 0 .dflt .b32) = false ∧
      (∀ m ∈ alone.iss.lanes, alone.acqPending (lkOf gk0 m) = false) ∧ alone.iss.lanes = [0]) ∧
    refused alone (memCap ^^^ 1) anyType 2 0 4 = some 0x0201 ∧ refused alone 0 anyType 2 0 4 = some 0x0203 ∧
    refused alone (mkCap 9 255 0 0 8) anyType 2 0 4 = some 0x0202 ∧ refused alone (mkCap 6 255 0 0 8) anyType 2 0 4 = some 0x0202 ∧
    refused alone (mkCap 1 1 5 0 8) anyType 2 0 4 = some 0x0204 ∧ refused alone memCap anyType 2 4096 4 = some 0x0205 ∧
    refused alone (mkCap 1 255 5 2 64) anyType 2 0 4 = some 0x0207 ∧ refused alone memCap anyType 2 4092 4 = none := by
  decide +kernel

/-- A gang of two members: a live one and one that is not there; the last bytes of a window and the byte after. -/
def ganged : State := dev [0] {} { st := .ready } {} { scratch := 4096, gang := 2 }
theorem test_where_bytes_met :
    Cap.type (mkCap 2 255 0 0 4096) = 2 ∧ Cap.type (mkCap 3 255 0 0 4096) = 3 ∧ Cap.type (mkCap 4 255 0 0 64) = 4 ∧
    Cap.type (mkCap 5 255 0 0 65536) = 5 ∧
    (0 / 2 ^ 24 < (ganged.team 1).kern.gang ∧ 4092 % 2 ^ 24 + 4 ≤ (ganged.team 1).kern.scrBytes ∧ ganged.member 1 0 = some 1) ∧
    ((ganged.team 1).kern.gang ≤ 2 ^ 25 / 2 ^ 24) := by decide +kernel

theorem test_fences_met : issuesB two (.fence false .dev) = true ∧ issuesB two (.otfence false true) = true := by decide +kernel

/-- A range of one lane in one page of device memory; a length of 0; scratch; a range past LENGTH. -/
def ranged (n : Word) : State := withV alone 0 9 n
theorem test_cache_words_met :
    (∀ i ∈ [Instr.pref false 9 97 1 0, .cwb false 9 97 1 0, .cinv false 9 97 1 0], issuesB (ranged 64) i = true) ∧
    (∀ m ∈ (ranged 64).iss.lanes, (ranged 64).acqPending (lkOf gk0 m) = false) ∧
    (capOk ((ranged 64).creg gk0 1) = true ∧ Cap.type ((ranged 64).creg gk0 1) = 1 ∧ Cap.rights ((ranged 64).creg gk0 1) &&& 1 = 1) ∧
    (∀ m ∈ (ranged 0).iss.lanes, ((ranged 0).src gk0 m 9).toNat = 0) ∧
    (Cap.type ((ranged 64).creg gk0 2) ∉ [1, 7, 8] ∧ 64 ≤ Cap.len ((ranged 64).creg gk0 2)) ∧
    ((ranged 64).iss.lanes = [0] ∧ ((ranged 64).src gk0 0 9).toNat = 64 ∧ ((ranged 64).src gk0 0 97).toNat + 64 ≤ 4096) ∧
    (ranged 64).resolve 1 0 ((ranged 64).creg gk0 1) 0 64 .read false false =
      (.ok (.dev (hbmBase 0 + 65536) .wb false), ranged 64) ∧
    Cap.len ((ranged 4097).creg gk0 1) < ((ranged 4097).src gk0 0 97).toNat + ((ranged 4097).src gk0 0 9).toNat := by
  decide +kernel

/-- A store with one destination, and one through the gang window. -/
theorem test_multicast_met :
    (Cap.type (reach.creg gk0 1) ≠ 3 ∧ MayAccess reach (.stmc false 8 97 1 0)
      { cap := 1, z := 4, acc := .write, allow := atomTypes, need := 66, idx := 97, kind := fun _ => .store
        val := fun m => (reach.src gk0 m 8).setWidth 128, dst := .none } false (fun _ => .dev (hbmBase 0 + 65536) .wb false)) ∧
    (alone.iss.lanes = [0] ∧ issuesB alone (.stredAddB32 false 8 97 5 0) = true ∧ alone.acqPending (lkOf gk0 0) = false ∧
      (alone.kern gk0).det = false ∧ Cap.type (alone.creg gk0 5) = 3) ∧
    Permitted alone (alone.creg gk0 5) [1, 2, 3, 7] 72 0 4 ∧ (4 ≤ (alone.kern gk0).scrBytes ∧ alone.presentMembers 1 = [1]) :=
  ⟨⟨by decide +kernel, mayAccess_of (by decide +kernel) (by unfold Permitted; decide +kernel)
      (by unfold StandsAt; decide +kernel) (by simp)⟩, by decide +kernel, by unfold Permitted; decide +kernel, by decide +kernel⟩

/-- A stack with room, a full one, one with a packet to pop, an empty one. -/
def stacked (sp : Word) : State := mapped (dev [0] {} { st := .ready, lanesp := sp } {} { scratch := 4096 })
theorem test_calls_met :
    (∀ i ∈ [Instr.call false 3, .callx false 97, .ret false], issuesB (stacked 60) i = true) ∧
    (∀ l ∈ (stacked 60).iss.lanes, (stacked 60).acqPending (lkOf gk0 l) = false) ∧ ((stacked 60).kern gk0).det = false ∧
    (fill (stacked 60) 0 + 4 ≤ stackBytes (stacked 60) 0 ∧ StackAt (stacked 60) 0 60 .write 2 (.scr 1 60)) ∧
    stackBytes (stacked 64) 0 < fill (stacked 64) 0 + 4 ∧
    (4 ≤ fill (stacked 64) 0 ∧ StackAt (stacked 64) 0 60 .read 1 (.scr 1 60)) ∧ fill (stacked 0) 0 < 4 := by
  unfold StackAt Permitted; decide +kernel

/-! ### The ordering machine -/

/-- An event of lane 0 on four bytes. -/
def evt (kind : EvKind) (loc : Loc) (dst : Dst := .none) (rel : Option Scope := none) (val : BitVec 128 := 7) : MemEv :=
  { agent := lkOf gk0 0, gk := gk0, lane := 0, kind := kind, loc := loc, size := 4, val := val, dst := dst, acq := none, rel := rel
    sync := none, nol1 := false, pkt := 0, slot := 0, cap := 0, off := 0, issue := 40 }
def devLoc : Loc := .dev (2 ^ 40 + 65536) .wb false
def pending (e : MemEv) : State := { alone with o := { alone.o with pend := [(40, some e)] } }
def buffered (b : BufStore) : State := { alone with o := { alone.o with cbuf := [(41, some b)] } }
def inSystem (b : BufStore) : State := { alone with o := { alone.o with sbuf := [(41, some b)] } }
def buf (loc : Loc) : BufStore := { id := 41, core := 0, agent := lkOf gk0 0, loc := loc, size := 4, val := 7, rel := [] }

/-- What Performs asks, of an event whose lanes are ready, as a value. -/
def performsB (s : State) (k : Nat) (e : MemEv) : Bool :=
  decide (tget none s.o.pend k = some e) && s.mayGo k e && decide (e.tr = none) && decide ((s.lane e.agent).st = .ready) &&
    (e.lane :: e.also).all (fun l => decide ((s.lane (lkOf e.gk l)).st = .ready) && !(s.lane (lkOf e.gk l)).haltReq)
theorem ready_awaits_none {s : State} {a : Nat} (h : (s.lane a).st = .ready) (issue mask : Nat) (c : Cap) (off : Nat) :
    (s.lane a).st ≠ .waiting (.answers issue mask c off) := by rw [h]; nofun
theorem undisturbed_of {s : State} {e : MemEv} (ha : (s.lane e.agent).st = .ready)
    (h : (e.lane :: e.also).all (fun l => decide ((s.lane (lkOf e.gk l)).st = .ready) && !(s.lane (lkOf e.gk l)).haltReq) = true) :
    Undisturbed s e := by
  refine ⟨fun l hl => ?_, ready_awaits_none ha⟩
  have := List.all_eq_true.mp h l hl
  simp only [Bool.and_eq_true, decide_eq_true_eq, Bool.not_eq_true'] at this
  exact ⟨fun n => by rw [this.1]; nofun, this.2⟩
theorem performs_of {s : State} {k : Nat} {e : MemEv} (h : performsB s k e = true) : Performs s k e := by
  simp only [performsB, Bool.and_eq_true, decide_eq_true_eq] at h
  exact ⟨h.1.1.1.1, h.1.1.1.2, h.1.1.2, undisturbed_of h.1.2 h.2⟩

/-- A store to device memory, and one to the last word of scratch space. -/
theorem test_stores_performed_met :
    (∀ e ∈ [evt .store devLoc, evt .store (.scr 1 (2 ^ 40 - 4))], Performs (pending e) 40 e ∧ e.kind = .store ∧
      e.rel = none ∧ SlicePresent (pending e) e 1) ∧ devLoc.buffered = true ∧ 2 ^ 40 - 4 + 4 ≤ 2 ^ 40 := by
  refine ⟨?_, by decide +kernel, by decide⟩
  intro e he
  simp only [List.mem_cons, List.not_mem_nil, or_false] at he
  rcases he with rfl | rfl <;>
    exact ⟨performs_of (by decide +kernel), rfl, rfl, fun h => by revert h; decide +kernel⟩
theorem test_stores_reach_memory_met :
    (((buffered (buf devLoc)).lane (buf devLoc).agent).st = .ready ∧ ((inSystem (buf (.host 64))).lane (buf devLoc).agent).st = .ready) ∧
    (tget none (buffered (buf devLoc)).o.cbuf 41 = some (buf devLoc) ∧ (buffered (buf devLoc)).mayDrain 41 (buf devLoc) = true) ∧
    (tget none (buffered (buf (.host 64))).o.cbuf 41 = some (buf (.host 64)) ∧
      (buffered (buf (.host 64))).mayDrain 41 (buf (.host 64)) = true ∧ (buf (.host 64)).loc.leaves = true) ∧
    (tget none (inSystem (buf (.host 64))).o.sbuf 41 = some (buf (.host 64)) ∧
      (inSystem (buf (.host 64))).mayDeliver (buf (.host 64)) = true) := by decide +kernel

/-- A load of device memory with an empty buffer, with its own store in the buffer, and a load of scratch. -/
def loading : MemEv := evt .load devLoc (.v 8 1 32 false)
def scratching : MemEv := evt .load (.scr 1 64) (.s 3 2 32 false)
def both : State := { pending loading with o := { (pending loading).o with cbuf := [(41, some (buf devLoc))] } }
theorem test_loads_performed_met :
    Performs (pending loading) 40 loading ∧ (loading.kind = .load ∧ loading.acq = none ∧ Clean (pending loading) (2 ^ 40 + 65536) 4 ∧
      (∀ b ∈ (pending loading).coreBuf ((pending loading).agentCore loading.agent),
        (pending loading).common b.loc b.size loading.loc loading.size = false)) ∧ NoDirtyCopy (pending loading) (2 ^ 40 + 65536) 4 .wb ∧
    DstFits loading.dst ∧ (∀ n, loading.dst ≠ .c n) ∧ Performs both 40 loading ∧
    (Clean both (2 ^ 40 + 65536) 4 ∧
      both.coreBuf (both.agentCore loading.agent) = [] ++ [buf devLoc] ∧ (buf devLoc).val.toNat < 2 ^ (8 * loading.size)) ∧
    Performs (pending scratching) 40 scratching ∧ SlicePresent (pending scratching) scratching 1 := by
  unfold Clean
  exact ⟨performs_of (by decide +kernel), by decide +kernel, .inl rfl, by show 8 + 1 ≤ 128; decide, by simp [loading, evt],
    performs_of (by decide +kernel), by decide +kernel, performs_of (by decide +kernel), fun h => by revert h; decide +kernel⟩
/-- An atomic that adds, at the highest value, and one that compares. -/
def adding (op : Aop) : MemEv := evt (.atomic op 0xFFFFFFFF 0xFFFFFFFF true) devLoc (.v 94 2 32 false)
theorem test_atomics_performed_met : DstFits (adding .cas).dst ∧ NoDirtyCopy (pending (adding .cas)) (2 ^ 40 + 65536) 4 .wb ∧
    (Performs (pending (adding .addB32)) 40 (adding .addB32) ∧ Performs (pending (adding .cas)) 40 (adding .cas)) ∧ ∀ op ∈ [Aop.addB32, .cas],
    (adding op).kind = .atomic op 0xFFFFFFFF 0xFFFFFFFF true ∧
    (adding op).sync = none ∧ (adding op).size = (if op = .addB64 then 8 else 4) ∧
    (0xFFFFFFFF : DWord).toNat < 2 ^ (8 * (adding op).size) ∧ Clean (pending (adding op)) (2 ^ 40 + 65536) 4 ∧
    (adding op).dst ≠ .ret ∧ (pending (adding op)).coreBuf ((pending (adding op)).agentCore (adding op).agent) = [] := by
  unfold Clean
  exact ⟨by show 94 + 2 ≤ 128; decide, .inl rfl, ⟨performs_of (by decide +kernel), performs_of (by decide +kernel)⟩, by decide +kernel⟩
/-- Nothing pending; and an older fence of the lane holds its store back. -/
def behind : State := { alone with o := { alone.o with pend := [(39, some (evt .fence (.scr 1 0) .none (some .dev))), (40, some (evt .store devLoc))] } }
theorem test_blocked_met : (tget none behind.o.pend 40 = some (evt .store devLoc) ∧ behind.mayGo 40 (evt .store devLoc) = false ∧
    tget none alone.o.cbuf 41 = none ∧ tget none alone.o.sbuf 41 = none) ∧ Undisturbed behind (evt .store devLoc) :=
  ⟨by decide +kernel, undisturbed_of (by decide +kernel) (by decide +kernel)⟩
/-- A release of the lane with a store of its history in the core's buffer. -/
def releasing : State :=
  { pending (evt .store devLoc .none (some .dev)) with
    o := { (pending (evt .store devLoc .none (some .dev))).o with cbuf := [(41, some (buf devLoc))], hist := [(lkOf gk0 0, [41])] } }
theorem test_release_waits_met : Undisturbed releasing (evt .store devLoc .none (some .dev)) ∧ tget none releasing.o.pend 40 = some (evt .store devLoc .none (some .dev)) ∧
    41 ∈ releasing.hist (lkOf gk0 0) ∧ releasing.visible .dev (lkOf gk0 0) 41 = false :=
  ⟨undisturbed_of (by decide +kernel) (by decide +kernel), by decide +kernel⟩

/-- A table area with an object of data, its top node and a large page entry (Tables 17.2, 17.3). -/
def tabled : State :=
  { alone with
    o := { alone.o with mem := writeLE (writeLE (writeLE [] (2 ^ 40 + 32) (2 ^ 216 + 1 * 2 ^ 168 + 1 * 2 ^ 166 + 2 ^ 164) 32)
      (2 ^ 40) (2 ^ 63 + 6 * 2 ^ 60 + 64) 8) (2 ^ 40 + 16384) (2 ^ 63 + 2 ^ 56 + 2 ^ 53 + 32) 8 }
    x := { roots := [(0, placedRoot)] } }
theorem test_views_met : alone.x.cache[1]?.isSome = true ∧ tabled.ctxEn 0 = true ∧
    (match tabled.walk 0 0 1 0 .write with | .ok e => decide (e.otype ≠ 3) && e.large | .error _ => false) = true := by
  decide +kernel
theorem test_memory_canonical_met : MemoryWf (pending (evt .store devLoc)) ∧
    ∃ t, exec (.storePerform 40) (pending (evt .store devLoc)) = .next t := ⟨by unfold MemoryWf; decide +kernel, _, rfl⟩

/-! ### Engine words, tags, fabric words -/

/-- Engine words issue for one lane; S64(A) = S64(A + 2) = 0, S(A + 4) = n; the kernel has four tags. -/
def engine (n : Word) : State := withS (mapped (dev [0] {} { st := .ready } {} { scratch := 4096, tagb := 4 })) 4 n
def tagged (t : Nat) (x : Tag) (s : State) : State := { s with t := { s.t with tags := tset .free s.t.tags (tagKey 1 0 t) x } }

/-- The constants of a CHAIN over 1,024 words stand at the end of scratch, through c1. -/
def chaining : State := withS (withCap (engine 1024) 1 (mkCap 2 255 0 0 4096)) 5 4064
theorem test_copy_words_met :
    TagFree (engine 4096) 3 ∧
    (∀ i ∈ [Instr.copy false 3 2 1 96, .copy2d false 3 2 1 96], EngineIssues (engine 4096) i) ∧
    sW (engine 4096) 96 5 % 2 ^ 26 = 0 ∧ Cap.type ((engine 4096).creg gk0 2) ≠ 4 ∧
    Covers (engine 4096) ((engine 4096).creg gk0 1) anyType 1 0 4096 ∧ Covers (engine 4096) ((engine 4096).creg gk0 2) anyType 2 0 4096 ∧
    (InMember (engine 4096) ((engine 4096).creg gk0 1) 0 4096 ∧ InMember (engine 4096) ((engine 4096).creg gk0 2) 0 4096) ∧
    (∀ m ∈ [1, 2], RowsInMembers (engine 4096) ((engine 4096).creg gk0 m) 0 0 4096 0) ∧
    span (sW (engine 4096) 96 5 % 2 ^ 26) (sW (engine 4096) 96 4) (sW (engine 4096) 96 6) = 0 ∧
    (EngineIssues chaining (.chain false 3 2 2 96) ∧ TagFree chaining 3 ∧ chainLegal (chainBytes (blockOf chaining 96 8)) = true ∧
      chainSlotBad (chaining.kern gk0) (chainIn (chainBytes (blockOf chaining 96 8))) = false ∧
      chainSlotBad (chaining.kern gk0) (chainOut (chainBytes (blockOf chaining 96 8))) = false ∧
      Covers chaining (chaining.creg gk0 2) anyType 2 0 (4 * sW chaining 96 4) ∧
      Covers chaining (chaining.creg gk0 1) [2] 1 (sW chaining 96 5) 32 ∧ sW chaining 96 5 % 32 = 0 ∧
      InMember chaining (chaining.creg gk0 2) 0 (4 * sW chaining 96 4) ∧
      (∀ l ∈ chaining.iss.lanes, chaining.storePending (lkOf gk0 l) chaining.next (.scr 1 4064) 32 = false)) := by
  unfold TagFree EngineIssues NoneBehind Covers RowsInMembers InMember
  refine ⟨by decide +kernel, by decide +kernel, by decide +kernel, by decide +kernel, by decide +kernel, by decide +kernel,
    by decide +kernel, by decide +kernel, by decide +kernel, ?_⟩
  exact ⟨by decide +kernel, by decide +kernel, by decide +kernel, by decide +kernel, by decide +kernel, by decide +kernel,
    by decide +kernel, by decide +kernel, by decide +kernel, by decide +kernel⟩

/-- A copy of 32 KiB into the registers of the group itself, one byte more, and a core whose landing space is in use. -/
def landing (n : Word) (used : Bool) : State :=
  let s := withCap (engine n) 1 (mkCap 1 255 5 0 65536)
  let s := withCap s 2 (mkCap 4 255 0 0 65536)
  if used then { s with t := { s.t with landing := [{ core := 0, tk := 1, gk := gk0, tag := 1, key := 5, val := 0 }] } } else s
theorem test_landing_met :
    (TagFree (landing 32768 false) 3 ∧ EngineIssues (landing 32768 false) (.copy false 3 2 1 96) ∧
      Cap.type ((landing 32768 false).creg gk0 2) = 4 ∧ Covers (landing 32768 false) ((landing 32768 false).creg gk0 1) anyType 1 0 32768 ∧
      Covers (landing 32768 false) ((landing 32768 false).creg gk0 2) anyType 2 0 32768 ∧
      InMember (landing 32768 false) ((landing 32768 false).creg gk0 1) 0 32768 ∧
      (Cap.base ((landing 32768 false).creg gk0 2) + sD (landing 32768 false) 96 2) / 32768 = 0 ∧ 0 < ((landing 32768 false).team 1).ngroups ∧
      ((landing 32768 false).t.landing.filter (fun e => e.core == 0)).length + (landing 32768 false).landReserved 0 +
        (sW (landing 32768 false) 96 4 + 3) / 4 ≤ 8192) ∧
    (32768 < sW (landing 32769 false) 96 4) ∧
    8192 < ((landing 32768 true).t.landing.filter (fun e => e.core == 0)).length + (landing 32768 true).landReserved 0 +
      (sW (landing 32768 true) 96 4 + 3) / 4 ∧
    (0 < ((landing 32768 false).kern gk0).tagb ∧ (landing 32768 false).tagOf gk0 0 ≠ .held ∧
      tagKey 1 0 0 ≠ tagAt (landing 32768 false) 3) := by
  unfold TagFree EngineIssues NoneBehind Covers InMember; decide +kernel

theorem test_tag_faults_met :
    operandsOk ((engine 4).group gk0).regs (.copy false 3 2 1 96) = true ∧ ((engine 4).kern gk0).tagb ≤ (4 : BitVec 6).toNat ∧
    ¬ CopyBlock (withS (engine 4) 5 1) 96 ∧
    (CopyBlock (engine 4) 96 ∧ 3 < ((engine 4).kern gk0).tagb ∧ (tagged 3 .held (engine 4)).tagOf gk0 3 = .held) := by
  unfold CopyBlock; decide +kernel

/-- Two lanes with the same offset; a place in q1, and a vector of values in it. -/
def vectors : State := tagged 0 (.done 0) (mapped (dev [0, 1] { q1 := [[(0, 5)]] } { st := .ready } {} { scratch := 4096, tagb := 4 }))
theorem test_vector_words_met :
    TagFree vectors 0 ∧ (VectorIssues vectors (.gather false 0 2 8) ∧ (vectors.group gk0).q1.length + (vectors.group gk0).q1fly < 8) ∧
    VectorIssues vectors (.scatter false 0 2 8) ∧ VectorIssues vectors (.scatadd false 0 2 8 true) ∧
    (∀ l ∈ vectors.iss.lanes, Covers vectors (vectors.creg gk0 2) anyType 2 ((vectors.src gk0 l 8).toNat * 4) 4 ∧
      (Cap.base (vectors.creg gk0 2) + (vectors.src gk0 l 8).toNat * 4) % 4 = 0) ∧
    (∀ l ∈ vectors.iss.lanes, Covers vectors (vectors.creg gk0 2) atomTypes 8 ((vectors.src gk0 l 8).toNat * 4) 4) ∧
    (∀ l ∈ vectors.iss.lanes, InMember vectors (vectors.creg gk0 2) ((vectors.src gk0 l 8).toNat * 4) 4) := by
  refine ⟨?_, ?_, ?_, ?_, ?_, ?_, fun _ _ h => absurd h (by decide +kernel)⟩ <;> (try unfold TagFree) <;> try unfold VectorIssues
  all_goals (try unfold Covers); decide +kernel

/-- Scalar blocks for FBULK without a counter and for FRLEASE of one device, an object of a peer in c6. -/
def fabricS (w0 : Word) : State := withS (withS (withCap (engine 64) 6 (mkCap 7 255 7 0 4096)) 5 0xFFFFFFFF) 0 w0
theorem test_fabric_words_met :
    (TagFree (fabricS 0) 1 ∧ ((fabricS 0).kern gk0).det = false ∧ EngineIssues (fabricS 0) (.fbulk false 1 6 2 96) ∧
      Covers (fabricS 0) ((fabricS 0).creg gk0 2) [1, 2] 1 0 64 ∧ Covers (fabricS 0) ((fabricS 0).creg gk0 6) [7] 2 0 64 ∧
      sW (fabricS 0) 96 5 = 0xFFFFFFFF) ∧
    (∃ r, (fabricS 0).resolve 1 0 ((fabricS 0).creg gk0 6) 0 1 .write false false = (r, fabricS 0)) ∧
    (EngineIssues (fabricS 0x10600) (.frlease false 1 6 2 96) ∧ Covers (fabricS 0x10600) ((fabricS 0x10600).creg gk0 6) [7] 8 0 0 ∧
      sW (fabricS 0x10600) 96 0 / 2 ^ 8 % 2 ^ 4 ≤ 6 ∧ sW (fabricS 0x10600) 96 0 / 2 ^ 16 % 2 ^ 16 ≠ 0) ∧
    EngineIssues (fabricS 0) (.fred false 1 6 96) := by
  refine ⟨?_, ⟨_, rfl⟩, ?_, ?_⟩ <;> unfold EngineIssues <;> unfold NoneBehind <;> try unfold Covers
  · unfold TagFree; decide +kernel
  · decide +kernel
  · decide +kernel

/-- Tag 2 Done, tag 3 Held, the others Free; masks in a pair of scalars. -/
def masked (m : Word) : State := withS (tagged 2 (.done 1) (tagged 3 .held (engine 0))) 8 m
theorem test_tag_words_met :
    (∀ i ∈ [Instr.twait false 96 104 false, .twait false 96 104 true, .tfirst false 96 104, .ttest false 98 104],
      issuesB (masked 12) i = true) ∧ roomB (masked 12) 96 = true ∧ ((masked 12).kern gk0).det = false ∧
    (doneTags (masked 12) ((masked 12).src64 gk0 0 104) = [2] ∧ heldTags (masked 12) ((masked 12).src64 gk0 0 104) = [3]) ∧
    (doneTags (masked 3) ((masked 3).src64 gk0 0 104) = [] ∧ heldTags (masked 3) ((masked 3).src64 gk0 0 104) = []) ∧
    (doneTags (masked 8) ((masked 8).src64 gk0 0 104) = [] ∧ heldTags (masked 8) ((masked 8).src64 gk0 0 104) ≠ []) ∧
    (∀ k, k < 64 → ((4 : DWord).getLsbD k = true ↔ k ∈ doneTags (masked 12) ((masked 12).src64 gk0 0 104))) ∧
    (((deterministic false).kern gk0).det = true ∧ issuesB (deterministic false) (.qstat false 96 112) = true) := by decide +kernel
theorem test_tag_clear_met : issuesB (masked 12) (.tclr false 104) = true ∧
    (issuesB (masked 2) (.commit false 3 104) = true ∧ isV 3 = true ∧ ((masked 2).src gk0 0 104).toNat < ((masked 2).kern gk0).tagb ∧
      (masked 2).tagOf gk0 ((masked 2).src gk0 0 104).toNat = .done 1) ∧
    (issuesB two (.qstat false 3 113) = true ∧ roomB two 3 = true) := by decide +kernel

/-! ### Barriers, gangs, launches, arrival counters -/

/-- Barrier 3 of the team; the lanes with a token. -/
def barred (b : Barrier) (tok : Option Word := none) : State :=
  let s := dev [0, 1] {} { st := .ready, token := tok }
  { s with t := { s.t with bars := [(barKey 1 3, b)] } }
theorem test_barriers_met :
    ((barred {}).group gk0).pair = false ∧
    (issuesB (withV (barred {}) 0 1 65535) (.barinit false 0 1 3) = true ∧ (barOf (barred {}) 3).arrived = 0 ∧
      ((withV (barred {}) 0 1 65535).src gk0 0 1).toNat = 65535) ∧
    (issuesB (barred { expected := 2, arrived := 1 }) (.bar false 0 3) = true ∧ (barOf (barred { expected := 2, arrived := 1 }) 3).expected ≠ 0 ∧
      (∀ l ∈ [0, 1], tokenOf (barred { expected := 2, arrived := 1 }) l = none)) ∧
    MayRelease (barred { expected := 2 }) .team ∧ MayRelease (barred { expected := 2, arrived := 1 }) .team ∧
    (∀ l ∈ [0, 1], tokenOf (barred { expected := 2, gen := 5 } (some 4)) l = some 4 ∧ (4 : Word) ≠ (barOf (barred { expected := 2, gen := 5 } (some 4)) 3).gen) ∧
    (∀ l ∈ [0, 1], tokenOf (barred { expected := 2, gen := 5 } (some 5)) l = some (barOf (barred { expected := 2, gen := 5 } (some 5)) 3).gen) ∧
    (issuesB (barred { expected := 2 }) (.bararr false 4 0 3) = true ∧ isQ 4 = false) ∧
    (issuesB (barred { expected := 2 }) (.barwait false 0 4 3) = true ∧ (∀ l ∈ [0, 1], (barred { gen := 1 }).src gk0 l 4 ≠ (barOf (barred { gen := 1 }) 3).gen) ∧
      ∀ l ∈ [0, 1], (barred {}).src gk0 l 4 = (barOf (barred {}) 3).gen) := by
  unfold MayRelease; decide +kernel
theorem test_barrier_faults_met :
    (issuesB (barred { expected := 2, arrived := 1 }) (.barinit false 0 1 3) = true ∧ popsQ1 (.barinit false 0 1 3) = false ∧
      (barOf (barred { expected := 2, arrived := 1 }) 3).arrived ≠ 0) ∧ ((barred {}).src gk0 0 1).toNat = 0 ∧
    65535 < ((withV (barred {}) 0 1 65536).src gk0 0 1).toNat ∧
    ((barOf (barred {}) 3).expected = 0 ∧ issuesB (barred {}) (.bar false 0 3) = true ∧ ∀ l ∈ [0, 1], tokenOf (barred {}) l = none) ∧
    (((drawsState 0).group gk0).pair = true ∧
      ∀ i ∈ [Instr.barinit false 0 1 3, .bar false 0 3, .bararr false 4 0 3, .barwait false 0 4 3, .dphase false],
        issuesB (drawsState 0) i = true) := by decide +kernel

/-- Two teams of a gang of two: member 0 is the testing group's, member 1 has left, is leaving or is resident. -/
def gang (other mine : GangSt) (acks : List Nat) : State :=
  let s := dev [0, 1] {} { st := .ready } { gst := mine, acks := acks } { gang := 2 }
  { s with t := { s.t with teams := s.t.teams ++ [(2, { ln := 1, idx := 1, kern := { gang := 2 }, gst := other, live := true, cores := [1], ngroups := 1 })] }
           g := { s.g with groups := s.g.groups ++ [(gkOf 2 0, { tk := 2, width := 16, regs := 96, core := 1 })]
                           lanes := s.g.lanes ++ [(lkOf (gkOf 2 0) 0, { st := .ready })] } }
theorem test_gang_met :
    Able (gang .left .resident []) (.gstat false 3 1) 3 (fun l => .w (memberState (gang .left .resident []) ((gang .left .resident []).src gk0 l 1).toNat)) ∧
    (Able two (.gangleave false 3 1) 3 (fun _ => .w 1) ∧ (two.team 1).kern.gang ≤ 1) ∧
    (1 < ((gang .left .leaving []).team 1).kern.gang ∧ (gang .left .leaving []).gangState 1 ≠ .resident) ∧
    ((gang .left .resident []).gangState 1 = .resident ∧ issuesB (gang .left .resident []) (.gangleave false 3 1) = true) ∧
    MayRelease (gang .left .resident []) .gang ∧
    (1 ∈ ((gang .leaving .resident [1]).team 1).acks ∧ 1 ≠ ((gang .leaving .resident [1]).team 1).idx % 2) ∧
    ((gang .leaving .resident []).member 1 1 = some 2 ∧ (gang .leaving .resident []).gangState 2 = .leaving ∧
      issuesB (gang .leaving .resident []) (.gangack false 3 1) = true) ∧
    ((gang .resident .resident []).member 1 1 = some 2 ∧ (gang .resident .resident []).gangState 2 ≠ .leaving) ∧
    issuesB two (.dphase false) = true ∧ ((two.team 1).kern.det = false ∧ ((deterministic false).team 1).kern.det = true) := by
  refine ⟨able_of (by decide +kernel), ⟨able_of (by decide +kernel), by decide +kernel⟩, ?_⟩
  unfold MayRelease; decide +kernel
theorem test_dphase_met : MayRelease (deterministic false) .team ∧ (∀ l ∈ (deterministic false).iss.lanes, tokenOf (deterministic false) l = none) ∧
    ∃ w, tokenOf (dev [0] {} { st := .ready, token := some 0 } {} { flags := 2 }) 0 = some w := by
  unfold MayRelease; exact ⟨by decide +kernel, by decide +kernel, 0, by decide +kernel⟩

/-- A launch record in scratch and the kernel descriptor that it names, in the table area of context 0 (Tables 16.1, 16.2). -/
def recordBits : Nat := 1 * 2 ^ 1000 + 64 * 2 ^ 960 + 1 * 2 ^ 288 + 1 * 2 ^ 225 + 1 * 2 ^ 217 + 1 * 2 ^ 210 + 1 * 2 ^ 206
def shallowBits : Nat := recordBits - 1 * 2 ^ 206
def descriptorBits : Nat := 12 * 2 ^ 448 + 1 * 2 ^ 230 + 1 * 2 ^ 34 + 1 * 2 ^ 24
def launching (lanes : List Nat) (r limit : Nat) (more : Tbl (Option Launch)) : State :=
  let s := withCap (withCap (dev lanes {} { st := .ready } {} { scratch := 4096 }) 1 (mkCap 2 255 0 0 4096)) 2 (mkCap 1 255 1 0 65536)
  { s with
    o := { s.o with mem := writeLE (writeLE [] (2 ^ 40 + 32) placedEntry 32) (2 ^ 40 + 64) descriptorBits 64 }
    x := { roots := [(0, placedRoot)] }
    t := { s.t with scratch := writeLE [] (scrKey 1 0) r 256 }
    l := { s.l with launches := [(1, some { st := .running, nextTeam := 1, limit := limit })] ++ more } }
/-- Whether a record is checked to this end without a change of the device. -/
def checksTo (s : State) (want : Bool) (p : Kern → Bool) : Bool := match checkedRecord s 4 0 with
  | (.ok k, u) => want && decide (u = s) && p k
  | (.bad _, u) => !want && decide (u = s)
  | (.miss _ _ _, _) => false
theorem checks_ok {s : State} {p : Kern → Bool} (h : checksTo s true p = true) : ∃ k, checkedRecord s 4 0 = (.ok k, s) ∧ p k = true := by
  unfold checksTo at h
  match hc : checkedRecord s 4 0, h with
  | (.ok k, u), h => simp at h; exact ⟨k, by rw [h.1], h.2⟩
  | (.bad _, _), h => simp at h
  | (.miss _ _ _, _), h => simp at h
theorem checks_bad {s : State} {p : Kern → Bool} (h : checksTo s false p = true) : ∃ e, checkedRecord s 4 0 = (.bad e, s) := by
  unfold checksTo at h
  match hc : checkedRecord s 4 0, h with
  | (.ok _, _), h => simp at h
  | (.bad e, u), h => simp at h; exact ⟨e, by rw [h]⟩
  | (.miss _ _ _, _), h => simp at h
/-- A queue of 1,024 records. -/
def crowd : Tbl (Option Launch) := (List.range 1024).map (fun n => (n + 2, some { kern := { teams := 1 } }))
theorem test_launch_met :
    (issuesB (launching [0] 0 8 []) (.launch false 3 4) = true ∧ ((launching [0] 0 8 []).group gk0).pair = false ∧
      ((launching [0] 0 8 []).kern gk0).det = false ∧ isV 3 = true) ∧
    ReadsRecord (launching [0] recordBits 8 []) 4 0 ∧ (∃ e, checkedRecord (launching [0] 0 8 []) 4 0 = (.bad e, launching [0] 0 8 [])) ∧
    (∃ k, checkedRecord (launching [0] recordBits 0 []) 4 0 = (.ok k, launching [0] recordBits 0 []) ∧
      decide (min k.dlimit ((launching [0] recordBits 0 []).launchOf 1).limit < ((launching [0] recordBits 0 []).launchOf 1).depth + 1) = true) ∧
    (∃ k, checkedRecord (launching [0] shallowBits 8 []) 4 0 = (.ok k, launching [0] shallowBits 8 []) ∧
      decide (min k.dlimit ((launching [0] shallowBits 8 []).launchOf 1).limit < ((launching [0] shallowBits 8 []).launchOf 1).depth + 1) = true) ∧
    ((∃ k, checkedRecord (launching [0] recordBits 8 crowd) 4 0 = (.ok k, launching [0] recordBits 8 crowd) ∧
      decide (((launching [0] recordBits 8 crowd).launchOf 1).depth + 1 ≤ min k.dlimit ((launching [0] recordBits 8 crowd).launchOf 1).limit) = true) ∧
      1024 ≤ (launching [0] recordBits 8 crowd).queued 0 + (launching [0] recordBits 8 crowd).accepting 0 false) ∧
    ((∃ k, checkedRecord (launching [0] recordBits 8 []) 4 0 = (.ok k, launching [0] recordBits 8 []) ∧
      decide ((launching [0] recordBits 8 []).launchStatus 1 k = none) = true) ∧ (launching [0] recordBits 8 []).relReady .dev (lkOf gk0 0) = true) :=
  ⟨by decide +kernel, ⟨by decide +kernel, by unfold Covers; decide +kernel, by decide +kernel, by decide +kernel, by decide +kernel, by decide +kernel⟩,
   checks_bad (p := fun _ => true) (by decide +kernel), checks_ok (by decide +kernel), checks_ok (by decide +kernel),
   ⟨checks_ok (by decide +kernel), by decide +kernel⟩, ⟨checks_ok (by decide +kernel), by decide +kernel⟩⟩
/-- Of two lanes the first goes on at once. -/
theorem test_launch_lanes_met :
    (launching [0, 1] 0 8 []).iss.lanes = 0 :: [1] ∧ ∃ t, exec (.launch false 3 4)
      { launching [0, 1] 0 8 [] with iss := { (launching [0, 1] 0 8 []).iss with lanes := [0] } } = .next t ∧
      t.lane (lkOf gk0 0) = ({ (launching [0, 1] 0 8 []).lane (lkOf gk0 0) with launch := none } : Lane).advance :=
  ⟨by decide +kernel, _, rfl, by decide +kernel⟩

/-- Children with serials 0 and 7 of the team, done and running, and a serial without a child. -/
def parent : State := { two with
  l := { launches := [(1, some { st := .running, nextTeam := 1 }), (2, some { st := .complete 1, fromHost := false, parentTeam := 1, pooled := true }),
    (3, some { st := .running, serial := 7, fromHost := false, parentTeam := 1, pooled := true })] } }
theorem test_children_met :
    keysRise parent.l.launches = true ∧ issuesB parent (.lwait false 3 4) = true ∧ issuesB parent (.lstat false 3 4) = true ∧
    (parent.kern gk0).det = false ∧
    (∀ l ∈ parent.iss.lanes, ∃ x, childOf parent 4 l = some (2, x) ∧ x.st = .complete 1) ∧
    (∀ l ∈ parent.iss.lanes, ∃ x, childOf (withV (withV parent 0 4 7) 1 4 7) 4 l = some (3, x) ∧ x.st = .running) ∧
    (∀ l ∈ parent.iss.lanes, childOf (withV (withV parent 0 4 9) 1 4 9) 4 l = none) ∧
    (((deterministic false).group gk0).pair = false ∧ ∀ i ∈ [Instr.launch false 3 4, .lstat false 3 4, .arrwait false 4],
      issuesB (deterministic false) i = true ∧ popsQ1 i = false) :=
  ⟨by decide +kernel, by decide +kernel, by decide +kernel, by decide +kernel,
   fun l h => ⟨{ st := .complete 1, fromHost := false, parentTeam := 1, pooled := true }, by revert h l; decide +kernel⟩,
   fun l h => ⟨{ st := .running, serial := 7, fromHost := false, parentTeam := 1, pooled := true }, by revert h l; decide +kernel⟩,
   by decide +kernel, by decide +kernel⟩

/-- A counter in scratch whose ARRIVED has reached its TARGET of 0, and one that has not reached 2. -/
def counting (target : Nat) : State :=
  let s := withCap alone 1 (mkCap 2 255 0 0 4096)
  { s with t := { s.t with scratch := writeLE [] (scrKey 1 4) target 4 } }
theorem test_counters_met :
    MayAccess (counting 0) (.arrset false 4 5)
      { cap := 1, z := 4, acc := .write, allow := [2], need := 2, idx := 4, scale := some 1, plus := 4, kind := fun _ => .store
        val := fun l => ((counting 0).src gk0 l 5).setWidth 128, dst := .none } false (fun _ => .scr 1 4) ∧
    (∀ need ∈ [(1 : BitVec 8), 2], ∀ l ∈ (counting 0).iss.lanes, Permitted (counting 0) ((counting 0).creg gk0 1) [2] need ((counting 0).src gk0 l 4).toNat 8) ∧
    issuesB (counting 0) (.arrwait false 4) = true ∧ ((counting 0).kern gk0).det = false ∧
    (∀ l ∈ (counting 0).iss.lanes, (counting 0).acqPending (lkOf gk0 l) = false ∧
      ∀ p ∈ (counting 0).pendOf (lkOf gk0 l), overlaps p.2.loc p.2.size (.scr 1 0) 8 = false) ∧
    (counting 0).scrRead 1 4 4 ≤ (counting 0).scrRead 1 0 4 ∧ (counting 2).scrRead 1 0 4 < (counting 2).scrRead 1 4 4 :=
  ⟨mayAccess_of (by decide +kernel) (by unfold Permitted; decide +kernel) (by unfold StandsAt; decide +kernel) (by simp),
   by unfold Permitted; decide +kernel, by decide +kernel, by decide +kernel, by decide +kernel, by decide +kernel, by decide +kernel⟩

/-! ### Handler words and checkpoints -/

/-- A group of the handler role 1 of its kernel, with records and parked agents. -/
def tending (fq : List (BitVec 512)) (parked : Tbl (Option Parked)) : State :=
  withCap (dev [0] { role := 1 } { st := .ready } { fq := fq, parked := parked } { handler := some 1, scratch := 4096 }) 1
    (mkCap 2 255 0 0 4096)
def other : Nat := lkOf (gkOf 1 1) 2
theorem test_handler_words_met :
    OfHandler (tending [] []) ∧ RecordPlace (tending [] []) 0 ∧ ((tending [] []).team 1).fq = [] ∧
    (((tending [5, 6] []).team 1).fq = 5 :: [6] ∧ issuesB (tending [5, 6] []) (.faultrec false 3 4) = true) ∧
    tget none ((tending [] []).team 1).parked 0 = none ∧
    (tget none ((tending [] [(0, some { lane := some other, pair := true })]).team 1).parked 0 = some { lane := some other, pair := true }) ∧
    (∀ i ∈ [Instr.lresume false 3 4 1, .lkill false 3 4], issuesB (tending [] [(0, some { lane := some other, pair := false })]) i = true) ∧
    (tget none ((tending [] [(0, some { lane := some other, pair := false })]).team 1).parked 0 = some { lane := some other, pair := false } ∧
      (∀ l ∈ [0], lkOf gk0 l ≠ other ∧ l < 64) ∧ other / 64 ≠ gk0 ∧ ((tending [] []).group (other / 64)).width ≤ 64) ∧
    tget none ((tending [] [(0, some { lane := none, pair := false })]).team 1).parked 0 = some { lane := none, pair := false } ∧
    ¬ OfHandler two ∧ (∀ i ∈ [Instr.faultrec false 3 4, .lresume false 3 4 1, .lkill false 3 4, .pairrelaunch false 0 98], issuesB two i = true) := by
  unfold OfHandler
  refine ⟨by decide +kernel, ⟨by unfold Covers; decide +kernel, by decide +kernel, by decide +kernel, by decide +kernel⟩, ?_⟩
  decide +kernel

/-- A team whose capability c1 covers 4 GiB of the table area, an object that needs no map (R301). -/
def saver (cps : List Checkpoint) : State :=
  let s := withCap (dev [0] {} { st := .ready } {} { scratch := 4096 }) 1 (mkCap 1 255 1 0 (2 ^ 32))
  { s with
    o := { s.o with mem := writeLE [] (2 ^ 40 + 32) (2 ^ 39 * 2 ^ 216 + 3 * 2 ^ 168 + 1 * 2 ^ 166 + 2 ^ 164) 32 }
    x := { roots := [(0, placedRoot)] }
    l := { s.l with checkpoints := cps } }
/-- The same while its group saves. -/
def saving (cps : List Checkpoint) : State := (saver cps).modTeam 1 (fun t => { t with saving := some gk0 })
def areaLoc (a : Nat) : Loc := .dev (2 ^ 40 + a) .wb false

theorem saver_size (cps : List Checkpoint) : (saver cps |>.kern gk0).saveSize = 4096 + Config.saveOverhead.toNat := rfl
theorem saver_resolve (cps : List Checkpoint) (off n : Nat) (kind : AccKind) (h : off < 2 ^ 39) :
    (saving cps).resolve 1 0 (mkCap 1 255 1 0 (2 ^ 32)) off n kind false false = (.ok (areaLoc off), saving cps) := by
  have ht : (saving cps).translate 0 0 1 off kind = (.ok (areaLoc off) 3 0, saving cps) := by
    have hc : (saving cps).cached 0 0 1 (off / 65536) = none := rfl
    have hw : (saving cps).walk 0 0 1 off kind = .ok { place := 0, ctx := 0, obj := 1, page := off / 65536, large := false
                                                       entry := 0, addr := 0, otype := 3, dpol := 1, osize := 2 ^ 39 } := by
      have h1 : (saving cps).root 0 = placedRoot.toNat := rfl
      have h2 : (saving cps).devRead (tableAddr placedRoot.toNat (32 * 1)) 32 = (saving []).devRead (tableAddr placedRoot.toNat (32 * 1)) 32 := rfl
      have h3 : objEntry ((saving []).devRead (tableAddr placedRoot.toNat (32 * 1)) 32) =
          { v := true, size := 2 ^ 39, map := 0, type := 3, dpol := 1, rsv := false } := by decide +kernel
      have h4 : (ObjEntry.mk true (2 ^ 39) 0 3 1 false).bad (rootTLen placedRoot.toNat) 1 = false := by decide +kernel
      have h5 : rootOtCount placedRoot.toNat = 2 := by decide +kernel
      unfold State.walk
      simp only [h1, h2, h3, h4, h5]
      simp
      omega
    unfold State.translate
    rw [hc]
    have h6 : tableAddr ((saving cps).root 0) off = 2 ^ 40 + off := by
      have h1 : (saving cps).root 0 = placedRoot.toNat := rfl
      have h2 : rootTDie placedRoot.toNat = 0 ∧ rootTFrame placedRoot.toNat = 0 := by decide +kernel
      unfold tableAddr
      rw [h1, h2.1, h2.2]
      simp [hbmBase]
    simp only [State.walkFill, hw, h6]
    rfl
  have hb : Cap.base (mkCap 1 255 1 0 (2 ^ 32)) = 0 := by decide +kernel
  have hty : Cap.type (mkCap 1 255 1 0 (2 ^ 32)) = 1 := by decide +kernel
  have ho : Cap.obj (mkCap 1 255 1 0 (2 ^ 32)) = 1 := by decide +kernel
  have hk : ((saving cps).team 1).kern.ctx = 0 := rfl
  unfold State.resolve
  simp only [hb, hty, ho, hk, Nat.zero_add, ht]
  rfl
theorem saver_cap (cps : List Checkpoint) : (saver cps).heldCap (saver cps).iss.gk (saver cps).low (1 : Opc).toNat = mkCap 1 255 1 0 (2 ^ 32) := by
  have h0 : ((saver cps).lane (lkOf (saver cps).iss.gk (saver cps).low)).held = [] := by
    have h : (saver cps).lane (lkOf (saver cps).iss.gk (saver cps).low) = (saver []).lane (lkOf gk0 0) := rfl
    rw [h]; decide +kernel
  have h : (saver cps).creg (saver cps).iss.gk (1 : Opc).toNat = (saver []).creg gk0 1 := rfl
  unfold State.heldCap
  rw [h0]
  simp only [h]
  decide +kernel
theorem saver_ext (cps : List Checkpoint) (kind : AccKind) (ps : List (Nat × Nat)) (h : ∀ p ∈ ps, p.1 < 2 ^ 39) :
    (saving cps).extLocs gk0 (mkCap 1 255 1 0 (2 ^ 32)) kind ps = (.ok (ps.map (fun p => (areaLoc p.1, p.2))), saving cps) := by
  induction ps with
  | nil => rfl
  | cons p ps ih =>
    obtain ⟨a, n⟩ := p
    have hb : Cap.base (mkCap 1 255 1 0 (2 ^ 32)) = 0 := by decide +kernel
    have hg : ((saving cps).group gk0).tk = 1 ∧ ((saving cps).group gk0).core = 0 := ⟨rfl, rfl⟩
    unfold State.extLocs
    rw [hg.1, hg.2, hb, Nat.sub_zero, saver_resolve cps a n kind (h (a, n) (by simp))]
    simp only [ih (fun p hp => h p (by simp [hp]))]
    rfl
/-- The pieces of the area. -/
def area : List (Loc × Nat) := (cutPages 0 (4096 + Config.saveOverhead.toNat)).map (fun p => (areaLoc p.1, p.2))
theorem saver_area (cps : List Checkpoint) (kind : AccKind) : AreaAt (saver cps) 1 kind area := by
  have hc := saver_cap cps
  have hb : Cap.base (mkCap 1 255 1 0 (2 ^ 32)) = 0 := by decide +kernel
  have hk : ((saver cps).kern (saver cps).iss.gk).saveSize = 4096 + Config.saveOverhead.toNat := rfl
  unfold AreaAt
  simp only [hc, hb, hk]
  refine saver_ext cps kind _ (fun p hp => ?_)
  have hlt := Config.saveOverhead.isLt
  unfold cutPages at hp
  split at hp
  · simp at hp
  · simp only [List.mem_map, List.mem_range] at hp
    obtain ⟨i, hi, rfl⟩ := hp
    show max 0 _ < _
    omega
theorem saver_plain (cps : List Checkpoint) : ((saver cps).kern (saver cps).iss.gk).det = false := by
  have h : ((saver cps).kern (saver cps).iss.gk).det = ((saver []).kern gk0).det := rfl
  rw [h]
  decide +kernel
theorem saver_moves (cps : List Checkpoint) (need : BitVec 8) (hn : (255 : BitVec 8) &&& need = need) : MayMove (saver cps) 1 need := by
  have hc := saver_cap cps
  refine ⟨rfl, ?_, .inl rfl, rfl, fun h => absurd h (by
    have h := saver_plain cps
    simpa [State.kern] using h)⟩
  have hk : ((saver cps).kern (saver cps).iss.gk).saveSize = 4096 + Config.saveOverhead.toNat := rfl
  have hlt := Config.saveOverhead.isLt
  have h1 : capOk (mkCap 1 255 1 0 (2 ^ 32)) = true ∧ Cap.type (mkCap 1 255 1 0 (2 ^ 32)) = 1 ∧
    Cap.rights (mkCap 1 255 1 0 (2 ^ 32)) = 255 ∧ Cap.len (mkCap 1 255 1 0 (2 ^ 32)) = 2 ^ 32 ∧ Cap.base (mkCap 1 255 1 0 (2 ^ 32)) = 0 := by
    decide +kernel
  unfold Covers
  rw [hc, hk, h1.2.1, h1.2.2.1, h1.2.2.2.1, h1.2.2.2.2]
  exact ⟨h1.1, by decide, by decide, by simp, hn, by omega, by omega⟩
theorem area_dev : ∀ p ∈ area, ∃ x pol, p.1 = .dev x pol false := by
  intro p hp
  simp only [area, List.mem_map] at hp
  obtain ⟨q, _, rfl⟩ := hp
  exact ⟨_, _, rfl⟩
theorem bytes_dev : ∀ l ∈ byteLocs area, ∃ x, l = .dev x .wb false := by
  intro l hl
  simp only [byteLocs, area, List.mem_flatMap, List.mem_map] at hl
  obtain ⟨p, ⟨q, _, rfl⟩, i, _, rfl⟩ := hl
  exact ⟨2 ^ 40 + q.1 + i, rfl⟩
theorem read_dev (s : State) (core : Nat) (ls : List Loc) (h : ∀ l ∈ ls, ∃ x, l = .dev x .wb false) :
    (s.readLocs core ls).1 = ls.map (fun l => match l with | .dev a _ _ => BitVec.ofNat 8 (s.devRead a 1) | _ => 0) := by
  induction ls with
  | nil => rfl
  | cons l ls ih =>
    obtain ⟨x, rfl⟩ := h l (by simp)
    have := ih (fun m hm => h m (by simp [hm]))
    have hd : s.devLoad x 1 (Pol.wb == Pol.wb) = (s.devRead x 1, s) := rfl
    simp only [State.readLocs, State.readNow, List.map_cons, Bool.false_eq_true, if_false, hd, this]
/-- A checkpoint of the team whose bytes are what the area holds. -/
def savedCp : Checkpoint :=
  { ln := 1, team := 0, bytes := (byteLocs area).map (fun l => match l with | .dev a _ _ => BitVec.ofNat 8 ((saver []).devRead a 1) | _ => 0)
    t := {}, lanes := [], groups := [], vreg := [], sreg := [], creg := [], jmask := [], scratch := [], acc := [], regions := [], slots := []
    slotCode := [], slotScale := [], tags := [], pairDone := [], bars := [], landing := [] }
theorem test_checkpoints_met :
    (Issues (saver []) (.ctxsave false 3 1) ∧ MayMove (saver []) 1 2 ∧ AreaAt (saver []) 1 .write area ∧
      ∀ p ∈ area, ∃ x pol, p.1 = .dev x pol false) ∧
    (Issues (saver []) (.ctxload false 3 1) ∧ MayMove (saver []) 1 1 ∧ AreaAt (saver []) 1 .read area ∧
      ∀ l ∈ byteLocs area, (saver []).hitsPoison l 1 = none) ∧
    (MayMove (saver [savedCp]) 1 1 ∧ AreaAt (saver [savedCp]) 1 .read area ∧
      ((saver [savedCp]).readLocs 0 (byteLocs area)).1 = savedCp.bytes ∧ Once savedCp ∧
      ((saver [savedCp]).l.checkpoints.filter (fun x => x.ln == 1 && x.team == 0 && x.bytes == savedCp.bytes)).getLast? = some savedCp) := by
  refine ⟨⟨issues_of (by decide +kernel), saver_moves _ _ (by decide), saver_area _ _, area_dev⟩,
    ⟨issues_of (by decide +kernel), saver_moves _ _ (by decide), saver_area _ _, fun l hl => ?_⟩,
    saver_moves _ _ (by decide), saver_area _ _, ?_, ?_, ?_⟩
  · obtain ⟨x, rfl⟩ := bytes_dev l hl; rfl
  · rw [read_dev _ _ _ bytes_dev]; rfl
  · unfold Once; decide +kernel
  · show ([savedCp].filter _).getLast? = _
    simp [savedCp]
/-- A capability of less than SAVESZ bytes. -/
theorem test_checkpoint_short_met : let s := withCap (saver []) 1 (mkCap 1 255 1 0 4095)
    Covers s (s.heldCap s.iss.gk s.low 1) [1] 3 0 0 ∧ (s.team 1).saving = none ∧ Cap.len (s.heldCap s.iss.gk s.low 1) < (s.kern s.iss.gk).saveSize ∧
    issuesB s (.ctxsave false 3 1) = true := by
  refine ⟨by unfold Covers; decide +kernel, by decide +kernel, ?_, by decide +kernel⟩
  have h : Cap.len (mkCap 1 255 1 0 4095) = 4095 := by decide +kernel
  show Cap.len (mkCap 1 255 1 0 4095) < 4096 + _
  omega

/-! ### Pair launches -/

/-- A pair record (Table 8.1): every candidate of two sets of two, mode UNILATERAL, sum CANONICAL, w = 1, tag 1, entry 1. -/
def pairRecord (test mode sum : Nat) : Nat :=
  test + mode * 2 ^ 2 + sum * 2 ^ 4 + 1 * 2 ^ 14 + 1 * 2 ^ 32 + 2 * 2 ^ 192 + 2 * 2 ^ 196 + 4 * 2 ^ 224 + 2 * 2 ^ 256 + 2 * 2 ^ 260 +
  4 * 2 ^ 288 + 5 * 2 ^ 320
def pairKern : Kern := { scratch := 4096, tagb := 4, codelen := 24, pregs := 8, accb := 1, handler := some 1, width := 16 }
def pairState (r : Nat) (threads : Tbl (Option Thread)) (g : Group := {}) (l : Lane := { st := .ready }) (t : Team := {}) : State :=
  let s := withCap (mapped (dev [0] g l t pairKern)) 5 (mkCap 5 255 0 0 65536)
  { s with t := { s.t with scratch := writeLE [] (scrKey 1 0) r 64 }, e := { s.e with threads := threads }
           l := { s.l with bankrole := [(0, 0xAAAAAAAAAAAAAAAA)] } }
def pairThread (r : Nat) (ph : PairPhase) (pairs : List Pair := []) : Thread :=
  { kind := .pair, tk := 1, gk := gk0, lane := 0, core := 0, tag := 1, block := [], capd := 0, caps := 0, lanes := [], got := [], put := []
    status := 0, waits := false, pair := { record := BitVec.ofNat 512 r, phase := ph, pairs := pairs
                                           caps := [0, 0, 0, mkCap 2 255 0 0 4096, mkCap 2 255 0 0 4096, mkCap 5 255 0 0 65536, 0, 0] } }
def r0 : Nat := pairRecord 3 2 1
def busy : Tbl (Option Thread) := (List.range 4).map (fun n => (n + 50, some (pairThread r0 .generating)))
theorem reads_pair (r : Nat) (ths : Tbl (Option Thread)) (hr : (pairState r ths).readNow 0 (.scr 1 0) 64 = ((BitVec.ofNat 512 r).toNat, pairState r ths))
    (h : TagFree (pairState r ths) 1 ∧ Permitted (pairState r ths) ((pairState r ths).heldCap gk0 0 2) [1, 2, 3] 1 0 64 ∧
      ((pairState r ths).group gk0).pair = false ∧ (pairState r ths).ownStores gk0 (.scr 1 0) 64 = false ∧
      (pairState r ths).hitsPoison (.scr 1 0) 64 = none ∧ ((pairState r ths).kern gk0).det = false ∧ NoneBehind (pairState r ths) ∧
      (pairState r ths).resolve 1 0 ((pairState r ths).heldCap gk0 0 2) 0 64 .read false false = (.ok (.scr 1 0), pairState r ths)) :
    ReadsPair (pairState r ths) 1 ((pairState r ths).heldCap gk0 0 2) 0 (.scr 1 0) (BitVec.ofNat 512 r) :=
  ⟨h.1, h.2.2.1, h.2.1, h.2.2.2.2.2.2.2, h.2.2.2.1, h.2.2.2.2.1, hr, h.2.2.2.2.2.1, h.2.2.2.2.2.2.1⟩
/-- A good record with a free place and without; a malformed one, whose tag is not the word's; a launch under a tag. -/
theorem test_pair_words_met :
    (issuesB (pairState r0 []) (.pairgo false 1 2 97) = true ∧ ((pairState r0 []).src gk0 0 97).toNat = 0 ∧ popsQ1 (.pairgo false 1 2 97) = false) ∧
    ReadsPair (pairState r0 []) 1 ((pairState r0 []).heldCap gk0 0 2) 0 (.scr 1 0) (BitVec.ofNat 512 r0) ∧
    ((pairState r0 []).pairCheck gk0 (BitVec.ofNat 512 r0).toNat (some 1) = none ∧ (pairState r0 []).martenUsed 0 < 4) ∧
    (ReadsPair (pairState r0 busy) 1 ((pairState r0 busy).heldCap gk0 0 2) 0 (.scr 1 0) (BitVec.ofNat 512 r0) ∧
      (pairState r0 busy).pairCheck gk0 (BitVec.ofNat 512 r0).toNat (some 1) = none ∧ 4 ≤ (pairState r0 busy).martenUsed 0) ∧
    (ReadsPair (pairState 0 []) 1 ((pairState 0 []).heldCap gk0 0 2) 0 (.scr 1 0) (BitVec.ofNat 512 0) ∧
      Malformed ((pairState 0 []).kern gk0) 1 (BitVec.ofNat 512 0)) ∧
    (((drawsState 0).group gk0).pair = true ∧ issuesB (drawsState 0) (.pairgo false 1 2 97) = true) := by
  refine ⟨by decide +kernel, reads_pair _ _ (by decide +kernel) ?_, by decide +kernel, ⟨reads_pair _ _ (by decide +kernel) ?_, by decide +kernel⟩,
    ⟨reads_pair _ _ (by decide +kernel) ?_, .inl (by decide +kernel)⟩, by decide +kernel⟩ <;>
  · unfold TagFree Permitted NoneBehind; decide +kernel
theorem test_pairstat_met : let s := withS (pairState 0 [(50, some (pairThread r0 .draining))]) 1 1
    (s.kern gk0).det = false ∧ (s.src gk0 0 97).toNat < (s.kern gk0).tagb ∧
    issuesB s (.pairstat false 3 97) = true ∧ TellsPairs s (s.src gk0 0 97).toNat 3 ∧ TellsPairs s 2 0 := by
  refine ⟨by decide +kernel, by decide +kernel, by decide +kernel, .inl ⟨50, pairThread r0 .draining, [], [], rfl, by simp, by decide +kernel, ?_⟩,
    .inr ⟨by decide +kernel, by decide +kernel⟩⟩
  decide +kernel

/-- A lane of pair (0, 1) of launch 50 that has staged side A. -/
def pairing (mode : Nat) (a b : Option (List Word)) : State :=
  pairState 0 [(50, some (pairThread (pairRecord 3 mode 1) .generating))] { pair := true }
    { st := .ready, pair := { th := 50, seq := 0, a := 0, b := 1, sideA := a, sideB := b } }
theorem test_pair_lanes_met :
    (issuesB (pairing 1 none none) (.pairout false 8 true) = true ∧ ((pairing 1 none none).group gk0).pair = true ∧ isV 8 = true ∧
      launchOfPair (pairing 1 none none) 0 = some (pairThread (pairRecord 3 1 1) .generating)) ∧
    (8 + sideWords (pairThread (pairRecord 3 1 1) .generating).pair.record ≤ 96 ∧ pairMode (pairThread (pairRecord 3 1 1) .generating).pair.record = 1) ∧
    (launchOfPair (pairing 2 none none) 0 = some (pairThread (pairRecord 3 2 1) .generating) ∧
      pairMode (pairThread (pairRecord 3 2 1) .generating).pair.record ≠ 1) ∧
    ((two.group gk0).pair = false ∧ issuesB two (.pairout false 8 false) = true ∧ popsQ1 (.pairout false 8 false) = false) ∧
    (issuesB (pairing 0 (some [7]) none) (.exit false) = true ∧ launchOfPair (pairing 0 (some [7]) none) 0 = some (pairThread (pairRecord 3 0 1) .generating) ∧
      field (pairThread (pairRecord 3 0 1) .generating).pair.record 9 1 = 0 ∧ pairMode (pairThread (pairRecord 3 0 1) .generating).pair.record < 2 ∧
      ((pairing 0 (some [7]) none).lane (lkOf gk0 0)).pair.sideA = some [7]) := by decide +kernel

/-- Copies of a fault record in scratch: of no FID, of an ordinary agent, of a pair with and without DROP. -/
def relaunching (r : Nat) (parked : Tbl (Option Parked)) : State := pairState r [] { role := 1 } { st := .ready } { parked := parked }
theorem test_pair_relaunch_met :
    (issuesB (relaunching 0 []) (.pairrelaunch false 2 97) = true ∧ ((relaunching 0 []).src gk0 0 97).toNat % 64 = 0 ∧ isS 97 = true ∧
      (97 : Opc).toNat ≤ 110) ∧ OfHandler (relaunching 0 []) ∧ Covers (relaunching 0 []) ((relaunching 0 []).heldCap gk0 0 2) anyType 1 0 64 ∧
    MayRelease (relaunching 0 []) .team ∧
    ((relaunching 0 []).resolve 1 0 ((relaunching 0 []).heldCap gk0 0 2) 0 64 .read false false = (.ok (.scr 1 0), relaunching 0 []) ∧
      (relaunching 0 []).ownStores gk0 (.scr 1 0) 64 = false ∧ (relaunching 0 []).hitsPoison (.scr 1 0) 64 = none) ∧
    (∀ r ∈ [0, 2 ^ 24, 2 ^ 17, 2 ^ 242], (relaunching r []).readNow 0 (.scr 1 0) 64 = ((BitVec.ofNat 512 r).toNat, relaunching r [])) ∧
    field (BitVec.ofNat 512 (2 ^ 24)) 24 8 ≠ 0 ∧ field (BitVec.ofNat 512 (2 ^ 17)) 17 1 = 1 ∧
    tget none ((relaunching 0 []).team 1).parked 0 = none ∧
    tget none ((relaunching 0 [(0, some { lane := none, pair := false })]).team 1).parked 0 = some { lane := none, pair := false } ∧
    (tget none ((relaunching 0 [(0, some { lane := some other, pair := true })]).team 1).parked 0 = some { lane := some other, pair := true } ∧
      other / 64 ≠ gk0 ∧ ((relaunching 0 []).group (other / 64)).width ≤ 64) := by
  unfold OfHandler Covers MayRelease; decide +kernel

/-! ### Engines, Marten, Beaver -/

/-- A thread over scratch, or from scratch to the page of object 5 that it holds pinned. -/
def worker (kind : ThreadKind) (cd cs : Cap) (block : List Word) (ls : List (Nat × Nat × Word)) (got : Tbl (Option Word)) (put : List Nat) (status : Nat := 0) : Thread :=
  { kind := kind, tk := 1, gk := gk0, lane := 0, core := 0, tag := 1, block := block, capd := cd, caps := cs, lanes := ls, got := got
    put := put, status := status, waits := false, pair := {}, pins := [{ cap := 5, page := 0, start := 0, loc := devLoc }] }
def engaged (x : Thread) (more : Tbl (Option Thread) := []) : State :=
  { dev [0] {} { st := .ready } {} { scratch := 4096, tagb := 4 } with e := { threads := [(50, some x)] ++ more } }
def scrCap : Cap := mkCap 2 255 0 0 4096
theorem reaches_scr {s : State} {th : Nat} {x : Thread} {c : Cap} {off n o : Nat} {kind : AccKind} (ho : o + n ≤ 2 ^ 40)
    (h : ∀ j, j < n → s.threadLoc th x c (off + j) 1 kind = (.ok (.scr 1 (o + j)), s) ∧ s.threadClear th x (.scr 1 (o + j)) 1 = true) :
    Reaches s th x c off n kind (fun j => .scr 1 (o + j)) :=
  fun j hj => ⟨by show o + j < 2 ^ 40; omega, (h j hj).1, (h j hj).2, fun _ => ⟨rfl, fun _ _ _ e => by cases e⟩⟩
def copyX (got : Tbl (Option Word)) : Thread := worker .copy memCap scrCap [0, 0, 64, 0, 8, 0] [] got []
theorem test_copy_accesses_met :
    (Working (engaged (copyX [])) 50 (copyX []) ∧ ((engaged (copyX [])).pieces (copyX []))[0]? = some ⟨0, 64, 8⟩ ∧ gotPiece (copyX []) 0 8 = none ∧
      Reaches (engaged (copyX [])) 50 (copyX []) scrCap 0 8 .read (fun j => .scr 1 (0 + j))) ∧
    (let x := copyX [(0, some 5), (1, some 6)]
     Working (engaged x) 50 x ∧ ((engaged x).pieces x).length + 0 = 1 ∧ ((engaged x).pieces x)[0]? = some ⟨0, 64, 8⟩ ∧
      gotPiece x 0 8 = some (5 + 2 ^ 32 * 6) ∧ 0 ∉ x.put ∧ Cap.type x.capd ≠ 4 ∧ Cap.type x.capd ≠ Cap.type x.caps ∧
      Reaches (engaged x) 50 x memCap 64 8 .write (Loc.shift (.dev (2 ^ 40 + 65536 + 64) .wb false))) := by
  refine ⟨⟨by unfold Working; decide +kernel, by decide +kernel, by decide +kernel, reaches_scr (by decide) (by decide +kernel)⟩,
    by unfold Working; decide +kernel, by decide +kernel, by decide +kernel, by decide +kernel, by decide, by decide +kernel, by decide +kernel,
    fun j hj => ⟨rfl, ?_, ?_, by simp⟩⟩
  · revert j; decide +kernel
  · revert j; decide +kernel
theorem test_vector_accesses_met :
    (let x := worker .gather 0 scrCap [] [(0, 4, 0)] [] []
     Working (engaged x) 50 x ∧ x.lanes[0]? = some (0, 4, 0) ∧ tget none x.got 0 = none ∧
      Reaches (engaged x) 50 x x.caps 4 4 .read (fun j => .scr 1 (4 + j))) ∧
    (let x := worker .scatter scrCap 0 [] [(0, 4, 9), (1, 8, 9)] [] [0]
     Working (engaged x) 50 x ∧ x.lanes[1]? = some (1, 8, 9) ∧ 1 ∉ x.put ∧ 1 ≤ x.put.length ∧
      Reaches (engaged x) 50 x x.capd 8 4 .write (Loc.shift (.scr 1 8))) ∧
    (let x := worker .scataddB scrCap 0 [] [(0, 4, 9)] [] []
     Working (engaged x) 50 x ∧ x.lanes[0]? = some (0, 4, 9) ∧ (engaged x).threadLoc 50 x x.capd 4 4 .atomic = (.ok (.scr 1 4), engaged x) ∧
      (engaged x).threadClear 50 x (.scr 1 4) 4 = true ∧ (engaged x).hitsPoison (.scr 1 4) 4 = none) ∧
    (∀ j, j < 4 → Direct ((Loc.scr 1 4).shift j)) := by
  refine ⟨⟨by unfold Working; decide +kernel, by decide +kernel, by decide +kernel, reaches_scr (by decide) (by decide +kernel)⟩,
    ⟨by unfold Working; decide +kernel, by decide +kernel, by decide, by decide, reaches_scr (by decide) (by decide +kernel)⟩,
    ⟨by unfold Working; decide +kernel, by decide +kernel, by decide +kernel, by decide +kernel, by decide +kernel⟩, fun j hj => ?_⟩
  show 4 + j < 2 ^ 40
  omega
/-- Work left, all work done, a failed thread; a vector; a copy of one word into the registers of the group. -/
theorem test_engine_completion_met :
    (let x := copyX []; (engaged x).thread 50 = some x ∧ x.status = 0 ∧ x.put.length ≠ ((engaged x).pieces x).length) ∧
    (let x := worker .copy memCap scrCap [0, 0, 64, 0, 8, 0] [] [] [0]
     x.put.length = ((engaged x).pieces x).length ∧ ((engaged x).teamOf x.gk).live = true ∧ Cap.type x.capd ≠ 4) ∧
    (let x := worker .gather 0 scrCap [] [(0, 4, 0)] [(0, some 7)] [0]
     x.put.length = ((engaged x).pieces x).length ∧ ∀ p ∈ (engaged x).e.threads, ¬ p.1 < 50) ∧
    (let x := worker .copy (mkCap 4 255 0 0 32768) scrCap [0, 0, 0, 0, 4, 2 ^ 26] [] [(0, some 7)] [0]
     (engaged x).regwAt 1 (Cap.base x.capd + ((x.block.getD 2 0).toNat + (x.block.getD 3 0).toNat * 2 ^ 32)) = some (gk0, 0, 0) ∧
     (engaged x).pieces x = [⟨0, 0, 4⟩] ∧ ((engaged x).teamOf gk0).live = true ∧ (x.block.getD 5 0).toNat / 2 ^ 26 = 1 ∧ x.put ≠ []) ∧
    (worker .copy memCap scrCap [0, 0, 64, 0, 8, 0] [] [] [] 3).status ≠ 0 := by decide +kernel

def marten (test mode : Nat) (ph : PairPhase) (pairs : List Pair := []) : State :=
  pairState 0 [(50, some (pairThread (pairRecord test mode 1) ph pairs))]
/-- Binning that has read all its keys. -/
def keyedX : Thread := { pairThread (pairRecord 2 2 1) .binning with
  got := [(2 * 2 ^ 32, some 5), (2 * 2 ^ 32 + 1, some 6), (3 * 2 ^ 32, some 6), (3 * 2 ^ 32 + 1, some 7)] }
def keyed : State := pairState 0 [(50, some keyedX)]
def onePair : List Pair := [⟨0, 1, [0, 0, 0, 0]⟩]
theorem test_marten_met :
    (Marten (marten 3 2 .queued) 50 (pairThread (pairRecord 3 2 1) .queued) .queued ∧ (marten 3 2 .queued).martenUsed 0 < 4 ∧
      ∀ p ∈ (marten 3 2 .queued).e.threads, ¬ p.1 < 50) ∧
    (Marten (marten 3 2 .binning) 50 (pairThread (pairRecord 3 2 1) .binning) .binning ∧ field (BitVec.ofNat 512 (pairRecord 3 2 1)) 12 1 = 0 ∧
      field (BitVec.ofNat 512 (pairRecord 3 2 1)) 0 2 = 3) ∧
    (Marten (marten 2 2 .binning) 50 (pairThread (pairRecord 2 2 1) .binning) .binning ∧ field (BitVec.ofNat 512 (pairRecord 2 2 1)) 0 2 = 2 ∧
      1 < countA (BitVec.ofNat 512 (pairRecord 2 2 1)) ∧ tget none (pairThread (pairRecord 2 2 1) .binning).got (2 * 2 ^ 32 + 1) = none ∧
      Reaches (marten 2 2 .binning) 50 (pairThread (pairRecord 2 2 1) .binning) (mkCap 2 255 0 0 4096) 4 4 .read (fun j => .scr 1 (4 + j)) ∧
      1 * field (BitVec.ofNat 512 (pairRecord 2 2 1)) 224 16 + field (BitVec.ofNat 512 (pairRecord 2 2 1)) 240 16 = 4) ∧
    (Marten keyed 50 keyedX .binning ∧ [(5 : Word), 6].length = countA keyedX.pair.record ∧ countB keyedX.pair.record = 2 ∧
      (∀ i, i < 2 → tget none keyedX.got (2 * 2 ^ 32 + i) = some ([5, 6].getD i 0) ∧
        tget none keyedX.got (3 * 2 ^ 32 + i) = some ([6, 7].getD i 0)) ∧ field keyedX.pair.record 9 1 = 0) ∧
    (Marten (marten 3 2 .generating onePair) 50 (pairThread (pairRecord 3 2 1) .generating onePair) .generating ∧
      ((marten 3 2 .generating onePair).team 1).kern.width ≤ 64 ∧ (∀ p ∈ onePair, p.v.length = 4) ∧
      (marten 3 2 .generating onePair).pairLanes 0 + 1 ≤ 2048 ∧ pairSum (BitVec.ofNat 512 (pairRecord 3 2 1)) = 1 ∧
      (marten 3 2 .generating onePair).windowUsed 0 + sidesOf (BitVec.ofNat 512 (pairRecord 3 2 1)) * 1 ≤ 4096 ∧
      (marten 3 2 .generating onePair).groupRoom 0 16 8 = some (1, 6144)) := by
  refine ⟨by unfold Marten; decide +kernel, by unfold Marten; decide +kernel, ?_⟩
  exact ⟨⟨by unfold Marten; decide +kernel, by decide +kernel, by decide +kernel, by decide +kernel,
    reaches_scr (by decide) (by decide +kernel), by decide +kernel⟩, by unfold Marten; decide +kernel, by unfold Marten; decide +kernel⟩

/-- A side of launch 50 on its way; the second of two CANONICAL sides of one slot. -/
def sided (x : Thread) (seq : Nat) : State :=
  let s := pairState 0 [(50, some x)]
  { s with e := { s.e with sides := [(60, some { th := 50, lane := 0, seq := seq, isB := false, words := [7], tk := 1, key := 0 })] } }
theorem test_beaver_met :
    (tget none (sided (pairThread (pairRecord 3 2 0) .draining) 0).e.sides 60 =
        some { th := 50, lane := 0, seq := 0, isB := false, words := [7], tk := 1, key := 0 } ∧
      pairSum (BitVec.ofNat 512 (pairRecord 3 2 0)) = 0 ∧ pairMode (BitVec.ofNat 512 (pairRecord 3 2 0)) ≠ 3 ∧
      0 + 4 * pairW (BitVec.ofNat 512 (pairRecord 3 2 0)) ≤ 2 ^ 24) ∧
    (let x := pairThread (pairRecord 3 2 1) .generating [⟨0, 0, []⟩, ⟨0, 1, []⟩]
     0 < 1 ∧ x.pair.pairs[0]? = some ⟨0, 0, []⟩ ∧ slotAt x 5 352 0 = 0 ∧ 2 * 0 ∉ x.pair.closed ∧ pairSum x.pair.record = 1 ∧
      pairMode x.pair.record ≥ 2 ∧ (sided x 1).thread 50 = some x) ∧
    Drained (pairState 0 [(50, some (pairThread (pairRecord 3 2 2) .draining))]) 50 (pairThread (pairRecord 3 2 2) .draining) ∧
    (let x := pairThread (pairRecord 3 2 2) .draining
     let s := pairState 0 [(50, some x)]
     pairSum x.pair.record = 2 ∧ pairMode x.pair.record = 2 ∧ x.pair.finished = false ∧ countA x.pair.record = 2 ∧ pairW x.pair.record = 1 ∧
      ∀ i, i < 2 → s.exactRivals 50 x (slotAt x 5 352 i) = [] ∧ (s.exactOf 50 1 0 (slotAt x 5 352 i)).other = 0 ∧
        (s.exactOf 50 1 0 (slotAt x 5 352 i)).osat = false ∧ (s.exactOf 50 1 0 (slotAt x 5 352 i)).onan = false) ∧
    (Drained (pairState 0 [(50, some (pairThread r0 .draining))]) 50 (pairThread r0 .draining) ∧
      pairSum (BitVec.ofNat 512 r0) ≠ 2 ∧ ((pairState 0 [(50, some (pairThread r0 .draining))]).teamOf gk0).live = true) ∧
    (let s := dev [0] { pair := true } { st := .ready, count := 4096 }
     (s.group gk0).pair = true ∧ 4096 ≤ (s.lane (lkOf gk0 0)).count ∧ liveLane (s.lane (lkOf gk0 0)) = true) ∧
    (two.lane (lkOf gk0 0)).count < 4096 := by
  unfold Drained
  refine ⟨by decide +kernel, by decide +kernel, ⟨by decide +kernel, by decide +kernel, by decide +kernel, by decide +kernel, ?_, by decide +kernel⟩,
    by decide +kernel, ⟨⟨by decide +kernel, by decide +kernel, by decide +kernel, by decide +kernel, ?_, by decide +kernel⟩, by decide +kernel⟩,
    by decide +kernel, by decide +kernel⟩ <;> intro p hp <;> exact absurd hp (List.not_mem_nil)

/-! ### The sequencer and the array -/

/-- E4M3 in slot 0, with a block scale of 16 in slot 1. Epilogue programs: EEND; ELDROW, EEND; EAMAX, EEND; a reserved word. -/
def seqKern : Kern := { kobj := 1, koff := 64, codelen := 12, mslen := 32, scratch := 65536, opndb := 2, accb := 2, epicount := 4
                        slots := [0xF430, 0x800F430] }
def programs : List Word := [16, 20, 28, 36, 0x3C000000, 0x29400000, 0x3C000000, 0x34100000, 0x3C000000, 0xFFFFFFFF]
/-- A team whose sequencer works, with an image of the given words at offset 64 of the table area of context 0. -/
def seqDev (q : Seq) (ws : List Word := programs) (k : Kern := seqKern) : State :=
  let s := dev [] {} { st := .ready } { seq := q } k
  let image := ws.foldr (fun w r => w.toNat + 2 ^ 32 * r) 0
  { s with
    cur := 1
    iss := {}
    o := { s.o with mem := writeLE (writeLE [] (2 ^ 40 + 32) placedEntry 32) (2 ^ 40 + 64) image (4 * ws.length) }
    x := { roots := [(0, placedRoot)] }
    g := { s.g with creg := [(cKey gk0 1, mkCap 2 255 0 0 65536), (cKey gk0 2, mkCap 2 255 0 0 65536)] } }
def wordIs (s : State) (k : Nat) (w : Word) : Bool := match s.mwordAt s.cur k with
  | (.ok v, u) => decide (v = w ∧ u = s)
  | _ => false
theorem word_is {s : State} {k : Nat} {w : Word} (h : wordIs s k w = true) : s.mwordAt s.cur k = (.ok w, s) := by
  unfold wordIs at h
  match hk : s.mwordAt s.cur k, h with
  | (.ok v, u), h => simp at h; rw [h.1, h.2]
  | (.error _, _), h => simp at h
/-- An operation of the sequencer that has not finished. -/
def pendOp : ArrOp := { tk := 1, gk := 0, core := 0, kind := .claim 1, record := 0, prog := [], caps := [], pins := [], started := false
                        row := 0, finished := false, bar := none }
def withOps (s : State) (ops : List ArrOp) : State :=
  { s with e := { s.e with fifo := (List.range ops.length).zip (ops.map some) } }
def looping : State := seqDev { st := .running, loops := [{ start := 1, left := 2 }] }
def skipping : State := seqDev {} [0, 0x28000000]
theorem test_stream_control_met :
    (0 ≤ (3 : BitVec 22).toInt ∧ (seqDev {}).seq.loops.length < 4 ∧ (3 : BitVec 22).toNat ≠ 0) ∧
    (0 ≤ (0 : BitVec 22).toInt ∧ (skipping.mreg 2).toNat = 0 ∧ Closes (fun _ => 0x28000000) (skipping.seq.idx + 1) 1 ∧
      1 < (skipping.team skipping.cur).kern.mslen / 4 ∧
      ∀ k, skipping.seq.idx < k → k ≤ 1 → (skipping).mwordAt 1 k = (.ok 0x28000000, skipping)) ∧
    (-1 : BitVec 22).toInt < 0 ∧ (seqDev {}).seq.loops = [] ∧ looping.seq.loops = { start := 1, left := 2 } :: [] ∧
    (withOps looping [pendOp]).seqOps = true ∧ looping.seqOps = false := by
  refine ⟨by decide +kernel, ⟨by decide +kernel, by decide +kernel, ?_, by decide +kernel, fun k h1 h2 => ?_⟩, by decide +kernel,
    by decide +kernel, by decide +kernel, by decide +kernel, by decide +kernel⟩
  · unfold Closes
    refine ⟨by decide +kernel, by decide +kernel, by decide +kernel, fun k h1 h2 => ?_⟩
    have h0 : skipping.seq.idx + 1 = 1 := by decide +kernel
    have : k = 1 := by omega
    subst this
    decide +kernel
  · have : k = 1 := by have : skipping.seq.idx = 0 := by decide +kernel
                       omega
    subst this
    exact word_is (by decide +kernel)

/-- Barrier 3 of the team whose sequencer works. -/
def seqBar (b : Barrier) (q : Seq := {}) : State := let s := seqDev q; { s with t := { s.t with bars := [(barKey 1 3, b)] } }
theorem test_stream_barriers_met :
    ((-1 : BitVec 22).toInt < 0 ∧ 16 ≤ (16 : BitVec 22).toInt ∧ 0 ≤ (3 : BitVec 22).toInt ∧ (3 : BitVec 22).toInt < 16) ∧
    (withOps (seqBar {}) [pendOp]).seqOps = true ∧ ((seqBar {}).seqOps = false ∧ (seqBar {}).relReady .team (seqAgent 1) = true) ∧
    (seqBar {}).bar 1 3 = {} ∧ (seqBar { expected := 2 }).bar 1 3 = { expected := 2 } ∧
    ((seqBar { gen := 1 }).bar 1 3).gen ≠ (seqBar { gen := 1 }).mreg 2 ∧ ((seqBar {}).bar 1 3).gen = (seqBar {}).mreg 2 ∧
    (seqBar {}).lanesGone 1 = true ∧ (let s := { two with cur := 1 }; (s.bar 1 3).gen = s.mreg 2 ∧ s.lanesGone 1 = false) := by decide +kernel
def posting (off : Word) : State := seqDev { st := .running, m := [(2, off)] }
theorem test_post_met : let c := (posting 8).creg (gkOf 1 0) 1
    (Cap.type c = tSCR ∧ capOk c = true ∧ hasRights c rW = true ∧ 65532 + 4 ≤ Cap.len c ∧ Cap.base c + 65532 + 4 ≤ 2 ^ 40) ∧
    ((posting 8).mreg 2).toNat = 8 ∧
    ((posting 8).resolve (posting 8).cur (((posting 8).team (posting 8).cur).cores.headD 0) c 8 4 .write false false).1 = .ok (.scr 1 8) ∧
    Cap.len c < ((posting 65536).mreg 2).toNat + 4 ∧ ((posting 6).mreg 2).toNat % 4 ≠ 0 ∧ (posting 8).seqOps = false ∧
    (withOps (posting 8) [pendOp]).seqOps = true :=
  ⟨by decide +kernel, by decide +kernel, by decide +kernel, by decide +kernel, by decide +kernel, by decide +kernel,
   by decide +kernel⟩

/-- Names 3 and 4 stand for slots, of E4M3 and of no class; the m registers; a budget of two slots, of which some are bound. -/
def naming (m : Tbl Word) (names : List (Nat × OSlot)) (ops : List ArrOp := []) : State :=
  let s := withOps (seqDev { st := .running, m := m }) ops
  { s with t := { s.t with slots := names.map (fun p => (slotKey 1 0 p.1, some p.2)) } }
def e4 (phys : Nat) : OSlot := { cls := .narrow8, fmt := 0, phys := phys }
def crowded (m : Tbl Word) (names : List (Nat × OSlot)) : State := naming m names (List.replicate 32 pendOp)
def given : ArrOp := { pendOp with kind := .release [70] }
theorem test_array_words_met :
    ((0 : BitVec 4) ≠ 1 ∧ 0 < (2 : Opc).toNat ∧ ((naming [] []).mreg 0).toNat + (2 : Opc).toNat ≤ 64 ∧
      (∀ j, j < (2 : Opc).toNat → nameOf (naming [] []) (0 + j) = none) ∧
      (naming [] []).boundSlots ((naming [] []).bySeq 1) + (naming [] []).unreturned ((naming [] []).bySeq 1) + (2 : Opc).toNat ≤
        ((naming [] []).team 1).kern.opndb ∧ FifoRoom (naming [] [])) ∧
    ((∀ j, j < 1 → nameOf (crowded [] []) (0 + j) = none) ∧
      (crowded [] []).boundSlots ((crowded [] []).bySeq 1) + (crowded [] []).unreturned ((crowded [] []).bySeq 1) + 1 ≤
        ((crowded [] []).team 1).kern.opndb ∧ ¬ FifoRoom (crowded [] [])) ∧
    (let s := naming [] [(3, e4 60)] [given]
     (∀ j, j < 1 → nameOf s (0 + j) = none) ∧ s.boundSlots (s.bySeq 1) + 1 ≤ (s.team 1).kern.opndb ∧
      (s.team 1).kern.opndb < s.boundSlots (s.bySeq 1) + s.unreturned (s.bySeq 1) + 1) ∧
    (let s := naming [(1, 3), (2, 4)] [(3, e4 60), (4, { phys := 61 })]
     (∀ j, j < 2 → nameOf s ((s.mreg 1).toNat + j) = some (if j = 0 then e4 60 else { phys := 61 })) ∧ FifoRoom s ∧
      (s.mreg 0).toNat < (s.team 1).kern.accb ∧ (s.mreg 1).toNat < 64 ∧ (s.mreg 2).toNat < 64 ∧ nameOf s (s.mreg 1).toNat = some (e4 60) ∧
      nameOf s (s.mreg 2).toNat = some { phys := 61 } ∧ MmaFits s (e4 60) { phys := 61 } (s.mreg 0).toNat false false) := by
  unfold FifoRoom MmaFits IntReady; decide +kernel
def epiBad (s : State) (n m : Nat) : Bool := match s.epiProgram (seqCore s) (s.team s.cur).kern n with
  | (.bad k, u) => decide (k = m ∧ u = s)
  | _ => false
theorem epi_bad {s : State} {n m : Nat} (h : epiBad s n m = true) : s.epiProgram (seqCore s) (s.team s.cur).kern n = (.bad m, s) := by
  unfold epiBad at h
  match hk : s.epiProgram (seqCore s) (s.team s.cur).kern n, h with
  | (.bad k, u), h => simp at h; rw [h.1, h.2]
  | (.ok _, _), h => simp at h
  | (.miss _ _, _), h => simp at h
/-- Names out of range; a name claimed twice, and one not bound; more than the budget; regions and slots that TMMA may not
use; an epilogue program with a reserved word; a kernel with a handler role. -/
theorem test_array_word_faults_met :
    (¬ (0 < (0 : Opc).toNat) ∧ 64 < ((naming [(1, 63)] []).mreg 1).toNat + (2 : Opc).toNat ∧ 64 ≤ ((naming [(1, 64)] []).mreg 1).toNat) ∧
    (let s := naming [(1, 3), (2, 4), (3, 1), (4, 2)] [(3, e4 60)]
     (∃ j, j < 2 ∧ nameOf s ((s.mreg 1).toNat + j) ≠ none) ∧ (∃ j, j < 2 ∧ nameOf s ((s.mreg 1).toNat + j) = none) ∧
      (∀ j, j < 2 → nameOf s ((s.mreg 2).toNat + j) = none) ∧ (s.team 1).kern.opndb < s.boundSlots (s.bySeq 1) + 2 ∧
      nameOf s (s.mreg 1).toNat = some (e4 60) ∧ nameOf s (s.mreg 2).toNat = none ∧ (s.team 1).kern.accb ≤ (s.mreg 4).toNat ∧
      (s.mreg 3).toNat < (s.team 1).kern.accb ∧ (3 : BitVec 5).toNat < (s.team 1).kern.epicount ∧ (s.team 1).kern.epicount ≤ (4 : BitVec 5).toNat ∧
      ¬ MmaFits s (e4 60) (e4 60) (s.mreg 4).toNat false false ∧ ¬ MmaFits s (e4 60) (e4 60) 0 false true) ∧
    (let s := naming [(1, 3), (2, 64)] [(3, e4 60)]
     (s.mreg 1).toNat < 64 ∧ nameOf s (s.mreg 1).toNat = some (e4 60) ∧ 64 ≤ (s.mreg 2).toNat) ∧
    (let s := naming [] []
     s.epiProgram (seqCore s) (s.team s.cur).kern (3 : BitVec 5).toNat = (.bad 0, s)) ∧
    ((seqDev {}).team 1).kern.handler = none ∧ ((seqDev {} [] { handler := some 1 }).team 1).kern.handler ≠ none := by
  refine ⟨by decide +kernel, by unfold MmaFits IntReady; decide +kernel, by decide +kernel, epi_bad (by decide +kernel), by decide +kernel, by decide +kernel⟩

/-! Records of TLOAD (Table 8.2) and TDRAIN (Table 8.3) in scratch. -/
def recording (r : Nat) : State :=
  let s := naming [(1, 3)] [(3, e4 60)]
  { s with t := { s.t with scratch := writeLE [] (scrKey 1 0) r 64 } }
def readsRec (s : State) (n v : Nat) : Bool := match s.readRecord (s.bySeq s.cur) (s.mreg 2).toNat n with
  | .ok r u => decide (r = v ∧ u = s)
  | _ => false
theorem reads_rec {s : State} {n v : Nat} (h : readsRec s n v = true) : s.readRecord (s.bySeq s.cur) (s.mreg 2).toNat n = .ok v s := by
  unfold readsRec at h
  match hk : s.readRecord (s.bySeq s.cur) (s.mreg 2).toNat n, h with
  | .ok r u, h => simp at h; rw [h.1, h.2]
  | .fault _, h => simp at h
  | .wait _ _, h => simp at h
def pinsTo (s : State) (caps : List Cap) (es : List Ext) : Bool := match s.extsPin (s.bySeq s.cur) caps [] es with
  | .ok _ u => decide (u = s)
  | _ => false
theorem pins_to {s : State} {caps : List Cap} {es : List Ext} (h : pinsTo s caps es = true) :
    ∃ pins, s.extsPin (s.bySeq s.cur) caps [] es = .ok pins s := by
  unfold pinsTo at h
  match hk : s.extsPin (s.bySeq s.cur) caps [] es, h with
  | .ok p u, h => simp at h; rw [h]; exact ⟨p, rfl⟩
  | .fault _, h => simp at h
  | .wait _ _, h => simp at h
def epiIs (s : State) (n : Nat) (ws : List Word) : Bool := match s.epiProgram (seqCore s) (s.team s.cur).kern n with
  | (.ok k, u) => decide (k = ws ∧ u = s)
  | _ => false
theorem epi_is {s : State} {n : Nat} {ws : List Word} (h : epiIs s n ws = true) :
    s.epiProgram (seqCore s) (s.team s.cur).kern n = (.ok ws, s) := by
  unfold epiIs at h
  match hk : s.epiProgram (seqCore s) (s.team s.cur).kern n, h with
  | (.ok k, u), h => simp at h; rw [h.1, h.2]
  | (.bad _, _), h => simp at h
  | (.miss _ _, _), h => simp at h
theorem same_work (s : State) : SameWork s s := ⟨rfl, rfl, rfl, rfl⟩
/-- STRIDE and its capability c2; the scale plane's offset and stride, through c2 as well. -/
def loadRec (stride soff : Nat) : Nat := stride * 2 ^ 64 + 2 * 2 ^ 96 + 2 * 2 ^ 99 + soff * 2 ^ 128 + 16 * 2 ^ 192
theorem test_load_records_met :
    (let r := loadRec 128 0; let s := recording r
     let caps := [s.creg (gkOf s.cur 0) (part r 96 3), s.creg (gkOf s.cur 0) (part r 99 3)]
     ((s.mreg 1).toNat < 64 ∧ nameOf s (s.mreg 1).toNat = some (e4 60)) ∧ s.readRecord (s.bySeq s.cur) (s.mreg 2).toNat 32 = .ok r s ∧
      SameWork s s ∧ LoadFits (s.team 1).kern 0 0 r ∧ ((s.team 1).kern.fmt 0).blockLen = 0 ∧
      s.extsCheck (s.bySeq 1) caps (loadExts (s.team 1).kern 0 r) = none ∧
      (∃ pins, s.extsPin (s.bySeq s.cur) caps [] (loadExts (s.team 1).kern 0 r) = .ok pins s) ∧ FifoRoom s) ∧
    (let r := loadRec 128 1; let s := recording r
     s.readRecord (s.bySeq s.cur) (s.mreg 2).toNat 32 = .ok r s ∧ LoadFits (s.team 1).kern 1 0 r ∧ ((s.team 1).kern.fmt 1).blockLen ≠ 0 ∧
      part r 128 64 % 2 ≠ 0) ∧
    (let r := loadRec 127 0; let s := recording r
     s.readRecord (s.bySeq s.cur) (s.mreg 2).toNat 32 = .ok r s ∧ ¬ LoadFits (s.team 1).kern 0 0 r) ∧
    (let r := loadRec 1024 0; let s := recording r
     let caps := [s.creg (gkOf s.cur 0) (part r 96 3), s.creg (gkOf s.cur 0) (part r 99 3)]
     s.readRecord (s.bySeq s.cur) (s.mreg 2).toNat 32 = .ok r s ∧ LoadFits (s.team 1).kern 0 0 r ∧ ((s.team 1).kern.fmt 0).blockLen = 0 ∧
      (s.extsCheck (s.bySeq 1) caps (loadExts (s.team 1).kern 0 r)).isSome = true) := by
  refine ⟨⟨by decide +kernel, reads_rec (by decide +kernel), same_work _, by unfold LoadFits; decide +kernel, by decide +kernel,
    by decide +kernel, pins_to (by decide +kernel), by unfold FifoRoom; decide +kernel⟩,
    ⟨reads_rec (by decide +kernel), by unfold LoadFits; decide +kernel, by decide +kernel, by decide +kernel⟩,
    ⟨reads_rec (by decide +kernel), by unfold LoadFits; decide +kernel⟩,
    ⟨reads_rec (by decide +kernel), by unfold LoadFits; decide +kernel, by decide +kernel, by decide +kernel⟩⟩

/-- Which E-words a program uses, as a value. -/
def usesB (ws : List Word) (p : Instr → Bool) : Bool := ws.any (fun w => match decodeE w with | .ok i => p i | .error _ => false)
theorem uses_iff (ws : List Word) (p : Instr → Bool) (q : Instr → Prop) (h : ∀ i, q i ↔ p i = true) : Uses ws q ↔ usesB ws p = true := by
  simp only [Uses, usesB, List.any_eq_true]
  constructor
  · rintro ⟨w, hw, i, hi, hq⟩
    exact ⟨w, hw, by simp only [hi]; exact (h i).mp hq⟩
  · rintro ⟨w, hw, hp⟩
    match hd : decodeE w, hp with
    | .ok i, hp => exact ⟨w, hw, i, hd, (h i).mpr hp⟩
    | .error _, hp => simp at hp
def isVec (i : Instr) : Bool := match i with | .eldrow _ => true | .eldcol _ => true | _ => false
def isAmax (i : Instr) : Bool := match i with | .eamax _ => true | _ => false
def badCvt (k : Kern) (i : Instr) : Bool := match i with
  | .ecvt _ _ g => k.fmtEmpty g.toNat || (k.fmt g.toNat).kind != .narrow
  | _ => false
theorem is_vec (i : Instr) : ((∃ e, i = .eldrow e) ∨ ∃ e, i = .eldcol e) ↔ isVec i = true := by cases i <;> simp [isVec]
theorem is_amax (i : Instr) : (∃ e, i = .eamax e) ↔ isAmax i = true := by cases i <;> simp [isAmax]
theorem bad_cvt (k : Kern) (i : Instr) : (∃ x y g, i = .ecvt x y g ∧ (k.fmtEmpty g.toNat = true ∨ (k.fmt g.toNat).kind ≠ .narrow)) ↔
    badCvt k i = true := by
  cases i <;> simp [badCvt]
theorem drain_fits {k : Kern} {f d : Nat} {ws : List Word} (h : usesB ws (badCvt k) = false)
    (hd : part d 224 32 = 0 ∧ part d 104 24 = 0 ∧ part d 99 2 ≠ 3 ∧ part d 99 2 = 0 ∧ 512 ≤ part d 64 32) : DrainFits k f d ws := by
  refine ⟨hd.1, hd.2.1, hd.2.2.1, fun h1 => ?_, fun hu => ?_, fun _ => hd.2.2.2.2, fun h1 => ?_⟩
  · rw [hd.2.2.2.1] at h1; cases h1
  · rw [uses_iff ws _ _ (bad_cvt k), h] at hu; cases hu
  · rw [hd.2.2.2.1] at h1; cases h1
/-- STRIDE, DKIND, the offsets of the vector block and of the amax word; the destination through c2, the amax word through c1. -/
def drainRec (stride dkind voff aoff : Nat) : Nat := stride * 2 ^ 64 + 2 * 2 ^ 96 + dkind * 2 ^ 99 + 1 * 2 ^ 101 + aoff * 2 ^ 128 + voff * 2 ^ 192
def drains (s : State) (p d : Nat) (ws : List Word) (uv ua : Bool) : Prop :=
  s.epiProgram (seqCore s) (s.team s.cur).kern p = (.ok ws, s) ∧ s.readRecord (s.bySeq s.cur) (s.mreg 2).toNat 64 = .ok d s ∧
  (uv = true ↔ Uses ws (fun i => (∃ e, i = .eldrow e) ∨ ∃ e, i = .eldcol e)) ∧ (ua = true ↔ Uses ws (fun i => ∃ e, i = .eamax e))
theorem drains_of {s : State} {p d : Nat} {ws : List Word} {uv ua : Bool} (h : (epiIs s p ws && readsRec s 64 d) = true)
    (hu : usesB ws isVec = uv ∧ usesB ws isAmax = ua) : drains s p d ws uv ua := by
  simp only [Bool.and_eq_true] at h
  refine ⟨epi_is h.1, reads_rec h.2, ?_, ?_⟩
  · rw [uses_iff ws isVec _ is_vec, hu.1]
  · rw [uses_iff ws isAmax _ is_amax, hu.2]
theorem test_drain_records_met :
    (let d := drainRec 512 0 0 0; let s := recording d; let ws : List Word := [0x3C000000]
     let caps := [s.creg (gkOf s.cur 0) (part d 96 3), s.creg (gkOf s.cur 0) 1, s.creg (gkOf s.cur 0) (part d 101 3)]
     ((s.mreg 3).toNat < (s.team 1).kern.accb ∧ (0 : BitVec 5).toNat < (s.team 1).kern.epicount) ∧ drains s 0 d ws false false ∧
      DrainFits (s.team 1).kern 0 d ws ∧ s.extsCheck (s.bySeq 1) caps (drainExts (s.team 1).kern 0 d false false) = none ∧
      (∃ pins, s.extsPin (s.bySeq s.cur) caps [] (drainExts (s.team 1).kern 0 d false false) = .ok pins s) ∧ FifoRoom s) ∧
    (let d := drainRec 512 3 0 0; let s := recording d
     drains s 0 d [0x3C000000] false false ∧ ¬ DrainFits (s.team 1).kern 0 d [0x3C000000]) ∧
    (let d := drainRec 512 0 2 0; let s := recording d; let ws : List Word := [0x29400000, 0x3C000000]
     drains s 1 d ws true false ∧ DrainFits (s.team 1).kern 0 d ws ∧ part d 192 32 % 4 ≠ 0) ∧
    (let d := drainRec 512 0 0 2; let s := recording d; let ws : List Word := [0x34100000, 0x3C000000]
     drains s 2 d ws false true ∧ DrainFits (s.team 1).kern 0 d ws ∧ part d 128 64 % 4 ≠ 0) ∧
    (let d := drainRec 1024 0 0 0; let s := recording d; let ws : List Word := [0x3C000000]
     let caps := [s.creg (gkOf s.cur 0) (part d 96 3), s.creg (gkOf s.cur 0) 1, s.creg (gkOf s.cur 0) (part d 101 3)]
     drains s 0 d ws false false ∧ DrainFits (s.team 1).kern 0 d ws ∧
      (s.extsCheck (s.bySeq 1) caps (drainExts (s.team 1).kern 0 d false false)).isSome = true) := by
  refine ⟨⟨by decide +kernel, drains_of (by decide +kernel) (by decide +kernel), drain_fits (by decide +kernel) (by decide +kernel),
      by decide +kernel, pins_to (by decide +kernel), by unfold FifoRoom; decide +kernel⟩,
    ⟨drains_of (by decide +kernel) (by decide +kernel), fun h => absurd h.2.2.1 (by decide +kernel)⟩,
    ⟨drains_of (by decide +kernel) (by decide +kernel), drain_fits (by decide +kernel) (by decide +kernel), by decide +kernel⟩,
    ⟨drains_of (by decide +kernel) (by decide +kernel), drain_fits (by decide +kernel) (by decide +kernel), by decide +kernel⟩,
    ⟨drains_of (by decide +kernel) (by decide +kernel), drain_fits (by decide +kernel) (by decide +kernel), by decide +kernel⟩⟩

/-! Entries of the array FIFO. -/
def entering (xs : List ArrOp) (e : Tbl Word := []) (prog : List Word := []) : State :=
  { seqDev {} with e := { fifo := (List.range xs.length).zip (xs.map some), epi := { op := 0, prog := prog, e := e } } }
theorem one_entry {x y : ArrOp} {k : Nat} (h : tget none (entering [x]).e.fifo k = some y) : k = 0 ∧ y = x := by
  have e : (entering [x]).e.fifo = [(0, some x)] := rfl
  rw [e] at h
  by_cases hk : k = 0
  · subst hk
    simpa [tget, eq_comm] using h
  · simp [tget, Ne.symm hk] at h
def zeroing (ord : Nat) : ArrOp := { pendOp with kind := .zeroRegion 1, ord := ord }
def started (k : ArrKind) : ArrOp := { pendOp with kind := k, started := true, ord := 1 }
theorem waits_alone (x : ArrOp) : ItsTurn (entering [x]) 0 x := fun _ _ h =>
  have e := one_entry h.1
  ⟨fun _ => Nat.zero_le _, fun hi => absurd (congrArg ArrOp.issuer e.2) hi⟩
theorem test_array_order_met :
    (tget none (entering [zeroing 1]).e.fifo 0 = some (zeroing 1) ∧ (zeroing 1).started = false ∧ (zeroing 1).finished = false ∧
      keysRise (entering [zeroing 1]).e.fifo = true ∧ ((entering [zeroing 1]).team 1).stops = false ∧ ((entering [zeroing 1]).team 1).saved = false ∧
      (zeroing 1).ord ≠ 0) ∧
    (∀ k y, tget none (entering [zeroing 1]).e.fifo k = some y → k ≠ 0 → y.core = (zeroing 1).core → y.finished = false → y.ord ≠ 0 →
      ¬ (y.ord < 1 ∧ Binds (zeroing 1) y) ∧ ¬ (y.started = true ∧ SameUnit y (zeroing 1))) ∧
    (tget none (entering [zeroing 1, zeroing 2]).e.fifo 1 = some (zeroing 2) ∧ keysRise (entering [zeroing 1, zeroing 2]).e.fifo = true) ∧
    ¬ (∀ k y, tget none (entering [zeroing 1, zeroing 2]).e.fifo k = some y → k ≠ 1 → y.core = (zeroing 2).core → y.finished = false → y.ord ≠ 0 →
      ¬ (y.ord < 2 ∧ Binds (zeroing 2) y) ∧ ¬ (y.started = true ∧ SameUnit y (zeroing 2))) := by
  refine ⟨by decide +kernel, fun k y h hk => absurd (one_entry h).1 hk, by decide +kernel, fun h => ?_⟩
  exact (h 0 (zeroing 1) (by decide +kernel) (by decide) (by decide) (by decide) (by decide)).1 ⟨by decide, .inr (.inl ⟨1, by decide, by decide⟩)⟩
/-- A post alone in its q3 has its turn; behind an older one of its issuer, or behind a full FIFO, it waits. -/
def fullFifo : State := entering (List.replicate 32 (zeroing 1) ++ [zeroing 0])
theorem test_array_places_met :
    (tget none (entering [zeroing 0]).e.fifo 0 = some (zeroing 0) ∧ keysRise (entering [zeroing 0]).e.fifo = true ∧
      (entering [zeroing 0]).fifoUsed 0 < 32 ∧ ItsTurn (entering [zeroing 0]) 0 (zeroing 0)) ∧
    (∀ k y, WaitsInQ3 (entering [zeroing 0]) 0 k y → y.issuer < 2 ^ 64) ∧
    (tget none (entering [zeroing 0, zeroing 0]).e.fifo 1 = some (zeroing 0) ∧ ¬ ItsTurn (entering [zeroing 0, zeroing 0]) 1 (zeroing 0)) ∧
    (tget none fullFifo.e.fifo 32 = some (zeroing 0) ∧ keysRise fullFifo.e.fifo = true ∧ 32 ≤ fullFifo.fifoUsed 0) := by
  refine ⟨⟨by decide +kernel, by decide +kernel, by decide +kernel, waits_alone _⟩, fun k y h => ?_,
    ⟨by decide +kernel, fun h => ?_⟩, by decide +kernel⟩
  · rw [(one_entry h.1).2]; decide
  · exact absurd ((h 0 (zeroing 0) (by unfold WaitsInQ3; decide +kernel)).1 rfl) (by decide)
/-- Scratch pins for the capabilities of an entry. -/
def pinned (k : ArrKind) (r : Nat) (row : Nat := 0) : ArrOp :=
  { started k with record := BitVec.ofNat 512 r, caps := [mkCap 2 255 0 0 65536, mkCap 2 255 0 0 65536, mkCap 2 255 0 0 65536], row := row
                   pins := [⟨0, 0, 0, .scr 1 0, 0⟩, ⟨1, 0, 0, .scr 1 0, 0⟩, ⟨2, 0, 0, .scr 1 0, 0⟩] }
theorem pinned_at (k : ArrKind) (r row cap off : Nat) (hc : cap < 3) (h : off < 65536) : (pinned k r row).at cap off = .scr 1 off := by
  have hb : Cap.base ((pinned k r row).caps.getD cap 0) = 0 := by
    have : ∀ c < 3, Cap.base ((pinned (.claim 0) 0 0).caps.getD c 0) = 0 := by decide +kernel
    exact this cap hc
  have hd : (0 + off) / 65536 = 0 := by omega
  unfold ArrOp.at
  simp only [hb, hd]
  interval_cases cap <;> simp [pinned, started, Loc.shift]
/-- Scratch bytes of a team whose scratch is whole can be read; an entry with no store behind it and no other member's slice. -/
theorem scr_readable {s : State} {o : Nat} (ho : o < 2 ^ 40) (h : s.hitsPoison (.scr 1 o) 1 = none) : Readable s (.scr 1 o) :=
  ⟨ho, h, fun _ _ _ e => nomatch e⟩
theorem stores_done {s : State} {id : Nat} {x : ArrOp} (h1 : s.o.pend = []) (h2 : s.o.cbuf = []) : StoresDone s id x := by
  unfold StoresDone; rw [h1, h2]; exact ⟨fun _ h => absurd h List.not_mem_nil, fun _ h => absurd h List.not_mem_nil⟩
theorem own_slice {s : State} (k : ArrKind) (r row : Nat) : SlicesPresent s (pinned k r row) := by
  have e : (pinned k r row).pins = [⟨0, 0, 0, .scr 1 0, 0⟩, ⟨1, 0, 0, .scr 1 0, 0⟩, ⟨2, 0, 0, .scr 1 0, 0⟩] := rfl
  have ht : (pinned k r row).tk = 1 := rfl
  unfold SlicesPresent
  rw [e, ht]
  generalize s.departed = d
  intro p hp y o h
  simp only [List.mem_cons, List.not_mem_nil, or_false] at hp
  rcases hp with rfl | rfl | rfl <;> exact .inl (Loc.scr.inj h).1.symm
def rowLoad (row : Nat := 0) : ArrOp := pinned (.load 60 1 0) (loadRec 128 0) row
/-- The same load from the slice of member 2, which has left. -/
def loadGone : ArrOp := { rowLoad with pins := [⟨0, 0, 0, .scr 2 0, 0⟩] }
def goneDev : State :=
  (entering [loadGone]).setTeam 2 { (entering [loadGone]).team 1 with gst := .left }
theorem test_array_entries_met :
    (Running (entering [started (.claim 1)]) 0 (started (.claim 1)) ∧ ((entering [started (.claim 1)]).kern (gkOf 1 0)).det = false) ∧
    Running (entering [started (.release [60])]) 0 (started (.release [60])) ∧
    Running (entering [pinned (.drain 1 .float 0 0) 0 128]) 0 (pinned (.drain 1 .float 0 0) 0 128) ∧
    Running (entering [pinned (.drain 1 .float 0 0) 0 127]) 0 (pinned (.drain 1 .float 0 0) 0 127) ∧
    (Running (entering [started (.zeroRegion 255)]) 0 (started (.zeroRegion 255)) ∧
      (entering [started (.zeroRegion 255)]).meeting (started (.zeroRegion 255)) = []) ∧
    Running (entering [started (.zeroSlot 60)]) 0 (started (.zeroSlot 60)) ∧
    (Running (entering [started (.mma 60 61 0 0 .narrow8 .narrow8 255 true true)]) 0 (started (.mma 60 61 0 0 .narrow8 .narrow8 255 true true)) ∧
      (entering [started (.mma 60 61 0 0 .narrow8 .narrow8 255 true true)]).meeting (started (.mma 60 61 0 0 .narrow8 .narrow8 255 true true)) = []) := by
  unfold Running
  decide +kernel
theorem test_array_rows_met :
    (Running (entering [rowLoad 127]) 0 (rowLoad 127) ∧ (seqKern.fmt 1).blockLen ≠ 0 ∧ ((entering [rowLoad 127]).team 1).kern = seqKern ∧
      StoresDone (entering [rowLoad 127]) 0 (rowLoad 127) ∧ SlicesPresent (entering [rowLoad 127]) (rowLoad 127)) ∧
    (∀ j, j < 128 → (rowLoad 127).at 0 (0 + 127 * 128 + j) = .scr 1 (0 + 127 * 128 + j) ∧ Readable (entering [rowLoad 127]) (.scr 1 (0 + 127 * 128 + j))) ∧
    (∀ j, j < 16 → (rowLoad 127).at 1 (0 + 127 * 16 + j) = .scr 1 (0 + 127 * 16 + j) ∧ Readable (entering [rowLoad 127]) (.scr 1 (0 + 127 * 16 + j))) ∧
    (part (rowLoad 127).record.toNat 0 64 = 0 ∧ part (rowLoad 127).record.toNat 64 32 = 128 ∧
      part (rowLoad 127).record.toNat 128 64 = 0 ∧ part (rowLoad 127).record.toNat 192 32 = 16 ∧
      rowBytesOf (seqKern.fmt 1) (depthOf (seqKern.fmt 1).cls) = 128 ∧ 2 * scalesOf (seqKern.fmt 1) = 16) ∧
    Running (entering [rowLoad 128]) 0 (rowLoad 128) ∧
    (Running goneDev 0 loadGone ∧ loadGone.row < 128 ∧ SliceGone goneDev loadGone (goneDev.loadLocs loadGone)) := by
  have hr : ∀ row, Running (entering [rowLoad row]) 0 (rowLoad row) := fun row => ⟨rfl, rfl, rfl⟩
  refine ⟨⟨hr _, by decide +kernel, by decide +kernel, stores_done rfl rfl, own_slice _ _ _⟩,
    fun j hj => ⟨pinned_at _ _ _ _ _ (by decide) (by omega), scr_readable (by omega) rfl⟩,
    fun j hj => ⟨pinned_at _ _ _ _ _ (by decide) (by omega), scr_readable (by omega) rfl⟩, by decide +kernel, hr _,
    ⟨by decide +kernel, by decide +kernel, by decide +kernel⟩, by decide +kernel, .scr 2 0, by decide +kernel, 2, 0, rfl, by decide +kernel, by decide +kernel⟩

/-- A drain of region 1 to FP32 words at 0 of scratch, the vector block at 0, the amax word at 0, in its row 3. -/
def draining : ArrOp := pinned (.drain 1 .float 0 0) (drainRec 512 0 0 0) 3
theorem test_epilogue_words_met :
    Draining (entering [draining]) draining 1 .float 0 0 ∧
    (∀ i, i < 1024 → draining.at 1 (0 + i) = .scr 1 (0 + i) ∧ Readable (entering [draining]) (.scr 1 (0 + i))) ∧
    (part draining.record.toNat 192 32 = 0 ∧ draining.row < 128) ∧
    (draining.at 2 (part draining.record.toNat 128 64) = .scr 1 0 ∧ (∀ i, i < 4 → Direct ((Loc.scr 1 0).shift i)) ∧
      (entering [draining]).hitsPoison (.scr 1 0) 4 = none) := by
  unfold Draining
  refine ⟨by decide +kernel, fun i hi => ⟨pinned_at _ _ _ _ _ (by decide) (by omega), scr_readable (by omega) rfl⟩, by decide +kernel, ?_, fun i hi => ?_, rfl⟩
  · have h : part draining.record.toNat 128 64 = 0 := by decide +kernel
    rw [h]; exact pinned_at _ _ _ _ _ (by decide) (by decide)
  · show 0 + i < 2 ^ 40; omega
theorem test_epilogue_rows_met :
    (Running (entering [draining]) 0 draining ∧ draining.row < 128 ∧ (entering [draining]).e.epi.prog = [] ∧
      ((entering [draining]).team 1).stops = false ∧ (entering [draining]).rowReady 0 draining 0 = true ∧
      StoresDone (entering [draining]) 0 draining ∧ SlicesPresent (entering [draining]) draining ∧ (entering [draining]).meeting draining = []) ∧
    (part draining.record.toNat 0 64 = 0 ∧ part draining.record.toNat 64 32 = 512 ∧ part draining.record.toNat 99 2 = 0) ∧
    (∀ i, i < 512 → draining.at 0 (0 + 3 * 512 + i) = .scr 1 (0 + 3 * 512 + i) ∧ Direct (.scr 1 (0 + 3 * 512 + i))) ∧
    (∀ i j, i < 512 → j < 512 → i ≠ j → (Loc.scr 1 (0 + 3 * 512 + i)).space ≠ (Loc.scr 1 (0 + 3 * 512 + j)).space) := by
  refine ⟨⟨⟨rfl, rfl, rfl⟩, by decide +kernel, by decide +kernel, by decide +kernel, by decide +kernel, stores_done rfl rfl, own_slice _ _ _, by decide +kernel⟩,
    by decide +kernel, fun i hi => ⟨pinned_at _ _ _ _ _ (by decide) (by omega), ?_⟩, fun i j hi hj hij h => ?_⟩
  · show 0 + 3 * 512 + i < 2 ^ 40; omega
  · simp only [Loc.space, Prod.mk.injEq] at h; omega

/-! ### The issue former's timers -/

/-- A group of one ready lane whose code is EXIT, and n members of the active set beside it. -/
def forming (g : Group) (n : Nat := 0) (l : Lane := { st := .ready }) : State :=
  let s := seqDev {} [0x62000004, 0, 0]
  let group (g : Group) : Group := { g with tk := 1, width := 16, regs := 96 }
  { s with
    g := { s.g with
      groups := (gk0, group g) :: (List.range n).map (fun i => (gkOf 1 (i + 1), group { idx := i + 1, active := true, lead := i }))
      lanes := [(lkOf gk0 0, l)] }
    w := { s.w with lastPc := [(0, 1)] } }
def due : State := forming { active := true, waitClk := 4096, last := some ⟨0, 0⟩ }
/-- The same once its partition's clock has begun. -/
def dueNow : State := due.clockStart 0 0
/-- A chain read without a change of the device, which lane fill does not serve and no breakpoint stops. -/
def plainChain (s : State) (gk : Nat) (p : Pc) : Bool := match s.chainAt gk p with
  | (.ok ws majs, u) => decide (u = s) && !fillable ws majs && (s.breakAt gk p ws).isNone
  | _ => false
theorem plain_chain {s : State} {gk : Nat} {p : Pc} (h : plainChain s gk p = true) :
    ∃ ws majs, s.chainAt gk p = (.ok ws majs, s) ∧ fillable ws majs = false ∧ s.breakAt gk p ws = none := by
  unfold plainChain at h
  match hk : s.chainAt gk p, h with
  | (.ok ws majs, u), h =>
    simp only [Bool.and_eq_true, decide_eq_true_eq, Bool.not_eq_true', Option.isNone_iff_eq_none] at h
    exact ⟨ws, majs, by rw [h.1.1], h.1.2, h.2⟩
  | (.bad _ _, _), h => simp at h
  | (.miss _, _), h => simp at h
theorem test_timers_met :
    ((forming {} 0 { st := .waiting (.clocks 0) }).lane (lkOf gk0 0)).st = .waiting (.clocks 0) ∧
    ((forming {} 0 { st := .waiting (.clocks 2) }).lane (lkOf gk0 0)).st = .waiting (.clocks (1 + 1)) ∧
    (let s := dev [0] { fairctl := 5, fair := [{ pc := ⟨2, 1⟩, clocks := 5 }] } { st := .ready } {} { flags := 1 }
     { pc := { pkt := 9 / 4, slot := 9 % 4 }, clocks := 5 : FairCount } ∈ (s.group gk0).fair ∧ (s.group gk0).fairctl.toNat ≤ 5 ∧
      (s.kern gk0).flags.getLsbD 0 = true ∧ (s.group gk0).forced = []) ∧
    (∀ c, { pc := { pkt := 9 / 4, slot := 9 % 4 }, clocks := c : FairCount } ∈ (two.group gk0).fair → c < (two.group gk0).fairctl.toNat) ∧
    (due.iss.words = 0 ∧ (due.group gk0).core = 0 ∧ (due.group gk0).part = 0 ∧ Overdue dueNow 0 0 gk0 ∧ (dueNow.group gk0).yielded = none ∧
      tget 0 dueNow.w.lastPc (4 * 0 + 0) = 4 * 0 + 0 + 1 ∧
      (dueNow.readyAt gk0).find? (fun q => q.1 == 0 * 4 + 0) = some (0 * 4 + 0, [0]) ∧
      (∀ l ∈ [0], (dueNow.lane (lkOf gk0 l)).resume = none ∧ (dueNow.lane (lkOf gk0 l)).st = .ready) ∧
      (dueNow.group gk0).core = 0 ∧ (dueNow.group gk0).part = 0 ∧
      ∃ ws majs, dueNow.chainAt gk0 ⟨0, 0⟩ = (.ok ws majs, dueNow) ∧ fillable ws majs = false ∧ dueNow.breakAt gk0 ⟨0, 0⟩ ws = none) ∧
    ¬ Overdue ((forming { active := true }).clockStart 0 0) 0 0 gk0 := by
  refine ⟨by decide +kernel, by decide +kernel, by decide +kernel, ?_, ⟨by decide +kernel, by decide +kernel, by decide +kernel,
    ⟨by decide +kernel, [], [], by decide +kernel⟩, by decide +kernel, by decide +kernel, by decide +kernel, by decide +kernel,
    by decide +kernel, by decide +kernel, plain_chain (by decide +kernel)⟩, ?_⟩
  · have h : (two.group gk0).fair = [] := by decide +kernel
    rw [h]; intro c hc; exact absurd hc List.not_mem_nil
  · rintro ⟨-, a, b, h, hw, -⟩
    have : (((forming { active := true }).clockStart 0 0).group gk0).waitClk < 4096 := by decide +kernel
    omega
/-- A full active set and a ready group that waits; an idle member; a partition without a ready group; a fault queue with and
without a place. -/
def full : State := forming { outClk := 2048 } 8
theorem test_active_sets_met :
    ((full.group gk0).active = false ∧ 2048 ≤ (full.group gk0).outClk ∧ 8 ≤ (full.activeOf 0 0).length ∧ full.readyGroup gk0 = true ∧
      Stalest full (full.activeOf (full.group gk0).core (full.group gk0).part) (gkOf 1 8)) ∧
    ((forming { active := true, idleClk := 16 }).group gk0).active = true ∧ 16 ≤ ((forming { active := true, idleClk := 16 }).group gk0).idleClk ∧
    ((forming {}).iss.words = 0 ∧ ∀ gk ∈ MayLead ((forming {}).clockStart 3 1) 3 1, False) ∧
    ((dev [0] {} {} { fwait := [7] }).team 1).fwait = 7 :: [] ∧ ((dev [0] {} {} { fwait := [7] }).team 1).fq.length < 256 ∧
    256 ≤ ((dev [0] {} {} { fwait := [7], fq := List.replicate 256 5 }).team 1).fq.length := by
  refine ⟨⟨by decide +kernel, by decide +kernel, by decide +kernel, by decide +kernel, (List.range 7).map (fun i => gkOf 1 (i + 1)), [], ?_⟩,
    by decide +kernel⟩
  decide +kernel

/-! ### Launch ports -/

/-- A host write to device memory is still on its way. -/
def hostBusy (s : State) : State := { s with o := { s.o with sbuf := [(41, some { buf devLoc with agent := hostAgent })] } }

/-- A device that is ready, with context 0 and an image whose kernel descriptor (Table 16.2) stands at 64 of object 1; the bits
of a launch record but its last eight bytes, in the port of context 0. -/
def porting (r : Nat) (launches : Tbl (Option Launch) := []) : State :=
  { State.reset with
    h := { State.reset.h with readyBit := true }
    o := { State.reset.o with mem := writeLE (writeLE [] (2 ^ 40 + 32) placedEntry 32) (2 ^ 40 + 64) descriptorBits 64 }
    x := { roots := [(0, placedRoot)] }
    l := { launches := launches, ports := [(0, { bytes := BitVec.ofNat 2048 r })] }
    next := 5000 }
/-- The port with the eight bytes that submit it. -/
def submitted (s : State) (data : DWord) : State := { s with l := { s.l with ports := tset {} s.l.ports 0 { portOf s 0 with
  bytes := BitVec.ofNat 2048 ((portOf s 0).bytes.toNat % 2 ^ 1984 + data.toNat * 2 ^ 1984) } } }
def hostChecks (s : State) (want : Bool) : Bool := match s.checkRecord 0 0 (portOf s 0).bytes.toNat none with
  | (.ok k, u) => want && decide (u = s) && decide (k.ctx = 0)
  | (.bad _, u) => !want && decide (u = s)
  | (.miss _ _ _, _) => false
theorem host_ok {s : State} (h : hostChecks s true = true) : ∃ k, s.checkRecord 0 0 (portOf s 0).bytes.toNat none = (.ok k, s) ∧ k.ctx = 0 := by
  unfold hostChecks at h
  match hc : s.checkRecord 0 0 (portOf s 0).bytes.toNat none, h with
  | (.ok k, u), h => simp at h; exact ⟨k, by rw [h.1], h.2⟩
  | (.bad _, _), h => simp at h
  | (.miss _ _ _, _), h => simp at h
theorem host_bad {s : State} (h : hostChecks s false = true) : ∃ e, s.checkRecord 0 0 (portOf s 0).bytes.toNat none = (.bad e, s) := by
  unfold hostChecks at h
  match hc : s.checkRecord 0 0 (portOf s 0).bytes.toNat none, h with
  | (.ok _, _), h => simp at h
  | (.bad e, u), h => simp at h; exact ⟨e, by rw [h]⟩
  | (.miss _ _ _, _), h => simp at h
theorem test_launch_ports_met :
    (State.reset.h.readyBit = false ∧ (porting recordBits).h.readyBit = true ∧ (porting recordBits).hostQuiet = true ∧
      (hostBusy (porting recordBits)).hostQuiet = false ∧ (porting recordBits).ctxEn 0 = true) ∧
    (240 % 8 = 0 ∧ 240 < 248) ∧ ({ porting recordBits with x := {} }).ctxEn 0 = false ∧
    (∃ e, (submitted (porting 0) 0).checkRecord 0 0 (portOf (submitted (porting 0) 0) 0).bytes.toNat none = (.bad e, submitted (porting 0) 0)) ∧
    ((∃ k, (submitted (porting recordBits) 0).checkRecord 0 0 (portOf (submitted (porting recordBits) 0) 0).bytes.toNat none =
      (.ok k, submitted (porting recordBits) 0) ∧ k.ctx = 0) ∧ (submitted (porting recordBits) 0).queued 0 + (submitted (porting recordBits) 0).accepting 0 false < 1024) ∧
    ((∃ k, (submitted (porting recordBits crowd) 0).checkRecord 0 0 (portOf (submitted (porting recordBits crowd) 0) 0).bytes.toNat none =
      (.ok k, submitted (porting recordBits crowd) 0) ∧ k.ctx = 0) ∧ 1024 ≤ (submitted (porting recordBits crowd) 0).queued 0 + (submitted (porting recordBits crowd) 0).accepting 0 false) := by
  refine ⟨by decide +kernel, by decide, by decide +kernel, host_bad (by decide +kernel), ⟨host_ok (by decide +kernel), by decide +kernel⟩,
    host_ok (by decide +kernel), by decide +kernel⟩

/-! ### Placement -/

/-- A launch of one team of two groups of role 0, on core 0, whose banks have the roles it needs or none. -/
def placing : Kern := { teams := 1, cores := 1, gang := 1, width := 16, scratch := 4096, accb := 1, roles := [{ regs := 96, groups := 2, entry := 3 }] }
def arriving (fit : Bool) (k : Kern := placing) (x : Launch := {}) (drain : List Nat := []) (ts : Tbl Team := []) (more : Tbl (Option Launch) := []) : State :=
  { State.reset with
    t := { State.reset.t with teams := ts }
    l := { launches := [(1, some { x with kern := k })] ++ more, bankrole := if fit then [(0, k.bankrole 0)] else [], draining := drain }
    next := 100 }
def placesB (s : State) : Bool := (s.placeTeam 1 (s.launchOf 1).nextTeam s.next 0 [0]).isSome
theorem places_of {s : State} (h : placesB s = true) : ∃ tk u, s.placeTeam 1 (s.launchOf 1).nextTeam s.next 0 [0] = some (tk, u) := by
  obtain ⟨⟨tk, u⟩, h⟩ := Option.isSome_iff_exists.mp h
  exact ⟨tk, u, h⟩
def ended : Launch := { st := .complete 0 }
theorem test_team_placement_met :
    (NextInOrder (arriving true) 1 ∧ placing.gang = 1 ∧ [0].length = placing.cores ∧ placing.width ≤ 64 ∧ placing.ngroups ≤ 1024 ∧
      keysRise (arriving true).l.launches = true ∧ (arriving true).launchOf 1 = { kern := placing } ∧
      (∃ tk u, (arriving true).placeTeam 1 ((arriving true).launchOf 1).nextTeam (arriving true).next 0 [0] = some (tk, u)) ∧
      (InRole placing 1 0 ∧ 1 / (max 1 ((placing.ngroups + max 1 placing.cores - 1) / max 1 placing.cores)) < [0].length)) ∧
    ¬ NextInOrder (arriving true placing ended) 1 ∧
    ((arriving true placing { passed := 2 }).eligible ((arriving true placing { passed := 2 }).launchOf 1) = true ∧
      0 < ((arriving true placing { passed := 2 }).launchOf 1).passed) ∧
    ((arriving true placing ended).eligible ((arriving true placing ended).launchOf 1) = false) ∧
    (let s := arriving false placing {} [3]
     s.eligible (s.launchOf 1) = true ∧ 3 ∈ s.l.draining ∧ s.drained 3 = true ∧ s.runsOn placing ((cores32 3).filter (· < 3)) = 0 ∧ placing.cores = 1 ∧
      (placing.banks 0 1).1 + (placing.banks 0 1).2.1 + (placing.banks 0 1).2.2 ≤ 32) ∧
    (let s := arriving false placing {} [3] [(9, { live := true, cores := [3] })]
     s.eligible (s.launchOf 1) = true ∧ 3 ∈ s.l.draining ∧ s.drained 3 = false) ∧
    (let s := arriving true
     s.eligible (s.launchOf 1) = true ∧ 3 ∉ s.l.draining ∧ placing.cores ≤ s.runsOn placing (cores32 3)) ∧
    (let s := arriving false
     s.eligible (s.launchOf 1) = true ∧ 3 ∉ s.l.draining ∧ ¬ placing.cores ≤ s.runsOn placing (cores32 3)) := by
  unfold NextInOrder InRole
  refine ⟨⟨by decide +kernel, by decide, by decide, by decide, by decide +kernel, by decide +kernel, by decide +kernel, places_of (by decide +kernel), by decide +kernel⟩,
    by decide +kernel, by decide +kernel, by decide +kernel, by decide +kernel, by decide +kernel, by decide +kernel, by decide +kernel⟩

/-! ### The end of teams and launches -/

/-- A team whose lanes have exited; a gang of two, whose other member has acknowledged that it leaves. -/
def finishedTeam (running : Bool) : State := dev [0] {} { st := if running then .ready else .exited }
def leavingGang : State :=
  let k : Kern := { gang := 2 }
  { State.reset with
    t := { State.reset.t with teams := [(1, { ln := 1, kern := k, gst := .leaving, live := true, cores := [0], ngroups := 1 }),
      (2, { ln := 1, idx := 1, kern := k, live := true, cores := [1], ngroups := 1, acks := [0] })] }
    l := { launches := [(1, some { kern := k, st := .running, nextTeam := 2 })] } }
theorem quiet_may_end {s : State} {tk : Nat} (h : ((s.team tk).live = true ∧ (s.team tk).saved = false ∧ (s.team tk).seq.st = .exited ∧
    (∀ gk ∈ s.groupsOf tk, ∀ l, l < (s.group gk).width → (s.lane (lkOf gk l)).st = .exited) ∧ ∀ y ∈ s.gangOf tk, y = tk ∨ s.acked tk y = true))
    (h2 : s.e.threads = [] ∧ s.e.fifo = [] ∧ s.o.pend = [] ∧ s.o.cbuf = []) : MayEnd s tk := by
  refine ⟨h.1, h.2.1, ⟨h.2.2.2.1, h.2.2.1, ?_, ?_⟩, ⟨?_, ?_⟩, h.2.2.2.2⟩ <;> intro p hp
  · rw [h2.1] at hp; cases hp
  · rw [h2.2.1] at hp; cases hp
  · rw [h2.2.2.1] at hp; cases hp
  · rw [h2.2.2.2] at hp; cases hp
/-- A running launch whose one team has ended; one with a child that runs. -/
def launchOver (child : Bool) : State :=
  { State.reset with l := { launches := [(1, some { kern := { teams := 1 }, st := .running, nextTeam := 1, ended := 1 })] ++
    if child then [(2, some { st := .running, fromHost := false, parent := 1 })] else [] } }
theorem test_team_end_met :
    MayEnd (finishedTeam false) 1 ∧ ¬ MayEnd (finishedTeam true) 1 ∧
    (MayEnd leavingGang 1 ∧ 1 < (leavingGang.team 1).kern.gang ∧ leavingGang.gangState 1 = .leaving) ∧ (two.team 1).kern.gang ≤ 1 ∧
    (Over (launchOver false) 1 ∧ ((launchOver false).launchOf 1).kern.det = false ∧
      ∀ p ∈ (launchOver false).l.launches, ∀ y, p.2 = some y → y.fromHost = false → y.parent = 1 → y.hist = []) ∧
    ¬ Over (launchOver true) 1 := by
  refine ⟨quiet_may_end (by decide +kernel) (by decide +kernel), fun h => ?_, ⟨quiet_may_end (by decide +kernel) (by decide +kernel), by decide +kernel⟩,
    by decide +kernel, ⟨⟨by decide +kernel, by decide +kernel, by decide +kernel, ?_⟩, by decide +kernel, ?_⟩, fun h => ?_⟩
  · have := h.2.2.1.1 gk0 (by decide +kernel) 0 (by decide +kernel)
    exact absurd this (by decide +kernel)
  · intro p hp x hx hh
    have e : (launchOver false).l.launches = [(1, some { kern := { teams := 1 }, st := .running, nextTeam := 1, ended := 1 })] := rfl
    rw [e] at hp
    obtain rfl := List.mem_singleton.mp hp
    cases hx; cases hh
  · intro p hp x hx hh
    have e : (launchOver false).l.launches = [(1, some { kern := { teams := 1 }, st := .running, nextTeam := 1, ended := 1 })] := rfl
    rw [e] at hp
    obtain rfl := List.mem_singleton.mp hp
    cases hx; cases hh
  · obtain ⟨c, hc⟩ := h.2.2.2 (2, some { st := .running, fromHost := false, parent := 1 }) (by decide +kernel) _ rfl rfl rfl
    cases hc

/-! ### Preemption, deterministic phases -/

/-- A record of context 0 and priority 3 that finds no place, and a team of context 1 and priority 1 with one group. -/
def contended (t : Team) (l : Lane := { st := .ready }) : State :=
  let s := arriving false { placing with prio := 3 } {} [] [(9, { t with ln := 7, kern := { ctx := 1, prio := 1, width := 16 }, cores := [0], ngroups := 1, live := true })]
  { s with g := { s.g with groups := [(gkOf 9 0, { tk := 9, width := 16, regs := 96 })], lanes := [(lkOf (gkOf 9 0) 0, l)] } }
/-- The same without the record. -/
def calm (t : Team) : State := { contended t with l := {} }
theorem test_preemption_met :
    (Falls (contended {}) 1 9 ∧ keysRise (contended {}).t.teams = true) ∧
    (Alone (contended {}) 9 ∧ ((contended {}).team 9).saved = false ∧ ((contended {}).team 9).stopping = false ∧
      (∀ p ∈ (contended {}).t.teams, p.2.stopping = false) ∧ (contended {}).gangEnding 9 = false ∧ Wanted (contended {}) 9) ∧
    (Alone (calm {}) 9 ∧ ¬ Wanted (calm {}) 9) ∧
    (let s := { contended { stopping := true } with iss := { gk := gkOf 9 0, lanes := [0], words := 1 } }
     Alone s 9 ∧ (s.team 9).stopping = true ∧ s.stopped 9 = false) ∧
    (let s := contended { stopping := true }
     Alone s 9 ∧ s.stopped 9 = true ∧ part (s.root (s.team 9).kern.ctx) 344 40 = 0 ∧ s.groupsOf 9 = [gkOf 9 0] ∧ (s.group (gkOf 9 0)).width = 16) := by
  unfold Alone Wanted Falls
  refine ⟨⟨⟨by decide +kernel, by decide +kernel, (contended {}).team 9, by decide +kernel, by decide +kernel, fun p hp _ => ?_⟩, by decide +kernel⟩,
    ⟨by decide +kernel, by decide +kernel, by decide +kernel, by decide +kernel, by decide +kernel,
      ⟨_, List.mem_singleton.mpr rfl, ⟨_, rfl⟩, by decide +kernel⟩⟩, ⟨by decide +kernel, ?_⟩, by decide +kernel, by decide +kernel⟩
  · have e : (contended {}).t.teams = [(9, { ln := 7, kern := { ctx := 1, prio := 1, width := 16 }, cores := [0], ngroups := 1, live := true })] := rfl
    rw [e] at hp
    obtain rfl := List.mem_singleton.mp hp
    exact .inr (by decide +kernel)
  · rintro ⟨p, hp, -⟩
    have e : (calm {}).l.launches = [] := rfl
    rw [e] at hp
    cases hp
/-- A saved team whose place is free again. -/
def savedTeam (live : Bool) : State :=
  let s := arriving true placing ended
  { s with
    t := { s.t with teams := [(9, { ln := 1, kern := placing, cores := [0], ngroups := 1, live := live, saved := true })] }
    g := { s.g with groups := [(gkOf 9 0, { tk := 9, width := 16, regs := 96, core := 128 })] } }
theorem test_resume_met :
    Alone (savedTeam true) 9 ∧ ((savedTeam true).team 9).saved = true ∧ ((savedTeam true).team 9).kern.cores = 1 ∧
    (savedTeam true).waitsForChild 9 = false ∧
    keysRise (savedTeam true).t.slots = true ∧
    (∃ u, (savedTeam true).resumeTeam 9 [0] = some u) ∧ ((savedTeam false).team 9).live = false := by
  unfold Alone
  exact ⟨by decide +kernel, by decide +kernel, by decide +kernel, by decide +kernel, by decide +kernel, Option.isSome_iff_exists.mp (by decide +kernel), by decide +kernel⟩

/-- A deterministic launch whose one lane waits for the phase, with an atomic buffered; one whose lane is ready. -/
def entry0 : DetEntry := { ln := 1, team := 0, tk := 1, core := 0, kind := .atomic .addB32 0 0 false, loc := devLoc, size := 4, val := 5 }
def phased (st : LaneSt) : State :=
  let s := dev [0] {} { st := st } {} { flags := 2, teams := 1 }
  { s with iss := {}, l := { s.l with det := [entry0] } }
theorem test_serial_phases_met :
    ((phased (.waiting .phase)).phaseDue 1 = true ∧ (phased (.waiting .phase)).o.l1 = [] ∧ PhaseOrder (phased (.waiting .phase)) 1 [entry0] ∧
      (0 < entry0.size ∧ entry0.size ≤ 16 ∧ ∃ a pol, entry0.loc = .dev a pol false) ∧
      (∀ p ∈ (phased (.waiting .phase)).t.teams, ∀ gk ∈ (phased (.waiting .phase)).groupsOf p.1, ((phased (.waiting .phase)).group gk).width ≤ 64)) ∧
    keysRise (phased (.waiting .phase)).l.own = true ∧ (phased .ready).phaseDue 1 = false ∧
    ((phased .ready).t.teams.length = 1 ∧ ((phased .ready).team 1).ln = 1 ∧ ((phased .ready).team 1).live = true ∧ gk0 ∈ (phased .ready).groupsOf 1 ∧
      ((phased .ready).group gk0).pair = false ∧ ((phased .ready).teamOf gk0).saving = none ∧ 0 < ((phased .ready).group gk0).width ∧
      ((phased .ready).lane (lkOf gk0 0)).st = .ready) :=
  ⟨⟨by decide +kernel, rfl, ⟨by decide +kernel, fun n => rfl⟩, ⟨by decide, by decide, _, _, rfl⟩, by decide +kernel⟩, by decide +kernel⟩

/-- One lane of a deterministic launch, with the owner of the line at byte 0 of object 5, and a number of buffered entries. -/
def owned (o : Owner) (n : Nat := 0) : State :=
  let s := mapped (dev [0] {} { st := .ready } {} { flags := 2, scratch := 4096, codelen := 12 })
  { s with l := { s.l with own := [(1 * 2 ^ 48 + (2 ^ 40 + 65536) / 512, o)], det := List.replicate n { entry0 with kind := .store } } }
def detStore (s : State) : Access :=
  { cap := 1, z := 4, acc := .write, allow := anyType, need := 2, idx := 97, kind := fun _ => .store
    val := fun m => BitVec.ofNat 128 (s.src s.iss.gk m 8).toNat, dst := .none }
def detLoad : Access :=
  { cap := 1, z := 4, acc := .read, allow := anyType, need := 1, idx := 97, kind := fun _ => .load, val := fun _ => 0, dst := landsIn 8 1 32 false
    nol1 := Hint.dflt = .nol1 }
theorem det_ready {s : State} {i : Instr} {q : Access} (h : (issuesB s i && decide (s.iss.lanes = [0]) && !popsQ1 i &&
    !s.acqPending (lkOf s.iss.gk 0) && (s.teamOf s.iss.gk).kern.det && (s.kern s.iss.gk).det) = true)
    (hp : Permitted s (s.heldCap s.iss.gk 0 q.cap) q.allow q.need (q.off s 0) q.z) (hs : StandsAt s q 0 devLoc) :
    DetReady s i q 0 (2 ^ 40 + 65536) .wb := by
  simp only [Bool.and_eq_true, Bool.not_eq_true', decide_eq_true_eq] at h
  exact ⟨issues_of h.1.1.1.1.1, ⟨h.1.1.1.1.2, by decide⟩, h.1.1.1.2, h.1.1.2, ⟨h.1.2, h.2⟩, hp, hs⟩
theorem owned_ready (o : Owner) (n : Nat) (ho : (o, n) ∈ [({ owner := some 0 }, 0), ({ shared := true }, 0), ({ owner := some 3 }, 0), (({} : Owner), 4096)]) :
    DetReady (owned o n) (.st false 8 97 1 0 .dflt .b32) (detStore (owned o n)) 0 (2 ^ 40 + 65536) .wb ∧
    DetReady (owned o n) (.ld false 8 97 1 0 .dflt false) detLoad 0 (2 ^ 40 + 65536) .wb ∧
    DetReady (owned o n) (.atomr false 8 97 1 0 .addB32) (returning (owned o n) 8 97 1 .addB32 none none none) 0 (2 ^ 40 + 65536) .wb := by
  simp only [List.mem_cons, Prod.mk.injEq, List.not_mem_nil, or_false] at ho
  obtain ⟨rfl, rfl⟩ | ⟨rfl, rfl⟩ | ⟨rfl, rfl⟩ | ⟨rfl, rfl⟩ := ho <;>
  · refine ⟨det_ready (by decide +kernel) ?_ ?_, det_ready (by decide +kernel) ?_ ?_, det_ready (by decide +kernel) ?_ ?_⟩
    all_goals first
      | (unfold StandsAt; decide +kernel)
      | (unfold Permitted; decide +kernel)
theorem test_deterministic_accesses_met :
    Mine (owned { owner := some 0 }) (2 ^ 40 + 65536) ∧ (Open (owned { shared := true }) (2 ^ 40 + 65536) ∧ LogRoom (owned { shared := true })) ∧
    (Open (owned {} 4096) (2 ^ 40 + 65536) ∧ ¬ LogRoom (owned {} 4096)) ∧ Others (owned { owner := some 3 }) (2 ^ 40 + 65536) ∧ isV 8 = true ∧
    (∀ e ∈ (owned { shared := true }).l.det, ¬ OverBytes (owned { shared := true }) (2 ^ 40 + 65536) 4 e) ∧
    InGranules (owned { shared := true }) ∧ InGranules (owned {} 4096) ∧
    (∃ before after, (owned {} 4096).l.det = before ++ { entry0 with kind := .store } :: after ∧
      (∀ y ∈ after, ¬ OverBytes (owned {} 4096) (2 ^ 40 + 65536) 4 y) ∧ OverBytes (owned {} 4096) (2 ^ 40 + 65536) 4 { entry0 with kind := .store }) := by
  unfold Mine Open Others LogRoom BufferFull OverBytes InGranules
  refine ⟨by decide +kernel, by decide +kernel, by decide +kernel, ⟨by decide +kernel, 3, by decide +kernel⟩, by decide, by decide +kernel, by decide +kernel, by decide +kernel,
    List.replicate 4095 { entry0 with kind := .store }, [], by decide +kernel, by decide +kernel, by decide +kernel⟩

/-! ### Errors -/

/-- A corrected error due its event; a device without power. -/
def dueError : State := { State.reset with r := { State.reset.r with ceDue := [errKey 3 7] } }
def dark : State := { State.reset with r := { State.reset.r with power := false } }
/-- A line of the L2 of die 0 with a dirty first sector. -/
def dirtyLine : State := State.reset.setL2 (2 ^ 40 / 512) 0 { st := .m, valid := 1, dirty := 1 }
/-- Team 1 with a tile step in progress on core 0, its accumulators from region 0 of that core. -/
def mmaOp : ArrOp := started (.mma 60 61 0 0 .narrow8 .narrow8 1 true true)
def computing : State := entering [mmaOp]
theorem kill_alone {s : State} {tk : Nat} (h : s.o.pend = [] ∧ s.e.sides = [] ∧ s.e.threads = [] ∧ ∀ d, d < 4 → s.haltOpen d tk = false) : KillAlone s tk := by
  unfold KillAlone
  rw [h.1, h.2.1, h.2.2.1]
  exact ⟨fun _ h => absurd h List.not_mem_nil, fun _ h => absurd h List.not_mem_nil, fun _ h => absurd h List.not_mem_nil, h.2.2.2⟩
theorem test_errors_met :
    (UnitIs 3 1535 ∧ ¬ UnitIs 3 1536 ∧ UnitIs 4 7 ∧ ¬ UnitIs 1 128 ∧ KillAlone computing 1) ∧
    (State.reset.r.power = true ∧ errKey 3 7 ∉ State.reset.r.ceDue ∧ errKey 3 7 ∈ dueError.r.ceDue ∧ dark.r.power = false) ∧
    InStack 7 (hbmBase 3 + hbmBytes - 1) ∧
    (0 < 1536 ∧ devHas (2 ^ 40 / 64 * 64) 64 = true ∧ sliceOf (lineNo (2 ^ 40)) = 0 % 384 ∧ State.reset.l2Dirty (0 / 384) (2 ^ 40) = false ∧
      dirtyLine.l2Dirty (0 / 384) (2 ^ 40) = true) ∧
    (computing.r.power = true ∧ tget none computing.e.fifo 0 = some mmaOp ∧ mmaOp.core = 0 ∧ mmaOp.started = true ∧ mmaOp.finished = false ∧
      mmaOp.unitOf = 1 ∧ (computing.team mmaOp.tk).live = true ∧ computing.o.pend = [] ∧ computing.e.fifo = [(0, some mmaOp)]) ∧
    (computing.poolAcc 0 65536 = some (1, 0, 65536) ∧ 65536 < 24 * 65536 ∧ (computing.team 1).live = true) := by
  unfold InStack UnitIs; exact ⟨⟨by decide, by decide, by decide, by decide, kill_alone (by decide +kernel)⟩, by decide +kernel⟩
/-- A killed team of a launch for which core 0 has room. -/
def killedTeam : State :=
  { arriving true with t := { teams := [(9, { ln := 1, kern := placing, cores := [0], ngroups := 2, gst := .killed, again := true })] } }
theorem test_relaunch_met :
    ((killedTeam.team 9).again = true ∧ (killedTeam.team 9).live = false ∧ (killedTeam.team 9).kern.gang ≤ 1 ∧ killedTeam.gangOver 9 = true ∧
      [0].length = (killedTeam.team 9).kern.cores ∧ killedTeam.next ≠ 9) ∧
    (∃ k u, killedTeam.placeTeam 1 0 killedTeam.next (0 + 1) [0] = some (k, u) ∧ k ≠ 9) ∧ (two.team 1).again = false := by
  refine ⟨by decide +kernel, ?_, by decide +kernel⟩
  have h : ((killedTeam.placeTeam 1 0 killedTeam.next (0 + 1) [0]).map (·.1)) = some 100 := by decide +kernel
  obtain ⟨⟨k, u⟩, hp, hk⟩ := Option.map_eq_some_iff.mp h
  exact ⟨k, u, hp, by simp at hk; omega⟩

/-! ### Power and bring-up -/

def bringing (stage : Nat) (failed : Bool := false) (clock : Nat := 3000) : State :=
  { State.reset with r := { State.reset.r with stage := stage, failed := failed, clock := clock } }
/-- Whether an image verifies is open (log 2): flash of images 0 runs bank A, or neither bank. -/
theorem test_power_met :
    (keysRise State.reset.f.ports = true ∧ keysRise State.reset.w.owl = true) ∧
    (State.reset.r.power = true ∧ 1600 ≤ State.reset.r.clock ∧ (∀ d, d < 4 → (State.reset.owl d).trlen = 0) ∧ (∀ d, d < 4 → (State.reset.owl d).grant = 0)) ∧
    ((bringing 0 false 1500).r.clock < 1600 ∧ (bringing 0 false 2900).r.clock + 100 ≤ 3000 ∧ 3000 < State.reset.r.clock + 100) ∧
    (bringing 0 true).r.failed = true ∧ 12 < (bringing 12).r.stage + 1 ∧
    (∀ n, 1 ≤ n → n ≤ 12 → (bringing (n - 1)).r.stage + 1 = n ∧ (bringing (n - 1)).r.power = true ∧ (bringing (n - 1)).r.failed = false) ∧
    (Config.verifies 0 = true → Runs_ State.reset.r false) ∧
    (Config.verifies 0 = false → ¬ fwOk State.reset.r.bankA ∧ ¬ fwOk State.reset.r.bankB) ∧
    (let b := State.reset.r.bankA; Config.verifies b.config = true ∨ Config.verifies b.config = false) := by
  refine ⟨by decide +kernel, by decide +kernel, by decide +kernel, by decide +kernel, by decide +kernel, fun n h1 h2 => ⟨?_, rfl, rfl⟩, fun h => ?_, fun h => ?_, ?_⟩
  · show n - 1 + 1 = n; omega
  · exact .inl ⟨⟨h, h⟩, ⟨h, h⟩, by decide⟩
  · exact ⟨fun f => by simp [fwOk] at f; exact absurd (h ▸ f) (by decide), fun f => by simp [fwOk] at f; exact absurd (h ▸ f) (by decide)⟩
  · cases Config.verifies State.reset.r.bankA.config <;> simp

/-! ### Translation -/

/-- Object 2 of context 0, of 1 MiB, its extent map at 4,096 of the table area, a node at 12,288, one at 16,384, and the leaf
entry of its first page. -/
def mapRoot : BitVec 512 := BitVec.ofNat 512 (fld (2 ^ 20) 216 40 + fld 3 192 24 + 1)
def nodeAt (o : Nat) : Nat := 2 ^ 63 + 6 * 2 ^ 60 + o / 256
def leafIs (e : Nat) : State :=
  let put (m : List Host.Cell) (o v n : Nat) := writeLE m (2 ^ 40 + o) v n
  let m := put [] 64 (fld (2 ^ 20) 216 40 + fld 4096 176 40 + fld 1 168 8 + fld 1 166 2 + fld 1 164 1) 32
  let m := put (put (put m 4096 (nodeAt 12288) 8) 12288 (nodeAt 16384) 8) 16384 e 8
  { State.reset with o := { State.reset.o with mem := m }, x := { roots := [(0, mapRoot)] } }
theorem object_ok (e : Nat) (h : e ∈ [0, 2 ^ 63 + 1, 2 ^ 63 + 2 ^ 56 + 1, 2 ^ 63 + 4 * 2 ^ 60, 2 ^ 63 + 5 * 2 ^ 60]) :
    ObjectOk (leafIs e) 0 2 ∧ LeafAt (leafIs e) 0 2 0 16384 ∧ word8 (leafIs e) (areaByte (leafIs e) 0 16384) = e ∧
      (leafIs e).cached 0 0 2 (0 / 65536) = none ∧ part (objectOf (leafIs e) 0 2) 216 40 = 2 ^ 20 := by
  simp only [List.mem_cons, List.not_mem_nil, or_false] at h
  obtain rfl | rfl | rfl | rfl | rfl := h <;>
  · refine ⟨⟨by decide +kernel, by decide +kernel, by decide +kernel, by decide +kernel, by decide +kernel, by decide +kernel⟩, ⟨?_⟩,
      by decide +kernel, by decide +kernel, by decide +kernel⟩
    unfold NodeOk
    decide +kernel
theorem test_translation_met :
    (3 : Nat) ≥ part (tget 0 (leafIs 0).x.roots 0).toNat 192 24 ∧ part (0 : Nat) 63 1 = 0 ∧
    (∀ e ∈ [2 ^ 63 + 1, 2 ^ 63 + 2 ^ 56 + 1, 2 ^ 63 + 4 * 2 ^ 60, 2 ^ 63 + 5 * 2 ^ 60], part e 63 1 = 1 ∧ part e 44 9 = 0 ∧ part e 53 1 = 0) ∧
    (∀ e ∈ [2 ^ 63 + 1, 2 ^ 63 + 2 ^ 56 + 1, 2 ^ 63 + 4 * 2 ^ 60, 2 ^ 63 + 5 * 2 ^ 60], FrameOk e) ∧
    (part (2 ^ 63 + 4 * 2 ^ 60) 60 3 = 4 ∧ part (2 ^ 63 + 5 * 2 ^ 60) 60 3 = 5) ∧
    (part (2 ^ 63 + 1) 60 3 < 4 ∧ AccKind.write ≠ .read ∧ part (2 ^ 63 + 1) 56 1 = 0) ∧ part (2 ^ 63 + 2 ^ 56 + 1) 56 1 = 1 := by
  refine ⟨by decide +kernel, by decide +kernel, by decide +kernel, fun e h => ?_, by decide +kernel, by decide +kernel, by decide +kernel⟩
  simp only [List.mem_cons, List.not_mem_nil, or_false] at h
  obtain rfl | rfl | rfl | rfl := h
  · show part (2 ^ 63 + 1) 40 4 ≤ 3 ∧ (part (2 ^ 63 + 1) 0 40 + 1) * 65536 ≤ hbmBytes; decide +kernel
  · show part (2 ^ 63 + 2 ^ 56 + 1) 40 4 ≤ 3 ∧ (part (2 ^ 63 + 2 ^ 56 + 1) 0 40 + 1) * 65536 ≤ hbmBytes; decide +kernel
  · show True; trivial
  · show True; trivial

/-! ### Contexts and commands of the host -/

def hostly (en : Bool) (x : Xlat := {}) (t : Tbl Team := []) : State :=
  { State.reset with h := { State.reset.h with readyBit := true }, x := { x with roots := if en then [(0, placedRoot)] else [] }, t := { teams := t } }
/-- Object 5, page 0 of context 0 is waited for: by nothing, by thread 50, by lane 3 of a group. -/
def awaited (groups threads : List Nat) : MergeEntry := { die := 0, ctx := 0, obj := 5, page := 0, reason := .absent, groups := groups, threads := threads, seqs := [] }
def threaded : State := { hostly true { merge := [awaited [] [50]] } with e := { threads := [(50, some (copyX []))] } }
def laned : State :=
  { hostly true { merge := [awaited [gk0] []] } [(1, { live := true })] with
    g := { groups := [(gk0, { tk := 1, width := 16 })], lanes := [(lkOf gk0 3, { st := .waiting (.merge 0 5 0 8 1) })] } }
def fenced (pend : Tbl (Option MemEv)) : State :=
  let s := hostly true
  { s with h := { s.h with fences := [{ ctx := 0, seq := 77, sys := true, mark := 41 }] }, o := { s.o with pend := pend } }
/-- An access at its memory port that waits for its page. -/
def ported : MemEv := { evt .load devLoc with tr := some (.read, false), cap := mkCap 1 255 5 0 65536 }
def portWait : State :=
  { hostly true { merge := [awaited [gk0] []] } [(1, { live := true })] with
    g := { groups := [(gk0, { tk := 1, width := 16 })] }
    o := { pend := [(40, some ported)] } }
theorem test_port_wait_met :
    (portWait.h.readyBit = true ∧ portWait.hostQuiet = true ∧ portWait.ctxEn 0 = true ∧ portWait.h.tport.toNat % 2 ^ 32 = 0) ∧
    portWait.x.merge = [awaited [gk0] []] ∧ portWait.o.pend = [(40, some ported)] ∧ ported.tr = some (.read, false) ∧ ported.gk = gk0 ∧
    (portWait.kern gk0).ctx = 0 ∧ Cap.obj ported.cap = 5 ∧ ported.page = 0 ∧ Cap.type ported.cap ≠ 0 ∧
    ∀ j, (portWait.lane (lkOf gk0 j)).st = .ready ∨ (portWait.lane (lkOf gk0 j)).st = .exited :=
  ⟨by decide +kernel, by decide +kernel, by decide +kernel, by decide +kernel, by decide +kernel, by decide +kernel, by decide +kernel,
    by decide +kernel, by decide +kernel, fun _ => .inr rfl⟩
theorem test_contexts_met :
    (hostly true).hostQuiet = true ∧ (hostBusy (hostly true)).hostQuiet = false ∧ threaded.hostQuiet = true ∧ laned.hostQuiet = true ∧ laned.o.pend = [] ∧
    ((hostly true).ctxEn 0 = true ∧ (hostly false).hostQuiet = true) ∧
    ((hostly false).h.readyBit = true ∧ (0 : Nat) < 64 ∧ (hostly false).ctxEn 0 = false ∧ (hostly true).ctxEn 0 = true) ∧
    ((1 : DWord).getLsbD 0 = true ∧ (1 : DWord).getLsbD 1 = false ∧ (3 : DWord).getLsbD 0 = true ∧ (3 : DWord).getLsbD 1 = true ∧
      part (rootOf (hostly false) 0) 1 1 = 0) ∧
    (keysRise (hostly true).t.teams = true ∧ keysRise (hostly true).l.launches = true ∧ (hostly true).h.tport.toNat % 2 ^ 32 = 0) ∧
    (threaded.thread 50 = some (copyX []) ∧ threaded.x.merge = [awaited [] [50]] ∧ (copyX []).kind ≠ .pair ∧
      ∀ m ∈ threaded.x.merge, 50 ∈ m.threads → m.ctx = 0 ∧ m.obj = 5 ∧ m.page = 0) ∧
    (laned.x.merge = [awaited [gk0] []] ∧ 3 < (laned.group gk0).width ∧ (laned.group gk0).width ≤ 64 ∧
      (laned.lane (lkOf gk0 3)).st = .waiting (.merge 0 5 0 8 1) ∧ (1 : Nat) ≠ 0 ∧
      ∀ j, j < (laned.group gk0).width → j ≠ 3 → (laned.lane (lkOf gk0 j)).st = .exited) ∧
    ({ hostly true with h := { (hostly true).h with tport := 1 } }).h.tport.toNat % 2 ^ 32 ≠ 0 ∧
    ((fenced []).h.fences.find? (fun f => f.seq == 77) = some { ctx := 0, seq := 77, sys := true, mark := 41 } ∧ (fenced []).otBusy 0 41 0 = false) := by
  decide +kernel
/-- An access of context 0 before the fence. -/
theorem test_fence_busy_met : let s := pending (evt .store devLoc)
    ({ s with h := { s.h with fences := [{ ctx := 0, seq := 77, sys := true, mark := 41 }] } }).otBusy 0 41 0 = true := by decide +kernel

/-! ### The host interface, the directory -/

def evented (evlen evcons : Word) : State :=
  { State.reset with
    h := { State.reset.h with evlen := evlen, evcons := evcons, events := [{ kind := 3, ctx := 0, payload := 1, need := [41] }, { kind := 1, ctx := 0, payload := 2 }] }
    o := { State.reset.o with cbuf := [(41, some (buf devLoc))] } }
theorem test_host_interface_met :
    ((hostly true).hostQuiet = true ∧ (hostBusy (hostly true)).hostQuiet = false) ∧
    ((hostly true).h.readyBit = true ∧ devHas (2 ^ 40) 64 = true ∧ devHas (2 ^ 40 + 1) 8 = true ∧ (2 ^ 40 + 1 : Nat) < 2 ^ 42) ∧
    (0x40 ≤ (0x58 : Nat) ∧ (0x58 : Nat) < 2 ^ 40 ∧ State.reset.h.readyBit = false) ∧ (0x54 % 8 ≠ 0) ∧
    ((evented 256 0).h.events = [{ kind := 3, ctx := 0, payload := 1, need := [41] }] ++ { kind := 1, ctx := 0, payload := 2 } :: [] ∧
      (∀ x ∈ [({ kind := 3, ctx := 0, payload := 1, need := [41] } : Event)], (evented 256 0).eventReady x = false)) ∧
    (let n := (evented 256 0).h.evlen.toNat / 128; let p := (evented 256 0).h.evprod.toNat % n
     0 < n ∧ (p + n - (evented 256 0).h.evcons.toNat % n) % n ≠ n - 1) ∧
    (let n := (evented 256 1).h.evlen.toNat / 128; let p := (evented 256 1).h.evprod.toNat % n
     (p + n - (evented 256 1).h.evcons.toNat % n) % n = n - 1) := by decide +kernel

/-- The first line of device memory, of home die 0; a directory state, requests, the lines of the dies. -/
def line0 : Nat := 2 ^ 31
def directory (x : DirSt) (reqs : List DirReq) (l2 : List (Nat × L2Line)) (filter : List Nat := []) : State :=
  { State.reset with d := { dir := [(line0, x)], reqs := reqs, l2 := l2.map (fun p => (line0 * 4 + p.1, p.2)), filter := filter } }
def req (k : ReqKind) (die : Nat) (active : Bool) (msgs acks : List Nat) : DirReq :=
  { line := line0, die := die, kind := k, active := active, msgs := msgs, acks := acks }
def evicting (k : ReqKind) (x : DirSt) : State := directory x [req k 1 false [] []] [(1, { st := .mi, dirty := 1 })]
theorem test_directory_requests_met :
    (lineOk line0 1 = true ∧ homeOf line0 = 0) ∧
    (let s := directory .uncached [] []; Idle s line0 ∧ FilterRoom s line0 0 ∧ FilterRoom s line0 1 ∧ (s.l2Line line0 1).st = .i ∧ s.dirSt line0 = .uncached) ∧
    (let s := directory (.exclusive 2) [] []; Idle s line0 ∧ FilterRoom s line0 1 ∧ (s.l2Line line0 1).st = .i ∧ s.dirSt line0 = .exclusive 2) ∧
    (let s := directory (.shared 5) [] []; Idle s line0 ∧ FilterRoom s line0 1 ∧ (s.l2Line line0 1).st = .i ∧ s.dirSt line0 = .shared 5) ∧
    (let s := directory (.shared 3) [] [(1, { st := .s })]; Idle s line0 ∧ (s.l2Line line0 1).st = .s ∧ s.dirSt line0 = .shared 3) ∧
    (let r := req .gets 1 true [] [2]; let s := directory (.exclusive 2) [r] [(1, { st := .is })]
     s.busyReq line0 = some r ∧ r.die = 1 ∧ r.kind ≠ .recall ∧ r.acks ≠ []) ∧
    (∀ x ∈ [DirSt.uncached, .shared 5, .exclusive 2], let r := req .gets 1 true [] []; let s := directory x [r] [(1, { st := .is })]
     s.busyReq line0 = some r ∧ r.acks = [] ∧ (s.l2Line line0 1).st = .is ∧ s.dirSt line0 = x) ∧
    (let r := req .getm 1 true [] []; let s := directory .uncached [r] [(1, { st := .im })]
     s.busyReq line0 = some r ∧ r.kind = .getm ∧ r.acks = [] ∧ (s.l2Line line0 1).st = .im) := by
  unfold Idle FilterRoom; decide +kernel
/-- Of 4,097 lines two fall into one set of the filter, whichever sets the device gives them (log 2): the set is full of one of
them, and die 1 asks for the other. -/
theorem test_recall_met : ∃ line v : Nat, ∃ s : State, lineOk line 1 = true ∧ Idle s line ∧ Idle s v ∧ ¬ FilterRoom s line 1 ∧
    (s.l2Line line 1).st = .i ∧ s.filterSet line = v :: List.replicate 15 v ∧ ∀ q ∈ s.d.reqs, q.kind ≠ .recall := by
  have hc : (Finset.range 4096).card < (Finset.range 4097).card := by simp
  obtain ⟨a, ha, b, hb, hab, hf⟩ := Finset.exists_ne_map_eq_of_card_lt_of_maps_to (f := fun i => Config.filterSet (line0 + i) % 4096) hc
    (fun i _ => by simp only [Finset.coe_range, Set.mem_Iio]; exact Nat.mod_lt _ (by decide))
  have hl : ∀ i < 4097, lineOk (line0 + i) 1 = true ∧ homeOf (line0 + i) = 0 := by decide +kernel
  have ha' := hl a (Finset.mem_range.mp ha)
  have hb' := hl b (Finset.mem_range.mp hb)
  refine ⟨line0 + a, line0 + b, { State.reset with d := { filter := List.replicate 16 (line0 + b) } }, ha'.1, ?_, ?_, ?_, rfl, ?_, ?_⟩
  · intro r hr; cases hr
  · intro r hr; cases hr
  · have hs : State.filterSet { State.reset with d := { filter := List.replicate 16 (line0 + b) } } (line0 + a) = List.replicate 16 (line0 + b) := by
      unfold State.filterSet
      rw [List.filter_eq_self]
      intro l hl
      rw [List.eq_of_mem_replicate hl]
      simp only [ha'.2, hb'.2]
      simp [hf]
    rintro (h | h | h)
    · rw [ha'.2] at h; cases h
    · have := List.eq_of_mem_replicate h
      omega
    · rw [hs] at h; simp at h
  · unfold State.filterSet
    show List.filter _ (List.replicate 16 (line0 + b)) = _
    rw [List.filter_eq_self.mpr]
    · rfl
    · intro l hl
      rw [List.eq_of_mem_replicate hl]
      simp only [ha'.2, hb'.2]
      simp [hf]
  · intro q hq; cases hq
theorem test_directory_answers_met :
    (∀ x ∈ [L2St.s, .e, .m, .sm, .mi], let r := req .getm 2 true [1] [1]; let s := directory (.exclusive 1) [r] [(1, { st := x, dirty := 1 })]
     s.busyReq line0 = some r ∧ 1 ∈ r.msgs ∧ r.kind ≠ .gets ∧ (s.l2Line line0 1).st = x) ∧
    (∀ x ∈ [L2St.e, .m], let r := req .gets 2 true [1] [1]; let s := directory (.exclusive 1) [r] [(1, { st := x, dirty := 1 })]
     s.busyReq line0 = some r ∧ 1 ∈ r.msgs ∧ r.kind = .gets ∧ (s.l2Line line0 1).st = x ∧ 1 ≠ homeOf line0) ∧
    (let r := req .getm 2 true [] [1]; let s := directory (.exclusive 1) [r] []
     s.busyReq line0 = some r ∧ 1 ∈ r.acks ∧ 1 ∉ r.msgs ∧ r.kind ≠ .gets ∧ r.kind ≠ .recall) ∧
    (let r := req .recall 0 true [] [1]; let s := directory (.shared 3) [r] []
     s.busyReq line0 = some r ∧ r.acks = [1] ∧ 1 ∉ r.msgs ∧ r.kind = .recall) ∧
    (∀ k ∈ [ReqKind.puts, .pute, .putm], ∀ x ∈ [DirSt.shared 3, .exclusive 1, .uncached], let s := evicting k x
     s.dirReq line0 1 = some (req k 1 false [] []) ∧ s.reqTurn (req k 1 false [] []) = true ∧ s.dirSt line0 = x) ∧
    (∀ x ∈ [L2St.s, .e, .m], let s := directory (.exclusive 1) [] [(1, { st := x })]
     s.dirReq line0 1 = none ∧ (∀ i, i < 8 → tget none s.o.nc (ncKey 1 (line0 * 512 + 64 * i)) = none) ∧ (s.l2Line line0 1).st = x) ∧
    (∀ x ∈ [L2St.mi, .ii], let r := req .putm 1 true [] []; let s := directory .uncached [r] [(1, { st := x })]
     s.dirReq line0 1 = some r ∧ r.kind = .putm ∧ r.active = true ∧ (s.l2Line line0 1).st = x) := by decide +kernel

/-! ### The fabric -/

def withPort (p : Port) (stage : Nat := 12) (dev : Nat := 0) : State :=
  { State.reset with f := { State.reset.f with ports := [(3, p)] }, r := { State.reset.r with stage := stage }, h := { State.reset.h with devnum := dev } }
def lanes16 : BitVec 18 := 0xFFFF
theorem test_fabric_ports_met :
    (let p := (withPort { state := 2, rxctr := 5, held := [7], acked := 2 }).port 3
     Linked p ∧ p.held.Nodup ∧ p.rxctr ∉ p.held ∧ 4 < p.rxctr ∧ 7 ∈ p.held ∧ p.rxctr ≤ 5 ∧ 5 ∉ p.held ∧ p.acked ≤ 2 ∧ (2 : Nat) < 2 ^ 64 - 1) ∧
    (let p := (withPort { lanemap := lanes16 }).port 3
     p.lanemap.getLsbD 0 = true ∧ 0 < p.spares ∧ p.spares ≤ 2 ∧ ∃ n, n < 18 ∧ p.lanemap.getLsbD n = false ∧ p.dead.getLsbD n = false) ∧
    (let p := (withPort { linkup := 3 }).port 3; p.linkup.getLsbD 0 = true ∧ ∃ k, k < 4 ∧ k ≠ 0 ∧ p.linkup.getLsbD k = true) ∧
    (let p := (withPort { linkup := 4 }).port 3; ∀ k, k < 4 → (p.linkup.getLsbD k = true ↔ k = 2)) ∧
    (9 ≤ (withPort {}).r.stage ∧ ((withPort {}).port 3).state < 2 ∧ ((withPort {}).port 3).keyst ≠ 2 ∧ ((withPort {}).port 3).lanemap = 0 ∧
      ((withPort { lanemap := lanes16 }).port 3).lanemap ≠ 0) := by
  unfold Linked; decide +kernel
theorem test_fabric_keys_met :
    (Linked ((withPort { state := 2, keyst := 1 }).port 3) ∧ ((withPort { state := 2, keyst := 1 }).port 3).keyst = 1) ∧
    (Linked ((withPort { state := 2 }).port 3) ∧ ((withPort { state := 2 }).port 3).keyst ≠ 1) ∧
    (let p := (withPort { state := 2, txctr := 0xFFFFFFFFFFFFFFFF }).port 3; p.state = 2 ∧ p.keyst = 0 ∧ p.txctr.toNat = 2 ^ 64 - 1) ∧
    ((withPort {}).port 3).txctr.toNat ≠ 2 ^ 64 - 1 ∧
    (let p := (withPort { state := 3, keyst := 2 }).port 3; p.state = 3 ∧ p.keyst = 2) ∧
    (let p := (withPort { state := 3, keyst := 1 }).port 3; p.state = 3 ∧ p.keyst = 1) := by
  unfold Linked; decide +kernel

/-- A device that admits device 4, with reduction slots; one whose result record goes to byte 0 of object 1, the table area. -/
def admitting (slots : Tbl RSlot) : State :=
  { hostly true with f := { State.reset.f with peeradmit := 16, slots := slots } }
theorem test_peers_met :
    ((admitting []).h.readyBit = true ∧ (admitting []).f.peeradmit.getLsbD 5 = false) ∧
    (∀ n ∈ [1, 2, 4, 8], Admitted (admitting []) 4 (2 ^ 40 + 4096 - n) n ∧ (2 ^ 40 + 4096 - n) % n = 0) ∧
    (4 = atomBytes .addB32 ∧ 8 = atomBytes .addB64) ∧
    (Admitted (admitting []) 4 (2 ^ 40) [1, 2, 3].length ∧ 2 ^ 40 / 65536 = (2 ^ 40 + [1, 2, 3].length - 1) / 65536) := by
  unfold Admitted; decide +kernel
def delivering (live : Bool) (leaser : Nat) : State :=
  { admitting [(6, { st := .done, pending := true, leaserDev := leaser, tk := 1, cap := mkCap 1 255 1 0 65536, off := 0 })] with
    t := { teams := [(1, { live := live, cores := [0] })] }
    o := { State.reset.o with mem := writeLE [] (2 ^ 40 + 32) placedEntry 32 } }
theorem test_reduction_slots_met :
    ((admitting []).f.peeradmit.getLsbD 4 = true ∧ (4 : Nat) ≠ (admitting []).h.devnum ∧ ((admitting []).rslot 6).st = .free ∧
      ((admitting [(6, { st := .done })]).rslot 6).st = .done ∧ ((admitting [(6, { st := .leased })]).rslot 6).st = .leased) ∧
    (let r := (admitting [(6, { st := .leased, expected := 0x30 })]).rslot 6; r.st = .leased ∧ r.expected.getLsbD 4 = true ∧ r.seen.getLsbD 4 = false) ∧
    (let r := (admitting [(6, { st := .armed, expected := 0x30, seen := 0x10 })]).rslot 6; r.st = .armed ∧ r.expected.getLsbD 4 = true ∧ r.seen.getLsbD 4 = true) ∧
    (let r := (admitting [(6, { st := .armed, timeout := 5 })]).rslot 6; r.st = .armed ∧ r.timeout ≠ 0) ∧
    ((admitting []).rslot 6).pending = false ∧
    (((delivering false 0).rslot 6).pending = true ∧ ((delivering false 0).team ((delivering false 0).rslot 6).tk).live = false ∧
      ((delivering true 4).rslot 6).leaserDev ≠ (delivering true 4).h.devnum) ∧
    (let s := delivering true 0; let r := s.rslot 6; let u := s.setRslot 6 { r with pending := false }
     r.pending = true ∧ r.leaserDev = s.h.devnum ∧ (s.team r.tk).live = true ∧ (2 ^ 40) % 16 = 0 ∧ devHas (2 ^ 40) 16 = true ∧
      u.resolve r.tk ((s.team r.tk).cores.headD 0) r.cap r.off 16 .write false false = (.ok (.dev (2 ^ 40) .wb false), u)) := by decide +kernel

/-! ### Owl -/

/-- Two lanes; the ring of die 0 with and without room; a team whose sequencer runs or is halted. -/
def watched (o : Owl) (l : Lane := { st := .ready }) (q : Seq := {}) : State :=
  { dev [0, 1] {} l { seq := q } with w := { State.reset.w with owl := [(0, o)] } }
def ringed : Owl := { trlen := 64 }
theorem one_bit : ∀ n < 64, (1 : DWord).getLsbD n = true → n = 0 := by decide
theorem test_halts_met :
    (GroupRuns (watched {}) gk0 ∧ TracingOff (watched {}) 0) ∧
    (RingOpen (watched ringed) 0 ∧ ((watched ringed).owl 0).lost = 0 ∧ (∀ k, Selected (watched ringed) gk0 1 k ↔ k = lkOf gk0 0) ∧
      GroupRuns (watched ringed) gk0 ∧ (watched ringed).looksPending (lkOf gk0 0) = false ∧
      ((watched ringed).lane (lkOf gk0 0)).intrap = false ∧ ((watched ringed).lane (lkOf gk0 0)).st = .ready) ∧
    (GroupRuns (watched {} { st := .halted none }) gk0 ∧ ∀ k, Selected (watched {} { st := .halted none }) gk0 3 k →
      ∃ w, ((watched {} { st := .halted none }).lane k).st = .halted w) ∧
    (((watched {}).group gk0).width ≤ 64 ∧ ∃ k, Selected (watched {}) gk0 1 k ∧ ∀ w, ((watched {}).lane k).st ≠ .halted w) ∧
    (let s := watched {} { st := .ready } { st := .running }
     (s.team 1).live = true ∧ (s.team 1).seq.st = .running ∧ TracingOff s (dieOf ((s.team 1).cores.headD 0))) ∧
    (let s := watched {} { st := .ready } { st := .halted }; (s.team 1).live = true ∧ (s.team 1).seq.st = .halted) := by
  refine ⟨by unfold GroupRuns TracingOff; decide +kernel, ⟨by unfold RingOpen; decide +kernel, by decide +kernel, fun k => ⟨?_, ?_⟩, by unfold GroupRuns; decide +kernel,
    by decide +kernel, by decide +kernel, by decide +kernel⟩, ⟨by unfold GroupRuns; decide +kernel, fun k h => ?_⟩, ⟨by decide +kernel, lkOf gk0 0, by unfold Selected; decide +kernel, ?_⟩,
    by unfold TracingOff; decide +kernel, by decide +kernel⟩
  · rintro ⟨h1, -, h3⟩
    have := one_bit (k % 64) (by omega) h3
    show k = gk0 * 64 + 0
    omega
  · rintro rfl
    unfold Selected
    decide +kernel
  · obtain ⟨h1, -, h3⟩ := h
    have hb : ∀ n < 64, (3 : DWord).getLsbD n = true → n = 0 ∨ n = 1 := by decide
    have hk : k = lkOf gk0 0 ∨ k = lkOf gk0 1 := by
      have := hb (k % 64) (by omega) h3
      show k = gk0 * 64 + 0 ∨ k = gk0 * 64 + 1
      omega
    obtain rfl | rfl := hk
    · exact ⟨none, by decide +kernel⟩
    · exact ⟨none, by decide +kernel⟩
  · intro w h
    have e : ((watched {}).lane (lkOf gk0 0)).st = .ready := by decide +kernel
    rw [e] at h
    cases h
/-- A lane halted in its wait for mask 2, the other lane of the mask waiting there; halted lanes elsewhere. -/
def rejoining : State :=
  let s := watched {}
  { s with g := { s.g with jmask := [(cKey gk0 2, 3)], lanes := [(lkOf gk0 0, { st := .halted (some (.rejoin 2)) }), (lkOf gk0 1, { st := .waiting (.rejoin 2) })] } }
theorem test_halted_rejoin_met :
    GroupRuns rejoining gk0 ∧ (∀ k, Selected rejoining gk0 1 k ↔ k = lkOf gk0 0) ∧ (rejoining.lane (lkOf gk0 0)).st = .halted (some (.rejoin 2)) ∧
    (rejoining.jmask gk0 2).getLsbD 0 = true ∧
    (∀ k, k < (rejoining.group gk0).width → k ≠ 0 → (rejoining.jmask gk0 2).getLsbD k = true → (rejoining.lane (lkOf gk0 k)).st = .waiting (.rejoin 2)) ∧
    NoneAtRejoin (watched {} { st := .halted none }) gk0 3 := by
  refine ⟨by unfold GroupRuns; decide +kernel, fun k => ⟨?_, ?_⟩, by decide +kernel, by decide +kernel, by decide +kernel, ?_⟩
  · rintro ⟨h1, -, h3⟩
    have := one_bit (k % 64) (by omega) h3
    show k = gk0 * 64 + 0
    omega
  · rintro rfl
    unfold Selected
    decide +kernel
  · rintro k ⟨h1, -, h3⟩ n
    have hb : ∀ n < 64, (3 : DWord).getLsbD n = true → n = 0 ∨ n = 1 := by decide
    have hk : k = lkOf gk0 0 ∨ k = lkOf gk0 1 := by
      have := hb (k % 64) (by omega) h3
      show k = gk0 * 64 + 0 ∨ k = gk0 * 64 + 1
      omega
    have e : ∀ k ∈ [lkOf gk0 0, lkOf gk0 1], ((watched {} { st := .halted none }).lane k).st = .halted none ∧
      ((watched {} { st := .halted none }).lane k).after = none := by decide +kernel
    have := e k (by simpa using hk)
    exact ⟨fun h => (by rw [this.1] at h; cases h), fun h => (by rw [this.2] at h; cases h)⟩
def sampling (last : Nat) : State :=
  let s := watched { ringed with sampctl := 0x8000000000000000 }
  { s with w := { s.w with sampled := [(0, last)] } }
theorem test_grants_met :
    ((hostly true).h.readyBit = true ∧ part (0x05DC000000000001 : DWord).toNat 0 2 ≠ part ((hostly true).owl 0).grant.toNat 0 2 ∧
      part (0x05DC000000000000 : DWord).toNat 8 6 = part ((hostly true).owl 0).grant.toNat 8 6 ∧
      part (0x05DC000000000000 : DWord).toNat 0 2 = part ((hostly true).owl 0).grant.toNat 0 2) ∧
    (part (0x05DC000000000001 : DWord).toNat 0 1 = 1 ∧ part (0x05DC000000000001 : DWord).toNat 48 16 = 1500 ∧ part (0x05DC000000000100 : DWord).toNat 0 1 = 0 ∧
      part (0x05DC000000000100 : DWord).toNat 8 6 ≠ part ((hostly true).owl 0).grant.toNat 8 6) ∧
    (RingOpen (watched { ringed with lost := 3 }) 0 ∧ ((watched { ringed with lost := 3 }).owl 0).lost ≠ 0) ∧ TracingOff two 0 ∧
    part ((watched {}).owl (dieOf 0)).sampctl.toNat 63 1 = 0 ∧
    (part ((sampling 0).owl (dieOf 0)).sampctl.toNat 63 1 = 1 ∧ RingOpen (sampling 0) (dieOf 0) ∧ ((sampling 0).owl (dieOf 0)).lost = 0 ∧
      ((sampling 0).group gk0).lastLane < 64 ∧ ((sampling 0).group gk0).core = 0) ∧
    NextSample (sampling 0) 0 0 (part ((sampling 0).owl (dieOf 0)).sampctl.toNat 0 6) gk0 ∧
    NextSample (sampling (2 ^ 90)) 0 0 (part ((sampling (2 ^ 90)).owl (dieOf 0)).sampctl.toNat 0 6) gk0 := by
  unfold RingOpen TracingOff NextSample
  refine ⟨by decide +kernel, by decide +kernel, by decide +kernel, by decide +kernel, by decide +kernel, by decide +kernel,
    ⟨_, List.mem_singleton.mpr rfl, rfl, by decide +kernel, .inl ⟨by decide +kernel, ?_⟩⟩,
    ⟨_, List.mem_singleton.mpr rfl, rfl, by decide +kernel, .inr ⟨by decide +kernel, ?_⟩⟩⟩ <;>
  · intro y hy _ 
    obtain rfl := List.mem_singleton.mp hy
    first
      | exact fun _ => .inr rfl
      | exact .inr rfl

/-! ### Steps -/

/-- An issue of lane 0 at packet 0 of an image. -/
def issuing (ws : List Word) (slot : Nat) (words : Nat) (l : Lane := { st := .ready }) (view : Nat := 1) : State :=
  let s := seqDev {} ws
  { s with
    g := { s.g with groups := [(gk0, { tk := 1, width := 16, regs := 96, codeView := view })], lanes := [(lkOf gk0 0, { l with slot := slot })] }
    iss := { gk := gk0, pkt := 0, slot := slot, lanes := [0], words := words, all := [0], start := slot, size := words } }
def fetchesB (s : State) (core ctx obj off a : Nat) (w : Word) : Bool := match s.translate core ctx obj off .read with
  | (.ok l _ _, u) => decide (l = .dev a .wb false ∧ u = s ∧ w.toNat = valueAt s (fun i => .dev (a + i) .wb false) 4)
  | _ => false
theorem fetched_of {s : State} {core ctx obj off a : Nat} {w : Word} (h : fetchesB s core ctx obj off a w = true) :
    FetchedAt s core ctx obj off a w := by
  unfold fetchesB at h
  match hk : s.translate core ctx obj off .read, h with
  | (.ok l o n, u), h =>
    simp at h
    exact ⟨.wb, o, n, by rw [hk, h.1, h.2.1], .inl rfl, h.2.2⟩
  | (.wait _, _), h => simp at h
  | (.fail _, _), h => simp at h
theorem test_lane_step_met :
    (let s := issuing [0x800C0821, 0, 0] 0 1
     s.iss.words ≠ 0 ∧ CodeAt s s.iss.gk s.here 0x800C0821 ∧ AllRun s (.iadd true 3 1 2) ∧ (0x800C0821 : Word).toNat / 2 ^ 25 % 64 ≠ 0x3E ∧
      decodeLane 0x800C0821 0 = .ok (.iadd true 3 1 2)) ∧
    (let s := issuing [0, 0x7C200000, 0xFF800000] 1 1
     s.iss.words ≠ 0 ∧ CodeAt s s.iss.gk s.here 0x7C200000 ∧ AllRun s (.movl 8 0xFF800000) ∧ (0x7C200000 : Word).toNat / 2 ^ 25 % 64 = 0x3E ∧
      s.iss.slot < 2 ∧ CodeAt s s.iss.gk s.here.next 0xFF800000 ∧ decodeLane 0x7C200000 0xFF800000 = .ok (.movl 8 0xFF800000)) := by
  unfold AllRun CodeAt
  refine ⟨⟨by decide +kernel, .inl ⟨by decide +kernel, 2 ^ 40 + 64, fetched_of (by decide +kernel)⟩, by decide +kernel, by decide +kernel, by decide +kernel⟩,
    ⟨by decide +kernel, .inl ⟨by decide +kernel, 2 ^ 40 + 68, fetched_of (by decide +kernel)⟩, by decide +kernel, by decide +kernel, by decide +kernel,
      .inl ⟨by decide +kernel, 2 ^ 40 + 72, fetched_of (by decide +kernel)⟩, by decide +kernel⟩⟩
/-- A group whose fetches have not reached the newest stores, and memory where one of them has replaced the word (R131). -/
def behindCode : State :=
  let s := issuing [0x800C0821, 0, 0] 0 1
  let v : Version := { stamp := 1, val := BitVec.ofNat 128 0x800C0821 }
  { s with o := { s.o with mem := writeLE s.o.mem (2 ^ 40 + 64) 0 4, old := [((2 ^ 40 + 64) / 16, [v])], stamp := 2 } }
theorem test_old_code_met : CodeAt behindCode behindCode.iss.gk behindCode.here 0x800C0821 ∧ behindCode.devRead (2 ^ 40 + 64) 4 = 0 := by
  have h : FetchedAt behindCode 0 0 1 64 (2 ^ 40 + 64) 0 := fetched_of (by decide +kernel)
  obtain ⟨pol, ot, unit, h, -⟩ := h
  exact ⟨.inr ⟨by decide +kernel, 2 ^ 40 + 64, pol, ot, unit, h, by decide +kernel⟩, by decide +kernel⟩
def turning (t : Turn) : State := { seqDev { st := .running } [0x38000000] with cur := 0, turns := [t] }
theorem test_turn_step_met :
    (let s := entering [draining] [] [0x3C000000]
     s.iss.words = 0 ∧ s.iss.fill = [] ∧ s.e.epi.prog = 0x3C000000 :: [] ∧ decodeE 0x3C000000 = .ok .eend) ∧
    (let s := turning (.mword 1)
     BetweenTurns s ∧ s.turns = .mword 1 :: [] ∧ SeqMayRun s 1 ∧ MWordAt { s with turns := [], cur := 1 } 1 0x38000000 ∧ decodeM 0x38000000 = .ok .mexit) ∧
    (BetweenTurns (turning (.unit .powerUp)) ∧ encode .powerUp = [] ∧ ∀ n, Instr.powerUp ≠ .ageLimitExpiry n) ∧
    (turning (.unit (.ageLimitExpiry 5))).turns = .unit (.ageLimitExpiry 5) :: [] ∧ encode .mexit ≠ [] ∧
    ((turning (.clock 127 3)).r.power = true ∧ dark.r.power = false) := by
  unfold BetweenTurns MWordAt
  refine ⟨by decide +kernel, ⟨by decide +kernel, rfl, ⟨by decide +kernel, by decide +kernel, by decide +kernel⟩,
    ⟨2 ^ 40 + 64, fetched_of (by decide +kernel)⟩, by decide +kernel⟩, ⟨by decide +kernel, by decide +kernel, fun n h => nomatch h⟩,
    rfl, by decide +kernel, by decide +kernel⟩
theorem test_words_of_an_issue_met : let s := issuing [0x800C0821, 0, 0] 0 2
    s.iss.words ≠ 0 ∧ 1 < s.iss.words ∧ s.iss.lanes.Pairwise (· < ·) ∧ (∀ l ∈ s.iss.lanes, (s.lane (lkOf gk0 l)).st = .ready ∧
      (s.lane (lkOf gk0 l)).resume = none) ∧ (s.group gk0).pair = false ∧ ∀ l ∈ s.iss.all, ∀ f, (s.lane (lkOf gk0 l)).st ≠ .parked f :=
  ⟨by decide +kernel, by decide +kernel, by decide +kernel, by decide +kernel, by decide +kernel, fun l hl f => by
    obtain rfl := List.mem_singleton.mp hl; exact fun h => nomatch h⟩
/-- A step keeps the order of the issues, and of memory, from the state after reset. -/
theorem test_invariants_met : IssueOrdered State.reset ∧ MemoryWf State.reset ∧ ∃ t, step State.reset = .next t :=
  ⟨by unfold IssueOrdered; decide +kernel, by unfold MemoryWf; decide +kernel, _, rfl⟩
theorem test_encodings_met : (Instr.iadd true 3 1 2).wf = true ∧ isM .mend = true ∧ isE .eend = true ∧
    (isM (.iadd true 3 1 2) = false ∧ isE (.iadd true 3 1 2) = false ∧ encode (.iadd true 3 1 2) ≠ []) ∧
    ((0x800C0821 : Word).toNat / 2 ^ 25 % 64 ≠ 0x3E ∧ decodeLane 0x800C0821 0 = .ok (.iadd true 3 1 2)) := by decide +kernel

end Sys2Proof.Tests
end

section
/-! The state after reset (O58): every table is empty, so each of its reads is the default, which is the reset value. -/

namespace Sys2Proof.Machine

/-- Bytes of an empty table. -/
@[simp] theorem readLE_nil (a n : Nat) : readLE [] a n = 0 := by
  induction n generalizing a with
  | zero => rfl
  | succ n ih => simp [readLE, ih, memDefault]

namespace State

/-! ### What a read of the state after reset returns -/

@[simp] theorem devRead_reset (a n : Nat) : reset.devRead a n = 0 := readLE_nil a n
@[simp] theorem team_reset (tk : Nat) : reset.team tk = {} := tget_nil _ _
@[simp] theorem port_reset (p : Nat) : reset.port p = {} := tget_nil _ _
@[simp] theorem rslot_reset (n : Nat) : reset.rslot n = {} := tget_nil _ _
@[simp] theorem owl_reset (die : Nat) : reset.owl die = {} := tget_nil _ _
@[simp] theorem bankrole_reset (core : Nat) : reset.bankrole core = 0 := tget_nil _ _

end State

/-! ### The invariants -/

/-- No issue is under way. -/
theorem issueOrdered_reset : IssueOrdered State.reset := fun h => absurd rfl h

/-- No word of an issue or of a row is left to run. -/
theorem betweenTurns_reset : Claims.BetweenTurns State.reset := ⟨rfl, rfl, rfl⟩

/-- R358: memory reads 0, here from reset on, before stage 9 has written it (log 4). -/
theorem byteOf_dev_reset (a : Nat) : Claims.byteOf State.reset (.dev a .wb false) = 0 := State.devRead_reset a 1

/-! ### The reset values of one block of registers each -/

/-- Table 19.1. -/
theorem port_reset_values (p : Nat) : let x := State.reset.port p
    x.state = 0 ∧ x.keyst = 0 ∧ x.spares = 2 ∧ x.linkup = 0 ∧ x.dlcount = 0 ∧ x.txctr = 0 := by
  simp

/-- Tables 23.8 and 23.9: no grant is held, sampling is off, and its period is 4,096. -/
theorem owl_reset_values (die : Nat) : let x := State.reset.owl die
    x.grant = 0 ∧ Claims.part x.sampctl.toNat 63 1 = 0 ∧ Claims.part x.sampctl.toNat 32 21 = 4096 := by
  rw [State.owl_reset]
  decide

end Sys2Proof.Machine

namespace Sys2Proof.Proofs

open Sys2Proof.Machine

theorem resetIsOrdered : Claims.ResetIsOrdered :=
  ⟨State.reset_memOk, issueOrdered_reset, betweenTurns_reset⟩

theorem resetValues : Claims.ResetValues := by
  have roots (c : Nat) : tget 0 State.reset.x.roots c = 0 := tget_nil _ _
  have groups (g : Nat) : tget 0 State.reset.f.mcgroup g = 0 := tget_nil _ _
  have slots (n : Nat) : (State.reset.rslot n).st = .free := congrArg RSlot.st (State.rslot_reset n)
  have comparators (k : Nat) : tget 0 State.reset.w.cmps k = 0 := tget_nil _ _
  have teams (k : Nat) : (State.reset.team k).live = false := congrArg Team.live (State.team_reset k)
  have tags (k : Nat) : tget .free State.reset.t.tags k = .free := tget_nil _ _
  exact ⟨byteOf_dev_reset, roots, State.bankrole_reset, rfl,
    rfl, rfl, rfl, rfl, rfl, rfl, rfl, rfl, rfl, rfl, rfl, rfl,
    port_reset_values, rfl, groups, slots, owl_reset_values, comparators, teams, tags⟩

/-- Settles O58: no table of the state after reset has an entry, so each read of one returns its default. -/
theorem resetState : Obligations.ResetState := ⟨resetIsOrdered, resetValues⟩

end Sys2Proof.Proofs
end

section
/-! Power and bring-up (O48): what a restart keeps of a table, when the clock may step, and what each stage of bring-up does. -/

namespace Sys2Proof.Machine

open Sys2Proof.Claims (Goes Restarted Runs_ fwOk byteOf)

/-! ### Tables rebuilt, and runs of keys written -/

/-- A table whose entries are set one after another keeps its value at a key that none of them has. -/
theorem tget_foldl_tset_of_hasNoKey {α : Type} [DecidableEq α] (d : α) (f : α → α) (t u : Tbl α) (n : Nat) (h : hasNoKey t n) :
    tget d (t.foldl (fun u p => tset d u p.1 (f p.2)) u) n = tget d u n := by
  induction t generalizing u with
  | nil => rfl
  | cons p t ih =>
    have hp : n ≠ p.1 := fun e => h p (by simp) e.symm
    rw [List.foldl_cons, ih _ (fun q hq => h q (by simp [hq])), tget_tset_ne _ _ _ _ _ hp]

/-- A table with rising keys put anew entry by entry reads everywhere as the function of what it read. -/
theorem tget_foldl_tset {α : Type} [DecidableEq α] (d : α) (f : α → α) (hd : f d = d) (t u : Tbl α) (n : Nat)
    (h : keysRise t = true) (hu : tget d u n = d) :
    tget d (t.foldl (fun u p => tset d u p.1 (f p.2)) u) n = f (tget d t n) := by
  induction t generalizing u with
  | nil => simp [hu, hd]
  | cons p t ih =>
    obtain ⟨k, v⟩ := p
    obtain ⟨habove, hrise⟩ := (keysRise_cons _ _).mp h
    rw [List.foldl_cons]
    by_cases hk : k = n
    · subst hk
      have hno : hasNoKey t k := fun q hq => Nat.ne_of_gt (habove q hq)
      rw [tget_foldl_tset_of_hasNoKey d f t _ k hno]
      simp [tget]
    · rw [ih _ hrise (by rw [tget_tset_ne _ _ _ _ _ (Ne.symm hk), hu])]
      simp [tget, hk]

/-- What a table reads once the `n` keys from `a` on are set. -/
theorem tget_foldl_range {α : Type} [DecidableEq α] (d : α) (f : Nat → α) (t : Tbl α) (a n x : Nat) :
    tget d ((List.range n).foldl (fun t k => tset d t (a + k) (f k)) t) x =
      if a ≤ x ∧ x < a + n then f (x - a) else tget d t x := by
  induction n with
  | zero => simp
  | succ n ih =>
    rw [List.range_succ, List.foldl_concat, tget_tset, ih]
    by_cases hx : x = a + n
    · subst hx
      simp
    · rw [if_neg hx]
      exact if_congr (by omega) rfl rfl

/-! ### The clock (R12, R362) -/

/-- Where no die has a ring, a CLOCK record only brings the fabric unit's counter up to date. -/
theorem State.clockRecord_of_no_ring (s : State) (h : ∀ d, d < 4 → (s.owl d).trlen = 0) :
    s.clockRecord = { s with f := { s.f with cycles := s.clockRecord.f.cycles }, free := s.clockRecord.free } := by
  have hs : s.clockRecord = { s.draw.2 with f := { s.f with
      cycles := s.f.cycles + BitVec.ofNat 64 (s.draw.1.toNat % 2 ^ 32) } } := by
    unfold State.clockRecord
    refine List.foldlRecOn (motive := fun t => t = _) _ _ rfl ?_
    rintro t rfl d hd
    exact if_pos (beq_iff_eq.mpr (h d (List.mem_range.mp hd)))
  rw [hs]
  rfl

/-- Without a grant no die locks the clock. -/
theorem State.clockTop_of_no_grant (s : State) (h : ∀ d, d < 4 → (s.owl d).grant = 0) : s.clockTop = 3000 := by
  unfold State.clockTop
  rw [List.filterMap_eq_nil_iff.mpr]
  intro d hd
  simp [h d (List.mem_range.mp hd), bitField]

/-- The state with its clock one step down. -/
def State.slowed (s : State) : State := { s with r := { s.r with clock := s.r.clock - 100 } }

theorem exec_powerOverLimit (s : State) (hp : s.r.power = true) (hc : 1600 ≤ s.r.clock) :
    exec .powerOverLimit s = .next s.slowed.clockRecord :=
  congrArg Host.Outcome.next (if_pos (by simp [hp, hc]))

theorem powerOverLimit_idle (s : State) (h : s.r.power = false ∨ s.r.clock < 1600) : exec .powerOverLimit s = .next s := by
  show execPowerOverLimit s = _
  rcases h with hp | hc
  · simp [execPowerOverLimit, hp]
  · simp [execPowerOverLimit, Nat.not_le.mpr hc]

theorem exec_powerUnderLimit (s : State) (hp : s.r.power = true) (h : ∀ d, d < 4 → (s.owl d).grant = 0) :
    exec .powerUnderLimit s =
      .next (if s.r.clock + 100 ≤ 3000 then { s with r := { s.r with clock := s.r.clock + 100 } } else s) := by
  show execPowerUnderLimit s = _
  simp [execPowerUnderLimit, hp, s.clockTop_of_no_grant h]

/-! ### Power-up and power removed (R358, Table 1.4) -/

/-- What a reset leaves of a die's Owl block: its trace ring. -/
def Owl.afterReset (o : Owl) : Owl := { trbase := o.trbase, trlen := o.trlen, trprod := o.trprod, trcons := o.trcons }

/-- The state that a power-up leaves. -/
def State.powered (s : State) : State :=
  { State.reset with
    o := { hostMem := s.o.hostMem, mem := s.o.mem, stamp := s.o.stamp }
    h := { devnum := s.h.devnum }
    f := { ports := s.f.ports.foldl (fun t p => tset {} t p.1 p.2.afterReset) [], cycles := s.f.cycles }
    r := { s.r with power := true, clock := 3000, stage := 0, failed := false }
    w := { lcc := s.w.lcc, cycles := s.w.cycles, owl := s.w.owl.foldl (fun t p => tset {} t p.1 p.2.afterReset) [] }
    turns := s.turns, free := s.free, next := s.next }

theorem exec_powerUp (s : State) : exec .powerUp s = .next s.powered := rfl

theorem State.port_powered (s : State) (h : keysRise s.f.ports = true) (n : Nat) : s.powered.port n = (s.port n).afterReset :=
  tget_foldl_tset ({} : Port) Port.afterReset rfl s.f.ports [] n h rfl

theorem State.owl_powered (s : State) (h : keysRise s.w.owl = true) (d : Nat) : s.powered.owl d = (s.owl d).afterReset :=
  tget_foldl_tset ({} : Owl) Owl.afterReset rfl s.w.owl [] d h rfl

theorem State.powered_restarted (s : State) : Restarted s s.powered s.o.mem s.o.stamp :=
  ⟨⟨rfl, rfl, rfl, rfl, rfl, rfl, rfl⟩, rfl, rfl, rfl, rfl, rfl⟩

/-- The state that remains once power is removed. -/
def State.unpowered (s : State) : State :=
  { State.reset with
    o := { hostMem := s.o.hostMem }
    h := { devnum := s.h.devnum }
    r := { power := false, bankA := s.r.bankA, bankB := s.r.bankB, boots := s.r.boots }
    turns := s.turns, free := s.free, next := s.next }

theorem exec_powerRemoved (s : State) : exec .powerRemoved s = .next s.unpowered := rfl

theorem State.unpowered_restarted (s : State) : Restarted s s.unpowered [] 1 :=
  ⟨⟨rfl, rfl, rfl, rfl, rfl, rfl, rfl⟩, rfl, rfl, rfl, rfl, rfl⟩

/-! ### The boot ROM's choice (R358) -/

/-- The state once the boot ROM has chosen its bank. -/
def State.runBank (s : State) (b : Bool) : State := { s with r := { s.r with runsB := b } }

/-- The pair of a bank verifies, as the boot ROM tests it. -/
theorem pairOk_iff (b : Bank) : Claims.pairOk b ↔ (Config.verifies b.firmware && Config.verifies b.config) = true :=
  (Bool.and_eq_true_iff ..).symm

theorem Hours.pick_eq_some (r : Hours) (b : Bool) (h : Runs_ r b) : r.pick = some b := by
  simp only [Runs_, pairOk_iff, fwOk, Bool.not_eq_true] at h
  simp only [Hours.pick]
  rcases h with ⟨ha, hb, hnewer⟩ | ⟨ha, hb, rfl⟩ | ⟨ha, hb, rfl⟩ | ⟨ha, hb, hfw, rfl⟩ | ⟨ha, hb, hfa, hfb, rfl⟩
  · simp only [ha, hb, gt_iff_lt, ← hnewer, Bool.decide_eq_true]
  · simp only [ha, hb]
  · simp only [ha, hb]
  · rw [ha, hb]
    simp [hfw]
  · rw [ha, hb]
    simp [hfa, hfb]

theorem Hours.pick_eq_none (r : Hours) (ha : ¬ fwOk r.bankA) (hb : ¬ fwOk r.bankB) : r.pick = none := by
  rw [fwOk, Bool.not_eq_true] at ha hb
  simp [Hours.pick, ha, hb]

/-! ### The identity record (R359, Table 22.7) -/

/-- The identity record is device memory: with the boot count, nothing else changes. -/
theorem State.writeIdentity_frame (s : State) :
    ∃ mem, s.writeIdentity = { s with r := { s.r with boots := s.r.boots + 1 }, o := { s.o with mem := mem } } := ⟨_, rfl⟩

theorem State.mem_writeIdentity (s : State) : s.writeIdentity.o.mem =
    (List.range 65536).foldl (fun m k => tset memDefault m (hbmBase 0 + k) (identityAt (s.r.boots + 1) k)) s.o.mem := by
  simp only [State.writeIdentity]

theorem byteOf_writeIdentity (s : State) (a : Nat) :
    byteOf s.writeIdentity (.dev a .wb false) =
      if hbmBase 0 ≤ a ∧ a < hbmBase 0 + 65536 then (identityAt (s.r.boots + 1) (a - hbmBase 0)).toNat
      else byteOf s (.dev a .wb false) := by
  have hbyte (t : State) : byteOf t (.dev a .wb false) = (tget memDefault t.o.mem a).toNat := rfl
  rw [hbyte, hbyte, s.mem_writeIdentity, tget_foldl_range, apply_ite BitVec.toNat]

theorem identityAt_format (boots k : Nat) (h : k < 4) : (identityAt boots k).toNat = if k = 0 then 1 else 0 := by
  simp only [identityAt, if_pos h]
  split <;> rfl

theorem identityAt_boots (boots k : Nat) (h : k < 4) : (identityAt boots (4 + k)).toNat = boots / 2 ^ (8 * k) % 256 := by
  simp [identityAt, show 4 + k < 8 by omega, pow_mul]

/-! ### The stages of bring-up (R357-R360, Table 22.6) -/

/-- The next stage has completed: BOOTSTAGE gives its number, and lanes and teams are as before. -/
def StageCompleted (s t : State) : Prop :=
  t.h.bootstage = BitVec.ofNat 32 (s.r.stage + 1) ∧ t.r.stage = s.r.stage + 1 ∧ t.r.failed = false ∧ t.g = s.g ∧ t.t = s.t

theorem State.stageDone_completed (s : State) (hf : s.r.failed = false) : StageCompleted s (s.stageDone (s.r.stage + 1)) := by
  obtain ⟨mem, hmem⟩ := s.writeIdentity_frame
  unfold State.stageDone
  refine ⟨rfl, rfl, ?_⟩
  split <;> simp [State.draw, hmem, hf]

theorem State.byteOf_stageDone_eleven (s : State) (l : Loc) : byteOf (s.stageDone 11) l = byteOf s.writeIdentity l := by
  obtain ⟨mem, hmem⟩ := s.writeIdentity_frame
  simp only [State.stageDone, hmem]
  cases l <;> rfl

theorem bringUpStage_idle (s : State) (ok : Bool) (reason : Byte)
    (h : s.r.power = false ∨ s.r.failed = true ∨ 12 < s.r.stage + 1) : exec (.bringUpStage ok reason) s = .next s :=
  congrArg Host.Outcome.next (if_pos (by rcases h with h | h | h <;> simp [h]))

section

variable {s : State} (ok : Bool) (reason : Byte) (hp : s.r.power = true) (hf : s.r.failed = false)

include hp hf

/-! ### The outcome of a stage where bring-up goes on -/

theorem exec_bringUpStage_one (h : s.r.stage + 1 = 1) (b : Bool) (hb : s.r.pick = some b) :
    exec (.bringUpStage ok reason) s = .next ((s.runBank b).stageDone (s.r.stage + 1)) := by
  show execBringUpStage ok reason s = _
  simp only [execBringUpStage, hp, hf, h, hb, State.runBank]
  rfl

theorem exec_bringUpStage_one_of_no_bank (h : s.r.stage + 1 = 1) (hb : s.r.pick = none) :
    exec (.bringUpStage ok reason) s = .next (s.stageFails (s.r.stage + 1) reason) := by
  show execBringUpStage ok reason s = _
  simp only [execBringUpStage, hp, hf, h, hb]
  rfl

theorem exec_bringUpStage_two (h : s.r.stage + 1 = 2) : exec (.bringUpStage ok reason) s =
    .next (if Config.verifies s.r.running.config then s.stageDone (s.r.stage + 1) else s.stageFails (s.r.stage + 1) reason) := by
  show execBringUpStage ok reason s = _
  simp only [execBringUpStage, hp, hf, h]
  rfl

theorem exec_bringUpStage_later (h3 : 3 ≤ s.r.stage + 1) (h12 : s.r.stage + 1 ≤ 12) : exec (.bringUpStage ok reason) s =
    .next (if ok || s.r.stage + 1 ≥ 9 then s.stageDone (s.r.stage + 1) else s.stageFails (s.r.stage + 1) reason) := by
  obtain ⟨k, hk⟩ : ∃ k, s.r.stage = k + 2 := ⟨s.r.stage - 2, by omega⟩
  have hgo : ¬ (!s.r.power || s.r.failed || decide (s.r.stage + 1 > 12)) = true := by simpa [hp, hf] using h12
  show execBringUpStage ok reason s = _
  simp only [execBringUpStage, if_neg hgo]
  rw [hk]
  rfl

/-! ### What each stage leaves -/

theorem bringUpStage_runs_bank (h : s.r.stage + 1 = 1) (b : Bool) (hb : Runs_ s.r b) :
    Goes s (.bringUpStage ok reason) (fun t => StageCompleted s t ∧ t.r.runsB = b) :=
  ⟨_, exec_bringUpStage_one ok reason hp hf h b (s.r.pick_eq_some b hb), (s.runBank b).stageDone_completed hf, by rw [h]; rfl⟩

theorem bringUpStage_no_firmware (h : s.r.stage + 1 = 1) (ha : ¬ fwOk s.r.bankA) (hb : ¬ fwOk s.r.bankB) :
    Goes s (.bringUpStage ok reason) (fun t => t = s.stageFails (s.r.stage + 1) reason) :=
  ⟨_, exec_bringUpStage_one_of_no_bank ok reason hp hf h (s.r.pick_eq_none ha hb), rfl⟩

theorem bringUpStage_configures (h : s.r.stage + 1 = 2) (hv : Config.verifies s.r.running.config = true) :
    Goes s (.bringUpStage ok reason) (StageCompleted s) := by
  refine ⟨_, ?_, s.stageDone_completed hf⟩
  rw [exec_bringUpStage_two ok reason hp hf h, if_pos hv]

theorem bringUpStage_no_configuration (h : s.r.stage + 1 = 2) (hv : Config.verifies s.r.running.config = false) :
    Goes s (.bringUpStage ok reason) (fun t => t = s.stageFails (s.r.stage + 1) reason) := by
  refine ⟨_, ?_, rfl⟩
  rw [exec_bringUpStage_two ok reason hp hf h, if_neg (ne_true_of_eq_false hv)]

/-- A later stage that finds nothing wrong, or cannot fail, completes; with what it leaves besides. -/
theorem bringUpStage_completes_with (h3 : 3 ≤ s.r.stage + 1) (h12 : s.r.stage + 1 ≤ 12) (h : ok = true ∨ 9 ≤ s.r.stage + 1)
    {P : State → Prop} (hP : P (s.stageDone (s.r.stage + 1))) :
    Goes s (.bringUpStage ok reason) (fun t => StageCompleted s t ∧ P t) := by
  refine ⟨_, ?_, s.stageDone_completed hf, hP⟩
  rw [exec_bringUpStage_later ok reason hp hf h3 h12, if_pos (by simpa using h)]

theorem bringUpStage_completes (h3 : 3 ≤ s.r.stage + 1) (h12 : s.r.stage + 1 ≤ 12) (h : ok = true ∨ 9 ≤ s.r.stage + 1) :
    Goes s (.bringUpStage ok reason) (StageCompleted s) := by
  obtain ⟨t, hexec, hdone, -⟩ := bringUpStage_completes_with ok reason hp hf h3 h12 h (P := fun _ => True) trivial
  exact ⟨t, hexec, hdone⟩

theorem bringUpStage_fails (h3 : 3 ≤ s.r.stage + 1) (h9 : s.r.stage + 1 < 9) (hok : ok = false) :
    Goes s (.bringUpStage ok reason) (fun t => t = s.stageFails (s.r.stage + 1) reason) := by
  refine ⟨_, ?_, rfl⟩
  rw [exec_bringUpStage_later ok reason hp hf h3 (by omega), if_neg (by simpa [hok] using Nat.lt_of_succ_lt_succ h9)]

theorem bringUpStage_clears_memory (h : s.r.stage + 1 = 9) :
    Goes s (.bringUpStage ok reason) (fun t => StageCompleted s t ∧ t.o.mem = [] ∧ t.r.poison = []) :=
  bringUpStage_completes_with ok reason hp hf (by omega) (by omega) (by omega) (by rw [h]; exact ⟨rfl, rfl⟩)

/-- Stage 11: the boot count rises, and frame 0 of D0 alone is written, with the count in its second word. -/
theorem bringUpStage_writes_identity (h : s.r.stage + 1 = 11) :
    Goes s (.bringUpStage ok reason) (fun t => StageCompleted s t ∧
      t.r.boots = s.r.boots + 1 ∧ t.r.bankA = s.r.bankA ∧ t.r.bankB = s.r.bankB ∧
      (∀ k, k < 4 → byteOf t (.dev (hbmBase 0 + k) .wb false) = if k = 0 then 1 else 0) ∧
      (∀ k, k < 4 → byteOf t (.dev (hbmBase 0 + 4 + k) .wb false) = (s.r.boots + 1) / 2 ^ (8 * k) % 256) ∧
      ∀ a, ¬ (hbmBase 0 ≤ a ∧ a < hbmBase 0 + 65536) → byteOf t (.dev a .wb false) = byteOf s (.dev a .wb false)) := by
  refine bringUpStage_completes_with ok reason hp hf (by omega) (by omega) (by omega) ?_
  obtain ⟨mem, hmem⟩ := s.writeIdentity_frame
  rw [h]
  simp only [State.byteOf_stageDone_eleven, byteOf_writeIdentity]
  refine ⟨?_, ?_, ?_, fun k hk => ?_, fun k hk => ?_, fun a ha => if_neg ha⟩
  · simp [State.stageDone, hmem]
  · simp [State.stageDone, hmem]
  · simp [State.stageDone, hmem]
  · rw [if_pos (by omega), Nat.add_sub_cancel_left, identityAt_format _ _ hk]
  · rw [if_pos (by omega), Nat.add_assoc, Nat.add_sub_cancel_left, identityAt_boots _ _ hk]

theorem bringUpStage_sets_ready (h : s.r.stage + 1 = 12) :
    Goes s (.bringUpStage ok reason) (fun t => StageCompleted s t ∧ t.h.readyBit = true) :=
  bringUpStage_completes_with ok reason hp hf (by omega) (by omega) (by omega) (by rw [h]; rfl)

end

/-! ### Updates (R358) -/

/-- The image that an update puts in a bank. -/
def Bank.update (b : Bank) (version image : Nat) : Bank :=
  if image % 2 = 0 then { b with firmware := image / 2, version := version } else { b with config := image / 2, version := version }

theorem exec_signedUpdate (s : State) (version image : Nat) (hp : s.r.power = true) : exec (.signedUpdate version image) s =
    .next { s with r :=
      let new := (if s.r.runsB then s.r.bankA else s.r.bankB).update version image
      if s.r.runsB then { s.r with bankA := new } else { s.r with bankB := new } } := by
  show execSignedUpdate version image s = _
  cases hb : s.r.runsB <;> simp [execSignedUpdate, Bank.update, hp, hb]

theorem signedUpdate_unpowered (s : State) (version image : Nat) (hp : s.r.power = false) :
    exec (.signedUpdate version image) s = .next s := by
  show execSignedUpdate version image s = _
  simp [execSignedUpdate, hp]

end Sys2Proof.Machine

namespace Sys2Proof.Proofs

open Sys2Proof.Machine Sys2Proof.Claims

theorem powerUp_restarts (s : State) :
    Goes s .powerUp (fun t => Restarted s t s.o.mem s.o.stamp ∧ t.r.power = true ∧ t.r.clock = 3000 ∧ t.r.stage = 0 ∧
      t.r.failed = false ∧ t.r.bankA = s.r.bankA ∧ t.r.bankB = s.r.bankB ∧ t.r.boots = s.r.boots ∧ t.w.lcc = s.w.lcc ∧
      t.w.cycles = s.w.cycles ∧ t.w.cmps = [] ∧ t.w.bins = [] ∧ t.f.cycles = s.f.cycles ∧
      (keysRise s.f.ports = true → ∀ n, t.port n = (s.port n).afterReset) ∧
      (keysRise s.w.owl = true → ∀ d, t.owl d = (s.owl d).afterReset)) :=
  ⟨s.powered, exec_powerUp s, s.powered_restarted, rfl, rfl, rfl, rfl, rfl, rfl, rfl, rfl, rfl, rfl, rfl, rfl,
    s.port_powered, s.owl_powered⟩

/-- Settles O48: each event's next state is computed once; a power-up maps its tables entry by entry, and stages 9 to 12 differ
only in what they leave besides their number. -/
theorem powerAndBringUp : Obligations.PowerAndBringUp := by
  intro s ok reason version image
  refine ⟨fun hp hc h => ⟨_, exec_powerOverLimit s hp hc, s.slowed.clockRecord_of_no_ring h⟩, powerOverLimit_idle s,
    fun hp h hc => ⟨_, (exec_powerUnderLimit s hp h).trans (by rw [if_pos hc]), rfl⟩,
    fun hp h hc => (exec_powerUnderLimit s hp h).trans (by rw [if_neg (by omega)]),
    powerUp_restarts s, ⟨_, exec_powerRemoved s, s.unpowered_restarted, rfl, rfl, rfl⟩,
    bringUpStage_idle s ok reason, fun hp hf h12 => ?_,
    fun hp => ⟨_, exec_signedUpdate s version image hp, rfl, rfl⟩, signedUpdate_unpowered s version image⟩
  refine ⟨fun h => ⟨bringUpStage_runs_bank ok reason hp hf h, bringUpStage_no_firmware ok reason hp hf h⟩,
    fun h => ⟨bringUpStage_configures ok reason hp hf h, bringUpStage_no_configuration ok reason hp hf h⟩,
    fun h3 h9 => ⟨fun hok => ?_, bringUpStage_fails ok reason hp hf h3 h9⟩,
    bringUpStage_clears_memory ok reason hp hf, fun h => ?_,
    bringUpStage_writes_identity ok reason hp hf, bringUpStage_sets_ready ok reason hp hf⟩
  · exact bringUpStage_completes ok reason hp hf h3 h12 (.inl hok)
  · exact bringUpStage_completes ok reason hp hf (by omega) h12 (.inr (by omega))

end Sys2Proof.Proofs
end

section
/-! The epilogue (O41). The statement's tree of ESMX makes the canonical NaN of any NaN operand; R203 takes the FMAX tree, and the
FMAX of numeric version 2 drops a NaN beside a number (Table 2.8; log 34 of the model). A row of −∞ and one NaN tells the two apart. -/

namespace Sys2Proof.Machine

open Sys2Proof.Claims (Goes Columns eReg larger treeOf rowSoftmax)

/-- What an instruction is said to bring holds of the state that it answers. -/
theorem of_goes {s u : State} {i : Instr} {P : State → Prop} (hu : exec i s = .next u) (h : Goes s i P) : P u := by
  obtain ⟨t, ht, hP⟩ := h
  cases hu.symm.trans ht
  exact hP

/-! ### The E-registers after a write of one of them -/

theorem mem_columns_eKey (j : Nat) (hj : j < 128) (d n : BitVec 4) :
    eKey j n.toNat ∈ columns.map (fun i => eKey i d.toNat) ↔ n = d := by
  simp only [columns, eKey, List.mem_map, List.mem_range]
  constructor
  · rintro ⟨i, -, h⟩
    exact BitVec.eq_of_toNat_eq (by omega)
  · rintro rfl
    exact ⟨j, hj, rfl⟩

theorem eReg_setE (s : State) (d n : BitVec 4) (f : Nat → Nat) (j : Nat) (hj : j < 128) :
    eReg (s.setE d.toNat f) j n = if n = d then f j % 2 ^ 32 else eReg s j n := by
  have hkey : 16 * j + n.toNat = eKey j n.toNat := by rw [eKey, Nat.mul_comm]
  have hcol : eKey j n.toNat / 16 = j := by unfold eKey; omega
  simp only [eReg, State.setE, tget_tsetAll, hkey, mem_columns_eKey j hj, hcol]
  split
  · exact BitVec.toNat_ofNat _ _
  · rfl

@[simp] theorem eReg_enext (s : State) (j : Nat) (n : BitVec 4) : eReg s.enext j n = eReg s j n := rfl

theorem er_eq_eReg (s : State) (j : Nat) (n : BitVec 4) : s.er j n = eReg s j n := by
  rw [State.er, State.ereg, eReg, eKey, Nat.mul_comm]

/-! ### ESMX of a row whose FMAX tree gives −∞ (R203) -/

theorem exec_esmx_of_max_negInf (s : State) (d a : BitVec 4)
    (h : eTree (engFMax s.epiKern.nbv true) (columns.map (fun j => s.er j a)) = f32.inf true) :
    exec (.esmx d a) s = .next (s.setE d.toNat (fun _ => 0)).enext := by
  show execEsmx d a s = _
  simp only [execEsmx, h, if_true, State.ecol]

/-! ### The canonical NaN through the arithmetic of the epilogue -/

theorem canon_of_qnan (r : FRes) (h : r.bits = f32.qnan) : canon r = f32.qnan := by
  rw [canon, h, ite_self]

/-- An operation of version 1 with a NaN operand (Table 2.8). -/
theorem canon_finish_of_nan (rm : RMode) (ops : List (FFmt × Nat)) (r : Option Val)
    (h : ops.any (fun o => o.1.isNan o.2) = true) : canon (finish 1 f32 rm ops r) = f32.qnan :=
  canon_of_qnan _ (by simp only [finish, if_pos h]; rfl)

theorem isNan_qnan : f32.isNan f32.qnan = true := by decide

/-- Both versions carry the canonical NaN through a unary function as it is. -/
theorem canon_unary_qnan (nbv : Nat) (k : Val → FRes) : canon (unary nbv f32.qnan k) = f32.qnan := by
  refine canon_of_qnan _ ?_
  have hcarry : carryNan f32 f32 f32.qnan = f32.qnan := by decide
  simp [unary, nanOf, isNan_qnan, hcarry]

/-! ### The statement's softmax of a row -/

theorem treeOf_const (f : Nat → Nat → Nat) (v : Nat) (h : f v v = v) (k i : Nat) : treeOf f (fun _ => v) k i = v := by
  induction k generalizing i with
  | zero => rfl
  | succ k ih => rw [treeOf, ih, ih, h]

theorem treeOf_larger_of_qnan (x : Nat → Nat) (h : x 0 = f32.qnan) (k : Nat) : treeOf larger x k 0 = f32.qnan := by
  induction k with
  | zero => exact h
  | succ k ih =>
    rw [treeOf, Nat.mul_zero, ih, larger, if_pos (.inl isNan_qnan)]
    rfl

/-- A canonical NaN for the largest score makes every exponential, their sum and every quotient one. -/
theorem rowSoftmax_of_max_qnan (nbv : Nat) (x : Nat → Nat) (j : Nat) (h : treeOf larger x 7 0 = f32.qnan) :
    rowSoftmax nbv x j = f32.qnan := by
  have hexp (i : Nat) : canon (fExp2 nbv (canon (fSub 1 f32 .rne (x i) f32.qnan))) = f32.qnan := by
    have hsub : canon (fSub 1 f32 .rne (x i) f32.qnan) = f32.qnan :=
      canon_finish_of_nan _ _ _ (by simp [isNan_qnan])
    rw [hsub]
    exact canon_unary_qnan nbv _
  have hsum : treeOf (fun a b => canon (fAdd 1 f32 .rne a b)) (fun _ => f32.qnan) 7 0 = f32.qnan :=
    treeOf_const _ _ (canon_finish_of_nan _ _ _ (by simp [isNan_qnan])) 7 0
  have hne : f32.qnan ≠ 0xFF800000 := by decide
  simp only [rowSoftmax, h, hexp, hsum, if_neg hne]
  exact canon_finish_of_nan _ _ _ (by simp [isNan_qnan])

/-- Where the FMAX tree drops the NaN of column 0 and gives −∞, the word writes +0 and the stated softmax is a NaN. -/
theorem esmx_not_rowSoftmax (s : State) (nbv : Nat) (d a : BitVec 4) (hnan : eReg s 0 a = f32.qnan)
    (hmax : eTree (engFMax s.epiKern.nbv true) (columns.map (fun j => s.er j a)) = f32.inf true) :
    ¬ Goes s (.esmx d a) (fun t => Columns s t d (rowSoftmax nbv (fun j => eReg s j a))) := by
  intro h
  obtain ⟨-, -, -, hcol⟩ := of_goes (exec_esmx_of_max_negInf s d a hmax) h
  have hstated := hcol 0 (by decide) d
  rw [eReg_enext, eReg_setE s d d _ 0 (by decide), if_pos rfl, if_pos rfl,
    rowSoftmax_of_max_qnan _ _ _ (treeOf_larger_of_qnan (fun j => eReg s j a) hnan 7)] at hstated
  exact absurd hstated (by decide)

/-! ### The row -/

/-- A NaN in column 0, −∞ in the others. -/
def nanScores (j : Nat) : Nat := if j = 0 then f32.qnan else f32.inf true

/-- A drain of a team whose numeric version is 2. -/
def nanDrain : ArrOp := mkOp ⟨1, 0, 0, 0, 0⟩ (.drain 0 .float 0 0) none

/-- The drain's row is in progress, with the scores in e1. -/
def nanRow : State :=
  State.setE { State.reset with e := { State.reset.e with fifo := [(0, some nanDrain)] } } (1 : BitVec 4).toNat nanScores

theorem nanRow_draining : Claims.Draining nanRow nanDrain 0 .float 0 0 := ⟨rfl, rfl, rfl⟩

theorem eReg_nanRow (j : Nat) (hj : j < 128) : eReg nanRow j 1 = nanScores j := by
  have hword : nanScores j < 2 ^ 32 := by unfold nanScores; split <;> decide
  rw [nanRow, eReg_setE _ _ _ _ j hj, if_pos rfl, Nat.mod_eq_of_lt hword]

/-- The FMAX of version 2 takes −∞ beside the NaN (Table 2.8), and so does its tree. -/
theorem fmaxTree_nanScores : eTree (engFMax 2 true) (columns.map nanScores) = f32.inf true := by decide

theorem fmaxTree_nanRow : eTree (engFMax 2 true) (columns.map (fun j => nanRow.er j 1)) = f32.inf true := by
  have hscores : columns.map (fun j => nanRow.er j 1) = columns.map nanScores :=
    List.map_congr_left fun j hj => by rw [er_eq_eReg, eReg_nanRow j (List.mem_range.mp hj)]
  rw [hscores]
  exact fmaxTree_nanScores

end Sys2Proof.Machine

namespace Sys2Proof.Proofs

open Sys2Proof.Machine Sys2Proof.Claims

/-- Refutes O41: on a row of −∞ and one NaN, under numeric version 2, ESMX writes +0 (R203: the FMAX tree gives −∞), where
the statement's tree of the larger gives the canonical NaN. -/
theorem not_epilogueSteps : ¬ Obligations.EpilogueSteps := by
  unfold Obligations.EpilogueSteps Claims.EpilogueWords
  rintro ⟨hwords, -⟩
  obtain ⟨-, -, -, -, -, -, -, -, -, -, hesmx, -⟩ := hwords nanRow nanDrain 0 .float 0 0 0 1 0 0 nanRow_draining
  exact esmx_not_rowSoftmax nanRow _ 0 1 (by rw [eReg_nanRow 0 (by decide), nanScores, if_pos rfl]) fmaxTree_nanRow hesmx

end Sys2Proof.Proofs
end

section
/-! The issue in progress (O57). First what leaves it alone: every operation that a clock of a partition runs before it
begins an issue, and every one that reads a word. One lemma for each operation, in the order of their definitions. -/

namespace Sys2Proof.Machine

open Sys2Proof

/-! ### Folds and choices -/

theorem foldl_iss {α : Type} (f : State → α → State) (h : ∀ s x, (f s x).iss = s.iss) (l : List α) (s : State) :
    (l.foldl f s).iss = s.iss :=
  foldl_keeps (fun t => t.iss = s.iss) f (fun t x ht => (h t x).trans ht) l s rfl

theorem ite_iss (c : Prop) [Decidable c] {a b s : State} (ha : a.iss = s.iss) (hb : b.iss = s.iss) :
    (if c then a else b).iss = s.iss := by
  split
  · exact ha
  · exact hb

/-- What a read that also answers a state leaves of the issue. -/
theorem iss_of_pair {α : Type} {p : α × State} {a : α} {s t : State} (h : p = (a, t)) (hp : p.2.iss = s.iss) :
    t.iss = s.iss := by
  rw [h] at hp
  exact hp

theorem writeBytes_iss (f : State → Nat → Nat → State) (h : ∀ s a v, (f s a v).iss = s.iss) (s : State) (a v n : Nat) :
    (writeBytes f s a v n).iss = s.iss :=
  writeBytes_keeps (fun t => t.iss = s.iss) f (fun t a v ht => (h t a v).trans ht) n s a v rfl

namespace State

/-! ### Keys, free values, events -/

@[simp] theorem fresh_iss (s : State) : s.fresh.2.iss = s.iss := rfl
@[simp] theorem draw_iss (s : State) : s.draw.2.iss = s.iss := rfl
@[simp] theorem sendEvent_iss (s : State) (k : Nat) (c : Word) (p : Nat) (need : List Nat) :
    (s.sendEvent k c p need).iss = s.iss := rfl

/-! ### Rejoin masks, the end of a lane, faults (R120, R123, R350) -/

@[simp] theorem rejoinRelease_iss (s : State) (gk n : Nat) : (s.rejoinRelease gk n).iss = s.iss := by
  unfold rejoinRelease
  refine ite_iss _ ?_ rfl
  exact foldl_iss _ (fun x l => by exact ite_iss _ rfl rfl) _ _

@[simp] theorem rejoinBack_iss (s : State) (lk : Nat) : (s.rejoinBack lk).iss = s.iss := by
  unfold rejoinBack
  split
  · exact rejoinRelease_iss _ _ _
  · exact rejoinRelease_iss _ _ _
  · rfl

@[simp] theorem strikeLanes_iss (s : State) (gk n : Nat) (ls : List Nat) : (s.strikeLanes gk n ls).iss = s.iss :=
  rejoinRelease_iss _ _ _

@[simp] theorem endLane_iss (s : State) (lk : Nat) : (s.endLane lk).iss = s.iss := by
  have struck (x : State) : ((List.range 8).foldl (fun s n => if (s.jmask (gkLane lk) n).getLsbD (lk % 64) then
      s.strikeLanes (gkLane lk) n [lk % 64] else s) x).iss = x.iss :=
    foldl_iss _ (fun x n => ite_iss _ (strikeLanes_iss _ _ _ _) rfl) _ _
  unfold endLane
  exact ite_iss _ (struck _) (struck _)

@[simp] theorem modThread_iss (s : State) (th : Nat) (f : Thread → Thread) : (s.modThread th f).iss = s.iss := by
  unfold modThread
  split <;> rfl

@[simp] theorem closeSide_iss (s : State) (th seq : Nat) (isB : Bool) : (s.closeSide th seq isB).iss = s.iss :=
  modThread_iss _ _ _

@[simp] theorem abandonPair_iss (s : State) (lk : Nat) : (s.abandonPair lk).iss = s.iss := by
  simp [abandonPair]

@[simp] theorem report_iss (s : State) (lk : Nat) (pc : Pc) (f : FaultInfo) (q : Bool) : (s.report lk pc f q).iss = s.iss := by
  unfold report
  exact ite_iss _ rfl rfl

@[simp] theorem countFault_iss (s : State) (lk : Nat) : (s.countFault lk).iss = s.iss := modThread_iss _ _ _

@[simp] theorem park_iss (s : State) (lk : Nat) (pc : Pc) (f : FaultInfo) : (s.park lk pc f).iss = s.iss := by
  have counted (b : Bool) : (if b then s.countFault lk else s).iss = s.iss := ite_iss _ (countFault_iss _ _) rfl
  unfold park
  refine ite_iss _ ?_ (ite_iss _ ?_ ?_)
  · simp [counted]
  · simp [counted]
  · simp [counted]

@[simp] theorem raise_iss (s : State) (lk : Nat) (pc : Pc) (f : FaultInfo) : (s.raise lk pc f).iss = s.iss := by
  unfold raise
  split
  · exact ite_iss _ rfl (park_iss _ _ _ _)
  · exact park_iss _ _ _ _

@[simp] theorem stopSeq_iss (s : State) (tk : Nat) : (s.stopSeq tk).iss = s.iss := rfl

@[simp] theorem raiseSeq_iss (s : State) (tk : Nat) (f : FaultInfo) : (s.raiseSeq tk f).iss = s.iss := by
  unfold raiseSeq
  exact ite_iss _ rfl rfl

@[simp] theorem waitLanes_iss (s : State) (gk : Nat) (ls : List Nat) (w : Wait) : (s.waitLanes gk ls w).iss = s.iss :=
  foldl_iss _ (fun _ _ => by rfl) _ _

/-! ### Device memory and the caches -/

@[simp] theorem devWrite_iss (s : State) (a n v : Nat) : (s.devWrite a n v).iss = s.iss := rfl

@[simp] theorem devWriteAll_iss (s : State) (a n v : Nat) : (s.devWriteAll a n v).iss = s.iss := foldl_iss _ (fun _ _ => by rfl) _ _

@[simp] theorem devPut_iss (s : State) (a n v : Nat) : (s.devPut a n v).iss = s.iss := by
  unfold devPut
  exact ite_iss _ rfl (devWriteAll_iss _ _ _ _)

@[simp] theorem raiseView_iss (s : State) (core a n i : Nat) : (s.raiseView core a n i).iss = s.iss := rfl

@[simp] theorem l1Clean_iss (s : State) (core a : Nat) : (s.l1Clean core a).iss = s.iss := by
  unfold l1Clean
  split
  · rfl
  · refine ite_iss _ rfl (ite_iss _ ?_ rfl)
    exact foldl_iss _ (fun x i => by exact ite_iss _ rfl rfl) _ _

@[simp] theorem l1CleanRange_iss (s : State) (core a n : Nat) : (s.l1CleanRange core a n).iss = s.iss :=
  foldl_iss _ (fun _ _ => l1Clean_iss _ _ _) _ _

@[simp] theorem raiseFloor_iss (s : State) (core : Nat) : (s.raiseFloor core).iss = s.iss := l1CleanRange_iss _ _ _ _

@[simp] theorem l1Stored_iss (s : State) (a n v : Nat) (wb : Bool) : (s.l1Stored a n v wb).iss = s.iss :=
  foldl_iss _ (fun _ _ => by rfl) _ _

@[simp] theorem devLoad_iss (s : State) (a n : Nat) (wb : Bool) : (s.devLoad a n wb).2.iss = s.iss := by
  unfold devLoad
  split
  · rfl
  · refine foldl_keeps (fun x : Nat × State => x.2.iss = s.iss) _ (fun x p hx => ?_) _ _ rfl
    dsimp only
    split <;> exact hx

@[simp] theorem ncRead_iss (s : State) (die a n : Nat) : (s.ncRead die a n).2.iss = s.iss := rfl
@[simp] theorem ncKeep_iss (s : State) (die a : Nat) : (s.ncKeep die a).iss = s.iss := rfl
@[simp] theorem ncWrite_iss (s : State) (die a n v : Nat) : (s.ncWrite die a n v).iss = s.iss := rfl

@[simp] theorem ncClean_iss (s : State) (die a : Nat) (drop : Bool) : (s.ncClean die a drop).iss = s.iss := by
  unfold ncClean
  split
  · rfl
  · extract_lets b put lost
    split
    rename_i all s1 hs
    have h1 : s1.iss = s.iss := by
      split at hs
      · cases hs; rfl
      · cases hs; rfl
    extract_lets s2 s3
    have h2 : s2.iss = s1.iss := foldl_iss _ (fun x i => by exact ite_iss _ rfl rfl) _ _
    have h3 : s3.iss = s2.iss := ite_iss _ (foldl_iss _ (fun _ _ => by rfl) _ _) rfl
    exact h3.trans (h2.trans h1)

@[simp] theorem viewRead_iss (s : State) (core a n pick : Nat) (nc : Bool) : (s.viewRead core a n pick nc).2.iss = s.iss := by
  unfold viewRead
  extract_lets x olds idx
  split
  rename_i v s1 hs
  have h1 : s1.iss = s.iss := by
    split at hs
    · cases hs; rfl
    · split at hs
      · exact iss_of_pair hs (ncRead_iss _ _ _ _)
      · cases hs; rfl
  exact h1

@[simp] theorem l2Wrote_iss (s : State) (die a : Nat) : (s.l2Wrote die a).iss = s.iss := by
  unfold l2Wrote
  dsimp only
  split <;> rfl

@[simp] theorem scrWrite_iss (s : State) (tk o n v : Nat) : (s.scrWrite tk o n v).iss = s.iss := rfl
@[simp] theorem accWrite_iss (s : State) (tk k o n v : Nat) : (s.accWrite tk k o n v).iss = s.iss := rfl

@[simp] theorem setRegByte_iss (s : State) (tk o v : Nat) : (s.setRegByte tk o v).iss = s.iss := by
  unfold setRegByte
  split <;> rfl

@[simp] theorem regWrite_iss (s : State) (tk o v n : Nat) : (s.regWrite tk o v n).iss = s.iss := by
  induction n generalizing s o v with
  | zero => rfl
  | succ n ih => rw [regWrite, ih, setRegByte_iss]

/-! ### Owl (R363, R364) -/

@[simp] theorem setOwl_iss (s : State) (die : Nat) (x : Owl) : (s.setOwl die x).iss = s.iss := rfl
@[simp] theorem putTrace_iss (s : State) (die r : Nat) : (s.putTrace die r).iss = s.iss := rfl

@[simp] theorem traceLost_iss (s : State) (die : Nat) : (s.traceLost die).iss = s.iss := by
  unfold traceLost
  exact ite_iss _ rfl (putTrace_iss _ _ _)

@[simp] theorem trace_iss (s : State) (die r : Nat) : (s.trace die r).iss = s.iss := by
  unfold trace
  exact ite_iss _ rfl (ite_iss _ (traceLost_iss _ _) (traceLost_iss _ _))

@[simp] theorem laneTrace_iss (s : State) (lk : Nat) (pc : Pc) (k st d : Nat) : (s.laneTrace lk pc k st d).iss = s.iss :=
  trace_iss _ _ _
@[simp] theorem seqTrace_iss (s : State) (tk k d : Nat) : (s.seqTrace tk k d).iss = s.iss := trace_iss _ _ _

@[simp] theorem haltLane_iss (s : State) (lk k : Nat) (b : Bool) : (s.haltLane lk k b).iss = s.iss := by
  unfold haltLane
  dsimp only
  split
  · exact laneTrace_iss _ _ _ _ _ _
  · exact laneTrace_iss _ _ _ _ _ _
  · rfl

@[simp] theorem owlHaltLanes_iss (s : State) (gk : Nat) (m : DWord) : (s.owlHaltLanes gk m).iss = s.iss :=
  foldl_iss _ (fun _ _ => by exact ite_iss _ rfl (haltLane_iss _ _ _ _)) _ _

@[simp] theorem owlFree_iss (s : State) (gk : Nat) (m : DWord) (past st : Bool) : (s.owlFree gk m past st).iss = s.iss :=
  foldl_iss _ (fun _ _ => by exact rejoinBack_iss _ _) _ _

@[simp] theorem owlSeqHalt_iss (s : State) (tk : Nat) : (s.owlSeqHalt tk).iss = s.iss := by
  unfold owlSeqHalt
  exact ite_iss _ (seqTrace_iss _ _ _ _) rfl

@[simp] theorem owlSeqFree_iss (s : State) (tk : Nat) (past st : Bool) : (s.owlSeqFree tk past st).iss = s.iss := rfl

@[simp] theorem owlAct_iss (s : State) (tk gk op : Nat) (past : Bool) (m : DWord) :
    (s.owlAct tk gk op past m).2.2.iss = s.iss := by
  unfold owlAct
  dsimp only
  split
  · exact owlHaltLanes_iss _ _ _
  · split
    · exact owlFree_iss _ _ _ _ _
    · rfl
  · split
    · exact owlFree_iss _ _ _ _ _
    · rfl
  · exact owlSeqHalt_iss _ _
  · split <;> rfl
  · split <;> rfl
  · rfl

@[simp] theorem owlDo_iss (s : State) (die tk gk op : Nat) (past : Bool) (m : DWord) :
    (s.owlDo die tk gk op past m).iss = s.iss := owlAct_iss _ _ _ _ _ _

@[simp] theorem owlCommand_iss (s : State) (die : Nat) (c : BitVec 128) : (s.owlCommand die c).iss = s.iss := by
  unfold owlCommand
  dsimp only
  split
  · rfl
  · exact owlDo_iss _ _ _ _ _ _ _

@[simp] theorem lockClock_iss (s : State) (n : Nat) : (s.lockClock n).iss = s.iss := by
  unfold lockClock
  exact ite_iss _ rfl rfl

theorem sendEvents_iss (cs : List Nat) (k p : Nat) (s : State) :
    (cs.foldl (fun (s : State) c => s.sendEvent k (BitVec.ofNat 32 c) p) s).iss = s.iss :=
  foldl_iss _ (fun _ _ => by rfl) _ _

@[simp] theorem writeGrant_iss (s : State) (die : Nat) (d : DWord) : (s.writeGrant die d).iss = s.iss := by
  unfold writeGrant
  extract_lets o n v key s1 gseq s2 ended src payload
  have h1 : s1.iss = s.iss := lockClock_iss _ _
  have h2 : s2.iss = s.iss := (setOwl_iss _ _ _).trans h1
  clear_value s1 s2 v payload
  split
  · exact (setOwl_iss _ _ _).trans h1
  · exact (sendEvents_iss _ _ _ _).trans h2

/-! ### The on-chip map -/

@[simp] theorem writeCore_iss (s : State) (core o n v : Nat) : (s.writeCore core o n v).iss = s.iss := by
  unfold writeCore
  exact ite_iss _ rfl (ite_iss _ rfl (ite_iss _ rfl rfl))

@[simp] theorem writeOwl_iss (s : State) (die o n v : Nat) (hy : Bool) : (s.writeOwl die o n v hy).iss = s.iss := by
  unfold writeOwl
  refine ite_iss _ (ite_iss _ (writeGrant_iss _ _ _) rfl) (ite_iss _ ?_ ?_)
  · exact ite_iss _ (owlCommand_iss _ _ _) rfl
  · exact ite_iss _ rfl (ite_iss _ rfl (ite_iss _ rfl (ite_iss _ rfl rfl)))

theorem fabWrite_iss {s t : State} {o n v : Nat} (h : s.fabWrite o n v = some t) : t.iss = s.iss := by
  unfold fabWrite at h
  dsimp only at h
  split at h
  · cases h; rfl
  · split at h
    · split at h <;> (cases h; rfl)
    · split at h
      · cases h; rfl
      · cases h

theorem ocmWrite_iss {s t : State} {a n v : Nat} {hy : Bool} (h : s.ocmWrite a n v hy = some t) : t.iss = s.iss := by
  unfold ocmWrite at h
  dsimp only at h
  split at h
  · split at h
    · split at h
      · cases h
        refine writeBytes_iss _ (fun x b y => ?_) _ _ _ _
        split <;> rfl
      · cases h
    · split at h
      · cases h
        refine writeBytes_iss _ (fun x b y => ?_) _ _ _ _
        split <;> rfl
      · cases h
    · split at h
      · cases h
        refine writeBytes_iss _ (fun x b y => ?_) _ _ _ _
        split <;> rfl
      · cases h
    · split at h
      · cases h; exact writeCore_iss _ _ _ _ _
      · cases h
    · cases h
  · split at h
    · split at h
      · cases h; exact writeOwl_iss _ _ _ _ _ _
      · cases h
    · split at h
      · exact fabWrite_iss h
      · cases h
    · cases h

@[simp] theorem ocmWrite_getD_iss (s : State) (a n v : Nat) (hy : Bool) : ((s.ocmWrite a n v hy).getD s).iss = s.iss := by
  cases h : s.ocmWrite a n v hy with
  | none => rfl
  | some t => exact ocmWrite_iss h

theorem fabRead_iss {s t : State} {o n v : Nat} (h : s.fabRead o n = some (v, t)) : t.iss = s.iss := by
  unfold fabRead at h
  dsimp only at h
  split at h
  · split at h <;> (cases h; rfl)
  · split at h
    · cases h; rfl
    · split at h
      · cases h; rfl
      · cases h

theorem ocmRead_iss {s t : State} {a n v : Nat} (h : s.ocmRead a n = some (v, t)) : t.iss = s.iss := by
  unfold ocmRead at h
  dsimp only at h
  split at h
  · split at h
    iterate 4
      · split at h
        · cases h; rfl
        · cases h
    · cases h
  · split at h
    · split at h
      · cases h; rfl
      · cases h
    · split at h
      · exact fabRead_iss h
      · cases h
    · cases h

@[simp] theorem ocmRead_getD_iss (s : State) (a n : Nat) : ((s.ocmRead a n).getD (0, s)).2.iss = s.iss := by
  cases h : s.ocmRead a n with
  | none => rfl
  | some r => exact ocmRead_iss (v := r.1) h

@[simp] theorem winRead_iss (s : State) (a n : Nat) : (s.winRead a n).2.iss = s.iss := by
  unfold winRead
  split
  · rfl
  · split
    · exact ocmRead_getD_iss _ _ _
    · rfl

@[simp] theorem winWrite_iss (s : State) (a n v : Nat) (hy : Bool) : (s.winWrite a n v hy).iss = s.iss := by
  unfold winWrite
  exact ite_iss _ rfl (ite_iss _ (ocmWrite_getD_iss _ _ _ _ _) rfl)

/-! ### Reads and writes of a location -/

@[simp] theorem readNow_iss (s : State) (core : Nat) (l : Loc) (n : Nat) : (s.readNow core l n).2.iss = s.iss := by
  unfold readNow
  cases l with
  | dev a pol nc =>
    dsimp only
    split
    · rfl
    · exact devLoad_iss _ _ _ _
  | scr _ _ | reg _ _ | acc _ _ _ | host _ => rfl
  | ocm a => exact ocmRead_getD_iss _ _ _
  | peer d a =>
    dsimp only
    split
    · exact winRead_iss _ _ _
    · rfl

@[simp] theorem writeNow_iss (s : State) (core : Nat) (l : Loc) (n v : Nat) : (s.writeNow core l n v).iss = s.iss := by
  unfold writeNow
  cases l with
  | dev a pol nc => exact ite_iss _ rfl (by simp)
  | scr _ _ | acc _ _ _ | host _ => rfl
  | reg _ _ => exact regWrite_iss _ _ _ _ _
  | ocm a => exact ocmWrite_getD_iss _ _ _ _ _
  | peer d a => exact ite_iss _ (winWrite_iss _ _ _ _ _) rfl

/-! ### Translation (R303-R307) -/

@[simp] theorem fillEntry_iss (s : State) (core : Nat) (x : XEntry) : (s.fillEntry core x).iss = s.iss := rfl
@[simp] theorem dropEntry_iss (s : State) (x : XEntry) : (s.dropEntry x).iss = s.iss := rfl

theorem setAD_iss {s t : State} {x : XEntry} {k : AccKind} (h : s.setAD x k = some t) : t.iss = s.iss := by
  unfold setAD at h
  extract_lets e bits m m' s' at h
  have h' : s'.iss = s.iss := ite_iss _ rfl rfl
  split at h
  · cases h; rfl
  · split at h
    · cases h
    · cases h; exact h'

@[simp] theorem walkFill_iss (s : State) (core ctx obj off : Nat) (k : AccKind) :
    (s.walkFill core ctx obj off k).2.iss = s.iss := by
  unfold walkFill
  split
  · rfl
  · split
    · rfl
    · dsimp only
      split
      next t ht => exact (setAD_iss ht : t.iss = _)
      next => rfl

@[simp] theorem translate_iss (s : State) (core ctx obj off : Nat) (k : AccKind) :
    (s.translate core ctx obj off k).2.iss = s.iss := by
  unfold translate
  split
  · exact walkFill_iss _ _ _ _ _ _
  · split
    · rfl
    · split
      · exact walkFill_iss _ _ _ _ _ _
      · split
        · rename_i h; exact setAD_iss h
        · exact walkFill_iss _ _ _ _ _ _

@[simp] theorem mergeWait_iss (s : State) (core ctx obj page : Nat) (r : WaitReason) (w : Waiter) (k : AccKind) :
    (s.mergeWait core ctx obj page r w k).iss = s.iss := by
  unfold mergeWait
  exact ite_iss _ rfl (ite_iss _ rfl rfl)

@[simp] theorem refuses_iss (s : State) (dev a : Nat) : (s.refuses dev a).2.iss = s.iss := by
  unfold refuses
  split <;> rfl

@[simp] theorem resolve_iss (s : State) (tk core : Nat) (c : Cap) (off n : Nat) (k : AccKind) (caps red : Bool) :
    (s.resolve tk core c off n k caps red).2.iss = s.iss := by
  unfold resolve
  extract_lets t a
  split
  · split <;> rfl
  · rfl
  · rfl
  · split <;> rfl
  · split <;> rfl
  · split
    rename_i r s1 hs
    have h1 : s1.iss = s.iss := iss_of_pair hs (translate_iss _ _ _ _ _ _)
    split
    · exact h1
    · exact h1
    · split
      · exact h1
      · split
        · split
          · exact h1
          · split
            · exact h1
            · split
              · exact h1
              · dsimp only
                split <;> exact (refuses_iss _ _ _).trans h1
        · exact h1

end State
end Sys2Proof.Machine
end

section
/-! The issue in progress (O57). What leaves it alone, continued: accesses that are performed while a parked lane's state is
saved (R49), the checks before an issue, and the counts of a clock. -/

namespace Sys2Proof.Machine.State

open Sys2Proof

/-! ### Accesses performed (R49, R258, R259) -/

@[simp] theorem unpend_iss (s : State) (k : Nat) : (s.unpend k).iss = s.iss := rfl
@[simp] theorem addHist_iss (s : State) (a : Nat) (ids : List Nat) : (s.addHist a ids).iss = s.iss := rfl
@[simp] theorem setRel_iss (s : State) (l : Loc) (n : Nat) (rs : List Release) : (s.setRel l n rs).iss = s.iss := rfl
@[simp] theorem dropCtx_iss (s : State) (ctx : Nat) : (s.dropCtx ctx).iss = s.iss := rfl

@[simp] theorem landed_iss (s : State) (k gk : Nat) : (s.landed k gk).iss = s.iss :=
  foldl_iss _ (fun _ _ => by exact ite_iss _ rfl rfl) _ _

@[simp] theorem lateFault_iss (s : State) (k : Nat) (e : MemEv) (f : FaultInfo) : (s.lateFault k e f).iss = s.iss := by
  unfold lateFault
  extract_lets x
  split
  · exact raiseSeq_iss _ _ _
  · split
    · rfl
    · exact landed_iss _ _ _
    · refine ite_iss _ rfl ((landed_iss _ _ _).trans (foldl_iss _ (fun y m => ?_) _ _))
      exact (raise_iss _ _ _ _).trans (ite_iss _ rfl rfl)

@[simp] theorem atPort_iss (s : State) (k : Nat) (e : MemEv) (acc : AccKind) (caps : Bool) :
    (s.atPort k e acc caps).iss = s.iss := by
  unfold atPort
  extract_lets ctx
  split
  · rfl
  split
  rename_i r s1 hs
  have h1 : s1.iss = s.iss := iss_of_pair hs (resolve_iss _ _ _ _ _ _ _ _ _)
  split
  · split
    · exact (lateFault_iss _ _ _ _).trans h1
    · exact (ite_iss _ (landed_iss _ _ _) rfl).trans h1
  · exact (mergeWait_iss _ _ _ _ _ _ _ _).trans h1
  · exact (lateFault_iss _ _ _ _).trans h1

@[simp] theorem acquireView_iss (s : State) (sc : Scope) (a : Nat) : (s.acquireView sc a).iss = s.iss := by
  have acquired : (s.acquiredAt sc a).iss = s.iss := by
    unfold acquiredAt
    exact ite_iss _ rfl rfl
  unfold acquireView
  exact ite_iss _ rfl ((raiseFloor_iss _ _).trans acquired)

@[simp] theorem fenceDone_iss (s : State) (a : Nat) (sc : Scope) : (s.fenceDone a sc).iss = s.iss := acquireView_iss _ _ _

@[simp] theorem cleanLoc_iss (s : State) (core : Nat) (l : Loc) (n : Nat) (inval : Bool) :
    (s.cleanLoc core l n inval).iss = s.iss := by
  unfold cleanLoc
  split
  next x pol nc =>
    have cleaned : (if nc then s.cleanRange (dieOf core) x n inval else s.l1CleanRange core x n).iss = s.iss :=
      ite_iss _ (foldl_iss _ (fun _ _ => by exact ncClean_iss _ _ _ _) _ _) (l1CleanRange_iss _ _ _ _)
    exact ite_iss _ ((foldl_iss _ (fun _ _ => by rfl) _ _).trans cleaned) cleaned
  next => rfl

@[simp] theorem takeFence_iss (s : State) (a k : Nat) : (s.takeFence a k).2.iss = s.iss := by
  unfold takeFence
  split <;> rfl

@[simp] theorem seen_iss (s : State) (core : Nat) (l : Loc) (n : Nat) : (s.seen core l n).iss = s.iss := by
  unfold seen
  split <;> rfl

@[simp] theorem syncWith_iss (s : State) (sc : Scope) (a : Nat) (l : Loc) (n : Nat) : (s.syncWith sc a l n).iss = s.iss :=
  foldl_iss _ (fun _ _ => by exact ite_iss _ rfl rfl) _ _

theorem lynxCheck_iss {s t : State} {a : Nat} {sc : Scope} {l : Loc} (h : s.lynxCheck a sc l = some t) : t.iss = s.iss := by
  unfold lynxCheck at h
  split at h
  · cases h; rfl
  · extract_lets new rest ok mine at h
    split at h
    · cases h
    · cases h; rfl

@[simp] theorem writeVs_iss (s : State) (gk l n : Nat) (ws : List Word) : (s.writeVs gk l n ws).iss = s.iss := by
  rw [writeVs_frame]
@[simp] theorem writeSs_iss (s : State) (gk n : Nat) (ws : List Word) : (s.writeSs gk n ws).iss = s.iss := by
  rw [writeSs_frame]

@[simp] theorem writeReg_iss (s : State) (e : MemEv) (v : Nat) : (s.writeReg e v).iss = s.iss := by
  unfold writeReg
  split
  · rfl
  · exact writeVs_iss _ _ _ _ _
  · exact writeSs_iss _ _ _ _
  · rfl
  · rfl

@[simp] theorem loadValue_iss (s : State) (a core : Nat) (l : Loc) (n pick : Nat) (nol1 : Bool) :
    (s.loadValue a core l n pick nol1).2.iss = s.iss := by
  unfold loadValue
  extract_lets own
  split
  rename_i v s1 hs
  have h1 : s1.iss = s.iss := by
    split at hs
    · split at hs
      · exact iss_of_pair hs (viewRead_iss _ _ _ _ _ _)
      · exact iss_of_pair hs (readNow_iss _ _ _ _)
    · exact iss_of_pair hs (readNow_iss _ _ _ _)
  exact h1

@[simp] theorem putStore_iss (s : State) (ev a core : Nat) (l : Loc) (n v : Nat) :
    (s.putStore ev a core l n v).iss = s.iss := by
  unfold putStore
  split
  rename_i f s1 hs
  have h1 : s1.iss = s.iss := iss_of_pair hs (takeFence_iss _ _ _)
  split
  · exact h1
  · exact (writeNow_iss _ _ _ _ _).trans h1

@[simp] theorem performStore_iss (s : State) (k : Nat) : (s.performStore k).iss = s.iss := by
  unfold performStore
  split
  next e he =>
    extract_lets core
    refine ite_iss _ rfl ?_
    split
    · exact ite_iss _ (atPort_iss _ _ _ _ _) rfl
    · split
      · split
        · exact ite_iss _ (landed_iss _ _ _) (lateFault_iss _ _ _ _)
        · exact (landed_iss _ _ _).trans (putStore_iss _ _ _ _ _ _ _)
      · refine ite_iss _ rfl ?_
        split
        · exact ite_iss _ rfl (lateFault_iss _ _ _ _)
        · split
          rename_i old s1 h1
          split
          rename_i f s2 h2
          have e1 : s1.iss = s.iss := iss_of_pair h1 (readNow_iss _ _ _ _)
          have e2 : s2.iss = s1.iss := iss_of_pair h2 (takeFence_iss _ _ _)
          exact (seen_iss _ _ _ _).trans ((writeNow_iss _ _ _ _ _).trans (e2.trans e1))
      · rfl
  next => rfl

@[simp] theorem performLoad_iss (s : State) (k pick : Nat) : (s.performLoad k pick).iss = s.iss := by
  unfold performLoad
  split
  next e he =>
    refine ite_iss _ rfl ?_
    split
    · exact atPort_iss _ _ _ _ _
    · split
      · exact lateFault_iss _ _ _ _
      · split
        rename_i v s1 h1
        have e1 : s1.iss = s.iss := iss_of_pair h1 (loadValue_iss _ _ _ _ _ _ _)
        split
        · exact (lateFault_iss _ _ _ _).trans e1
        · exact (landed_iss _ _ _).trans ((writeReg_iss _ _ _).trans e1)
  next => rfl

end Sys2Proof.Machine.State
end

section
/-! The issue in progress (O57). What leaves it alone, concluded: what a parked lane's accesses do once they are performed, the words
read for an issue, and the start of a clock. -/

namespace Sys2Proof.Machine.State

open Sys2Proof

@[simp] theorem performSync_iss (s : State) (k : Nat) (e : MemEv) : (s.performSync k e).iss = s.iss := by
  unfold performSync
  extract_lets a core joined
  split
  · rfl
  split
  · exact lateFault_iss _ _ _ _
  refine ite_iss _ rfl ?_
  split
  · exact lateFault_iss _ _ _ _
  next s0 h0 =>
    have e0 : s0.iss = s.iss := by
      split at h0
      · exact lynxCheck_iss h0
      · cases h0; rfl
    split
    rename_i old s1 h1
    have e1 : s1.iss = s.iss := (iss_of_pair h1 (readNow_iss _ _ _ _)).trans e0
    extract_lets s2 own write
    have e2 : s2.iss = s.iss := by
      unfold s2
      split
      · exact (acquireView_iss _ _ _).trans ((syncWith_iss _ _ _ _ _).trans e1)
      · exact e1
    have written (x : State) (v : Nat) : (write x v).iss = x.iss := by
      unfold write
      split
      rename_i f y hy
      exact (writeNow_iss _ _ _ _ _).trans (iss_of_pair hy (takeFence_iss _ _ _))
    clear_value s2 write
    split
    · exact (landed_iss _ _ _).trans ((writeReg_iss _ _ _).trans ((seen_iss _ _ _ _).trans e2))
    · exact (landed_iss _ _ _).trans ((seen_iss _ _ _ _).trans ((written _ _).trans e2))
    · extract_lets n s3 ret
      have e3 : s3.iss = s.iss := by
        unfold s3
        refine (seen_iss _ _ _ _).trans ?_
        split
        · exact (written _ _).trans e2
        · exact e2
      exact (landed_iss _ _ _).trans ((writeReg_iss _ _ _).trans e3)
    · exact e2

@[simp] theorem performAtomic_iss (s : State) (k : Nat) : (s.performAtomic k).iss = s.iss := by
  unfold performAtomic
  split
  · rfl
  next e he =>
    extract_lets a core relOk
    split
    · rfl
    split
    · split
      · rfl
      · exact atPort_iss _ _ _ _ _
    split
    · exact fenceDone_iss _ _ _
    · split
      · split <;> rfl
      · split
        · rfl
        · exact fenceDone_iss _ _ _
    · split
      · rfl
      · exact (landed_iss _ _ _).trans (cleanLoc_iss _ _ _ _ _)
    · exact performStore_iss _ _
    · split
      · rfl
      · exact performSync_iss _ _ _
    · split
      · rfl
      · exact performSync_iss _ _ _
    · exact performSync_iss _ _ _

@[simp] theorem settle_iss (s : State) (lk : Nat) : (s.settle lk).iss = s.iss := by
  unfold settle
  split
  · refine foldl_iss _ (fun x p => ?_) _ _
    split
    · rfl
    · exact (performAtomic_iss _ _).trans ((performLoad_iss _ _ _).trans (performStore_iss _ _))
  · rfl

@[simp] theorem settleAll_iss (s : State) (gk : Nat) (ls : List Nat) : (s.settleAll gk ls).iss = s.iss :=
  foldl_iss _ (fun _ _ => by exact settle_iss _ _) _ _

/-! ### Words read, and the checks before an issue (R62, R131) -/

@[simp] theorem codeWord_iss (s : State) (gk : Nat) (p : Pc) : (s.codeWord gk p).2.iss = s.iss := by
  unfold codeWord
  extract_lets k core view
  split
  rename_i r s1 h1
  have e1 : s1.iss = s.iss := iss_of_pair h1 (translate_iss _ _ _ _ _ _)
  split
  · split
    · exact (readNow_iss _ _ _ _).trans e1
    · exact e1
  · exact (readNow_iss _ _ _ _).trans e1
  · exact e1

@[simp] theorem readWord_iss (s : State) (gk : Nat) (p : Pc) : (s.readWord gk p).2.iss = s.iss := by
  unfold readWord
  split
  next h1 => exact iss_of_pair h1 (codeWord_iss _ _ _)
  next h1 =>
    have e1 := iss_of_pair h1 (codeWord_iss _ _ _)
    split
    · split
      next h2 => exact (iss_of_pair h2 (codeWord_iss _ _ _)).trans e1
      next h2 => exact (iss_of_pair h2 (codeWord_iss _ _ _)).trans e1
    · exact e1

@[simp] theorem chainGo_iss (s : State) (gk : Nat) (p : Pc) (acc : List CWord) (majs : List Nat) (start n : Nat) :
    (s.chainGo gk p acc majs start n).2.iss = s.iss := by
  induction n generalizing s p acc majs with
  | zero => rfl
  | succ n ih =>
    unfold chainGo
    split
    next h1 => exact iss_of_pair h1 (readWord_iss _ _ _)
    next h1 => exact iss_of_pair h1 (readWord_iss _ _ _)
    next h1 =>
      have e1 := iss_of_pair h1 (readWord_iss _ _ _)
      extract_lets acc' majs'
      split
      · exact e1
      · split
        · exact e1
        · exact (ih _ _ _ _).trans e1

@[simp] theorem chainAt_iss (s : State) (gk : Nat) (p : Pc) : (s.chainAt gk p).2.iss = s.iss := by
  unfold chainAt
  extract_lets k
  split
  · rfl
  · split
    next h1 => exact iss_of_pair h1 (chainGo_iss _ _ _ _ _ _ _)
    next h1 => exact iss_of_pair h1 (chainGo_iss _ _ _ _ _ _ _)

@[simp] theorem breakLane_iss (s : State) (lk : Nat) (pc : Pc) : (s.breakLane lk pc).iss = s.iss := by
  unfold breakLane
  extract_lets gk g
  split
  · exact laneTrace_iss _ _ _ _ _ _
  · exact park_iss _ _ _ _

@[simp] theorem skipLiteral_iss (s : State) (gk : Nat) (p : Pc) (ls : List Nat) : (s.skipLiteral gk p ls).iss = s.iss := by
  unfold skipLiteral
  split
  · exact ite_iss _ (foldl_iss _ (fun _ _ => by rfl) _ _) rfl
  · rfl

@[simp] theorem stopAtBreaks_iss (s : State) (gk : Nat) (p : Pc) (ws : List CWord) (ls : List Nat) :
    (s.stopAtBreaks gk p ws ls).2.iss = s.iss := by
  unfold stopAtBreaks
  split
  · rfl
  · exact (skipLiteral_iss _ _ _ _).trans (foldl_iss _ (fun _ _ => by exact breakLane_iss _ _ _) _ _)

@[simp] theorem fetchMiss_iss (s : State) (gk : Nat) (p : Pc) (ls : List Nat) (r : TRes) :
    (s.fetchMiss gk p ls r).iss = s.iss := by
  unfold fetchMiss
  extract_lets k page
  split
  · exact (waitLanes_iss _ _ _ _).trans (mergeWait_iss _ _ _ _ _ _ _ _)
  · exact foldl_iss _ (fun _ _ => by exact raise_iss _ _ _ _) _ _

/-! ### The start of a clock (R218-R221, R277) -/

@[simp] theorem freshView_iss (s : State) (gk : Nat) : (s.freshView gk).iss = s.iss := by
  unfold freshView
  exact ite_iss _ rfl rfl

@[simp] theorem wakeGroup_iss (s : State) (gk : Nat) : (s.wakeGroup gk).iss = s.iss :=
  (foldl_iss _ (fun _ _ => by rfl) _ _).trans (foldl_iss _ (fun _ _ => by rfl) _ _)

@[simp] theorem forceAll_iss (s : State) (gk : Nat) : (s.forceAll gk).iss = s.iss := by
  refine foldl_iss _ (fun x f => ?_) _ _
  unfold forcePc
  exact ite_iss _ rfl rfl

@[simp] theorem enterActive_iss (s : State) (core part gk : Nat) : (s.enterActive core part gk).iss = s.iss := by
  unfold enterActive
  extract_lets act s1
  have e1 : s1.iss = s.iss := by
    unfold s1
    split
    · rfl
    · split <;> rfl
  exact e1

@[simp] theorem pickCurrent_iss (s : State) (core : Nat) : (s.pickCurrent core).iss = s.iss := by
  unfold pickCurrent
  split
  · rfl
  · extract_lets gs order
    clear_value order
    split
    · exact ite_iss _ rfl (enterActive_iss _ _ _ _)
    · rfl

@[simp] theorem replaceActive_iss (s : State) (gk : Nat) : (s.replaceActive gk).iss = s.iss := by
  unfold replaceActive
  exact ite_iss _ (enterActive_iss _ _ _ _) rfl

@[simp] theorem updateActive_iss (s : State) (core part : Nat) : (s.updateActive core part).iss = s.iss := by
  unfold updateActive
  extract_lets s1 out s2
  have e1 : s1.iss = s.iss := by
    refine foldl_iss _ (fun x gk => ?_) _ _
    unfold idleLeave
    exact ite_iss _ rfl rfl
  have e2 : s2.iss = s1.iss := by
    unfold s2
    split
    · rfl
    · split
      · exact enterActive_iss _ _ _ _
      · rfl
  exact (foldl_iss _ (fun _ _ => by exact replaceActive_iss _ _) _ _).trans (e2.trans e1)

@[simp] theorem clockStart_iss (s : State) (core part : Nat) : (s.clockStart core part).iss = s.iss := by
  unfold clockStart
  extract_lets s1 s2 s3
  have e1 : s1.iss = s.iss := foldl_iss _ (fun _ _ => by exact freshView_iss _ _) _ _
  have e2 : s2.iss = s1.iss := foldl_iss _ (fun _ _ => by exact wakeGroup_iss _ _) _ _
  have e3 : s3.iss = s2.iss := foldl_iss _ (fun _ _ => by exact forceAll_iss _ _) _ _
  exact (updateActive_iss _ _ _).trans ((pickCurrent_iss _ _).trans (e3.trans (e2.trans e1)))

/-! ### The counts of a clock (R124, R277, R368) -/

@[simp] theorem addLcc_iss (s : State) (core b k n : Nat) : (s.addLcc core b k n).iss = s.iss := rfl

@[simp] theorem tickGroup_iss (s : State) (lead full : Bool) (gk : Nat) (at_ : Option Nat) (ls : List Nat) :
    (s.tickGroup lead full gk at_ ls).iss = s.iss := by
  have fair : (s.countFair gk at_).iss = s.iss := by
    unfold countFair
    split <;> rfl
  unfold tickGroup
  extract_lets ready waiting s1 s2 s3
  have e2 : s2.iss = s1.iss := foldl_iss _ (fun _ _ => by exact modLane_iss _ _ _) _ _
  have e3 : s3.iss = s2.iss := foldl_iss _ (fun _ _ => by exact modLane_iss _ _ _) _ _
  exact (modGroup_iss _ _ _).trans (e3.trans (e2.trans fair))

@[simp] theorem tick_iss (s : State) (core part k : Nat) (issued : List (Nat × List Nat)) :
    (s.tick core part k issued).iss = s.iss := by
  unfold tick
  refine foldl_iss _ (fun x gk => ?_) _ _
  dsimp only
  split <;> exact tickGroup_iss _ _ _ _ _ _

@[simp] theorem idleClock_iss (s : State) (core part : Nat) : (s.idleClock core part).iss = s.iss := tick_iss _ _ _ _ _

end Sys2Proof.Machine.State
end

section
/-! The lanes of an issue stay in ascending order (O57, R47): an issue takes its lanes from the ready lanes of a group, which
stand in the order of their positions, and each of its words may only drop some of them. -/

namespace Sys2Proof.Machine

open Sys2Proof

/-! ### Where the lanes of an issue come from (R218) -/

theorem State.lanesOf_ordered (s : State) (gk : Nat) : (s.lanesOf gk).Pairwise (· < ·) := List.pairwise_lt_range

theorem State.standing_ordered (s : State) (gk : Nat) : (s.standing gk).Pairwise (· < ·) :=
  (s.lanesOf_ordered gk).filter _

/-- Every list of lanes that the issue former offers is a part of the standing lanes. -/
theorem State.readyAt_sublist (s : State) (gk : Nat) : ∀ p ∈ s.readyAt gk, p.2.Sublist (s.standing gk) := by
  intro p hp
  unfold State.readyAt at hp
  split at hp
  · cases hp
  extract_lets ls pcs shapes at_ lane alone solo plain conv join at hp
  have hat (k : Nat) : (at_ k).Sublist ls := List.filter_sublist
  replace hp := (List.mem_filter.mp hp).1
  rcases List.mem_append.mp hp with hp | hp
  · rcases List.mem_append.mp hp with hp | hp
    · obtain ⟨q, -, rfl⟩ := List.mem_map.mp hp
      exact List.filter_sublist.trans (hat q.1)
    · obtain ⟨q, -, rfl⟩ := List.mem_map.mp hp
      exact List.filter_sublist.trans (hat q.1)
  · unfold join at hp
    clear_value conv
    split at hp
    · cases hp
    · split at hp
      next q _ _ =>
        split at hp
        · obtain rfl := List.mem_singleton.mp hp
          exact hat q.1
        · cases hp
      next => cases hp

/-- The lanes that an issue finds at a PC. -/
theorem State.readyLanes_ordered (s : State) (gk : Nat) (p : Nat × List Nat → Bool) :
    (match (s.readyAt gk).find? p with | some q => q.2 | none => []).Pairwise (· < ·) := by
  split
  next q hq => exact (s.standing_ordered gk).sublist (s.readyAt_sublist gk q (List.mem_of_find?_eq_some hq))
  next => exact List.Pairwise.nil

/-- Breakpoints take lanes out (R130). -/
theorem State.stopAtBreaks_sublist (s : State) (gk : Nat) (p : Pc) (ws : List CWord) (ls : List Nat) :
    (s.stopAtBreaks gk p ws ls).1.Sublist ls := by
  unfold State.stopAtBreaks
  split
  · exact List.Sublist.refl _
  · exact List.filter_sublist

/-- The lanes that run a word are some of those in issue (R62, R185). -/
theorem State.gate_sublist (s : State) (i : Instr) : (s.gate i).iss.lanes.Sublist s.iss.lanes :=
  List.filter_sublist.trans (List.filter_sublist.trans List.filter_sublist)

/-! ### What keeps the order -/

theorem issueOrdered_of_iss {s t : State} (h : t.iss = s.iss) (hs : IssueOrdered s) : IssueOrdered t := by
  unfold IssueOrdered
  rw [h]
  exact hs

theorem issueOrdered_of_words {s : State} (h : s.iss.words = 0) : IssueOrdered s := fun hw => absurd h hw

theorem State.beginIssue_ordered (s : State) (gk k : Nat) (hs : IssueOrdered s) : IssueOrdered (s.beginIssue gk k) := by
  unfold State.beginIssue
  extract_lets g p lanes again
  have hlanes : lanes.Pairwise (· < ·) := s.readyLanes_ordered gk _
  split
  next r s1 h1 =>
    have e1 : s1.iss = s.iss := iss_of_pair h1 (State.chainAt_iss _ _ _)
    exact issueOrdered_of_iss ((State.idleClock_iss _ _ _).trans ((State.fetchMiss_iss _ _ _ _ _).trans e1)) hs
  next slot f s1 h1 =>
    have e1 : s1.iss = s.iss := iss_of_pair h1 (State.chainAt_iss _ _ _)
    extract_lets s2
    have e2 : s2.iss = s.iss := (State.skipLiteral_iss _ _ _ _).trans e1
    exact issueOrdered_of_iss ((State.idleClock_iss _ _ _).trans ((State.settleAll_iss _ _ _).trans
      ((foldl_iss _ (fun _ _ => by exact State.raise_iss _ _ _ _) _ _).trans e2))) hs
  next ws majs s1 h1 =>
    have e1 : s1.iss = s.iss := iss_of_pair h1 (State.chainAt_iss _ _ _)
    extract_lets fill
    split
    next s2 h2 =>
      have e2 : s2.iss = s.iss := (iss_of_pair h2 (State.stopAtBreaks_iss _ _ _ _ _)).trans e1
      exact issueOrdered_of_iss ((State.idleClock_iss _ _ _).trans ((State.settleAll_iss _ _ _).trans e2)) hs
    next go s2 _ h2 =>
      intro _
      have hgo : go.Sublist lanes := by
        rw [← show (s1.stopAtBreaks gk p ws lanes).1 = go by rw [h2]]
        exact State.stopAtBreaks_sublist _ _ _ _ _
      exact hlanes.sublist hgo

theorem State.nextFill_ordered (s : State) : IssueOrdered s.nextFill := by
  unfold State.nextFill
  split
  · exact issueOrdered_of_words rfl
  next gk gs _ =>
    extract_lets p lanes
    have hlanes : lanes.Pairwise (· < ·) := s.readyLanes_ordered gk _
    split
    next ws majs s1 _ =>
      intro _
      exact hlanes.sublist (State.stopAtBreaks_sublist _ _ _ _ _)
    next => exact issueOrdered_of_words rfl

theorem State.clock_ordered (s : State) (core part : Nat) (hs : IssueOrdered s) : IssueOrdered (s.clock core part) := by
  have hstart : IssueOrdered (s.clockStart core part) := issueOrdered_of_iss (State.clockStart_iss _ _ _) hs
  unfold State.clock
  extract_lets s1
  split
  · exact issueOrdered_of_iss (State.idleClock_iss _ _ _) hstart
  · exact State.beginIssue_ordered _ _ _ hstart

/-- After a word the issue goes on with the lanes that it had, or begins with those of the next group, or is over. -/
theorem State.afterWord_ordered (s0 s : State) (i : Instr) (h : s0.iss.lanes.Pairwise (· < ·)) :
    IssueOrdered (s0.afterWord s i) := by
  unfold State.afterWord
  split
  next hw => exact issueOrdered_of_words hw
  · extract_lets s1
    split
    · exact State.nextFill_ordered _
    · exact fun _ => h

/-! ### The parts of a step -/

theorem State.runInstr_ordered {s t : State} {i : Instr} (h : s.iss.lanes.Pairwise (· < ·)) (ht : s.runInstr i = .next t) :
    IssueOrdered t := by
  have hgate := h.sublist (s.gate_sublist i)
  unfold State.runInstr at ht
  extract_lets s0 at ht
  split at ht
  · cases ht
    exact State.afterWord_ordered _ _ _ hgate
  · split at ht
    · cases ht
      exact State.afterWord_ordered _ _ _ hgate
    next hne => exact absurd ht (hne t)

theorem State.runWord_ordered {s t : State} (h : s.iss.lanes.Pairwise (· < ·)) (ht : s.runWord = .next t) : IssueOrdered t := by
  unfold State.runWord at ht
  split at ht
  next s1 h1 =>
    have e1 : s1.iss = s.iss := iss_of_pair h1 (State.readWord_iss _ _ _)
    exact State.runInstr_ordered (by rw [e1]; exact h) ht
  next =>
    cases ht
    exact State.nextFill_ordered _

/-- Between issues no word of an issue is left. -/
theorem noIssue_ordered {o : Out} {t : State} (h : noIssue o = .next t) : IssueOrdered t := by
  cases o with
  | next s => cases h; exact issueOrdered_of_words rfl
  | fault f => cases h
  | refused r => cases h

theorem exec_ageLimitExpiry (gk : Nat) (s : State) : exec (.ageLimitExpiry gk) s = execAgeLimitExpiry gk s := rfl

theorem eq_ageLimitExpiry_of_startsIssue {i : Instr} (h : startsIssue i = true) : ∃ gk, i = .ageLimitExpiry gk := by
  unfold startsIssue at h
  split at h
  next gk => exact ⟨gk, rfl⟩
  next => cases h

theorem execAgeLimitExpiry_ordered {s t : State} {gk : Nat} (hs : IssueOrdered s)
    (h : execAgeLimitExpiry gk s = .next t) : IssueOrdered t := by
  unfold execAgeLimitExpiry at h
  cases h
  split
  · split
    · exact State.beginIssue_ordered _ _ _ (issueOrdered_of_iss (State.clockStart_iss _ _ _) hs)
    · exact hs
  · exact hs

theorem State.runTurn_ordered {s t : State} {x : Turn} (hs : IssueOrdered s) (h : s.runTurn x = .next t) : IssueOrdered t := by
  cases x with
  | clock core part =>
    cases h
    split
    · exact State.clock_ordered _ _ _ hs
    · exact hs
  | mword tk => exact noIssue_ordered h
  | unit i =>
    dsimp only [State.runTurn] at h
    split at h
    · cases h
    · split at h
      next hi =>
        obtain ⟨gk, rfl⟩ := eq_ageLimitExpiry_of_startsIssue hi
        rw [exec_ageLimitExpiry] at h
        exact execAgeLimitExpiry_ordered hs h
      next => exact noIssue_ordered h

theorem State.firstTurn_ordered {s t : State} {ts : List Turn} (hs : IssueOrdered s) (h : s.firstTurn ts = some t) :
    IssueOrdered t := by
  induction ts with
  | nil => cases h
  | cons x ts ih =>
    unfold State.firstTurn at h
    split at h
    next u hu =>
      split at h
      · exact ih h
      · cases h
        exact State.runTurn_ordered hs hu
    next => exact ih h

theorem State.ownTurn_ordered {s : State} (hs : IssueOrdered s) : IssueOrdered s.ownTurn := by
  unfold State.ownTurn
  split
  next t ht => exact State.firstTurn_ordered hs ht
  next =>
    extract_lets p
    split
    · exact State.clock_ordered _ _ _ hs
    · exact hs

theorem State.nextTurn_ordered {s t : State} (hs : IssueOrdered s) (h : s.nextTurn = .next t) : IssueOrdered t := by
  unfold State.nextTurn at h
  split at h
  · cases h
    exact State.ownTurn_ordered hs
  next x ts _ =>
    have htaken : IssueOrdered { s with turns := ts } := hs
    exact State.runTurn_ordered htaken h

theorem State.runEWord_ordered {s t : State} {w : Word} (hs : IssueOrdered s) (h : s.runEWord w = .next t) : IssueOrdered t := by
  unfold State.runEWord at h
  split at h
  · exact noIssue_ordered h
  · cases h
    exact hs

end Sys2Proof.Machine

namespace Sys2Proof.Proofs

open Sys2Proof.Machine

/-- Settles O57, by the parts of a step: a word that is run, the next group of an issue, an E-word, a turn. -/
theorem issuesStayOrdered : Obligations.IssuesStayOrdered := by
  unfold Obligations.IssuesStayOrdered
  intro s t hs h
  unfold step State.nextStep at h
  split at h
  next hw => exact State.runWord_ordered (hs hw) h
  · split at h
    · cases h
      exact State.nextFill_ordered _
    · split at h
      · exact State.runEWord_ordered hs h
      · exact State.nextTurn_ordered hs h

end Sys2Proof.Proofs
end

section
/-! Every lane word but MOVL is read as the instruction that it encodes (O60, R54-R58): the number of a packed word is the sum of
its fields, and the decoder takes the same fields apart. -/

namespace Sys2Proof
open Claims

/-! ### The fields of a word that was packed from them (Table 3.2) -/

/-- The sum of fields that stand each at its lowest bit. -/
def placed (x : Nat) (fs : List (Nat × Nat)) : Nat := fs.foldl (fun n f => n + f.1 * 2 ^ f.2) x

@[simp] theorem placed_nil (x : Nat) : placed x [] = x := by rw [placed, List.foldl_nil]
@[simp] theorem placed_cons (x : Nat) (f : Nat × Nat) (fs : List (Nat × Nat)) :
    placed x (f :: fs) = placed (x + f.1 * 2 ^ f.2) fs := by
  rw [placed, List.foldl_cons, placed]

theorem toNat_pack {c base : Nat} {fs : List (Nat × Nat)} (h : placed (c * 2 ^ 31 + base) fs < 2 ^ 32) :
    (pack c base fs).toNat = placed (c * 2 ^ 31 + base) fs := by
  show (BitVec.ofNat 32 (placed (c * 2 ^ 31 + base) fs)).toNat = _
  rw [BitVec.toNat_ofNat, Nat.mod_eq_of_lt h]

theorem ofNat_eq_of_mod {n k : Nat} {x : BitVec k} (h : n % 2 ^ k = x.toNat) : BitVec.ofNat k n = x :=
  BitVec.eq_of_toNat_eq (by rw [BitVec.toNat_ofNat]; exact h)

/-- A lane word's number from its chain bit, its major opcode and the 25 bits of its other fields. -/
def laneWord (c : Bool) (maj low : Nat) : Nat := c.toNat * 2 ^ 31 + maj * 2 ^ 25 + low

theorem high_laneWord (c : Bool) (maj low : Nat) (hmaj : maj < 64) (hlow : low < 2 ^ 25) :
    (laneWord c maj low / 2 ^ 31 % 2 == 1) = c ∧ laneWord c maj low / 2 ^ 25 % 64 = maj ∧ laneWord c maj low % 2 ^ 25 = low := by
  unfold laneWord
  cases c
  · rw [Bool.toNat_false, show (0 * 2 ^ 31 + maj * 2 ^ 25 + low) / 2 ^ 31 % 2 = 0 by omega]
    exact ⟨rfl, by omega, by omega⟩
  · rw [Bool.toNat_true, show (1 * 2 ^ 31 + maj * 2 ^ 25 + low) / 2 ^ 31 % 2 = 1 by omega]
    exact ⟨rfl, by omega, by omega⟩

section
variable (c : Bool) (maj : Nat) (hmaj : maj < 64)
include hmaj

/-- Formats with D, A, B and MIN. -/
theorem fieldsOf_dab (d a b : Opc) (m : Nat) (hm : m < 16) :
    let n := laneWord c maj (d.toNat * 2 ^ 18 + a.toNat * 2 ^ 11 + b.toNat * 2 ^ 4 + m)
    fieldsOf n = { fieldsOf n with c := c, maj := maj, d := d, a := a, b := b, min := m } := by
  intro n
  have hd := d.isLt
  have ha := a.isLt
  have hb := b.isLt
  obtain ⟨hc, hM, hlow⟩ : (n / 2 ^ 31 % 2 == 1) = c ∧ n / 2 ^ 25 % 64 = maj ∧ n % 2 ^ 25 = _ := high_laneWord c maj _ hmaj (by omega)
  have h1 : BitVec.ofNat 7 (n / 2 ^ 18) = d := ofNat_eq_of_mod (by omega)
  have h2 : BitVec.ofNat 7 (n / 2 ^ 11) = a := ofNat_eq_of_mod (by omega)
  have h3 : BitVec.ofNat 7 (n / 2 ^ 4) = b := ofNat_eq_of_mod (by omega)
  have h4 : n % 16 = m := by omega
  simp only [fieldsOf, hc, hM, h1, h2, h3, h4]

/-- Formats with D, A and IMM11. -/
theorem fieldsOf_imm (d a : Opc) (x : BitVec 11) :
    let n := laneWord c maj (d.toNat * 2 ^ 18 + a.toNat * 2 ^ 11 + x.toNat)
    fieldsOf n = { fieldsOf n with c := c, maj := maj, d := d, a := a, imm := x } := by
  intro n
  have hd := d.isLt
  have ha := a.isLt
  have hx := x.isLt
  obtain ⟨hc, hM, hlow⟩ : (n / 2 ^ 31 % 2 == 1) = c ∧ n / 2 ^ 25 % 64 = maj ∧ n % 2 ^ 25 = _ := high_laneWord c maj _ hmaj (by omega)
  have h1 : BitVec.ofNat 7 (n / 2 ^ 18) = d := ofNat_eq_of_mod (by omega)
  have h2 : BitVec.ofNat 7 (n / 2 ^ 11) = a := ofNat_eq_of_mod (by omega)
  have h3 : BitVec.ofNat 11 n = x := ofNat_eq_of_mod (by omega)
  simp only [fieldsOf, hc, hM, h1, h2, h3]

/-- Formats with D, A, a capability register, LOOK and MIN. -/
theorem fieldsOf_look (d a : Opc) (k : BitVec 3) (l : BitVec 4) (m : Nat) (hm : m < 16) :
    let n := laneWord c maj (d.toNat * 2 ^ 18 + a.toNat * 2 ^ 11 + k.toNat * 2 ^ 8 + l.toNat * 2 ^ 4 + m)
    fieldsOf n = { fieldsOf n with c := c, maj := maj, d := d, a := a, cap := k, look := l, min := m } := by
  intro n
  have hd := d.isLt
  have ha := a.isLt
  have hk := k.isLt
  have hl := l.isLt
  obtain ⟨hc, hM, hlow⟩ : (n / 2 ^ 31 % 2 == 1) = c ∧ n / 2 ^ 25 % 64 = maj ∧ n % 2 ^ 25 = _ := high_laneWord c maj _ hmaj (by omega)
  have h1 : BitVec.ofNat 7 (n / 2 ^ 18) = d := ofNat_eq_of_mod (by omega)
  have h2 : BitVec.ofNat 7 (n / 2 ^ 11) = a := ofNat_eq_of_mod (by omega)
  have h3 : BitVec.ofNat 3 (n / 2 ^ 8) = k := ofNat_eq_of_mod (by omega)
  have h4 : BitVec.ofNat 4 (n / 2 ^ 4) = l := ofNat_eq_of_mod (by omega)
  have h5 : n % 16 = m := by omega
  simp only [fieldsOf, hc, hM, h1, h2, h3, h4, h5]

/-- Formats with a tag, two capability registers, A and MIN6. -/
theorem fieldsOf_tag (t : BitVec 6) (p q : BitVec 3) (a : Opc) (m : Nat) (hm : m < 64) :
    let n := laneWord c maj (t.toNat * 2 ^ 19 + p.toNat * 2 ^ 16 + q.toNat * 2 ^ 13 + a.toNat * 2 ^ 6 + m)
    fieldsOf n = { fieldsOf n with c := c, maj := maj, tag := t, capd := p, caps := q, fa := a, min6 := m } := by
  intro n
  have ht := t.isLt
  have hp := p.isLt
  have hq := q.isLt
  have ha := a.isLt
  obtain ⟨hc, hM, hlow⟩ : (n / 2 ^ 31 % 2 == 1) = c ∧ n / 2 ^ 25 % 64 = maj ∧ n % 2 ^ 25 = _ := high_laneWord c maj _ hmaj (by omega)
  have h1 : BitVec.ofNat 6 (n / 2 ^ 19) = t := ofNat_eq_of_mod (by omega)
  have h2 : BitVec.ofNat 3 (n / 2 ^ 16) = p := ofNat_eq_of_mod (by omega)
  have h3 : BitVec.ofNat 3 (n / 2 ^ 13) = q := ofNat_eq_of_mod (by omega)
  have h4 : BitVec.ofNat 7 (n / 2 ^ 6) = a := ofNat_eq_of_mod (by omega)
  have h5 : n % 64 = m := by omega
  simp only [fieldsOf, hc, hM, h1, h2, h3, h4, h5]

/-- Formats with D, J and a displacement. -/
theorem fieldsOf_disp (d : Opc) (j : BitVec 3) (x : BitVec 15) :
    let n := laneWord c maj (d.toNat * 2 ^ 18 + j.toNat * 2 ^ 15 + x.toNat)
    fieldsOf n = { fieldsOf n with c := c, maj := maj, d := d, j := j, disp := x } := by
  intro n
  have hd := d.isLt
  have hj := j.isLt
  have hx := x.isLt
  obtain ⟨hc, hM, hlow⟩ : (n / 2 ^ 31 % 2 == 1) = c ∧ n / 2 ^ 25 % 64 = maj ∧ n % 2 ^ 25 = _ := high_laneWord c maj _ hmaj (by omega)
  have h1 : BitVec.ofNat 7 (n / 2 ^ 18) = d := ofNat_eq_of_mod (by omega)
  have h2 : BitVec.ofNat 3 (n / 2 ^ 15) = j := ofNat_eq_of_mod (by omega)
  have h3 : BitVec.ofNat 15 n = x := ofNat_eq_of_mod (by omega)
  simp only [fieldsOf, hc, hM, h1, h2, h3]
end

/-! ### Lane words are read as what they encode -/

/-- One word encodes an instruction, and is read as it. -/
def LaneRead (i : Instr) : Prop := ∃ w, encode i = [w] ∧ w.toNat / 2 ^ 25 % 64 ≠ 0x3E ∧ decodeLane w 0 = .ok i

section
variable {i : Instr} {c : Bool} {base : Nat} {fs : List (Nat × Nat)}

theorem laneRead_of_low {low : Nat} (he : encode i = [pack c.toNat base fs])
    (hfs : placed (c.toNat * 2 ^ 31 + base) fs = laneWord c (base / 2 ^ 25) low) (hbase : base / 2 ^ 25 < 0x3E) (hlow : low < 2 ^ 25)
    (hd : ∀ w : Word, w.toNat = laneWord c (base / 2 ^ 25) low → decodeLane w 0 = .ok i) : LaneRead i := by
  have hc : c.toNat < 2 := Bool.toNat_lt c
  have hw : (pack c.toNat base fs).toNat = laneWord c (base / 2 ^ 25) low := by
    rw [toNat_pack] <;> rw [hfs]
    unfold laneWord
    omega
  refine ⟨_, he, ?_, hd _ hw⟩
  rw [hw, (high_laneWord c _ _ (by omega) hlow).2.1]
  omega

theorem laneRead_dab (d a b : Opc) (m : Nat) (he : encode i = [pack c.toNat base fs])
    (hfs : placed (c.toNat * 2 ^ 31 + base) fs =
      laneWord c (base / 2 ^ 25) (d.toNat * 2 ^ 18 + a.toNat * 2 ^ 11 + b.toNat * 2 ^ 4 + (base % 16 + m))
        := by simp [laneWord] <;> omega)
    (hbase : base / 2 ^ 25 < 0x3E := by decide) (hm : base % 16 + m < 16 := by decide)
    (hd : ∀ w : Word, fieldsOf w.toNat = { fieldsOf w.toNat with
      c := c, maj := base / 2 ^ 25, d := d, a := a, b := b, min := base % 16 + m } →
      decodeLane w 0 = .ok i := by intro w h; rw [decodeLane, h]; rfl) : LaneRead i :=
  laneRead_of_low he hfs hbase (by have := d.isLt; have := a.isLt; have := b.isLt; omega) fun w hw =>
    hd w (by rw [hw]; exact fieldsOf_dab c _ (by omega) d a b _ hm)

theorem laneRead_imm (d a : Opc) (x : BitVec 11) (he : encode i = [pack c.toNat base fs])
    (hfs : placed (c.toNat * 2 ^ 31 + base) fs = laneWord c (base / 2 ^ 25) (d.toNat * 2 ^ 18 + a.toNat * 2 ^ 11 + x.toNat)
        := by simp [laneWord] <;> omega)
    (hbase : base / 2 ^ 25 < 0x3E := by decide)
    (hd : ∀ w : Word, fieldsOf w.toNat = { fieldsOf w.toNat with
      c := c, maj := base / 2 ^ 25, d := d, a := a, imm := x } →
      decodeLane w 0 = .ok i := by intro w h; rw [decodeLane, h]; rfl) : LaneRead i :=
  laneRead_of_low he hfs hbase (by have := d.isLt; have := a.isLt; have := x.isLt; omega) fun w hw =>
    hd w (by rw [hw]; exact fieldsOf_imm c _ (by omega) d a x)

theorem laneRead_look (d a : Opc) (k : BitVec 3) (l : BitVec 4) (m : Nat) (he : encode i = [pack c.toNat base fs])
    (hfs : placed (c.toNat * 2 ^ 31 + base) fs =
      laneWord c (base / 2 ^ 25) (d.toNat * 2 ^ 18 + a.toNat * 2 ^ 11 + k.toNat * 2 ^ 8 + l.toNat * 2 ^ 4 + (base % 16 + m))
        := by simp [laneWord] <;> omega)
    (hbase : base / 2 ^ 25 < 0x3E := by decide) (hm : base % 16 + m < 16 := by decide)
    (hd : ∀ w : Word, fieldsOf w.toNat = { fieldsOf w.toNat with
      c := c, maj := base / 2 ^ 25, d := d, a := a, cap := k, look := l, min := base % 16 + m } →
      decodeLane w 0 = .ok i := by intro w h; rw [decodeLane, h]; rfl) : LaneRead i :=
  laneRead_of_low he hfs hbase (by have := d.isLt; have := a.isLt; have := k.isLt; have := l.isLt; omega) fun w hw =>
    hd w (by rw [hw]; exact fieldsOf_look c _ (by omega) d a k l _ hm)

theorem laneRead_tag (t : BitVec 6) (p q : BitVec 3) (a : Opc) (m : Nat) (he : encode i = [pack c.toNat base fs])
    (hfs : placed (c.toNat * 2 ^ 31 + base) fs =
      laneWord c (base / 2 ^ 25) (t.toNat * 2 ^ 19 + p.toNat * 2 ^ 16 + q.toNat * 2 ^ 13 + a.toNat * 2 ^ 6 + (base % 64 + m))
        := by simp [laneWord] <;> omega)
    (hbase : base / 2 ^ 25 < 0x3E := by decide) (hm : base % 64 + m < 64 := by decide)
    (hd : ∀ w : Word, fieldsOf w.toNat = { fieldsOf w.toNat with
      c := c, maj := base / 2 ^ 25, tag := t, capd := p, caps := q, fa := a, min6 := base % 64 + m } →
      decodeLane w 0 = .ok i := by intro w h; rw [decodeLane, h]; rfl) : LaneRead i :=
  laneRead_of_low he hfs hbase (by have := t.isLt; have := p.isLt; have := q.isLt; have := a.isLt; omega) fun w hw =>
    hd w (by rw [hw]; exact fieldsOf_tag c _ (by omega) t p q a _ hm)

theorem laneRead_disp (d : Opc) (j : BitVec 3) (x : BitVec 15) (he : encode i = [pack c.toNat base fs])
    (hfs : placed (c.toNat * 2 ^ 31 + base) fs = laneWord c (base / 2 ^ 25) (d.toNat * 2 ^ 18 + j.toNat * 2 ^ 15 + x.toNat)
        := by simp [laneWord] <;> omega)
    (hbase : base / 2 ^ 25 < 0x3E := by decide)
    (hd : ∀ w : Word, fieldsOf w.toNat = { fieldsOf w.toNat with
      c := c, maj := base / 2 ^ 25, d := d, j := j, disp := x } →
      decodeLane w 0 = .ok i := by intro w h; rw [decodeLane, h]; rfl) : LaneRead i :=
  laneRead_of_low he hfs hbase (by have := d.isLt; have := j.isLt; have := x.isLt; omega) fun w hw =>
    hd w (by rw [hw]; exact fieldsOf_disp c _ (by omega) d j x)
end


theorem CTy.ofCode?_code (y : CTy) : CTy.ofCode? y.code = some y := by cases y <;> rfl
theorem RMode.ofCode_code (r : RMode) : RMode.ofCode r.code = r := by cases r <;> rfl

/-- CVT's B field (R90): the type of the source, the rounding mode, SAT. -/
def cvtB (e : CTy) (r : RMode) (u : Bool) : Opc := BitVec.ofNat 7 (e.code * 8 + r.code * 2 + u.toNat)

theorem cvtB_fields (e : CTy) (r : RMode) (u : Bool) : (cvtB e r u).toNat = e.code * 8 + r.code * 2 + u.toNat ∧
    (cvtB e r u).toNat / 8 = e.code ∧ (cvtB e r u).toNat / 2 % 4 = r.code ∧ ((cvtB e r u).toNat % 2 == 1) = u := by
  cases e <;> cases r <;> cases u <;> decide

theorem CTy.code_lt (y : CTy) : y.code < 16 := by cases y <;> decide
theorem Aop.code_lt (u : Aop) : u.code < 16 := by cases u <;> decide
theorem Lop.code_lt (o : Lop) : o.code < 16 := by cases o <;> decide

theorem laneRead_cvt {c : Bool} {d a : Opc} {e : CTy} {r : RMode} {u : Bool} {y : CTy} (h : (u && e.isFloat) = false) :
    LaneRead (.cvt c d a e r u y) := by
  obtain ⟨hb, he, hr, hu⟩ := cvtB_fields e r u
  have hm : 0x22000000 % 16 + y.code < 16 := by have := CTy.code_lt y; omega
  refine laneRead_dab d a (cvtB e r u) y.code rfl (by rw [hb]; simp [laneWord]; omega) (by decide) hm fun w hw => ?_
  rw [decodeLane, hw]
  show decode11 _ = _
  have hu' : decide ((cvtB e r u).toNat % 2 = 1) = u := hu
  simp [decode11, he, hr, hu, hu', CTy.ofCode?_code, RMode.ofCode_code, h]

theorem laneRead_cvtn {c : Bool} {d a b : Opc} {x : BitVec 3} : LaneRead (.cvtn c d a b x) := by
  have hm : 0x24000000 % 16 + x.toNat < 16 := by omega
  refine laneRead_dab d a b x.toNat rfl (hm := hm) (hd := fun w hw => ?_)
  rw [decodeLane, hw]
  show decode12 _ = _
  have h8 : 0 + x.toNat < 8 := by omega
  simp [decode12]
  omega

theorem laneRead_cvtw {c : Bool} {d a b : Opc} {x : BitVec 3} : LaneRead (.cvtw c d a b x) := by
  have hm : 0x24000008 % 16 + x.toNat < 16 := by omega
  refine laneRead_dab d a b x.toNat rfl (hm := hm) (hd := fun w hw => ?_)
  rw [decodeLane, hw]
  show decode12 _ = _
  have hx : BitVec.ofNat 3 (8 + x.toNat) = x := ofNat_eq_of_mod (by omega)
  simp [decode12, hx]

theorem laneRead_lscan {c : Bool} {d a : Opc} {x : Bool} {o : Lop} : LaneRead (.lscan c d a x o) := by
  have hm : 0x2C000000 % 16 + o.code < 16 := by have := Lop.code_lt o; omega
  obtain ⟨b, hb, hhi, hlo⟩ : ∃ b : Opc, b.toNat = x.toNat ∧ b.toNat / 2 = 0 ∧ (b.toNat % 2 == 1) = x :=
    ⟨BitVec.ofNat 7 x.toNat, by cases x <;> decide⟩
  refine laneRead_dab d a b o.code rfl (by rw [hb]; simp [laneWord]; omega) (by decide) hm fun w hw => ?_
  rw [decodeLane, hw]
  show decode16 _ = _
  simp only [decode16, hhi, hlo]
  cases o <;> rfl

theorem laneRead_iaddi {c : Bool} {d a : Opc} {x : BitVec 11} (h : a ≠ 120#7) : LaneRead (.iaddi c d a x) := by
  refine laneRead_imm d a x rfl (hd := fun w hw => ?_)
  rw [decodeLane, hw]
  exact if_neg h

/-- ATOMR with AOP 11 or 12 has no encoding of its own (R148). -/
theorem laneRead_atomr {c : Bool} {d a : Opc} {k : BitVec 3} {l : BitVec 4} {u : Aop} (h : (Instr.atomr c d a k l u).wf = true) :
    LaneRead (.atomr c d a k l u) := by
  have hm : 0x3A000000 % 16 + u.code < 16 := by have := Aop.code_lt u; omega
  refine laneRead_look d a k l u.code rfl (hm := hm) (hd := fun w hw => ?_)
  rw [decodeLane, hw]
  cases u
  case cas | rst => cases h
  all_goals rfl

/-- The order and scope of an atomic where LOOK stands otherwise (R148). -/
def ordScp (o : Ord) (p : Scp) : BitVec 4 := BitVec.ofNat 4 (o.code * 4 + p.code)

theorem ordScp_fields (o : Ord) (p : Scp) : (ordScp o p).toNat = o.code * 4 + p.code ∧ (ordScp o p).toNat / 4 = o.code ∧
    Ord.ofCode ((ordScp o p).toNat / 4) = o ∧ Scp.ofCode ((ordScp o p).toNat % 4) = p := by
  cases o <;> cases p <;> decide

theorem laneRead_atom {c : Bool} {v a : Opc} {k : BitVec 3} {o : Ord} {p : Scp} {u : Aop} (h : (Instr.atom c v a k o p u).wf = true) :
    LaneRead (.atom c v a k o p u) := by
  obtain ⟨hl, -, ho, hp⟩ := ordScp_fields o p
  have hm : 0x38000000 % 16 + u.code < 16 := by have := Aop.code_lt u; omega
  refine laneRead_look v a k (ordScp o p) u.code rfl (by rw [hl]; simp [laneWord]; omega) (by decide) hm fun w hw => ?_
  rw [decodeLane, hw]
  show decode1C _ = _
  simp only [decode1C, ho, hp]
  cases u
  case exch | cas | rst => cases h
  all_goals rfl

theorem laneRead_atomrOrdered {c : Bool} {v a : Opc} {k : BitVec 3} {o : Ord} {p : Scp} {u : Aop}
    (h : (Instr.atomrOrdered c v a k o p u).wf = true) : LaneRead (.atomrOrdered c v a k o p u) := by
  obtain ⟨hl, hhi, ho, hp⟩ := ordScp_fields o p
  rw [hhi] at ho
  have hm : 0x3C000000 % 16 + u.code < 16 := by have := Aop.code_lt u; omega
  have ho0 : o.code ≠ 0 := by
    cases o
    case rlx => cases h
    all_goals decide
  refine laneRead_look v a k (ordScp o p) u.code rfl (by rw [hl]; simp [laneWord]; omega) (by decide) hm fun w hw => ?_
  rw [decodeLane, hw]
  show decode1E _ = _
  simp only [decode1E, ho, hp, hhi, if_neg ho0]
  cases u <;> rfl

theorem laneRead_of_wf {i : Instr} (hwf : i.wf = true) (hM : isM i = false) (hE : isE i = false) (he : encode i ≠ [])
    (hl : ∀ d lit, i ≠ .movl d lit) : LaneRead i := by
  cases i with
  | nop c | ret c | yield c | exit c | dphase c | brk c => exact laneRead_dab 0 0 0 0 rfl
  | rand c d | randn c d => exact laneRead_dab d 0 0 0 rfl
  | brx c a | callx c a | waitc c a | tclr c a | arrwait c a => exact laneRead_dab 0 a 0 0 rfl
  | arrset c a b | bar c a b | event c a b | swrite c a b => exact laneRead_dab 0 a b 0 rfl
  | trap c b | trapret c b => exact laneRead_dab 0 0 b 0 rfl
  | sread c d b => exact laneRead_dab d 0 b 0 rfl
  | ineg c d a | iabs c d a | mov c d a | clz c d a | popc c d a | brev c d a | fabs c d a | fneg c d a | fclass c d a
  | rcp c d a | rsq c d a | sqrt c d a | exp2 c d a | log2 c d a | sin c d a | cos c d a | tanh c d a | smxupd c d a
  | smxmrg c d a | smxfin c d a | voteBallot c d a | matcheq c d a | tfirst c d a | ttest c d a | commit c d a | qstat c d a
  | launch c d a | lwait c d a | lstat c d a | pairstat c d a | caplen c d a | captype c d a | capmov c d a | gangleave c d a
  | gangack c d a | gstat c d a | faultrec c d a | lkill c d a | ctxsave c d a | ctxload c d a =>
    exact laneRead_dab d a 0 0 rfl
  | iadd c d a b | isub c d a b | imul c d a b | and c d a b | or c d a b | xor c d a b | shl c d a b | shr c d a b
  | sar c d a b | iadd64 c d a b | shl64 c d a b | sel c d a b | imad c d a b | imadwI c d a b | imadwN c d a b
  | bfxN c d a b | bfxI c d a b | bfi c d a b | fmin c d a b | fmax c d a b | div c d a b | idivI c d a b | idivN c d a b
  | iremI c d a b | iremN c d a b | bppack c d a b | bpunpack c d a b | bpdot c d a b | bpslice c d a b | capsub c d a b
  | caprestrict c d a b | bararr c d a b | barwait c d a b | barinit c d a b | lresume c d a b =>
    exact laneRead_dab d a b 0 rfl
  | imulh c d a b y | imin c d a b y | imax c d a b y | icmp c d a b y | iaddBh c d a b y | isubBh c d a b y
  | iminBh c d a b y | imaxBh c d a b y | fadd c d a b y | fsub c d a b y | fmul c d a b y | ffma c d a b y | fcmp c d a b y =>
    exact laneRead_dab d a b y.code rfl (hm := by cases y <;> decide)
      (hd := by intro w h; rw [decodeLane, h]; cases y <;> rfl)
  | hadd2 c d a b y | hmul2 c d a b y | hfma2 c d a b y | hmax2 c d a b y | fdot2h c d a b y =>
    exact laneRead_dab d a b (y.code * 8) rfl (hm := by cases y <;> decide)
      (hd := by intro w h; rw [decodeLane, h]; cases y <;> rfl)
  | frnd c d a r | lred c d a r =>
    exact laneRead_dab d a 0 r.code rfl (hm := by cases r <;> decide)
      (hd := by intro w h; rw [decodeLane, h]; cases r <;> rfl)
  | vote c d a x | twait c d a x =>
    exact laneRead_dab d a 0 x.toNat rfl (hm := by cases x <;> decide)
      (hd := by intro w h; rw [decodeLane, h]; cases x <;> rfl)
  | lscan c d a x o => exact laneRead_lscan
  | shfl c d a b g y =>
    exact laneRead_dab d a b (g.code * 4 + y.code) rfl (hm := by cases g <;> cases y <;> decide)
      (hd := by intro w h; rw [decodeLane, h]; cases g <;> cases y <;> rfl)
  | fence c y =>
    exact laneRead_dab 0 0 0 y.code rfl (hm := by cases y <;> decide)
      (hd := by intro w h; rw [decodeLane, h]; cases y <;> rfl)
  | otfence c x =>
    exact laneRead_dab 0 0 0 (x.toNat + 1) rfl (hm := by cases x <;> decide)
      (hd := by intro w h; rw [decodeLane, h]; cases x <;> rfl)
  | pairout c a x =>
    exact laneRead_dab 0 a 0 x.toNat rfl (hm := by cases x <;> decide)
      (hd := by intro w h; rw [decodeLane, h]; cases x <;> rfl)
  | cvtn c d a b x => exact laneRead_cvtn
  | cvtw c d a b x => exact laneRead_cvtw
  | cvt c d a e r u y => exact laneRead_cvt (Bool.not_eq_true' _ ▸ hwf)
  | iaddi c d a x => exact laneRead_iaddi (bne_iff_ne.1 hwf)
  | movi c d x => exact laneRead_imm d 120 x rfl
  | andi c d a x | ori c d a x | xori c d a x => exact laneRead_imm d a x rfl
  | ld c d a k l y x =>
    exact laneRead_look d a k l (y.code * 4 + x.toNat) rfl (hm := by cases y <;> cases x <;> decide)
      (hd := by intro w h; rw [decodeLane, h]; cases y <;> cases x <;> rfl)
  | ldNarrow c d a k l y x | st c d a k l y x =>
    exact laneRead_look d a k l (y.code * 4 + x.code) rfl (hm := by cases y <;> cases x <;> decide)
      (hd := by intro w h; rw [decodeLane, h]; cases y <;> cases x <;> rfl)
  | ldacq c d a k l y | strel c d a k l y =>
    exact laneRead_look d a k l y.code rfl (hm := by cases y <;> decide)
      (hd := by intro w h; rw [decodeLane, h]; cases y <;> rfl)
  | cas c d a k l | atomrst c d a k l | cwb c d a k l | cinv c d a k l | pref c d a k l | stmc c d a k l
  | stredAddF32 c d a k l | stredAddB32 c d a k l | stredMaxF32 c d a k l | ldcap c d a k l | stcap c d a k l =>
    exact laneRead_look d a k l 0 rfl
  | atomr c d a k l u => exact laneRead_atomr hwf
  | atom c v a k o p u => exact laneRead_atom hwf
  | atomrOrdered c v a k o p u => exact laneRead_atomrOrdered hwf
  | copy c t p q a | copy2d c t p q a | chain c t p q a | fbulk c t p q a | frlease c t p q a =>
    exact laneRead_tag t p q a 0 rfl
  | gather c t q a | pairgo c t q a => exact laneRead_tag t 0 q a 0 rfl
  | scatter c t p a | fred c t p a => exact laneRead_tag t p 0 a 0 rfl
  | scatadd c t p a x =>
    exact laneRead_tag t p 0 a x.toNat rfl (hm := by cases x <;> decide)
      (hd := by intro w h; rw [decodeLane, h]; cases x <;> rfl)
  | pairrelaunch c q a => exact laneRead_tag 0 0 q a 0 rfl
  | br c x => exact laneRead_disp 0 0 x rfl
  | brz c d x => exact laneRead_disp d 1 x rfl
  | brnz c d x => exact laneRead_disp d 2 x rfl
  | call c x => exact laneRead_disp 0 3 x rfl
  | enrol c j => exact laneRead_disp 0 j 0 rfl
  | rejoin c j => exact laneRead_disp 1 j 0 rfl
  | strike c j => exact laneRead_disp 2 j 0 rfl
  | movl d lit => exact absurd rfl (hl d lit)
  | tclaim | trelease | tload | tzero | tzeroSlot | tmma | tdrain | mbararr | mbarwait | mloop | mend | mset | madd | mpost
  | mexit => cases hM
  | eadd | esub | emul | efma | emax | emin | etanh | eexp | ercp | eldrow | eldcol | ecvt | eamax | esmx | eend => cases hE
  | _ => exact absurd rfl he

end Sys2Proof
end

section
/-! The M-words, the E-words and MOVL are read as what they encode, and with the lane words every encoding is (R43, R55-R59). -/

namespace Sys2Proof
open Claims

/-- An M-word's or E-word's number from its opcode, its three 4-bit fields, its slot and its low bits (Table 3.5). -/
def engineWord (op : Nat) (a b c : BitVec 4) (s : BitVec 3) (x : Nat) : Nat :=
  op * 2 ^ 26 + a.toNat * 2 ^ 22 + b.toNat * 2 ^ 18 + c.toNat * 2 ^ 14 + s.toNat * 2 ^ 11 + x

/-- The fields of an M-word or E-word (Table 3.5). -/
structure EngineFields (n op : Nat) (a b c : BitVec 4) (s : BitVec 3) (x : Nat) : Prop where
  op : n / 2 ^ 26 = op
  a : BitVec.ofNat 4 (n / 2 ^ 22) = a
  b : BitVec.ofNat 4 (n / 2 ^ 18) = b
  c : BitVec.ofNat 4 (n / 2 ^ 14) = c
  s : BitVec.ofNat 3 (n / 2 ^ 11) = s
  rest : n % 2048 = x
  low : ∀ k ≤ 11, BitVec.ofNat k n = BitVec.ofNat k x

theorem engineFields_engineWord (op : Nat) (a b c : BitVec 4) (s : BitVec 3) (x : Nat) (hx : x < 2048) :
    EngineFields (engineWord op a b c s x) op a b c s x := by
  have ha := a.isLt
  have hb := b.isLt
  have hc := c.isLt
  have hs := s.isLt
  have hlow : engineWord op a b c s x % 2 ^ 11 = x := by unfold engineWord; omega
  refine ⟨?_, ofNat_eq_of_mod ?_, ofNat_eq_of_mod ?_, ofNat_eq_of_mod ?_, ofNat_eq_of_mod ?_, hlow, fun k hk => ofNat_eq_of_mod ?_⟩
  case refine_6 =>
    rw [BitVec.toNat_ofNat, ← Nat.mod_mod_of_dvd _ (Nat.pow_dvd_pow 2 hk), hlow]
  all_goals unfold engineWord; omega

/-- The fields of an M-word with an immediate (Table 3.5). -/
structure ImmediateFields (n op : Nat) (a : BitVec 4) (x : BitVec 22) : Prop where
  op : n / 2 ^ 26 = op
  a : BitVec.ofNat 4 (n / 2 ^ 22) = a
  imm : BitVec.ofNat 22 n = x

theorem immediateFields_word (op : Nat) (a : BitVec 4) (x : BitVec 22) :
    ImmediateFields (op * 2 ^ 26 + a.toNat * 2 ^ 22 + x.toNat) op a x := by
  have ha := a.isLt
  have hx := x.isLt
  exact ⟨by omega, ofNat_eq_of_mod (by omega), ofNat_eq_of_mod (by omega)⟩

/-- One word encodes an instruction, and a sequencer's decoder reads it as that. -/
def EngineRead (dec : Word → Except DecodeError Instr) (i : Instr) : Prop := ∃ w, encode i = [w] ∧ dec w = .ok i

section
variable {dec : Word → Except DecodeError Instr} {i : Instr} {base : Nat} {fs : List (Nat × Nat)}

theorem engineRead_fields (a b c : BitVec 4) (s : BitVec 3) (x : Nat) (he : encode i = [pack 0 base fs])
    (hd : ∀ w : Word, EngineFields w.toNat (base / 2 ^ 26) a b c s x → dec w = .ok i)
    (hop : base / 2 ^ 26 < 64 := by decide) (hx : x < 2048 := by decide)
    (hfs : placed base fs = engineWord (base / 2 ^ 26) a b c s x := by simp [engineWord] <;> omega) : EngineRead dec i := by
  have hpack : (pack 0 base fs).toNat = engineWord (base / 2 ^ 26) a b c s x := by
    have ha := a.isLt
    have hb := b.isLt
    have hc := c.isLt
    have hs := s.isLt
    rw [toNat_pack, Nat.zero_mul, Nat.zero_add, hfs]
    rw [Nat.zero_mul, Nat.zero_add, hfs, engineWord]
    omega
  exact ⟨_, he, hd _ (hpack ▸ engineFields_engineWord _ a b c s x hx)⟩

theorem engineRead_immediate (a : BitVec 4) (x : BitVec 22) (he : encode i = [pack 0 base fs])
    (hd : ∀ w : Word, ImmediateFields w.toNat (base / 2 ^ 26) a x → dec w = .ok i)
    (hop : base / 2 ^ 26 < 64 := by decide)
    (hfs : placed base fs = base / 2 ^ 26 * 2 ^ 26 + a.toNat * 2 ^ 22 + x.toNat := by simp) : EngineRead dec i := by
  have hpack : (pack 0 base fs).toNat = base / 2 ^ 26 * 2 ^ 26 + a.toNat * 2 ^ 22 + x.toNat := by
    have ha := a.isLt
    have hx := x.isLt
    rw [toNat_pack, Nat.zero_mul, Nat.zero_add, hfs]
    rw [Nat.zero_mul, Nat.zero_add, hfs]
    omega
  exact ⟨_, he, hd _ (hpack ▸ immediateFields_word _ a x)⟩
end

theorem engineRead_of_isM {i : Instr} (h : isM i = true) : EngineRead decodeM i := by
  cases i with
  | tclaim a n | trelease a n =>
    have hn := n.isLt
    exact engineRead_fields a 0 0 0 n.toNat rfl (hx := by omega) fun w f => by
      simp only [decodeM, f.op, f.a, f.b, f.c, f.s, f.rest, f.low 7 (by decide)]
      simp [zero, Nat.div_eq_of_lt hn]
  | tload a b s k =>
    have hk := k.isLt
    exact engineRead_fields a b 0 s k.toNat rfl (hx := by omega) fun w f => by
      simp only [decodeM, f.op, f.a, f.b, f.c, f.s, f.rest, f.low 4 (by decide)]
      simp [zero, Nat.div_eq_of_lt hk]
  | tdrain b c s p =>
    have hp := p.isLt
    exact engineRead_fields 0 b c s p.toNat rfl (hx := by omega) fun w f => by
      simp only [decodeM, f.op, f.a, f.b, f.c, f.s, f.rest, f.low 5 (by decide)]
      simp [zero, Nat.div_eq_of_lt hp]
  | tzero c =>
    exact engineRead_fields 0 0 c 0 0 rfl fun w f => by
      simp only [decodeM, f.op, f.a, f.b, f.c, f.s, f.rest]
      rfl
  | tzeroSlot a =>
    exact engineRead_fields a 0 0 0 1 rfl fun w f => by
      simp only [decodeM, f.op, f.a, f.b, f.c, f.s, f.rest]
      rfl
  | tmma a b c u v =>
    exact engineRead_fields a b c 0 (u.toNat * 2 + v.toNat) rfl (hx := by cases u <;> cases v <;> decide) fun w f => by
      simp only [decodeM, f.op, f.a, f.b, f.c, f.s, f.rest]
      cases u <;> cases v <;> rfl
  | mpost a b =>
    exact engineRead_fields a b 0 0 0 rfl fun w f => by
      simp only [decodeM, f.op, f.a, f.b, f.c, f.s, f.rest]
      rfl
  | mbararr a x | mbarwait a x | mloop a x | mset a x | madd a x =>
    exact engineRead_immediate a x rfl fun w f => by
      simp only [decodeM, f.op, f.a, f.imm]
      rfl
  | mend | mexit =>
    exact engineRead_immediate 0 0 rfl fun w f => by
      simp only [decodeM, f.op, f.a, f.imm]
      rfl
  | _ => cases h

theorem engineRead_of_isE {i : Instr} (h : isE i = true) : EngineRead decodeE i := by
  cases i with
  | eadd d a b | esub d a b | emul d a b | efma d a b | emax d a b | emin d a b =>
    exact engineRead_fields d a b 0 0 rfl fun w f => by
      simp only [decodeE, f.op, f.a, f.b, f.c, f.s, f.rest]
      rfl
  | etanh d a | eexp d a | ercp d a | esmx d a =>
    exact engineRead_fields d a 0 0 0 rfl fun w f => by
      simp only [decodeE, f.op, f.a, f.b, f.c, f.s, f.rest]
      rfl
  | eldrow d | eldcol d =>
    exact engineRead_fields d 0 0 0 0 rfl fun w f => by
      simp only [decodeE, f.op, f.a, f.b, f.c, f.s, f.rest]
      rfl
  | ecvt d a s =>
    exact engineRead_fields d a 0 s 0 rfl fun w f => by
      simp only [decodeE, f.op, f.a, f.b, f.c, f.s, f.rest]
      rfl
  | eamax a =>
    exact engineRead_fields 0 a 0 0 0 rfl fun w f => by
      simp only [decodeE, f.op, f.a, f.b, f.c, f.s, f.rest]
      rfl
  | eend =>
    exact engineRead_fields 0 0 0 0 0 rfl fun w f => by
      simp only [decodeE, f.op, f.a, f.b, f.c, f.s, f.rest]
      rfl
  | _ => cases h

/-- MOVL's two words (R56). -/
theorem movl_read (d : Opc) (lit : Word) : ∃ w, encode (.movl d lit) = [w, lit] ∧ w.toNat / 2 ^ 25 % 64 = 0x3E ∧
    decodeLane w lit = .ok (.movl d lit) := by
  have hd := d.isLt
  have hw : (pack 0 0x7C000000 [(d.toNat, 18)]).toNat =
      laneWord false 0x3E (d.toNat * 2 ^ 18 + (0#7).toNat * 2 ^ 11 + (0#7).toNat * 2 ^ 4 + 0) := by
    rw [toNat_pack]
    · simp [laneWord]
    · simp
      omega
  refine ⟨_, rfl, ?_, ?_⟩
  · rw [hw, (high_laneWord false _ _ (by decide) (by simp; omega)).2.1]
  · have hf := fieldsOf_dab false 0x3E (by decide) d 0#7 0#7 0 (by decide)
    rw [decodeLane, hw, hf]
    rfl

theorem Proofs.encodingsAreRead : EncodingsAreRead := by
  intro i hwf
  refine ⟨engineRead_of_isM, engineRead_of_isE, fun hM hE he => ?_⟩
  by_cases hl : ∃ d lit, i = .movl d lit
  · obtain ⟨d, lit, rfl⟩ := hl
    obtain ⟨w, hw⟩ := movl_read d lit
    exact .inr ⟨w, lit, hw⟩
  · exact .inl (laneRead_of_wf hwf hM hE he fun d lit h => hl ⟨d, lit, h⟩)

end Sys2Proof
end

section
/-! What decodes is well formed, and its encoding is the word it was decoded from (R54, R56-R59). -/

namespace Sys2Proof
open Claims

/-- Whatever a decoder makes of a word is well formed, and the word encodes it. -/
def Encodes (w : Word) (r : Except DecodeError Instr) : Prop := ∀ i, r = .ok i → i.wf = true ∧ encode i = [w]

theorem encodes_error (w : Word) (e : DecodeError) : Encodes w (.error e) ↔ True := iff_true_intro fun i h => by cases h

theorem encodes_ok {w : Word} {i : Instr} : Encodes w (.ok i) ↔ i.wf = true ∧ encode i = [w] :=
  ⟨fun h => h i rfl, fun h j hj => by cases hj; exact h⟩

theorem encodes_zero {w : Word} {ok : Bool} {r : Except DecodeError Instr} : Encodes w (zero ok r) ↔ (ok = true → Encodes w r) := by
  unfold zero
  split
  next hok => simp [hok]
  next hok => simp [hok, encodes_error]

theorem pack_eq {w : Word} {c base : Nat} {fs : List (Nat × Nat)} (h : placed (c * 2 ^ 31 + base) fs = w.toNat) :
    [pack c base fs] = [w] := by
  show [BitVec.ofNat 32 (placed (c * 2 ^ 31 + base) fs)] = [w]
  rw [h, BitVec.ofNat_toNat, BitVec.setWidth_eq]

/-- The parity of a number, as a bit and as a number. -/
theorem toNat_parity (n : Nat) : (n % 2 == 1).toNat = n % 2 := by
  rcases Nat.mod_two_eq_zero_or_one n with h | h <;> rw [h] <;> rfl

/-! ### A word is the sum of the fields of its format (Table 3.2) -/

/-- The number that the chain bit and the major opcode of a word stand for. -/
def Fields.high (f : Fields) : Nat := f.c.toNat * 2 ^ 31 + f.maj * 2 ^ 25

theorem high_fieldsOf (w : Word) : (fieldsOf w.toNat).high = w.toNat / 2 ^ 25 * 2 ^ 25 := by
  have hw := w.isLt
  have hc : (fieldsOf w.toNat).c.toNat = w.toNat / 2 ^ 31 % 2 := toNat_parity _
  have hM : (fieldsOf w.toNat).maj = w.toNat / 2 ^ 25 % 64 := rfl
  rw [Fields.high, hc, hM]
  omega

theorem toNat_of_dab (w : Word) : let f := fieldsOf w.toNat
    w.toNat = f.high + f.d.toNat * 2 ^ 18 + f.a.toNat * 2 ^ 11 + f.b.toNat * 2 ^ 4 + f.min := by
  intro f
  rw [high_fieldsOf]
  simp only [f, fieldsOf, BitVec.toNat_ofNat]
  omega

theorem toNat_of_imm (w : Word) : let f := fieldsOf w.toNat
    w.toNat = f.high + f.d.toNat * 2 ^ 18 + f.a.toNat * 2 ^ 11 + f.imm.toNat := by
  intro f
  rw [high_fieldsOf]
  simp only [f, fieldsOf, BitVec.toNat_ofNat]
  omega

theorem toNat_of_look (w : Word) : let f := fieldsOf w.toNat
    w.toNat = f.high + f.d.toNat * 2 ^ 18 + f.a.toNat * 2 ^ 11 + f.cap.toNat * 2 ^ 8 + f.look.toNat * 2 ^ 4 + f.min := by
  intro f
  rw [high_fieldsOf]
  simp only [f, fieldsOf, BitVec.toNat_ofNat]
  omega

theorem toNat_of_tag (w : Word) : let f := fieldsOf w.toNat
    w.toNat = f.high + f.tag.toNat * 2 ^ 19 + f.capd.toNat * 2 ^ 16 + f.caps.toNat * 2 ^ 13 + f.fa.toNat * 2 ^ 6 + f.min6 := by
  intro f
  rw [high_fieldsOf]
  simp only [f, fieldsOf, BitVec.toNat_ofNat]
  omega

theorem toNat_of_disp (w : Word) : let f := fieldsOf w.toNat
    w.toNat = f.high + f.d.toNat * 2 ^ 18 + f.j.toNat * 2 ^ 15 + f.disp.toNat := by
  intro f
  rw [high_fieldsOf]
  simp only [f, fieldsOf, BitVec.toNat_ofNat]
  omega

/-! ### Each major opcode

In each branch of a decoder the fields that the instruction does not name are known: MIN and the major opcode from the branch taken,
the others from the check that they are zero. With them the number of the word is the sum of the fields that its encoding packs. -/

section
variable (w : Word) (f : Fields)

theorem integer_majors_encode (hw : w.toNat = f.high + f.d.toNat * 2 ^ 18 + f.a.toNat * 2 ^ 11 + f.b.toNat * 2 ^ 4 + f.min) :
    (f.maj = 0x00 → Encodes w (decode00 f)) ∧
    (f.maj = 0x01 → Encodes w (decode01 f)) ∧
    (f.maj = 0x02 → Encodes w (decode02 f)) ∧
    (f.maj = 0x03 → Encodes w (decode03 f)) := by
  refine ⟨fun hM => ?_, fun hM => ?_, fun hM => ?_, fun hM => ?_⟩
  all_goals
    simp only [Fields.high, hM] at hw
    simp only [decode00, decode01, decode02, decode03]
    split
  all_goals simp only [encodes_error, encodes_zero, encodes_ok]
  all_goals
    intros
    refine ⟨rfl, pack_eq ?_⟩
    simp_all [Sgn.code, ICmp.code, SubTy.code]
  all_goals omega

theorem float_majors_encode (hw : w.toNat = f.high + f.d.toNat * 2 ^ 18 + f.a.toNat * 2 ^ 11 + f.b.toNat * 2 ^ 4 + f.min) :
    (f.maj = 0x08 → Encodes w (decode08 f)) ∧
    (f.maj = 0x09 → Encodes w (decode09 f)) ∧
    (f.maj = 0x0A → Encodes w (decode0A f)) ∧
    (f.maj = 0x10 → Encodes w (decode10 f)) := by
  refine ⟨fun hM => ?_, fun hM => ?_, fun hM => ?_, fun hM => ?_⟩
  all_goals
    simp only [Fields.high, hM] at hw
    simp only [decode08, decode09, decode0A, decode10]
    split
  all_goals simp only [encodes_error, encodes_zero, encodes_ok]
  all_goals
    intros
    refine ⟨rfl, pack_eq ?_⟩
    simp_all [RMode.code, FCmp.code, HTy.code]
  all_goals omega

theorem crossLane_majors_encode (hw : w.toNat = f.high + f.d.toNat * 2 ^ 18 + f.a.toNat * 2 ^ 11 + f.b.toNat * 2 ^ 4 + f.min) :
    (f.maj = 0x13 → Encodes w (decode13 f)) ∧
    (f.maj = 0x14 → Encodes w (decode14 f)) ∧
    (f.maj = 0x15 → Encodes w (decode15 f)) ∧
    (f.maj = 0x16 → Encodes w (decode16 f)) ∧
    (f.maj = 0x17 → Encodes w (decode17 f)) := by
  refine ⟨fun hM => ?_, fun hM => ?_, fun hM => ?_, fun hM => ?_, fun hM => ?_⟩
  all_goals
    simp only [Fields.high, hM] at hw
    simp only [decode13, decode14, decode15, decode16, decode17]
    split
  all_goals simp only [encodes_error, encodes_zero, encodes_ok]
  all_goals
    intros
    refine ⟨rfl, pack_eq ?_⟩
    simp_all [Seg.code, ShMode.code, Lop.code, toNat_parity]
  all_goals omega

theorem control_majors_encode (hw : w.toNat = f.high + f.d.toNat * 2 ^ 18 + f.a.toNat * 2 ^ 11 + f.b.toNat * 2 ^ 4 + f.min) :
    (f.maj = 0x21 → Encodes w (decode21 f)) ∧
    (f.maj = 0x22 → Encodes w (decode22 f)) ∧
    (f.maj = 0x24 → Encodes w (decode24 f)) ∧
    (f.maj = 0x29 → Encodes w (decode29 f)) ∧
    (f.maj = 0x2C → Encodes w (decode2C f)) ∧
    (f.maj = 0x31 → Encodes w (decode31 f)) ∧
    (f.maj = 0x33 → Encodes w (decode33 f)) := by
  refine ⟨fun hM => ?_, fun hM => ?_, fun hM => ?_, fun hM => ?_, fun hM => ?_, fun hM => ?_, fun hM => ?_⟩
  all_goals
    simp only [Fields.high, hM] at hw
    simp only [decode21, decode22, decode24, decode29, decode2C, decode31, decode33]
    split
  all_goals simp only [encodes_error, encodes_zero, encodes_ok]
  all_goals
    intros
    refine ⟨rfl, pack_eq ?_⟩
    simp_all []
  all_goals omega

theorem service_majors_encode (hw : w.toNat = f.high + f.d.toNat * 2 ^ 18 + f.a.toNat * 2 ^ 11 + f.b.toNat * 2 ^ 4 + f.min) :
    (f.maj = 0x34 → Encodes w (decode34 f)) ∧
    (f.maj = 0x38 → Encodes w (decode38 f)) ∧
    (f.maj = 0x39 → Encodes w (decode39 f)) ∧
    (f.maj = 0x3A → Encodes w (decode3A f)) ∧
    (f.maj = 0x3B → Encodes w (decode3B f)) := by
  refine ⟨fun hM => ?_, fun hM => ?_, fun hM => ?_, fun hM => ?_, fun hM => ?_⟩
  all_goals
    simp only [Fields.high, hM] at hw
    simp only [decode34, decode38, decode39, decode3A, decode3B]
    split
  all_goals simp only [encodes_error, encodes_zero, encodes_ok]
  all_goals
    intros
    refine ⟨rfl, pack_eq ?_⟩
    simp_all []
  all_goals omega

theorem memory_majors_encode (hw : w.toNat = f.high + f.d.toNat * 2 ^ 18 + f.a.toNat * 2 ^ 11 + f.cap.toNat * 2 ^ 8 + f.look.toNat * 2 ^ 4 + f.min) :
    (f.maj = 0x18 → Encodes w (decode18 f)) ∧
    (f.maj = 0x19 → Encodes w (decode19 f)) ∧
    (f.maj = 0x1A → Encodes w (decode1A f)) ∧
    (f.maj = 0x1B → Encodes w (decode1B f)) ∧
    (f.maj = 0x1D → Encodes w (decode1D f)) ∧
    (f.maj = 0x2D → Encodes w (decode2D f)) := by
  refine ⟨fun hM => ?_, fun hM => ?_, fun hM => ?_, fun hM => ?_, fun hM => ?_, fun hM => ?_⟩
  all_goals
    simp only [Fields.high, hM] at hw
    simp only [decode18, decode19, decode1A, decode1B, decode1D, decode2D]
    split
  all_goals simp only [encodes_error, encodes_ok]
  all_goals
    refine ⟨rfl, pack_eq ?_⟩
    simp_all [Hint.code, NarrowTy.code, StW.code, Scope.code, Aop.code]
  all_goals omega

theorem transfer_majors_encode
    (hw : w.toNat = f.high + f.tag.toNat * 2 ^ 19 + f.capd.toNat * 2 ^ 16 + f.caps.toNat * 2 ^ 13 + f.fa.toNat * 2 ^ 6 + f.min6) :
    (f.maj = 0x20 → Encodes w (decode20 f)) ∧
    (f.maj = 0x23 → Encodes w (decode23 f)) ∧
    (f.maj = 0x28 → Encodes w (decode28 f)) := by
  refine ⟨fun hM => ?_, fun hM => ?_, fun hM => ?_⟩
  all_goals
    simp only [Fields.high, hM] at hw
    simp only [decode20, decode23, decode28]
    split
  all_goals simp only [encodes_error, encodes_zero, encodes_ok]
  all_goals
    intros
    refine ⟨rfl, pack_eq ?_⟩
    simp_all []
  all_goals omega

theorem branch_majors_encode (hw : w.toNat = f.high + f.d.toNat * 2 ^ 18 + f.j.toNat * 2 ^ 15 + f.disp.toNat) :
    (f.maj = 0x30 → Encodes w (decode30 f)) ∧
    (f.maj = 0x32 → Encodes w (decode32 f)) := by
  refine ⟨fun hM => ?_, fun hM => ?_⟩
  all_goals
    simp only [Fields.high, hM] at hw
    simp only [decode30, decode32]
    split
  all_goals simp only [encodes_error, encodes_zero, encodes_ok]
  all_goals
    intros
    refine ⟨rfl, pack_eq ?_⟩
    simp only [placed_nil, placed_cons, beq_iff_eq] at *
  all_goals bv_omega

theorem fence_major_encode (hw : w.toNat = f.high + f.d.toNat * 2 ^ 18 + f.a.toNat * 2 ^ 11 + f.b.toNat * 2 ^ 4 + f.min)
    (hl : w.toNat = f.high + f.d.toNat * 2 ^ 18 + f.a.toNat * 2 ^ 11 + f.cap.toNat * 2 ^ 8 + f.look.toNat * 2 ^ 4 + f.min) :
    (f.maj = 0x1F → Encodes w (decode1F f)) := by
  intro hM
  simp only [Fields.high, hM] at hw hl
  simp only [decode1F]
  split
  all_goals simp only [encodes_error, encodes_zero, encodes_ok]
  all_goals
    intros
    refine ⟨rfl, pack_eq ?_⟩
    simp only [placed_nil, placed_cons, Scope.code, Bool.toNat_false, Bool.toNat_true, Bool.and_eq_true, beq_iff_eq] at *
  all_goals bv_omega

theorem immediate_majors_encode (hw : w.toNat = f.high + f.d.toNat * 2 ^ 18 + f.a.toNat * 2 ^ 11 + f.imm.toNat) :
    (f.maj = 0x04 → Encodes w (decode04 f)) ∧
    (f.maj = 0x05 → Encodes w (decode05 f)) ∧
    (f.maj = 0x06 → Encodes w (decode06 f)) ∧
    (f.maj = 0x07 → Encodes w (decode07 f)) := by
  refine ⟨fun hM => ?_, fun hM => ?_, fun hM => ?_, fun hM => ?_⟩
  all_goals simp only [Fields.high, hM] at hw
  · unfold decode04
    split
    next ha =>
      refine encodes_ok.2 ⟨rfl, pack_eq ?_⟩
      simp only [placed_nil, placed_cons]
      bv_omega
    next ha =>
      refine encodes_ok.2 ⟨bne_iff_ne.2 ha, pack_eq ?_⟩
      simp only [placed_nil, placed_cons]
      omega
  all_goals
    refine encodes_ok.2 ⟨rfl, pack_eq ?_⟩
    simp only [placed_nil, placed_cons]
    omega

theorem CTy.code_of_ofCode? {n : Nat} {y : CTy} (h : CTy.ofCode? n = some y) : y.code = n := by
  unfold CTy.ofCode? at h
  split at h <;> cases h <;> rfl

theorem RMode.code_ofCode {n : Nat} (h : n < 4) : (RMode.ofCode n).code = n := by interval_cases n <;> rfl
theorem Ord.code_ofCode {n : Nat} (h : n < 4) : (Ord.ofCode n).code = n := by interval_cases n <;> rfl
theorem Scp.code_ofCode {n : Nat} (h : n < 4) : (Scp.ofCode n).code = n := by interval_cases n <;> rfl

theorem convert_major_encode (hw : w.toNat = f.high + f.d.toNat * 2 ^ 18 + f.a.toNat * 2 ^ 11 + f.b.toNat * 2 ^ 4 + f.min)
    (hM : f.maj = 0x11) : Encodes w (decode11 f) := by
  simp only [Fields.high, hM] at hw
  unfold decode11
  split
  next y e hy he =>
    split
    next => exact (encodes_error w _).2 trivial
    next hsat =>
      refine encodes_ok.2 ⟨?_, pack_eq ?_⟩
      · exact (Bool.not_eq_true' _).mpr (eq_false_of_ne_true hsat)
      · rw [CTy.code_of_ofCode? hy, CTy.code_of_ofCode? he, RMode.code_ofCode (Nat.mod_lt _ (by decide)), toNat_parity]
        simp only [placed_nil, placed_cons]
        omega
  next => exact (encodes_error w _).2 trivial

theorem slotConvert_major_encode (hw : w.toNat = f.high + f.d.toNat * 2 ^ 18 + f.a.toNat * 2 ^ 11 + f.b.toNat * 2 ^ 4 + f.min)
    (hmin : f.min < 16) (hM : f.maj = 0x12) : Encodes w (decode12 f) := by
  simp only [Fields.high, hM] at hw
  unfold decode12
  split
  all_goals
    refine encodes_ok.2 ⟨rfl, pack_eq ?_⟩
    simp only [placed_nil, placed_cons, BitVec.toNat_ofNat]
    omega

theorem atomic_major_encode
    (hw : w.toNat = f.high + f.d.toNat * 2 ^ 18 + f.a.toNat * 2 ^ 11 + f.cap.toNat * 2 ^ 8 + f.look.toNat * 2 ^ 4 + f.min)
    (hM : f.maj = 0x1C) : Encodes w (decode1C f) := by
  have hord : (Ord.ofCode (f.look.toNat / 4)).code = f.look.toNat / 4 := Ord.code_ofCode (by omega)
  have hscp : (Scp.ofCode (f.look.toNat % 4)).code = f.look.toNat % 4 := Scp.code_ofCode (by omega)
  simp only [Fields.high, hM] at hw
  simp only [decode1C]
  split
  all_goals simp only [encodes_error, encodes_ok]
  all_goals
    refine ⟨rfl, pack_eq ?_⟩
    simp only [placed_nil, placed_cons, hord, hscp, Aop.code]
    omega

theorem orderedAtomic_major_encode
    (hw : w.toNat = f.high + f.d.toNat * 2 ^ 18 + f.a.toNat * 2 ^ 11 + f.cap.toNat * 2 ^ 8 + f.look.toNat * 2 ^ 4 + f.min)
    (hM : f.maj = 0x1E) : Encodes w (decode1E f) := by
  have hord : (Ord.ofCode (f.look.toNat / 4)).code = f.look.toNat / 4 := Ord.code_ofCode (by omega)
  have hscp : (Scp.ofCode (f.look.toNat % 4)).code = f.look.toNat % 4 := Scp.code_ofCode (by omega)
  simp only [Fields.high, hM] at hw
  by_cases h0 : f.look.toNat / 4 = 0
  · simp only [decode1E, if_pos h0]
    split
    all_goals exact (encodes_error w _).2 trivial
  · have hrlx : (Ord.ofCode (f.look.toNat / 4) != .rlx) = true := bne_iff_ne.2 fun h => h0 (by rw [← hord, h]; rfl)
    simp only [decode1E, if_neg h0]
    split
    all_goals simp only [encodes_error, encodes_ok]
    all_goals
      refine ⟨hrlx, pack_eq ?_⟩
      simp only [placed_nil, placed_cons, hord, hscp, Aop.code]
      omega

end

theorem decodeLane_encodes (w : Word) (hl : w.toNat / 2 ^ 25 % 64 ≠ 0x3E) : Encodes w (decodeLane w 0) := by
  have hdab := toNat_of_dab w
  have hlook := toNat_of_look w
  have hdisp := toNat_of_disp w
  have htag := toNat_of_tag w
  have himm := toNat_of_imm w
  have hmin : (fieldsOf w.toNat).min < 16 := Nat.mod_lt _ (by decide)
  have hmaj : (fieldsOf w.toNat).maj ≠ 0x3E := hl
  unfold decodeLane
  generalize fieldsOf w.toNat = f at *
  obtain ⟨e00, e01, e02, e03⟩ := integer_majors_encode w f hdab
  obtain ⟨e04, e05, e06, e07⟩ := immediate_majors_encode w f himm
  obtain ⟨e08, e09, e0A, e10⟩ := float_majors_encode w f hdab
  obtain ⟨e13, e14, e15, e16, e17⟩ := crossLane_majors_encode w f hdab
  obtain ⟨e18, e19, e1A, e1B, e1D, e2D⟩ := memory_majors_encode w f hlook
  obtain ⟨e20, e23, e28⟩ := transfer_majors_encode w f htag
  obtain ⟨e21, e22, e24, e29, e2C, e31, e33⟩ := control_majors_encode w f hdab
  obtain ⟨e30, e32⟩ := branch_majors_encode w f hdisp
  obtain ⟨e34, e38, e39, e3A, e3B⟩ := service_majors_encode w f hdab
  have e11 := convert_major_encode w f hdab
  have e12 := slotConvert_major_encode w f hdab hmin
  have e1C := atomic_major_encode w f hlook
  have e1E := orderedAtomic_major_encode w f hlook
  have e1F := fence_major_encode w f hdab hlook
  simp only
  split
  case h_46 hM => exact absurd hM hmaj
  case h_47 => exact (encodes_error w _).2 trivial
  all_goals
    rename_i hM
    simp only [hM, forall_const] at *
    assumption

/-- MOVL's words (R56). -/
theorem movl_encodes {w lit : Word} {i : Instr} (hl : w.toNat / 2 ^ 25 % 64 = 0x3E) (h : decodeLane w lit = .ok i) :
    i.wf = true ∧ encode i = [w, lit] := by
  have hw := toNat_of_dab w
  have hM : (fieldsOf w.toNat).maj = 0x3E := hl
  unfold decodeLane at h
  generalize fieldsOf w.toNat = f at *
  simp only [hM] at h
  split at h
  next => cases h
  next hc =>
    unfold zero at h
    split at h
    next hz =>
      cases h
      have hp : [pack 0 0x7C000000 [(f.d.toNat, 18)]] = [w] := by
        refine pack_eq ?_
        simp only [Bool.and_eq_true, beq_iff_eq] at hz
        obtain ⟨⟨ha, hb⟩, hm⟩ := hz
        simp only [Bool.not_eq_true] at hc
        simp only [Fields.high, hM, ha, hb, hm, hc, Bool.toNat_false] at hw
        simp only [placed_nil, placed_cons]
        bv_omega
      exact ⟨rfl, congrArg (· ++ [lit]) hp⟩
    next => cases h

/-! ### The sequencers' words (R59, Table 3.5) -/

theorem decodeM_encodes (w : Word) : Encodes w (decodeM w) := by
  have hlt := w.isLt
  simp only [decodeM]
  split
  case h_4 =>
    refine encodes_zero.2 fun hz => ?_
    simp only [Bool.and_eq_true, beq_iff_eq] at hz
    split
    all_goals
      refine encodes_zero.2 fun hz' => encodes_ok.2 ⟨rfl, pack_eq ?_⟩
      simp only [placed_nil, placed_cons, beq_iff_eq] at *
      bv_omega
  all_goals simp only [encodes_error, encodes_zero, encodes_ok]
  all_goals
    intros
    refine ⟨rfl, pack_eq ?_⟩
    simp only [placed_nil, placed_cons, toNat_parity, Bool.and_eq_true, beq_iff_eq] at *
  all_goals bv_omega

theorem decodeE_encodes (w : Word) : Encodes w (decodeE w) := by
  have hlt := w.isLt
  simp only [decodeE]
  split
  all_goals simp only [encodes_error, encodes_zero, encodes_ok]
  all_goals
    intros
    refine ⟨rfl, pack_eq ?_⟩
    simp only [placed_nil, placed_cons, Bool.and_eq_true, beq_iff_eq] at *
  all_goals bv_omega

theorem Proofs.oneWordEach : OneWordEach := fun w _lit i =>
  ⟨fun hl h => decodeLane_encodes w hl i h, fun hl h => movl_encodes hl h, fun h => decodeM_encodes w i h, fun h => decodeE_encodes w i h⟩

/-- Settles O60: an instruction's words are the sum of its fields, which the decoder takes apart again; and what decodes has a
required zero in every field that its encoding does not write. -/
theorem Proofs.encodingsRoundTrip : Obligations.EncodingsRoundTrip := ⟨Proofs.encodingsAreRead, Proofs.oneWordEach⟩

end Sys2Proof
end

section
/-! Lanes of a group changed one after another, each by what it then holds. -/

namespace Sys2Proof.Machine

open Sys2Proof Sys2Proof.Claims

/-- A step that changes lane l of group gk, to F of what it holds, and nothing else of the states that s's issue stands in. -/
def LaneStep (s : State) (gk : Nat) (f : State → Nat → State) (F : Nat → Lane → Lane) : Prop :=
  ∀ x l, x.iss = s.iss → OnlyLanes x (f x l) ∧ ∀ k, (f x l).lane k = if k = lkOf gk l then F l (x.lane k) else x.lane k

theorem onlyLanes_trans {a b c : State} (hab : OnlyLanes a b) (hbc : OnlyLanes b c) : OnlyLanes a c := by
  obtain ⟨A, hA⟩ : ∃ A, b = { a with g := { a.g with lanes := A } } := ⟨_, hab⟩
  obtain ⟨B, hB⟩ : ∃ B, c = { b with g := { b.g with lanes := B } } := ⟨_, hbc⟩
  subst hA hB
  rfl

/-- The lanes of a list changed in turn: each once, and no other. -/
theorem LaneStep.foldl {s : State} {gk : Nat} {f : State → Nat → State} {F : Nat → Lane → Lane} (hf : LaneStep s gk f F) (x : State)
    (hx : x.iss = s.iss) (ls : List Nat) (hls : ls.Nodup) :
    OnlyLanes x (ls.foldl f x) ∧ (∀ l ∈ ls, (ls.foldl f x).lane (lkOf gk l) = F l (x.lane (lkOf gk l))) ∧
      ∀ k, (∀ l ∈ ls, k ≠ lkOf gk l) → (ls.foldl f x).lane k = x.lane k := by
  induction ls generalizing x with
  | nil => exact ⟨rfl, nofun, fun _ _ => rfl⟩
  | cons m ms ih =>
    obtain ⟨hm, hms⟩ := List.nodup_cons.mp hls
    obtain ⟨hstep, hlane⟩ := hf x m hx
    have hiss : (f x m).iss = s.iss := by rw [hstep]; exact hx
    obtain ⟨hrest, hin, hout⟩ := ih (f x m) hiss hms
    rw [List.foldl_cons]
    refine ⟨onlyLanes_trans hstep hrest, fun l hl => ?_, fun k hk => ?_⟩
    · rcases List.mem_cons.mp hl with rfl | hl
      · rw [hout _ fun l' hl' e => hm (by rwa [(lkOf_inj _ _ _).mp e]), hlane, if_pos rfl]
      · rw [hin l hl, hlane, if_neg fun e => hm (by rwa [← (lkOf_inj _ _ _).mp e])]
    · rw [hout k fun l hl => hk l (List.mem_cons_of_mem _ hl), hlane, if_neg (hk m List.mem_cons_self)]

/-- One lane changed by its own record. -/
theorem laneStep_modLane (s : State) (gk : Nat) (F : Nat → Lane → Lane) : LaneStep s gk (fun x l => x.modLane (lkOf gk l) (F l)) F :=
  fun x _ _ => ⟨rfl, fun k => State.lane_modLane x _ _ k⟩

/-- The lanes of an issue changed in turn: what LanesBecome says. -/
theorem LaneStep.each {s : State} {f : State → Nat → State} {F : Nat → Lane → Lane} (hf : LaneStep s s.iss.gk f F)
    (hls : s.iss.lanes.Pairwise (· < ·)) : OnlyLanes s (s.each f) ∧ LanesBecome s (s.each f) F := by
  obtain ⟨hframe, hin, hout⟩ := hf.foldl s rfl s.iss.lanes (lanes_nodup hls)
  exact ⟨hframe, hin, hout⟩

end Sys2Proof.Machine
end

section
/-! What follows a word of a chain (O56, R46-R49): its lanes' windows count it, a parked lane's results land, and the issue goes on to
the next slot or is over. -/

namespace Sys2Proof.Machine

open Sys2Proof Sys2Proof.Claims

/-! ### A word counted for its lanes -/

/-- A word counted for one lane of the issue that stands in s0. -/
def State.countLane (s0 : State) (i : Instr) (s : State) (l : Nat) : State :=
  if ranWord (s0.lane (lkOf s0.iss.gk l)) (s.lane (lkOf s0.iss.gk l)) s0.here then
    s.modLane (lkOf s0.iss.gk l) fun x =>
      x.counted (s0.lane (lkOf s0.iss.gk l)).windows.length ((s0.lane (lkOf s0.iss.gk l)).resume.isSome && (lookOf i).isSome)
        (s0.group s0.iss.gk).pair
  else s

/-- The word counted for each of some lanes. -/
def State.countLanes (s0 : State) (i : Instr) (s : State) (ls : List Nat) : State := ls.foldl (s0.countLane i) s

/-- What counting makes of a lane. -/
def State.counts (s0 : State) (i : Instr) (l : Nat) (x : Lane) : Lane :=
  if ranWord (s0.lane (lkOf s0.iss.gk l)) x s0.here then
    x.counted (s0.lane (lkOf s0.iss.gk l)).windows.length ((s0.lane (lkOf s0.iss.gk l)).resume.isSome && (lookOf i).isSome)
      (s0.group s0.iss.gk).pair
  else x

theorem State.counts_st (s0 : State) (i : Instr) (l : Nat) (x : Lane) : (s0.counts i l x).st = x.st := by
  unfold counts
  split <;> rfl

theorem laneStep_countLane (s0 : State) (i : Instr) (s : State) : LaneStep s s0.iss.gk (s0.countLane i) (s0.counts i) := by
  intro x l _
  unfold State.countLane State.counts
  split
  next h =>
    refine ⟨rfl, fun k => ?_⟩
    rw [State.lane_modLane]
    split
    next hk => rw [hk, if_pos h]
    next => rfl
  next h =>
    refine ⟨rfl, fun k => ?_⟩
    split
    next hk => rw [hk, if_neg h]
    next => rfl

theorem State.countLanes_st (s0 : State) (i : Instr) (s : State) {ls : List Nat} (hls : ls.Nodup) (k : Nat) :
    ((s0.countLanes i s ls).lane k).st = (s.lane k).st := by
  obtain ⟨-, hin, hout⟩ := (laneStep_countLane s0 i s).foldl s rfl ls hls
  by_cases hk : ∃ l ∈ ls, k = lkOf s0.iss.gk l
  · obtain ⟨l, hl, rfl⟩ := hk
    exact (congrArg Lane.st (hin l hl)).trans (counts_st _ _ _ _)
  · exact congrArg Lane.st (hout k fun l hl e => hk ⟨l, hl, e⟩)

theorem filterMap_range_getElem? {α β : Type} (f : α → β) (l : List α) :
    (List.range l.length).filterMap (fun n => (l[n]?).map f) = l.map f := by
  induction l using List.reverseRecOn with
  | nil => rfl
  | append_singleton l a ih =>
    have hinit : (List.range l.length).filterMap (fun n => ((l ++ [a])[n]?).map f) = l.map f := by
      rw [← ih]
      refine List.filterMap_congr fun n hn => ?_
      rw [List.getElem?_append_left (List.mem_range.mp hn)]
    rw [List.length_append, List.length_singleton, List.range_succ, List.filterMap_append, hinit]
    simp

/-- What a ready lane that took no trap looks like after its word is counted (R48). -/
theorem Lane.counted_eq (x : Lane) {old : Nat} (again : Bool) (hold : x.windows.length = old) (ha : again = false) :
    x.counted old again false =
      { x with windows := (x.windows.map fun w => { w with left := w.left - 1, issued := w.issued + 1 }).filter
                 fun w => w.left ≠ 0 || w.ev ≠ 0 } := by
  subst hold ha
  have hfilter : (fun w : Win => !(w.left = 0 && w.ev = 0)) = fun w => w.left ≠ 0 || w.ev ≠ 0 := by
    funext w
    simp
  rw [counted, hfilter, ← filterMap_range_getElem?]
  congr 2
  refine List.filterMap_congr fun n hn => ?_
  simp [List.mem_range.mp hn]

theorem ranWord_of_ready {before after : Lane} (p : Pc) (hst : after.st = .ready) (hi : after.intrap = before.intrap) :
    ranWord before after p = true := by
  unfold ranWord
  rw [hst, hi]
  simp

theorem State.ite_modGroup_groups {c s : State} {gk : Nat} {f : Group → Group} {b : Prop} [Decidable b]
    (h : ∃ gs, s = { c with g := { c.g with groups := gs } }) :
    ∃ gs, (if b then s.modGroup gk f else s) = { c with g := { c.g with groups := gs } } := by
  obtain ⟨gs, rfl⟩ := h
  split
  · exact ⟨_, rfl⟩
  · exact ⟨gs, rfl⟩

/-- What follows a word for its lanes touches the lanes that ran it, and no group but in what the issue former keeps of it. -/
theorem State.afterLanes_eq (s0 s : State) (i : Instr) :
    ∃ gs, s0.afterLanes s i = { s0.countLanes i s s0.iss.lanes with g := { (s0.countLanes i s s0.iss.lanes).g with groups := gs } } := by
  unfold afterLanes
  extract_lets gk p pair c sw c'
  have hc : c = s0.countLanes i s s0.iss.lanes := rfl
  clear_value c sw
  subst hc
  exact ite_modGroup_groups (ite_modGroup_groups ⟨_, rfl⟩)

/-! ### Results to land -/

theorem State.settle_of_not_parked (s : State) {lk : Nat} (h : ∀ f, (s.lane lk).st ≠ .parked f) : s.settle lk = s := by
  unfold settle
  split
  next f hf => exact absurd hf (h f)
  next => rfl

theorem State.settleAll_of_not_parked (s : State) (gk : Nat) {ls : List Nat} (h : ∀ l ∈ ls, ∀ f, (s.lane (lkOf gk l)).st ≠ .parked f) :
    s.settleAll gk ls = s := by
  unfold settleAll
  induction ls with
  | nil => rfl
  | cons l ls ih =>
    rw [List.foldl_cons, settle_of_not_parked s (h l List.mem_cons_self)]
    exact ih fun m hm => h m (List.mem_cons_of_mem _ hm)

/-! ### The three parts -/

theorem State.afterWord_of_inChain {s t : State} (i : Instr) (ht : t.iss.words ≠ 0) (hs : 1 < s.iss.words) :
    s.afterWord t i = { (s.afterLanes t i).settleAll s.iss.gk s.iss.all with
      iss := { s.iss with words := s.iss.words - 1, slot := s.iss.slot + 1 } } := by
  unfold afterWord
  rw [if_neg ht, if_neg (by omega)]

theorem State.laneEnd_iss (s : State) (gk l : Nat) : (s.laneEnd gk l).iss = s.iss := by
  unfold laneEnd
  extract_lets lk s' x
  split
  · exact haltLane_iss _ _ _ _
  · split
    · exact haltLane_iss _ _ _ _
    · rfl

theorem State.nextFill_of_nil {s : State} (h : s.iss.fill = []) : s.nextFill = { s with iss := {} } := by
  unfold nextFill
  rw [h]

theorem State.afterWord_iss_of_last {s t : State} (i : Instr) (ht : t.iss.words ≠ 0) (hs : s.iss.words ≤ 1) (hf : s.iss.fill = []) :
    (s.afterWord t i).iss = {} := by
  unfold afterWord
  rw [if_neg ht]
  dsimp only
  rw [if_pos hs, nextFill_of_nil]
  rw [foldl_iss _ (fun _ _ => by exact laneEnd_iss _ _ _) _ _]
  exact hf

/-- Where no result is to land, all that a word leaves within its chain is its count in the windows of its lanes, what the issue former
keeps of groups, and the place of the next word. -/
theorem State.afterWord_eq_of_notParked {s t : State} (i : Instr) (ht : t.iss.words ≠ 0) (hs : 1 < s.iss.words)
    (hls : s.iss.lanes.Pairwise (· < ·)) (hpark : ∀ l ∈ s.iss.all, ∀ f, (t.lane (lkOf s.iss.gk l)).st ≠ .parked f) :
    ∃ gs, s.afterWord t i = { t with
      g := { t.g with lanes := (s.countLanes i t s.iss.lanes).g.lanes, groups := gs }
      iss := { s.iss with words := s.iss.words - 1, slot := s.iss.slot + 1 } } := by
  obtain ⟨gs, hgs⟩ := s.afterLanes_eq t i
  have hframe : OnlyLanes t (s.countLanes i t s.iss.lanes) :=
    ((laneStep_countLane s i t).foldl t rfl s.iss.lanes (lanes_nodup hls)).1
  rw [hframe] at hgs
  have hset : (s.afterLanes t i).settleAll s.iss.gk s.iss.all = s.afterLanes t i := by
    refine settleAll_of_not_parked _ _ fun l hl f => ?_
    have hst := s.countLanes_st i t (lanes_nodup hls) (lkOf s.iss.gk l)
    rw [hgs]
    exact fun h => hpark l hl f (hst.symm.trans h)
  exact ⟨gs, by rw [afterWord_of_inChain i ht hs, hset, hgs]⟩

end Sys2Proof.Machine

namespace Sys2Proof.Proofs

open Sys2Proof.Machine

/-- Settles O56: the issue's place is what afterWord writes; and where nothing lands, all that is left of it is the count of the word in
the windows of its lanes. -/
theorem wordsOfAnIssue : Obligations.WordsOfAnIssue := by
  unfold Obligations.WordsOfAnIssue
  refine ⟨fun s t i ht hs => ?_, fun s t i ht hs hf => State.afterWord_iss_of_last i ht hs hf, ?_⟩
  · rw [State.afterWord_of_inChain i ht hs]
  · intro s t i ht hs hls hpark
    obtain ⟨gs, hu⟩ := State.afterWord_eq_of_notParked i ht hs hls hpark
    dsimp only
    rw [hu]
    obtain ⟨-, hin, hout⟩ := (laneStep_countLane s i t).foldl t rfl s.iss.lanes (lanes_nodup hls)
    refine ⟨rfl, rfl, rfl, rfl, rfl, rfl, rfl, hout, fun l hl hst hi hres hpair hwin => ⟨_, ?_, rfl⟩⟩
    refine (hin l hl).trans ?_
    rw [State.counts, if_pos (ranWord_of_ready s.here hst hi), hpair]
    exact Lane.counted_eq _ _ hwin (by rw [hres]; rfl)

end Sys2Proof.Proofs
end

section
/-! Words written out from the tables decode (O59). -/

namespace Sys2Proof.Proofs

/-- Settles O59: each word is a numeral, so the decoder computes what it stands for. -/
theorem wordsDecode : Obligations.WordsDecode := by
  unfold Obligations.WordsDecode
  and_intros
  all_goals rfl

end Sys2Proof.Proofs
end

section
/-! Branches, YIELD and WAITC, and the rejoin masks (O11, R117, R120-R122). -/

namespace Sys2Proof.Machine

open Sys2Proof Sys2Proof.Claims

/-! ### Words whose lanes go on, each by its own record -/

theorem group_of_onlyLanes {s t : State} (h : OnlyLanes s t) (k : Nat) : t.group k = s.group k := by rw [h]; rfl

theorem groupBecomes_of_onlyLanes {s t : State} (h : OnlyLanes s t) : GroupBecomes s t (s.group s.iss.gk) := by
  intro k
  rw [group_of_onlyLanes h]
  split
  next hk => rw [hk]
  next => rfl

/-- A word that only changes its lanes, and leaves none of them waiting at it. -/
theorem State.laneWord_onlyWent {s : State} {i : Instr} {body : State → State} {F : Nat → Lane → Lane} (h : Issues s i)
    (hbody : OnlyLanes s (body s)) (hl : LanesBecome s (body s) F) (haw : ∀ l x, x.atWord = false → (F l x).atWord = false) :
    OnlyWent s (s.laneWord i body) i F := by
  have heq : s.laneWord i body = if popsQ1 i then (body s).popQ1 s.iss.gk else body s := by
    refine State.laneWord_eq s i body h fun hp l hm => ?_
    obtain ⟨-, -, -, hq⟩ := h
    rw [hl.1 l hm]
    exact haw _ _ ((hq hp).2 l hm).2
  rw [heq]
  refine ⟨?_, ⟨fun l hm => (popQ1_lane _ _ _ _).trans (hl.1 l hm), fun k hk => (popQ1_lane _ _ _ _).trans (hl.2 k hk)⟩,
    popped_group s (body s) i id (fun _ _ => rfl) (fun _ => rfl) (groupBecomes_of_onlyLanes hbody)⟩
  obtain ⟨G, hG⟩ : ∃ G, (if popsQ1 i then (body s).popQ1 s.iss.gk else body s) = { body s with g := { (body s).g with groups := G } } :=
    ⟨_, popQ1_frame _ _ _⟩
  obtain ⟨L, hL⟩ : ∃ L, body s = { s with g := { s.g with lanes := L } } := ⟨_, hbody⟩
  rw [hG, hL]

/-- A word that takes nothing from q1 does its own effect. -/
theorem State.laneWord_of_not_popsQ1 {s : State} {i : Instr} (body : State → State) (h : Issues s i) (hp : popsQ1 i = false) :
    s.laneWord i body = body s := by
  rw [State.laneWord_eq s i body h fun h' => by simp [hp] at h', hp]
  rfl

theorem onlyLanes_advAll (s : State) : OnlyLanes s s.advAll := State.modLanes_frame _ _ _ _

theorem allAdvance_advAll {s : State} (h : s.iss.lanes.Pairwise (· < ·)) : AllAdvance s s.advAll := State.modLanes_become s _ h

/-! ### Branches (R117) -/

theorem Lane.take_atWord (l : Lane) (p : Pc) : (l.take p).atWord = l.atWord := rfl

/-- A lane at a branch: it goes to slot 0 of its target, or on. -/
def branched (taken : Nat → Bool) (target : Nat → Nat) (l : Nat) (x : Lane) : Lane :=
  if taken l then toPacket (target l) x else x.advance

theorem laneStep_branch (s : State) (taken : Nat → Bool) (target : Nat → Nat) :
    LaneStep s s.iss.gk (fun x l => if taken l then x.jump l (target l) else x.advLane (lkOf s.iss.gk l)) (branched taken target) := by
  intro x l hx
  simp only [branched]
  cases taken l
  · exact ⟨rfl, fun k => State.lane_modLane x _ _ k⟩
  · refine ⟨rfl, fun k => ?_⟩
    rw [← hx]
    exact State.lane_modLane x (lkOf x.iss.gk l) (·.take { pkt := target l, slot := 0 }) k

theorem State.branch_onlyWent {s : State} {i : Instr} (taken : Nat → Bool) (target : Nat → Nat) (h : Issues s i) :
    OnlyWent s (s.branch i taken target) i (branched taken target) := by
  have hls := h.2.1
  obtain ⟨hframe, hlanes⟩ := (laneStep_branch s taken target).each hls
  refine State.laneWord_onlyWent h hframe hlanes fun l x hx => ?_
  unfold branched
  split
  · exact hx
  · rw [Lane.advance_atWord, hx]

theorem exec_br (c : Bool) (x : BitVec 15) (s : State) :
    exec (.br c x) s = .next (s.branch (.br c x) (fun _ => true) (fun _ => fbTarget s.iss.pkt x)) := rfl
theorem exec_brz (c : Bool) (a : Opc) (x : BitVec 15) (s : State) :
    exec (.brz c a x) s = .next (s.branch (.brz c a x) (fun l => s.src s.iss.gk l a == 0) (fun _ => fbTarget s.iss.pkt x)) := rfl
theorem exec_brnz (c : Bool) (a : Opc) (x : BitVec 15) (s : State) :
    exec (.brnz c a x) s = .next (s.branch (.brnz c a x) (fun l => s.src s.iss.gk l a != 0) (fun _ => fbTarget s.iss.pkt x)) := rfl
theorem exec_brx (c : Bool) (a : Opc) (s : State) :
    exec (.brx c a) s = .next (s.branch (.brx c a) (fun _ => true) (fun l => regTarget (s.src s.iss.gk l a))) := rfl

theorem onlyWent_congr {s t : State} {i : Instr} {F G : Nat → Lane → Lane} (h : OnlyWent s t i F) (hFG : ∀ l, F l = G l) :
    OnlyWent s t i G := (funext hFG : F = G) ▸ h

theorem branches : Claims.Branches := by
  intro s c a x
  refine ⟨fun h => ⟨_, exec_br c x s, onlyWent_congr (State.branch_onlyWent _ _ h) fun l => rfl⟩,
    fun h => ⟨_, exec_brz c a x s, onlyWent_congr (State.branch_onlyWent _ _ h) fun l => ?_⟩,
    fun h => ⟨_, exec_brnz c a x s, onlyWent_congr (State.branch_onlyWent _ _ h) fun l => ?_⟩,
    fun h => ⟨_, exec_brx c a s, onlyWent_congr (State.branch_onlyWent _ _ h) fun l => rfl⟩⟩
  · by_cases h0 : s.src s.iss.gk l a = 0
    · rw [if_pos h0]
      exact funext fun y => if_pos (beq_iff_eq.mpr h0)
    · rw [if_neg h0]
      exact funext fun y => if_neg fun e => h0 (beq_iff_eq.mp e)
  · by_cases h0 : s.src s.iss.gk l a = 0
    · rw [if_neg (not_not.mpr h0)]
      exact funext fun y => if_neg fun e => bne_iff_ne.mp e h0
    · rw [if_pos h0]
      exact funext fun y => if_pos (bne_iff_ne.mpr h0)

/-! ### YIELD and WAITC (R121, R122) -/

theorem exec_yield (c : Bool) (s : State) : exec (.yield c) s =
    .next (s.laneWord (.yield c) (fun s => (s.modGroup s.iss.gk (fun g => { g with yielded := some s.here.next })).advAll)) := rfl

/-- A lane at WAITC: it waits for its clocks after the word, or goes on where there are none. -/
def waited (v : Nat → Nat) (l : Nat) (x : Lane) : Lane := if v l = 0 then x.advance else Waits (.clocks (v l)) x.advance

theorem laneStep_waitc (s : State) (v : Nat → Nat) :
    LaneStep s s.iss.gk (fun x l => if v l = 0 then x.advLane (lkOf s.iss.gk l)
      else (x.advLane (lkOf s.iss.gk l)).waitLanes s.iss.gk [l] (.clocks (v l))) (waited v) := by
  intro x l _
  simp only [waited]
  by_cases hv : v l = 0
  · simp only [if_pos hv]
    exact ⟨rfl, fun k => State.lane_modLane x _ _ k⟩
  · simp only [if_neg hv]
    refine ⟨rfl, fun k => ?_⟩
    show (((x.modLane (lkOf s.iss.gk l) Lane.advance).modLane (lkOf s.iss.gk l) (Lane.waitAt _)).lane k) = _
    rw [State.lane_modLane, State.lane_modLane]
    split
    · rfl
    · rfl

theorem exec_waitc (c : Bool) (a : Opc) (s : State) : exec (.waitc c a) s =
    .next (s.laneWord (.waitc c a) (fun s => s.each (fun x l =>
      let n := min (s.src s.iss.gk l a).toNat 65535
      let x := x.advLane (lkOf s.iss.gk l)
      if n = 0 then x else x.waitLanes s.iss.gk [l] (.clocks n)))) := rfl

theorem Lane.waitAt_st (w : Wait) (l : Lane) : (l.waitAt w).st = .waiting w := by
  unfold waitAt
  split <;> rfl

theorem Lane.waitAt_clocks_atWord (n : Nat) (l : Lane) : (l.waitAt (.clocks n)).atWord = false := by
  unfold atWord
  rw [waitAt_st]

theorem yieldAndWait : Claims.YieldAndWait := by
  intro s c a
  constructor
  · intro h
    have hls := h.2.1
    refine ⟨_, exec_yield c s, ?_⟩
    rw [State.laneWord_of_not_popsQ1 _ h rfl]
    have hframe := onlyLanes_advAll (s.modGroup s.iss.gk fun g => { g with yielded := some s.here.next })
    obtain ⟨hin, hout⟩ := allAdvance_advAll (s := s.modGroup s.iss.gk fun g => { g with yielded := some s.here.next }) hls
    refine ⟨?_, ⟨hin, hout⟩, fun k => ?_⟩
    · rw [hframe]
      rfl
    · rw [group_of_onlyLanes hframe, State.group_modGroup]
      split
      next hk => rw [hk]
      next => rfl
  · intro h
    have hls := h.2.1
    obtain ⟨hframe, hlanes⟩ := (laneStep_waitc s fun l => min (s.src s.iss.gk l a).toNat 65535).each hls
    have hwent := State.laneWord_onlyWent h (body := fun s => s.each (fun x l =>
      let n := min (s.src s.iss.gk l a).toNat 65535
      let x := x.advLane (lkOf s.iss.gk l)
      if n = 0 then x else x.waitLanes s.iss.gk [l] (.clocks n))) hframe hlanes fun l x hx => by
        unfold waited
        split
        · rw [Lane.advance_atWord, hx]
        · exact Lane.waitAt_clocks_atWord _ _
    exact ⟨_, exec_waitc c a s, hwent.frame, hwent.group, hwent.lanes⟩

end Sys2Proof.Machine
end

section
/-! The rejoin masks: which bits a word sets and clears, and the rule of release (O11, R120). -/

namespace Sys2Proof.Machine

open Sys2Proof Sys2Proof.Claims

/-! ### The bits of a mask -/

theorem getLsbD_cast_one_shiftLeft (l k : Nat) (hk : k < 64) : (((1 <<< l : Nat) : DWord)).getLsbD k = true ↔ k = l := by
  rw [BitVec.natCast_eq_ofNat, BitVec.getLsbD_ofNat, Nat.one_shiftLeft, Nat.testBit_two_pow]
  simp [hk, eq_comm]

theorem getLsbD_maskOf (ls : List Nat) (k : Nat) (hk : k < 64) : (maskOf ls).getLsbD k = true ↔ k ∈ ls := by
  have hfold : ∀ m : DWord, (ls.foldl (fun (m : DWord) l => m ||| (1 <<< l)) m).getLsbD k = true ↔ m.getLsbD k = true ∨ k ∈ ls := by
    induction ls with
    | nil => simp
    | cons l ls ih =>
      intro m
      rw [List.foldl_cons, ih, BitVec.getLsbD_or, Bool.or_eq_true, getLsbD_cast_one_shiftLeft l k hk, List.mem_cons, or_assoc]
  rw [maskOf, hfold]
  simp

theorem setBits_or (s : State) (m : DWord) : SetBits s m (m ||| maskOf s.iss.lanes) := fun k hk => by
  rw [BitVec.getLsbD_or, Bool.or_eq_true, getLsbD_maskOf _ k hk]

theorem getLsbD_and_not_maskOf (m : DWord) (ls : List Nat) (k : Nat) (hk : k < 64) :
    (m &&& ~~~ maskOf ls).getLsbD k = true ↔ m.getLsbD k = true ∧ k ∉ ls := by
  rw [BitVec.getLsbD_and, Bool.and_eq_true, BitVec.getLsbD_not, ← getLsbD_maskOf ls k hk]
  simp [hk]

theorem clearBits_and (s : State) (m : DWord) : ClearBits s m (m &&& ~~~ maskOf s.iss.lanes) := fun k hk =>
  getLsbD_and_not_maskOf m _ k hk

theorem State.jmask_setJ_ne (s : State) {gk n : Nat} (v : DWord) {k r : Nat} (hn : n < 8) (hr : r < 8) (h : ¬ (k = gk ∧ r = n)) :
    (s.setJ gk n v).jmask k r = s.jmask k r := by
  rw [State.jmask, State.jmask_setJ, if_neg fun e => h ((cKey_inj _ _ _ _ hr hn).mp e)]
  rfl

/-! ### The rule of release (R120) -/

theorem laneStep_release (s : State) (gk n : Nat) : LaneStep s gk
    (fun x l => if (x.lane (lkOf gk l)).waitsAt n then x.modLane (lkOf gk l) (Lane.released n) else x)
    (fun _ x => if x.waitsAt n = true then Lane.released n x else x) := by
  intro x l _
  dsimp only
  by_cases h : (x.lane (lkOf gk l)).waitsAt n = true
  · rw [if_pos h]
    refine ⟨rfl, fun k => ?_⟩
    rw [State.lane_modLane]
    split
    next hk => rw [hk, if_pos h]
    next => rfl
  · rw [if_neg h]
    refine ⟨rfl, fun k => ?_⟩
    split
    next hk => rw [hk, if_neg h]
    next => rfl

theorem State.rejoinRelease_eq (u : State) (gk n : Nat) : u.rejoinRelease gk n =
    if (u.lanesOf gk).all (fun l => !(u.jmask gk n).getLsbD l || (u.lane (lkOf gk l)).waitsAt n) then
      ((u.lanesOf gk).foldl (fun x l =>
        if (x.lane (lkOf gk l)).waitsAt n then x.modLane (lkOf gk l) (Lane.released n) else x) u).setJ gk n 0
    else u := rfl

theorem allParked_iff (u : State) (gk n : Nat) (m : DWord) :
    AllParked u gk n m ↔ (u.lanesOf gk).all (fun l => !m.getLsbD l || (u.lane (lkOf gk l)).waitsAt n) = true := by
  simp only [AllParked, State.lanesOf, List.all_eq_true, List.mem_range, Bool.or_eq_true, Bool.not_eq_true']
  refine forall₂_congr fun l _ => ?_
  cases m.getLsbD l <;> simp

theorem settled_rejoinRelease (u : State) (gk n : Nat) (hn : n < 8) : Settled u (u.rejoinRelease gk n) gk n (u.jmask gk n) := by
  rw [State.rejoinRelease_eq]
  by_cases hp : AllParked u gk n (u.jmask gk n)
  · rw [if_pos ((allParked_iff _ _ _ _).mp hp)]
    obtain ⟨hframe, hin, hout⟩ := (laneStep_release u gk n).foldl u rfl (u.lanesOf gk) List.nodup_range
    generalize (u.lanesOf gk).foldl _ u = v at hframe hin hout
    have hj : ∀ k r, v.jmask k r = u.jmask k r := fun k r => by rw [hframe]; rfl
    refine ⟨?_, fun _ => ⟨State.jmask_setJ_same _ _ _ _, fun l hl => hin l (List.mem_range.mpr hl)⟩, fun h => absurd hp h,
      fun k r hr hk => (State.jmask_setJ_ne _ _ hn hr hk).trans (hj k r), fun k hk => hout k fun l hl => hk l (List.mem_range.mp hl)⟩
    obtain ⟨L, hL⟩ : ∃ L, v = { u with g := { u.g with lanes := L } } := ⟨_, hframe⟩
    rw [hL]
    rfl
  · rw [if_neg fun h => hp ((allParked_iff _ _ _ _).mpr h)]
    exact ⟨rfl, fun h => absurd h hp, fun _ => ⟨rfl, rfl⟩, fun _ _ _ _ => rfl, fun _ _ => rfl⟩

/-- The release rule after a mask is written. -/
theorem settled_setJ_rejoinRelease (u : State) (gk n : Nat) (hn : n < 8) (m : DWord) :
    Settled u ((u.setJ gk n m).rejoinRelease gk n) gk n m := by
  have h := settled_rejoinRelease (u.setJ gk n m) gk n hn
  rw [State.jmask_setJ_same] at h
  exact ⟨h.frame, h.released, h.held, fun k r hr hk => (h.others k r hr hk).trans (State.jmask_setJ_ne _ _ hn hr hk), h.apart⟩

/-! ### ENROL, REJOIN, STRIKE -/

theorem exec_enrol (c : Bool) (j : BitVec 3) (s : State) : exec (.enrol c j) s = .next (s.laneWord (.enrol c j) (fun s =>
    (s.setJ s.iss.gk j.toNat (s.jmask s.iss.gk j.toNat ||| maskOf s.iss.lanes)).advAll)) := rfl
theorem exec_rejoin (c : Bool) (j : BitVec 3) (s : State) : exec (.rejoin c j) s = .next (s.laneWord (.rejoin c j) (fun s =>
    (s.advAll.waitLanes s.iss.gk (s.iss.lanes.filter (s.jmask s.iss.gk j.toNat).getLsbD) (.rejoin j.toNat)).rejoinRelease
      s.iss.gk j.toNat)) := rfl
theorem exec_strike (c : Bool) (j : BitVec 3) (s : State) : exec (.strike c j) s = .next (s.laneWord (.strike c j) (fun s =>
    s.advAll.strikeLanes s.iss.gk j.toNat s.iss.lanes)) := rfl

/-- The lanes of an issue advanced, and those whose bits are set parked at a mask. -/
theorem lanesBecome_parked (s : State) (m : DWord) (j : Nat) (hls : s.iss.lanes.Pairwise (· < ·)) :
    OnlyLanes s (s.advAll.waitLanes s.iss.gk (s.iss.lanes.filter m.getLsbD) (.rejoin j)) ∧
    LanesBecome s (s.advAll.waitLanes s.iss.gk (s.iss.lanes.filter m.getLsbD) (.rejoin j))
      (fun l x => if m.getLsbD l then Waits (.rejoin j) x.advance else x.advance) := by
  obtain ⟨hin, hout⟩ := allAdvance_advAll hls
  obtain ⟨hframe, hparked, hfree⟩ := (laneStep_modLane s s.iss.gk fun _ => Lane.waitAt (.rejoin j)).foldl s.advAll
    (by rw [onlyLanes_advAll s]) (s.iss.lanes.filter m.getLsbD) ((lanes_nodup hls).filter _)
  refine ⟨onlyLanes_trans (onlyLanes_advAll s) hframe, fun l hl => ?_, fun k hk => ?_⟩
  · by_cases hm : m.getLsbD l = true
    · simp only [hm, if_true]
      exact (hparked l (List.mem_filter.mpr ⟨hl, hm⟩)).trans (congrArg _ (hin l hl))
    · simp only [hm]
      refine (hfree _ fun l' hl' e => hm ?_).trans (hin l hl)
      rw [(lkOf_inj _ _ _).mp e]
      exact (List.mem_filter.mp hl').2
  · exact (hfree k fun l hl => hk l (List.mem_filter.mp hl).1).trans (hout k hk)

theorem rejoinMasks : Claims.RejoinMasks := by
  intro s c j _hwidth _hlanes gk m
  have hj : j.toNat < 8 := j.isLt
  refine ⟨fun h => ?_, fun h => ?_, fun h => ?_⟩
  all_goals have hls := h.2.1
  · refine ⟨_, exec_enrol c j s, ?_⟩
    rw [State.laneWord_of_not_popsQ1 _ h rfl]
    have hframe := onlyLanes_advAll (s.setJ s.iss.gk j.toNat (s.jmask s.iss.gk j.toNat ||| maskOf s.iss.lanes))
    have hall := allAdvance_advAll (s := s.setJ s.iss.gk j.toNat (s.jmask s.iss.gk j.toNat ||| maskOf s.iss.lanes)) hls
    generalize (s.setJ s.iss.gk j.toNat (s.jmask s.iss.gk j.toNat ||| maskOf s.iss.lanes)).advAll = t at hframe hall
    have hmask : ∀ k r, t.jmask k r = (s.setJ s.iss.gk j.toNat (s.jmask s.iss.gk j.toNat ||| maskOf s.iss.lanes)).jmask k r :=
      fun k r => by rw [hframe]; rfl
    refine ⟨by rw [hframe]; rfl, hall, ?_, fun k r hr hk => (hmask k r).trans (State.jmask_setJ_ne _ _ hj hr hk)⟩
    rw [hmask, State.jmask_setJ_same]
    exact setBits_or s m
  · refine ⟨_, exec_strike c j s, s.advAll, m &&& ~~~ maskOf s.iss.lanes, onlyLanes_advAll s, allAdvance_advAll hls,
      clearBits_and s m, ?_⟩
    rw [State.laneWord_of_not_popsQ1 _ h rfl]
    have hm : s.advAll.jmask s.iss.gk j.toNat = m := by rw [onlyLanes_advAll s]; rfl
    rw [State.strikeLanes, hm]
    exact settled_setJ_rejoinRelease s.advAll s.iss.gk j.toNat hj _
  · obtain ⟨hframe, hpark⟩ := lanesBecome_parked s m j.toNat hls
    refine ⟨_, exec_rejoin c j s, _, hframe, hpark, ?_⟩
    rw [State.laneWord_of_not_popsQ1 _ h rfl]
    have hset := settled_rejoinRelease (s.advAll.waitLanes s.iss.gk (s.iss.lanes.filter m.getLsbD) (.rejoin j.toNat)) s.iss.gk
      j.toNat hj
    have hm : (s.advAll.waitLanes s.iss.gk (s.iss.lanes.filter m.getLsbD) (.rejoin j.toNat)).jmask s.iss.gk j.toNat = m := by
      rw [hframe]
      rfl
    rw [hm] at hset
    exact hset

end Sys2Proof.Machine
end

section
/-! EXIT of an ordinary group: each executing lane ends, one after another (O11, R123, R120). -/

namespace Sys2Proof.Machine

open Sys2Proof Sys2Proof.Claims

/-! ### What striking a lane's bits does -/

/-- What striking bits of a group's masks may do: bits are cleared, and lanes of the group that have not exited may be released. -/
structure Struck (gk : Nat) (x y : State) : Prop where
  frame : y = { x with g := { x.g with lanes := y.g.lanes, jmask := y.g.jmask } }
  exited : ∀ k, (x.lane k).st = .exited → (x.lane k).after = none → y.lane k = x.lane k
  apart : ∀ k, k / 64 ≠ gk → y.lane k = x.lane k
  others : ∀ k, k ≠ gk → ∀ r, r < 8 → y.jmask k r = x.jmask k r
  cleared : ∀ r, r < 8 → ∀ b, (y.jmask gk r).getLsbD b = true → (x.jmask gk r).getLsbD b = true

theorem Struck.refl (gk : Nat) (x : State) : Struck gk x x := ⟨rfl, fun _ _ _ => rfl, fun _ _ => rfl, fun _ _ _ _ => rfl, fun _ _ _ h => h⟩

theorem Struck.group {gk : Nat} {x y : State} (h : Struck gk x y) (k : Nat) : y.group k = x.group k := by rw [h.frame]; rfl

theorem Struck.trans {gk : Nat} {x y z : State} (h : Struck gk x y) (h' : Struck gk y z) : Struck gk x z where
  frame := by
    obtain ⟨A, B, hy⟩ : ∃ A B, y = { x with g := { x.g with lanes := A, jmask := B } } := ⟨_, _, h.frame⟩
    obtain ⟨C, D, hz⟩ : ∃ C D, z = { y with g := { y.g with lanes := C, jmask := D } } := ⟨_, _, h'.frame⟩
    rw [hz, hy]
  exited := fun k hst haf => by
    have hk := h.exited k hst haf
    rw [h'.exited k (hk ▸ hst) (hk ▸ haf), hk]
  apart := fun k hk => (h'.apart k hk).trans (h.apart k hk)
  others := fun k hk r hr => (h'.others k hk r hr).trans (h.others k hk r hr)
  cleared := fun r hr b hb => h.cleared r hr b (h'.cleared r hr b hb)

/-- A lane that has exited waits at no mask. -/
theorem Lane.waitsAt_of_exited {l : Lane} (n : Nat) (hst : l.st = .exited) (haf : l.after = none) : l.waitsAt n = false := by
  simp [Lane.waitsAt, hst, haf]

theorem lkOf_div {gk l : Nat} (hl : l < 64) : lkOf gk l / 64 = gk := by unfold lkOf; omega

theorem lkOf_mod {gk l : Nat} (hl : l < 64) : lkOf gk l % 64 = l := by unfold lkOf; omega

theorem struck_of_settled {x y : State} {gk n : Nat} {m : DWord} (h : Settled x y gk n m) (hw : (x.group gk).width ≤ 64)
    (hm : ∀ b, m.getLsbD b = true → (x.jmask gk n).getLsbD b = true) : Struck gk x y where
  frame := h.frame
  exited := fun k hst haf => by
    by_cases hp : AllParked x gk n m
    · by_cases hk : ∃ l < (x.group gk).width, k = lkOf gk l
      · obtain ⟨l, hl, rfl⟩ := hk
        rw [(h.released hp).2 l hl, if_neg (by rw [Lane.waitsAt_of_exited n hst haf]; decide)]
      · exact h.apart k fun l hl e => hk ⟨l, hl, e⟩
    · rw [State.lane, (h.held hp).2]
      rfl
  apart := fun k hk => h.apart k fun l hl e => hk (by rw [e, lkOf_div (by omega)])
  others := fun k hk r hr => h.others k r hr fun e => hk e.1
  cleared := fun r hr b hb => by
    by_cases hrn : r = n
    · subst hrn
      by_cases hp : AllParked x gk r m
      · rw [(h.released hp).1] at hb
        simp at hb
      · rw [(h.held hp).1] at hb
        exact hm b hb
    · rwa [h.others gk r hr fun e => hrn e.2] at hb

theorem State.strikeLanes_struck (x : State) {gk n l : Nat} (hn : n < 8) (hw : (x.group gk).width ≤ 64) (hl : l < 64) :
    Struck gk x (x.strikeLanes gk n [l]) ∧ ((x.strikeLanes gk n [l]).jmask gk n).getLsbD l = false := by
  have h := settled_setJ_rejoinRelease x gk n hn (x.jmask gk n &&& ~~~ maskOf [l])
  have hsub : ∀ b, (x.jmask gk n &&& ~~~ maskOf [l]).getLsbD b = true → (x.jmask gk n).getLsbD b = true := fun b hb => by
    rw [BitVec.getLsbD_and, Bool.and_eq_true] at hb
    exact hb.1
  refine ⟨struck_of_settled h hw hsub, ?_⟩
  show (((x.setJ gk n (x.jmask gk n &&& ~~~ maskOf [l])).rejoinRelease gk n).jmask gk n).getLsbD l = false
  by_cases hp : AllParked x gk n (x.jmask gk n &&& ~~~ maskOf [l])
  · rw [(h.released hp).1]
    simp
  · rw [(h.held hp).1, ← Bool.not_eq_true, getLsbD_and_not_maskOf _ _ _ hl]
    simp

/-- Each of some masks in which a lane has its bit, struck. -/
def State.strikeAll (x : State) (gk l : Nat) (ns : List Nat) : State :=
  ns.foldl (fun s n => if (s.jmask gk n).getLsbD l then s.strikeLanes gk n [l] else s) x

theorem State.strikeAll_struck (x : State) {gk l : Nat} (hw : (x.group gk).width ≤ 64) (hl : l < 64) (ns : List Nat) (hns : ∀ n ∈ ns, n < 8) :
    Struck gk x (x.strikeAll gk l ns) ∧ ∀ n ∈ ns, ((x.strikeAll gk l ns).jmask gk n).getLsbD l = false := by
  induction ns generalizing x with
  | nil => exact ⟨Struck.refl gk x, nofun⟩
  | cons n ns ih =>
    have hn : n < 8 := hns n List.mem_cons_self
    obtain ⟨y, hy, hstep, hbit⟩ : ∃ y, x.strikeAll gk l (n :: ns) = y.strikeAll gk l ns ∧ Struck gk x y ∧
        (y.jmask gk n).getLsbD l = false := by
      by_cases hb : (x.jmask gk n).getLsbD l = true
      · obtain ⟨hs, hc⟩ := x.strikeLanes_struck hn hw hl
        exact ⟨_, by rw [strikeAll, List.foldl_cons, if_pos hb, strikeAll], hs, hc⟩
      · exact ⟨x, by rw [strikeAll, List.foldl_cons, if_neg hb, strikeAll], Struck.refl gk x, eq_false_of_ne_true hb⟩
    obtain ⟨hrest, hclear⟩ := ih y (hstep.group gk ▸ hw) fun m hm => hns m (List.mem_cons_of_mem _ hm)
    rw [hy]
    refine ⟨hstep.trans hrest, fun m hm => ?_⟩
    rcases List.mem_cons.mp hm with rfl | hm
    · exact eq_false_of_ne_true fun e => absurd (hrest.cleared m hn l e) (by rw [hbit]; decide)
    · exact hclear m hm

/-! ### The end of a lane (R123) -/

/-- An entry of the landing table that is a lane's of a group. -/
def ownedBy (gk l : Nat) (e : Landing) : Prop := e.gk = gk ∧ e.key % (64 * 128) / 128 = l

/-- Some lanes of a group have ended since s, and only what EXIT may change has changed. -/
structure Ended (s : State) (gk : Nat) (done : List Nat) (x : State) : Prop where
  frame : x = { s with g := { s.g with lanes := x.g.lanes, groups := x.g.groups, jmask := x.g.jmask }
                       t := { s.t with landing := x.t.landing } }
  width : (x.group gk).width = (s.group gk).width
  exited : ∀ l ∈ done, (x.lane (lkOf gk l)).st = .exited ∧ (x.lane (lkOf gk l)).after = none
  struck : ∀ l ∈ done, ∀ r, r < 8 → (x.jmask gk r).getLsbD l = false
  apart : ∀ k, k / 64 ≠ gk → x.lane k = s.lane k
  others : ∀ k, k ≠ gk → x.group k = s.group k ∧ ∀ r, r < 8 → x.jmask k r = s.jmask k r
  landing : ∀ e, e ∈ x.t.landing ↔ e ∈ s.t.landing ∧ ∀ l ∈ done, ¬ ownedBy gk l e

theorem Ended.exists_frame {s x : State} {gk : Nat} {done : List Nat} (h : Ended s gk done x) : ∃ C D E F,
    x = { s with g := { s.g with lanes := C, groups := D, jmask := E }, t := { s.t with landing := F } } := ⟨_, _, _, _, h.frame⟩

theorem Ended.refl (s : State) (gk : Nat) : Ended s gk [] s :=
  ⟨rfl, rfl, nofun, nofun, fun _ _ => rfl, fun _ _ => ⟨rfl, fun _ _ => rfl⟩, fun _ => ⟨fun h => ⟨h, nofun⟩, fun h => h.1⟩⟩

/-- A lane's own record once it has ended. -/
def Lane.ended (x : Lane) : Lane :=
  { x with st := .exited, windows := [], token := none, took := none, haltReq := false, after := none, launch := none }

/-- The landing entries that are not a lane's. -/
def State.dropLanding (s : State) (gk l : Nat) : State :=
  { s with t := { s.t with landing := s.t.landing.filter (fun e => !(e.gk == gk && e.key % (64 * 128) / 128 == l)) } }

theorem mem_dropLanding (s : State) (gk l : Nat) (e : Landing) :
    e ∈ (s.dropLanding gk l).t.landing ↔ e ∈ s.t.landing ∧ ¬ ownedBy gk l e := by
  simp [State.dropLanding, ownedBy, List.mem_filter]
  exact fun _ => imp_iff_not_or.symm

/-- Every queue of a group but q1 emptied, the group no longer active. -/
def Group.over (g : Group) : Group := { g with q0 := [], q2 := [], q3 := [], q4 := [], active := false }

theorem State.endLane_eq (x : State) {gk l : Nat} (hl : l < 64) :
    ∃ b : Bool, x.endLane (lkOf gk l) =
      let y := ((x.modLane (lkOf gk l) Lane.ended).strikeAll gk l (List.range 8)).dropLanding gk l
      if b then y.modGroup gk Group.over else y := by
  unfold State.endLane
  rw [gkLane, lkOf_div hl, lkOf_mod hl]
  exact ⟨_, rfl⟩

theorem Ended.dropped {s x y : State} {gk l : Nat} {done : List Nat} (h : Ended s gk done x) (hl : l < 64)
    (hs : Struck gk (x.modLane (lkOf gk l) Lane.ended) y) (hclear : ∀ r, r < 8 → (y.jmask gk r).getLsbD l = false) :
    Ended s gk (l :: done) (y.dropLanding gk l) where
  frame := by
    obtain ⟨A, B, hy⟩ : ∃ A B, y = { x with g := { x.g with lanes := A, jmask := B } } := ⟨_, _, hs.frame⟩
    obtain ⟨C, D, E, F, hx⟩ := h.exists_frame
    rw [hy, hx]
    rfl
  width := (congrArg Group.width (hs.group gk)).trans h.width
  exited := fun m hm => by
    have hm' : ((x.modLane (lkOf gk l) Lane.ended).lane (lkOf gk m)).st = .exited ∧
        ((x.modLane (lkOf gk l) Lane.ended).lane (lkOf gk m)).after = none := by
      rw [State.lane_modLane]
      split
      · exact ⟨rfl, rfl⟩
      next hne => exact h.exited m ((List.mem_cons.mp hm).resolve_left fun e => hne (e ▸ rfl))
    have hkeep := hs.exited _ hm'.1 hm'.2
    show (y.lane (lkOf gk m)).st = _ ∧ (y.lane (lkOf gk m)).after = _
    rw [hkeep]
    exact hm'
  struck := fun m hm r hr => by
    rcases List.mem_cons.mp hm with rfl | hm
    · exact hclear r hr
    · exact eq_false_of_ne_true fun e => absurd (hs.cleared r hr m e) (by
        show ¬ (x.jmask gk r).getLsbD m = true
        rw [h.struck m hm r hr]
        decide)
  apart := fun k hk => (hs.apart k hk).trans (by
    rw [State.lane_modLane, if_neg fun e => hk (by rw [e, lkOf_div hl])]
    exact h.apart k hk)
  others := fun k hk => by
    obtain ⟨hg, hj⟩ := h.others k hk
    exact ⟨(hs.group k).trans hg, fun r hr => (hs.others k hk r hr).trans (hj r hr)⟩
  landing := fun e => by
    have hy : y.t.landing = x.t.landing := by rw [hs.frame]; rfl
    rw [mem_dropLanding, hy, h.landing e, and_assoc, List.forall_mem_cons, and_comm (a := ¬ ownedBy gk l e)]

theorem Ended.over {s x : State} {gk : Nat} {done : List Nat} (h : Ended s gk done x) : Ended s gk done (x.modGroup gk Group.over) where
  frame := by
    obtain ⟨C, D, E, F, hx⟩ := h.exists_frame
    rw [hx]
    rfl
  width := by
    rw [State.group_modGroup_same]
    exact h.width
  exited := h.exited
  struck := h.struck
  apart := h.apart
  others := fun k hk => by
    obtain ⟨hg, hj⟩ := h.others k hk
    exact ⟨by rw [State.group_modGroup, if_neg hk, hg], hj⟩
  landing := h.landing

theorem Ended.endLane {s x : State} {gk l : Nat} {done : List Nat} (h : Ended s gk done x) (hl : l < 64) (hw : (s.group gk).width ≤ 64) :
    Ended s gk (l :: done) (x.endLane (lkOf gk l)) := by
  obtain ⟨b, hb⟩ := x.endLane_eq (gk := gk) hl
  obtain ⟨hs, hclear⟩ := (x.modLane (lkOf gk l) Lane.ended).strikeAll_struck (h.width ▸ hw) hl (List.range 8)
    fun n hn => List.mem_range.mp hn
  have hdrop := h.dropped hl hs fun r hr => hclear r (List.mem_range.mpr hr)
  rw [hb]
  dsimp only
  split
  · exact hdrop.over
  · exact hdrop

theorem Ended.foldl {s : State} {gk : Nat} (hw : (s.group gk).width ≤ 64) (ls : List Nat) (hls : ∀ l ∈ ls, l < 64) :
    ∀ {done : List Nat} {x : State}, Ended s gk done x →
      Ended s gk (ls.reverse ++ done) (ls.foldl (fun x l => x.endLane (lkOf gk l)) x) := by
  induction ls with
  | nil => exact fun h => h
  | cons l ls ih =>
    intro done x h
    have := ih (fun m hm => hls m (List.mem_cons_of_mem _ hm)) (h.endLane (hls l List.mem_cons_self) hw)
    rwa [List.reverse_cons, List.append_assoc]

/-! ### EXIT -/

theorem exec_exit (c : Bool) (s : State) : exec (.exit c) s = .next (s.laneWord (.exit c) (fun s =>
    s.each (fun x l => if (s.group s.iss.gk).pair then x.exitPair (lkOf s.iss.gk l) else x.endLane (lkOf s.iss.gk l)))) := rfl

theorem exit : Claims.Exit := by
  intro s c h hpair hw hlanes
  have h64 : ∀ l ∈ s.iss.lanes, l < 64 := fun l hl => lt_of_lt_of_le (hlanes l hl) hw
  refine ⟨_, exec_exit c s, ?_⟩
  rw [State.laneWord_of_not_popsQ1 _ h rfl, hpair]
  have hend := Ended.foldl hw s.iss.lanes h64 (Ended.refl s s.iss.gk)
  rw [List.append_nil] at hend
  refine ⟨hend.frame, fun l hl => ?_, hend.apart, hend.others, fun e => ?_⟩
  · have hl' := List.mem_reverse.mpr hl
    exact ⟨(hend.exited l hl').1, hend.struck l hl'⟩
  · refine (hend.landing e).trans (and_congr_right fun _ => ?_)
    simp only [List.mem_reverse, ownedBy, not_and]
    exact ⟨fun hall hgk hm => hall _ hm hgk rfl, fun hn l hl hgk e' => hn hgk (e' ▸ hl)⟩

end Sys2Proof.Machine

/-- Settles O11: a branch, WAITC or YIELD changes each lane by its own record; the release rule is one fold over the group's lanes; and
EXIT ends its lanes one after another, each end keeping what the earlier ones left. -/
theorem Sys2Proof.Proofs.branchesAndRejoin : Obligations.BranchesAndRejoin :=
  ⟨Sys2Proof.Machine.branches, Sys2Proof.Machine.rejoinMasks, Sys2Proof.Machine.yieldAndWait, Sys2Proof.Machine.exit⟩
end

section
/-! A step runs what decodes (O55): every instruction answers a next state, so what a step answers follows from what it reads. -/

namespace Sys2Proof.Machine

open Sys2Proof Sys2Proof.Claims

/-! ### No meaning stops -/

theorem State.evec_next (s : State) (d : BitVec 4) (wordOf : Nat → Nat) : ∃ t, s.evec d wordOf = .next t := by
  unfold evec
  extract_lets x at_ bad
  cases bad
  · exact ⟨_, rfl⟩
  · exact ⟨_, rfl⟩

/-- Each arm of exec is a next state, but for the two that read a vector first. -/
theorem exec_next (i : Instr) (s : State) : ∃ t, exec i s = .next t := by
  cases i
  case eldrow d => exact s.evec_next d _
  case eldcol d => exact s.evec_next d _
  all_goals exact ⟨_, rfl⟩

theorem noIssue_exec (i : Instr) (s : State) : ∃ t, exec i s = .next t ∧ noIssue (exec i s) = .next { t with iss := {} } := by
  obtain ⟨t, ht⟩ := exec_next i s
  exact ⟨t, ht, by rw [ht, noIssue]⟩

theorem State.runInstr_next (s : State) (i : Instr) : ∃ t, s.runInstr i = .next t := by
  unfold runInstr
  extract_lets s0
  obtain ⟨t, ht⟩ := exec_next i s0
  rw [ht]
  split
  · exact ⟨_, rfl⟩
  · exact ⟨_, rfl⟩

theorem State.runWord_next (s : State) : ∃ t, s.runWord = .next t := by
  unfold runWord
  split
  · exact runInstr_next _ _
  · exact ⟨_, rfl⟩

theorem State.runEWord_next (s : State) (w : Word) : ∃ t, s.runEWord w = .next t := by
  unfold runEWord
  split
  next i _ =>
    obtain ⟨t, -, ht⟩ := noIssue_exec i s
    exact ⟨_, ht⟩
  next => exact ⟨_, rfl⟩

theorem State.seqStep_next (s : State) (tk : Nat) : ∃ t, s.seqStep tk = .next t := by
  unfold seqStep
  split
  · exact ⟨_, rfl⟩
  · extract_lets t s'
    split
    · exact ⟨_, rfl⟩
    · split
      · exact ⟨_, rfl⟩
      · split
        next => exact ⟨_, rfl⟩
        next w u _ =>
          split
          next => exact ⟨_, rfl⟩
          next i _ =>
            split
            · exact ⟨_, rfl⟩
            · obtain ⟨v, hv⟩ := exec_next i u
              rw [hv]
              exact ⟨_, rfl⟩

theorem State.runTurn_of_word (s : State) {i : Instr} (he : encode i ≠ []) : s.runTurn (.unit i) = .fault .badTurn := by
  have hi : isEvent i = false := by rw [isEvent, List.isEmpty_eq_false_iff]; exact he
  rw [runTurn, hi, Bool.not_false, if_pos rfl]

theorem State.runTurn_of_event (s : State) {i : Instr} (he : encode i = []) (hs : startsIssue i = false) :
    s.runTurn (.unit i) = noIssue (exec i s) := by
  have hi : isEvent i = true := by rw [isEvent, he]; rfl
  rw [runTurn, hi, hs, Bool.not_true, if_neg Bool.false_ne_true, if_neg Bool.false_ne_true]

theorem State.runTurn_of_startsIssue (s : State) {i : Instr} (he : encode i = []) (hs : startsIssue i = true) :
    s.runTurn (.unit i) = exec i s := by
  have hi : isEvent i = true := by rw [isEvent, he]; rfl
  rw [runTurn, hi, hs, Bool.not_true, if_neg Bool.false_ne_true, if_pos rfl]

theorem startsIssue_of_ne {i : Instr} (h : ∀ n, i ≠ .ageLimitExpiry n) : startsIssue i = false := by
  unfold startsIssue
  split
  next n => exact absurd rfl (h n)
  next => rfl

theorem State.runTurn_next_or_badTurn (s : State) (t : Turn) :
    (∃ u, s.runTurn t = .next u) ∨ (s.runTurn t = .fault .badTurn ∧ ∃ i, t = .unit i ∧ encode i ≠ []) := by
  cases t with
  | clock core part => exact .inl ⟨_, rfl⟩
  | mword tk =>
    obtain ⟨u, hu⟩ := s.seqStep_next tk
    exact .inl ⟨_, by rw [runTurn, hu, noIssue]⟩
  | unit i =>
    by_cases he : encode i = []
    · obtain ⟨u, hu, hn⟩ := noIssue_exec i s
      cases hs : startsIssue i
      · exact .inl ⟨_, (s.runTurn_of_event he hs).trans hn⟩
      · exact .inl ⟨_, (s.runTurn_of_startsIssue he hs).trans hu⟩
    · exact .inr ⟨s.runTurn_of_word he, i, rfl, he⟩

theorem step_next_or_badTurn (s : State) :
    (∃ t, step s = .next t) ∨ (step s = .fault .badTurn ∧ ∃ i ts, s.turns = .unit i :: ts ∧ encode i ≠ []) := by
  unfold step State.nextStep
  split
  · exact .inl (State.runWord_next _)
  · split
    · exact .inl ⟨_, rfl⟩
    · split
      · exact .inl (State.runEWord_next _ _)
      · unfold State.nextTurn
        split
        next => exact .inl ⟨_, rfl⟩
        next t ts hts =>
          refine (State.runTurn_next_or_badTurn _ t).imp_right ?_
          rintro ⟨hf, i, rfl, he⟩
          exact ⟨hf, i, ts, hts, he⟩

theorem onlyBadTurnsStop : OnlyBadTurnsStop := by
  refine ⟨exec_next, fun s => ?_⟩
  rcases step_next_or_badTurn s with ⟨t, ht⟩ | ⟨hf, hturn⟩
  · rw [ht]
    exact ⟨nofun, nofun⟩
  · rw [hf]
    exact ⟨nofun, fun f hf' => ⟨by cases hf'; rfl, hturn⟩⟩

/-! ### Words that are read -/

theorem foldl_of_fixed {α β : Type} (f : β → α → β) (b : β) (l : List α) (h : ∀ a ∈ l, f b a = b) : l.foldl f b = b := by
  induction l with
  | nil => rfl
  | cons a l ih =>
    rw [List.foldl_cons, h a List.mem_cons_self]
    exact ih fun x hx => h x (List.mem_cons_of_mem _ hx)

/-- A load that no L1's dirty copy bears on reads device memory as it stands, and draws nothing. -/
theorem State.readNow_dev {s : State} {a size : Nat} {pol : Pol} (core : Nat) (h : NoDirtyCopy s a size pol) :
    s.readNow core (.dev a pol false) size = (s.devRead a size, s) := by
  show s.devLoad a size (pol == .wb) = _
  unfold devLoad
  rcases h with rfl | h
  · rfl
  · split
    · rfl
    · refine foldl_of_fixed _ _ _ fun p hp => ?_
      dsimp only
      rw [if_pos (h p hp)]

theorem valueAt_dev (s : State) (a : Nat) : valueAt s (fun i => .dev (a + i) .wb false) 4 = s.devRead a 4 := by
  simp only [valueAt, byteOf, devByte, State.devRead, readLE, Nat.add_assoc, Nat.add_zero, Nat.reduceAdd]
  omega

/-- A word's bytes as they stood at a stamp, from the lowest. -/
theorem State.devReadAt_succ (s : State) (view a n : Nat) :
    s.devReadAt view a (n + 1) = byteSince s view a + 256 * s.devReadAt view (a + 1) n := rfl

theorem State.devReadAt_word {s : State} {view a : Nat} {w : Word} (h : ∀ j, j < 4 → part w.toNat (8 * j) 8 = byteSince s view (a + j)) :
    s.devReadAt view a 4 = w.toNat := by
  have hw := w.isLt
  have h0 := h 0 (by decide)
  have h1 := h 1 (by decide)
  have h2 := h 2 (by decide)
  have h3 := h 3 (by decide)
  have hz : s.devReadAt view (a + 3 + 1) 0 = 0 := rfl
  rw [State.devReadAt_succ, State.devReadAt_succ, State.devReadAt_succ, State.devReadAt_succ]
  simp only [part, Nat.add_zero] at h0 h1 h2 h3
  simp only [Nat.add_assoc, Nat.reduceAdd] at hz ⊢
  omega

/-- The code word at a PC, whether the group's fetches have reached the newest stores or not (R131). -/
theorem State.codeWord_of_codeAt {s : State} {gk : Nat} {p : Pc} {w : Word} (h : CodeAt s gk p w) : s.codeWord gk p = (.ok w, s) := by
  have hoff : ∀ k : Kern, k.koff + k.codeoff + 12 * p.pkt + 4 * p.slot = k.koff + (k.codeoff + 12 * p.pkt + 4 * p.slot) := fun k => by
    omega
  unfold codeWord
  dsimp only
  rw [hoff]
  rcases h with ⟨hview, a, pol, ot, unit, ht, hclean, hw⟩ | ⟨hview, a, pol, ot, unit, ht, hbytes⟩
  · rw [ht]
    dsimp only
    rw [readNow_dev _ hclean, ← valueAt_dev, ← hw]
    simp [hview]
  · rw [ht]
    dsimp only
    rw [devReadAt_word hbytes]
    simp [Nat.not_le.mpr hview]

theorem State.kernWord_of_fetchedAt {s : State} {core : Nat} {k : Kern} {off a : Nat} {w : Word}
    (h : FetchedAt s core k.ctx k.kobj (k.koff + off) a w) : s.kernWord core k off = (.ok w, s) := by
  obtain ⟨pol, ot, unit, ht, hclean, hw⟩ := h
  unfold kernWord objRead
  rw [ht]
  dsimp only
  rw [readNow_dev _ hclean, ← valueAt_dev, ← hw]
  simp

/-! ### A lane word (R46, R47) -/

theorem State.readWord_of_lane {s : State} {gk : Nat} {p : Pc} {w : Word} {i : Instr} (h : CodeAt s gk p w)
    (hM : w.toNat / 2 ^ 25 % 64 ≠ 0x3E) (hd : decodeLane w 0 = .ok i) :
    ∃ pipe, s.readWord gk p = (.ok i pipe (fieldsOf w.toNat).maj (fieldsOf w.toNat).c, s) := by
  have hM' : (fieldsOf w.toNat).maj ≠ 0x3E := hM
  unfold readWord
  rw [codeWord_of_codeAt h]
  dsimp only
  rw [if_neg (by simp [hM'])]
  unfold wordRes
  dsimp only
  rw [if_neg hM', hd]
  exact ⟨_, rfl⟩

/-- A word with its chain bit clear is what is left of it without that bit. -/
theorem and_low31 {w : Word} (h : (fieldsOf w.toNat).c = false) : w &&& 0x7FFFFFFF = w := by
  have hc : w.toNat < 2 ^ 31 := by
    have hw := w.isLt
    have hbit : w.toNat / 2 ^ 31 % 2 ≠ 1 := by simpa [fieldsOf] using h
    omega
  apply BitVec.eq_of_toNat_eq
  rw [BitVec.toNat_and]
  exact Nat.and_two_pow_sub_one_of_lt_two_pow hc

theorem c_of_movl {w lit : Word} {i : Instr} (hM : (fieldsOf w.toNat).maj = 0x3E) (hd : decodeLane w lit = .ok i) :
    (fieldsOf w.toNat).c = false := by
  unfold decodeLane at hd
  simp only [hM] at hd
  split at hd
  · cases hd
  next h => exact eq_false_of_ne_true h

theorem State.readWord_of_movl {s : State} {gk : Nat} {p : Pc} {w lit : Word} {i : Instr} (h : CodeAt s gk p w)
    (hM : w.toNat / 2 ^ 25 % 64 = 0x3E) (hslot : p.slot < 2) (hlit : CodeAt s gk p.next lit) (hd : decodeLane w lit = .ok i) :
    ∃ pipe, s.readWord gk p = (.ok i pipe (fieldsOf w.toNat).maj (fieldsOf w.toNat).c, s) := by
  have hM' : (fieldsOf w.toNat).maj = 0x3E := hM
  unfold readWord
  rw [codeWord_of_codeAt h]
  dsimp only
  rw [if_pos (by simp [hM', hslot]), codeWord_of_codeAt hlit]
  dsimp only
  unfold wordRes
  dsimp only
  rw [if_pos hM', if_neg (by omega), and_low31 (c_of_movl hM' hd), hd]
  exact ⟨_, rfl⟩

theorem State.pairLimit_of_not_pair {s : State} {lk : Nat} (h : (s.group (gkLane lk)).pair = false) : s.pairLimit lk = s := by
  simp [pairLimit, h]

/-- Where every lane of an issue may run its word, the gate lets all of them through and changes nothing. -/
theorem State.gate_of_allRun {s : State} {i : Instr} (h : AllRun s i) : s.gate i = s := by
  obtain ⟨-, hpair, hlanes⟩ := h
  have hruns : s.iss.lanes.filter (fun l => (s.lane (lkOf s.iss.gk l)).runsOn s.here) = s.iss.lanes := by
    refine List.filter_eq_self.mpr fun l hl => ?_
    obtain ⟨-, hpc, hst, -⟩ := hlanes l hl
    simp [Lane.runsOn, hpc, hst]
  have hlim : s.iss.lanes.foldl (fun x l => x.pairLimit (lkOf s.iss.gk l)) s = s := by
    refine foldl_of_fixed _ _ _ fun l hl => pairLimit_of_not_pair ?_
    have hl64 := (hlanes l hl).1
    rw [gkLane, show lkOf s.iss.gk l / 64 = s.iss.gk by unfold lkOf; omega, hpair]
  have hbad : s.iss.lanes.filter (fun l => ((s.lane (lkOf s.iss.gk l)).lookahead (s.pairWidth s.iss.gk) i).isSome) = [] := by
    refine List.filter_eq_nil_iff.mpr fun l hl => ?_
    obtain ⟨-, -, -, hlook⟩ := hlanes l hl
    simp [hlook]
  have hp : ({ pkt := s.iss.pkt, slot := s.iss.slot } : Pc) = s.here := rfl
  unfold gate
  dsimp only
  rw [hp, hruns, hlim, hruns, hbad]
  simp

theorem stepsBy_of_read {s : State} {i : Instr} {pipe : Pipe} {maj : Nat} {c : Bool} (hw : s.iss.words ≠ 0) (h : AllRun s i)
    (hread : s.readWord s.iss.gk s.here = (.ok i pipe maj c, s)) : StepsBy s i := by
  obtain ⟨t, ht⟩ := exec_next i s
  have hne : s.iss.lanes.isEmpty = false := by simpa using h.1
  refine ⟨t, ht, ?_⟩
  have hrun : s.runWord = s.runInstr i := by
    unfold State.runWord
    rw [show s.readWord s.iss.gk { pkt := s.iss.pkt, slot := s.iss.slot } = _ from hread]
  rw [step, State.nextStep, if_pos hw, hrun]
  unfold State.runInstr
  dsimp only
  rw [State.gate_of_allRun h, hne, ht]
  rfl

theorem stepRunsTheLaneWord : StepRunsTheLaneWord := by
  intro s i w lit hwords hcode hrun
  refine ⟨fun hM hd => ?_, fun hM hslot hlit hd => ?_⟩
  · obtain ⟨pipe, hread⟩ := State.readWord_of_lane hcode hM hd
    exact stepsBy_of_read hwords hrun hread
  · obtain ⟨pipe, hread⟩ := State.readWord_of_movl hcode hM hslot hlit hd
    exact stepsBy_of_read hwords hrun hread

/-! ### A turn (R189, R200) -/

theorem step_of_betweenTurns {s : State} {t : Turn} {ts : List Turn} (h : BetweenTurns s) (ht : s.turns = t :: ts) :
    step s = State.runTurn { s with turns := ts } t := by
  obtain ⟨hwords, hfill, hprog⟩ := h
  unfold step State.nextStep
  rw [if_neg (not_not.mpr hwords), hfill, hprog]
  show s.nextTurn = _
  unfold State.nextTurn
  rw [ht]

theorem step_of_eWord {s : State} {w : Word} {rest : List Word} (hwords : s.iss.words = 0) (hfill : s.iss.fill = [])
    (hprog : s.e.epi.prog = w :: rest) : step s = s.runEWord w := by
  unfold step State.nextStep
  rw [if_neg (not_not.mpr hwords), hfill, hprog]
  rfl

theorem State.cmpHit_of_comparators {s : State} {core : Nat} (h : ∀ c ∈ s.comparators core, part c 63 1 = 0)
    (ctx serial kind pkt slot : Nat) : s.cmpHit core ctx serial kind pkt slot = false := by
  unfold cmpHit
  refine List.any_eq_false.mpr fun c hc => ?_
  have hbit : bitField c 63 1 = 0 := h c hc
  simp [hbit]

theorem State.seqRuns_of_mayRun {s : State} {tk : Nat} (h : SeqMayRun s tk) : s.seqRuns tk = true := by
  obtain ⟨hlive, hsaved, hstopping, hsaving⟩ := h.team
  obtain ⟨hst, hmiss, -, -⟩ := h.seq
  simp [seqRuns, hlive, hsaved, hstopping, hsaving, hst, hmiss]

/-- A sequencer that may run fetches its word, runs what decodes, and goes on. -/
theorem State.seqStep_of_mayRun {s : State} {tk : Nat} {w : Word} {i : Instr} (h : SeqMayRun s tk) (hw : MWordAt { s with cur := tk } tk w)
    (hd : decodeM w = .ok i) : ∃ t, exec i { s with cur := tk } = .next t ∧ s.seqStep tk = .next (t.seqAfter tk) := by
  obtain ⟨t, ht⟩ := exec_next i { s with cur := tk }
  refine ⟨t, ht, ?_⟩
  obtain ⟨-, -, hkill, hcmp⟩ := h.seq
  have hwithin : ¬ (s.team tk).seq.idx ≥ (s.team tk).kern.msWords := Nat.not_le.mpr h.within
  obtain ⟨a, hfetch⟩ := hw
  have hread : State.mwordAt { s with cur := tk } tk (s.team tk).seq.idx = (.ok w, { s with cur := tk }) :=
    kernWord_of_fetchedAt hfetch
  have hbreak : ∀ ctx serial, (!(s.team tk).seq.past &&
      State.cmpHit { s with cur := tk } ((s.team tk).cores.headD 0) ctx serial 1 (s.team tk).seq.idx 0) = false := fun ctx serial => by
    rcases hcmp with hpast | hnone
    · rw [hpast]
      rfl
    · rw [cmpHit_of_comparators (s := { s with cur := tk }) hnone, Bool.and_false]
  unfold seqStep
  rw [seqRuns_of_mayRun h]
  dsimp only
  rw [hkill, if_neg hwithin, hread]
  dsimp only
  rw [hd]
  dsimp only
  rw [hbreak, ht]
  rfl

theorem stepRunsTheTurn : StepRunsTheTurn := by
  intro s i w rest tk core p ts s'
  refine ⟨fun hwords hfill hprog hd => ?_, fun hb ht hmay hw hd => ?_, fun hb ht he hage => ?_, fun n hb ht => ?_, fun hb ht he => ?_,
    fun hb ht hpow hcore hp => ?_, fun hb ht hpow => ?_⟩
  · obtain ⟨t, ht, hn⟩ := noIssue_exec i s
    refine ⟨t, ht, ?_⟩
    rw [step_of_eWord hwords hfill hprog, State.runEWord, hd]
    exact hn
  · obtain ⟨t, hexec, hseq⟩ := State.seqStep_of_mayRun (s := s') ⟨hmay.team, hmay.seq, hmay.within⟩ hw hd
    refine ⟨t, hexec, ?_⟩
    rw [step_of_betweenTurns hb ht, State.runTurn, hseq]
    rfl
  · obtain ⟨t, hexec, hn⟩ := noIssue_exec i s'
    refine ⟨t, hexec, ?_⟩
    rw [step_of_betweenTurns hb ht, State.runTurn_of_event _ he (startsIssue_of_ne hage)]
    exact hn
  · rw [step_of_betweenTurns hb ht, State.runTurn_of_startsIssue _ rfl rfl]
  · rw [step_of_betweenTurns hb ht, State.runTurn_of_word _ he]
  · rw [step_of_betweenTurns hb ht, State.runTurn]
    simp [hpow, hcore, hp, s']
  · rw [step_of_betweenTurns hb ht, State.runTurn]
    simp [hpow, s']

end Sys2Proof.Machine

namespace Sys2Proof.Proofs

/-- Settles O55: what stands at the place of the next word is read without a change of the state, and every instruction answers a next
state, so the step is that of what decodes. -/
theorem stepsRunWhatDecodes : Obligations.StepsRunWhatDecodes :=
  ⟨Machine.stepRunsTheLaneWord, Machine.stepRunsTheTurn, Machine.onlyBadTurnsStop⟩

end Sys2Proof.Proofs
end


section
/-! Words that compute one result for each lane: what their statements ask of the function that the model computes. -/

namespace Sys2Proof.Machine

open Sys2Proof Sys2Proof.Claims

/-! ### Results of one word -/

/-- A result of at most one word, which every destination holds. -/
def OneWord (r : LaneRes) : Prop := (resWords r).length ≤ 1

theorem oneWord_w (v : Word) : OneWord (.w v) := Nat.le_refl 1
theorem oneWord_trap (f : FaultInfo) : OneWord (.trap f) := Nat.zero_le 1

theorem oneWord_ofTrap (t : Option FaultInfo) (v : Word) : OneWord (match t with | some f => .trap f | none => .w v) := by
  cases t with
  | none => exact oneWord_w v
  | some f => exact oneWord_trap f

theorem oneWord_fpRes (fl : BitVec 5) (r : FRes) : OneWord (fpRes fl r) := oneWord_ofTrap _ _

/-! ### Destinations of several words -/

/-- A register operand that the operand rules of R53 let a word write holds its words. -/
theorem fits_of_regRun {budget : Nat} {d : Opc} {n : Nat} {even : Bool} (h : regRun budget d n even = true) : Fits d n := by
  simp only [regRun, Bool.and_eq_true, Bool.or_eq_true, decide_eq_true_eq] at h
  refine ⟨fun hv => ?_, fun hs => ?_⟩
  · rcases h.2 with hr | hr
    · omega
    · rw [isS_of_isV hv] at hr
      exact absurd hr.1 Bool.false_ne_true
  · rcases h.2 with hr | hr
    · rw [isS_of_isV hr.1.1] at hs
      exact absurd hs Bool.false_ne_true
    · simp only [isS, Bool.and_eq_true, decide_eq_true_eq] at hs
      omega

/-- The operands of a word that write n registers from d up. -/
def WritesRun (d : Opc) (n : Nat) (u : Use) : Prop := u = .w d n ∨ u = .wn d n ∨ ∃ m, u = .rw d n m

theorem fits_of_writesRun {budget : Nat} {i : Instr} {d : Opc} {n : Nat} {u : Use} (h : operandsOk budget i = true) (hn : n ≠ 1)
    (hu : u ∈ uses i) (hw : WritesRun d n u) : Fits d n := by
  have hok : Use.ok budget u = true := List.all_eq_true.mp h u hu
  rcases hw with rfl | rfl | ⟨m, rfl⟩
  · refine fits_of_regRun (budget := budget) (even := decide (n > 1)) ?_
    simpa [Use.ok, hn] using hok
  · exact fits_of_regRun hok
  · exact fits_of_regRun hok

/-! ### Runs -/

/-- A word that computes the stated results, each of one word, runs to its end. -/
theorem runs_of_oneWord {s : State} {i : Instr} {d : Opc} {f res : Nat → LaneRes} (he : exec i s = .next (s.compute i d f))
    (hf : ∀ l, f l = res l) (h1 : ∀ l, OneWord (res l)) : Runs s i d res := by
  obtain rfl := funext hf
  exact fun h => State.compute_computes s i d f 1 h he (fits_one d) fun l _ => h1 l

/-- The same for results of n words, in the registers of an operand that names that many. -/
theorem runs_of_words {s : State} {i : Instr} {d : Opc} {f res : Nat → LaneRes} {n : Nat} {u : Use}
    (he : exec i s = .next (s.compute i d f)) (hf : ∀ l, f l = res l) (hn : n ≠ 1) (hu : u ∈ uses i) (hw : WritesRun d n u)
    (hl : ∀ l, (resWords (res l)).length ≤ n) : Runs s i d res := by
  obtain rfl := funext hf
  intro h
  obtain ⟨⟨-, -, hok, -⟩, -, -⟩ := id h
  exact State.compute_computes s i d f n h he (fits_of_writesRun hok hn hu hw) fun l _ => hl l

/-- A 64-bit result in a register pair. -/
theorem runs_of_dword {s : State} {i : Instr} {d : Opc} {f res : Nat → DWord} {u : Use}
    (he : exec i s = .next (s.compute i d fun l => .d (f l))) (hf : ∀ l, f l = res l) (hu : u ∈ uses i) (hw : WritesRun d 2 u) :
    Runs s i d (fun l => .d (res l)) :=
  runs_of_words he (fun l => congrArg LaneRes.d (hf l)) (by decide) hu hw fun _ => Nat.le_refl 2

theorem unary_of {mk : Bool → Opc → Opc → Instr} {f g : Word → LaneRes}
    (he : ∀ s c d a, exec (mk c d a) s = .next (s.un (mk c d a) d a f)) (hf : ∀ x, f x = g x) (h1 : ∀ x, OneWord (g x)) :
    Unary mk g :=
  fun s c d a => runs_of_oneWord (he s c d a) (fun _ => hf _) fun _ => h1 _

theorem binary_of {mk : Bool → Opc → Opc → Opc → Instr} {f g : Word → Word → LaneRes}
    (he : ∀ s c d a b, exec (mk c d a b) s = .next (s.bin (mk c d a b) d a b f)) (hf : ∀ x y, f x y = g x y)
    (h1 : ∀ x y, OneWord (g x y)) : Binary mk g :=
  fun s c d a b => runs_of_oneWord (he s c d a b) (fun _ => hf _ _) fun _ => h1 _ _

theorem ternary_of {mk : Bool → Opc → Opc → Opc → Instr} {f g : Word → Word → Word → LaneRes}
    (he : ∀ s c d a b, exec (mk c d a b) s = .next (s.tri (mk c d a b) d a b f)) (hf : ∀ x y z, f x y z = g x y z)
    (h1 : ∀ x y z, OneWord (g x y z)) : Ternary mk g :=
  fun s c d a b => runs_of_oneWord (he s c d a b) (fun _ => hf _ _ _) fun _ => h1 _ _ _

theorem unary_w {mk : Bool → Opc → Opc → Instr} {f g : Word → Word}
    (he : ∀ s c d a, exec (mk c d a) s = .next (s.un (mk c d a) d a fun x => .w (f x))) (hf : ∀ x, f x = g x) :
    Unary mk (fun x => .w (g x)) :=
  unary_of he (fun x => congrArg LaneRes.w (hf x)) fun _ => oneWord_w _

theorem binary_w {mk : Bool → Opc → Opc → Opc → Instr} {f g : Word → Word → Word}
    (he : ∀ s c d a b, exec (mk c d a b) s = .next (s.bin (mk c d a b) d a b fun x y => .w (f x y))) (hf : ∀ x y, f x y = g x y) :
    Binary mk (fun x y => .w (g x y)) :=
  binary_of he (fun x y => congrArg LaneRes.w (hf x y)) fun _ _ => oneWord_w _

theorem ternary_w {mk : Bool → Opc → Opc → Opc → Instr} {f g : Word → Word → Word → Word}
    (he : ∀ s c d a b, exec (mk c d a b) s = .next (s.tri (mk c d a b) d a b fun x y z => .w (f x y z)))
    (hf : ∀ x y z, f x y z = g x y z) : Ternary mk (fun x y z => .w (g x y z)) :=
  ternary_of he (fun x y z => congrArg LaneRes.w (hf x y z)) fun _ _ _ => oneWord_w _

end Sys2Proof.Machine
end

section
/-! The integer and logic words (O1, R77-R80): the functions of words as arithmetic on the integers that the words stand for. -/

namespace Sys2Proof.Machine

open Sys2Proof Sys2Proof.Claims

/-! ### Words of an integer -/

theorem eq_ofInt_toInt {n : Nat} {w : BitVec n} {z : Int} (h : w.toInt = z) : w = BitVec.ofInt n z := by
  rw [← h, BitVec.ofInt_toInt]

/-- A word whose number is that of a natural number modulo the width. -/
theorem eq_ofInt_toNat {n : Nat} {w : BitVec n} {k : Nat} (h : w.toNat = k % 2 ^ n) : w = BitVec.ofInt n (k : Int) := by
  rw [BitVec.ofInt_natCast]
  exact BitVec.eq_of_toNat_eq (by rw [h, BitVec.toNat_ofNat])

theorem sub_eq_ofInt {n : Nat} (x y : BitVec n) : x - y = BitVec.ofInt n (x.toInt - y.toInt) := by
  rw [Int.sub_eq_add_neg, BitVec.ofInt_add, BitVec.ofInt_neg, BitVec.ofInt_toInt, BitVec.ofInt_toInt, BitVec.sub_eq_add_neg]

theorem add_eq_ofInt {n : Nat} (x y : BitVec n) : x + y = BitVec.ofInt n (x.toInt + y.toInt) := by
  rw [BitVec.ofInt_add, BitVec.ofInt_toInt, BitVec.ofInt_toInt]

theorem mul_eq_ofInt {n : Nat} (x y : BitVec n) : x * y = BitVec.ofInt n (x.toInt * y.toInt) := by
  rw [BitVec.ofInt_mul, BitVec.ofInt_toInt, BitVec.ofInt_toInt]

theorem neg_eq_ofInt (x : Word) : 0 - x = BitVec.ofInt 32 (-x.toInt) := by
  rw [BitVec.ofInt_neg, BitVec.ofInt_toInt]
  exact BitVec.zero_sub x

theorem abs_eq_ofInt (x : Word) : (if x.msb then 0 - x else x) = BitVec.ofInt 32 (x.toInt.natAbs : Int) := by
  rw [BitVec.msb_eq_toInt]
  by_cases h : x.toInt < 0
  · rw [if_pos (decide_eq_true h), neg_eq_ofInt, Int.ofNat_natAbs_of_nonpos (by omega)]
  · rw [if_neg (by simpa using h), Int.natAbs_of_nonneg (by omega), BitVec.ofInt_toInt]

/-- The upper half of a 64-bit product. -/
theorem upper_ofInt (z : Int) : ((BitVec.ofInt 64 z) >>> 32).truncate 32 = BitVec.ofInt 32 (z / 2 ^ 32) := by
  apply BitVec.eq_of_toNat_eq
  simp only [BitVec.truncate_eq_setWidth, BitVec.toNat_setWidth, BitVec.toNat_ushiftRight, BitVec.toNat_ofInt, Nat.shiftRight_eq_div_pow]
  omega

theorem zeroExtend_eq_ofInt (x : Word) : x.zeroExtend 64 = BitVec.ofInt 64 (x.toNat : Int) := by
  rw [BitVec.ofInt_natCast, BitVec.ofNat_toNat]

theorem mulhW_i (x y : Word) : mulhW .i x y = BitVec.ofInt 32 (x.toInt * y.toInt / 2 ^ 32) := by
  rw [← upper_ofInt, BitVec.ofInt_mul]
  rfl

theorem mulhW_n (x y : Word) : mulhW .n x y = BitVec.ofInt 32 ((x.toNat * y.toNat / 2 ^ 32 : Nat) : Int) := by
  rw [mulhW, zeroExtend_eq_ofInt, zeroExtend_eq_ofInt, ← BitVec.ofInt_mul, upper_ofInt]
  norm_cast

/-! ### The lesser and the greater -/

theorem minW_i (x y : Word) : minW .i x y = BitVec.ofInt 32 (min x.toInt y.toInt) := by
  refine eq_ofInt_toInt ?_
  simp only [minW, BitVec.slt_eq_decide, decide_eq_true_eq]
  split <;> omega

theorem minW_n (x y : Word) : minW .n x y = BitVec.ofInt 32 ((min x.toNat y.toNat : Nat) : Int) := by
  refine eq_ofInt_toNat ?_
  simp only [minW, BitVec.ult_eq_decide, decide_eq_true_eq]
  split <;> omega

theorem maxW_i (x y : Word) : maxW .i x y = BitVec.ofInt 32 (max x.toInt y.toInt) := by
  refine eq_ofInt_toInt ?_
  simp only [maxW, BitVec.slt_eq_decide, decide_eq_true_eq]
  split <;> omega

theorem maxW_n (x y : Word) : maxW .n x y = BitVec.ofInt 32 ((max x.toNat y.toNat : Nat) : Int) := by
  refine eq_ofInt_toNat ?_
  simp only [maxW, BitVec.ult_eq_decide, decide_eq_true_eq]
  split <;> omega

/-! ### Shifts -/

/-- A shift left that may be past the width. -/
theorem shiftLeft_eq_ofInt {n : Nat} (x : BitVec n) (k : Nat) :
    (if k ≥ n then 0 else x <<< k) = BitVec.ofInt n ((x.toNat * 2 ^ k : Nat) : Int) := by
  refine eq_ofInt_toNat ?_
  split
  next h =>
    rw [Nat.mod_eq_zero_of_dvd (Dvd.dvd.mul_left (Nat.pow_dvd_pow 2 h) _)]
    exact BitVec.toNat_ofNat _ _ |>.trans (Nat.zero_mod _)
  next => rw [BitVec.toNat_shiftLeft, Nat.shiftLeft_eq]

theorem shlW_eq (x y : Word) : shlW x y = BitVec.ofInt 32 ((x.toNat * 2 ^ low8 y : Nat) : Int) := shiftLeft_eq_ofInt x _
theorem shl64W_eq (x : DWord) (y : Word) : shl64W x y = BitVec.ofInt 64 ((x.toNat * 2 ^ low8 y : Nat) : Int) :=
  shiftLeft_eq_ofInt x _

theorem shrW_eq (x y : Word) : shrW x y = BitVec.ofInt 32 ((x.toNat / 2 ^ low8 y : Nat) : Int) := by
  refine eq_ofInt_toNat ?_
  rw [Nat.mod_eq_of_lt (Nat.lt_of_le_of_lt (Nat.div_le_self _ _) x.isLt)]
  unfold shrW
  split
  next h => exact (Nat.div_eq_of_lt (Nat.lt_of_lt_of_le x.isLt (Nat.pow_le_pow_right (by decide) h))).symm
  next => rw [BitVec.toNat_ushiftRight, Nat.shiftRight_eq_div_pow]; rfl

theorem sarW_eq (x y : Word) : sarW x y = BitVec.ofInt 32 (x.toInt / 2 ^ min (low8 y) 31) := by
  refine eq_ofInt_toInt ?_
  rw [sarW, BitVec.toInt_sshiftRight, Int.shiftRight_eq_div_pow]
  norm_cast

/-! ### Counts and the reversal of bits -/

/-- The first positions of a range, up to one that a predicate refuses. -/
theorem length_takeWhile_range (p : Nat → Bool) (m n : Nat) (hm : m < n) (hlt : ∀ k < m, p k = true) (hp : p m = false) :
    ((List.range n).takeWhile p).length = m := by
  obtain ⟨c, rfl⟩ : ∃ c, n = m + (c + 1) := ⟨n - m - 1, by omega⟩
  rw [List.range_add, List.takeWhile_append_of_pos fun k hk => hlt k (List.mem_range.mp hk), List.range_succ_eq_map]
  simp [hp]

theorem clzW_eq (x : Word) :
    clzW x = BitVec.ofInt 32 (((List.range 32).takeWhile (fun k => !x.getLsbD (31 - k))).length : Int) := by
  rw [BitVec.ofInt_natCast, clzW]
  by_cases hx : x = 0
  · subst hx
    decide
  · have hne : x.toNat ≠ 0 := fun h => hx (BitVec.eq_of_toNat_eq h)
    have hlog : x.toNat.log2 < 32 := (Nat.log2_lt hne).mpr x.isLt
    rw [if_neg hx, length_takeWhile_range _ (31 - x.toNat.log2) 32 (by omega)]
    · intro k hk
      have : x.toNat < 2 ^ (31 - k) := Nat.lt_of_lt_of_le Nat.lt_log2_self (Nat.pow_le_pow_right (by decide) (by omega))
      simp [BitVec.getLsbD, Nat.testBit_lt_two_pow this]
    · have : 31 - (31 - x.toNat.log2) = x.toNat.log2 := by omega
      rw [this, BitVec.getLsbD, Nat.testBit_log2 hne]
      rfl

theorem popcW_eq (x : Word) : popcW x = BitVec.ofInt 32 (((List.range 32).countP (fun k => x.getLsbD k) : Nat) : Int) := by
  rw [popcW, BitVec.ofInt_natCast, List.countP_eq_length_filter]

/-- The low n bits of a word, each in the place of its mirror image. -/
def mirrored (x : Word) (n : Nat) : Word := (List.range n).foldl (fun r i => if x.getLsbD i then r ||| (1 <<< (31 - i)) else r) 0

theorem mirrored_succ (x : Word) (n : Nat) :
    mirrored x (n + 1) = if x.getLsbD n then mirrored x n ||| (1 <<< (31 - n)) else mirrored x n := by
  simp only [mirrored, List.range_succ, List.foldl_append, List.foldl_cons, List.foldl_nil]

theorem getLsbD_bit (n j : Nat) (hn : n < 32) (hj : j < 32) :
    (BitVec.ofNat 32 (1 <<< (31 - n))).getLsbD j = decide (31 - j = n) := by
  rw [BitVec.getLsbD_ofNat, Nat.one_shiftLeft, Nat.testBit_two_pow, decide_eq_true hj, Bool.true_and]
  exact decide_eq_decide.mpr (by omega)

theorem getLsbD_mirrored (x : Word) (n : Nat) (hn : n ≤ 32) (j : Nat) (hj : j < 32) :
    (mirrored x n).getLsbD j = (decide (31 - j < n) && x.getLsbD (31 - j)) := by
  induction n with
  | zero => simp [mirrored]
  | succ n ih =>
    have hbit := getLsbD_bit n j hn hj
    have hlt : decide (31 - j < n + 1) = (decide (31 - j < n) || decide (31 - j = n)) := by
      rw [← Bool.decide_or]
      exact decide_eq_decide.mpr Nat.lt_succ_iff_lt_or_eq
    rw [mirrored_succ, hlt]
    cases hb : x.getLsbD n with
    | false =>
      rw [if_neg Bool.false_ne_true, ih (by omega)]
      by_cases h : 31 - j = n
      · simp [h, hb]
      · simp [h]
    | true =>
      rw [if_pos rfl, BitVec.getLsbD_or, ih (by omega)]
      by_cases h : 31 - j = n
      · rw [h] at hbit ⊢
        simpa [hb] using hbit
      · rw [decide_eq_false h] at hbit ⊢
        rw [Bool.or_false]
        exact (congrArg _ hbit).trans (Bool.or_false _)

theorem brevW_eq (x : Word) : brevW x = x.reverse := by
  refine BitVec.eq_of_getLsbD_eq fun j hj => ?_
  rw [show brevW x = mirrored x 32 from rfl, getLsbD_mirrored x 32 (Nat.le_refl 32) j hj, BitVec.getLsbD_reverse, BitVec.getMsbD]
  simp [hj, show 31 - j < 32 by omega]

/-! ### Comparisons -/

theorem beq_eq_decide_toNat (x y : Word) : (x == y) = decide (x.toNat = y.toNat) := by
  rw [Bool.beq_eq_decide_eq, decide_eq_decide.mpr BitVec.toNat_inj.symm]

/-- The relation that each comparison of Table 5.2 takes. -/
def related (o : ICmp) (x y : Word) : Bool :=
  match o with
  | .eq => x.toNat = y.toNat | .ne => x.toNat ≠ y.toNat | .ltI => x.toInt < y.toInt | .leI => x.toInt ≤ y.toInt
  | .ltN => x.toNat < y.toNat | .leN => x.toNat ≤ y.toNat

theorem icmpW_eq (o : ICmp) (x y : Word) : icmpW o x y = boolW (related o x y) := by
  unfold icmpW related
  congr 1
  cases o with
  | eq => exact beq_eq_decide_toNat x y
  | ne => simp only [bne, beq_eq_decide_toNat, decide_not]
  | ltI => exact BitVec.slt_eq_decide
  | leI => exact BitVec.sle_eq_decide
  | ltN => exact BitVec.ult_eq_decide
  | leN => exact BitVec.ule_eq_decide

theorem icmp_binary (o : ICmp) : Binary (fun c d a b => .icmp c d a b o) (fun x y => truth (related o x y)) :=
  binary_w (fun _ _ _ _ _ => rfl) (icmpW_eq o)

theorem sel_eq (x y z : Word) : (if z != 0 then x else y) = if z.toNat ≠ 0 then x else y := by
  have hz : z = 0 ↔ z.toNat = 0 := BitVec.toNat_inj.symm
  by_cases h : z = 0
  · rw [if_neg (not_not.mpr (hz.mp h)), if_neg (by simp [h])]
  · rw [if_pos (mt hz.mpr h), if_pos (by simpa using h)]

end Sys2Proof.Machine
end

section
/-! The integer words (O1), concluded: 64-bit results, bit fields, byte and half-word forms, MOVL and NOP. -/

namespace Sys2Proof.Machine

open Sys2Proof Sys2Proof.Claims

/-! ### 64-bit results -/

theorem imadwN_eq (x y : Word) (z : DWord) : x.zeroExtend 64 * y.zeroExtend 64 + z =
    BitVec.ofInt 64 ((x.toNat * y.toNat + z.toNat : Nat) : Int) := by
  refine eq_ofInt_toNat ?_
  simp only [BitVec.toNat_add, BitVec.toNat_mul, BitVec.zeroExtend_eq_setWidth, BitVec.toNat_setWidth_of_le (show 32 ≤ 64 by decide)]
  exact Nat.mod_add_mod _ _ _

theorem imadwI_eq (x y : Word) (z : DWord) : x.signExtend 64 * y.signExtend 64 + z =
    BitVec.ofInt 64 (x.toInt * y.toInt + z.toInt) := by
  rw [BitVec.ofInt_add, BitVec.ofInt_mul, BitVec.ofInt_toInt]
  rfl

theorem imad_eq (x y z : Word) : x * y + z = BitVec.ofInt 32 (x.toInt * y.toInt + z.toInt) := by
  rw [BitVec.ofInt_add, ← mul_eq_ofInt, BitVec.ofInt_toInt]

theorem addImm_eq (k : BitVec 11) (x : Word) : x + imm k = BitVec.ofInt 32 (x.toInt + k.toInt) := by
  rw [BitVec.ofInt_add, BitVec.ofInt_toInt]
  rfl

/-! ### Bit fields (R78) -/

theorem fieldW_le (y : Word) : low8 y + fieldW y ≤ 32 ∨ fieldW y = 0 := by
  unfold fieldW low8
  dsimp only
  split <;> omega

theorem fieldW_le_32 (y : Word) : fieldW y ≤ 32 := by
  rcases fieldW_le y with h | h <;> omega

theorem toNat_fieldMask {w : Nat} (h : w ≤ 32) : (fieldMask w).toNat = 2 ^ w - 1 := by
  have : 2 ^ w ≤ 2 ^ 32 := Nat.pow_le_pow_right (by decide) h
  rw [fieldMask, BitVec.toNat_ofNat, Nat.mod_eq_of_lt (by omega)]

theorem getLsbD_fieldMask {w : Nat} (h : w ≤ 32) (i : Nat) : (fieldMask w).getLsbD i = decide (i < w) := by
  rw [BitVec.getLsbD, toNat_fieldMask h, Nat.testBit_two_pow_sub_one]

theorem toNat_bfxNW (x y : Word) : (bfxNW x y).toNat = x.toNat / 2 ^ low8 y % 2 ^ fieldW y := by
  unfold bfxNW
  split
  next h => rw [h, Nat.pow_zero, Nat.mod_one]; rfl
  next => rw [BitVec.toNat_and, BitVec.toNat_ushiftRight, toNat_fieldMask (fieldW_le_32 y), Nat.and_two_pow_sub_one_eq_mod,
      Nat.shiftRight_eq_div_pow]; rfl

theorem bfxNW_eq (x y : Word) : bfxNW x y = BitVec.ofInt 32 ((x.toNat / 2 ^ low8 y % 2 ^ fieldWidth y : Nat) : Int) := by
  refine eq_ofInt_toNat ?_
  rw [toNat_bfxNW]
  exact (Nat.mod_eq_of_lt (Nat.lt_of_le_of_lt (Nat.le_trans (Nat.mod_le _ _) (Nat.div_le_self _ _)) x.isLt)).symm

theorem getLsbD_bfxNW (x y : Word) (i : Nat) :
    (bfxNW x y).getLsbD i = (BitVec.ofNat (fieldW y) (x.toNat / 2 ^ low8 y)).getLsbD i := by
  rw [BitVec.getLsbD, BitVec.getLsbD, toNat_bfxNW, BitVec.toNat_ofNat]

/-- The field of R78 sign-extended: its own bits, and its top bit above them. -/
theorem bfxIW_eq (x y : Word) : bfxIW x y = BitVec.ofInt 32 (BitVec.ofNat (fieldWidth y) (x.toNat / 2 ^ low8 y)).toInt := by
  show _ = (BitVec.ofNat (fieldW y) (x.toNat / 2 ^ low8 y)).signExtend 32
  have hmsb : (BitVec.ofNat (fieldW y) (x.toNat / 2 ^ low8 y)).msb =
      (decide (fieldW y ≠ 0) && (bfxNW x y).getLsbD (fieldW y - 1)) := by
    rw [BitVec.msb_eq_getLsbD_last, getLsbD_bfxNW]
    by_cases h : fieldW y = 0
    · simp [h]
    · simp [h]
  refine BitVec.eq_of_getLsbD_eq fun i hi => ?_
  rw [BitVec.getLsbD_signExtend, hmsb, ← getLsbD_bfxNW, decide_eq_true hi, Bool.true_and]
  rw [bfxIW]
  have hlow (hw : ¬ i < fieldW y) : (bfxNW x y).getLsbD i = false := by
    rw [getLsbD_bfxNW, BitVec.getLsbD_of_ge _ _ (by omega)]
  generalize (decide (fieldW y ≠ 0) && (bfxNW x y).getLsbD (fieldW y - 1)) = top
  cases top with
  | false =>
    rw [if_neg Bool.false_ne_true]
    split
    next => rfl
    next h => exact hlow h
  | true =>
    rw [if_pos rfl, BitVec.getLsbD_or, BitVec.getLsbD_not, getLsbD_fieldMask (fieldW_le_32 y)]
    split
    next h => simp [h]
    next h => simp [h, hi]

/-- A field of w bits from p up put into a number. -/
theorem testBit_fieldInserted (x z p w i : Nat) :
    (z % 2 ^ p + x % 2 ^ w * 2 ^ p + z / 2 ^ (p + w) * 2 ^ (p + w)).testBit i =
      if p ≤ i ∧ i < p + w then x.testBit (i - p) else z.testBit i := by
  have hp : z % 2 ^ p < 2 ^ p := Nat.mod_lt _ (Nat.two_pow_pos _)
  have hlow : z % 2 ^ p + x % 2 ^ w * 2 ^ p < 2 ^ (p + w) := by
    have hw : x % 2 ^ w + 1 ≤ 2 ^ w := Nat.mod_lt _ (Nat.two_pow_pos _)
    calc z % 2 ^ p + x % 2 ^ w * 2 ^ p
      _ < (x % 2 ^ w + 1) * 2 ^ p := by rw [Nat.add_mul, Nat.one_mul]; omega
      _ ≤ 2 ^ w * 2 ^ p := Nat.mul_le_mul_right _ hw
      _ = 2 ^ (p + w) := by rw [Nat.pow_add, Nat.mul_comm]
  rw [Nat.add_comm _ (z / _ * _), Nat.mul_comm (z / _), Nat.two_pow_add_eq_or_of_lt hlow, Nat.add_comm (z % _),
    Nat.mul_comm (x % _), Nat.two_pow_add_eq_or_of_lt hp]
  simp only [Nat.testBit_or, Nat.testBit_two_pow_mul, Nat.testBit_mod_two_pow, Nat.testBit_div_two_pow]
  rcases lt_or_ge i p with h | h
  · simp [h, show ¬ p ≤ i by omega, show ¬ p + w ≤ i by omega]
  · rcases lt_or_ge i (p + w) with h' | h'
    · simp [h, h', show ¬ i < p by omega, show i - p < w by omega, show ¬ p + w ≤ i by omega]
    · simp [h, h', show ¬ i < p by omega, show ¬ i - p < w by omega, show ¬ i < p + w by omega]

theorem getLsbD_bfiW (x y z : Word) (i : Nat) (hi : i < 32) : (bfiW x y z).getLsbD i =
    if low8 y ≤ i ∧ i < low8 y + fieldW y then x.getLsbD (i - low8 y) else z.getLsbD i := by
  unfold bfiW
  dsimp only
  split
  next h => rw [h, if_neg (by omega)]
  next h =>
    have hmask := getLsbD_fieldMask (fieldW_le_32 y)
    have hpos : y.toNat % 256 = low8 y := rfl
    simp only [hpos, BitVec.getLsbD_or, BitVec.getLsbD_and, BitVec.getLsbD_not, BitVec.getLsbD_shiftLeft, hmask, hi]
    rcases lt_or_ge i (low8 y) with hlt | hge
    · simp [hlt, show ¬ low8 y ≤ i by omega]
    · by_cases hin : i < low8 y + fieldW y
      · simp [hge, hin, show ¬ i < low8 y by omega, show i - low8 y < fieldW y by omega]
      · simp [hin, show ¬ i < low8 y by omega, show ¬ i - low8 y < fieldW y by omega]

theorem bfiW_eq (x y z : Word) : bfiW x y z = BitVec.ofInt 32 ((z.toNat % 2 ^ low8 y + x.toNat % 2 ^ fieldWidth y * 2 ^ low8 y +
    z.toNat / 2 ^ (low8 y + fieldWidth y) * 2 ^ (low8 y + fieldWidth y) : Nat) : Int) := by
  refine BitVec.eq_of_getLsbD_eq fun i hi => ?_
  rw [BitVec.ofInt_natCast, BitVec.getLsbD_ofNat, testBit_fieldInserted, decide_eq_true hi, Bool.true_and, getLsbD_bfiW x y z i hi]
  rfl

/-! ### Byte and half-word forms (R79) -/

theorem subBits_cases (y : SubTy) : subBitsOf y = 8 ∨ subBitsOf y = 16 := by
  cases y with
  | i8 | n8 => exact .inl rfl
  | i16 | n16 => exact .inr rfl

theorem subExt_eq (y : SubTy) (x : Word) : subExt y x =
    if subSgn y then (x.setWidth (subBitsOf y)).signExtend 32 else BitVec.ofNat 32 (x.setWidth (subBitsOf y)).toNat := by
  cases y <;> simp [subExt, extendTo, subBits, subSgn, subBitsOf]

theorem subVal_eq (y : SubTy) (x : Word) : subVal y x =
    if subSgn y then (x.setWidth (subBitsOf y)).toInt else (x.setWidth (subBitsOf y)).toNat := by
  cases y <;> rfl

theorem subWrap_eq (y : SubTy) (z : Int) : subWrap y z =
    if subSgn y then (BitVec.ofInt (subBitsOf y) z).toInt else (BitVec.ofInt (subBitsOf y) z).toNat := by
  cases y <;> rfl

theorem setWidth_ofInt_sub (y : SubTy) (z : Int) : (BitVec.ofInt 32 z).setWidth (subBitsOf y) = BitVec.ofInt (subBitsOf y) z := by
  refine BitVec.eq_of_toNat_eq ?_
  rw [BitVec.toNat_setWidth, BitVec.toNat_ofInt, BitVec.toNat_ofInt]
  rcases subBits_cases y with h | h <;> rw [h] <;> omega

/-- An integer's low bits extended to a word. -/
theorem subExt_ofInt (y : SubTy) (z : Int) : subExt y (BitVec.ofInt 32 z) = BitVec.ofInt 32 (subWrap y z) := by
  rw [subExt_eq, subWrap_eq, setWidth_ofInt_sub]
  split
  · rfl
  · rw [BitVec.ofInt_natCast]

theorem subExt_eq_ofInt (y : SubTy) (x : Word) : subExt y x = BitVec.ofInt 32 (subVal y x) := by
  rw [subExt_eq, subVal_eq]
  split
  · rfl
  · rw [BitVec.ofInt_natCast]

theorem subOp_add (y : SubTy) (p q : Word) : subOp y (· + ·) p q = BitVec.ofInt 32 (subWrap y (subVal y p + subVal y q)) := by
  rw [← subExt_ofInt, BitVec.ofInt_add, ← subExt_eq_ofInt, ← subExt_eq_ofInt]
  rfl

theorem subOp_sub (y : SubTy) (p q : Word) : subOp y (· - ·) p q = BitVec.ofInt 32 (subWrap y (subVal y p - subVal y q)) := by
  rw [← subExt_ofInt, Int.sub_eq_add_neg, BitVec.ofInt_add, BitVec.ofInt_neg, ← subExt_eq_ofInt, ← subExt_eq_ofInt,
    ← BitVec.sub_eq_add_neg]
  rfl

/-- The value of a byte or half-word is the one of its extension. -/
theorem subVal_subExt (y : SubTy) (x : Word) : subVal y (subExt y x) = subVal y x := by
  have hset : (subExt y x).setWidth (subBitsOf y) = x.setWidth (subBitsOf y) := by
    rw [subExt_eq_ofInt, setWidth_ofInt_sub, subVal_eq]
    split
    · exact BitVec.ofInt_toInt
    · rw [BitVec.ofInt_natCast, BitVec.ofNat_toNat, BitVec.setWidth_eq]
  rw [subVal_eq, subVal_eq, hset]

theorem subBits_le (y : SubTy) : subBitsOf y ≤ 32 := by rcases subBits_cases y with h | h <;> omega

theorem toInt_subExt {y : SubTy} (hs : subSgn y = true) (x : Word) : (subExt y x).toInt = subVal y x := by
  rw [subExt_eq, subVal_eq, if_pos hs, if_pos hs, BitVec.toInt_signExtend_of_le (subBits_le y)]

theorem toNat_subExt {y : SubTy} (hs : subSgn y = false) (x : Word) : ((subExt y x).toNat : Int) = subVal y x := by
  rw [subExt_eq, subVal_eq, hs, if_neg Bool.false_ne_true, if_neg Bool.false_ne_true, BitVec.ofNat_toNat,
    BitVec.toNat_setWidth_of_le (subBits_le y)]

theorem minW_subExt (y : SubTy) (p q : Word) :
    minW (subKind y) (subExt y p) (subExt y q) = BitVec.ofInt 32 (min (subVal y p) (subVal y q)) := by
  unfold subKind
  cases hs : subSgn y with
  | true => rw [if_pos rfl, minW_i, toInt_subExt hs, toInt_subExt hs]
  | false => rw [if_neg Bool.false_ne_true, minW_n, Nat.cast_min, toNat_subExt hs, toNat_subExt hs]

theorem maxW_subExt (y : SubTy) (p q : Word) :
    maxW (subKind y) (subExt y p) (subExt y q) = BitVec.ofInt 32 (max (subVal y p) (subVal y q)) := by
  unfold subKind
  cases hs : subSgn y with
  | true => rw [if_pos rfl, maxW_i, toInt_subExt hs, toInt_subExt hs]
  | false => rw [if_neg Bool.false_ne_true, maxW_n, Nat.cast_max, toNat_subExt hs, toNat_subExt hs]

theorem subExt_ofInt_subVal (y : SubTy) (p : Word) : subExt y (BitVec.ofInt 32 (subVal y p)) = BitVec.ofInt 32 (subVal y p) := by
  rw [← subExt_eq_ofInt, subExt_eq_ofInt, subVal_subExt, ← subExt_eq_ofInt]

theorem subOp_min (y : SubTy) (p q : Word) :
    subOp y (minW (subKind y)) p q = BitVec.ofInt 32 (min (subVal y p) (subVal y q)) := by
  rw [subOp, minW_subExt]
  rcases min_choice (subVal y p) (subVal y q) with h | h
  · rw [h, subExt_ofInt_subVal]
  · rw [h, subExt_ofInt_subVal]

theorem subOp_max (y : SubTy) (p q : Word) :
    subOp y (maxW (subKind y)) p q = BitVec.ofInt 32 (max (subVal y p) (subVal y q)) := by
  rw [subOp, maxW_subExt]
  rcases max_choice (subVal y p) (subVal y q) with h | h
  · rw [h, subExt_ofInt_subVal]
  · rw [h, subExt_ofInt_subVal]

/-! ### Words that change their lanes first -/

/-- A word that takes nothing from q1 and computes one word of each lane from a state whose lanes it has changed. -/
theorem computes_of_lanesFirst {s s' : State} {i : Instr} {d : Opc} {v : Nat → Word} {F : Nat → Lane → Lane} (hq : popsQ1 i = false)
    (h : Able s i d (fun l => .w (v l))) (hs : OnlyLanes s s') (hl : LanesBecome s s' F)
    (he : exec i s = .next (s'.compute i d (fun l => .w (v l)))) :
    Computes s i d (fun l => .w (v l)) (fun l x => (F l x).advance) := by
  obtain ⟨⟨hne, hord, hok, -⟩, -, hroom⟩ := h
  obtain ⟨L, rfl⟩ : ∃ L, s' = { s with g := { s.g with lanes := L } } := ⟨_, hs⟩
  have hissues : Issues { s with g := { s.g with lanes := L } } i :=
    ⟨hne, hord, hok, fun hp => absurd (hq.symm.trans hp) Bool.false_ne_true⟩
  have hval : InLine { s with g := { s.g with lanes := L } } (fun l => .w (v l)) := fun _ _ f hf => by cases hf
  have hlanes {t : State} (ht : LanesBecome { s with g := { s.g with lanes := L } } t fun l => LaneAfter s.here (.w (v l))) :
      LanesBecome s t fun l x => (F l x).advance :=
    ⟨fun l hm => (ht.1 l hm).trans (congrArg Lane.advance (hl.1 l hm)), fun k hk => (ht.2 k hk).trans (hl.2 k hk)⟩
  refine ⟨_, he, fun hd => ?_, fun hd => ?_⟩
  · obtain ⟨hframe, hlane, hgroup, hdest⟩ := State.compute_wrote _ i d _ 1 hissues hval hd (fits_one d) fun _ _ => oneWord_w _
    exact ⟨hframe, hlanes hlane, hgroup, hdest.vHeld, hdest.vKept, hdest.sHeld, hdest.sKept⟩
  · obtain ⟨hframe, hlane, hgroup⟩ := State.compute_pushed _ i d _ hissues hval hd hroom
    exact ⟨hframe, hlanes hlane, hgroup⟩

/-- A lane at a literal goes on after it. -/
def pastLit (p : Pc) (_ : Nat) (x : Lane) : Lane := { x with resume := some p }

theorem laneStep_pastLiteral (s : State) :
    LaneStep s s.iss.gk (fun x l => x.modLane (lkOf x.iss.gk l) (pastLit x.here.next.next l)) (pastLit s.here.next.next) := by
  intro x l hx
  refine ⟨rfl, fun k => (State.lane_modLane x _ _ k).trans ?_⟩
  rw [State.here, State.here, hx]

theorem movl_computes (s : State) (d : Opc) (lit : Word) (h : Able s (.movl d lit) d (fun _ => .w lit)) :
    Computes s (.movl d lit) d (fun _ => .w lit) (fun _ l => { l.goto s.here.next.next with resume := none }) := by
  obtain ⟨hframe, hlanes⟩ := (laneStep_pastLiteral s).each h.1.2.1
  exact computes_of_lanesFirst rfl h hframe hlanes rfl

theorem nop_advances (s : State) (c : Bool) (h : Issues s (.nop c)) : ∃ t, exec (.nop c) s = .next t ∧
    t = { s with g := { s.g with lanes := t.g.lanes } } ∧ LanesBecome s t (fun _ => Lane.advance) :=
  ⟨s.advAll, congrArg Host.Outcome.next (State.laneWord_of_not_popsQ1 _ h rfl), onlyLanes_advAll s, allAdvance_advAll h.2.1⟩

/-! ### The statements -/

theorem integerFormsOfMajorZero : IntegerFormsOfMajorZero :=
  ⟨binary_w (fun _ _ _ _ _ => rfl) add_eq_ofInt, binary_w (fun _ _ _ _ _ => rfl) sub_eq_ofInt,
    binary_w (fun _ _ _ _ _ => rfl) mul_eq_ofInt, binary_w (fun _ _ _ _ _ => rfl) mulhW_i, binary_w (fun _ _ _ _ _ => rfl) mulhW_n,
    unary_w (fun _ _ _ _ => rfl) neg_eq_ofInt, unary_w (fun _ _ _ _ => rfl) abs_eq_ofInt,
    binary_w (fun _ _ _ _ _ => rfl) minW_i, binary_w (fun _ _ _ _ _ => rfl) minW_n,
    binary_w (fun _ _ _ _ _ => rfl) maxW_i, binary_w (fun _ _ _ _ _ => rfl) maxW_n,
    binary_w (fun _ _ _ _ _ => rfl) fun _ _ => rfl, binary_w (fun _ _ _ _ _ => rfl) fun _ _ => rfl,
    binary_w (fun _ _ _ _ _ => rfl) fun _ _ => rfl, unary_w (fun _ _ _ _ => rfl) fun _ => rfl⟩

theorem integerFormsOfMajorOne : IntegerFormsOfMajorOne :=
  ⟨binary_w (fun _ _ _ _ _ => rfl) shlW_eq, binary_w (fun _ _ _ _ _ => rfl) shrW_eq, binary_w (fun _ _ _ _ _ => rfl) sarW_eq,
    unary_w (fun _ _ _ _ => rfl) clzW_eq, unary_w (fun _ _ _ _ => rfl) popcW_eq, unary_w (fun _ _ _ _ => rfl) brevW_eq,
    fun _ _ d _ _ => runs_of_dword (u := .w d 2) rfl (fun _ => add_eq_ofInt _ _) List.mem_cons_self (.inl rfl),
    fun _ _ d _ _ => runs_of_dword (u := .w d 2) rfl (fun _ => shl64W_eq _ _) List.mem_cons_self (.inl rfl),
    icmp_binary .eq, icmp_binary .ne, icmp_binary .ltI, icmp_binary .leI, icmp_binary .ltN, icmp_binary .leN,
    ternary_w (fun _ _ _ _ _ => rfl) sel_eq⟩

theorem multiplyAddFieldsAndNarrowForms : MultiplyAddFieldsAndNarrowForms :=
  ⟨ternary_w (fun _ _ _ _ _ => rfl) imad_eq,
    fun _ _ d _ _ => runs_of_dword (u := .rw d 2 2) rfl (fun _ => imadwI_eq _ _ _) List.mem_cons_self (.inr (.inr ⟨2, rfl⟩)),
    fun _ _ d _ _ => runs_of_dword (u := .rw d 2 2) rfl (fun _ => imadwN_eq _ _ _) List.mem_cons_self (.inr (.inr ⟨2, rfl⟩)),
    binary_w (fun _ _ _ _ _ => rfl) bfxNW_eq, binary_w (fun _ _ _ _ _ => rfl) bfxIW_eq, ternary_w (fun _ _ _ _ _ => rfl) bfiW_eq,
    fun y => binary_w (fun _ _ _ _ _ => rfl) (subOp_add y), fun y => binary_w (fun _ _ _ _ _ => rfl) (subOp_sub y),
    fun y => binary_w (fun _ _ _ _ _ => rfl) (subOp_min y), fun y => binary_w (fun _ _ _ _ _ => rfl) (subOp_max y)⟩

theorem immediateForms : ImmediateForms :=
  ⟨fun k => unary_w (fun _ _ _ _ => rfl) (addImm_eq k),
    fun _ _ _ _ => runs_of_oneWord rfl (fun _ => rfl) fun _ => oneWord_w _,
    fun _ => unary_w (fun _ _ _ _ => rfl) fun _ => rfl, fun _ => unary_w (fun _ _ _ _ => rfl) fun _ => rfl,
    fun _ => unary_w (fun _ _ _ _ => rfl) fun _ => rfl⟩

theorem literalAndNop : LiteralAndNop := ⟨movl_computes, nop_advances⟩

end Sys2Proof.Machine

namespace Sys2Proof.Proofs

/-- Settles O1: the model's function of each word is the integer of Table 5.2 taken modulo the width of its result, and every word
that computes one result for each lane runs to its end. -/
theorem integerForms : Obligations.IntegerForms :=
  ⟨Machine.integerFormsOfMajorZero, Machine.integerFormsOfMajorOne, Machine.multiplyAddFieldsAndNarrowForms, Machine.immediateForms,
    Machine.literalAndNop⟩

end Sys2Proof.Proofs
end

section
/-! The float words and integer division (O2, O4, R81-R87): the forms of one, two and three operands, and the forms on two halves. -/

namespace Sys2Proof.Machine

open Sys2Proof Sys2Proof.Claims

/-! ### Float forms -/

theorem fpUnary_of {mk : Bool → Opc → Opc → Instr} {f g : Nat → Nat → FRes}
    (he : ∀ s c d a, exec (mk c d a) s = .next (s.fp1 (mk c d a) d a f)) (hf : ∀ n x, f n x = g n x) : FpUnary mk g :=
  fun s c d a => runs_of_oneWord (he s c d a) (fun _ => congrArg (fpRes s.fl) (hf _ _)) fun _ => oneWord_fpRes _ _

theorem fpBinary_of {mk : Bool → Opc → Opc → Opc → Instr} {f g : Nat → Nat → Nat → FRes}
    (he : ∀ s c d a b, exec (mk c d a b) s = .next (s.fp2 (mk c d a b) d a b f)) (hf : ∀ n x y, f n x y = g n x y) : FpBinary mk g :=
  fun s c d a b => runs_of_oneWord (he s c d a b) (fun _ => congrArg (fpRes s.fl) (hf _ _ _)) fun _ => oneWord_fpRes _ _

theorem fpTernary_of {mk : Bool → Opc → Opc → Opc → Instr} {f g : Nat → Nat → Nat → Nat → FRes}
    (he : ∀ s c d a b, exec (mk c d a b) s = .next (s.fp3 (mk c d a b) d a b f)) (hf : ∀ n x y z, f n x y z = g n x y z) :
    FpTernary mk g :=
  fun s c d a b => runs_of_oneWord (he s c d a b) (fun _ => congrArg (fpRes s.fl) (hf _ _ _ _)) fun _ => oneWord_fpRes _ _

theorem fabs_eq (x : Word) : x &&& 0x7FFFFFFF = BitVec.ofInt 32 ((x.toNat % 2 ^ 31 : Nat) : Int) := by
  refine eq_ofInt_toNat ?_
  rw [BitVec.toNat_and]
  exact (Nat.and_two_pow_sub_one_eq_mod _ 31).trans (by omega)

/-- Changing the top bit adds it, modulo the width. -/
theorem fneg_eq (x : Word) : x ^^^ 0x80000000 = BitVec.ofInt 32 ((x.toNat + 2 ^ 31 : Nat) : Int) := by
  refine eq_ofInt_toNat ?_
  rw [BitVec.toNat_xor]
  have hlow : (x.toNat ^^^ 2 ^ 31) % 2 ^ 31 = x.toNat % 2 ^ 31 := by
    rw [Nat.xor_mod_two_pow, Nat.mod_self, Nat.xor_zero]
  have htop : (x.toNat ^^^ 2 ^ 31) / 2 ^ 31 = x.toNat / 2 ^ 31 ^^^ 1 := by
    rw [Nat.xor_div_two_pow, Nat.div_self (by decide)]
  have hx : x.toNat / 2 ^ 31 = 0 ∨ x.toNat / 2 ^ 31 = 1 := by omega
  show x.toNat ^^^ 2 ^ 31 = _
  rcases hx with h | h
  · rw [h, Nat.zero_xor] at htop
    omega
  · rw [h, Nat.xor_self] at htop
    omega

theorem fCmp_eq (o : FCmp) (x y : Nat) : fCmp o x y =
    (let ordered : Bool := !f32.isNan x && !f32.isNan y
     let k := (f32.val x).cmp (f32.val y)
     let holds : Bool := match o with
       | .eq => ordered && k == 0 | .lt => ordered && decide (k < 0) | .le => ordered && decide (k ≤ 0) | .un => !ordered
     { bits := if holds then 1 else 0, iv := f32.isSnan x || f32.isSnan y }) := by
  have hone (b : Bool) : b.toNat = if b then 1 else 0 := by cases b <;> rfl
  unfold fCmp
  cases o with
  | eq | lt | le => simp only [Bool.not_or, hone]
  | un => simp only [← Bool.not_or, Bool.not_not, hone]

theorem floatForms : Claims.FloatForms :=
  ⟨fun _ => fpBinary_of (fun _ _ _ _ _ => rfl) fun _ _ _ => rfl, fun _ => fpBinary_of (fun _ _ _ _ _ => rfl) fun _ _ _ => rfl,
    fun _ => fpBinary_of (fun _ _ _ _ _ => rfl) fun _ _ _ => rfl, fun _ => fpTernary_of (fun _ _ _ _ _ => rfl) fun _ _ _ _ => rfl,
    fpBinary_of (fun _ _ _ _ _ => rfl) fun _ _ _ => rfl, fpBinary_of (fun _ _ _ _ _ => rfl) fun _ _ _ => rfl,
    unary_w (fun _ _ _ _ => rfl) fabs_eq, unary_w (fun _ _ _ _ => rfl) fneg_eq,
    fun o => fpBinary_of (fun _ _ _ _ _ => rfl) fun _ => fCmp_eq o,
    fun _ => fpUnary_of (fun _ _ _ _ => rfl) fun _ _ => rfl,
    unary_w (fun _ _ _ _ => rfl) fun _ => (BitVec.ofInt_natCast 32 _).symm⟩

theorem halfBinary_of {mk : Bool → Opc → Opc → Opc → HTy → Instr} {f : Nat → FFmt → Nat → Nat → FRes}
    (he : ∀ s c d a b y, exec (mk c d a b y) s = .next (s.hp2 (mk c d a b y) d a b (f s.nbv (hFmt y)))) : HalfBinary mk f :=
  fun s c d a b y => runs_of_oneWord (he s c d a b y) (fun _ => rfl) fun _ => oneWord_ofTrap _ _

theorem halfTernary_of {mk : Bool → Opc → Opc → Opc → HTy → Instr} {f : Nat → FFmt → Nat → Nat → Nat → FRes}
    (he : ∀ s c d a b y, exec (mk c d a b y) s = .next (s.hp3 (mk c d a b y) d a b (f s.nbv (hFmt y)))) : HalfTernary mk f :=
  fun s c d a b y => runs_of_oneWord (he s c d a b y) (fun _ => rfl) fun _ => oneWord_ofTrap _ _

theorem halfForms : HalfForms :=
  ⟨halfBinary_of fun _ _ _ _ _ _ => rfl, halfBinary_of fun _ _ _ _ _ _ => rfl, halfTernary_of fun _ _ _ _ _ _ => rfl,
    halfBinary_of fun _ _ _ _ _ _ => rfl, fun _ _ _ _ _ _ => runs_of_oneWord rfl (fun _ => rfl) fun _ => oneWord_fpRes _ _⟩

theorem specialAndDivisionForms : SpecialAndDivisionForms :=
  ⟨fpUnary_of (fun _ _ _ _ => rfl) fun _ _ => rfl, fpUnary_of (fun _ _ _ _ => rfl) fun _ _ => rfl,
    fpUnary_of (fun _ _ _ _ => rfl) fun _ _ => rfl, fpUnary_of (fun _ _ _ _ => rfl) fun _ _ => rfl,
    fpUnary_of (fun _ _ _ _ => rfl) fun _ _ => rfl, fpUnary_of (fun _ _ _ _ => rfl) fun _ _ => rfl,
    fpUnary_of (fun _ _ _ _ => rfl) fun _ _ => rfl, fpUnary_of (fun _ _ _ _ => rfl) fun _ _ => rfl,
    fpBinary_of (fun _ _ _ _ _ => rfl) fun _ _ _ => rfl⟩

/-! ### Integer division (R87) -/

theorem trapFor_dz (fl : BitVec 5) : trapFor fl false true false = if fl.getLsbD 3 then some (.of fcFP_DIVZERO) else none := by
  simp [trapFor, dzOn]

theorem divRes_eq (fl : BitVec 5) (y zero res : Word) (z : Int) (hz : res = BitVec.ofInt 32 z) :
    divRes fl y zero res = divides fl y zero z := by
  have hy : y = 0 ↔ y.toNat = 0 := BitVec.toNat_inj.symm
  unfold divRes divides
  by_cases h : y = 0
  · rw [if_pos h, if_pos (hy.mp h)]
    rw [trapFor_dz]
    by_cases hdz : fl.getLsbD 3 = true
    · rw [if_pos hdz, if_pos hdz]
    · rw [if_neg hdz, if_neg hdz]
  · rw [if_neg h, if_neg (mt hy.mpr h), hz]
    rfl

theorem sdiv_eq_ofInt (x y : Word) : x.sdiv y = BitVec.ofInt 32 (x.toInt.tdiv y.toInt) := by
  rw [← BitVec.toInt_inj, BitVec.toInt_sdiv, BitVec.toInt_ofInt]

theorem srem_eq_ofInt (x y : Word) : x.srem y = BitVec.ofInt 32 (x.toInt.tmod y.toInt) := by
  rw [← BitVec.toInt_srem, BitVec.ofInt_toInt]

theorem udiv_eq_ofInt (x y : Word) : x / y = BitVec.ofInt 32 ((x.toNat / y.toNat : Nat) : Int) :=
  eq_ofInt_toNat (by rw [← BitVec.toNat_udiv, Nat.mod_eq_of_lt (x / y).isLt])

theorem umod_eq_ofInt (x y : Word) : x % y = BitVec.ofInt 32 ((x.toNat % y.toNat : Nat) : Int) :=
  eq_ofInt_toNat (by rw [← BitVec.toNat_umod, Nat.mod_eq_of_lt (x % y).isLt])

theorem oneWord_divides (fl : BitVec 5) (y zero : Word) (z : Int) : OneWord (divides fl y zero z) := by
  unfold divides
  split
  · split
    · exact oneWord_trap _
    · exact oneWord_w _
  · exact oneWord_w _

/-- A division of two sources, whose quotient or remainder is an integer of theirs. -/
theorem runs_divides {s : State} {i : Instr} {d a b : Opc} {zero f : Word → Word → Word} {z : Word → Word → Int}
    (he : exec i s = .next (s.bin i d a b fun x y => divRes s.fl y (zero x y) (f x y))) (hz : ∀ x y, f x y = BitVec.ofInt 32 (z x y)) :
    Runs s i d (fun l => divides s.fl (s.src s.iss.gk l b) (zero (s.src s.iss.gk l a) (s.src s.iss.gk l b))
      (z (s.src s.iss.gk l a) (s.src s.iss.gk l b))) :=
  runs_of_oneWord he (fun _ => divRes_eq _ _ _ _ _ (hz _ _)) fun _ => oneWord_divides _ _ _ _

end Sys2Proof.Machine

namespace Sys2Proof.Proofs

open Sys2Proof.Machine

/-- Settles O2: the model's operations are the exact value of the statement rounded once, and every float word runs to its end. -/
theorem floatForms : Obligations.FloatForms := ⟨Machine.floatForms, halfForms, specialAndDivisionForms⟩

/-- Settles O4: the four words divide the signed or natural numbers of their sources, and differ in what a zero divisor gives. -/
theorem integerDivision : Obligations.IntegerDivision :=
  ⟨fun _ _ _ _ _ => runs_divides (zero := fun _ _ => 0xFFFFFFFF) (z := fun x y => x.toInt.tdiv y.toInt) rfl sdiv_eq_ofInt,
    fun _ _ _ _ _ => runs_divides (zero := fun _ _ => 0xFFFFFFFF) (z := fun x y => ((x.toNat / y.toNat : Nat) : Int)) rfl udiv_eq_ofInt,
    fun _ _ _ _ _ => runs_divides (zero := fun x _ => x) (z := fun x y => x.toInt.tmod y.toInt) rfl srem_eq_ofInt,
    fun _ _ _ _ _ => runs_divides (zero := fun x _ => x) (z := fun x y => ((x.toNat % y.toNat : Nat) : Int)) rfl umod_eq_ofInt⟩

end Sys2Proof.Proofs
end

section
/-! Rounding (R19): a quotient is rounded the same however it is written, and the values of FP32 round to their own encodings in every
mode. -/

namespace Sys2Proof.Machine

open Sys2Proof

/-! ### Quotients by a common power of two -/

theorem log2_two_pow_mul (j : Nat) {n : Nat} (hn : n ≠ 0) : Nat.log2 (2 ^ j * n) = j + Nat.log2 n := by
  rw [Nat.log2_eq_iff (Nat.mul_ne_zero (Nat.two_pow_pos j).ne' hn), Nat.pow_add, Nat.add_assoc, Nat.pow_add]
  exact ⟨Nat.mul_le_mul_left _ (Nat.log2_self_le hn), Nat.mul_lt_mul_of_pos_left Nat.lt_log2_self (Nat.two_pow_pos j)⟩

theorem log2q_scale (j : Nat) {n d : Nat} (hn : n ≠ 0) (hd : d ≠ 0) : log2q (2 ^ j * n) (2 ^ j * d) = log2q n d := by
  have hk : ((2 ^ j * n).log2 : Int) - ((2 ^ j * d).log2 : Int) = (n.log2 : Int) - (d.log2 : Int) := by
    rw [log2_two_pow_mul j hn, log2_two_pow_mul j hd]
    omega
  have hcond (a b : Nat) : 2 ^ j * n * a ≥ 2 ^ j * d * b ↔ n * a ≥ d * b := by
    rw [Nat.mul_assoc, Nat.mul_assoc]
    exact Nat.mul_le_mul_left_iff (Nat.two_pow_pos j)
  unfold log2q
  simp only [hk, hcond]

theorem roundsUp_scale (rm : RMode) (neg : Bool) (j q r d : Nat) : roundsUp rm neg q (2 ^ j * r) (2 ^ j * d) = roundsUp rm neg q r d := by
  have hj := Nat.two_pow_pos j
  cases rm with
  | rne =>
    have hgt : 2 * (2 ^ j * r) > 2 ^ j * d ↔ 2 * r > d := by
      rw [Nat.mul_left_comm]
      exact Nat.mul_lt_mul_left hj
    have heq : 2 * (2 ^ j * r) = 2 ^ j * d ↔ 2 * r = d := by
      rw [Nat.mul_left_comm]
      exact Nat.mul_right_inj hj.ne'
    simp only [roundsUp, hgt, Bool.beq_eq_decide_eq, heq]
  | rz => rfl
  | ru | rd =>
    have hne : 2 ^ j * r = 0 ↔ r = 0 := by simp
    simp only [roundsUp, bne, Bool.beq_eq_decide_eq, hne]

theorem roundGrid_scale (rm : RMode) (neg : Bool) (j n : Nat) {d : Nat} (prec : Nat) (qmin : Int) (hd : d ≠ 0) :
    roundGrid rm neg (2 ^ j * n) (2 ^ j * d) prec qmin = roundGrid rm neg n d prec qmin := by
  have hj := Nat.two_pow_pos j
  by_cases hn : n = 0
  · rw [hn, Nat.mul_zero, roundGrid, roundGrid, if_pos rfl, if_pos rfl]
  · have hn' : 2 ^ j * n ≠ 0 := Nat.mul_ne_zero hj.ne' hn
    unfold roundGrid
    rw [if_neg hn, if_neg hn', log2q_scale j hn hd]
    dsimp only
    rw [Nat.mul_assoc, Nat.mul_assoc, Nat.mul_div_mul_left _ _ hj, Nat.mul_mod_mul_left, roundsUp_scale]

theorem roundQ_scale (f : FFmt) (rm : RMode) (neg : Bool) (j n : Nat) {d : Nat} (hd : d ≠ 0) :
    f.roundQ rm neg (2 ^ j * n) (2 ^ j * d) = f.roundQ rm neg n d := by
  rw [FFmt.roundQ, FFmt.roundQ, roundGrid_scale rm neg j n _ _ hd]

theorem pow2_ne_zero (e : Int) : pow2 e ≠ 0 := (Nat.two_pow_pos _).ne'

/-- A value written with j more bits below. -/
theorem round_scale (f : FFmt) (rm : RMode) (s : Bool) (m j : Nat) (e : Int) :
    f.round rm (.fin s (m * 2 ^ j) (e - j)) = f.round rm (.fin s m e) := by
  obtain ⟨i, hup, hdown⟩ : ∃ i, m * 2 ^ j * pow2 (e - j) = 2 ^ i * (m * pow2 e) ∧ pow2 (-(e - j)) = 2 ^ i * pow2 (-e) := by
    refine ⟨j + (e - j).toNat - e.toNat, ?_, ?_⟩
    · rw [pow2, pow2, Nat.mul_assoc, ← Nat.pow_add, Nat.mul_left_comm, ← Nat.pow_add]
      congr 2
      omega
    · rw [pow2, pow2, ← Nat.pow_add]
      congr 1
      omega
  show f.roundQ rm s _ _ = f.roundQ rm s _ _
  rw [hup, hdown, roundQ_scale f rm s i _ (pow2_ne_zero _)]

/-! ### The values of FP32 -/

/-- The encoding of m × 2^q with a full significand, and of m × 2^-149 below the normals. -/
def normalBits (s : Bool) (m : Nat) (q : Int) : Nat := s.toNat * 2 ^ 31 + (q + 150).toNat * 2 ^ 23 + (m - 2 ^ 23)
def subnormalBits (s : Bool) (m : Nat) : Nat := s.toNat * 2 ^ 31 + m

theorem log2_of_full {m : Nat} (h : 2 ^ 23 ≤ m) (h' : m < 2 ^ 24) : m.log2 = 23 := (Nat.log2_eq_iff (by omega)).mpr ⟨h, h'⟩

theorem log2q_le (n d : Nat) : log2q n d ≤ (n.log2 : Int) - d.log2 := by
  unfold log2q
  dsimp only
  split
  · exact Int.le_refl _
  · omega

theorem log2q_full {m : Nat} (q : Int) (h : 2 ^ 23 ≤ m) (h' : m < 2 ^ 24) : log2q (m * pow2 q) (pow2 (-q)) = 23 + q := by
  have hk : ((m * pow2 q).log2 : Int) - ((pow2 (-q)).log2 : Int) = 23 + q := by
    rw [Nat.mul_comm, pow2, pow2, log2_two_pow_mul _ (by omega), Nat.log2_two_pow, log2_of_full h h']
    omega
  unfold log2q
  dsimp only
  rw [hk, if_pos]
  calc pow2 (-q) * pow2 (23 + q)
    _ = 2 ^ 23 * (pow2 q * pow2 (-(23 + q))) := by
      rw [pow2, pow2, pow2, pow2, ← Nat.pow_add, ← Nat.pow_add, ← Nat.pow_add]
      congr 1
      omega
    _ ≤ m * (pow2 q * pow2 (-(23 + q))) := Nat.mul_le_mul_right _ h
    _ = m * pow2 q * pow2 (-(23 + q)) := (Nat.mul_assoc _ _ _).symm

theorem roundsUp_exact (rm : RMode) (neg : Bool) (q : Nat) {d : Nat} (hd : d ≠ 0) : roundsUp rm neg q 0 d = false := by
  cases rm with
  | rne => simp [roundsUp, hd.symm]
  | rz => rfl
  | ru | rd => rfl

/-- A magnitude that is a whole number of the grid's units is not rounded. -/
theorem roundGrid_exact (rm : RMode) (neg : Bool) {n d prec m : Nat} {qmin q : Int} (hn : n ≠ 0)
    (hq : max qmin (log2q n d - prec + 1) = q) (hd : d ≠ 0) (hm : n * pow2 (-q) = m * (d * pow2 q)) :
    roundGrid rm neg n d prec qmin = (m, q) := by
  have hd' : d * pow2 q ≠ 0 := Nat.mul_ne_zero hd (pow2_ne_zero q)
  unfold roundGrid
  rw [if_neg hn, hq]
  dsimp only
  rw [hm, Nat.mul_div_cancel _ (Nat.pos_of_ne_zero hd'), Nat.mul_mod_left, roundsUp_exact rm neg m hd']
  rfl

theorem round_normal (rm : RMode) (s : Bool) {m : Nat} {q : Int} (h : 2 ^ 23 ≤ m) (h' : m < 2 ^ 24) (hq : -149 ≤ q) (hq' : q ≤ 104) :
    f32.round rm (.fin s m q) = { bits := normalBits s m q } := by
  have hgrid : roundGrid rm s (m * pow2 q) (pow2 (-q)) (f32.mb + 1) f32.qmin = (m, q) := by
    refine roundGrid_exact rm s (Nat.mul_ne_zero (by omega) (pow2_ne_zero q)) ?_ (pow2_ne_zero _) ?_
    · rw [log2q_full q h h', show f32.qmin = -149 from rfl, show f32.mb = 23 from rfl]
      omega
    · rw [Nat.mul_assoc, Nat.mul_comm (pow2 q)]
  show f32.roundQ rm s _ _ = _
  unfold FFmt.roundQ
  rw [hgrid]
  have hmb : f32.mb = 23 := rfl
  have hqmin : f32.qmin = -149 := rfl
  have htop : f32.top = 255 := rfl
  have hsign : f32.sign = 31 := rfl
  simp only [hmb, hqmin, htop, hsign]
  have hcarry : ¬ m = 2 ^ (23 + 1) := by omega
  have hexp : (q - -149).toNat + 1 + 0 = (q + 150).toNat := by omega
  simp only [if_neg hcarry, hexp]
  rw [if_neg (by omega), if_neg (by omega)]
  rfl

/-- A value below the normals is a whole number of the smallest unit. -/
theorem round_subnormal (rm : RMode) (s : Bool) {m : Nat} (h : m < 2 ^ 23) :
    f32.round rm (.fin s m (-149)) = { bits := subnormalBits s m } := by
  have hgrid : roundGrid rm s (m * pow2 (-149)) (pow2 (- -149)) (f32.mb + 1) f32.qmin = (m, -149) := by
    by_cases hm : m = 0
    · subst hm
      rfl
    · refine roundGrid_exact rm s (Nat.mul_ne_zero hm (pow2_ne_zero _)) ?_ (pow2_ne_zero _) ?_
      · have hle := log2q_le (m * pow2 (-149)) (pow2 (- -149))
        have hlog : m.log2 < 23 := (Nat.log2_lt hm).mpr h
        rw [show pow2 (-149) = 1 from rfl, show pow2 (- -149) = 2 ^ 149 from rfl, Nat.log2_two_pow, Nat.mul_one] at hle
        rw [show pow2 (-149) = 1 from rfl, show pow2 (- -149) = 2 ^ 149 from rfl, Nat.mul_one, show f32.qmin = -149 from rfl,
          show f32.mb = 23 from rfl]
        omega
      · rw [Nat.mul_assoc, Nat.mul_comm (pow2 _)]
  show f32.roundQ rm s _ _ = _
  unfold FFmt.roundQ
  rw [hgrid]
  exact if_pos h

/-! ### Their encodings -/

theorem val_normal (s : Bool) {m : Nat} {q : Int} (h : 2 ^ 23 ≤ m) (h' : m < 2 ^ 24) (hq : -149 ≤ q) (hq' : q ≤ 104) :
    f32.val (normalBits s m q) = .fin s m q ∧ f32.isNan (normalBits s m q) = false := by
  have hs := Bool.toNat_le s
  have hfrac : normalBits s m q % 2 ^ 23 = m - 2 ^ 23 := by unfold normalBits; omega
  have hexp : normalBits s m q / 2 ^ 23 % 2 ^ 8 = (q + 150).toNat := by unfold normalBits; omega
  have hsign : (normalBits s m q / 2 ^ 31 % 2 == 1) = s := by
    have : normalBits s m q / 2 ^ 31 % 2 = s.toNat := by unfold normalBits; omega
    rw [this]
    cases s <;> rfl
  have htop : (q + 150).toNat ≠ 255 := by omega
  constructor
  · show (if normalBits s m q / 2 ^ 23 % 2 ^ 8 = 255 then _ else if normalBits s m q / 2 ^ 23 % 2 ^ 8 = 0 then _ else
      Val.fin (normalBits s m q / 2 ^ 31 % 2 == 1) (normalBits s m q % 2 ^ 23 + 2 ^ 23)
        (((normalBits s m q / 2 ^ 23 % 2 ^ 8 : Nat) : Int) - 127 - 23)) = _
    rw [hfrac, hexp, hsign, if_neg htop, if_neg (by omega), Nat.sub_add_cancel h,
      show (((q + 150).toNat : Nat) : Int) - 127 - 23 = q by omega]
  · show (normalBits s m q / 2 ^ 23 % 2 ^ 8 == 255 && _) = false
    rw [hexp, beq_false_of_ne htop, Bool.false_and]

theorem val_subnormal (s : Bool) {m : Nat} (h : m < 2 ^ 23) :
    f32.val (subnormalBits s m) = .fin s m (-149) ∧ f32.isNan (subnormalBits s m) = false := by
  have hs := Bool.toNat_le s
  have hfrac : subnormalBits s m % 2 ^ 23 = m := by unfold subnormalBits; omega
  have hexp : subnormalBits s m / 2 ^ 23 % 2 ^ 8 = 0 := by unfold subnormalBits; omega
  have hsign : (subnormalBits s m / 2 ^ 31 % 2 == 1) = s := by
    have : subnormalBits s m / 2 ^ 31 % 2 = s.toNat := by unfold subnormalBits; omega
    rw [this]
    cases s <;> rfl
  constructor
  · show (if subnormalBits s m / 2 ^ 23 % 2 ^ 8 = 255 then _ else if subnormalBits s m / 2 ^ 23 % 2 ^ 8 = 0 then
      Val.fin (subnormalBits s m / 2 ^ 31 % 2 == 1) (subnormalBits s m % 2 ^ 23) (-149) else _) = _
    rw [hfrac, hexp, hsign, if_neg (by decide), if_pos rfl]
  · show (subnormalBits s m / 2 ^ 23 % 2 ^ 8 == 255 && _) = false
    rw [hexp]
    rfl

end Sys2Proof.Machine
end

section
/-! The special functions on the arguments of Table 5.4, and the NaN rules of Table 2.8 (O3, R34, R85). -/

namespace Sys2Proof.Machine

open Sys2Proof Sys2Proof.Claims

/-! ### Integers and powers of two in FP32 -/

theorem round_zero (f : FFmt) (rm : RMode) (s : Bool) (e : Int) : f.round rm (.fin s 0 e) = f.round .rne (.fin s 0 e) := by
  show f.roundQ rm s (0 * pow2 e) _ = f.roundQ .rne s (0 * pow2 e) _
  have hgrid (rm : RMode) (d prec : Nat) (qmin : Int) : roundGrid rm s 0 d prec qmin = (0, qmin) := if_pos rfl
  have hsmall : (0 : Nat) < 2 ^ f.mb := Nat.two_pow_pos _
  rw [Nat.zero_mul, FFmt.roundQ, FFmt.roundQ, hgrid, hgrid]
  dsimp only
  rw [if_pos hsmall, if_pos hsmall]

/-- An integer of at most 24 bits is a value of FP32: its leading bit is shifted to the top of the significand. -/
theorem round_nat (s : Bool) {n : Nat} (hn : n ≠ 0) (h : n < 2 ^ 24) : ∃ b j : Nat, j ≤ 23 ∧
    (∀ rm, f32.round rm (.fin s n 0) = { bits := b }) ∧ f32.val b = .fin s (n * 2 ^ j) (-j) ∧ f32.isNan b = false := by
  have hlog : n.log2 < 24 := (Nat.log2_lt hn).mpr h
  obtain ⟨j, hj⟩ : ∃ j, n.log2 + j = 23 := ⟨23 - n.log2, by omega⟩
  have hlow : 2 ^ 23 ≤ n * 2 ^ j := by
    rw [← hj, Nat.pow_add]
    exact Nat.mul_le_mul_right _ (Nat.log2_self_le hn)
  have hhigh : n * 2 ^ j < 2 ^ 24 := by
    rw [show 24 = n.log2 + 1 + j by omega, Nat.pow_add]
    exact Nat.mul_lt_mul_of_pos_right Nat.lt_log2_self (Nat.two_pow_pos j)
  obtain ⟨hval, hnan⟩ := val_normal s (q := -j) hlow hhigh (by omega) (by omega)
  refine ⟨normalBits s (n * 2 ^ j) (-j), j, by omega, fun rm => ?_, hval, hnan⟩
  rw [← round_scale f32 rm s n j 0, Int.zero_sub]
  exact round_normal rm s hlow hhigh (by omega) (by omega)

/-- The powers of two from the smallest subnormal up are values of FP32. -/
theorem round_twoPow {k : Int} (h : -149 ≤ k) (h' : k ≤ 127) : ∃ b l : Nat,
    (∀ rm, f32.round rm (.fin false 1 k) = { bits := b }) ∧ f32.val b = .fin false (2 ^ l) (k - l) ∧ f32.isNan b = false := by
  by_cases hk : k < -126
  · have hl : k - (k + 149).toNat = -149 := by omega
    have hsmall : 2 ^ (k + 149).toNat < 2 ^ 23 := Nat.pow_lt_pow_right (by decide) (by omega)
    obtain ⟨hval, hnan⟩ := val_subnormal false hsmall
    refine ⟨subnormalBits false (2 ^ (k + 149).toNat), (k + 149).toNat, fun rm => ?_, by rw [hl]; exact hval, hnan⟩
    rw [← round_scale f32 rm false 1 (k + 149).toNat k, hl, Nat.one_mul]
    exact round_subnormal rm false hsmall
  · obtain ⟨hval, hnan⟩ := val_normal false (m := 2 ^ 23) (q := k - (23 : Nat)) (Nat.le_refl _) (by decide) (by omega) (by omega)
    refine ⟨normalBits false (2 ^ 23) (k - (23 : Nat)), 23, fun rm => ?_, hval, hnan⟩
    rw [← round_scale f32 rm false 1 23 k, Nat.one_mul]
    exact round_normal rm false (Nat.le_refl _) (by decide) (by omega) (by omega)

/-! ### Exp2 and log2 where the result is exact -/

theorem toFx_nat (n : Nat) {j : Nat} (hj : j ≤ 23) : toFx (n * 2 ^ j) (-j) = n * 2 ^ fxP := by
  have hfx : fxP = 700 := rfl
  have hup : pow2 (-(j : Int) + fxP) = 2 ^ (fxP - j) := congrArg (2 ^ ·) (by omega)
  have hdown : pow2 (-(-(j : Int) + fxP)) = 2 ^ 0 := congrArg (2 ^ ·) (by omega)
  rw [toFx, hup, hdown, Nat.pow_zero, Nat.div_one, Nat.mul_assoc, ← Nat.pow_add, Nat.add_sub_cancel' (by omega)]

/-- Two to an integer is one power of two, rounded once. -/
theorem exp2Fin_int (rm : RMode) {k : Int} {m : Nat} {e : Int} (hsmall : m * pow2 e < 300 * pow2 (-e))
    (hfx : toFx m e = k.natAbs * 2 ^ fxP) : exp2Fin rm (decide (k < 0)) m e = f32.round rm (.fin false 1 k) := by
  have hx : (if decide (k < 0) = true then -((k.natAbs * 2 ^ fxP : Nat) : Int) else ((k.natAbs * 2 ^ fxP : Nat) : Int)) =
      k * ((2 ^ fxP : Nat) : Int) := by
    rcases Int.lt_or_le k 0 with hk | hk
    · rw [if_pos (decide_eq_true hk), Int.natCast_mul, ← Int.neg_mul, Int.ofNat_natAbs_of_nonpos (Int.le_of_lt hk), Int.neg_neg]
    · rw [if_neg (by simpa using hk), Int.natCast_mul, Int.natAbs_of_nonneg hk]
  have hne : ((2 ^ fxP : Nat) : Int) ≠ 0 := Int.natCast_ne_zero.mpr (Nat.two_pow_pos fxP).ne'
  unfold exp2Fin
  rw [if_neg (Nat.not_le.mpr hsmall), hfx]
  dsimp only
  rw [hx, Int.mul_ediv_cancel _ hne, Int.mul_emod_left, if_pos Int.toNat_zero]
  show _ = f32.roundQ rm false (1 * pow2 k) _
  rw [Nat.one_mul]

theorem unary_num (nbv : Nat) {a : Nat} (k : Val → FRes) (h : f32.isNan a = false) : unary nbv a k = k (f32.val a) := by
  rw [unary, h]
  rfl

theorem fExp2_int (n : Nat) {k : Int} (h : -149 ≤ k) (h' : k ≤ 127) :
    fExp2 n (f32.round .rne (.fin (k < 0) k.natAbs 0)).bits = f32.round .rne (.fin false 1 k) := by
  obtain ⟨b, -, hround, -, -⟩ := round_twoPow h h'
  by_cases hk : k = 0
  · subst hk
    have hx : f32.round .rne (.fin (decide ((0 : Int) < 0)) (0 : Int).natAbs 0) = { bits := 0 } := by decide
    have hval : f32.val 0 = .fin (decide ((0 : Int) < 0)) 0 (-149) := by decide
    have hfx : toFx 0 (-149) = (0 : Int).natAbs * 2 ^ fxP := by rw [toFx, Nat.zero_mul, Nat.zero_div, Int.natAbs_zero, Nat.zero_mul]
    rw [hx, fExp2, unary_num n _ (by decide), hval]
    show exp2Fin (setMode n true) (decide ((0 : Int) < 0)) _ _ = _
    rw [exp2Fin_int _ (by decide) hfx, hround, hround]
  · obtain ⟨x, j, hj, hx, hval, hnan⟩ := round_nat (decide (k < 0)) (n := k.natAbs) (by omega) (by omega)
    rw [hx, fExp2, unary_num n _ hnan, hval]
    show exp2Fin (setMode n true) (decide (k < 0)) _ _ = _
    rw [exp2Fin_int _ ?_ (toFx_nat _ hj), hround, hround]
    have hup : pow2 (-(j : Int)) = 2 ^ 0 := congrArg (2 ^ ·) (by omega)
    have hdown : pow2 (- -(j : Int)) = 2 ^ j := congrArg (2 ^ ·) (by omega)
    rw [hup, hdown, Nat.pow_zero, Nat.mul_one]
    exact Nat.mul_lt_mul_of_pos_right (by omega) (Nat.two_pow_pos j)

theorem round_int_mode (rm : RMode) {k : Int} (h : -149 ≤ k) (h' : k ≤ 127) :
    f32.round rm (.fin (k < 0) k.natAbs 0) = f32.round .rne (.fin (k < 0) k.natAbs 0) := by
  by_cases hk : k = 0
  · subst hk
    exact round_zero f32 rm _ 0
  · obtain ⟨b, j, -, hround, -, -⟩ := round_nat (decide (k < 0)) (n := k.natAbs) (by omega) (by omega)
    rw [hround, hround]

theorem fLog2_twoPow (n : Nat) {k : Int} (h : -149 ≤ k) (h' : k ≤ 127) :
    fLog2 n (f32.round .rne (.fin false 1 k)).bits = f32.round .rne (.fin (k < 0) k.natAbs 0) := by
  obtain ⟨b, l, hround, hval, hnan⟩ := round_twoPow h h'
  have hn : ((l : Int) + (k - l)) = k := by omega
  rw [hround, fLog2, unary_num n _ hnan, hval]
  dsimp only
  rw [if_neg (Nat.two_pow_pos l).ne', if_neg Bool.false_ne_true, Nat.log2_two_pow, if_pos rfl, hn]
  exact round_int_mode _ h h'

/-! ### The NaN of a result -/

theorem isNan_of_isSnan {f : FFmt} {x : Nat} (h : f.isSnan x = true) : f.isNan x = true := (Bool.and_eq_true_iff.mp h).1

theorem roundQ_iv (f : FFmt) (rm : RMode) (neg : Bool) (n d : Nat) : (f.roundQ rm neg n d).iv = false := by
  simp only [FFmt.roundQ, apply_ite FRes.iv, ite_self]

/-- Rounding a value alone is never an invalid operation. -/
theorem round_iv (f : FFmt) (rm : RMode) (v : Val) : (f.round rm v).iv = false := by
  cases v with
  | nan => rfl
  | inf s => rfl
  | fin s m e => exact roundQ_iv f rm s _ _

/-- Sign, exponent and fraction make up the encoding. -/
theorem fields_of_isNan {f : FFmt} {x : Nat} (hx : x < 2 ^ (f.sign + 1)) (h : f.isNan x = true) :
    x / 2 ^ f.sign % 2 * 2 ^ f.sign + f.top * 2 ^ f.mb + x % 2 ^ f.mb = x := by
  have hexp : x / 2 ^ f.mb % 2 ^ f.eb = f.top := beq_iff_eq.mp (Bool.and_eq_true_iff.mp h).1
  have hpow : 2 ^ f.sign = 2 ^ f.eb * 2 ^ f.mb := Nat.pow_add 2 _ _
  have hsign : x / 2 ^ f.sign % 2 = x / 2 ^ f.mb / 2 ^ f.eb := by
    rw [Nat.mod_eq_of_lt (Nat.div_lt_of_lt_mul (by rwa [Nat.pow_succ] at hx)), Nat.div_div_eq_div_mul, hpow, Nat.mul_comm]
  calc x / 2 ^ f.sign % 2 * 2 ^ f.sign + f.top * 2 ^ f.mb + x % 2 ^ f.mb
    _ = (2 ^ f.eb * (x / 2 ^ f.mb / 2 ^ f.eb) + x / 2 ^ f.mb % 2 ^ f.eb) * 2 ^ f.mb + x % 2 ^ f.mb := by
      rw [hsign, hexp, hpow, Nat.add_mul]
      congr 2
      ring
    _ = x := by rw [Nat.div_add_mod, Nat.mul_comm, Nat.div_add_mod]

/-- A NaN quieted in its own format only gains the top fraction bit. -/
theorem carryNan_self {f : FFmt} (hmb : 0 < f.mb) {x : Nat} (hx : x < 2 ^ (f.sign + 1)) (h : f.isNan x = true) :
    carryNan f f x = if f.isSnan x then x + 2 ^ (f.mb - 1) else x := by
  have hfields := fields_of_isNan hx h
  have hhalf : 2 ^ f.mb = 2 ^ (f.mb - 1) * 2 := by rw [← Nat.pow_succ, Nat.succ_eq_add_one, Nat.sub_add_cancel hmb]
  have hbit : x % 2 ^ f.mb / 2 ^ (f.mb - 1) % 2 = x / 2 ^ (f.mb - 1) % 2 := by
    rw [hhalf, Nat.mod_mul_right_div_self, Nat.mod_mod]
  have hsnan : f.isSnan x = (x / 2 ^ (f.mb - 1) % 2 == 0) := by rw [FFmt.isSnan, h, Bool.true_and]
  rw [carryNan, if_pos (Nat.le_refl _), Nat.sub_self, Nat.pow_zero, Nat.mul_one, hsnan]
  rw [hbit]
  rcases Nat.mod_two_eq_zero_or_one (x / 2 ^ (f.mb - 1)) with h0 | h1
  · rw [h0, if_neg (by decide), if_pos (by decide), ← Nat.add_assoc, hfields]
  · rw [h1, if_pos rfl, if_neg (by decide), hfields]

theorem once_of_nan {f : FFmt} {ops : List Nat} (rm : RMode) (n : Nat) (v : Option Val) (h : ∃ x ∈ ops, f.isNan x = true) :
    once f rm n ops v = { bits := nanOf n f (ops.map (fun x => (f, x))), iv := ops.any f.isSnan } := by
  have hany : (ops.map (fun x => (f, x))).any (fun o => o.1.isNan o.2) = true := by
    rw [List.any_map]
    exact List.any_eq_true.mpr h
  rw [once, finish.eq_def, if_pos hany, List.any_map]
  rfl

/-- Without a NaN operand an invalid operation gives the canonical NaN, and a value is rounded. -/
theorem once_of_num {f : FFmt} {ops : List Nat} (rm : RMode) (n : Nat) (h : ∀ x ∈ ops, f.isNan x = false) :
    once f rm n ops none = { bits := f.qnan, iv := true } ∧ ∀ v, once f rm n ops (some v) = f.round rm v := by
  have hany : ¬ (ops.map (fun x => (f, x))).any (fun o => o.1.isNan o.2) = true := by
    rw [List.any_map]
    exact Bool.eq_false_iff.mp (List.any_eq_false.mpr fun x hx => Bool.eq_false_iff.mp (h x hx))
  exact ⟨if_neg hany, fun v => if_neg hany⟩

theorem once_iv (f : FFmt) (rm : RMode) (n : Nat) (ops : List Nat) (v : Option Val) :
    (once f rm n ops v).iv = true ↔ (∃ x ∈ ops, f.isSnan x = true) ∨ ((∀ x ∈ ops, f.isNan x = false) ∧ v = none) := by
  by_cases h : ∃ x ∈ ops, f.isNan x = true
  · have hno : ¬ ∀ x ∈ ops, f.isNan x = false := by
      obtain ⟨x, hx, hnan⟩ := h
      exact fun hall => Bool.false_ne_true ((hall x hx).symm.trans hnan)
    rw [once_of_nan rm n v h, or_iff_left fun hv => hno hv.1]
    exact List.any_eq_true
  · have hnum : ∀ x ∈ ops, f.isNan x = false := fun x hx => Bool.eq_false_iff.mpr fun hnan => h ⟨x, hx, hnan⟩
    have hsnan : ¬ ∃ x ∈ ops, f.isSnan x = true := fun ⟨x, hx, hs⟩ => h ⟨x, hx, isNan_of_isSnan hs⟩
    obtain ⟨hnone, hsome⟩ := once_of_num rm n hnum
    rw [or_iff_right hsnan, and_iff_right hnum]
    cases v with
    | none => exact ⟨fun _ => rfl, fun _ => hnone ▸ rfl⟩
    | some v =>
      rw [hsome]
      exact ⟨fun hiv => absurd ((round_iv f rm v).symm.trans hiv) Bool.false_ne_true, nofun⟩

/-- Version 2 carries the first NaN operand. -/
theorem nanOf_first {f : FFmt} {pre post : List Nat} {x : Nat} (hpre : ∀ y ∈ pre, f.isNan y = false) (hx : f.isNan x = true) :
    nanOf 2 f ((pre ++ x :: post).map (fun x => (f, x))) = carryNan f f x := by
  have hnone : pre.find? f.isNan = none := List.find?_eq_none.mpr fun y hy => Bool.eq_false_iff.mp (hpre y hy)
  have hfind : ((pre ++ x :: post).map (fun x => (f, x))).find? (fun o => o.1.isNan o.2) = some (f, x) := by
    rw [List.find?_map]
    show ((pre ++ x :: post).find? f.isNan).map _ = _
    rw [List.find?_append, hnone, Option.none_or, List.find?_cons_of_pos hx]
    rfl
  rw [nanOf, if_neg (by decide), hfind]

theorem nanResults : NanResults := by
  intro f hf rm ops v hops
  have hmb : 0 < f.mb := by rcases hf with rfl | rfl | rfl <;> decide
  refine ⟨fun n => once_iv f rm n ops v, fun x hx hnan => ?_, fun pre x post hsplit hpre hnan => ?_, fun n hnum => ?_⟩
  · rw [once_of_nan rm 1 v ⟨x, hx, hnan⟩]
    rfl
  · subst hsplit
    have hx : x ∈ pre ++ x :: post := List.mem_append_right pre List.mem_cons_self
    rw [once_of_nan rm 2 v ⟨x, hx, hnan⟩]
    show nanOf 2 f _ = _
    rw [nanOf_first hpre hnan, carryNan_self hmb (hops x hx) hnan]
  · rw [(once_of_num rm n hnum).1]

/-! ### The arguments of Table 5.4 -/

theorem or_bit22 (x : Nat) : x ||| 2 ^ 22 = if x / 2 ^ 22 % 2 = 0 then x + 2 ^ 22 else x := by
  have hlow : x % 2 ^ 22 < 2 ^ 22 := Nat.mod_lt _ (by decide)
  have hjoin : x % 2 ^ 22 ||| 2 ^ 22 = x % 2 ^ 22 + 2 ^ 22 := Nat.or_two_pow_eq_add_of_lt hlow
  have hset : 2 ^ 23 * (x / 2 ^ 23) + (x % 2 ^ 22 + 2 ^ 22) = 2 ^ 23 * (x / 2 ^ 23) ||| (x % 2 ^ 22 ||| 2 ^ 22) := by
    rw [hjoin]
    exact Nat.two_pow_add_eq_or_of_lt (by omega) _
  split
  · have hx : x = 2 ^ 23 * (x / 2 ^ 23) ||| x % 2 ^ 22 := by
      rw [← Nat.two_pow_add_eq_or_of_lt (by omega)]
      omega
    calc x ||| 2 ^ 22
      _ = 2 ^ 23 * (x / 2 ^ 23) ||| (x % 2 ^ 22 ||| 2 ^ 22) := by rw [← Nat.or_assoc, ← hx]
      _ = x + 2 ^ 22 := by omega
  · have hx : x = 2 ^ 23 * (x / 2 ^ 23) ||| (x % 2 ^ 22 ||| 2 ^ 22) := by omega
    calc x ||| 2 ^ 22
      _ = 2 ^ 23 * (x / 2 ^ 23) ||| (x % 2 ^ 22 ||| 2 ^ 22) ||| 2 ^ 22 := by rw [← hx]
      _ = x := by rw [Nat.or_assoc, Nat.or_assoc, Nat.or_self, ← hx]

theorem unary_nan {n : Nat} (hn : n = 1 ∨ n = 2) (k : Val → FRes) {x : Nat} (hx : x < 2 ^ 32) (h : f32.isNan x = true) :
    unary n x k = { bits := if n = 1 then 0x7FC00000 else x ||| 2 ^ 22, iv := f32.isSnan x } := by
  rw [unary, if_pos h]
  rcases hn with rfl | rfl
  · rfl
  · have hbits : nanOf 2 f32 [(f32, x)] = x ||| 2 ^ 22 := by
      rw [or_bit22]
      refine (nanOf_first (pre := []) (post := []) nofun h).trans ((carryNan_self (by decide) hx h).trans ?_)
      rw [FFmt.isSnan, h, Bool.true_and]
      simp only [beq_iff_eq]
      rfl
    rw [hbits]
    rfl

theorem unary_zero (n : Nat) (k : Val → FRes) (s : Bool) : unary n (s.toNat * 2 ^ 31) k = k (.fin s 0 (-149)) := by
  have hval : f32.val (s.toNat * 2 ^ 31) = .fin s 0 (-149) ∧ f32.isNan (s.toNat * 2 ^ 31) = false := by
    cases s <;> decide
  rw [unary_num n k hval.2, hval.1]

theorem unary_inf (n : Nat) (k : Val → FRes) (s : Bool) : unary n (f32.inf s) k = k (.inf s) := by
  have hval : f32.val (f32.inf s) = .inf s ∧ f32.isNan (f32.inf s) = false := by
    cases s <;> decide
  rw [unary_num n k hval.2, hval.1]

/-- The encodings past minus zero are the negative values and minus infinity, no NaN. -/
theorem val_negative {x : Nat} (h : 2 ^ 31 < x) (h' : x ≤ f32.inf true) :
    f32.isNan x = false ∧ (f32.val x = .inf true ∨ ∃ m e, m ≠ 0 ∧ f32.val x = .fin true m e) := by
  have hinf : f32.inf true = 0xFF800000 := rfl
  rw [hinf] at h'
  have hsign : (x / 2 ^ 31 % 2 == 1) = true := beq_iff_eq.mpr (by omega)
  have htop : x / 2 ^ 23 % 2 ^ 8 = 255 → x % 2 ^ 23 = 0 := by omega
  have hlow : x / 2 ^ 23 % 2 ^ 8 = 0 → x % 2 ^ 23 ≠ 0 := by omega
  constructor
  · show (x / 2 ^ 23 % 2 ^ 8 == 255 && x % 2 ^ 23 != 0) = false
    rw [Bool.and_eq_false_iff, beq_eq_false_iff_ne, bne_eq_false_iff_eq]
    exact or_iff_not_imp_left.mpr fun hne => htop (not_not.mp hne)
  · have hval : f32.val x = if x / 2 ^ 23 % 2 ^ 8 = 255 then (if x % 2 ^ 23 = 0 then .inf true else .nan)
        else if x / 2 ^ 23 % 2 ^ 8 = 0 then .fin true (x % 2 ^ 23) (-149)
        else .fin true (x % 2 ^ 23 + 2 ^ 23) (((x / 2 ^ 23 % 2 ^ 8 : Nat) : Int) - 127 - 23) := by
      rw [← hsign]
      rfl
    by_cases ht : x / 2 ^ 23 % 2 ^ 8 = 255
    · exact .inl (by rw [hval, if_pos ht, if_pos (htop ht)])
    by_cases h0 : x / 2 ^ 23 % 2 ^ 8 = 0
    · exact .inr ⟨_, _, hlow h0, by rw [hval, if_neg ht, if_pos h0]⟩
    · exact .inr ⟨x % 2 ^ 23 + 2 ^ 23, _, by omega, by rw [hval, if_neg ht, if_neg h0]⟩

theorem unary_negative (n : Nat) {k : Val → FRes} {r : FRes} (hinf : k (.inf true) = r) (hfin : ∀ m e, m ≠ 0 → k (.fin true m e) = r)
    {x : Nat} (h : 2 ^ 31 < x) (h' : x ≤ f32.inf true) : unary n x k = r := by
  obtain ⟨hnan, hval | ⟨m, e, hm, hval⟩⟩ := val_negative h h'
  · rw [unary_num n k hnan, hval, hinf]
  · rw [unary_num n k hnan, hval, hfin m e hm]

theorem specialArguments : SpecialArguments := by
  intro n hn
  refine ⟨?nan, ?rcpZero, ?rcpInf, ?rsqZero, ?negative, ?rsqInf, ?sqrtZero, ?sqrtInf, ?exp2NegInf, ?exp2Inf, ?exp2Int, ?log2Zero,
    ?log2Inf, ?log2Pow, ?sinZero, ?trigInf, ?cosZero, ?tanhZero, ?tanhInf⟩
  case nan =>
    intro f hf x hx hnan
    fin_cases hf <;> exact unary_nan hn _ hx hnan
  case negative =>
    intro f hf x h h'
    have hneg {zero positive r : FRes} (m : Nat) (hm : m ≠ 0) : (if m = 0 then zero else if true then r else positive) = r := by
      rw [if_neg hm, if_pos rfl]
    fin_cases hf <;> exact unary_negative n rfl (fun m _ hm => hneg m hm) h h'
  case rcpZero | rsqZero | sqrtZero | log2Zero | sinZero | cosZero | tanhZero => exact fun s => unary_zero n _ s
  case rcpInf | tanhInf => exact fun s => unary_inf n _ s
  case rsqInf | sqrtInf | exp2Inf | log2Inf => exact unary_inf n _ false
  case exp2NegInf => exact unary_inf n _ true
  case trigInf => exact fun s => ⟨unary_inf n _ s, unary_inf n _ s⟩
  case exp2Int => exact fun k h h' => fExp2_int n h h'
  case log2Pow => exact fun k h h' => fLog2_twoPow n h h'

end Sys2Proof.Machine

namespace Sys2Proof.Proofs

open Sys2Proof.Machine Sys2Proof.Claims

/-- Settles O3: an argument of Table 5.4 has a value whose result, an exact one, rounds the same in every mode. -/
theorem specialArgumentResults : Obligations.SpecialArgumentResults := ⟨nanResults, specialArguments⟩

end Sys2Proof.Proofs
end

section
/-! The conversions (O5, R88-R93). -/

namespace Sys2Proof.Machine

open Sys2Proof Sys2Proof.Claims

/-! ### A slot that R25 calls malformed -/

/-- TSCALE 0 in a narrow format of four exponent bits and no fraction. -/
def noScaleSlot : BitVec 128 := 0x400

/-- Lane 1 of a group whose launch has that slot. -/
def noScaleState : State :=
  { State.reset with
    t := { State.reset.t with teams := [(0, { kern := { slots := [noScaleSlot] } })] }
    iss := { gk := 0, lanes := [1] } }

/-- CVTN of the lane's number, with the block scale 1, to s0. -/
def noScaleWord : Instr := .cvtn false 96 121 120 0

theorem issues_noScaleWord : Issues noScaleState noScaleWord := by
  refine ⟨by decide, by decide, by decide, fun h => ?_⟩
  exact absurd h (by decide)

/-- What the statement has the word give: the quotient by the scale 1. -/
def noScaleStated (l : Nat) : LaneRes :=
  let f := (noScaleState.kern noScaleState.iss.gk).fmt 0
  let x := (noScaleState.src noScaleState.iss.gk l 121).toNat
  let z := scaleOf noScaleState l 120
  let code := if f32.isNan x ∨ z = .nan then f.nanCode
    else if z = .fin false 0 0 then f.encode (.fin false 0 0) (.fin false 1 0) else f.encode (f32.val x) z
  fpRes noScaleState.fl { bits := code, iv := f32.isSnan x }

/-- What the model gives: the quotient by the scale 256 × 2^-8. -/
def noScaleModelled (l : Nat) : LaneRes :=
  cvtnRes noScaleState.fl ((noScaleState.kern noScaleState.iss.gk).fmt 0) (noScaleState.src noScaleState.iss.gk l 121).toNat
    (noScaleState.blockScale l 120)

/-- With TSCALE 0 the quotient is no number, and its code depends on how the scale 1 is written. -/
theorem noScale_codes : noScaleStated 1 = .w 1 ∧ noScaleModelled 1 = .w 8 := by
  constructor
  · decide
  · decide

theorem exec_noScaleWord : exec noScaleWord noScaleState = .next (noScaleState.compute noScaleWord 96 noScaleModelled) := by
  have hslot : (noScaleState.kern noScaleState.iss.gk).fmtEmpty 0 = false := by decide
  show Host.Outcome.next (noScaleState.slotWord 0 _) = _
  unfold State.slotWord
  dsimp only
  rw [if_neg (by simpa using hslot)]
  rfl

theorem inLine_of_low {res : Nat → LaneRes} {v : Word} (h : res 1 = .w v) : InLine noScaleState res := by
  intro l hl f hf
  obtain rfl : l = 1 := List.mem_singleton.mp hl
  rw [h] at hf
  cases hf

theorem sreg_of_wrote {t : State} {res : Nat → LaneRes} {v : Word} (h : Wrote noScaleState t noScaleWord 96 res) (hv : res 1 = .w v) :
    t.sreg 0 0 = v := by
  have hlow : resWords (res noScaleState.low) = [v] := congrArg resWords hv
  exact (h.dest.sHeld rfl 0 (by rw [hlow]; exact Nat.one_pos)).trans (by rw [hlow]; rfl)

end Sys2Proof.Machine

namespace Sys2Proof.Proofs

open Sys2Proof.Machine Sys2Proof.Claims

/-- Refutes O5: its clause on CVTN asks that the slot is not empty, and lets it be one that R25 calls malformed. -/
theorem not_conversionForms : ¬ Obligations.ConversionForms := by
  unfold Obligations.ConversionForms
  rintro ⟨-, hslots, -⟩
  obtain ⟨hstated, hmodelled⟩ := noScale_codes
  obtain ⟨hruns, -⟩ := hslots noScaleState false 96 121 120 0 (by decide)
  obtain ⟨t, ht, hwrote, -⟩ := hruns ⟨issues_noScaleWord, inLine_of_low hstated, nofun⟩
  have hmodel := State.compute_wrote noScaleState noScaleWord 96 noScaleModelled 1 issues_noScaleWord (inLine_of_low hmodelled) rfl
    (fits_one 96) fun _ _ => oneWord_fpRes _ _
  cases ht.symm.trans exec_noScaleWord
  have hone := sreg_of_wrote (hwrote rfl) hstated
  have height := sreg_of_wrote hmodel hmodelled
  exact absurd (hone.symm.trans height) (by decide)

end Sys2Proof.Proofs
end

section
/-! The softmax and random words (O6, R94-R100). A draw changes its lane's count before the lane goes on, so RAND and RANDN are words
that change their lanes first. -/

namespace Sys2Proof.Machine

open Sys2Proof Sys2Proof.Claims

/-! ### The softmax words -/

theorem toNat_loW (p : DWord) : (loW p).toNat = p.toNat % 2 ^ 32 := BitVec.toNat_setWidth 32 p

theorem toNat_hiW (p : DWord) : (hiW p).toNat = p.toNat / 2 ^ 32 := by
  have hp := p.isLt
  rw [hiW, BitVec.truncate_eq_setWidth, BitVec.toNat_setWidth, BitVec.toNat_ushiftRight, Nat.shiftRight_eq_div_pow]
  omega

theorem smxRes_eq (n m1 s1 m2 s2 : Nat) : smxRes n m1 s1 m2 s2 = merged n m1 s1 m2 s2 := rfl

theorem resWords_merged (n m1 s1 m2 s2 : Nat) : (resWords (merged n m1 s1 m2 s2)).length ≤ 4 := by
  unfold merged
  extract_lets m factor r
  split
  · exact Nat.le_refl 4
  · exact Nat.le_refl 4

/-- A softmax word of one register. -/
theorem smxOut_one (m z v : Nat) : smxOut [m, z] [v] =
    .w (if f32.isNan m || f32.isNan z || f32.isNan v then 0x7FC00000 else BitVec.ofNat 32 v) := by
  have hany : ([m, z] ++ [v]).any f32.isNan = (f32.isNan m || f32.isNan z || f32.isNan v) := by simp [Bool.or_assoc]
  rw [smxOut, hany]
  split
  · rfl
  · rfl

theorem softmaxWords : SoftmaxWords := by
  intro s c d a r
  refine ⟨?_, ?_, ?_⟩
  · exact runs_of_words (u := .rw d 4 2) (n := 4) rfl (fun _ => rfl) (by decide) List.mem_cons_self (.inr (.inr ⟨2, rfl⟩)) fun _ =>
      resWords_merged _ _ _ _ _
  · refine runs_of_words (u := .rw d 4 2) (n := 4) rfl (fun _ => ?_) (by decide) List.mem_cons_self (.inr (.inr ⟨2, rfl⟩)) fun _ =>
      resWords_merged _ _ _ _ _
    rw [smxRes_eq, toNat_loW, toNat_hiW]
  · refine runs_of_oneWord rfl (fun _ => ?_) fun _ => oneWord_w _
    rw [smxFinRes, smxOut_one, toNat_loW, toNat_hiW]

/-! ### The random words -/

theorem drawOf_eq (s : State) (l n : Nat) : s.drawOf s.iss.gk l n = drawAt s l n := by
  simp only [State.drawOf, drawAt]
  split
  · rfl
  · rfl

/-- An update of the state that takes nothing from the lanes and leaves them as they are. -/
def LanesCommute (upd : State → State) : Prop := ∀ (x : State) (k : Nat) (f : Lane → Lane), upd (x.modLane k f) = (upd x).modLane k f

theorem LanesCommute.modLanes {upd : State → State} (h : LanesCommute upd) (s : State) (gk : Nat) (ls : List Nat)
    (f : Nat → Lane → Lane) : upd (s.modLanes gk ls f) = (upd s).modLanes gk ls f := by
  induction ls generalizing s with
  | nil => rfl
  | cons l ls ih => rw [State.modLanes_cons, ih, h, State.modLanes_cons]

theorem lanesCommute_writeVs (gk l n : Nat) (ws : List Word) : LanesCommute (fun s => s.writeVs gk l n ws) := by
  intro x k f
  induction ws generalizing x n with
  | nil => rfl
  | cons w ws ih => exact ih (n + 1) (x.setV gk l n w)

theorem lanesCommute_writeSs (gk n : Nat) (ws : List Word) : LanesCommute (fun s => s.writeSs gk n ws) := by
  intro x k f
  induction ws generalizing x n with
  | nil => rfl
  | cons w ws ih => exact ih (n + 1) (x.setS gk n w)

theorem lanesCommute_foldl {α : Type} {f : State → α → State} (h : ∀ a, LanesCommute (fun s => f s a)) (l : List α) :
    LanesCommute (fun s => l.foldl f s) := by
  intro x k g
  induction l generalizing x with
  | nil => rfl
  | cons a l ih => exact (congrArg (l.foldl f) (h a x k g)).trans (ih (f x a))

theorem lanesCommute_writeDst (gk : Nat) (d : Opc) (res : List (Nat × LaneRes)) : LanesCommute (fun s => s.writeDst gk d res) := by
  unfold State.writeDst
  by_cases hv : isV d = true
  · simp only [if_pos hv]
    refine lanesCommute_foldl (fun p => ?_) res
    cases p.2 with
    | val ws => exact lanesCommute_writeVs _ _ _ _
    | trap f => exact fun _ _ _ => rfl
  · simp only [if_neg hv]
    match res with
    | [] => exact fun _ _ _ => rfl
    | (_, .trap _) :: _ => exact fun _ _ _ => rfl
    | (_, .val ws) :: _ =>
      by_cases hs : isS d = true
      · simp only [if_pos hs]
        exact lanesCommute_writeSs _ _ _
      · simp only [if_neg hs]
        exact fun _ _ _ => rfl

/-- A result pushed to a queue with room, then another effect of the word. -/
theorem State.deliverWith_room {s : State} {d : Opc} (hd : isQ d = true) (hroom : Room s d) (l : Nat) (ws : List Word)
    (res : List (Nat × LaneRes)) (after : State → State) :
    s.deliverWith d ((l, .val ws) :: res) after = (after (s.setGroup s.iss.gk ((s.group s.iss.gk).setQueue d.toNat
      ((s.group s.iss.gk).queue d.toNat ++ [ws.headD 0])))).finishWord ((l, .val ws) :: res) := by
  simp only [State.deliverWith, hd, if_true]
  rw [State.push_room s d l (ws.headD 0) hd hroom]

/-- Results delivered with the lanes changed once they are written: the lanes may as well be changed first. -/
theorem State.deliverWith_modLanes {s : State} {d : Opc} (v : Nat → Word) (F : Nat → Lane → Lane) (hne : s.iss.lanes ≠ [])
    (hroom : Room s d) :
    s.deliverWith d (s.iss.lanes.map fun l => (l, .w (v l))) (fun t => t.modLanes s.iss.gk s.iss.lanes F) =
      (s.modLanes s.iss.gk s.iss.lanes F).deliver d (s.iss.lanes.map fun l => (l, .w (v l))) := by
  obtain ⟨L, hL⟩ : ∃ L, s.modLanes s.iss.gk s.iss.lanes F = { s with g := { s.g with lanes := L } } := ⟨_, State.modLanes_frame _ _ _ _⟩
  have hiss : (s.modLanes s.iss.gk s.iss.lanes F).iss = s.iss := by rw [hL]
  cases hd : isQ d with
  | false =>
    simp only [State.deliver, State.deliverWith, hd, if_neg Bool.false_ne_true, hiss, id]
    rw [(lanesCommute_writeDst _ _ _).modLanes]
  | true =>
    obtain ⟨a, ls, hls⟩ := List.exists_cons_of_ne_nil hne
    have hroom' : Room (s.modLanes s.iss.gk s.iss.lanes F) d := by rw [hL]; exact hroom
    have hgroup : (s.modLanes s.iss.gk s.iss.lanes F).group s.iss.gk = s.group s.iss.gk := by rw [hL]; rfl
    have hcomm (g : Group) : LanesCommute (fun x => x.setGroup s.iss.gk g) := fun _ _ _ => rfl
    have hmap : s.iss.lanes.map (fun l => (l, LaneRes.w (v l))) = (a, .val [v a]) :: ls.map fun l => (l, .w (v l)) := by rw [hls]; rfl
    rw [hmap, State.deliver, State.deliverWith_room hd hroom, State.deliverWith_room hd hroom', hiss, hgroup, id]
    exact congrArg (fun x : State => x.finishWord _) ((hcomm _).modLanes s s.iss.gk s.iss.lanes F).symm

/-- k draws counted by a lane. -/
def countDraws (k : Nat) (_ : Nat) (x : Lane) : Lane := { x with draws := x.draws + BitVec.ofNat 32 k }

/-- What each executing lane gets of a word that takes k draws (R100). -/
def State.drawResults (s : State) (k : Nat) (f : Nat → Nat → Word) : List (Nat × LaneRes) :=
  s.iss.lanes.map fun l => (l, if (s.group s.iss.gk).pair && drawn s l + k > 1024 then .trap (.of fcILLEGAL_OPERAND)
    else .w (f l (drawn s l)))

/-- The draws counted for the lanes that got a value. -/
def State.countResults (gk k : Nat) (res : List (Nat × LaneRes)) (t : State) : State :=
  res.foldl (fun t p => match p.2 with
    | .val _ => t.modLane (lkOf gk p.1) (countDraws k p.1)
    | .trap _ => t) t

theorem State.drawWord_def (s : State) (i : Instr) (d : Opc) (k : Nat) (f : Nat → Nat → Word) : s.drawWord i d k f =
    s.laneWord i fun s => s.deliverWith d (s.drawResults k f) (State.countResults s.iss.gk k (s.drawResults k f)) := rfl

theorem State.drawResults_of_mayDraw {s : State} {k : Nat} (h : MayDraw s k) (f : Nat → Nat → Word) :
    s.drawResults k f = s.iss.lanes.map fun l => (l, .w (f l (drawn s l))) := by
  refine List.map_congr_left fun l hl => congrArg (Prod.mk l) (if_neg ?_)
  simp only [Bool.and_eq_true, decide_eq_true_eq, not_and, not_lt]
  exact fun hp => h hp l hl

theorem State.countResults_values (gk k : Nat) (ls : List Nat) (v : Nat → Word) :
    State.countResults gk k (ls.map fun l => (l, .w (v l))) = fun t => t.modLanes gk ls (countDraws k) :=
  funext fun _ => List.foldl_map

theorem State.drawWord_eq {s : State} {i : Instr} {d : Opc} {k : Nat} (f : Nat → Nat → Word) (h : Able s i d fun l => .w (f l (drawn s l)))
    (hq : popsQ1 i = false) (hm : MayDraw s k) :
    s.drawWord i d k f = (s.modLanes s.iss.gk s.iss.lanes (countDraws k)).compute i d (fun l => .w (f l (drawn s l))) := by
  obtain ⟨hi, -, hroom⟩ := h
  obtain ⟨L, hL⟩ : ∃ L, s.modLanes s.iss.gk s.iss.lanes (countDraws k) = { s with g := { s.g with lanes := L } } :=
    ⟨_, State.modLanes_frame _ _ _ _⟩
  have hissues : Issues (s.modLanes s.iss.gk s.iss.lanes (countDraws k)) i := by
    rw [hL]
    exact ⟨hi.1, hi.2.1, hi.2.2.1, fun hp => absurd (hq.symm.trans hp) Bool.false_ne_true⟩
  have hlanes : (s.modLanes s.iss.gk s.iss.lanes (countDraws k)).iss.lanes = s.iss.lanes := by rw [hL]
  rw [State.drawWord_def, State.laneWord_of_not_popsQ1 _ hi hq, State.drawResults_of_mayDraw hm, State.countResults_values,
    State.deliverWith_modLanes _ _ hi.1 hroom, State.compute, State.laneWord_of_not_popsQ1 _ hissues hq, hlanes]

theorem Lane.countDraws_advance (k l : Nat) (x : Lane) : (countDraws k l x).advance = Drew k l x := by
  unfold Drew Lane.advance
  rw [show (countDraws k l x).resume = x.resume from rfl]
  cases x.resume
  · rfl
  · rfl

/-- A word that takes k draws of each executing lane and writes one word of them. -/
theorem drawWord_computes {s : State} {i : Instr} {d : Opc} {k : Nat} {f : Nat → Nat → Word} {v : Nat → Word}
    (he : exec i s = .next (s.drawWord i d k f)) (hq : popsQ1 i = false) (hv : ∀ l, f l (drawn s l) = v l) (hm : MayDraw s k)
    (h : Able s i d fun l => .w (v l)) : Computes s i d (fun l => .w (v l)) (Drew k) := by
  obtain rfl := funext hv
  have hdrew : Drew k = fun l x => (countDraws k l x).advance := funext fun l => funext fun x => (Lane.countDraws_advance k l x).symm
  rw [hdrew]
  exact computes_of_lanesFirst hq h (State.modLanes_frame _ _ _ _) (State.modLanes_become s _ h.1.2.1)
    (he.trans (congrArg Host.Outcome.next (State.drawWord_eq f h hq hm)))

theorem normal_eq (n : Nat) (w0 w1 : Word) : BitVec.ofNat 32 (normal n w0 w1) = variate n w0 w1 := rfl

theorem State.writeDst_trap (s : State) (gk : Nat) (d : Opc) (l : Nat) (f : FaultInfo) : s.writeDst gk d [(l, .trap f)] = s := by
  unfold State.writeDst
  split
  · rfl
  · rfl

/-- A lone lane that traps at a word with a register destination. -/
theorem State.deliverWith_trap {s : State} {d : Opc} {l : Nat} (hd : isQ d = false) (hl : s.iss.lanes = [l]) (f : FaultInfo) (k : Nat) :
    s.deliverWith d [(l, .trap f)] (State.countResults s.iss.gk k [(l, .trap f)]) = s.raiseAll f := by
  have hwrite : s.deliverWith d [(l, .trap f)] (State.countResults s.iss.gk k [(l, .trap f)]) =
      (s.writeDst s.iss.gk d [(l, .trap f)]).finishWord [(l, .trap f)] := if_neg (by rw [hd]; exact Bool.false_ne_true)
  rw [hwrite, State.writeDst_trap, State.raiseAll, hl]
  rfl

/-- A lone pair lane past its draws takes the fault, and its destination stays as it is (R100). -/
theorem rand_faults (s : State) (c : Bool) (d : Opc) (l : Nat) (h : Issues s (.rand c d)) (hd : isQ d = false) (hl : s.iss.lanes = [l])
    (hp : (s.group s.iss.gk).pair = true) (hn : drawn s l = 1024) : Faults s (.rand c d) (.of fcILLEGAL_OPERAND) := by
  have hres (f : Nat → Nat → Word) : s.drawResults 1 f = [(l, .trap (.of fcILLEGAL_OPERAND))] := by
    simp [State.drawResults, hl, hp, hn]
  refine congrArg Host.Outcome.next ?_
  rw [State.drawWord_def, State.laneWord_of_not_popsQ1 _ h rfl, hres, State.deliverWith_trap hd hl]
  rfl

theorem randomWords : RandomWords := fun s c d =>
  ⟨drawWord_computes rfl rfl fun l => drawOf_eq s l _,
    drawWord_computes rfl rfl fun l => by rw [drawOf_eq, drawOf_eq, normal_eq],
    rand_faults s c d⟩

end Sys2Proof.Machine

namespace Sys2Proof.Proofs

/-- Settles O6: the softmax words compute R41's merge, and a word that draws is one that counts its lanes' draws first. -/
theorem softmaxAndRandomWords : Obligations.SoftmaxAndRandomWords := ⟨Machine.softmaxWords, Machine.randomWords⟩

end Sys2Proof.Proofs
end

section
/-! The layout of a capability and its check byte (O10, R101, R102). -/

namespace Sys2Proof.Machine

open Sys2Proof Sys2Proof.Claims

/-! ### The check byte reads the bits above it -/

theorem shiftRight_of_shiftRight_eight {c c' : Cap} (h : c >>> 8 = c' >>> 8) {n : Nat} (hn : 8 ≤ n) : c >>> n = c' >>> n := by
  obtain ⟨k, rfl⟩ := Nat.exists_eq_add_of_le hn
  rw [BitVec.shiftRight_add, BitVec.shiftRight_add, h]

theorem capCheck_of_shiftRight_eight {c c' : Cap} (h : c >>> 8 = c' >>> 8) : capCheck c = capCheck c' := by
  refine List.foldl_ext _ _ _ fun crc i hi => ?_
  rw [shiftRight_of_shiftRight_eight h (by have := List.mem_range.mp hi; omega)]

/-- The fields of a capability lie above its check byte. -/
structure SameFields (c c' : Cap) : Prop where
  type : Cap.type c = Cap.type c'
  rights : Cap.rights c = Cap.rights c'
  obj : Cap.obj c = Cap.obj c'
  base : Cap.base c = Cap.base c'
  len : Cap.len c = Cap.len c'

theorem sameFields_of_shiftRight_eight {c c' : Cap} (h : c >>> 8 = c' >>> 8) : SameFields c c' := by
  have hs {n : Nat} (hn : 8 ≤ n) := shiftRight_of_shiftRight_eight h hn
  refine ⟨?_, ?_, ?_, ?_, ?_⟩
  · rw [Cap.type, Cap.type, hs (by decide)]
  · rw [Cap.rights, Cap.rights, hs (by decide)]
  · rw [Cap.obj, Cap.obj, hs (by decide)]
  · rw [Cap.base, Cap.base, hs (by decide)]
  · rw [Cap.len, Cap.len, h]

/-- The bits above the check byte are the fields in their places. -/
theorem toNat_shiftRight_eight (c : Cap) : (c >>> 8).toNat =
    Cap.type c * 2 ^ 112 + (Cap.rights c).toNat * 2 ^ 104 + Cap.obj c * 2 ^ 80 + Cap.base c * 2 ^ 40 + Cap.len c := by
  have hc := c.isLt
  simp only [Cap.type, Cap.rights, Cap.obj, Cap.base, Cap.len, BitVec.truncate_eq_setWidth, BitVec.toNat_setWidth,
    BitVec.toNat_ushiftRight, Nat.shiftRight_eq_div_pow]
  omega

theorem shiftRight_eight_of_sameFields {c c' : Cap} (h : SameFields c c') : c >>> 8 = c' >>> 8 := by
  obtain ⟨htype, hrights, hobj, hbase, hlen⟩ := h
  refine BitVec.eq_of_toNat_eq ?_
  rw [toNat_shiftRight_eight, toNat_shiftRight_eight, htype, hrights, hobj, hbase, hlen]

theorem eq_of_sameFields {c c' : Cap} (hc : capOk c = true) (hc' : capOk c' = true) (h : SameFields c c') : c = c' := by
  have hhigh := shiftRight_eight_of_sameFields h
  have hlow : Cap.chk c = Cap.chk c' := by
    rw [eq_of_beq hc, eq_of_beq hc', capCheck_of_shiftRight_eight hhigh]
  have h1 := congrArg BitVec.toNat hhigh
  have h2 := congrArg BitVec.toNat hlow
  simp only [Cap.chk, BitVec.truncate_eq_setWidth, BitVec.toNat_setWidth, BitVec.toNat_ushiftRight, Nat.shiftRight_eq_div_pow] at h1 h2
  exact BitVec.eq_of_toNat_eq (by omega)

/-! ### A capability made of fields -/

/-- The fields in their places, without a check byte. -/
def fieldsOnly (type rights obj base len : Nat) : Cap :=
  BitVec.ofNat 128 (type % 256 * 2 ^ 120 + rights % 256 * 2 ^ 112 + obj % 2 ^ 24 * 2 ^ 88 + base % 2 ^ 40 * 2 ^ 48 + len % 2 ^ 40 * 256)

theorem mkCap_eq (type rights obj base len : Nat) : mkCap type rights obj base len =
    fieldsOnly type rights obj base len ||| (capCheck (fieldsOnly type rights obj base len)).zeroExtend 128 := rfl

theorem shiftRight_eight_or_byte (c : Cap) (b : BitVec 8) : (c ||| b.zeroExtend 128) >>> 8 = c >>> 8 := by
  refine BitVec.eq_of_getLsbD_eq fun i _ => ?_
  simp

theorem mkCap_shiftRight_eight (type rights obj base len : Nat) :
    mkCap type rights obj base len >>> 8 = fieldsOnly type rights obj base len >>> 8 := shiftRight_eight_or_byte _ _

theorem capOk_mkCap (type rights obj base len : Nat) : capOk (mkCap type rights obj base len) = true := by
  have hlow : (fieldsOnly type rights obj base len).truncate 8 = 0#8 := by
    refine BitVec.eq_of_toNat_eq ?_
    simp only [fieldsOnly, BitVec.truncate_eq_setWidth, BitVec.toNat_setWidth, BitVec.toNat_ofNat]
    omega
  have hchk : Cap.chk (mkCap type rights obj base len) = capCheck (fieldsOnly type rights obj base len) := by
    rw [Cap.chk, mkCap_eq, BitVec.truncate_eq_setWidth, BitVec.setWidth_or, ← BitVec.truncate_eq_setWidth, hlow]
    simp
  rw [capOk, hchk, capCheck_of_shiftRight_eight (mkCap_shiftRight_eight _ _ _ _ _), beq_self_eq_true]

theorem mkCap_fields {type rights obj base len : Nat} (ht : type < 2 ^ 8) (hr : rights < 2 ^ 8) (ho : obj < 2 ^ 24) (hb : base < 2 ^ 40)
    (hl : len < 2 ^ 40) : CapIs (mkCap type rights obj base len) type (BitVec.ofNat 8 rights) obj base len := by
  obtain ⟨htype, hrights, hobj, hbase, hlen⟩ := sameFields_of_shiftRight_eight (mkCap_shiftRight_eight type rights obj base len)
  have hn : (fieldsOnly type rights obj base len).toNat =
      type * 2 ^ 120 + rights * 2 ^ 112 + obj * 2 ^ 88 + base * 2 ^ 48 + len * 256 := by
    rw [fieldsOnly, BitVec.toNat_ofNat]
    omega
  refine ⟨?_, ?_, ?_, ?_, ?_, capOk_mkCap _ _ _ _ _⟩
  · rw [htype, Cap.type, BitVec.toNat_ushiftRight, Nat.shiftRight_eq_div_pow, hn]
    omega
  · rw [hrights]
    refine BitVec.eq_of_toNat_eq ?_
    rw [Cap.rights, BitVec.truncate_eq_setWidth, BitVec.toNat_setWidth, BitVec.toNat_ushiftRight, Nat.shiftRight_eq_div_pow, hn,
      BitVec.toNat_ofNat]
    omega
  · rw [hobj, Cap.obj, BitVec.toNat_ushiftRight, Nat.shiftRight_eq_div_pow, hn]
    omega
  · rw [hbase, Cap.base, BitVec.toNat_ushiftRight, Nat.shiftRight_eq_div_pow, hn]
    omega
  · rw [hlen, Cap.len, BitVec.toNat_ushiftRight, Nat.shiftRight_eq_div_pow, hn]
    omega

theorem capOk_zero : capOk 0 = true := by
  have hbyte : crcByte 0 0 = 0 := by decide
  have hzero : capCheck 0 = 0 := by
    refine foldl_of_fixed _ _ _ fun i _ => ?_
    rw [show ((0 : Cap) >>> (8 * (15 - i))).truncate 8 = 0 by simp, hbyte]
  rw [capOk, hzero]
  rfl

theorem capabilityLayout : CapabilityLayout :=
  ⟨fun _ _ _ _ _ => mkCap_fields, fun _ _ hc hc' ht hr ho hb hl => eq_of_sameFields hc hc' ⟨ht, hr, ho, hb, hl⟩,
    ⟨rfl, rfl, rfl, rfl, rfl, capOk_zero⟩⟩

end Sys2Proof.Machine
end

section
/-! The capability words (O9, O10, R102-R107). Each checks the capability register that it names and runs once, so what a word does is
its body on a usable capability, a fault on any other. -/

namespace Sys2Proof.Machine

open Sys2Proof Sys2Proof.Claims

/-! ### The check of the register -/

theorem capUse_of_usable {c : Cap} (h : Usable c) : capUse c = none := by
  obtain ⟨hok, htype⟩ := h
  rw [capUse, hok, if_neg (by simp), if_neg (by omega)]

theorem capUse_of_check {c : Cap} (h : capOk c = false) : capUse c = some (capFault fcCAP_CHECK c 0) := by
  rw [capUse, h, if_pos (by simp)]

theorem capUse_of_type {c : Cap} (h : capOk c = true) (ht : 9 ≤ Cap.type c) : capUse c = some (capFault fcCAP_TYPE c 0) := by
  rw [capUse, h, if_neg (by simp), if_pos ht]

section

variable {s : State} {i : Instr} {a : Opc} {body : State → Cap → ORes}

/-- A capability word on a usable register runs its body once. -/
theorem State.capWord_of_usable (h : Issues s i) (hq : popsQ1 i = false) (hu : Usable (s.creg s.iss.gk a.toNat)) :
    s.capWord i a body = s.once (body s (s.creg s.iss.gk a.toNat)) := by
  rw [State.capWord, State.laneWord_of_not_popsQ1 _ h hq]
  dsimp only
  rw [capUse_of_usable hu]

theorem State.capWord_of_fault (h : Issues s i) (hq : popsQ1 i = false) {f : FaultInfo}
    (hf : capUse (s.creg s.iss.gk a.toNat) = some f) : s.capWord i a body = s.raiseAll f := by
  rw [State.capWord, State.laneWord_of_not_popsQ1 _ h hq]
  dsimp only
  rw [hf]

end

/-- The five capability words. -/
def capWords (c : Bool) (d a b : Opc) : List Instr :=
  [.capsub c d a b, .caprestrict c d a b, .caplen c d a, .captype c d a, .capmov c d a]

/-- The outcome of a subdivision: its fault, or the capability written. -/
def subOut (s : State) (d : Opc) : Except FaultInfo Cap → ORes
  | .error f => .fault f
  | .ok y => .ok (s.setC s.iss.gk d.toNat y)

/-- What each capability word does with its checked register. -/
def capBody (d b : Opc) (i : Instr) (s : State) (x : Cap) : ORes :=
  match i with
  | .capsub .. => subOut s d (capSub x (s.src64 s.iss.gk 0 b).toNat (s.src64 s.iss.gk 0 (b + 2)).toNat)
  | .caprestrict .. => .ok (s.setC s.iss.gk d.toNat (mkCap (Cap.type x)
      ((Cap.rights x).toNat &&& (s.src s.iss.gk s.low b).toNat % 256) (Cap.obj x) (Cap.base x) (Cap.len x)))
  | .caplen .. => .ok (s.writeAll64 d (BitVec.ofNat 64 (Cap.len x)))
  | .captype .. => .ok (s.writeAll64 d (BitVec.ofNat 64 (Cap.type x + (Cap.rights x).toNat * 2 ^ 8 + Cap.obj x * 2 ^ 32)))
  | _ => .ok (s.setC s.iss.gk d.toNat x)

theorem exec_capWord {c : Bool} {d a b : Opc} {i : Instr} (hi : i ∈ capWords c d a b) (s : State) :
    exec i s = .next (s.capWord i a (capBody d b i)) ∧ popsQ1 i = false := by
  simp only [capWords, List.mem_cons, List.not_mem_nil, or_false] at hi
  rcases hi with rfl | rfl | rfl | rfl | rfl
  all_goals exact ⟨rfl, rfl⟩

/-! ### Faults (R102, R105) -/

theorem faults_of_raiseAll {s t : State} {i : Instr} {f : FaultInfo} (he : exec i s = .next t) (hq : popsQ1 i = false)
    (ht : t = s.raiseAll f) : Faults s i f := by
  rw [Faults, Popping, hq, if_neg Bool.false_ne_true, he, ht]

theorem capSub_null {x : Cap} (h : Cap.type x = 0) (off len : Nat) : capSub x off len = .error (capFault fcCAP_NULL x off) := by
  rw [capSub, if_pos h]

theorem capSub_bounds {x : Cap} {off len : Nat} (h : Cap.type x ≠ 0) (hb : Cap.len x < off + len ∨ 2 ^ 40 < Cap.base x + off + len) :
    capSub x off len = .error (capFault fcCAP_BOUNDS x off) := by
  rw [capSub, if_neg h, if_pos]
  simpa using hb

theorem capSub_ok {x : Cap} {off len : Nat} (h : Cap.type x ≠ 0) (hl : off + len ≤ Cap.len x) (hb : Cap.base x + off + len ≤ 2 ^ 40) :
    capSub x off len = .ok (mkCap (Cap.type x) (Cap.rights x).toNat (Cap.obj x) (Cap.base x + off) len) := by
  rw [capSub, if_neg h, if_neg]
  simp only [Bool.or_eq_true, decide_eq_true_eq, not_or, gt_iff_lt, not_lt]
  exact ⟨hl, hb⟩

theorem capabilityFaults : CapabilityFaults := by
  intro s c d a b x off len
  refine ⟨fun i hi h => ?_, fun hu h => ?_⟩
  · obtain ⟨he, hq⟩ := exec_capWord hi s
    exact ⟨fun hbad => faults_of_raiseAll he hq (State.capWord_of_fault h hq (capUse_of_check hbad)),
      fun hok htype => faults_of_raiseAll he hq (State.capWord_of_fault h hq (capUse_of_type hok htype))⟩
  · have hword : s.capWord (.capsub c d a b) a (capBody d b (.capsub c d a b)) =
        s.once (subOut s d (capSub x off len)) := State.capWord_of_usable h rfl hu
    refine ⟨fun hnull => faults_of_raiseAll rfl rfl (hword.trans ?_), fun hnull hb => faults_of_raiseAll rfl rfl (hword.trans ?_)⟩
    · rw [capSub_null hnull]
      rfl
    · rw [capSub_bounds hnull hb]
      rfl

/-! ### Words on a usable register (R105-R107) -/

theorem capField_bounds (x : Cap) : Cap.type x < 2 ^ 8 ∧ Cap.obj x < 2 ^ 24 ∧ Cap.base x < 2 ^ 40 ∧ Cap.len x < 2 ^ 40 := by
  have hx := x.isLt
  refine ⟨?_, Nat.mod_lt _ (Nat.two_pow_pos _), Nat.mod_lt _ (Nat.two_pow_pos _), Nat.mod_lt _ (Nat.two_pow_pos _)⟩
  rw [Cap.type, BitVec.toNat_ushiftRight, Nat.shiftRight_eq_div_pow]
  omega

/-- A capability of the same type and object. -/
theorem mkCap_of_cap (x : Cap) {rights base len : Nat} (hr : rights < 2 ^ 8) (hb : base < 2 ^ 40) (hl : len < 2 ^ 40) :
    CapIs (mkCap (Cap.type x) rights (Cap.obj x) base len) (Cap.type x) (BitVec.ofNat 8 rights) (Cap.obj x) base len := by
  obtain ⟨htype, hobj, -, -⟩ := capField_bounds x
  exact mkCap_fields htype hr hobj hb hl

/-- A capability register written by a word whose lanes then go on. -/
theorem wroteCap_setC {s : State} {d : Opc} (hd : d.toNat < 8) (hls : s.iss.lanes.Pairwise (· < ·)) (y : Cap) :
    WroteCap s (s.setC s.iss.gk d.toNat y).advAll d y := by
  obtain ⟨hin, hout⟩ := allAdvance_advAll (s := s.setC s.iss.gk d.toNat y) hls
  have hcreg (k r : Nat) : (s.setC s.iss.gk d.toNat y).advAll.creg k r = (s.setC s.iss.gk d.toNat y).creg k r := by
    rw [onlyLanes_advAll (s.setC s.iss.gk d.toNat y)]
    rfl
  refine ⟨?_, ⟨hin, hout⟩, ?_, fun k r hr hk => ?_⟩
  · obtain ⟨L, hL⟩ : ∃ L, (s.setC s.iss.gk d.toNat y).advAll =
        { s.setC s.iss.gk d.toNat y with g := { (s.setC s.iss.gk d.toNat y).g with lanes := L } } := ⟨_, onlyLanes_advAll _⟩
    rw [hL]
    rfl
  · rw [hcreg, State.creg_setC_same]
  · rw [hcreg]
    exact (State.creg_setC s s.iss.gk d.toNat y (cKey k r)).trans (if_neg (mt (cKey_inj k r _ _ hr hd).mp hk))

theorem lt_of_cw {budget : Nat} {i : Instr} {n : Nat} (h : operandsOk budget i = true) (hu : .cw n ∈ uses i) : n < 8 :=
  of_decide_eq_true (List.all_eq_true.mp h _ hu)

/-- A capability word whose body writes a capability register. -/
theorem goes_wroteCap {s : State} {c : Bool} {d a b : Opc} {i : Instr} {y : Cap} (hi : i ∈ capWords c d a b) (h : Issues s i)
    (hd : .cw d.toNat ∈ uses i) (hu : Usable (s.creg s.iss.gk a.toNat))
    (hbody : capBody d b i s (s.creg s.iss.gk a.toNat) = .ok (s.setC s.iss.gk d.toNat y)) : Goes s i (fun t => WroteCap s t d y) := by
  obtain ⟨he, hq⟩ := exec_capWord hi s
  refine ⟨_, he, ?_⟩
  rw [State.capWord_of_usable h hq hu, hbody]
  exact wroteCap_setC (lt_of_cw h.2.2.1 hd) h.2.1 y

theorem goes_exists {s : State} {d : Opc} {i : Instr} {y : Cap} {P : Cap → Prop} (hP : P y) (h : Goes s i (fun t => WroteCap s t d y)) :
    Goes s i (fun t => ∃ y, P y ∧ WroteCap s t d y) := by
  obtain ⟨t, ht, hw⟩ := h
  exact ⟨t, ht, y, hP, hw⟩

theorem rights_and (r : BitVec 8) (m : Word) : BitVec.ofNat 8 (r.toNat &&& m.toNat % 256) = r &&& m.setWidth 8 := by
  refine BitVec.eq_of_toNat_eq ?_
  rw [BitVec.toNat_ofNat, BitVec.toNat_and, BitVec.toNat_setWidth]
  exact Nat.mod_eq_of_lt (Nat.and_lt_two_pow _ (Nat.mod_lt _ (Nat.two_pow_pos 8)))

theorem rights_and_lt (r : BitVec 8) (m : Nat) : r.toNat &&& m % 256 < 2 ^ 8 := Nat.and_lt_two_pow _ (Nat.mod_lt _ (by decide))

/-! ### Fields written to a register pair (R107) -/

theorem State.writeAll_eq_writeDst (s : State) (d : Opc) (v : Word) (hne : s.iss.lanes ≠ []) :
    s.writeAll d v = s.writeDst s.iss.gk d (s.iss.lanes.map fun l => (l, .w v)) := by
  obtain ⟨a, ls, hls⟩ := List.exists_cons_of_ne_nil hne
  unfold State.writeAll State.writeDst
  split
  · rw [List.foldl_map]
    rfl
  · rw [hls]
    rfl

/-- A register operand of two registers, and the register after the first. -/
theorem next_of_regRun {budget : Nat} {d : Opc} {even : Bool} (h : regRun budget d 2 even = true) :
    (d + 1).toNat = d.toNat + 1 ∧ isV (d + 1) = isV d ∧ isS (d + 1) = isS d := by
  simp only [regRun, isV, isS, Bool.and_eq_true, Bool.or_eq_true, decide_eq_true_eq] at h
  have hd : d.toNat + 1 < 2 ^ 7 := by omega
  have hnext : (d + 1).toNat = d.toNat + 1 := by
    rw [BitVec.toNat_add]
    exact Nat.mod_eq_of_lt hd
  refine ⟨hnext, ?_, ?_⟩
  · rw [isV, isV, hnext]
    exact decide_eq_decide.mpr (by omega)
  · rw [Bool.eq_iff_iff]
    simp only [isS, hnext, Bool.and_eq_true, decide_eq_true_eq]
    omega

/-- Two results written one after another, to a register and to the next, are one result of two words. -/
theorem destHolds_pair {s x y : State} {d : Opc} {budget : Nat} {even : Bool} (hreg : regRun budget d 2 even = true) (v : DWord)
    (hx : x.iss = s.iss) (hlo : DestHolds s x d fun _ => .w (loW v)) (hhi : DestHolds x y (d + 1) fun _ => .w (hiW v)) :
    DestHolds s y d fun _ => .d v := by
  obtain ⟨hnext, hv, hs⟩ := next_of_regRun hreg
  obtain ⟨hfitV, hfitS⟩ := fits_of_regRun hreg
  obtain ⟨loV, loVKept, loS, loSKept⟩ := hlo
  obtain ⟨hiV, hiVKept, hiS, hiSKept⟩ := hhi
  have hsub (h : isS d = true) : d.toNat + 1 - 96 = d.toNat - 96 + 1 := by
    simp only [isS, Bool.and_eq_true, decide_eq_true_eq] at h
    omega
  rw [hnext, hx, hv] at hiV hiVKept
  rw [hnext, hx, hs] at hiS hiSKept
  refine ⟨fun h l hl j hj => ?_, fun k r hr hk => ?_, fun h j hj => ?_, fun k r hr hk => ?_⟩
  · match j, hj with
    | 0, _ =>
      refine (hiVKept _ _ (by have := hfitV h; omega) ?_).trans (loV h l hl 0 Nat.one_pos)
      rintro ⟨-, -, -, -, hle, -⟩
      omega
    | 1, _ => exact hiV h l hl 0 Nat.one_pos
  · refine (hiVKept k r hr fun ⟨h, l, hl, hk', hle, hlt⟩ => hk ⟨h, l, hl, hk', by omega, ?_⟩).trans
      (loVKept k r hr fun ⟨h, l, hl, hk', hle, hlt⟩ => hk ⟨h, l, hl, hk', hle, ?_⟩)
    · exact Nat.lt_of_lt_of_eq hlt (Nat.add_assoc _ 1 1)
    · exact Nat.lt_succ_of_lt hlt
  · rw [hsub h] at hiS hiSKept
    match j, hj with
    | 0, _ =>
      refine (hiSKept _ _ (by have := hfitS h; omega) ?_).trans (loS h 0 Nat.one_pos)
      rintro ⟨-, -, hle, -⟩
      omega
    | 1, _ => exact hiS h 0 Nat.one_pos
  · refine (hiSKept k r hr fun ⟨h, hk', hle, hlt⟩ => hk ⟨h, hk', ?_, ?_⟩).trans
      (loSKept k r hr fun ⟨h, hk', hle, hlt⟩ => hk ⟨h, hk', hle, Nat.lt_succ_of_lt hlt⟩)
    · rw [hsub h] at hle
      omega
    · rw [hsub h] at hlt
      exact Nat.lt_of_lt_of_eq hlt (Nat.add_assoc _ 1 1)

/-- A 64-bit group value written to a register pair. -/
theorem State.writeAll64_holds {s : State} {d : Opc} {budget : Nat} (hreg : regRun budget d 2 true = true) (v : DWord)
    (hne : s.iss.lanes ≠ []) :
    s.writeAll64 d v = { s with g := { s.g with vreg := (s.writeAll64 d v).g.vreg, sreg := (s.writeAll64 d v).g.sreg } } ∧
      DestHolds s (s.writeAll64 d v) d fun _ => .d v := by
  obtain ⟨hx, hlo⟩ := State.writeDst_holds s d (fun _ => .w (loW v)) 1 hne (fits_one d) fun _ _ => oneWord_w _
  rw [← State.writeAll_eq_writeDst s d _ hne] at hx hlo
  unfold State.writeAll64
  generalize s.writeAll d (loW v) = x at hx hlo ⊢
  have hiss : x.iss = s.iss := by rw [hx]
  have hne' : x.iss.lanes ≠ [] := by rw [hiss]; exact hne
  obtain ⟨hy, hhi⟩ := State.writeDst_holds x (d + 1) (fun _ => .w (hiW v)) 1 hne' (fits_one _) fun _ _ => oneWord_w _
  rw [← State.writeAll_eq_writeDst x (d + 1) _ hne'] at hy hhi
  refine ⟨?_, destHolds_pair hreg v hiss hlo hhi⟩
  obtain ⟨A, B, hxA⟩ : ∃ A B, x = { s with g := { s.g with vreg := A, sreg := B } } := ⟨_, _, hx⟩
  rw [hy, hxA]

theorem groupBecomes_of_kept {s t : State} (h : ∀ k, t.group k = s.group k) : GroupBecomes s t (s.group s.iss.gk) := by
  intro k
  rw [h k]
  split
  next hk => rw [hk]
  next => rfl

/-- A capability word whose body writes a register pair. -/
theorem computes_writeAll64 {s : State} {c : Bool} {d a b : Opc} {i : Instr} {v : DWord} (hi : i ∈ capWords c d a b) (h : Issues s i)
    (hd : .wn d 2 ∈ uses i) (hdq : isQ d = false) (hu : Usable (s.creg s.iss.gk a.toNat))
    (hbody : capBody d b i s (s.creg s.iss.gk a.toNat) = .ok (s.writeAll64 d v)) : Computes s i d fun _ => .d v := by
  obtain ⟨he, hq⟩ := exec_capWord hi s
  have hreg : regRun (s.group s.iss.gk).regs d 2 true = true := List.all_eq_true.mp h.2.2.1 _ hd
  obtain ⟨hframe, hdest⟩ := State.writeAll64_holds hreg v h.1
  refine ⟨_, he, fun _ => ?_, fun h' => absurd (hdq.symm.trans h') Bool.false_ne_true⟩
  rw [State.capWord_of_usable h hq hu, hbody]
  show Wrote s (s.writeAll64 d v).advAll i d _ _
  generalize s.writeAll64 d v = x at hframe hdest ⊢
  obtain ⟨A, B, rfl⟩ : ∃ A B, x = { s with g := { s.g with vreg := A, sreg := B } } := ⟨_, _, hframe⟩
  obtain ⟨hin, hout⟩ := allAdvance_advAll (s := { s with g := { s.g with vreg := A, sreg := B } }) h.2.1
  obtain ⟨L, hL⟩ : ∃ L, State.advAll { s with g := { s.g with vreg := A, sreg := B } } =
      { s with g := { s.g with vreg := A, sreg := B, lanes := L } } := ⟨_, onlyLanes_advAll _⟩
  rw [hL] at hin hout ⊢
  obtain ⟨vHeld, vKept, sHeld, sKept⟩ := hdest
  have hpopped : Popped s i = s.group s.iss.gk := if_neg (by rw [hq]; exact Bool.false_ne_true)
  refine ⟨rfl, ⟨hin, hout⟩, ?_, vHeld, vKept, sHeld, sKept⟩
  rw [hpopped]
  exact groupBecomes_of_kept fun _ => rfl

theorem capabilityWords : Claims.CapabilityWords := by
  intro s c d a b hu x off len
  obtain ⟨htype, hobj, hbase, hlen⟩ := capField_bounds x
  refine ⟨fun h hnull hl hb hlt => ?_, fun h => ?_, fun h => ?_, fun h hd => ?_, fun h hd => ?_⟩
  · refine goes_exists (y := mkCap (Cap.type x) (Cap.rights x).toNat (Cap.obj x) (Cap.base x + off) len) ?_ ?_
    · have hfields := mkCap_of_cap x (Cap.rights x).isLt hlt (show len < 2 ^ 40 by omega)
      rwa [BitVec.ofNat_toNat, BitVec.setWidth_eq] at hfields
    · refine goes_wroteCap (c := c) (a := a) (b := b) List.mem_cons_self h List.mem_cons_self hu ?_
      show subOut s d (capSub x off len) = _
      rw [capSub_ok hnull hl hb, subOut]
  · refine goes_exists (y := mkCap (Cap.type x) ((Cap.rights x).toNat &&& (s.src s.iss.gk s.low b).toNat % 256) (Cap.obj x)
      (Cap.base x) (Cap.len x)) ?_ ?_
    · have hfields := mkCap_of_cap x (rights_and_lt (Cap.rights x) (s.src s.iss.gk s.low b).toNat) hbase hlen
      rwa [rights_and] at hfields
    · exact goes_wroteCap (c := c) (a := a) (b := b) (by simp [capWords]) h List.mem_cons_self hu rfl
  · exact goes_wroteCap (c := c) (a := a) (b := b) (by simp [capWords]) h List.mem_cons_self hu rfl
  · rw [I64, BitVec.ofInt_natCast]
    exact computes_writeAll64 (c := c) (a := a) (b := b) (by simp [capWords]) h List.mem_cons_self hd hu rfl
  · rw [I64, BitVec.ofInt_natCast]
    exact computes_writeAll64 (c := c) (a := a) (b := b) (by simp [capWords]) h List.mem_cons_self hd hu rfl

end Sys2Proof.Machine
end

section
/-! No capability word widens a capability (O9, R104). A fault leaves every capability register as it is; and each word writes at most
one register, with a capability that it narrowed or copied. -/

namespace Sys2Proof.Machine

open Sys2Proof Sys2Proof.Claims

/-! ### Faults leave the capability registers alone -/

/-- The capability registers of two states are the same. -/
def SameCregs (s t : State) : Prop := t.g.creg = s.g.creg

theorem sameCregs_foldl {α : Type} {f : State → α → State} (h : ∀ s x, SameCregs s (f s x)) (l : List α) (s : State) :
    SameCregs s (l.foldl f s) :=
  foldl_keeps (fun t => SameCregs s t) f (fun t x ht => (h t x).trans ht) l s rfl

theorem sameCregs_ite {c : Prop} [Decidable c] {s a b : State} (ha : SameCregs s a) (hb : SameCregs s b) :
    SameCregs s (if c then a else b) := by
  split
  · exact ha
  · exact hb

namespace State

theorem rejoinRelease_cregs (s : State) (gk n : Nat) : SameCregs s (s.rejoinRelease gk n) := by
  unfold rejoinRelease
  refine sameCregs_ite ?_ rfl
  have jmask (x : State) : SameCregs x (x.setJ gk n 0) := rfl
  exact (jmask _).trans (sameCregs_foldl (fun _ _ => by exact sameCregs_ite rfl rfl) _ s)

theorem strikeLanes_cregs (s : State) (gk n : Nat) (ls : List Nat) : SameCregs s (s.strikeLanes gk n ls) :=
  (rejoinRelease_cregs _ gk n).trans rfl

theorem endLane_cregs (s : State) (lk : Nat) : SameCregs s (s.endLane lk) := by
  unfold endLane
  extract_lets gk l s1 s2 teams s3
  have h2 : SameCregs s1 s2 := sameCregs_foldl (fun _ _ => by exact sameCregs_ite (strikeLanes_cregs _ _ _ _) rfl) _ _
  have h3 : SameCregs s s3 := h2
  clear_value s3
  exact sameCregs_ite h3 h3

theorem modThread_cregs (s : State) (th : Nat) (f : Thread → Thread) : SameCregs s (s.modThread th f) := by
  unfold modThread
  split
  · rfl
  · rfl

theorem abandonPair_cregs (s : State) (lk : Nat) : SameCregs s (s.abandonPair lk) :=
  (endLane_cregs _ _).trans ((modThread_cregs _ _ _).trans ((modThread_cregs _ _ _).trans (modThread_cregs _ _ _)))

theorem report_cregs (s : State) (lk : Nat) (pc : Pc) (f : FaultInfo) (q : Bool) : SameCregs s (s.report lk pc f q) := by
  unfold report
  exact sameCregs_ite rfl rfl

theorem park_cregs (s : State) (lk : Nat) (pc : Pc) (f : FaultInfo) : SameCregs s (s.park lk pc f) := by
  have reported (b q : Bool) : SameCregs s ((if b then s.countFault lk else s).report lk pc f q) :=
    (report_cregs _ _ _ _ _).trans (sameCregs_ite (modThread_cregs _ _ _) rfl)
  unfold park
  refine sameCregs_ite ?_ (sameCregs_ite ?_ ?_)
  · exact reported _ _
  · exact (abandonPair_cregs _ _).trans (reported _ _)
  · exact (endLane_cregs _ _).trans (reported _ _)

theorem raise_cregs (s : State) (lk : Nat) (pc : Pc) (f : FaultInfo) : SameCregs s (s.raise lk pc f) := by
  unfold raise
  split
  · exact sameCregs_ite rfl (park_cregs _ _ _ _)
  · exact park_cregs _ _ _ _

theorem raiseAll_cregs (s : State) (f : FaultInfo) : SameCregs s (s.raiseAll f) := sameCregs_foldl (fun _ _ => raise_cregs _ _ _ _) _ _

theorem advAll_cregs (s : State) : SameCregs s s.advAll := by
  rw [SameCregs, onlyLanes_advAll s]

theorem writeAll_cregs (s : State) (d : Opc) (v : Word) : SameCregs s (s.writeAll d v) := by
  unfold writeAll
  refine sameCregs_ite ?_ (sameCregs_ite rfl rfl)
  exact sameCregs_foldl (fun _ _ => by rfl) _ s

/-- A word that takes nothing from q1 raises a fault on its operands, or does its own effect. -/
theorem laneWord_cases (s : State) {i : Instr} (body : State → State) (hq : popsQ1 i = false) :
    (operandsOk (s.group s.iss.gk).regs i = true ∧ s.laneWord i body = body s) ∨
      s.laneWord i body = s.raiseAll (.of fcILLEGAL_OPERAND) := by
  unfold laneWord
  cases hok : operandsOk (s.group s.iss.gk).regs i
  · exact .inr (by simp [hok, raiseAll])
  · exact .inl ⟨rfl, by simp [hok, hq]⟩

/-- A capability word runs its body on its register, or raises a fault. -/
theorem capWord_cases (s : State) {i : Instr} (a : Opc) (body : State → Cap → ORes) (hq : popsQ1 i = false) :
    (operandsOk (s.group s.iss.gk).regs i = true ∧ s.capWord i a body = s.once (body s (s.creg s.iss.gk a.toNat))) ∨
      ∃ f, s.capWord i a body = s.raiseAll f := by
  unfold capWord
  rcases s.laneWord_cases _ hq with ⟨hok, h⟩ | h
  · cases hu : capUse (s.creg s.iss.gk a.toNat) with
    | none => exact .inl ⟨hok, h.trans (by simp only [hu])⟩
    | some f => exact .inr ⟨f, h.trans (by simp only [hu])⟩
  · exact .inr ⟨_, h⟩

end State

/-! ### What a word may write -/

/-- A capability with the type and object of another, and no right and no byte that it has not. -/
def Narrows (x y : Cap) : Prop :=
  Cap.type y = Cap.type x ∧ Cap.obj y = Cap.obj x ∧ Cap.rights y &&& Cap.rights x = Cap.rights y ∧
    (0 < Cap.len y → Cap.base x ≤ Cap.base y ∧ Cap.base y + Cap.len y ≤ Cap.base x + Cap.len x)

theorem narrows_refl (x : Cap) : Narrows x x := ⟨rfl, rfl, BitVec.and_self, fun _ => ⟨Nat.le_refl _, Nat.le_refl _⟩⟩

theorem narrows_restricted (x : Cap) (m : Word) :
    Narrows x (mkCap (Cap.type x) ((Cap.rights x).toNat &&& m.toNat % 256) (Cap.obj x) (Cap.base x) (Cap.len x)) := by
  obtain ⟨-, -, hbase, hlen⟩ := capField_bounds x
  obtain ⟨htype, hrights, hobj, hb, hl, -⟩ := mkCap_of_cap x (rights_and_lt (Cap.rights x) m.toNat) hbase hlen
  refine ⟨htype, hobj, ?_, fun _ => ?_⟩
  · rw [hrights, rights_and, BitVec.and_assoc, BitVec.and_comm (m.setWidth 8), ← BitVec.and_assoc, BitVec.and_self]
  · rw [hb, hl]
    exact ⟨Nat.le_refl _, Nat.le_refl _⟩

theorem mkCap_base_mod (type rights obj base len : Nat) : mkCap type rights obj (base % 2 ^ 40) len = mkCap type rights obj base len := by
  rw [mkCap, mkCap, Nat.mod_mod]

/-- A base that its 40 bits do not hold comes with length 0. -/
theorem narrows_sub {x y : Cap} {off len : Nat} (h : capSub x off len = .ok y) : Narrows x y := by
  unfold capSub at h
  split at h
  next => cases h
  next =>
    split at h
    next => cases h
    next hbounds =>
      cases h
      simp only [Bool.or_eq_true, decide_eq_true_eq, not_or, not_lt] at hbounds
      obtain ⟨-, -, -, hlen⟩ := capField_bounds x
      rw [← mkCap_base_mod]
      obtain ⟨htype, hrights, hobj, hb, hl, -⟩ :=
        mkCap_of_cap x (Cap.rights x).isLt (Nat.mod_lt (Cap.base x + off) (Nat.two_pow_pos 40)) (show len < 2 ^ 40 by omega)
      refine ⟨htype, hobj, ?_, fun hpos => ?_⟩
      · rw [hrights, BitVec.ofNat_toNat, BitVec.setWidth_eq, BitVec.and_self]
      · rw [hl] at hpos
        rw [hb, hl, Nat.mod_eq_of_lt (by omega)]
        omega

/-- Whatever a capability word does, a capability register keeps its value or, of the issuing group, narrows the word's source. -/
def WritesNarrowed (s : State) (a : Opc) (t : State) : Prop :=
  ∀ k r, r < 8 → t.creg k r = s.creg k r ∨ (k = s.iss.gk ∧ Narrows (s.creg s.iss.gk a.toNat) (t.creg k r))

theorem writesNarrowed_of_cregs {s t : State} (a : Opc) (h : SameCregs s t) : WritesNarrowed s a t := fun k r _ =>
  .inl (by rw [State.creg, State.creg, h])

theorem writesNarrowed_setC {s : State} {a d : Opc} {y : Cap} (hd : d.toNat < 8) (h : Narrows (s.creg s.iss.gk a.toNat) y) :
    WritesNarrowed s a (s.setC s.iss.gk d.toNat y) := by
  intro k r hr
  have hval : (s.setC s.iss.gk d.toNat y).creg k r = if cKey k r = cKey s.iss.gk d.toNat then y else s.creg k r :=
    State.creg_setC s s.iss.gk d.toNat y (cKey k r)
  rw [hval]
  split
  next hk => exact .inr ⟨((cKey_inj k r _ _ hr hd).mp hk).1, h⟩
  next => exact .inl rfl

/-- The body of each word, on the operands that its checks let pass. -/
theorem writesNarrowed_capBody {s : State} {c : Bool} {d a b : Opc} {i : Instr} (hi : i ∈ capWords c d a b)
    (hok : operandsOk (s.group s.iss.gk).regs i = true) :
    WritesNarrowed s a (s.once (capBody d b i s (s.creg s.iss.gk a.toNat))) := by
  have advanced {t : State} (h : WritesNarrowed s a t) : WritesNarrowed s a t.advAll := fun k r hr => by
    rw [State.creg, State.advAll_cregs t]
    exact h k r hr
  have pair (v : DWord) : WritesNarrowed s a (s.writeAll64 d v).advAll :=
    advanced (writesNarrowed_of_cregs a ((State.writeAll_cregs _ _ _).trans (State.writeAll_cregs s _ _)))
  simp only [capWords, List.mem_cons, List.not_mem_nil, or_false] at hi
  rcases hi with rfl | rfl | rfl | rfl | rfl
  · have hd := lt_of_cw hok List.mem_cons_self
    show WritesNarrowed s a (s.once (subOut s d (capSub _ _ _)))
    cases hsub : capSub (s.creg s.iss.gk a.toNat) (s.src64 s.iss.gk 0 b).toNat (s.src64 s.iss.gk 0 (b + 2)).toNat with
    | error f => exact writesNarrowed_of_cregs a (State.raiseAll_cregs s f)
    | ok y => exact advanced (writesNarrowed_setC hd (narrows_sub hsub))
  · exact advanced (writesNarrowed_setC (lt_of_cw hok List.mem_cons_self) (narrows_restricted _ _))
  · exact pair _
  · exact pair _
  · exact advanced (writesNarrowed_setC (lt_of_cw hok List.mem_cons_self) (narrows_refl _))

theorem capabilitiesNeverWiden : CapabilitiesNeverWiden := by
  intro s t c d a b i hi ht
  obtain ⟨he, hq⟩ := exec_capWord (c := c) (d := d) (a := a) (b := b) hi s
  cases he.symm.trans ht
  show WritesNarrowed s a _
  rcases s.capWord_cases a (capBody d b i) hq with ⟨hok, hbody⟩ | ⟨f, hfault⟩
  · rw [hbody]
    exact writesNarrowed_capBody hi hok
  · rw [hfault]
    exact writesNarrowed_of_cregs a (State.raiseAll_cregs s f)

end Sys2Proof.Machine

namespace Sys2Proof.Proofs

/-- Settles O9: a word on a usable register is its body run once; and no body writes a capability with more than its source has. -/
theorem capabilityWords : Obligations.CapabilityWords := ⟨Machine.capabilityWords, Machine.capabilitiesNeverWiden⟩

/-- Settles O10: a register that the check refuses, or a subdivision past its bounds, is a fault of every executing lane; and the fields
of a capability are the digits of its number. -/
theorem capabilityFaultsAndLayout : Obligations.CapabilityFaultsAndLayout := ⟨Machine.capabilityFaults, Machine.capabilityLayout⟩

end Sys2Proof.Proofs
end

section
/-! The cross-lane words (O7, R112-R114): SHFL, and the trees of LRED and LSCAN. -/

namespace Sys2Proof.Machine

open Sys2Proof Sys2Proof.Claims

/-! ### Words whose results are stated for the executing lanes -/

/-- A lane word runs its effect on the state that it issues in. -/
theorem State.laneWord_congr {s : State} {body body' : State → State} (i : Instr) (h : body s = body' s) :
    s.laneWord i body = s.laneWord i body' := by
  simp only [State.laneWord, h]

/-- The results of a word are computed for its executing lanes alone. -/
theorem State.compute_congr {s : State} {i : Instr} {d : Opc} {f g : Nat → LaneRes} (h : ∀ l ∈ s.iss.lanes, f l = g l) :
    s.compute i d f = s.compute i d g :=
  State.laneWord_congr i (congrArg (s.deliver d) (List.map_congr_left fun l hl => congrArg (Prod.mk l) (h l hl)))

/-! ### SHFL (R113) -/

/-- SHFL's source is the statement's, where that one is in range. -/
theorem shflSrc_eq (h : ShMode) (n l k : Nat) :
    shflSrc h n l k = if (shuffled h n l k).2 then some (shuffled h n l k).1 else none := by
  cases h with
  | idx => simp [shflSrc, shuffled]
  | up => simp [shflSrc, shuffled]
  | down => simp [shflSrc, shuffled]
  | xor => simp [shflSrc, shuffled]

theorem shuffle : Shuffle := by
  intro s c d a b g h S
  have hS : S = segLen g (s.group s.iss.gk).width := by cases g <;> rfl
  clear_value S
  subst hS
  refine runs_of_oneWord (d := d) rfl (fun l => ?_) fun _ => oneWord_w _
  rw [shflSrc_eq]
  generalize shuffled h _ l _ = p
  obtain ⟨m, ok⟩ := p
  cases ok
  · simp
  · by_cases hm : m ∈ s.iss.lanes
    · simp [hm]
    · simp [hm]

/-! ### LRED and LSCAN (R114, R36) -/

theorem State.laneVals_eq (s : State) (a : Opc) (o : Lop) : s.laneVals a o = contributions s a o := by
  refine List.map_congr_left fun l _ => ?_
  by_cases hl : l ∈ s.iss.lanes
  · simp [hl]
  · simp [hl]

theorem Tree.res_eq (t : Tree) (fl : BitVec 5) (v : Nat) : t.res fl v = treeOut fl t v := by
  unfold Tree.res treeOut trapFor ivOn ofOn
  cases t.iv && fl.getLsbD 2
  · cases t.ovf && fl.getLsbD 4
    · rfl
    · rfl
  · rfl

theorem oneWord_treeOut (fl : BitVec 5) (t : Tree) (v : Nat) : OneWord (treeOut fl t v) :=
  Tree.res_eq t fl v ▸ oneWord_ofTrap _ _

theorem laneTrees : LaneTrees := by
  intro s c d a o
  refine ⟨runs_of_oneWord rfl (fun l => ?_) fun _ => oneWord_treeOut _ _ _, fun x => runs_of_oneWord rfl (fun l => ?_) fun _ => oneWord_treeOut _ _ _⟩
  · rw [Tree.res_eq, State.laneVals_eq]
  · rw [Tree.res_eq, State.laneVals_eq]
    cases x
    · rfl
    · rfl

end Sys2Proof.Machine

namespace Sys2Proof.Proofs

/-- Settles O7: SHFL reads the lane that R113 computes, and a position of a tree holds what R112 says of it. -/
theorem crossLaneWords : Obligations.CrossLaneWords := ⟨Machine.shuffle, Machine.laneTrees⟩

end Sys2Proof.Proofs
end

section
/-! Votes, masks and bit planes (O8, R115, R116): a mask is the one whose bits the statement names. -/

namespace Sys2Proof.Machine

open Sys2Proof Sys2Proof.Claims

/-- A word that computes the stated results of its executing lanes, each of one word, runs to its end. -/
theorem runs_of_oneWord_lanes {s : State} {i : Instr} {d : Opc} {f res : Nat → LaneRes} (he : exec i s = .next (s.compute i d f))
    (hf : ∀ l ∈ s.iss.lanes, f l = res l) (h1 : ∀ l, OneWord (res l)) : Runs s i d res :=
  runs_of_oneWord (he.trans (congrArg _ (State.compute_congr hf))) (fun _ => rfl) h1

/-- The same for a 64-bit result in a register pair. -/
theorem runs_of_dword_lanes {s : State} {i : Instr} {d : Opc} {f res : Nat → DWord} {u : Use}
    (he : exec i s = .next (s.compute i d fun l => .d (f l))) (hf : ∀ l ∈ s.iss.lanes, f l = res l) (hu : u ∈ uses i)
    (hw : WritesRun d 2 u) : Runs s i d (fun l => .d (res l)) :=
  runs_of_dword (he.trans (congrArg _ (State.compute_congr fun l hl => congrArg LaneRes.d (hf l hl)))) (fun _ => rfl) hu hw

/-! ### Votes and masks (R115) -/

/-- The mask of the participants that meet a test is the one with their bits. -/
theorem State.maskWhere_eq {s : State} {f : Nat → Bool} {p : Nat → Prop} (hp : ∀ k, f k = true ↔ p k) {m : DWord}
    (hm : ∀ k, k < 64 → (m.getLsbD k = true ↔ k ∈ s.iss.lanes ∧ p k)) : s.maskWhere f = m := by
  refine BitVec.eq_of_getLsbD_eq_iff.mpr fun k hk => Bool.eq_iff_iff.mpr ?_
  rw [hm k hk, State.maskWhere, getLsbD_maskOf _ k hk, List.mem_filter, hp]

theorem truth_eq (b : Bool) : truth b = .w (boolW b) := by cases b <;> rfl

theorem voteAll_eq (ls : List Nat) (v : Nat → Word) :
    LaneRes.w (boolW (ls.all (fun l => v l != 0))) = truth (∀ l ∈ ls, v l ≠ 0) := by
  rw [truth_eq]
  exact congrArg _ (congrArg _ (Bool.eq_iff_iff.mpr (by simp)))

theorem voteAny_eq (ls : List Nat) (v : Nat → Word) :
    LaneRes.w (boolW (ls.any (fun l => v l != 0))) = truth (∃ l ∈ ls, v l ≠ 0) := by
  rw [truth_eq]
  exact congrArg _ (congrArg _ (Bool.eq_iff_iff.mpr (by simp)))

/-! ### Bit planes (R116) -/

/-- The low bits of a word written from planes: plane i at bit w - 1 - i. -/
def planeWord (w : Nat) (p : Nat → Bool) (n : Nat) : Word :=
  (List.range n).foldl (fun v i => if p i then v ||| (1 <<< (w - 1 - i)) else v) 0

theorem planeWord_succ (w : Nat) (p : Nat → Bool) (n : Nat) :
    planeWord w p (n + 1) = if p n then planeWord w p n ||| (1 <<< (w - 1 - n)) else planeWord w p n := by
  simp only [planeWord, List.range_succ, List.foldl_append, List.foldl_cons, List.foldl_nil]

theorem getLsbD_one_shiftLeft_word (j k : Nat) (hk : k < 32) : ((1 <<< j : Nat) : Word).getLsbD k = decide (k = j) := by
  rw [BitVec.natCast_eq_ofNat, BitVec.getLsbD_ofNat, Nat.one_shiftLeft, Nat.testBit_two_pow]
  simp [hk, eq_comm]

theorem getLsbD_planeWord (w : Nat) (p : Nat → Bool) (k : Nat) (hk : k < 32) (n : Nat) (hn : n ≤ w) :
    (planeWord w p n).getLsbD k = true ↔ k < w ∧ w - 1 - k < n ∧ p (w - 1 - k) = true := by
  induction n with
  | zero => simp [planeWord]
  | succ n ih =>
    have hlast : k = w - 1 - n ↔ k < w ∧ w - 1 - k = n := by omega
    have hsplit : w - 1 - k < n + 1 ↔ w - 1 - k < n ∨ w - 1 - k = n := Nat.lt_succ_iff_lt_or_eq
    rw [planeWord_succ]
    cases hp : p n with
    | false =>
      rw [if_neg Bool.false_ne_true, ih (by omega), hsplit]
      constructor
      · exact fun ⟨h1, h2, h3⟩ => ⟨h1, .inl h2, h3⟩
      · rintro ⟨h1, h2 | h2, h3⟩
        · exact ⟨h1, h2, h3⟩
        · rw [h2, hp] at h3
          exact absurd h3 Bool.false_ne_true
    | true =>
      rw [if_pos rfl, BitVec.getLsbD_or, Bool.or_eq_true, ih (by omega), getLsbD_one_shiftLeft_word _ k hk, decide_eq_true_iff, hlast,
        hsplit]
      constructor
      · rintro (⟨h1, h2, h3⟩ | ⟨h1, h2⟩)
        · exact ⟨h1, .inl h2, h3⟩
        · exact ⟨h1, .inr h2, h2 ▸ hp⟩
      · rintro ⟨h1, h2 | h2, h3⟩
        · exact .inl ⟨h1, h2, h3⟩
        · exact .inr ⟨h1, h2⟩

theorem planeWord_eq {w : Nat} {p : Nat → Bool} {m : Word}
    (hm : ∀ k, k < 32 → (m.getLsbD k = true ↔ k < w ∧ p (w - 1 - k) = true)) : planeWord w p w = m := by
  refine BitVec.eq_of_getLsbD_eq_iff.mpr fun k hk => Bool.eq_iff_iff.mpr ?_
  rw [hm k hk, getLsbD_planeWord w p k hk w (Nat.le_refl w)]
  exact ⟨fun ⟨h1, _, h3⟩ => ⟨h1, h3⟩, fun ⟨h1, h3⟩ => ⟨h1, by omega, h3⟩⟩

/-- The product of two planes, added (BPDOT). -/
theorem bpdot_eq (z : Word) (x y : DWord) : z + popc64 (x &&& y) =
    BitVec.ofInt 32 (z.toInt + (((List.range 64).countP (fun k => x.getLsbD k && y.getLsbD k) : Nat) : Int)) := by
  have hcount : ((List.range 64).filter (fun i => (x &&& y).getLsbD i)).length =
      (List.range 64).countP (fun k => x.getLsbD k && y.getLsbD k) := by
    rw [List.countP_eq_length_filter]
    simp only [BitVec.getLsbD_and]
  rw [popc64, hcount, BitVec.ofInt_add, BitVec.ofInt_toInt, BitVec.ofInt_natCast]

/-- A run of bits of a word, as BPSLICE takes it. -/
theorem bpslice_eq (x : DWord) (o : Nat) {n : Nat} (hn : n ≤ 64) : (x >>> o) &&& BitVec.ofNat 64 (2 ^ n - 1) =
    BitVec.ofInt 64 ((x.toNat / 2 ^ o % 2 ^ n : Nat) : Int) := by
  have hmask : 2 ^ n - 1 < 2 ^ 64 := Nat.lt_of_lt_of_le (Nat.sub_lt (Nat.two_pow_pos n) Nat.one_pos) (Nat.pow_le_pow_right (by decide) hn)
  have hlt : x.toNat / 2 ^ o % 2 ^ n < 2 ^ 64 :=
    Nat.lt_of_le_of_lt (Nat.mod_le _ _) (Nat.lt_of_le_of_lt (Nat.div_le_self _ _) x.isLt)
  refine eq_ofInt_toNat ?_
  rw [BitVec.toNat_and, BitVec.toNat_ushiftRight, BitVec.toNat_ofNat, Nat.mod_eq_of_lt hmask, Nat.and_two_pow_sub_one_eq_mod,
    Nat.shiftRight_eq_div_pow, Nat.mod_eq_of_lt hlt]

end Sys2Proof.Machine

namespace Sys2Proof.Proofs

open Sys2Proof.Machine

/-- Settles O8: a mask has the bits that the statement names, so it is the one that the word computes; and the words of the bit planes
are the numbers that the statement writes. -/
theorem votesAndBitPlanes : Obligations.VotesAndBitPlanes := by
  unfold Obligations.VotesAndBitPlanes
  intro s c d a b A A64 B
  refine ⟨?_, ?_, fun m hm => ?_, fun m hm => ?_, fun m hm => ?_, fun m hm => ?_, ?_, ?_⟩
  · exact runs_of_oneWord rfl (fun _ => voteAll_eq _ _) fun _ => oneWord_w _
  · exact runs_of_oneWord rfl (fun _ => voteAny_eq _ _) fun _ => oneWord_w _
  · exact runs_of_dword (u := .w d 2) rfl (fun _ => State.maskWhere_eq (fun k => bne_iff_ne) hm) List.mem_cons_self (.inl rfl)
  · exact runs_of_dword_lanes (u := .w d 2) rfl (fun l hl => State.maskWhere_eq (fun k => beq_iff_eq) (hm l hl)) List.mem_cons_self
      (.inl rfl)
  · exact runs_of_dword_lanes (u := .w d 2) rfl (fun l hl => State.maskWhere_eq (fun k => Iff.rfl) (hm l hl)) List.mem_cons_self
      (.inl rfl)
  · refine runs_of_oneWord_lanes rfl (fun l hl => ?_) fun _ => oneWord_w _
    obtain ⟨hlo, hhi, hbits⟩ := hm l hl
    have hw : ¬ (decide ((B l).toNat = 0) || decide ((B l).toNat > 8)) = true := by
      simp only [Bool.or_eq_true, decide_eq_true_eq]
      omega
    rw [if_neg hw]
    refine congrArg LaneRes.w (planeWord_eq fun k hk => ?_)
    rw [hbits k hk, Bool.and_eq_true, List.contains_iff_mem]
  · exact runs_of_oneWord rfl (fun _ => congrArg LaneRes.w (bpdot_eq _ _ _)) fun _ => oneWord_w _
  · exact runs_of_dword (u := .w d 2) rfl (fun _ => bpslice_eq _ _ (by omega)) List.mem_cons_self (.inl rfl)

end Sys2Proof.Proofs
end

section
/-! The timers of the issue former (O42, R122). A WAITC that has clocks left stays, but its lane's entry is written again, which puts a
table of lanes whose keys do not rise into another order: the state is not the one before. -/

namespace Sys2Proof.Machine

/-- Two lanes of a group, the later one listed first; it waits for one more clock. -/
def laterFirst : State := { State.reset with g := { lanes := [(1, { st := .waiting (.clocks 1) }), (0, { st := .ready })] } }

theorem laterFirst_waits : (laterFirst.lane (lkOf 0 1)).st = .waiting (.clocks (0 + 1)) ∧ (laterFirst.lane (lkOf 0 1)).after = none :=
  ⟨rfl, rfl⟩

theorem waitcDone_laterFirst : (laterFirst.waitcDone 0 1).g.lanes = [(0, { st := .ready }), (1, { st := .waiting (.clocks 1) })] := by
  decide

theorem exec_waitcExpiry (gk l : Nat) (s : State) : exec (.waitcExpiry gk l) s = .next (s.waitcDone gk l) := rfl

end Sys2Proof.Machine

namespace Sys2Proof.Proofs

open Sys2Proof.Machine

/-- Refutes O42: WAITC_EXPIRY of a lane with a clock left does not answer the state itself where the lanes' keys do not rise. -/
theorem not_issueTimers : ¬ Obligations.IssueTimers := by
  unfold Obligations.IssueTimers
  intro h
  obtain ⟨-, hstays, -⟩ := h laterFirst 0 1 0 0 0
  have hsame : laterFirst.waitcDone 0 1 = laterFirst :=
    Host.Outcome.next.inj ((exec_waitcExpiry 0 1 laterFirst).symm.trans (hstays 0 laterFirst_waits.1 laterFirst_waits.2))
  have hlanes := waitcDone_laterFirst.symm.trans (congrArg (fun s : State => s.g.lanes) hsame)
  exact absurd hlanes (by decide)

end Sys2Proof.Proofs
end

section
/-! The words of the handler role (O30, R120, R134). A lane that LRESUME starts again may be the last that a rejoin mask waits for. Where
it is of the issuing group, that releases an executing lane that stands behind a REJOIN chained before LRESUME: the lane is ready after
the word, where the statement has it go on as it stood. -/

namespace Sys2Proof.Machine

open Sys2Proof Sys2Proof.Claims

/-- A group of the handler role: lane 0 runs the word behind its REJOIN at j0, lane 1 is parked under FID 0 and waits at j0 as well. -/
def rejoiners : State := { State.reset with
  g := { groups := [(0, { width := 2, regs := 96 })]
         lanes := [(0, { st := .waiting (.rejoin 0) }), (1, { st := .parked 0, after := some (.rejoin 0) })] }
  t := { teams := [(0, { kern := { handler := some 0 }, parked := [(0, some { lane := some 1, pair := false })] })] }
  iss := { gk := 0, lanes := [0], words := 1, all := [0], size := 1 } }

/-- LRESUME of FID 0 at its word. -/
def resumeFirst : Instr := .lresume false 0 120 0

theorem rejoiners_ofHandler : OfHandler rejoiners := ⟨rfl, rfl⟩

theorem rejoiners_issues : Issues rejoiners resumeFirst := by
  refine ⟨by decide, by decide, by decide, fun h => absurd h (by decide)⟩

theorem lresume_rejoiners {t : State} (h : exec resumeFirst rejoiners = .next t) : (t.lane 0).st = .ready := by
  cases h
  decide +kernel

end Sys2Proof.Machine

namespace Sys2Proof.Proofs

open Sys2Proof.Machine

/-- Refutes O30: lane 0 of the issue comes out of LRESUME ready, and not waiting at j0 as it stood. -/
theorem not_handlerWords : ¬ Obligations.HandlerWords := by
  unfold Obligations.HandlerWords
  intro h
  obtain ⟨-, -, hresume, -⟩ := h rejoiners false 0 120 0
  obtain ⟨hlane, -⟩ := (hresume rejoiners_ofHandler rfl (by decide)).1 rejoiners_issues
  obtain ⟨t, ht, hdealt, -⟩ := hlane 1 rfl (by decide)
  have hst := congrArg Lane.st (hdealt.lanes 0 (by decide))
  have hready : LaneSt.ready = .waiting (.rejoin 0) := (lresume_rejoiners ht).symm.trans hst
  exact absurd hready (by decide)

end Sys2Proof.Proofs
end

section
/-! What a trap or fault of one lane leaves of the other lanes, of the groups and of the teams (R127, R222, R350). -/

namespace Sys2Proof.Machine

open Sys2Proof Sys2Proof.Claims

/-! ### Lanes, groups and teams that another lane's fault may have touched -/

/-- A lane that the end of another lane may have released from a mask. -/
structure LaneKept (a b : Lane) : Prop where
  same : b = { a with st := b.st, after := b.after }
  notAt : a.atWord = false → b.atWord = false
  ended : a.st = .exited → a.after = none → b = a

theorem LaneKept.refl (a : Lane) : LaneKept a a := ⟨rfl, id, fun _ _ => rfl⟩

theorem LaneKept.trans {a b c : Lane} (h : LaneKept a b) (h' : LaneKept b c) : LaneKept a c where
  same := by
    obtain ⟨v, w, hb⟩ : ∃ v w, b = { a with st := v, after := w } := ⟨_, _, h.same⟩
    obtain ⟨v', w', hc⟩ : ∃ v w, c = { b with st := v, after := w } := ⟨_, _, h'.same⟩
    rw [hc, hb]
  notAt := fun ha => h'.notAt (h.notAt ha)
  ended := fun hst haf => by
    have hb := h.ended hst haf
    rw [h'.ended (hb ▸ hst) (hb ▸ haf), hb]

theorem laneKept_released (n : Nat) (a : Lane) (hw : a.waitsAt n = true) : LaneKept a (Lane.released n a) := by
  have hover (hst : a.st = .exited) (haf : a.after = none) : Lane.released n a = a := by
    rw [Lane.waitsAt_of_exited n hst haf] at hw
    cases hw
  unfold Lane.released at hover ⊢
  split
  next => exact ⟨rfl, fun _ => rfl, fun hst haf => by rw [if_pos ‹_›] at hover; exact hover hst haf⟩
  next => exact ⟨rfl, id, fun hst haf => by rw [if_neg ‹_›] at hover; exact hover hst haf⟩

/-- A group whose commands in part may have been discarded, and which may have left its partition (R123). -/
def GroupKept (a b : Group) : Prop := b = { a with q0 := b.q0, q2 := b.q2, q3 := b.q3, q4 := b.q4, active := b.active }

theorem GroupKept.trans {a b c : Group} (h : GroupKept a b) (h' : GroupKept b c) : GroupKept a c := by
  obtain ⟨q0, q2, q3, q4, v, hb⟩ : ∃ q0 q2 q3 q4 v, b = { a with q0 := q0, q2 := q2, q3 := q3, q4 := q4, active := v } :=
    ⟨_, _, _, _, _, h⟩
  obtain ⟨q0', q2', q3', q4', v', hc⟩ : ∃ q0 q2 q3 q4 v, c = { b with q0 := q0, q2 := q2, q3 := q3, q4 := q4, active := v } :=
    ⟨_, _, _, _, _, h'⟩
  subst hb hc
  rfl

/-- A team whose faults may have been counted and queued (R350, R351). -/
def TeamKept (a b : Team) : Prop := b = { a with parked := b.parked, nextFid := b.nextFid, fq := b.fq, fwait := b.fwait }

theorem TeamKept.trans {a b c : Team} (h : TeamKept a b) (h' : TeamKept b c) : TeamKept a c := by
  obtain ⟨p, n, q, w, hb⟩ : ∃ p n q w, b = { a with parked := p, nextFid := n, fq := q, fwait := w } := ⟨_, _, _, _, h⟩
  obtain ⟨p', n', q', w', hc⟩ : ∃ p n q w, c = { b with parked := p, nextFid := n, fq := q, fwait := w } := ⟨_, _, _, _, h'⟩
  subst hb hc
  rfl

/-! ### What faults leave -/

/-- What the faults of some lanes leave: those lanes are as they may be, every other lane, group and team is kept. -/
structure FaultLeft (own : Nat → Prop) (x y : State) : Prop where
  frame : y = { x with
    g := { x.g with lanes := y.g.lanes, groups := y.g.groups, jmask := y.g.jmask }
    t := { x.t with teams := y.t.teams, landing := y.t.landing }, e := y.e, l := y.l, h := y.h }
  lanes : ∀ k, ¬ own k → LaneKept (x.lane k) (y.lane k)
  groups : ∀ k, GroupKept (x.group k) (y.group k)
  teams : ∀ k, TeamKept (x.team k) (y.team k)

theorem FaultLeft.refl (own : Nat → Prop) (x : State) : FaultLeft own x x := ⟨rfl, fun _ _ => .refl _, fun _ => rfl, fun _ => rfl⟩

theorem FaultLeft.exists_frame {own : Nat → Prop} {x y : State} (h : FaultLeft own x y) : ∃ A B C D E F G H, y = { x with
    g := { x.g with lanes := A, groups := B, jmask := C }, t := { x.t with teams := D, landing := E }, e := F, l := G, h := H } :=
  ⟨_, _, _, _, _, _, _, _, h.frame⟩

theorem FaultLeft.trans {own : Nat → Prop} {x y z : State} (h : FaultLeft own x y) (h' : FaultLeft own y z) : FaultLeft own x z where
  frame := by
    obtain ⟨A, B, C, D, E, F, G, H, hy⟩ := h.exists_frame
    obtain ⟨A', B', C', D', E', F', G', H', hz⟩ := h'.exists_frame
    rw [hz, hy]
  lanes := fun k hk => (h.lanes k hk).trans (h'.lanes k hk)
  groups := fun k => (h.groups k).trans (h'.groups k)
  teams := fun k => (h.teams k).trans (h'.teams k)

theorem FaultLeft.mono {own own' : Nat → Prop} {x y : State} (h : FaultLeft own x y) (hown : ∀ k, own k → own' k) : FaultLeft own' x y :=
  ⟨h.frame, fun k hk => h.lanes k fun h' => hk (hown k h'), h.groups, h.teams⟩

section

variable {own : Nat → Prop} {x y : State} (h : FaultLeft own x y)
include h

theorem FaultLeft.iss : y.iss = x.iss := by rw [h.frame]
theorem FaultLeft.w : y.w = x.w := by rw [h.frame]
theorem FaultLeft.creg (gk n : Nat) : y.creg gk n = x.creg gk n := by rw [h.frame]; rfl
theorem FaultLeft.here : y.here = x.here := by rw [State.here, h.iss, State.here]
theorem FaultLeft.tk (gk : Nat) : (y.group gk).tk = (x.group gk).tk := by rw [h.groups gk]
theorem FaultLeft.core (gk : Nat) : (y.group gk).core = (x.group gk).core := by rw [h.groups gk]
theorem FaultLeft.width (gk : Nat) : (y.group gk).width = (x.group gk).width := by rw [h.groups gk]
theorem FaultLeft.kern (gk : Nat) : y.kern gk = x.kern gk := by rw [State.kern, State.teamOf, h.tk, h.teams]; rfl

end

/-! ### The operations of a fault -/

theorem faultLeft_modLane (x : State) (lk : Nat) (f : Lane → Lane) : FaultLeft (· = lk) x (x.modLane lk f) :=
  ⟨rfl, fun k hk => by rw [State.lane_modLane, if_neg hk]; exact .refl _, fun _ => rfl, fun _ => rfl⟩

theorem faultLeft_modThread (own : Nat → Prop) (x : State) (th : Nat) (f : Thread → Thread) : FaultLeft own x (x.modThread th f) := by
  unfold State.modThread
  split
  · exact ⟨rfl, fun _ _ => .refl _, fun _ => rfl, fun _ => rfl⟩
  · exact .refl own x

/-- The release rule of a mask after one of its bits is cleared. -/
theorem faultLeft_of_settled {own : Nat → Prop} {x y : State} {gk n : Nat} {m : DWord} (h : Settled x y gk n m) : FaultLeft own x y where
  frame := by rw [h.frame]
  lanes := fun k _ => by
    by_cases hp : AllParked x gk n m
    · by_cases hk : ∃ l < (x.group gk).width, k = lkOf gk l
      · obtain ⟨l, hl, rfl⟩ := hk
        rw [(h.released hp).2 l hl]
        split
        next hw => exact laneKept_released n _ hw
        next => exact .refl _
      · rw [h.apart k fun l hl e => hk ⟨l, hl, e⟩]
        exact .refl _
    · rw [State.lane, State.lane, (h.held hp).2]
      exact .refl _
  groups := fun k => by rw [h.frame]; rfl
  teams := fun k => by rw [h.frame]; rfl

/-- The bits of a group's masks that were clear are clear. -/
def BitsKept (gk : Nat) (x y : State) : Prop := ∀ r, r < 8 → ∀ b, (y.jmask gk r).getLsbD b = true → (x.jmask gk r).getLsbD b = true

theorem bitsKept_of_settled {x y : State} {gk n : Nat} {m : DWord} (h : Settled x y gk n m)
    (hm : ∀ b, m.getLsbD b = true → (x.jmask gk n).getLsbD b = true) : BitsKept gk x y := by
  intro r hr b hb
  by_cases hrn : r = n
  · subst hrn
    by_cases hp : AllParked x gk r m
    · rw [(h.released hp).1] at hb
      simp at hb
    · rw [(h.held hp).1] at hb
      exact hm b hb
  · rwa [h.others gk r hr fun e => hrn e.2] at hb

/-- A lane's bit struck from a mask. -/
theorem State.strikeLanes_left (own : Nat → Prop) (x : State) {gk n l : Nat} (hn : n < 8) (hl : l < 64) :
    FaultLeft own x (x.strikeLanes gk n [l]) ∧ BitsKept gk x (x.strikeLanes gk n [l]) ∧
      ((x.strikeLanes gk n [l]).jmask gk n).getLsbD l = false ∧
      x.strikeLanes gk n [l] = { x with g := (x.strikeLanes gk n [l]).g } := by
  have h : Settled x (x.strikeLanes gk n [l]) gk n (x.jmask gk n &&& ~~~ maskOf [l]) := settled_setJ_rejoinRelease x gk n hn _
  have hsub : ∀ b, (x.jmask gk n &&& ~~~ maskOf [l]).getLsbD b = true → (x.jmask gk n).getLsbD b = true := fun b hb => by
    rw [BitVec.getLsbD_and, Bool.and_eq_true] at hb
    exact hb.1
  refine ⟨faultLeft_of_settled h, bitsKept_of_settled h hsub, ?_, by rw [h.frame]⟩
  by_cases hp : AllParked x gk n (x.jmask gk n &&& ~~~ maskOf [l])
  · rw [(h.released hp).1]
    simp
  · rw [(h.held hp).1, ← Bool.not_eq_true, getLsbD_and_not_maskOf _ _ _ hl]
    simp

theorem State.strikeAll_left (own : Nat → Prop) (x : State) {gk l : Nat} (hl : l < 64) (ns : List Nat) (hns : ∀ n ∈ ns, n < 8) :
    FaultLeft own x (x.strikeAll gk l ns) ∧ BitsKept gk x (x.strikeAll gk l ns) ∧
      (∀ n ∈ ns, ((x.strikeAll gk l ns).jmask gk n).getLsbD l = false) ∧ x.strikeAll gk l ns = { x with g := (x.strikeAll gk l ns).g } := by
  induction ns generalizing x with
  | nil => exact ⟨.refl _ _, fun _ _ _ h => h, nofun, rfl⟩
  | cons n ns ih =>
    have hn : n < 8 := hns n List.mem_cons_self
    obtain ⟨y, hy, hstep, hbits, hbit, hg⟩ : ∃ y, x.strikeAll gk l (n :: ns) = y.strikeAll gk l ns ∧ FaultLeft own x y ∧ BitsKept gk x y ∧
        (y.jmask gk n).getLsbD l = false ∧ y = { x with g := y.g } := by
      by_cases hb : (x.jmask gk n).getLsbD l = true
      · exact ⟨_, by rw [strikeAll, List.foldl_cons, if_pos hb, strikeAll], x.strikeLanes_left own hn hl⟩
      · exact ⟨x, by rw [strikeAll, List.foldl_cons, if_neg hb, strikeAll], .refl _ _, fun _ _ _ h => h, eq_false_of_ne_true hb, rfl⟩
    obtain ⟨hrest, hrestBits, hclear, hrestG⟩ := ih y fun m hm => hns m (List.mem_cons_of_mem _ hm)
    rw [hy]
    refine ⟨hstep.trans hrest, fun r hr b hb => hbits r hr b (hrestBits r hr b hb), fun m hm => ?_, ?_⟩
    · rcases List.mem_cons.mp hm with rfl | hm
      · exact eq_false_of_ne_true fun e => absurd (hrestBits m hn l e) (by rw [hbit]; decide)
      · exact hclear m hm
    · obtain ⟨gy, hgy⟩ : ∃ g, y = { x with g := g } := ⟨_, hg⟩
      rw [hrestG, hgy]

/-- What the end of a lane does (R123), whatever its group's width: the lane is exited and its bits are clear. -/
structure LaneEnds (lk : Nat) (x y : State) : Prop where
  left : FaultLeft (· = lk) x y
  exited : (y.lane lk).st = .exited
  masks : ∀ r, r < 8 → (y.jmask (lk / 64) r).getLsbD (lk % 64) = false
  frame : y = { x with g := y.g, t := { x.t with landing := y.t.landing } }

theorem lkOf_div_mod (lk : Nat) : lkOf (lk / 64) (lk % 64) = lk := by unfold lkOf; omega

theorem LaneEnds.over {lk gk : Nat} {x y : State} (h : LaneEnds lk x y) : LaneEnds lk x (y.modGroup gk Group.over) where
  left := h.left.trans ⟨rfl, fun _ _ => .refl _, fun k => by
    rw [State.group_modGroup]
    split
    next hk => subst hk; rfl
    next => rfl, fun _ => rfl⟩
  exited := h.exited
  masks := h.masks
  frame := by
    obtain ⟨A, B, hy⟩ : ∃ A B, y = { x with g := A, t := { x.t with landing := B } } := ⟨_, _, h.frame⟩
    rw [hy]
    rfl

theorem State.endLane_ends (x : State) (lk : Nat) : LaneEnds lk x (x.endLane lk) := by
  have hl : lk % 64 < 64 := Nat.mod_lt _ (by decide)
  obtain ⟨b, hb⟩ := x.endLane_eq (gk := lk / 64) hl
  rw [lkOf_div_mod] at hb
  obtain ⟨hleft, -, hclear, hg⟩ := (x.modLane lk Lane.ended).strikeAll_left (· = lk) (gk := lk / 64) hl (List.range 8)
    fun n hn => List.mem_range.mp hn
  obtain ⟨hover, -, -, -⟩ := (x.modLane lk Lane.ended).strikeAll_left (fun _ => False) (gk := lk / 64) hl (List.range 8)
    fun n hn => List.mem_range.mp hn
  generalize (x.modLane lk Lane.ended).strikeAll (lk / 64) (lk % 64) (List.range 8) = y at hb hleft hclear hover hg
  have hstep := (faultLeft_modLane x lk Lane.ended).trans hleft
  have hends : LaneEnds lk x (y.dropLanding (lk / 64) (lk % 64)) := by
    refine ⟨⟨?_, hstep.lanes, hstep.groups, hstep.teams⟩, ?_, fun r hr => hclear r (List.mem_range.mpr hr), ?_⟩
    · obtain ⟨A, B, C, D, E, F, G, H, hy⟩ := hstep.exists_frame
      rw [hy]
      rfl
    · have hlane : (x.modLane lk Lane.ended).lane lk = Lane.ended (x.lane lk) := by rw [State.lane_modLane, if_pos rfl]
      show (y.lane lk).st = .exited
      rw [(hover.lanes lk id).ended (by rw [hlane]; rfl) (by rw [hlane]; rfl), hlane]
      rfl
    · obtain ⟨g, hy⟩ : ∃ g, y = { x.modLane lk Lane.ended with g := g } := ⟨_, hg⟩
      rw [hy]
      rfl
  rw [hb]
  dsimp only
  split
  · exact hends.over
  · exact hends

/-- A team whose records alone have changed. -/
theorem faultLeft_modTeam (own : Nat → Prop) (x : State) (tk : Nat) (f : Team → Team) (hf : ∀ t, TeamKept t (f t)) :
    FaultLeft own x (x.modTeam tk f) :=
  ⟨rfl, fun _ _ => .refl _, fun _ => rfl, fun k => by
    rw [State.team_modTeam]
    split
    next hk => rw [hk]; exact hf _
    next => rfl⟩

theorem teamKept_enqueue (t : Team) (fid : Nat) (p : Parked) (r : BitVec 512) : TeamKept t (t.enqueue fid p r) := by
  unfold Team.enqueue
  dsimp only
  split <;> rfl

theorem State.report_left (own : Nat → Prop) (x : State) (lk : Nat) (pc : Pc) (f : FaultInfo) (q : Bool) :
    FaultLeft own x (x.report lk pc f q) := by
  unfold report
  dsimp only
  split
  · exact faultLeft_modTeam own x _ _ fun t => teamKept_enqueue t _ _ _
  · exact (⟨rfl, fun _ _ => .refl _, fun _ => rfl, fun _ => rfl⟩ : FaultLeft own x (x.sendEvent ..)).trans
      ((faultLeft_modTeam own _ _ (fun t => { t with nextFid := t.nextFid + 1 }) fun _ => rfl).trans ⟨rfl, fun _ _ => .refl _, fun _ => rfl, fun _ => rfl⟩)

theorem State.abandonPair_left (x : State) (lk : Nat) : FaultLeft (· = lk) x (x.abandonPair lk) :=
  (faultLeft_modThread _ x _ _).trans ((faultLeft_modThread _ _ _ _).trans
    ((faultLeft_modThread _ _ _ _).trans (State.endLane_ends _ lk).left))

/-- A fault of a lane goes to its team's fault queue (R350). -/
def State.toQueue (x : State) (lk : Nat) : Bool :=
  match (x.team (x.group (gkLane lk)).tk).kern.handler with
  | some r => (x.group (gkLane lk)).pair || r != (x.group (gkLane lk)).role
  | none => false

theorem State.toQueue_iff (x : State) (lk : Nat) : x.toQueue lk = true ↔ QueuesFault x (lk / 64) := by
  unfold toQueue QueuesFault State.kern State.teamOf gkLane
  split
  next r hr => simp [hr]
  next hr => simp [hr]

/-- A lane parked under a FID at a PC. -/
def Lane.parkedAt (fid : Nat) (pc : Pc) (l : Lane) : Lane :=
  { l with st := .parked fid, pkt := pc.pkt, slot := pc.slot, token := none, took := none, held := [], after := l.keepWait }

/-- The report of a fault, its pair counted first. -/
def State.reported (x : State) (lk : Nat) (pc : Pc) (f : FaultInfo) : State :=
  (if (x.group (gkLane lk)).pair then x.countFault lk else x).report lk pc f (x.toQueue lk)

theorem State.park_eq (x : State) (lk : Nat) (pc : Pc) (f : FaultInfo) : x.park lk pc f =
    if x.toQueue lk then (x.reported lk pc f).modLane lk (Lane.parkedAt (x.team (x.group (gkLane lk)).tk).nextFid pc)
    else if (x.group (gkLane lk)).pair then (x.reported lk pc f).abandonPair lk else (x.reported lk pc f).endLane lk := rfl

theorem State.reported_left (own : Nat → Prop) (x : State) (lk : Nat) (pc : Pc) (f : FaultInfo) : FaultLeft own x (x.reported lk pc f) := by
  unfold reported
  split
  · exact (faultLeft_modThread own x _ _).trans (State.report_left own _ lk pc f _)
  · exact State.report_left own x lk pc f _

/-- What taking a trap or fault leaves; and the lane that took it does not wait at its word. -/
theorem State.park_left (x : State) (lk : Nat) (pc : Pc) (f : FaultInfo) :
    FaultLeft (· = lk) x (x.park lk pc f) ∧ ((x.park lk pc f).lane lk).atWord = false := by
  have hreport := State.reported_left (· = lk) x lk pc f
  have hends (y : State) : ((y.endLane lk).lane lk).atWord = false := by
    rw [Lane.atWord, (y.endLane_ends lk).exited]
  rw [park_eq]
  split
  · refine ⟨hreport.trans (faultLeft_modLane _ _ _), ?_⟩
    rw [State.lane_modLane, if_pos rfl]
    rfl
  · split
    · exact ⟨hreport.trans (State.abandonPair_left _ lk), hends _⟩
    · exact ⟨hreport.trans (State.endLane_ends _ lk).left, hends _⟩

theorem Handled.atWord (pc : Pc) (k n : Nat) (l : Lane) : (Handled pc k n l).atWord = false := by
  unfold Handled Lane.atWord Lane.stillWaits
  rcases l.st with _ | w | _ | _ | _
  case waiting => cases w <;> rfl
  all_goals rfl

theorem State.raise_left (x : State) (lk : Nat) (pc : Pc) (f : FaultInfo) :
    FaultLeft (· = lk) x (x.raise lk pc f) ∧ ((x.raise lk pc f).lane lk).atWord = false := by
  unfold raise
  dsimp only
  split
  next k _ =>
    split
    · refine ⟨faultLeft_modLane x lk _, ?_⟩
      rw [State.enterHandler_eq, State.lane_modLane, if_pos rfl]
      exact Handled.atWord pc k f.n _
    · exact x.park_left lk pc f
  next => exact x.park_left lk pc f

/-! ### Faults of every executing lane -/

theorem State.raiseLanes_left (x : State) (ls : List Nat) (f : FaultInfo) :
    FaultLeft (fun k => ∃ l ∈ ls, k = lkOf x.iss.gk l) x (x.raiseLanes ls f) ∧
      ∀ l ∈ ls, ((x.raiseLanes ls f).lane (lkOf x.iss.gk l)).atWord = false := by
  have gen (y : State) : FaultLeft (fun k => ∃ l ∈ ls, k = lkOf x.iss.gk l) y (ls.foldl (fun y l => y.raise (lkOf x.iss.gk l) x.here f) y) ∧
      ∀ k, (y.lane k).atWord = false ∨ (∃ l ∈ ls, k = lkOf x.iss.gk l) →
        ((ls.foldl (fun y l => y.raise (lkOf x.iss.gk l) x.here f) y).lane k).atWord = false := by
    induction ls generalizing y with
    | nil => exact ⟨.refl _ y, fun k hk => hk.resolve_right fun ⟨_, h, _⟩ => nomatch h⟩
    | cons m ms ih =>
      obtain ⟨hraise, hat⟩ := y.raise_left (lkOf x.iss.gk m) x.here f
      obtain ⟨hrest, hatRest⟩ := ih (y.raise (lkOf x.iss.gk m) x.here f)
      rw [List.foldl_cons]
      refine ⟨(hraise.mono fun k hk => ⟨m, List.mem_cons_self, hk⟩).trans
        (hrest.mono fun k ⟨l, hl, hk⟩ => ⟨l, List.mem_cons_of_mem _ hl, hk⟩), fun k hk => hatRest k ?_⟩
      by_cases hkm : k = lkOf x.iss.gk m
      · exact .inl (hkm ▸ hat)
      · rcases hk with hk | ⟨l, hl, rfl⟩
        · exact .inl ((hraise.lanes k hkm).notAt hk)
        · exact .inr ⟨l, (List.mem_cons.mp hl).resolve_left fun e => hkm (by rw [e]), rfl⟩
  exact ⟨(gen x).1, fun l hl => (gen x).2 _ (.inr ⟨l, hl, rfl⟩)⟩

/-- A lane word whose effect is one fault of every executing lane. -/
theorem faults_of_laneWord {s : State} {i : Instr} {body : State → State} {f : FaultInfo} (he : exec i s = .next (s.laneWord i body))
    (h : Issues s i) (hb : body s = s.raiseAll f) : Faults s i f := by
  have hat : ∀ l ∈ s.iss.lanes, ((body s).lane (lkOf s.iss.gk l)).atWord = false := by
    rw [hb]
    exact (s.raiseLanes_left s.iss.lanes f).2
  rw [Faults, he, State.laneWord_eq s i body h fun _ => hat, hb, Popping]

end Sys2Proof.Machine
end

section
/-! Taking a trap or a fault, and returning (O12, R127, R128, R222, R350). -/

namespace Sys2Proof.Machine

open Sys2Proof Sys2Proof.Claims

/-! ### Records laid out as fields side by side -/

/-- Fields side by side, the lowest first: each a value and its width. -/
def sideBySide : List (Nat × Nat) → Nat
  | [] => 0
  | (v, w) :: fs => v % 2 ^ w + 2 ^ w * sideBySide fs

theorem sideBySide_lt (fs : List (Nat × Nat)) : sideBySide fs < 2 ^ (fs.map Prod.snd).sum := by
  induction fs with
  | nil => decide
  | cons f fs ih =>
    obtain ⟨v, w⟩ := f
    have hv := Nat.mod_lt v (Nat.two_pow_pos w)
    calc v % 2 ^ w + 2 ^ w * sideBySide fs < 2 ^ w * (sideBySide fs + 1) := by rw [Nat.mul_add]; omega
      _ ≤ 2 ^ w * 2 ^ (fs.map Prod.snd).sum := Nat.mul_le_mul_left _ ih
      _ = 2 ^ (((v, w) :: fs).map Prod.snd).sum := by rw [← Nat.pow_add]; rfl

/-- A field of a record laid out so, above those before it, is its value cut to its width. -/
theorem field_sideBySide {fs : List (Nat × Nat)} {ws : List Nat} (n : Nat) {v w lo : Nat} (hws : fs.map Prod.snd = ws) (hw : ws.sum ≤ 512)
    (hf : fs[n]? = some (v, w)) (hlo : (ws.take n).sum = lo) : field (BitVec.ofNat 512 (sideBySide fs)) lo w = v % 2 ^ w := by
  subst hws
  rw [field, BitVec.toNat_ofNat, Nat.mod_eq_of_lt ((sideBySide_lt fs).trans_le (Nat.pow_le_pow_right Nat.two_pos hw))]
  clear hw
  induction fs generalizing n lo with
  | nil => simp at hf
  | cons f fs ih =>
    obtain ⟨u, m⟩ := f
    have hu := Nat.mod_lt u (Nat.two_pow_pos m)
    cases n with
    | zero =>
      obtain ⟨rfl, rfl⟩ : u = v ∧ m = w := by simpa using hf
      subst hlo
      simp [sideBySide]
    | succ n =>
      have hlo' : lo = m + ((fs.map Prod.snd).take n).sum := by rw [← hlo]; rfl
      have hdiv : (u % 2 ^ m + 2 ^ m * sideBySide fs) / 2 ^ lo = sideBySide fs / 2 ^ ((fs.map Prod.snd).take n).sum := by
        rw [hlo', Nat.pow_add, ← Nat.div_div_eq_div_mul, Nat.add_mul_div_left _ _ (Nat.two_pow_pos m), Nat.div_eq_of_lt hu, Nat.zero_add]
      rw [sideBySide, hdiv]
      exact ih n (by simpa using hf) rfl

/-- The record of an ordinary lane's fault as Table 22.1 lays it out. -/
def laneFields (s : State) (lk fid : Nat) (pc : Pc) (f : FaultInfo) : List (Nat × Nat) :=
  let g := s.group (gkLane lk)
  let t := s.team g.tk
  [(f.code, 16), (0, 2), (f.tag.getD 0, 6), (f.tag.isSome.toNat, 1), (0, 7), (fid, 32), ((s.launchOf t.ln).serial, 32), (t.idx, 32),
   (pc.slot, 2), (pc.pkt, 30), (g.idx, 16), (lk % 64, 6), (0, 2), (g.core, 7), (0, 1), (f.ctype, 8), (f.obj, 24), (f.off, 64),
   (f.detail, 32), (f.aux, 32), (f.win, 4)]

theorem laneRecord_eq (s : State) (lk fid : Nat) (pc : Pc) (f : FaultInfo) : s.laneRecord lk fid pc f = sideBySide (laneFields s lk fid pc f) := by
  unfold State.laneRecord recordCommon laneFields fld
  dsimp only
  simp only [sideBySide]
  cases f.tag with
  | none => simp only [Option.getD_none, Option.isSome_none, Bool.toNat_false]; omega
  | some t => simp only [Option.getD_some, Option.isSome_some, Bool.toNat_true]; omega

theorem recordOf_laneRecord (s : State) (lk fid : Nat) (pc : Pc) (f : FaultInfo) :
    RecordOf s (lk / 64) fid pc f.code (BitVec.ofNat 512 (s.laneRecord lk fid pc f)) ∧
      LaneRecordOf s lk f (BitVec.ofNat 512 (s.laneRecord lk fid pc f)) := by
  have at_ (n : Nat) {v w lo : Nat} (hf : (laneFields s lk fid pc f)[n]? = some (v, w))
      (hlo : ([16, 2, 6, 1, 7, 32, 32, 32, 2, 30, 16, 6, 2, 7, 1, 8, 24, 64, 32, 32, 4].take n).sum = lo) :
      field (BitVec.ofNat 512 (s.laneRecord lk fid pc f)) lo w = v % 2 ^ w := by
    rw [laneRecord_eq]
    exact field_sideBySide (ws := [16, 2, 6, 1, 7, 32, 32, 32, 2, 30, 16, 6, 2, 7, 1, 8, 24, 64, 32, 32, 4]) n rfl (by decide) hf hlo
  have hlane : lk % 64 % 2 ^ 6 = lk % 64 := Nat.mod_mod _ _
  have hvalid : f.tag.isSome.toNat % 2 ^ 1 = if f.tag.isSome then 1 else 0 := by cases f.tag <;> rfl
  exact ⟨⟨at_ 0 rfl (by decide), at_ 5 rfl (by decide), at_ 6 rfl (by decide), at_ 7 rfl (by decide), at_ 8 rfl (by decide),
    at_ 9 rfl (by decide)⟩, at_ 10 rfl (by decide), (at_ 11 rfl (by decide)).trans hlane, at_ 13 rfl (by decide), at_ 15 rfl (by decide),
    at_ 16 rfl (by decide), at_ 17 rfl (by decide), at_ 18 rfl (by decide), at_ 19 rfl (by decide), (at_ 3 rfl (by decide)).trans hvalid,
    at_ 2 rfl (by decide)⟩

/-! ### Taking a trap or fault (R127, R222, R350) -/

theorem trapNumber_eq (code : Nat) : trapNumber code = trapKind code := rfl

/-- Where the in-line handler may not be entered, the lane parks. -/
theorem State.raise_of_not_inLine (s : State) (lk : Nat) (pc : Pc) (f : FaultInfo)
    (h : ¬ ((trapNumber f.code).isSome = true ∧ (s.lane lk).tvec ≠ 0 ∧ (s.lane lk).intrap = false)) :
    s.raise lk pc f = s.park lk pc f := by
  refine State.raise_parks s lk pc f ?_
  rw [trapNumber_eq] at h
  by_cases hk : trapKind f.code = none
  · exact .inl hk
  · by_cases hv : (s.lane lk).tvec = 0
    · exact .inr (.inl hv)
    · exact .inr (.inr (by simpa using fun hi => h ⟨Option.isSome_iff_ne_none.mpr hk, hv, hi⟩))

theorem enqueue_eq (T : Team) (lk : Nat) (r : BitVec 512) : T.enqueue T.nextFid { lane := some lk, pair := false } r =
    let T' := { T with parked := tset none T.parked T.nextFid (some { lane := some lk, pair := false }), nextFid := T.nextFid + 1 }
    if T.fwait = [] ∧ T.fq.length < 256 then { T' with fq := T.fq ++ [r] } else { T' with fwait := T.fwait ++ [r] } := by
  unfold Team.enqueue
  simp only [Bool.and_eq_true, List.isEmpty_iff, decide_eq_true_eq]

section

variable {s : State} {lk : Nat} (pc : Pc) (f : FaultInfo) (hp : (s.group (lk / 64)).pair = false)
include hp

theorem queued_park (hq : QueuesFault s (lk / 64)) : Queued s (s.park lk pc f) lk pc f := by
  have hto := (s.toQueue_iff lk).mpr hq
  have hrep : s.reported lk pc f = s.modTeam (s.group (lk / 64)).tk (fun T =>
      T.enqueue (s.teamOf (lk / 64)).nextFid { lane := some lk, pair := false }
        (BitVec.ofNat 512 (s.laneRecord lk (s.teamOf (lk / 64)).nextFid pc f))) := by
    rw [State.reported, hto, gkLane, hp, if_neg Bool.false_ne_true, State.report, gkLane, hp]
    rfl
  rw [State.park_eq, if_pos hto, hrep]
  refine ⟨rfl, ?_, fun k hk => ?_, ⟨_, (recordOf_laneRecord s lk _ pc f).1, (recordOf_laneRecord s lk _ pc f).2, ?_⟩, fun k hk => ?_⟩
  · rw [State.lane_modLane, if_pos rfl]
    rfl
  · rw [State.lane_modLane, if_neg hk]
    rfl
  · rw [State.modLane_team, State.team_modTeam, if_pos rfl]
    exact enqueue_eq (s.teamOf (lk / 64)) lk _
  · rw [State.modLane_team, State.team_modTeam, if_neg hk]

theorem reported_park (hq : ¬ QueuesFault s (lk / 64)) : Reported s (s.park lk pc f) lk pc f := by
  have hto : s.toQueue lk = false := eq_false_of_ne_true fun h => hq ((s.toQueue_iff lk).mp h)
  have hrep : s.reported lk pc f = ((s.sendEvent 1 (s.teamOf (lk / 64)).ctxWord
      (BitVec.ofNat 512 (s.laneRecord lk (s.teamOf (lk / 64)).nextFid pc f)).toNat).modTeam (s.group (lk / 64)).tk
        (fun t => { t with nextFid := t.nextFid + 1 })).modLaunch (s.teamOf (lk / 64)).ln (fun x => { x with faulted := true }) := by
    rw [State.reported, hto, gkLane, hp, if_neg Bool.false_ne_true, State.report, gkLane, hp]
    rfl
  rw [State.park_eq, if_neg (by simp [hto]), gkLane, hp, if_neg Bool.false_ne_true]
  have hends := State.endLane_ends (s.reported lk pc f) lk
  generalize (s.reported lk pc f).endLane lk = t at hends
  obtain ⟨hleft, hexited, hmasks, hframe⟩ := hends
  obtain ⟨A, B, ht⟩ : ∃ A B, t = { s.reported lk pc f with g := A, t := { (s.reported lk pc f).t with landing := B } } := ⟨_, _, hframe⟩
  have hteam (k : Nat) : t.team k = (s.reported lk pc f).team k := by rw [ht]; rfl
  have hlaunch (k : Nat) : t.launchOf k = (s.reported lk pc f).launchOf k := by rw [ht]; rfl
  refine ⟨⟨_, (recordOf_laneRecord s lk _ pc f).1, (recordOf_laneRecord s lk _ pc f).2, ?_⟩, hexited, hmasks, ?_, ?_, ?_, ?_⟩
  · rw [ht, hrep]
    show ({ s.h with events := _, errsum := _ } : HostIf) = _
    rw [BitVec.ofNat_toNat, BitVec.setWidth_eq]
    rfl
  · rw [hteam, hrep, State.modLaunch_team, State.team_modTeam_same]
    rfl
  · rw [hlaunch, hrep, State.launchOf_modLaunch_same]
  · rw [hleft.frame, hrep]
    exact ⟨rfl, rfl, rfl⟩
  · rw [ht, hrep]
    exact ⟨rfl, rfl, rfl, rfl, rfl, rfl, rfl, rfl, rfl, rfl, rfl⟩

end

theorem takingATrapOrFault : Claims.TakingATrapOrFault := by
  intro s lk pc f hp inLine
  refine ⟨fun k hk hin => ?_, fun hin hq => ?_, fun hin hq => ?_⟩
  · obtain ⟨-, hv, hi⟩ := hin
    rw [State.raise_inLine s lk pc f k hk hv hi]
    exact ⟨rfl, by rw [State.lane_modLane, if_pos rfl], fun j hj => by rw [State.lane_modLane, if_neg hj]⟩
  · rw [State.raise_of_not_inLine s lk pc f hin]
    exact queued_park pc f hp hq
  · rw [State.raise_of_not_inLine s lk pc f hin]
    exact reported_park pc f hp hq

/-! ### TRAP (R127) -/

theorem exec_trap (c : Bool) (n : Opc) (s : State) : exec (.trap c n) s = .next (s.laneWord (.trap c n) (fun s =>
    s.raiseAll { code := fcSOFTWARE_TRAP, detail := n.toNat, n := n.toNat })) := rfl

/-- The same trap of each executing lane, every one with its in-line handler free: only those lanes change. -/
theorem State.raiseAll_inLine {s : State} {f : FaultInfo} {k : Nat} (hk : trapKind f.code = some k) (hls : s.iss.lanes.Pairwise (· < ·))
    (hin : ∀ l ∈ s.iss.lanes, (s.lane (lkOf s.iss.gk l)).tvec ≠ 0 ∧ (s.lane (lkOf s.iss.gk l)).intrap = false) :
    s.raiseAll f = s.modLanes s.iss.gk s.iss.lanes (fun _ => Handled s.here k f.n) := by
  have h := State.finishWord_eq s s.iss.lanes (fun _ => .trap f) (lanes_nodup hls) fun l hl f' hf' => by
    cases hf'
    exact ⟨by rw [hk]; rfl, hin l hl⟩
  have hafter : LaneAfter s.here (.trap f) = Handled s.here k f.n := by
    funext l
    simp only [LaneAfter, hk]
  rw [State.finishWord, List.foldl_map, hafter] at h
  exact h

theorem trapWord : Claims.TrapWord := by
  intro s c n h
  have hword := State.laneWord_of_not_popsQ1 (fun s => s.raiseAll { code := fcSOFTWARE_TRAP, detail := n.toNat, n := n.toNat }) h rfl
  refine ⟨?_, fun hin => ⟨_, exec_trap c n s, ?_⟩⟩
  · rw [exec_trap, hword]
    rfl
  · have hls := h.2.1
    rw [hword, State.raiseAll_inLine (k := 1) rfl hls hin]
    exact ⟨State.modLanes_frame _ _ _ _, State.modLanes_become s _ hls⟩

/-! ### TRAPRET (R128) -/

theorem exec_trapret (c : Bool) (n : Opc) (s : State) : exec (.trapret c n) s = .next (s.laneWord (.trapret c n) (fun s =>
    s.each (fun x l => if !(s.lane (lkOf s.iss.gk l)).intrap || (s.lane (lkOf s.iss.gk l)).tepc.toNat % 4 == 3 then
      x.raise (lkOf s.iss.gk l) s.here (.of fcILLEGAL_OPERAND) else x.trapReturn (lkOf s.iss.gk l) (n == 1)))) := rfl

/-- The lane after its return from the handler. -/
def Lane.returned (next : Bool) (l : Lane) : Lane :=
  { l.goto (if next then wordAfter (savedPc l) else savedPc l) with intrap := false, codeFloor := max l.codeFloor l.acquired }

theorem savedPc_eq (l : Lane) : ({ pkt := (l.tepc >>> 2).toNat, slot := (l.tepc &&& 3).toNat } : Pc) = savedPc l := by
  have hslot : (l.tepc &&& 3).toNat = l.tepc.toNat % 4 := by
    rw [BitVec.toNat_and]
    exact Nat.and_two_pow_sub_one_eq_mod _ 2
  have hpkt : (l.tepc >>> 2).toNat = l.tepc.toNat / 4 := by
    rw [BitVec.toNat_ushiftRight, Nat.shiftRight_eq_div_pow]
  rw [hslot, hpkt, savedPc]

theorem State.trapReturn_eq (s : State) (lk : Nat) (next : Bool) : s.trapReturn lk next = s.modLane lk (Lane.returned next) := by
  have hlane (l : Lane) : ({ (l.take (if next then (savedPc l).next else savedPc l)) with intrap := false } : Lane) = Lane.returned next l := rfl
  unfold trapReturn
  congr 1
  funext l
  dsimp only
  rw [savedPc_eq]
  exact hlane l

/-- What each executing lane does in turn, told apart by what the lanes held before. -/
theorem State.each_congr {s : State} {f g : State → Nat → State} (h : ∀ x, ∀ l ∈ s.iss.lanes, f x l = g x l) : s.each f = s.each g :=
  List.foldl_ext f g s h

theorem trapReturn : Claims.TrapReturn := by
  intro s c m h
  have hword := fun body => State.laneWord_of_not_popsQ1 (i := .trapret c m) body h rfl
  refine ⟨fun hret => ⟨_, exec_trapret c m s, ?_⟩, fun hbad => faults_of_laneWord (exec_trapret c m s) h ?_⟩
  · have hstep : LaneStep s s.iss.gk (fun x l => x.trapReturn (lkOf s.iss.gk l) (m == 1)) (fun _ => Lane.returned (m == 1)) := by
      simp only [State.trapReturn_eq]
      exact laneStep_modLane s _ _
    obtain ⟨hframe, hin, hout⟩ := hstep.each h.2.1
    rw [hword, State.each_congr fun x l hl => if_neg (by simpa using hret l hl)]
    refine ⟨hframe, fun l hl => ?_, hout⟩
    refine (hin l hl).trans ?_
    unfold Lane.returned
    simp only [beq_iff_eq]
  · exact State.each_congr fun x l hl => if_pos (by simpa using hbad l hl)

end Sys2Proof.Machine

namespace Sys2Proof.Proofs

/-- Settles O12: a trap with its handler free changes its lane alone; every other trap or fault parks the lane, and its record's fields
stand side by side as Table 22.1 lays them out. -/
theorem takingTraps : Obligations.TakingTraps := ⟨Machine.takingATrapOrFault, Machine.trapWord, Machine.trapReturn⟩

end Sys2Proof.Proofs
end

section
/-! BRK and EVENT (O13, R130, R132, R135, R365). -/

namespace Sys2Proof.Machine

open Sys2Proof Sys2Proof.Claims

/-! ### What a trace record leaves (R366) -/

/-- A state with other trace rings, and with what they hold in memory. -/
def State.withRings (x : State) (owl : Tbl Owl) (free : Nat) (mem : List Host.Cell) (old : Tbl (List Version)) (stamp : Nat) : State :=
  { x with w := { x.w with owl := owl }, free := free, o := { x.o with mem := mem, old := old, stamp := stamp } }

/-- Only Owl's rings and what they hold in memory have changed. -/
def RingsOnly (x y : State) : Prop := ∃ a b c d e, y = x.withRings a b c d e

theorem RingsOnly.refl (x : State) : RingsOnly x x := ⟨_, _, _, _, _, rfl⟩

theorem RingsOnly.trans {x y z : State} (h : RingsOnly x y) (h' : RingsOnly y z) : RingsOnly x z := by
  obtain ⟨_, _, _, _, _, rfl⟩ := h
  obtain ⟨_, _, _, _, _, rfl⟩ := h'
  exact ⟨_, _, _, _, _, rfl⟩

theorem ringsOnly_setOwl (x : State) (die : Nat) (o : Owl) : RingsOnly x (x.setOwl die o) := ⟨_, _, _, _, _, rfl⟩

theorem ringsOnly_putTrace (x : State) (die r : Nat) : RingsOnly x (x.putTrace die r) := ⟨_, _, _, _, _, rfl⟩

theorem ringsOnly_traceLost (x : State) (die : Nat) : RingsOnly x (x.traceLost die) := by
  unfold State.traceLost
  dsimp only
  split
  · exact .refl x
  · exact .trans ⟨_, _, _, _, _, rfl⟩ ((ringsOnly_setOwl x.draw.2 die _).trans (ringsOnly_putTrace _ die _))

theorem ringsOnly_trace (x : State) (die r : Nat) : RingsOnly x (x.trace die r) := by
  unfold State.trace
  split
  · exact .refl x
  · dsimp only
    split
    · exact (ringsOnly_traceLost x die).trans (ringsOnly_setOwl _ die _)
    · exact (ringsOnly_traceLost x die).trans (ringsOnly_putTrace _ die r)

theorem ringsOnly_laneTrace (x : State) (lk : Nat) (pc : Pc) (kind st detail : Nat) : RingsOnly x (x.laneTrace lk pc kind st detail) :=
  ringsOnly_trace x _ _

theorem RingsOnly.lane {x y : State} (h : RingsOnly x y) (k : Nat) : y.lane k = x.lane k := by
  obtain ⟨_, _, _, _, _, rfl⟩ := h
  rfl

theorem exists_rings_of_traced {s t : State} (h : Traced s t) : ∃ L, RingsOnly { s with g := { s.g with lanes := L } } t :=
  ⟨_, _, _, _, _, _, h⟩

theorem traced_of_rings {s t : State} {L : Tbl Lane} (h : RingsOnly { s with g := { s.g with lanes := L } } t) : Traced s t := by
  obtain ⟨_, _, _, _, _, rfl⟩ := h
  rfl

theorem traced_trans {s x y : State} (h : Traced s x) (h' : Traced x y) : Traced s y := by
  obtain ⟨_, _, _, _, _, _, rfl⟩ := exists_rings_of_traced h
  obtain ⟨_, _, _, _, _, _, rfl⟩ := exists_rings_of_traced h'
  rfl

/-! ### BRK (R130, R365) -/

theorem exec_brk (c : Bool) (s : State) : exec (.brk c) s = .next (s.laneWord (.brk c) (fun s => s.each (fun x l =>
    if (s.lane (lkOf s.iss.gk l)).past then x.advLane (lkOf s.iss.gk l) else x.breakLane (lkOf s.iss.gk l) s.here))) := rfl

/-- A debugger has enabled breakpoints for the context of a group (R365). -/
def State.debugs (s : State) (gk : Nat) : Bool := s.debugged (s.group gk).core (s.kern gk).ctx

theorem State.breakLane_eq (x : State) {gk l : Nat} (hl : l < 64) (pc : Pc) : x.breakLane (lkOf gk l) pc =
    if x.debugs gk then
      (x.modLane (lkOf gk l) (fun y => { y with st := .halted none, step := false, haltReq := false })).laneTrace (lkOf gk l) pc 3 0 0
    else x.park (lkOf gk l) pc (.of fcBREAKPOINT) := by
  unfold State.breakLane State.debugs gkLane
  rw [lkOf_div hl]

/-- A lane stopped by a debugger's breakpoint. -/
def Lane.stopped (y : Lane) : Lane := { y with st := .halted none, step := false, haltReq := false }

theorem State.debugs_of_traced {s x : State} (h : Traced s x) (gk : Nat) : x.debugs gk = s.debugs gk := by rw [h]; rfl

/-- Where a debugger stops lanes, each is halted and the rest of the device goes on but for the trace. -/
theorem breakLanes_traced {s : State} {gk : Nat} (pc : Pc) (hdebug : s.debugs gk = true) (ls : List Nat) (hls : ls.Nodup)
    (h64 : ∀ l ∈ ls, l < 64) :
    let t := ls.foldl (fun x l => x.breakLane (lkOf gk l) pc) s
    Traced s t ∧ (∀ l ∈ ls, t.lane (lkOf gk l) = Lane.stopped (s.lane (lkOf gk l))) ∧
      ∀ k, (∀ l ∈ ls, k ≠ lkOf gk l) → t.lane k = s.lane k := by
  induction ls generalizing s with
  | nil => exact ⟨rfl, nofun, fun _ _ => rfl⟩
  | cons m ms ih =>
    obtain ⟨hm, hms⟩ := List.nodup_cons.mp hls
    rw [List.foldl_cons, s.breakLane_eq (h64 m List.mem_cons_self), hdebug, if_pos rfl]
    have hrings := ringsOnly_laneTrace (s.modLane (lkOf gk m) Lane.stopped) (lkOf gk m) pc 3 0 0
    have hlane (k : Nat) : ((s.modLane (lkOf gk m) Lane.stopped).laneTrace (lkOf gk m) pc 3 0 0).lane k =
        if k = lkOf gk m then Lane.stopped (s.lane k) else s.lane k := (hrings.lane k).trans (State.lane_modLane s _ _ k)
    have htraced : Traced s ((s.modLane (lkOf gk m) Lane.stopped).laneTrace (lkOf gk m) pc 3 0 0) := traced_of_rings hrings
    obtain ⟨hrest, hin, hout⟩ := ih ((State.debugs_of_traced htraced gk).trans hdebug) hms fun l hl => h64 l (List.mem_cons_of_mem _ hl)
    refine ⟨traced_trans htraced hrest, fun l hl => ?_, fun k hk => ?_⟩
    · rcases List.mem_cons.mp hl with rfl | hl
      · exact (hout _ fun l' hl' e => hm (by rwa [(lkOf_inj _ _ _).mp e])).trans ((hlane _).trans (if_pos rfl))
      · exact (hin l hl).trans (by rw [hlane, if_neg fun e => hm (by rwa [← (lkOf_inj _ _ _).mp e])])
    · exact (hout k fun l hl => hk l (List.mem_cons_of_mem _ hl)).trans ((hlane k).trans (if_neg (hk m List.mem_cons_self)))

theorem FaultLeft.debugs {own : Nat → Prop} {x y : State} (h : FaultLeft own x y) (gk : Nat) : y.debugs gk = x.debugs gk := by
  unfold State.debugs State.debugged State.comparators
  rw [h.w, h.core, h.kern]

/-- Where no debugger is attached, each lane parks; a lane's fault does not attach one. -/
theorem breakLanes_park {s : State} {gk : Nat} (pc : Pc) (hdebug : s.debugs gk = false) (ls : List Nat) (h64 : ∀ l ∈ ls, l < 64) :
    ls.foldl (fun x l => x.breakLane (lkOf gk l) pc) s = ls.foldl (fun x l => x.park (lkOf gk l) pc (.of fcBREAKPOINT)) s := by
  induction ls generalizing s with
  | nil => rfl
  | cons m ms ih =>
    rw [List.foldl_cons, List.foldl_cons, s.breakLane_eq (h64 m List.mem_cons_self), hdebug, if_neg Bool.false_ne_true]
    exact ih (((s.park_left (lkOf gk m) pc _).1.debugs gk).trans hdebug) fun l hl => h64 l (List.mem_cons_of_mem _ hl)

theorem breakpointWord : Claims.BreakpointWord := by
  intro s c h debugged
  have hls := h.2.1
  have hword := fun body => State.laneWord_of_not_popsQ1 (i := .brk c) body h rfl
  refine ⟨fun hpast => ⟨_, exec_brk c s, ?_⟩, fun h64 hdebug hpast => ⟨_, exec_brk c s, ?_⟩, fun h64 hdebug hpast => ?_⟩
  · rw [hword, State.each_congr fun x l hl => if_pos (hpast l hl)]
    exact ⟨onlyLanes_advAll s, allAdvance_advAll hls⟩
  · rw [hword, State.each_congr fun x l hl => if_neg (by rw [hpast l hl]; exact Bool.false_ne_true)]
    obtain ⟨htraced, hin, hout⟩ := breakLanes_traced s.here hdebug s.iss.lanes (lanes_nodup hls) h64
    exact ⟨htraced, hin, hout⟩
  · rw [exec_brk, hword, State.each_congr fun x l hl => if_neg (by rw [hpast l hl]; exact Bool.false_ne_true)]
    exact congrArg _ (breakLanes_park s.here (eq_false_of_ne_true hdebug) s.iss.lanes h64)

/-! ### Words whose lanes all wait at them -/

/-- The waits of a word itself; those of a REJOIN or WAITC come after it. -/
def AtWord (w : Wait) : Prop := ∀ l : Lane, (l.waitAt w).atWord = true

/-- A word whose lanes all wait pops nothing (R52). -/
theorem State.laneWord_waits {s : State} {i : Instr} {body : State → State} {w : Wait} (h : Issues s i) (hw : AtWord w)
    (hb : body s = s.waitAll w) :
    s.laneWord i body = s.waitAll w ∧ OnlyLanes s (s.waitAll w) ∧ LanesBecome s (s.waitAll w) (fun _ => Waits w) := by
  obtain ⟨hne, hls, hok, hq⟩ := h
  have hlanes : LanesBecome s (s.waitAll w) (fun _ => Waits w) := State.modLanes_become s (fun _ => Lane.waitAt w) hls
  refine ⟨?_, State.modLanes_frame _ _ _ _, hlanes⟩
  unfold State.laneWord
  dsimp only
  rw [hok, if_neg (by decide)]
  split
  · exact hb
  next hp =>
    rw [Bool.or_eq_true, not_or, Bool.not_eq_true', Bool.not_eq_false] at hp
    obtain ⟨hpop, -⟩ := hp
    have hat : s.iss.lanes.all (fun l => ((s.waitAll w).lane (lkOf s.iss.gk l)).atWord) = true :=
      List.all_eq_true.mpr fun l hl => by rw [hlanes.1 l hl]; exact hw _
    rw [if_neg (by simpa using (hq hpop).1), hb, State.afterPop]
    exact if_pos hat

/-- Every wait but a REJOIN's and a WAITC's is of the word. -/
theorem atWord_of_waiting {w : Wait} (hw : ({ st := .waiting w } : Lane).atWord = true) : AtWord w := fun l => by
  unfold Lane.waitAt
  split <;> exact hw

/-! ### EVENT (R135, R138) -/

/-- The user event of an EVENT word sent. -/
def State.userEvent (s : State) (a n : Opc) : State :=
  s.sendEvent 5 (s.teamOf s.iss.gk).ctxWord (s.userPayload s.iss.gk s.low n.toNat (s.src s.iss.gk s.low a))

/-- The effect of an EVENT word. -/
def State.eventBody (a n : Opc) (s : State) : State :=
  if s.acqAny then s.waitAll (.order none) else if s.evFull then s.waitAll .place else (s.userEvent a n).advAll

theorem exec_event (c : Bool) (a n : Opc) (s : State) : exec (.event c a n) s = .next (s.laneWord (.event c a n) (State.eventBody a n)) :=
  rfl

theorem acqAny_iff (s : State) : s.acqAny = true ↔ ∃ l ∈ s.iss.lanes, s.acqPending (lkOf s.iss.gk l) = true := List.any_eq_true

/-- The payload of a user event as Table 18.7 lays it out. -/
def eventFields (s : State) (gk lane n : Nat) (v : Word) : List (Nat × Nat) :=
  let g := s.group gk
  let t := s.team g.tk
  [(n, 8), (0, 24), (v.toNat, 32), ((s.launchOf t.ln).serial, 32), (t.kern.ctx, 6), (0, 26), (t.idx, 32), (g.idx, 16), (lane, 8), (g.core, 8)]

theorem userPayload_eq (s : State) (gk lane n : Nat) (v : Word) : s.userPayload gk lane n v = sideBySide (eventFields s gk lane n v) := by
  unfold State.userPayload eventFields fld launchId
  dsimp only
  simp only [sideBySide]
  omega

/-- What a user event carries (Table 18.7). -/
theorem userPayload_fields (s : State) (gk lane n : Nat) (v : Word) :
    let p : BitVec 512 := BitVec.ofNat 512 (s.userPayload gk lane n v)
    let g := s.group gk
    let T := s.teamOf gk
    field p 0 8 = n % 2 ^ 8 ∧ field p 32 32 = v.toNat % 2 ^ 32 ∧ field p 64 32 = (s.launchOf T.ln).serial % 2 ^ 32 ∧
      field p 96 6 = T.kern.ctx % 2 ^ 6 ∧ field p 128 32 = T.idx % 2 ^ 32 ∧ field p 160 16 = g.idx % 2 ^ 16 ∧
      field p 176 8 = lane % 2 ^ 8 ∧ field p 184 8 = g.core % 2 ^ 8 := by
  dsimp only
  rw [userPayload_eq]
  have at_ (i : Nat) {v' w lo : Nat} (hf : (eventFields s gk lane n v)[i]? = some (v', w))
      (hlo : ([8, 24, 32, 32, 6, 26, 32, 16, 8, 8].take i).sum = lo) :
      field (BitVec.ofNat 512 (sideBySide (eventFields s gk lane n v))) lo w = v' % 2 ^ w :=
    field_sideBySide (ws := [8, 24, 32, 32, 6, 26, 32, 16, 8, 8]) i rfl (by decide) hf hlo
  exact ⟨at_ 0 rfl (by decide), at_ 2 rfl (by decide), at_ 3 rfl (by decide), at_ 4 rfl (by decide), at_ 6 rfl (by decide),
    at_ 7 rfl (by decide), at_ 8 rfl (by decide), at_ 9 rfl (by decide)⟩

/-- Where no group changes. -/
theorem groupBecomes_of_groups {s t : State} (h : ∀ k, t.group k = s.group k) : GroupBecomes s t (s.group s.iss.gk) := fun k => by
  rw [h]
  split
  next hk => rw [hk]
  next => rfl

/-- A word that changes the records of lanes and groups and what the arbiter holds, and whose lanes then go on. -/
theorem State.laneWord_goesOn {s x : State} {i : Instr} {body : State → State} {F : Nat → Lane → Lane} {G : Group → Group} (h : Issues s i)
    (hb : body s = x.advAll) (hx : x = { s with g := { s.g with lanes := x.g.lanes, groups := x.g.groups }, h := x.h })
    (hlanes : LanesBecome s x F) (hat : ∀ l y, (F l y).atWord = y.atWord) (hq : ∀ g q, G { g with q1 := q } = { G g with q1 := q })
    (hq1 : ∀ g, (G g).q1 = g.q1) (hgroup : GroupBecomes s x (G (s.group s.iss.gk))) :
    s.laneWord i body = { s with
      g := { s.g with lanes := (s.laneWord i body).g.lanes, groups := (s.laneWord i body).g.groups }, h := x.h } ∧
    LanesBecome s (s.laneWord i body) (fun l y => (F l y).advance) ∧ GroupBecomes s (s.laneWord i body) (G (Popped s i)) := by
  have hls := h.2.1
  have hiss : x.iss = s.iss := by rw [hx]
  have hgo : LanesBecome s (body s) (fun l y => (F l y).advance) := by
    obtain ⟨hin, hout⟩ := allAdvance_advAll (s := x) (hiss ▸ hls)
    rw [hiss] at hin hout
    rw [hb]
    exact ⟨fun l hl => (hin l hl).trans (congrArg _ (hlanes.1 l hl)), fun k hk => (hout k hk).trans (hlanes.2 k hk)⟩
  have hgroup' : GroupBecomes s (body s) (G (s.group s.iss.gk)) := fun k => by
    rw [hb, group_of_onlyLanes (onlyLanes_advAll x)]
    exact hgroup k
  have heq : s.laneWord i body = if popsQ1 i then (body s).popQ1 s.iss.gk else body s := by
    refine State.laneWord_eq s i body h fun hp l hl => ?_
    rw [hgo.1 l hl, Lane.advance_atWord, hat]
    exact (h.2.2.2 hp).2 l hl |>.2
  refine ⟨?_, ⟨fun l hl => ?_, fun k hk => ?_⟩, ?_⟩
  · obtain ⟨N, hN⟩ : ∃ N, s.laneWord i body = { body s with g := { (body s).g with groups := N } } := ⟨_, heq.trans (popQ1_frame _ _ _)⟩
    obtain ⟨L, hL⟩ : ∃ L, body s = { x with g := { x.g with lanes := L } } := ⟨_, hb.trans (onlyLanes_advAll x)⟩
    obtain ⟨A, B, H, hA⟩ : ∃ A B H, x = { s with g := { s.g with lanes := A, groups := B }, h := H } := ⟨_, _, _, hx⟩
    rw [hN, hL, hA]
  · rw [heq, popQ1_lane]
    exact hgo.1 l hl
  · rw [heq, popQ1_lane]
    exact hgo.2 k hk
  · rw [heq]
    exact popped_group s (body s) i G hq hq1 hgroup'

theorem eventWord : Claims.EventWord := by
  intro s c a n h g T behind
  have hls := h.2.1
  refine ⟨fun hacq hfull => ⟨_, exec_event c a n s, ?_⟩, fun hacq hfull => ⟨_, exec_event c a n s, ?_⟩,
    fun hacq => ⟨_, exec_event c a n s, ?_⟩⟩
  · have hbody : State.eventBody a n s = (s.userEvent a n).advAll :=
      (if_neg fun e => hacq ((acqAny_iff s).mp e)).trans (if_neg (by rw [hfull]; exact Bool.false_ne_true))
    obtain ⟨hframe, hgo, hgroup⟩ := State.laneWord_goesOn (F := fun _ y => y) (G := id) h hbody rfl ⟨fun _ _ => rfl, fun _ _ => rfl⟩
      (fun _ _ => rfl) (fun _ _ => rfl) (fun _ => rfl) (groupBecomes_of_groups fun _ => rfl)
    obtain ⟨hn, hv, hrest⟩ := userPayload_fields s s.iss.gk s.low n.toNat (s.src s.iss.gk s.low a)
    refine ⟨by rw [hframe], hgo, hgroup, _, by rw [hframe]; rfl, hn.trans ?_, hv.trans ?_, hrest⟩
    · have := n.isLt
      omega
    · exact Nat.mod_eq_of_lt (s.src s.iss.gk s.low a).isLt
  · obtain ⟨hword, hframe, hlanes⟩ := State.laneWord_waits (body := State.eventBody a n) (w := .place) h (atWord_of_waiting rfl)
      ((if_neg fun e => hacq ((acqAny_iff s).mp e)).trans (if_pos hfull))
    rw [hword]
    exact ⟨hframe, hlanes⟩
  · obtain ⟨hword, hframe, hlanes⟩ := State.laneWord_waits (body := State.eventBody a n) (w := .order none) h (atWord_of_waiting rfl)
      (if_pos ((acqAny_iff s).mpr hacq))
    rw [hword]
    exact ⟨hframe, hlanes⟩

end Sys2Proof.Machine
end

section
/-! SREAD and SWRITE (O13, R125, R126, R6). -/

namespace Sys2Proof.Machine

open Sys2Proof Sys2Proof.Claims

/-! ### The special registers (Table 6.3) -/

theorem special_eq (s : State) (l n : Nat) : s.special s.iss.gk l n = specialValue s l n := by
  unfold State.special
  dsimp only
  split
  case h_16 h0 h1 h2 h3 h4 h5 h6 h32 h33 h34 h35 h36 h37 h38 h39 =>
    unfold specialValue
    dsimp only
    by_cases hm : 16 ≤ n ∧ n < 32
    · rw [if_pos (by simpa using hm), if_neg h0, if_neg h1, if_neg h2, if_neg h3, if_neg h4, if_neg h5, if_neg h6, if_pos hm]
      rfl
    · rw [if_neg (by simpa using hm), if_neg h0, if_neg h1, if_neg h2, if_neg h3, if_neg h4, if_neg h5, if_neg h6, if_neg hm, if_neg h32,
        if_neg h33, if_neg h34, if_neg h35, if_neg h36, if_neg h37, if_neg h38, if_neg h39]
  all_goals rfl

theorem low_mem {s : State} (h : s.iss.lanes ≠ []) : s.low ∈ s.iss.lanes := by
  obtain ⟨l, ls, hls⟩ := List.exists_cons_of_ne_nil h
  rw [State.low, hls]
  exact List.mem_cons_self

/-! ### SREAD (R125, R126) -/

/-- The mark that reading a cycle counter leaves on a deterministic launch (R126). -/
def State.markClock (gk : Nat) (n : Opc) (s : State) : State := if isClock n then s.markNondet gk else s

/-- The values of a special for the executing lanes. -/
def State.specials (s : State) (n : Opc) : List (Nat × LaneRes) :=
  s.iss.lanes.map (fun l => (l, .w ((s.special s.iss.gk l n.toNat).getD 0)))

/-- The effect of an SREAD word. -/
def State.sreadBody (d n : Opc) (s : State) : State :=
  if (s.special s.iss.gk s.low n.toNat).isNone then s.raiseAll (.of fcILLEGAL_OPERAND)
  else if isClock n && !s.nondetOk s.iss.gk then s.raiseAll (.of fcNONDET_OP)
  else s.deliverWith d (s.specials n) (State.markClock s.iss.gk n)

theorem exec_sread (c : Bool) (d n : Opc) (s : State) : exec (.sread c d n) s = .next (s.laneWord (.sread c d n) (State.sreadBody d n)) :=
  rfl

theorem isClock_iff (n : Opc) : isClock n = true ↔ n = 33 ∨ n = 34 := by
  unfold isClock
  simp

theorem setQueue_tk (g : Group) (c : Nat) (ws : List Word) : (g.setQueue c ws).tk = g.tk := by
  unfold Group.setQueue
  split <;> rfl

/-- A destination written and another effect that leaves every state of the word's kernel as it is. -/
theorem State.deliverWith_of_idle {s : State} {d : Opc} {res : Nat → LaneRes} {after : State → State} (hne : s.iss.lanes ≠ [])
    (h1 : ∀ l, OneWord (res l)) (hroom : Room s d) (hafter : ∀ x, x.kern s.iss.gk = s.kern s.iss.gk → after x = x) :
    s.deliverWith d (s.iss.lanes.map fun l => (l, res l)) after = s.deliver d (s.iss.lanes.map fun l => (l, res l)) := by
  cases hd : isQ d with
  | false =>
    obtain ⟨hx, -⟩ := State.writeDst_holds s d res 1 hne (fits_one d) fun l _ => h1 l
    simp only [State.deliver, State.deliverWith, hd, if_neg Bool.false_ne_true, id]
    rw [hafter _ (by rw [hx]; rfl)]
  | true =>
    obtain ⟨a, ls, hls⟩ := List.exists_cons_of_ne_nil hne
    rw [hls, List.map_cons]
    cases hres : res a with
    | trap f =>
      simp only [State.deliver, State.deliverWith, hd, if_true, id]
      rw [hafter s rfl]
    | val ws =>
      rw [State.deliver, State.deliverWith_room hd hroom, State.deliverWith_room hd hroom, hafter _ ?_, id]
      unfold State.kern State.teamOf
      rw [State.setGroup_team, State.group_setGroup, if_pos rfl, setQueue_tk]

/-- The mark of a clock read leaves a state alone where no clock is read or the launch is not deterministic. -/
theorem State.markClock_of_idle {s x : State} {gk : Nat} {n : Opc} (h : (n ≠ 33 ∧ n ≠ 34) ∨ (s.kern gk).det = false)
    (hx : x.kern gk = s.kern gk) : State.markClock gk n x = x := by
  unfold State.markClock
  split
  next hc =>
    have hdet := h.resolve_left fun hn => by
      rcases (isClock_iff n).mp hc with hc | hc
      · exact hn.1 hc
      · exact hn.2 hc
    rw [State.markNondet, hx, hdet]
    exact if_neg Bool.false_ne_true
  next => rfl

/-- Values that a special has for the executing lanes. -/
theorem specials_eq {s : State} {n : Opc} {v : Nat → Word} (hv : ∀ l ∈ s.iss.lanes, specialValue s l n.toNat = some (v l)) :
    s.specials n = s.iss.lanes.map (fun l => (l, .w (v l))) :=
  List.map_congr_left fun l hl => by rw [special_eq, hv l hl]; rfl

theorem nondetOk_of_idle {s : State} {gk : Nat} {n : Opc} (h : (n ≠ 33 ∧ n ≠ 34) ∨ (s.kern gk).det = false) :
    (isClock n && !s.nondetOk gk) = false := by
  rcases h with ⟨h33, h34⟩ | hdet
  · have hc : isClock n = false := eq_false_of_ne_true fun hc => ((isClock_iff n).mp hc).elim h33 h34
    rw [hc]
    rfl
  · rw [State.nondetOk, hdet]
    simp

/-- A read of a special that is listed, and that needs no leave, is a word that computes its value for each lane. -/
theorem runs_sread {s : State} {c : Bool} {d n : Opc} {v : Nat → Word}
    (hv : ∀ l ∈ s.iss.lanes, specialValue s l n.toNat = some (v l))
    (hdet : (n ≠ 33 ∧ n ≠ 34) ∨ (s.kern s.iss.gk).det = false) : Runs s (.sread c d n) d (fun l => .w (v l)) := by
  intro hable
  obtain ⟨hissues, -, hroom⟩ := id hable
  have hne := hissues.1
  have hbody : State.sreadBody d n s = s.deliver d (s.iss.lanes.map fun l => (l, LaneRes.w (v l))) := by
    unfold State.sreadBody
    rw [special_eq, hv _ (low_mem hne), if_neg (by simp), nondetOk_of_idle hdet, if_neg Bool.false_ne_true, specials_eq hv]
    exact State.deliverWith_of_idle hne (fun _ => oneWord_w _) hroom fun x hx => State.markClock_of_idle hdet hx
  have he : exec (.sread c d n) s = .next (s.compute (.sread c d n) d fun l => .w (v l)) := by
    rw [exec_sread]
    exact congrArg _ (State.laneWord_congr _ hbody)
  exact State.compute_computes s _ d _ 1 hable he (fits_one d) fun _ _ => oneWord_w _

theorem destHolds_of_regs {s x t : State} {d : Opc} {res : Nat → LaneRes} (h : DestHolds s x d res) (hv : t.g.vreg = x.g.vreg)
    (hs : t.g.sreg = x.g.sreg) : DestHolds s t d res where
  vHeld := by
    unfold State.vreg
    rw [hv]
    exact h.vHeld
  vKept := by
    rw [hv]
    exact h.vKept
  sHeld := by
    unfold State.sreg
    rw [hs]
    exact h.sHeld
  sKept := by
    unfold State.sreg
    rw [hs]
    exact h.sKept

/-- A cycle counter is listed. -/
theorem clock_listed (s : State) (gk l : Nat) {n : Opc} (hn : n = 33 ∨ n = 34) : ¬ (s.special gk l n.toNat).isNone = true := by
  rcases hn with rfl | rfl <;> exact Bool.false_ne_true

/-- Results written to a register destination, then another effect that leaves lanes, groups and registers alone: the destination holds
the results and the lanes go on. -/
theorem State.deliverWith_goesOn {s : State} {d : Opc} {after : State → State} (v : Nat → Word) (hne : s.iss.lanes ≠ [])
    (hls : s.iss.lanes.Pairwise (· < ·)) (hd : isQ d = false) (hafter : ∀ x, (after x).g = x.g ∧ (after x).iss = x.iss) :
    let t := s.deliverWith d (s.iss.lanes.map fun l => (l, .w (v l))) after
    DestHolds s t d (fun l => .w (v l)) ∧ AllAdvance s t ∧ ∃ x L, x = { s with g := { s.g with vreg := x.g.vreg, sreg := x.g.sreg } } ∧
      t = { after x with g := { x.g with lanes := L } } := by
  obtain ⟨hx, hdest⟩ := State.writeDst_holds s d (fun l => .w (v l)) 1 hne (fits_one d) fun _ _ => oneWord_w _
  have hfirst : s.deliverWith d (s.iss.lanes.map fun l => (l, .w (v l))) after =
      (after (s.writeDst s.iss.gk d (s.iss.lanes.map fun l => (l, .w (v l))))).finishWord (s.iss.lanes.map fun l => (l, .w (v l))) :=
    if_neg (by rw [hd]; exact Bool.false_ne_true)
  generalize s.writeDst s.iss.gk d (s.iss.lanes.map fun l => (l, .w (v l))) = x at hx hdest hfirst
  obtain ⟨hg, hiss⟩ := hafter x
  have hiss' : (after x).iss = s.iss := by rw [hiss, hx]
  have hlane (k : Nat) : (after x).lane k = s.lane k := by rw [State.lane, hg, hx]; rfl
  have hfin := State.finishWord_eq (after x) s.iss.lanes (fun l => .w (v l)) (lanes_nodup hls) nofun
  rw [hiss'] at hfin
  have hgo := State.lane_modLanes (after x) s.iss.gk s.iss.lanes (fun _ => Lane.advance) (lanes_nodup hls)
  have hframe := State.modLanes_frame (after x) s.iss.gk s.iss.lanes (fun _ => Lane.advance)
  intro t
  have ht : t = (after x).modLanes s.iss.gk s.iss.lanes (fun _ => Lane.advance) := hfirst.trans hfin
  rw [← ht, hg] at hframe
  rw [← ht] at hgo
  exact ⟨destHolds_of_regs hdest (by rw [hframe]) (by rw [hframe]),
    ⟨fun l hl => ((hgo _).1 l hl rfl).trans (congrArg _ (hlane _)), fun k hk => ((hgo k).2 hk).trans (hlane k)⟩, x, _, hx, hframe⟩

/-- A clock read by a deterministic launch that has leave: the destination is written, the launch marked, and the lanes go on. -/
theorem readClock_goes {s : State} {d n : Opc} (hne : s.iss.lanes ≠ []) (hls : s.iss.lanes.Pairwise (· < ·)) (hc : isClock n = true)
    (hdet : (s.kern s.iss.gk).det = true) (hd : isQ d = false) :
    let t := s.deliverWith d (s.specials n) (State.markClock s.iss.gk n)
    DestHolds s t d (fun l => .w ((specialValue s l n.toNat).getD 0)) ∧ AllAdvance s t ∧
      (t.launchOf (s.teamOf s.iss.gk).ln).nondet = true := by
  have hspecials : s.specials n = s.iss.lanes.map (fun l => (l, LaneRes.w ((specialValue s l n.toNat).getD 0))) :=
    List.map_congr_left fun l _ => by rw [special_eq]
  have hmark (x : State) : State.markClock s.iss.gk n x = x.markNondet s.iss.gk := if_pos hc
  have hkeeps (x : State) : (State.markClock s.iss.gk n x).g = x.g ∧ (State.markClock s.iss.gk n x).iss = x.iss := by
    rw [hmark, State.markNondet]
    split <;> exact ⟨rfl, rfl⟩
  obtain ⟨hdest, hgo, x, L, hx, ht⟩ := State.deliverWith_goesOn (fun l => (specialValue s l n.toNat).getD 0) hne hls hd hkeeps
  intro t
  rw [← hspecials] at hdest hgo ht
  have hlaunch (k : Nat) : t.launchOf k = (State.markClock s.iss.gk n x).launchOf k := by
    rw [show t = _ from ht]
    rfl
  refine ⟨hdest, hgo, ?_⟩
  have hkern : x.kern s.iss.gk = s.kern s.iss.gk := by rw [hx]; rfl
  have hteam : x.teamOf s.iss.gk = s.teamOf s.iss.gk := by rw [hx]; rfl
  rw [hlaunch, hmark, State.markNondet, hkern, hdet, if_pos rfl, hteam, State.launchOf_modLaunch_same]

theorem specialRead : Claims.SpecialRead := by
  intro s c d n k
  refine ⟨fun v hv hdet => runs_sread hv hdet, fun h hnone => ?_, fun h hn hdet => ⟨fun hnondet => ?_, fun hnondet hd => ?_⟩⟩
  · refine faults_of_laneWord (exec_sread c d n s) h (if_pos ?_)
    rw [special_eq, hnone]
    rfl
  · refine faults_of_laneWord (exec_sread c d n s) h ((if_neg (clock_listed s _ _ hn)).trans (if_pos ?_))
    rw [(isClock_iff n).mpr hn, State.nondetOk, hdet, hnondet]
    rfl
  · have hbody : State.sreadBody d n s = s.deliverWith d (s.specials n) (State.markClock s.iss.gk n) := by
      refine (if_neg (clock_listed s _ _ hn)).trans (if_neg ?_)
      rw [State.nondetOk, hnondet]
      simp
    refine ⟨_, exec_sread c d n s, ?_⟩
    rw [State.laneWord_of_not_popsQ1 _ h rfl, hbody]
    exact readClock_goes h.1 h.2.1 ((isClock_iff n).mpr hn) hdet hd

/-! ### SWRITE (R125, R6) -/

/-- What SWRITE does before its lanes go on. -/
def State.writeSpecial (a n : Opc) (s : State) : State :=
  let perLane (f : Word → Lane → Lane) : State := s.each (fun x l => x.modLane (lkOf s.iss.gk l) (f (s.src s.iss.gk l a)))
  match n.toNat with
  | 0 => perLane (fun v l => { l with lanesp := v &&& 0xFFFFFFFC })
  | 2 => perLane (fun v l => { l with tvec := v })
  | 3 => perLane (fun v l => { l with tepc := v })
  | 32 => s.modGroup s.iss.gk (fun g => { g with fairctl := fairClamp (s.src s.iss.gk s.low a) })
  | _ => s

/-- The effect of an SWRITE word. -/
def State.swriteBody (a n : Opc) (s : State) : State :=
  if (s.special s.iss.gk s.low n.toNat).isNone then s.raiseAll (.of fcILLEGAL_OPERAND) else (s.writeSpecial a n).advAll

theorem exec_swrite (c : Bool) (a n : Opc) (s : State) : exec (.swrite c a n) s = .next (s.laneWord (.swrite c a n) (State.swriteBody a n)) :=
  rfl

/-- The issuing group with FAIRCTL written, where the special is FAIRCTL. -/
def fairWritten (s : State) (a n : Opc) (g : Group) : Group :=
  if n = 32 then { g with fairctl := BitVec.ofNat 32 (max 256 (min 65536 (s.src s.iss.gk s.low a).toNat)) } else g

/-- What SWRITE writes: each executing lane's own record, or the group's FAIRCTL, or nothing. -/
structure SpecialWritten (s x : State) (a n : Opc) : Prop where
  frame : x = { s with g := { s.g with lanes := x.g.lanes, groups := x.g.groups } }
  lanes : LanesBecome s x (fun l => specialWritten n.toNat (s.src s.iss.gk l a))
  group : GroupBecomes s x (fairWritten s a n (s.group s.iss.gk))

/-- A write of a special of each lane. -/
theorem specialWritten_each {s : State} {a n : Opc} {f : Word → Lane → Lane} (hls : s.iss.lanes.Pairwise (· < ·)) (hn : n ≠ 32)
    (hf : ∀ v, f v = specialWritten n.toNat v) :
    SpecialWritten s (s.each (fun x l => x.modLane (lkOf s.iss.gk l) (f (s.src s.iss.gk l a)))) a n := by
  obtain ⟨hframe, hin, hout⟩ := (laneStep_modLane s s.iss.gk fun l => f (s.src s.iss.gk l a)).each hls
  refine ⟨by rw [hframe], ⟨fun l hl => (hin l hl).trans (congrFun (hf _) _), hout⟩, ?_⟩
  rw [fairWritten, if_neg hn]
  exact groupBecomes_of_onlyLanes hframe

/-- A write that leaves the lanes alone. -/
theorem specialWritten_none {s x : State} {a n : Opc} (hframe : x = { s with g := { s.g with groups := x.g.groups } })
    (hn : n.toNat ≠ 0 ∧ n.toNat ≠ 2 ∧ n.toNat ≠ 3) (hg : GroupBecomes s x (fairWritten s a n (s.group s.iss.gk))) : SpecialWritten s x a n := by
  obtain ⟨h0, h2, h3⟩ := hn
  have hlane (k : Nat) : x.lane k = s.lane k := by rw [hframe]; rfl
  have hid (v : Word) (y : Lane) : specialWritten n.toNat v y = y := by
    rw [specialWritten, if_neg h0, if_neg h2, if_neg h3]
  exact ⟨by rw [hframe], ⟨fun l _ => (hlane _).trans (hid _ _).symm, fun k _ => hlane k⟩, hg⟩

theorem State.writeSpecial_written {s : State} (a n : Opc) (hls : s.iss.lanes.Pairwise (· < ·)) :
    SpecialWritten s (s.writeSpecial a n) a n := by
  have hne {m : Nat} (h : n.toNat = m) (hm : m ≠ 32) : n ≠ 32 := fun e => hm (by rw [← h, e]; rfl)
  unfold State.writeSpecial
  dsimp only
  split
  next h => exact specialWritten_each hls (hne h (by decide)) fun v => by rw [h]
  next h => exact specialWritten_each hls (hne h (by decide)) fun v => by rw [h]
  next h => exact specialWritten_each hls (hne h (by decide)) fun v => by rw [h]
  next h =>
    refine specialWritten_none rfl (by rw [h]; decide) fun k => ?_
    rw [fairWritten, if_pos (BitVec.eq_of_toNat_eq h), State.group_modGroup]
    by_cases hk : k = s.iss.gk
    · rw [if_pos hk, if_pos hk, hk]
      rfl
    · rw [if_neg hk, if_neg hk]
  next h0 h2 h3 h32 =>
    refine specialWritten_none rfl ⟨h0, h2, h3⟩ ?_
    rw [fairWritten, if_neg fun e => h32 (by rw [e]; rfl)]
    exact groupBecomes_of_groups fun _ => rfl

theorem specialWritten_atWord (n : Nat) (v : Word) (l : Lane) : (specialWritten n v l).atWord = l.atWord := by
  unfold specialWritten
  split
  · rfl
  · split
    · rfl
    · split <;> rfl

theorem specialWrite : Claims.SpecialWrite := by
  intro s c a n h
  have hls := h.2.1
  refine ⟨fun hlisted => ⟨_, exec_swrite c a n s, ?_⟩, fun hnone => faults_of_laneWord (exec_swrite c a n s) h (if_pos ?_)⟩
  · have hbody : State.swriteBody a n s = (s.writeSpecial a n).advAll := by
      refine if_neg ?_
      rw [special_eq, Option.isNone_iff_eq_none]
      exact Option.isSome_iff_ne_none.mp hlisted
    obtain ⟨hframe, hlanes, hgroup⟩ := State.writeSpecial_written (s := s) a n hls
    have hh : (s.writeSpecial a n).h = s.h := by rw [hframe]
    obtain ⟨hword, hgo, hgroup'⟩ := State.laneWord_goesOn h hbody (by rw [hh]; exact hframe) hlanes (fun l y => specialWritten_atWord _ _ y)
      (fun g q => by unfold fairWritten; split <;> rfl) (fun g => by unfold fairWritten; split <;> rfl) hgroup
    rw [hh] at hword
    exact ⟨hword, hgo, hgroup'⟩
  · rw [special_eq, hnone]
    rfl

end Sys2Proof.Machine

namespace Sys2Proof.Proofs

/-- Settles O13: each word changes its lanes one by one, or all alike; a breakpoint's trace touches only Owl's rings, and a fault of one
lane neither attaches nor detaches a debugger. -/
theorem systemWords : Obligations.SystemWords :=
  ⟨Machine.breakpointWord, Machine.eventWord, Machine.specialRead, Machine.specialWrite⟩

end Sys2Proof.Proofs
end

section
/-! Where an access stands, in a state whose lanes have gone on and whose lists of events have grown (O19, R139, R269). -/

namespace Sys2Proof.Machine

open Sys2Proof Sys2Proof.Claims

/-- A state with other lanes, another list of events and another next key. -/
def State.later (s : State) (lanes : Tbl Lane) (pend : Tbl (Option MemEv)) (next : Nat) : State :=
  { s with g := { s.g with lanes := lanes }, o := { s.o with pend := pend }, next := next }

/-- The A and D bits that a translation step sets in the entry it used (R304). -/
def XEntry.bitsFor (x : XEntry) (kind : AccKind) : Nat :=
  (if pA x.entry.toNat then 0 else 2 ^ 54) + (if kind != .read && !pD x.entry.toNat then 2 ^ 55 else 0)

/-- An entry of memory written where it changes. -/
def State.putEntry (s : State) (addr v : Nat) : State := if v == s.devRead addr 8 then s else s.devWrite addr 8 v

/-- The copies of an entry in the extent caches rewritten. -/
def State.putCopies (s : State) (x : XEntry) (e : DWord) : State :=
  { s with x := { s.x with cache := s.x.cache.map (fun y =>
    if y.ctx == x.ctx && y.obj == x.obj && y.page == x.page && y.addr == x.addr then { y with entry := e } else y) } }

theorem State.setAD_eq (s : State) (x : XEntry) (kind : AccKind) : s.setAD x kind =
    if x.bitsFor kind = 0 then some s
    else if pCore (s.devRead x.addr 8) != pCore x.entry.toNat then none
    else some ((s.putEntry x.addr (s.devRead x.addr 8 ||| x.bitsFor kind)).putCopies x (BitVec.ofNat 64 (x.entry.toNat ||| x.bitsFor kind))) :=
  rfl

section

variable (s : State) (L : Tbl Lane) (P : Tbl (Option MemEv)) (N : Nat)

theorem State.walk_later (core ctx obj off : Nat) (kind : AccKind) :
    (s.later L P N).walk core ctx obj off kind = s.walk core ctx obj off kind := rfl

theorem State.setAD_later (x : XEntry) (kind : AccKind) : (s.later L P N).setAD x kind = (s.setAD x kind).map (·.later L P N) := by
  have hread : (s.later L P N).devRead x.addr 8 = s.devRead x.addr 8 := rfl
  have hput (v : Nat) : (s.later L P N).putEntry x.addr v = (s.putEntry x.addr v).later L P N := by
    unfold State.putEntry
    rw [hread]
    split <;> rfl
  rw [State.setAD_eq, State.setAD_eq, hread, hput]
  split
  · rfl
  · split <;> rfl

theorem State.walkFill_later (core ctx obj off : Nat) (kind : AccKind) : (s.later L P N).walkFill core ctx obj off kind =
    ((s.walkFill core ctx obj off kind).1, (s.walkFill core ctx obj off kind).2.later L P N) := by
  unfold State.walkFill
  rw [State.walk_later]
  cases s.walk core ctx obj off kind with
  | error r => rfl
  | ok x =>
    dsimp only
    split
    · rfl
    · have hfill : (s.later L P N).fillEntry core x = (s.fillEntry core x).later L P N := rfl
      rw [hfill, State.setAD_later]
      cases (s.fillEntry core x).setAD x kind <;> rfl

theorem State.translate_later (core ctx obj off : Nat) (kind : AccKind) : (s.later L P N).translate core ctx obj off kind =
    ((s.translate core ctx obj off kind).1, (s.translate core ctx obj off kind).2.later L P N) := by
  have hcached : (s.later L P N).cached core ctx obj (off / 65536) = s.cached core ctx obj (off / 65536) := rfl
  have hdrop (x : XEntry) : (s.later L P N).dropEntry x = (s.dropEntry x).later L P N := rfl
  unfold State.translate
  rw [hcached]
  cases s.cached core ctx obj (off / 65536) with
  | none => exact State.walkFill_later s L P N _ _ _ _ _
  | some x =>
    dsimp only
    split
    · rfl
    · split
      · rw [hdrop]
        exact State.walkFill_later _ L P N _ _ _ _ _
      · rw [State.setAD_later]
        cases s.setAD x kind with
        | some y => rfl
        | none =>
          rw [hdrop]
          exact State.walkFill_later _ L P N _ _ _ _ _

theorem State.refuses_later (dev a : Nat) :
    (s.later L P N).refuses dev a = ((s.refuses dev a).1, (s.refuses dev a).2.later L P N) := by
  have hdev : (s.later L P N).h.devnum = s.h.devnum := rfl
  unfold State.refuses
  rw [hdev]
  split <;> rfl

theorem State.gwin_later (tk : Nat) (c : Cap) (off size : Nat) : (s.later L P N).gwin tk c off size = s.gwin tk c off size := rfl

/-- Whether the on-chip map holds bytes does not depend on the lanes or their events. -/
theorem State.ocmRead_later (a size : Nat) : ((s.later L P N).ocmRead a size).isSome = (s.ocmRead a size).isSome := by
  have hrole : (s.later L P N).bankrole = s.bankrole := rfl
  unfold State.ocmRead
  rw [hrole]
  dsimp only
  split
  · split
    · split <;> rfl
    · split <;> rfl
    · split <;> rfl
    · split <;> rfl
    · rfl
  · split
    · split <;> rfl
    · split
      · unfold State.fabRead
        split
        · dsimp only
          split <;> rfl
        · split
          · rfl
          · split <;> rfl
      · rfl
    · rfl

theorem State.resolve_later (tk core : Nat) (c : Cap) (off size : Nat) (kind : AccKind) (caps red : Bool) :
    (s.later L P N).resolve tk core c off size kind caps red =
      ((s.resolve tk core c off size kind caps red).1, (s.resolve tk core c off size kind caps red).2.later L P N) := by
  have hteam : (s.later L P N).team tk = s.team tk := rfl
  have hreaches (x : State) (u : Nat) : (x.later L P N).reaches u = x.reaches u := rfl
  unfold State.resolve
  rw [hteam]
  dsimp only
  split
  · split <;> rfl
  · rw [State.gwin_later]
  · rfl
  · split <;> rfl
  · rw [State.ocmRead_later]
    split <;> rfl
  · rw [State.translate_later]
    generalize s.translate core (s.team tk).kern.ctx (Cap.obj c) (Cap.base c + off) kind = p
    obtain ⟨r, x⟩ := p
    cases r with
    | wait w => rfl
    | fail e => rfl
    | ok l ot unit =>
      dsimp only
      split
      · rfl
      · cases l
        case peer d a =>
          dsimp only
          rw [hreaches, State.refuses_later]
          split
          · rfl
          · split
            · rfl
            · split
              · rfl
              · dsimp only
                split <;> rfl
        all_goals rfl

end

end Sys2Proof.Machine
end

section
/-! CALL, CALLX and RET (O19, R117, R118). -/

namespace Sys2Proof.Machine

open Sys2Proof Sys2Proof.Claims

/-! ### The checks of an access (R139) -/

theorem hasRights_of {c : Cap} {need : BitVec 8} (h : Cap.rights c &&& need = need) : hasRights c need.toNat = true := by
  rw [hasRights, ← BitVec.toNat_and, h]
  exact beq_self_eq_true _

theorem capSteps13_of {s : State} {ctx : Nat} {c : Cap} {allow : List Nat} {need : BitVec 8} (hok : capOk c = true)
    (hnull : Cap.type c ≠ 0) (htype : Cap.type c ∈ allow) (hocm : Cap.type c = 6 → s.ctxPriv ctx = true)
    (hrights : Cap.rights c &&& need = need) : s.capSteps13 ctx c allow need.toNat = none := by
  have hpriv : (Cap.type c == tOCM && !s.ctxPriv ctx) = false := by
    by_cases ht : Cap.type c = 6
    · simp [hocm ht]
    · simp [tOCM, ht]
  rw [State.capSteps13, hok, if_neg (by decide), if_neg (by simpa using hnull), if_neg (by simpa using htype), hpriv,
    if_neg (by decide), hasRights_of hrights, if_neg (by decide)]

theorem capCheckAll_of_permitted {s : State} {c : Cap} {allow : List Nat} {need : BitVec 8} {off z : Nat}
    (h : Permitted s c allow need off z) : s.capCheckAll (s.kern s.iss.gk).ctx c allow need.toNat off z = none := by
  obtain ⟨hok, hnull, htype, hocm, hrights, hlen, hbase, halign⟩ := h
  have hbounds : capBounds c off z = true := by
    rw [capBounds, Bool.and_eq_true, decide_eq_true_eq, decide_eq_true_eq]
    exact ⟨hlen, hbase⟩
  rw [State.capCheckAll, capSteps13_of hok hnull htype hocm hrights]
  dsimp only
  rw [hbounds, if_neg (by decide), halign, if_neg (by decide)]

/-! ### One access posted -/

theorem detAct_of_not_det {s : State} {gk : Nat} (h : (s.kern gk).det = false) (l : Loc) (kind : EvKind) : s.detAct gk l kind = .normal := by
  have hdet : (s.teamOf gk).kern.det = false := h
  cases l
  case dev =>
    rw [State.detAct]
    dsimp only
    rw [hdet]
    rfl
  all_goals rfl

theorem detMark_of_not_det {s : State} {gk : Nat} (h : (s.kern gk).det = false) (l : Loc) (b : Bool) : s.detMark gk l b = s := by
  cases l
  case dev =>
    rw [State.detMark, h]
    rfl
  all_goals rfl

/-- The event of a lane's access. -/
def State.accessEvent (s : State) (sp : MemSpec) (lane off : Nat) (kind : EvKind) (val : BitVec 128) (dst : Dst) (loc : Loc) : MemEv :=
  { agent := lkOf s.iss.gk lane, gk := s.iss.gk, lane := lane, kind := kind, loc := loc, size := sp.z, val := val, dst := dst
    acq := sp.acq, rel := sp.rel, sync := sp.sync, nol1 := sp.nol1, pkt := s.iss.pkt, slot := s.iss.slot
    cap := s.heldCap s.iss.gk lane sp.cap, off := off, issue := sp.issue, also := [] }

/-- An access that passes its checks and stands at a location is posted, outside a deterministic launch, by a word that opens no
window; and its lane goes on. -/
theorem State.access_posts {s : State} {i : Instr} {sp : MemSpec} {lane off : Nat} {kind : EvKind} {loc : Loc} (val : BitVec 128)
    (dst : Dst) (hcheck : s.capCheckAll (s.kern s.iss.gk).ctx (s.heldCap s.iss.gk lane sp.cap) sp.allow sp.need off sp.z = none)
    (hloc : s.resolve (s.group s.iss.gk).tk (s.group s.iss.gk).core (s.heldCap s.iss.gk lane sp.cap) off sp.z sp.acc sp.caps false =
      (.ok loc, s))
    (hhost : hostUnsupported loc kind = false) (hdet : (s.kern s.iss.gk).det = false) (hlook : lookOf i = none) :
    s.access i sp lane off kind val dst = (true, ((s.post (s.accessEvent sp lane off kind val dst loc)).2).afterAccess
      (s.accessEvent sp lane off kind val dst loc)) := by
  have hopen (x : State) (m ev : Nat) : x.openWindow i m ev = x := if_pos (by rw [hlook]; rfl)
  rw [State.access]
  dsimp only
  rw [hcheck]
  dsimp only
  rw [hloc]
  dsimp only
  rw [hhost, if_neg Bool.false_ne_true, State.postAccess]
  dsimp only
  rw [detAct_of_not_det hdet]
  dsimp only
  rw [detMark_of_not_det hdet]
  simp only [hopen]
  rfl

/-! ### Lists of events -/

theorem acqPending_eq_false (s : State) (a : Nat) :
    s.acqPending a = false ↔ ∀ k e, (k, some e) ∈ s.o.pend → e.agent = a → e.acq = none ∧ e.isFence = false := by
  rw [State.acqPending, State.pendOf, List.any_eq_false]
  constructor
  · intro h k e hmem ha
    have := h (k, e) (List.mem_filterMap.mpr ⟨(k, some e), hmem, by simp [ha]⟩)
    simpa using this
  · rintro h ⟨k, e⟩ hmem
    obtain ⟨⟨k', v⟩, hv, hk⟩ := List.mem_filterMap.mp hmem
    cases v with
    | none => simp at hk
    | some e' =>
      by_cases ha : e'.agent = a
      · simp only [ha, beq_self_eq_true, if_true, Option.some.injEq, Prod.mk.injEq] at hk
        obtain ⟨rfl, rfl⟩ := hk
        obtain ⟨hacq, hfence⟩ := h _ _ hv ha
        simp [hacq, hfence]
      · simp [ha] at hk

/-- An access that acquires nothing keeps no lane waiting. -/
theorem acqPending_later {s : State} {L L' : Tbl Lane} {P : Tbl (Option MemEv)} {N N' k a : Nat} {e : MemEv}
    (h : (s.later L P N).acqPending a = false) (hacq : e.acq = none) (hfence : e.isFence = false) :
    (s.later L' (tset none P k (some e)) N').acqPending a = false := by
  rw [acqPending_eq_false] at h ⊢
  intro n x hx ha
  have hx' : (n, some x) ∈ tins k (some e) (tdel P k) := hx
  rcases (mem_tins _ _ _ _).mp hx' with heq | hmem
  · obtain rfl : x = e := Option.some.inj (congrArg Prod.snd heq)
    exact ⟨hacq, hfence⟩
  · exact h n x (List.mem_filter.mp hmem).1 ha

/-- A lane's turn in a word that posts one access for each lane. -/
def PostsOne (s : State) (f : State → Nat → State) (ev : Nat → MemEv) (F : Nat → Lane → Lane) : Prop :=
  ∀ L P N, ∀ l ∈ s.iss.lanes, (s.later L P N).lane (lkOf s.iss.gk l) = s.lane (lkOf s.iss.gk l) →
    (s.later L P N).acqPending (lkOf s.iss.gk l) = false →
    ∃ L', f (s.later L P N) l = s.later L' (tset none P N (some (ev l))) (N + 1) ∧
      ∀ k, tget {} L' k = if k = lkOf s.iss.gk l then F l (tget {} L k) else tget {} L k

theorem PostsOne.foldl {s : State} {f : State → Nat → State} {ev : Nat → MemEv} {F : Nat → Lane → Lane} (hf : PostsOne s f ev F)
    (hev : ∀ l, (ev l).acq = none ∧ (ev l).isFence = false) (ls : List Nat) (hls : ls.Nodup) (hsub : ∀ l ∈ ls, l ∈ s.iss.lanes)
    (L : Tbl Lane) (P : Tbl (Option MemEv)) (N : Nat)
    (hlane : ∀ l ∈ ls, (s.later L P N).lane (lkOf s.iss.gk l) = s.lane (lkOf s.iss.gk l))
    (hacq : ∀ l ∈ ls, (s.later L P N).acqPending (lkOf s.iss.gk l) = false) :
    ∃ L' P', ls.foldl f (s.later L P N) = s.later L' P' (N + ls.length) ∧
      (∀ l ∈ ls, tget {} L' (lkOf s.iss.gk l) = F l (s.lane (lkOf s.iss.gk l))) ∧
      (∀ k, (∀ l ∈ ls, k ≠ lkOf s.iss.gk l) → tget {} L' k = tget {} L k) ∧
      (∀ j l, ls[j]? = some l → tget none P' (N + j) = some (ev l)) ∧
      ∀ k, k < N ∨ N + ls.length ≤ k → tget none P' k = tget none P k := by
  induction ls generalizing L P N with
  | nil => exact ⟨L, P, rfl, nofun, fun _ _ => rfl, nofun, fun _ _ => rfl⟩
  | cons m ms ih =>
    obtain ⟨hm, hms⟩ := List.nodup_cons.mp hls
    obtain ⟨hacq', hfence⟩ := hev m
    obtain ⟨L₁, hstep, hget⟩ := hf L P N m (hsub m List.mem_cons_self) (hlane m List.mem_cons_self) (hacq m List.mem_cons_self)
    have hne : ∀ l ∈ ms, lkOf s.iss.gk l ≠ lkOf s.iss.gk m := fun l hl e => hm (by rwa [← (lkOf_inj _ _ _).mp e])
    obtain ⟨L', P', hfold, hin, hout, hposted, holder⟩ := ih hms (fun l hl => hsub l (List.mem_cons_of_mem _ hl))
      L₁ (tset none P N (some (ev m))) (N + 1)
      (fun l hl => (hget _).trans ((if_neg (hne l hl)).trans (hlane l (List.mem_cons_of_mem _ hl))))
      (fun l hl => acqPending_later (hacq l (List.mem_cons_of_mem _ hl)) hacq' hfence)
    refine ⟨L', P', ?_, fun l hl => ?_, fun k hk => ?_, fun j l hj => ?_, fun k hk => ?_⟩
    · rw [List.foldl_cons, hstep, hfold, List.length_cons, Nat.add_right_comm, Nat.add_assoc]
    · rcases List.mem_cons.mp hl with rfl | hl
      · rw [hout _ fun l' hl' e => hne l' hl' e.symm, hget, if_pos rfl]
        exact congrArg _ (hlane l List.mem_cons_self)
      · exact hin l hl
    · rw [hout k fun l hl => hk l (List.mem_cons_of_mem _ hl), hget, if_neg (hk m List.mem_cons_self)]
    · cases j with
      | zero =>
        obtain rfl : m = l := by simpa using hj
        rw [Nat.add_zero, holder N (.inl (Nat.lt_succ_self N)), tget_tset_same]
      | succ j =>
        have := hposted j l (by simpa using hj)
        rwa [show N + (j + 1) = N + 1 + j by omega]
    · rw [List.length_cons] at hk
      rw [holder k (by omega), tget_tset_ne _ _ _ _ _ (by omega)]

/-- A word that posts one access for each lane: what it leaves. -/
theorem PostsOne.each {s : State} {i : Instr} {f : State → Nat → State} {kind : EvKind} {val : BitVec 128} {dst : Dst} {at_ : Nat → Nat}
    {loc : Nat → Loc} {F : Nat → Lane → Lane} (hf : PostsOne s f (fun l => stackEvent s l (at_ l) kind val dst (loc l)) F)
    (hkind : (stackEvent s 0 0 kind val dst (loc 0)).isFence = false) (h : Plain s i) (hq : popsQ1 i = false) :
    StackPosted s (s.each f) i kind val dst at_ loc ∧ LanesBecome s (s.each f) F := by
  obtain ⟨⟨-, hls, -⟩, hacq, -⟩ := h
  obtain ⟨L, P, hfold, hin, hout, hposted, holder⟩ := hf.foldl (fun _ => ⟨rfl, hkind⟩) s.iss.lanes (lanes_nodup hls) (fun _ hl => hl)
    s.g.lanes s.o.pend s.next (fun _ _ => rfl) hacq
  have heach : s.each f = s.later L P (s.next + s.iss.lanes.length) := hfold
  rw [heach]
  refine ⟨⟨rfl, ?_, hposted, holder⟩, hin, hout⟩
  rw [Popped, if_neg (by rw [hq]; exact Bool.false_ne_true)]
  exact groupBecomes_of_groups fun _ => rfl

/-! ### Words whose lanes all take one fault -/

theorem LaneKept.lanesp {a b : Lane} (h : LaneKept a b) : b.lanesp = a.lanesp := by rw [h.same]
theorem LaneKept.held {a b : Lane} (h : LaneKept a b) : b.held = a.held := by rw [h.same]

/-- Each lane in turn raises the same fault, whatever the faults of the lanes before it have left. -/
theorem each_eq_raiseAll {s : State} {f : State → Nat → State} {e : FaultInfo} (hls : s.iss.lanes.Pairwise (· < ·))
    (hf : ∀ x own, ∀ l ∈ s.iss.lanes, FaultLeft own s x → ¬ own (lkOf s.iss.gk l) → f x l = x.raise (lkOf s.iss.gk l) s.here e) :
    s.each f = s.raiseAll e := by
  have gen (ls : List Nat) (hnodup : ls.Nodup) (hsub : ∀ l ∈ ls, l ∈ s.iss.lanes) (own : Nat → Prop) (x : State) (hx : FaultLeft own s x)
      (hown : ∀ l ∈ ls, ¬ own (lkOf s.iss.gk l)) : ls.foldl f x = ls.foldl (fun x l => x.raise (lkOf s.iss.gk l) s.here e) x := by
    induction ls generalizing own x with
    | nil => rfl
    | cons m ms ih =>
      obtain ⟨hm, hms⟩ := List.nodup_cons.mp hnodup
      rw [List.foldl_cons, List.foldl_cons, hf x own m (hsub m List.mem_cons_self) hx (hown m List.mem_cons_self)]
      refine ih hms (fun l hl => hsub l (List.mem_cons_of_mem _ hl)) (fun k => own k ∨ k = lkOf s.iss.gk m) _
        ((hx.mono fun _ => .inl).trans ((x.raise_left _ _ _).1.mono fun _ => .inr)) fun l hl hor => ?_
      rcases hor with hor | hor
      · exact hown l (List.mem_cons_of_mem _ hl) hor
      · exact hm (by rwa [← (lkOf_inj _ _ _).mp hor])
  exact gen s.iss.lanes (lanes_nodup hls) (fun _ h => h) (fun _ => False) s (.refl _ s) fun _ _ => id

/-! ### The stack (R118) -/

section

variable {own : Nat → Prop} {s x : State} (h : FaultLeft own s x) {l : Nat} (hl : ¬ own (lkOf s.iss.gk l))
include h hl

theorem FaultLeft.fill : fill x l = fill s l := by
  rw [Claims.fill, Claims.fill, h.iss, (h.lanes _ hl).lanesp]

theorem FaultLeft.stackBytes : stackBytes x l = stackBytes s l := by
  have hcap : stackCap x l = stackCap s l := by
    rw [stackCap, stackCap, h.iss, State.heldCap, State.heldCap, (h.lanes _ hl).held, h.creg]
  rw [Claims.stackBytes, Claims.stackBytes, hcap, h.iss, h.width]

end

theorem FaultLeft.acqPending {own : Nat → Prop} {s x : State} (h : FaultLeft own s x) (a : Nat) : x.acqPending a = s.acqPending a := by
  rw [h.frame]
  rfl

/-- A lane's access of its stack, in a state that its word's other lanes have left. -/
theorem State.stackAccess_posts {s : State} {i : Instr} {L : Tbl Lane} {P : Tbl (Option MemEv)} {N l n : Nat} {store : Bool} {kind : EvKind}
    {loc : Loc} (val : BitVec 128) (dst : Dst) (hlane : (s.later L P N).lane (lkOf s.iss.gk l) = s.lane (lkOf s.iss.gk l))
    (hat : StackAt s l n (if store then .write else .read) (BitVec.ofNat 8 (if store then rW else rR)) loc)
    (hhost : hostUnsupported loc kind = false) (hdet : (s.kern s.iss.gk).det = false) (hlook : lookOf i = none) :
    (s.later L P N).access i (stackSpec s.next store) l (stackOff s l n) kind val dst =
      (true, (s.later L (tset none P N (some (stackEvent s l n kind val dst loc))) (N + 1)).afterAccess (stackEvent s l n kind val dst loc)) := by
  obtain ⟨hperm, hres⟩ := hat
  have hcap : (s.later L P N).heldCap s.iss.gk l 3 = stackCap s l := by
    rw [stackCap, State.heldCap, State.heldCap, hlane]
    rfl
  have hneed : (BitVec.ofNat 8 (if store then rW else rR)).toNat = (stackSpec s.next store).need := by cases store <;> rfl
  have hcheck := capCheckAll_of_permitted hperm
  rw [hneed] at hcheck
  have hevent : (s.later L P N).accessEvent (stackSpec s.next store) l (stackOff s l n) kind val dst loc = stackEvent s l n kind val dst loc := by
    have hcap' : (s.later L P N).heldCap (s.later L P N).iss.gk l 3 = stackCap s l := hcap
    rw [State.accessEvent, stackEvent]
    simp only [stackSpec, hcap']
    rfl
  have hloc : (s.later L P N).resolve (s.group s.iss.gk).tk (s.group s.iss.gk).core (stackCap s l) (stackOff s l n) 4
      (if store then .write else .read) false false = (.ok loc, s.later L P N) := by
    rw [State.resolve_later, hres]
  have h := State.access_posts (s := s.later L P N) (i := i) (sp := stackSpec s.next store) (lane := l) (off := stackOff s l n) (kind := kind)
    (loc := loc) val dst ((congrArg (fun c => State.capCheckAll _ _ c _ _ _ _) hcap).trans hcheck)
    ((congrArg (fun c => State.resolve _ _ _ c _ _ _ _ _) hcap).trans hloc) hhost hdet hlook
  rw [hevent] at h
  exact h

/-- Where the lane goes, and the fill that it leaves. -/
def Lane.called (target : Nat) (y : Lane) : Lane := { toPacket target y with lanesp := y.lanesp + 4, resume := y.advance.resume }

theorem Lane.called_eq (target : Nat) (y : Lane) :
    ({ (y.advance.take { pkt := target, slot := 0 }) with lanesp := (y.advance.take { pkt := target, slot := 0 }).lanesp + 4 } : Lane) =
      y.called target := by
  unfold Lane.advance Lane.called Lane.advance
  cases y.resume <;> rfl

theorem exec_call (c : Bool) (x : BitVec 15) (s : State) :
    exec (.call c x) s = .next (s.callWord (.call c x) (fun _ => fbTarget s.iss.pkt x)) := rfl
theorem exec_callx (c : Bool) (a : Opc) (s : State) :
    exec (.callx c a) s = .next (s.callWord (.callx c a) (fun l => regTarget (s.src s.iss.gk l a))) := rfl
theorem exec_ret (c : Bool) (s : State) : exec (.ret c) s = .next (s.laneWord (.ret c) (fun s =>
    s.each (fun y l => y.retLane (.ret c) s.next l))) := rfl

theorem State.callWord_eq {s : State} {i : Instr} (target : Nat → Nat) (h : Issues s i) (hq : popsQ1 i = false) :
    s.callWord i target = s.each (fun x l => x.callLane i s.next l (target l)) :=
  State.laneWord_of_not_popsQ1 (fun s => s.each (fun x l => x.callLane i s.next l (target l))) h hq

/-- A call with room in the lane's stack is an access, then a transfer. -/
theorem State.callLane_of_room {x : State} {i : Instr} {issue l target : Nat} (hacq : x.acqPending (lkOf x.iss.gk l) = false)
    (hroom : fill x l + 4 ≤ stackBytes x l) : x.callLane i issue l target =
      let r := x.access i (stackSpec issue true) l (stackOff x l (fill x l)) .store (BitVec.ofNat 128 (x.iss.pkt + 1)) .none
      if r.1 then (r.2.jump l target).modLane (lkOf x.iss.gk l) (fun l => { l with lanesp := l.lanesp + 4 }) else r.2 :=
  (if_neg (by rw [hacq]; exact Bool.false_ne_true)).trans (if_neg (Nat.not_lt.mpr hroom))

/-- A call without room is a fault. -/
theorem State.callLane_of_full {x : State} {i : Instr} {issue l target : Nat} (hacq : x.acqPending (lkOf x.iss.gk l) = false)
    (hfull : stackBytes x l < fill x l + 4) :
    x.callLane i issue l target = x.raise (lkOf x.iss.gk l) x.here { code := fcSTACK_FAULT, detail := 0 } :=
  (if_neg (by rw [hacq]; exact Bool.false_ne_true)).trans (if_pos hfull)

/-- A return with a packet in the lane's stack is an access. -/
theorem State.retLane_of_filled {x : State} {i : Instr} {issue l : Nat} (hacq : x.acqPending (lkOf x.iss.gk l) = false) (hfill : 4 ≤ fill x l) :
    x.retLane i issue l = (x.access i (stackSpec issue false) l (stackOff x l (fill x l - 4)) .load 0 .ret).2 := by
  rw [stackOff, ← Nat.add_sub_assoc hfill]
  exact (if_neg (by rw [hacq]; exact Bool.false_ne_true)).trans (if_neg (Nat.not_lt.mpr hfill))

/-- A return from an empty stack is a fault. -/
theorem State.retLane_of_empty {x : State} {i : Instr} {issue l : Nat} (hacq : x.acqPending (lkOf x.iss.gk l) = false) (hfill : fill x l < 4) :
    x.retLane i issue l = x.raise (lkOf x.iss.gk l) x.here { code := fcSTACK_FAULT, detail := 1 } :=
  (if_neg (by rw [hacq]; exact Bool.false_ne_true)).trans (if_pos hfill)

section

variable {s : State} {L : Tbl Lane} {P : Tbl (Option MemEv)} {N l : Nat}
  (hlane : (s.later L P N).lane (lkOf s.iss.gk l) = s.lane (lkOf s.iss.gk l))
include hlane

/-! The stack of a lane in a state that the other lanes of its word have left. -/

theorem fill_later : fill (s.later L P N) l = fill s l := congrArg (fun y : Lane => y.lanesp.toNat) hlane

theorem stackBytes_later : stackBytes (s.later L P N) l = stackBytes s l := by
  have hcap : stackCap (s.later L P N) l = stackCap s l := congrArg (fun y : Lane => match y.held with | [] => s.creg s.iss.gk 3 | cs => cs.getD 3 0) hlane
  rw [stackBytes, stackBytes, hcap]
  rfl

theorem stackOff_later (n : Nat) : stackOff (s.later L P N) l n = stackOff s l n := by
  rw [stackOff, stackOff, stackBytes_later hlane]

end

/-- A lane goes on and then to slot 0 of its target with a packet more in its stack. -/
def State.wentCalled (y : State) (lk target : Nat) : State :=
  ((y.advLane lk).gotoLane lk { pkt := target, slot := 0 }).modLane lk (fun l => { l with lanesp := l.lanesp + 4 })

theorem State.wentCalled_lane (y : State) (lk target k : Nat) :
    (y.wentCalled lk target).lane k = if k = lk then Lane.called target (y.lane k) else y.lane k := by
  rw [wentCalled, State.gotoLane, State.advLane]
  simp only [State.lane_modLane]
  split
  · exact Lane.called_eq _ _
  · rfl

theorem postsOne_call {s : State} {i : Instr} {loc : Nat → Loc} (target : Nat → Nat) (hlook : lookOf i = none) (h : Plain s i)
    (hat : ∀ l ∈ s.iss.lanes, fill s l + 4 ≤ stackBytes s l ∧ StackAt s l (fill s l) .write 2 (loc l)) :
    PostsOne s (fun x l => x.callLane i s.next l (target l))
      (fun l => stackEvent s l (fill s l) .store (BitVec.ofNat 128 (s.iss.pkt + 1)) .none (loc l)) (fun l => Lane.called (target l)) := by
  intro L P N l hl hlane hacq
  obtain ⟨-, -, hdet⟩ := h
  obtain ⟨hroom, hstack⟩ := hat l hl
  have hposts := State.stackAccess_posts (i := i) (store := true) (kind := .store) (BitVec.ofNat 128 (s.iss.pkt + 1)) .none hlane hstack
    (by cases loc l <;> rfl) hdet hlook
  have hcall := State.callLane_of_room (x := s.later L P N) (i := i) (issue := s.next) (target := target l) hacq
    (by rw [fill_later hlane, stackBytes_later hlane]; exact hroom)
  rw [fill_later hlane, stackOff_later hlane] at hcall
  have hafter (r : Bool × State) (y : State) (hr : r = (true, y.advLane (lkOf s.iss.gk l))) (hy : y.iss = s.iss) :
      (if r.1 then (r.2.jump l (target l)).modLane (lkOf s.iss.gk l) (fun l => { l with lanesp := l.lanesp + 4 }) else r.2) =
        y.wentCalled (lkOf s.iss.gk l) (target l) := by
    rw [hr, if_pos rfl, State.jump, State.wentCalled, State.advLane, State.modLane_iss, hy]
  exact ⟨_, hcall.trans (hafter _ _ hposts rfl), fun k => State.wentCalled_lane _ _ _ k⟩

theorem postsOne_ret {s : State} {i : Instr} {loc : Nat → Loc} (hlook : lookOf i = none) (h : Plain s i)
    (hat : ∀ l ∈ s.iss.lanes, 4 ≤ fill s l ∧ StackAt s l (fill s l - 4) .read 1 (loc l)) :
    PostsOne s (fun x l => x.retLane i s.next l) (fun l => stackEvent s l (fill s l - 4) .load 0 .ret (loc l)) (fun _ => Waits .ret) := by
  intro L P N l hl hlane hacq
  obtain ⟨-, -, hdet⟩ := h
  obtain ⟨hfill, hstack⟩ := hat l hl
  have hposts := State.stackAccess_posts (i := i) (store := false) (kind := .load) 0 .ret hlane hstack (by cases loc l <;> rfl) hdet hlook
  have hret := State.retLane_of_filled (x := s.later L P N) (i := i) (issue := s.next) hacq (by rw [fill_later hlane]; exact hfill)
  rw [fill_later hlane, stackOff_later hlane] at hret
  exact ⟨_, hret.trans (congrArg Prod.snd hposts), fun k => State.lane_modLane _ _ (Lane.waitAt .ret) k⟩

theorem callWords {s : State} {i : Instr} {loc : Nat → Loc} (target : Nat → Nat) (he : exec i s = .next (s.callWord i target))
    (hlook : lookOf i = none) (hq : popsQ1 i = false) (h : Plain s i) :
    ((∀ l ∈ s.iss.lanes, fill s l + 4 ≤ stackBytes s l ∧ StackAt s l (fill s l) .write 2 (loc l)) →
      Goes s i (fun t => StackPosted s t i .store (BitVec.ofNat 128 (s.iss.pkt + 1)) .none (fill s) loc ∧
        LanesBecome s t (fun l => Lane.called (target l)))) ∧
    ((∀ l ∈ s.iss.lanes, stackBytes s l < fill s l + 4) → Faults s i { code := fcSTACK_FAULT, detail := 0 }) := by
  obtain ⟨hissues, hacq, -⟩ := id h
  have hword := State.callWord_eq target hissues hq
  refine ⟨fun hat => ⟨_, he, ?_⟩, fun hfull => faults_of_raiseAll he hq (hword.trans (each_eq_raiseAll hissues.2.1 ?_))⟩
  · rw [hword]
    exact (postsOne_call target hlook h hat).each rfl h hq
  · intro x own l hl hx hown
    have hcall := State.callLane_of_full (x := x) (i := i) (issue := s.next) (l := l) (target := target l)
    rw [hx.iss, hx.acqPending, hx.fill hown, hx.stackBytes hown, hx.here] at hcall
    exact hcall (hacq l hl) (hfull l hl)

theorem retWord {s : State} {c : Bool} {loc : Nat → Loc} (h : Plain s (.ret c)) :
    ((∀ l ∈ s.iss.lanes, 4 ≤ fill s l ∧ StackAt s l (fill s l - 4) .read 1 (loc l)) →
      Goes s (.ret c) (fun t => StackPosted s t (.ret c) .load 0 .ret (fun l => fill s l - 4) loc ∧ LanesBecome s t (fun _ => Waits .ret))) ∧
    ((∀ l ∈ s.iss.lanes, fill s l < 4) → Faults s (.ret c) { code := fcSTACK_FAULT, detail := 1 }) := by
  obtain ⟨hissues, hacq, -⟩ := id h
  have hword := fun body => State.laneWord_of_not_popsQ1 (i := .ret c) body hissues rfl
  refine ⟨fun hat => ⟨_, exec_ret c s, ?_⟩, fun hempty => faults_of_laneWord (exec_ret c s) hissues (each_eq_raiseAll hissues.2.1 ?_)⟩
  · rw [hword]
    exact (postsOne_ret rfl h hat).each rfl h rfl
  · intro x own l hl hx hown
    have hret := State.retLane_of_empty (x := x) (i := .ret c) (issue := s.next) (l := l)
    rw [hx.iss, hx.acqPending, hx.fill hown, hx.here] at hret
    exact hret (hacq l hl) (hempty l hl)

end Sys2Proof.Machine

namespace Sys2Proof.Proofs

open Sys2Proof.Machine

/-- Settles O19: each lane's access is posted as if it were the first, for what the lanes before it left changes neither its stack nor
where its bytes stand; and a lane's fault leaves the stacks of the other lanes. -/
theorem callsAndReturns : Obligations.CallsAndReturns := by
  intro s c a x loc
  refine ⟨fun p hp h => ?_, fun h => retWord h⟩
  simp only [List.mem_cons, List.not_mem_nil, or_false] at hp
  rcases hp with rfl | rfl
  · exact callWords _ (exec_call c x s) rfl rfl h
  · exact callWords _ (exec_callx c a s) rfl rfl h

end Sys2Proof.Proofs
end

section
/-! A team cut out of the tables and put back, and the bytes of its checkpoint in memory (O31, R136, R137). -/

namespace Sys2Proof.Machine

open Sys2Proof Sys2Proof.Claims

/-! ### Parts of tables -/

theorem holdsPart_tcut {α : Type} (z : α) (t : Tbl α) (lo hi : Nat) : HoldsPart z (tcut t lo hi) t lo hi := by
  intro k hk
  induction t with
  | nil => rfl
  | cons p t ih =>
    obtain ⟨n, v⟩ := p
    by_cases hn : lo ≤ n ∧ n < hi
    · have hcut : tcut ((n, v) :: t) lo hi = (n - lo, v) :: tcut t lo hi := by
        simp [tcut, tslice, hn]
      rw [hcut]
      by_cases hnk : n = lo + k
      · simp [tget, hnk]
      · rw [tget, if_neg (by omega), ih, tget, if_neg hnk]
    · have hcut : tcut ((n, v) :: t) lo hi = tcut t lo hi := by
        simp [tcut, tslice, hn]
      rw [hcut, ih, tget, if_neg (by omega)]

/-- A table read with keys that count from another start. -/
theorem tget_map_add {α : Type} (z : α) (t : Tbl α) (lo k : Nat) : tget z (t.map fun p => (lo + p.1, p.2)) (lo + k) = tget z t k := by
  induction t with
  | nil => rfl
  | cons p t ih => simp [tget, ih]

theorem keysRise_map_add {α : Type} (t : Tbl α) (lo : Nat) (h : keysRise t = true) : keysRise (t.map fun p => (lo + p.1, p.2)) = true := by
  induction t with
  | nil => rfl
  | cons p t ih =>
    obtain ⟨habove, hrise⟩ := (keysRise_cons _ _).mp h
    refine (keysRise_cons _ _).mpr ⟨fun q hq => ?_, ih hrise⟩
    obtain ⟨r, hr, rfl⟩ := List.mem_map.mp hq
    exact Nat.add_lt_add_left (habove r hr) lo

/-- A part put back with each key once is the part of the table that it is put in. -/
theorem holdsPart_tpaste {α : Type} [DecidableEq α] (z : α) (t : Tbl α) (lo hi : Nat) (xs : Tbl α) (h : keysRise xs = true) :
    HoldsPart z xs (tpaste z t lo hi xs) lo hi := by
  intro k hk
  have hfold : tpaste z t lo hi xs = (xs.map fun p => (lo + p.1, p.2)).foldl (fun t p => tset z t p.1 (id p.2)) (tclear t lo hi) := by
    rw [List.foldl_map]
    rfl
  rw [hfold, tget_foldl_tset z id rfl _ _ _ (keysRise_map_add xs lo h) ?_, tget_map_add]
  · rfl
  · rw [tget_tclear, if_pos ⟨Nat.le_add_right _ _, hk⟩]

/-- A checkpoint holds the team as it stood when it was taken. -/
theorem holds_snapshot (s : State) (tk : Nat) (bytes : List Byte) : Holds (s.snapshot tk bytes) s tk :=
  ⟨holdsPart_tcut _ _ _ _, holdsPart_tcut _ _ _ _, holdsPart_tcut _ _ _ _, holdsPart_tcut _ _ _ _, holdsPart_tcut _ _ _ _,
    holdsPart_tcut _ _ _ _, holdsPart_tcut _ _ _ _, holdsPart_tcut _ _ _ _⟩

/-- A state whose slots alone have changed. -/
def SlotsOnly (x y : State) : Prop := ∃ a, y = { x with t := { x.t with slots := a } }

theorem slotsOnly_trans {x y z : State} (h : SlotsOnly x y) (h' : SlotsOnly y z) : SlotsOnly x z := by
  obtain ⟨_, rfl⟩ := h
  obtain ⟨_, rfl⟩ := h'
  exact ⟨_, rfl⟩

theorem slotsOnly_foldl {α : Type} (f : State → α → State) (hf : ∀ x a, SlotsOnly x (f x a)) (x : State) (ls : List α) :
    SlotsOnly x (ls.foldl f x) := by
  induction ls generalizing x with
  | nil => exact ⟨_, rfl⟩
  | cons a ls ih =>
    rw [List.foldl_cons]
    exact slotsOnly_trans (hf x a) (ih (f x a))

theorem slotsOnly_renumberSlots (x : State) (tk : Nat) : SlotsOnly x (x.renumberSlots tk) := by
  unfold State.renumberSlots
  dsimp only
  exact slotsOnly_trans (slotsOnly_foldl _ (fun _ _ => ⟨_, rfl⟩) x _) (slotsOnly_foldl _ (fun _ _ => ⟨_, rfl⟩) _ _)

/-- A team put back is the team that the checkpoint holds, and no other team changes. -/
theorem holds_restore (s : State) (tk : Nat) (cp : Checkpoint) (h : Once cp) :
    Holds cp (s.restore tk cp) tk ∧ (s.restore tk cp).o = s.o ∧ (s.restore tk cp).e = s.e ∧ (s.restore tk cp).h = s.h ∧
      (s.restore tk cp).l = s.l ∧ ∀ k, k ≠ tk → (s.restore tk cp).team k = s.team k := by
  obtain ⟨hvreg, hsreg, hcreg, hjmask, hlanes, hscratch, htags, hbars⟩ := h
  unfold State.restore
  dsimp only
  obtain ⟨a, ha⟩ := slotsOnly_renumberSlots _ tk
  rw [ha]
  refine ⟨⟨holdsPart_tpaste _ _ _ _ _ hvreg, holdsPart_tpaste _ _ _ _ _ hsreg, holdsPart_tpaste _ _ _ _ _ hcreg,
    holdsPart_tpaste _ _ _ _ _ hjmask, holdsPart_tpaste _ _ _ _ _ hlanes, holdsPart_tpaste _ _ _ _ _ hscratch,
    holdsPart_tpaste _ _ _ _ _ htags, holdsPart_tpaste _ _ _ _ _ hbars⟩, rfl, rfl, rfl, rfl, fun k hk => ?_⟩
  show (s.setTeam tk _).team k = s.team k
  rw [State.team_setTeam, if_neg hk]

end Sys2Proof.Machine
end

section
/-! The bytes of a checkpoint in device memory (O31, R136, R137, R258, R313). -/

namespace Sys2Proof.Machine

open Sys2Proof Sys2Proof.Claims

/-! ### Writes of device memory -/

/-- Memory, with what stands in its copies and its order, has changed; and free values may have been drawn. -/
def MemoryOnly (x y : State) : Prop := ∃ o d f, y = { x with o := o, d := d, free := f }

theorem MemoryOnly.refl (x : State) : MemoryOnly x x := ⟨_, _, _, rfl⟩

theorem MemoryOnly.trans {x y z : State} (h : MemoryOnly x y) (h' : MemoryOnly y z) : MemoryOnly x z := by
  obtain ⟨_, _, _, rfl⟩ := h
  obtain ⟨_, _, _, rfl⟩ := h'
  exact ⟨_, _, _, rfl⟩

theorem memoryOnly_foldl {α : Type} {f : State → α → State} (x : State) (ls : List α) (hf : ∀ x, ∀ a ∈ ls, MemoryOnly x (f x a)) :
    MemoryOnly x (ls.foldl f x) := by
  induction ls generalizing x with
  | nil => exact .refl x
  | cons a ls ih =>
    rw [List.foldl_cons]
    exact (hf x a List.mem_cons_self).trans (ih (f x a) fun y b hb => hf y b (List.mem_cons_of_mem _ hb))

theorem memoryOnly_l1Stored (x : State) (a n v : Nat) (wb : Bool) : MemoryOnly x (x.l1Stored a n v wb) :=
  memoryOnly_foldl x _ fun _ _ _ => ⟨_, _, _, rfl⟩

theorem memoryOnly_l2Wrote (x : State) (die a : Nat) : MemoryOnly x (x.l2Wrote die a) := by
  unfold State.l2Wrote
  dsimp only
  split <;> exact ⟨_, _, _, rfl⟩

theorem memoryOnly_l1Clean (x : State) (core a : Nat) : MemoryOnly x (x.l1Clean core a) := by
  unfold State.l1Clean
  split
  · exact .refl x
  · dsimp only
    split
    · exact ⟨_, _, _, rfl⟩
    · split
      · refine .trans ⟨_, _, _, rfl⟩ (memoryOnly_foldl _ _ fun y i _ => ?_)
        split
        · exact ⟨_, _, _, rfl⟩
        · exact .refl y
      · exact ⟨_, _, _, rfl⟩

theorem memoryOnly_raiseFloor (x : State) (core : Nat) : MemoryOnly x (x.raiseFloor core) :=
  .trans (memoryOnly_foldl x _ fun y _ _ => memoryOnly_l1Clean y core _) ⟨_, _, _, rfl⟩

/-- A core's L1 holds no dirty copy. -/
def L1Clear (core : Nat) (x : State) : Prop := ∀ p ∈ x.o.l1, p.1 / 2 ^ 48 ≠ core

theorem mem_tset {α : Type} [DecidableEq α] {z : α} {t : Tbl α} {k : Nat} {v : α} {p : Nat × α} (h : p ∈ tset z t k v) :
    p = (k, v) ∨ p ∈ t := by
  unfold tset at h
  split at h
  · exact .inr (List.mem_filter.mp h).1
  · exact ((mem_tins _ _ _ _).mp h).imp_right fun h => (List.mem_filter.mp h).1

theorem l1Clear_setL1 {x : State} {core k a : Nat} (c : Option L1Copy) (h : L1Clear core x) (hk : k ≠ core) (ha : a / 64 < 2 ^ 48) :
    L1Clear core (x.setL1 k a c) := by
  intro q hq
  rcases (mem_tset hq : q = (l1Key k a, c) ∨ q ∈ x.o.l1) with rfl | hq
  · show l1Key k a / 2 ^ 48 ≠ core
    unfold l1Key
    omega
  · exact h q hq

/-- A store reaches only copies that stand already. -/
theorem l1Stored_keeps {x : State} {core a n v : Nat} {wb : Bool} (h : L1Clear core x) :
    L1Clear core (x.l1Stored a n v wb) ∧ (x.l1Stored a n v wb).o.mem = x.o.mem := by
  have hcopy : ∀ p ∈ x.l1Copies a, p.1 ≠ core ∧ a / 64 < 2 ^ 48 := by
    intro p hp
    obtain ⟨q, hq, hqp⟩ := List.mem_filterMap.mp hp
    split at hqp
    next hsec =>
      obtain ⟨c, -, rfl⟩ := Option.map_eq_some_iff.mp hqp
      have hmod := Nat.mod_lt q.1 (Nat.two_pow_pos 48)
      rw [beq_iff_eq.mp hsec] at hmod
      exact ⟨h q hq, hmod⟩
    next => cases hqp
  unfold State.l1Stored
  generalize x.l1Copies a = ps at hcopy
  induction ps generalizing x with
  | nil => exact ⟨h, rfl⟩
  | cons p ps ih =>
    obtain ⟨hp, ha⟩ := hcopy p List.mem_cons_self
    rw [List.foldl_cons]
    exact (ih (l1Clear_setL1 _ h hp ha) fun q hq => hcopy q (List.mem_cons_of_mem _ hq)).imp_right fun hmem => hmem.trans rfl

theorem devByte_eq (x : State) (y : Nat) : devByte x y = (tget memDefault x.o.mem y).toNat := by
  simp [devByte, State.devRead, readLE]

/-- One byte of a checkpoint stored. -/
def State.storeByte (core : Nat) (x : State) (p : Loc × Byte) : State := (x.writeNow core p.1 1 p.2.toNat).setRel p.1 1 []

theorem memoryOnly_storeByte {core : Nat} (x : State) {p : Loc × Byte} (hp : ∃ a pol, p.1 = .dev a pol false) :
    MemoryOnly x (State.storeByte core x p) := by
  obtain ⟨l, b⟩ := p
  obtain ⟨a, pol, rfl⟩ := hp
  exact ((memoryOnly_l1Stored x a 1 b.toNat (pol == .wb)).trans ⟨_, _, _, rfl⟩).trans ((memoryOnly_l2Wrote _ _ a).trans ⟨_, _, _, rfl⟩)

theorem l2Wrote_o (x : State) (die a : Nat) : (x.l2Wrote die a).o = x.o := by
  unfold State.l2Wrote
  dsimp only
  split <;> rfl

/-- A byte stored leaves every other byte, and gives a core's L1 no copy. -/
theorem storeByte_keeps {core c : Nat} {x : State} {p : Loc × Byte} {y : Nat} (hp : ∃ a pol, p.1 = .dev a pol false)
    (hy : ∀ pol, p.1 ≠ .dev y pol false) (h : L1Clear c x) :
    devByte (State.storeByte core x p) y = devByte x y ∧ L1Clear c (State.storeByte core x p) := by
  obtain ⟨l, b⟩ := p
  obtain ⟨a, pol, rfl⟩ := hp
  have hne : y ≠ a := fun e => hy pol (by rw [e])
  obtain ⟨hclear, hmem⟩ := l1Stored_keeps (a := a) (n := 1) (v := b.toNat) (wb := pol == .wb) h
  have ho : (State.storeByte core x (.dev a pol false, b)).o.mem =
        tset memDefault (x.l1Stored a 1 b.toNat (pol == .wb)).o.mem a (BitVec.ofNat 8 b.toNat) ∧
      (State.storeByte core x (.dev a pol false, b)).o.l1 = (x.l1Stored a 1 b.toNat (pol == .wb)).o.l1 := by
    constructor
    · show (State.l2Wrote _ _ _).o.mem = _
      rw [l2Wrote_o]
      rfl
    · show (State.l2Wrote _ _ _).o.l1 = _
      rw [l2Wrote_o]
      rfl
  obtain ⟨hm, hl⟩ := ho
  refine ⟨?_, fun q hq => hclear q (hl ▸ hq)⟩
  rw [devByte_eq, devByte_eq, hm, hmem, tget_tset_ne _ _ _ _ _ hne]

/-- The L1 of a core without copies is invalidated with no write. -/
theorem raiseFloor_devByte {core : Nat} {x : State} (h : L1Clear core x) (y : Nat) : devByte (x.raiseFloor core) y = devByte x y := by
  have hnone : x.o.l1.filter (fun p => l1Key core 0 ≤ p.1 && p.1 ≤ l1Key core (0 + 2 ^ 52 - 1)) = [] := by
    refine List.filter_eq_nil_iff.mpr fun p hp hin => h p hp ?_
    obtain ⟨hlo, hhi⟩ : core * 2 ^ 48 + 0 / 64 ≤ p.1 ∧ p.1 ≤ core * 2 ^ 48 + (0 + 2 ^ 52 - 1) / 64 := by
      rwa [Bool.and_eq_true, decide_eq_true_eq, decide_eq_true_eq] at hin
    omega
  rw [State.raiseFloor, State.l1CleanRange, hnone]
  rfl

/-! ### Loads of device memory -/

/-- A read that depends on memory and on the free values drawn, and changes these alone: what it reads and how many values it draws are
the same whatever the teams hold. -/
def ReadsMemory {β : Type} (s : State) (r : State → β × State) : Prop :=
  ∀ k, ∃ v k', ∀ T, r { s with t := T, free := k } = (v, { s with t := T, free := k' })

theorem readsMemory_devLoad (s : State) (a n : Nat) (wb : Bool) : ReadsMemory s fun x => x.devLoad a n wb := by
  intro k
  unfold State.devLoad
  cases wb with
  | true => exact ⟨s.devRead a n, k, fun T => rfl⟩
  | false =>
    have gen (ps : List (Nat × L1Copy)) (v k : Nat) : ∃ v' k', ∀ T, ps.foldl (fun (r : Nat × State) p =>
        if p.2.dirty &&& byteMask a n = 0 then (r.1, r.2)
        else (if r.2.draw.1.getLsbD 0 then sectorGet p.2.under a n else r.1, r.2.draw.2)) (v, { s with t := T, free := k }) =
          (v', { s with t := T, free := k' }) := by
      induction ps generalizing v k with
      | nil => exact ⟨v, k, fun T => rfl⟩
      | cons p ps ih =>
        by_cases hp : p.2.dirty &&& byteMask a n = 0
        · obtain ⟨v', k', h⟩ := ih v k
          exact ⟨v', k', fun T => by rw [List.foldl_cons, if_pos hp]; exact h T⟩
        · obtain ⟨v', k', h⟩ := ih (if (Config.freeValue k).getLsbD 0 then sectorGet p.2.under a n else v) (k + 1)
          exact ⟨v', k', fun T => by rw [List.foldl_cons, if_neg hp]; exact h T⟩
    exact gen (s.l1Copies a) (s.devRead a n) k

theorem readsMemory_readLocs (s : State) (core : Nat) (ls : List Loc) (h : ∀ l ∈ ls, ∃ a pol, l = .dev a pol false) :
    ReadsMemory s fun x => x.readLocs core ls := by
  induction ls with
  | nil => exact fun k => ⟨[], k, fun T => rfl⟩
  | cons l ls ih =>
    obtain ⟨a, pol, rfl⟩ := h l List.mem_cons_self
    intro k
    obtain ⟨v, k', hv⟩ := readsMemory_devLoad s a 1 (pol == .wb) k
    obtain ⟨vs, k'', hvs⟩ := ih (fun m hm => h m (List.mem_cons_of_mem _ hm)) k'
    refine ⟨BitVec.ofNat 8 v :: vs, k'', fun T => ?_⟩
    have hv' : State.readNow { s with t := T, free := k } core (.dev a pol false) 1 = (v, { s with t := T, free := k' }) := hv T
    have hvs' : State.readLocs { s with t := T, free := k' } core ls = (vs, { s with t := T, free := k'' }) := hvs T
    show State.readLocs { s with t := T, free := k } core (.dev a pol false :: ls) = _
    rw [State.readLocs, hv']
    dsimp only
    rw [hvs']

end Sys2Proof.Machine
end

section
/-! CTXSAVE and CTXLOAD (O31, R136, R137). -/

namespace Sys2Proof.Machine

open Sys2Proof Sys2Proof.Claims

/-! ### The steps before the bytes move -/

/-- A team stopped for the save of a group, or no longer. -/
def State.setSaving (s : State) (tk : Nat) (g : Option Nat) : State := s.modTeam tk (fun t => { t with saving := g })

/-- The state in which the bytes of a checkpoint are moved: the team is no longer stopped. -/
def State.moving (s : State) : State :=
  (s.setSaving (s.group s.iss.gk).tk (some s.iss.gk)).setSaving (s.group s.iss.gk).tk none

theorem State.team_setSaving (s : State) (tk : Nat) (g : Option Nat) (k : Nat) :
    (s.setSaving tk g).team k = if k = tk then { s.team k with saving := g } else s.team k :=
  State.team_modTeam _ _ _ _

theorem State.moving_team_same (s : State) :
    s.moving.team (s.group s.iss.gk).tk = { s.team (s.group s.iss.gk).tk with saving := none } := by
  rw [State.moving, State.team_setSaving, if_pos rfl, State.team_setSaving, if_pos rfl]

theorem State.moving_team_ne (s : State) {k : Nat} (hk : k ≠ (s.group s.iss.gk).tk) : s.moving.team k = s.team k := by
  rw [State.moving, State.team_setSaving, if_neg hk, State.team_setSaving, if_neg hk]

/-- A word of an ordinary group alone runs its body. -/
theorem State.noPair_eq {s : State} {i : Instr} (body : State → State) (hp : (s.group s.iss.gk).pair = false) :
    s.noPair i body = s.laneWord i body :=
  State.laneWord_congr i (by rw [hp, if_neg Bool.false_ne_true])

theorem capSteps13_of_covers {s : State} {c : Cap} {need : BitVec 8} {n : Nat} (h : Covers s c [1] need 0 n) :
    s.capSteps13 (s.kern s.iss.gk).ctx c [1] need.toNat = none := by
  obtain ⟨hok, hnull, htype, hocm, hrights, -, -⟩ := h
  exact capSteps13_of hok hnull htype hocm hrights

section

variable {s : State} {i : Instr} {d a : Opc} {need : BitVec 8} {kind : AccKind} {short : Word} {body : State → List Loc → State}

/-- A capability of memory that is too small for a checkpoint: a status, and nothing else. -/
theorem State.ctxWord_of_short (hp : (s.group s.iss.gk).pair = false) (hc : Covers s (s.heldCap s.iss.gk s.low a.toNat) [1] need 0 0)
    (hsaving : (s.teamOf s.iss.gk).saving = none)
    (hlen : Cap.len (s.heldCap s.iss.gk s.low a.toNat) < (s.kern s.iss.gk).saveSize) :
    s.ctxWord i d a.toNat need.toNat kind short body = s.compute i d (fun _ => .w short) := by
  rw [State.ctxWord, State.noPair_eq _ hp]
  refine State.laneWord_congr i ?_
  have hcap : s.capSteps13 (s.team (s.group s.iss.gk).tk).kern.ctx (s.heldCap s.iss.gk s.low a.toNat) [tMEM] need.toNat = none :=
    capSteps13_of_covers hc
  have hs : (s.team (s.group s.iss.gk).tk).saving = none := hsaving
  dsimp only
  rw [hcap, hs]
  exact if_pos hlen

/-- Where the bytes may move, the word is its body, run on the bytes' locations. -/
theorem State.ctxWord_of_mayMove {ls : List (Loc × Nat)} (h : Issues s i) (hq : popsQ1 i = false) (hm : MayMove s a need)
    (hat : AreaAt s a kind ls) : s.ctxWord i d a.toNat need.toNat kind short body = body s.moving (byteLocs ls) := by
  obtain ⟨hp, hc, hsaving, hstill, hphase⟩ := hm
  rw [State.ctxWord, State.noPair_eq _ hp, State.laneWord_of_not_popsQ1 _ h hq]
  have hcap : s.capSteps13 (s.team (s.group s.iss.gk).tk).kern.ctx (s.heldCap s.iss.gk s.low a.toNat) [tMEM] need.toNat = none :=
    capSteps13_of_covers hc
  have hlen : ¬ Cap.len (s.heldCap s.iss.gk s.low a.toNat) < (s.team (s.group s.iss.gk).tk).kern.saveSize :=
    Nat.not_lt.mpr ((Nat.zero_add _).symm.trans_le hc.2.2.2.2.2.1)
  have hother : ¬ ((s.team (s.group s.iss.gk).tk).saving.isSome && (s.team (s.group s.iss.gk).tk).saving != some s.iss.gk) = true := by
    rcases hsaving with hnone | hsome
    · rw [show (s.team (s.group s.iss.gk).tk).saving = none from hnone]
      exact Bool.false_ne_true
    · rw [show (s.team (s.group s.iss.gk).tk).saving = some s.iss.gk from hsome]
      simp
  have htoken : ¬ ((s.team (s.group s.iss.gk).tk).kern.det && s.iss.lanes.any fun l => (s.lane (lkOf s.iss.gk l)).token.isNone) = true := by
    rw [Bool.and_eq_true, List.any_eq_true]
    rintro ⟨hdet, l, hl, hnone⟩
    exact hphase hdet l hl (Option.isNone_iff_eq_none.mp hnone)
  have hstill' : ¬ (!(s.setSaving (s.group s.iss.gk).tk (some s.iss.gk)).still (s.group s.iss.gk).tk) = true := by
    rw [show (s.setSaving (s.group s.iss.gk).tk (some s.iss.gk)).still (s.group s.iss.gk).tk = true from hstill]
    exact Bool.false_ne_true
  have hext : (s.modTeam (s.group s.iss.gk).tk fun t => { t with saving := some s.iss.gk }).extLocs s.iss.gk
      (s.heldCap s.iss.gk s.low a.toNat) kind
      (cutPages (Cap.base (s.heldCap s.iss.gk s.low a.toNat)) (s.team (s.group s.iss.gk).tk).kern.saveSize) =
        (.ok ls, s.setSaving (s.group s.iss.gk).tk (some s.iss.gk)) := hat
  dsimp only
  rw [hcap]
  dsimp only
  rw [if_neg hlen, if_neg hother]
  refine (if_neg hstill').trans ((if_neg htoken).trans ?_)
  rw [hext]
  rfl

end

end Sys2Proof.Machine
end

section
/-! CTXSAVE and CTXLOAD once the bytes may move (O31, R136, R137). -/

namespace Sys2Proof.Machine

open Sys2Proof Sys2Proof.Claims

/-- The bytes of device memory stand in device memory. -/
theorem byteLocs_dev {ls : List (Loc × Nat)} (h : ∀ p ∈ ls, ∃ x pol, p.1 = .dev x pol false) :
    ∀ l ∈ byteLocs ls, ∃ x pol, l = .dev x pol false := by
  intro l hl
  obtain ⟨p, hp, hlp⟩ := List.mem_flatMap.mp hl
  obtain ⟨j, -, rfl⟩ := List.mem_map.mp hlp
  obtain ⟨x, pol, hx⟩ := h p hp
  exact ⟨x + j, pol, by rw [hx]; rfl⟩

/-- A destination is the same counted from any state with the same lanes in issue and the same registers. -/
theorem destHolds_since {s u t : State} {d : Opc} {res : Nat → LaneRes} (h : DestHolds u t d res) (hg : s.g = u.g) (hiss : s.iss = u.iss) :
    DestHolds s t d res where
  vHeld := by
    rw [hiss]
    exact h.vHeld
  vKept := by
    rw [hiss, hg]
    exact h.vKept
  sHeld := by
    rw [State.low, hiss]
    exact h.sHeld
  sKept := by
    unfold State.sreg
    rw [State.low, hiss, hg]
    exact h.sKept

/-! ### CTXLOAD (R137) -/

/-- The team put back from the bytes of an area, where they are a checkpoint of its own. -/
def State.loadCheckpoint (d : Opc) (s : State) (locs : List Loc) : State :=
  let gk := s.iss.gk
  let tk := (s.group gk).tk
  let t := s.team tk
  match locs.findSome? (fun l => s.hitsPoison l 1) with
  | some f => s.raiseAll f
  | none =>
    let (bytes, s) := s.readLocs (s.group gk).core locs
    match (s.l.checkpoints.filter (fun p => p.ln == t.ln && p.team == t.idx && p.bytes == bytes)).getLast? with
    | some p => s.restore tk p
    | none => s.deliver d (s.iss.lanes.map (fun l => (l, .w 3)))

theorem exec_ctxload (c : Bool) (d a : Opc) (s : State) :
    exec (.ctxload c d a) s = .next (s.ctxWord (.ctxload c d a) d a.toNat (1 : BitVec 8).toNat .read 3 (State.loadCheckpoint d)) := rfl

/-- A checkpoint of the team of a group, with these bytes. -/
def IsCheckpoint (s : State) (bytes : List Byte) (cp : Checkpoint) : Bool :=
  cp.ln == (s.teamOf s.iss.gk).ln && cp.team == (s.teamOf s.iss.gk).idx && cp.bytes == bytes

/-- The bytes are read, then looked up among the checkpoints of the launch and team. -/
theorem State.loadCheckpoint_moving {s : State} {d : Opc} {locs : List Loc} (hdev : ∀ l ∈ locs, ∃ x pol, l = .dev x pol false)
    (hclean : ∀ l ∈ locs, s.hitsPoison l 1 = none) : ∃ k, s.moving.loadCheckpoint d locs =
      match (s.l.checkpoints.filter (IsCheckpoint s (s.readLocs (s.group s.iss.gk).core locs).1)).getLast? with
      | some p => State.restore { s.moving with free := k } (s.group s.iss.gk).tk p
      | none => State.deliver { s.moving with free := k } d (s.iss.lanes.map (fun l => (l, .w 3))) := by
  obtain ⟨v, k, hv⟩ := readsMemory_readLocs s (s.group s.iss.gk).core locs hdev s.free
  have hs : s.readLocs (s.group s.iss.gk).core locs = (v, { s with free := k }) := hv s.t
  have hm : s.moving.readLocs (s.group s.iss.gk).core locs = (v, { s.moving with free := k }) := hv s.moving.t
  have hnone : locs.findSome? (fun l => s.moving.hitsPoison l 1) = none := List.findSome?_eq_none_iff.mpr hclean
  have hteam : s.moving.team (s.moving.group s.moving.iss.gk).tk = { s.teamOf s.iss.gk with saving := none } := s.moving_team_same
  have hm' : s.moving.readLocs (s.moving.group s.moving.iss.gk).core locs = (v, { s.moving with free := k }) := hm
  refine ⟨k, ?_⟩
  rw [State.loadCheckpoint, hnone, hs]
  dsimp only
  rw [hm', hteam]
  rfl

/-- CTXLOAD of bytes that may be read. -/
theorem ctxload_eq {s : State} {c : Bool} {d a : Opc} {ls : List (Loc × Nat)} (h : Issues s (.ctxload c d a)) (hm : MayMove s a 1)
    (hat : AreaAt s a .read ls) (hdev : ∀ p ∈ ls, ∃ x pol, p.1 = .dev x pol false)
    (hclean : ∀ l ∈ byteLocs ls, s.hitsPoison l 1 = none) :
    ∃ k, exec (.ctxload c d a) s = .next
      (match (s.l.checkpoints.filter (IsCheckpoint s (s.readLocs (s.group s.iss.gk).core (byteLocs ls)).1)).getLast? with
      | some p => State.restore { s.moving with free := k } (s.group s.iss.gk).tk p
      | none => State.deliver { s.moving with free := k } d (s.iss.lanes.map (fun l => (l, .w 3)))) := by
  obtain ⟨k, hk⟩ := State.loadCheckpoint_moving (d := d) (byteLocs_dev hdev) hclean
  exact ⟨k, by rw [exec_ctxload, State.ctxWord_of_mayMove h rfl hm hat, hk]⟩

/-- CTXLOAD of a checkpoint of this launch and team. -/
theorem ctxload_restores {s : State} {c : Bool} {d a : Opc} {ls : List (Loc × Nat)} {cp : Checkpoint} (h : Issues s (.ctxload c d a))
    (hm : MayMove s a 1) (hat : AreaAt s a .read ls) (hdev : ∀ p ∈ ls, ∃ x pol, p.1 = .dev x pol false)
    (hclean : ∀ l ∈ byteLocs ls, s.hitsPoison l 1 = none)
    (hcp : (s.l.checkpoints.filter (IsCheckpoint s (s.readLocs (s.group s.iss.gk).core (byteLocs ls)).1)).getLast? = some cp)
    (honce : Once cp) :
    Goes s (.ctxload c d a) (fun t => Holds cp t (s.group s.iss.gk).tk ∧ t.o = s.o ∧ t.e = s.e ∧ t.h = s.h ∧ t.l = s.l ∧
      ∀ k, k ≠ (s.group s.iss.gk).tk → t.team k = s.team k) := by
  obtain ⟨k, hexec⟩ := ctxload_eq h hm hat hdev hclean
  rw [hcp] at hexec
  obtain ⟨hholds, ho, he, hh, hl, hteam⟩ := holds_restore { s.moving with free := k } (s.group s.iss.gk).tk cp honce
  exact ⟨_, hexec, hholds, ho, he, hh, hl, fun j hj => (hteam j hj).trans (s.moving_team_ne hj)⟩

/-- CTXLOAD of bytes that are no checkpoint of this launch and team. -/
theorem ctxload_refuses {s : State} {c : Bool} {d a : Opc} {ls : List (Loc × Nat)} (h : Issues s (.ctxload c d a)) (hd : isQ d = false)
    (hm : MayMove s a 1) (hat : AreaAt s a .read ls) (hdev : ∀ p ∈ ls, ∃ x pol, p.1 = .dev x pol false)
    (hclean : ∀ l ∈ byteLocs ls, s.hitsPoison l 1 = none)
    (hcp : ∀ cp ∈ s.l.checkpoints, IsCheckpoint s (s.readLocs (s.group s.iss.gk).core (byteLocs ls)).1 cp = false) :
    Goes s (.ctxload c d a) (fun t => AllAdvance s t ∧ DestHolds s t d (fun _ => .w 3) ∧ t.o = s.o ∧ t.t.scratch = s.t.scratch) := by
  obtain ⟨k, hexec⟩ := ctxload_eq h hm hat hdev hclean
  have hnone : s.l.checkpoints.filter (IsCheckpoint s (s.readLocs (s.group s.iss.gk).core (byteLocs ls)).1) = [] :=
    List.filter_eq_nil_iff.mpr fun cp hin => by rw [hcp cp hin]; exact Bool.false_ne_true
  rw [hnone] at hexec
  obtain ⟨hdest, hgo, x, L, hx, ht⟩ := State.deliverWith_goesOn (s := { s.moving with free := k }) (after := id) (fun _ => 3) h.1 h.2.1 hd
    fun _ => ⟨rfl, rfl⟩
  have hdest' := destHolds_since (s := s) hdest rfl rfl
  refine ⟨_, hexec.trans (congrArg _ ht), ht ▸ hgo, ht ▸ hdest', ?_⟩
  rw [hx]
  exact ⟨rfl, rfl⟩

end Sys2Proof.Machine
end

section
/-! CTXSAVE once the bytes may move (O31, R136). -/

namespace Sys2Proof.Machine

open Sys2Proof Sys2Proof.Claims

/-- The team as its checkpoint holds it: with 1 in the destination, and its lanes after the word. -/
def State.savedBy (s : State) (d : Opc) : State :=
  (s.deliver d (s.iss.lanes.map (fun l => (l, .w 1)))).each (fun x l =>
    x.modLane (lkOf s.iss.gk l) (fun y => y.counted (s.lane (lkOf s.iss.gk l)).windows.length false false))

/-- The checkpoint that CTXSAVE makes, with free values for its bytes. -/
def State.drawnCheckpoint (d : Opc) (s : State) (locs : List Loc) : Checkpoint :=
  (s.savedBy d).snapshot (s.group s.iss.gk).tk (drawBytes s.free locs.length)

/-- The bytes of a checkpoint stored at their locations, and the checkpoint listed with the launches. -/
def State.putCheckpoint (core : Nat) (locs : List Loc) (cp : Checkpoint) (x : State) : State :=
  let x := (locs.zip cp.bytes).foldl (State.storeByte core) x
  let x := { x with free := x.free + locs.length }
  { x with l := { x.l with checkpoints := x.l.checkpoints ++ [cp] } }.raiseFloor core

/-- The team's checkpoint drawn up, and its bytes stored. -/
def State.saveCheckpoint (d : Opc) (s : State) (locs : List Loc) : State :=
  s.deliverWith d (s.iss.lanes.map (fun l => (l, .w 0))) (State.putCheckpoint (s.group s.iss.gk).core locs (s.drawnCheckpoint d locs))

theorem exec_ctxsave (c : Bool) (d a : Opc) (s : State) :
    exec (.ctxsave c d a) s = .next (s.ctxWord (.ctxsave c d a) d a.toNat (2 : BitVec 8).toNat .write 2 (State.saveCheckpoint d)) := rfl

/-- A lane that has gone on, with the word counted in its windows, is as its checkpoint holds it. -/
theorem Lane.counted_advance (y : Lane) : y.advance.counted y.windows.length false false = Resumed y := by
  have hlen : y.advance.windows.length = y.windows.length := by
    unfold Lane.advance
    cases y.resume <;> rfl
  rw [Lane.counted_eq _ _ hlen rfl, Resumed]
  congr 2
  funext w
  simp

/-- The state that a checkpoint holds. -/
theorem State.savedBy_spec {s : State} {d : Opc} (hne : s.iss.lanes ≠ []) (hls : s.iss.lanes.Pairwise (· < ·)) (hd : isQ d = false) :
    LanesBecome s (s.savedBy d) (fun _ => Resumed) ∧ DestHolds s (s.savedBy d) d (fun _ => .w 1) ∧ (s.savedBy d).t = s.t := by
  obtain ⟨hdest, hgo, x, L, hx, ht⟩ := State.deliverWith_goesOn (after := id) (fun _ => 1) hne hls hd fun _ => ⟨rfl, rfl⟩
  have hxiss : x.iss = s.iss := by rw [hx]
  have hxt : x.t = s.t := by rw [hx]
  have hiss : (s.deliver d (s.iss.lanes.map fun l => (l, .w 1))).iss = s.iss := (congrArg State.iss ht).trans hxiss
  have hteams : (s.deliver d (s.iss.lanes.map fun l => (l, .w 1))).t = s.t := (congrArg State.t ht).trans hxt
  unfold State.savedBy State.each
  rw [hiss]
  obtain ⟨hframe, hin, hout⟩ := (laneStep_modLane s s.iss.gk
    fun l y => y.counted (s.lane (lkOf s.iss.gk l)).windows.length false false).foldl _ hiss s.iss.lanes (lanes_nodup hls)
  refine ⟨⟨fun l hl => ?_, fun k hk => (hout k hk).trans (hgo.2 k hk)⟩, ?_, ?_⟩
  · exact (hin l hl).trans ((congrArg (fun y : Lane => y.counted _ false false) (hgo.1 l hl)).trans (Lane.counted_advance _))
  · exact destHolds_of_regs hdest (by rw [hframe]; rfl) (by rw [hframe]; rfl)
  · rw [hframe]
    exact hteams

/-- What the bytes' stores leave. -/
theorem State.putCheckpoint_memoryOnly (core : Nat) {locs : List Loc} (cp : Checkpoint) (x : State)
    (hdev : ∀ l ∈ locs, ∃ a pol, l = .dev a pol false) :
    MemoryOnly { x with l := { x.l with checkpoints := x.l.checkpoints ++ [cp] } } (x.putCheckpoint core locs cp) := by
  obtain ⟨o, e, f, hfold⟩ := memoryOnly_foldl (f := State.storeByte core) x (locs.zip cp.bytes)
    fun y p hp => memoryOnly_storeByte y (hdev _ (List.of_mem_zip hp).1)
  unfold State.putCheckpoint
  rw [hfold]
  exact .trans ⟨_, _, _, rfl⟩ (memoryOnly_raiseFloor _ _)

/-- The bytes' stores leave every other byte, where the core has no dirty copy. -/
theorem State.putCheckpoint_devByte {core : Nat} {locs : List Loc} (cp : Checkpoint) {x : State} {y : Nat}
    (hdev : ∀ l ∈ locs, ∃ a pol, l = .dev a pol false) (hy : ∀ l ∈ locs, ∀ pol, l ≠ .dev y pol false) (h : L1Clear core x) :
    devByte (x.putCheckpoint core locs cp) y = devByte x y := by
  have hfold (ps : List (Loc × Byte)) (hps : ∀ p ∈ ps, p.1 ∈ locs) (x : State) (h : L1Clear core x) :
      devByte (ps.foldl (State.storeByte core) x) y = devByte x y ∧ L1Clear core (ps.foldl (State.storeByte core) x) := by
    induction ps generalizing x with
    | nil => exact ⟨rfl, h⟩
    | cons p ps ih =>
      have hp := hps p List.mem_cons_self
      obtain ⟨hbyte, hclear⟩ := storeByte_keeps (core := core) (hdev _ hp) (hy _ hp) h
      rw [List.foldl_cons]
      exact (ih (fun q hq => hps q (List.mem_cons_of_mem _ hq)) _ hclear).imp_left fun hrest => hrest.trans hbyte
  obtain ⟨hbyte, hclear⟩ := hfold (locs.zip cp.bytes) (fun p hp => (List.of_mem_zip hp).1) x h
  unfold State.putCheckpoint
  exact (raiseFloor_devByte (by exact hclear) y).trans hbyte

theorem State.team_congr {x y : State} (h : x.t = y.t) (k : Nat) : x.team k = y.team k := by rw [State.team, State.team, h]

/-- CTXSAVE once the bytes may move. -/
theorem ctxsave_saves {s : State} {c : Bool} {d a : Opc} {ls : List (Loc × Nat)} (h : Issues s (.ctxsave c d a)) (hd : isQ d = false)
    (hm : MayMove s a 2) (hat : AreaAt s a .write ls) (hdev : ∀ p ∈ ls, ∃ x pol, p.1 = .dev x pol false) :
    let tk := (s.group s.iss.gk).tk
    let T := s.team tk
    Goes s (.ctxsave c d a) (fun t => ∃ cp w, t.l = { s.l with checkpoints := s.l.checkpoints ++ [cp] } ∧
      cp.ln = T.ln ∧ cp.team = T.idx ∧ LanesBecome s w (fun _ => Resumed) ∧ DestHolds s w d (fun _ => .w 1) ∧ Holds cp w tk ∧
      AllAdvance s t ∧ DestHolds s t d (fun _ => .w 0) ∧ t.team tk = { T with saving := none } ∧
      ((∀ p ∈ s.o.l1, p.1 / 2 ^ 48 ≠ (s.group s.iss.gk).core) →
        ∀ x, (∀ l ∈ byteLocs ls, ∀ pol, l ≠ .dev x pol false) → devByte t x = devByte s x)) := by
  intro tk T
  have hexec : exec (.ctxsave c d a) s = .next (s.moving.saveCheckpoint d (byteLocs ls)) := by
    rw [exec_ctxsave, State.ctxWord_of_mayMove h rfl hm hat]
  have hlocs := byteLocs_dev hdev
  generalize byteLocs ls = locs at hexec hlocs
  obtain ⟨hne, hls, -⟩ := h
  obtain ⟨hwlanes, hwdest, hwt⟩ := State.savedBy_spec (s := s.moving) hne hls hd
  have hwdest' := destHolds_since (s := s) hwdest rfl rfl
  have hmem := State.putCheckpoint_memoryOnly (s.group s.iss.gk).core (s.moving.drawnCheckpoint d locs) (hdev := hlocs)
  obtain ⟨hdest, hgo, x, L, hx, ht⟩ := State.deliverWith_goesOn (s := s.moving)
    (after := State.putCheckpoint (s.group s.iss.gk).core locs (s.moving.drawnCheckpoint d locs)) (fun _ => 0) hne hls hd
    fun x => by
      obtain ⟨o, e, f, hput⟩ := hmem x
      rw [hput]
      exact ⟨rfl, rfl⟩
  have hdest' := destHolds_since (s := s) hdest rfl rfl
  have hteam : (s.moving.savedBy d).team tk = { T with saving := none } :=
    (State.team_congr hwt tk).trans s.moving_team_same
  have hln := congrArg Team.ln hteam
  have hidx := congrArg Team.idx hteam
  have hxo : x.o = s.o := by rw [hx]; rfl
  have hxl : x.l = s.l := by rw [hx]; rfl
  have hxt : x.t = s.moving.t := by rw [hx]
  refine ⟨_, hexec.trans (congrArg _ ht), s.moving.drawnCheckpoint d locs, s.moving.savedBy d, ?_, hln,
    hidx, hwlanes, hwdest', holds_snapshot _ _ _, ht ▸ hgo, ht ▸ hdest', ?_, fun hclear y hy => ?_⟩
  · obtain ⟨o, e, f, hput⟩ := hmem x
    rw [hput, hxl]
  · obtain ⟨o, e, f, hput⟩ := hmem x
    rw [hput]
    exact (State.team_congr hxt tk).trans s.moving_team_same
  · have hcore : L1Clear (s.group s.iss.gk).core x := by rw [L1Clear, hxo]; exact hclear
    refine (State.putCheckpoint_devByte _ hlocs hy hcore).trans ?_
    rw [devByte_eq, devByte_eq, hxo]

end Sys2Proof.Machine
end

section
/-! CTXSAVE and CTXLOAD settled (O31, R136, R137). -/

namespace Sys2Proof.Machine

open Sys2Proof Sys2Proof.Claims

/-- A capability that is too small for a checkpoint: CTXSAVE and CTXLOAD give their status. -/
theorem runs_of_short {s : State} {i : Instr} {d a : Opc} {need : BitVec 8} {kind : AccKind} {short : Word}
    {body : State → List Loc → State} (he : exec i s = .next (s.ctxWord i d a.toNat need.toNat kind short body)) (hp : (s.group s.iss.gk).pair = false)
    (hc : Covers s (s.heldCap s.iss.gk s.low a.toNat) [1] need 0 0) (hsaving : (s.teamOf s.iss.gk).saving = none)
    (hlen : Cap.len (s.heldCap s.iss.gk s.low a.toNat) < (s.kern s.iss.gk).saveSize) : Runs s i d (fun _ => .w short) := fun hable =>
  State.compute_computes s i d _ 1 hable (by rw [he, State.ctxWord_of_short hp hc hsaving hlen]) (fits_one d) fun _ _ => oneWord_w _

end Sys2Proof.Machine

namespace Sys2Proof.Proofs

open Sys2Proof.Machine Sys2Proof.Claims

/-- Settles O31: the state that a checkpoint is cut from is the word's own with 1 written and its lanes gone on; a cut of a table holds
its part, and a part put back is the part that it was; the stores change memory alone, and read bytes do not depend on the stop. -/
theorem checkpoints : Obligations.Checkpoints := by
  intro s c d a ls tk T
  refine ⟨fun p hp => ?_, fun h hd hm hat hdev => ctxsave_saves h hd hm hat hdev, ?_, ?_⟩
  · simp only [List.mem_cons, List.not_mem_nil, or_false] at hp
    rcases hp with rfl | rfl
    · exact runs_of_short (exec_ctxsave c d a s)
    · exact runs_of_short (exec_ctxload c d a s)
  · rintro cp _ h hm hat hdev hclean rfl hcp honce
    exact ctxload_restores h hm hat hdev hclean hcp honce
  · intro h hd hm hat hdev hclean hnone
    refine ctxload_refuses h hd hm hat hdev hclean fun cp hin => Bool.eq_false_iff.mpr fun his => ?_
    simp only [IsCheckpoint, Bool.and_eq_true, beq_iff_eq] at his
    obtain ⟨⟨hln, hteam⟩, hbytes⟩ := his
    exact hnone cp hin hln hteam hbytes

end Sys2Proof.Proofs
end
